-- ==== Sys2Proof/Word.lean ====
section
/-! DEFINITION. The word types of the machine: 32-bit registers, 64-bit pairs and addresses, bytes, lane masks. -/

namespace Sys2Proof

/-- A 32-bit register or instruction word (spec 00 R7). -/
abbrev Word := BitVec 32

/-- A register pair or an address (spec 00 R7). -/
abbrev DWord := BitVec 64

/-- One byte of a memory. -/
abbrev Byte := BitVec 8

/-- A set of lanes, bit l for lane l. -/
abbrev Mask := BitVec 32

/-- A register field v0 to v63 (spec 05 R78). -/
abbrev Reg := BitVec 6

/-- A predicate field, 7 is pt (spec 05 R79). -/
abbrev PReg := BitVec 3

end Sys2Proof
end

