-- ==== Sys2Proof/Config.lean ====
section
/-! DEFINITION. What the spec leaves open, as constants without a body: nothing in Lean can compute or prove a value of one.  A statement that holds
of the model holds whatever they are. -/

namespace Sys2Proof

/-- A byte read through the host window (spec 10 R183 names the window and no chapter gives its contents; log 8). -/
opaque Config.hostWindow : Nat → Byte

/-- Whether a load finds a held sector in the hidden read cache, which the spec allows but does not force (spec 10 R189; log 6). -/
opaque Config.cacheHit : Nat → Bool

/-- The results of FRCP, FRSQ, FEX2, FLG2, FSIN and FCOS where the spec gives only a bound: opcode and operand (spec 09 R166; log 5). -/
opaque Config.special : Nat → Word → Word

/-- %trapinfo of a trap whose raising rule gives no value for it (spec 20 R370; log 23). -/
opaque Config.trapInfo : Nat → DWord

/-- The die whose HBM holds a physical address: the mapping is the partition's configuration (spec 10 R183, R190; log 25). -/
opaque Config.hbmDie : Nat → Nat

/-- Which of several free entries the hardware takes, where the spec says only that it takes one (spec 03 R45, 18 R339, 14 R277; log 27). -/
opaque Config.pick : Nat → Nat

/-- Whether the second read of a location passes where the hardware reads it within one step (spec 10 R190; log 7). -/
opaque Config.retryPasses : Nat → Bool

/-- Whether a command whose completion no rule dates completes now; it does at the latest when its group waits for it (spec 05 R74; log 13). -/
opaque Config.lands : Nat → Bool

/-- Whether a channel of another device has room for a message (spec 23 R422; log 28). -/
opaque Config.remoteRoom : Nat → Bool

/-- What the spill engine leaves in a save area: bytes by offset, of a format that no program sees (spec 20 R383, log 36). -/
opaque Config.saveImage : Nat → List (Nat × Byte)

/-- SHAKE256 with a 32-byte output, as a number (spec 23 R428; log 9). -/
opaque Config.shake256 : List Byte → Nat

/-- ML-DSA-65 verification of an image against a public key (spec 23 R428; log 9). -/
opaque Config.verifies : List Byte → List Byte → List Byte → Bool

/-- ML-DSA-65 signature with the device's identity key (spec 23 R428; log 9). -/
opaque Config.sign : List Byte → List Byte

end Sys2Proof
end

