-- ==== Sys2Proof/Syntax.lean ====
section
/-! DEFINITION. The syntax of the machine: the operands of the 222 instructions (spec 05 R78 to R95 and each entry) and the operands of the 90 steps that
the opcode table lists beside them (spec 95).  One constructor of `Instr` per row of the opcode table. -/

namespace Sys2Proof

/-- The guard of formats T, L, B and M and the stall field (spec 05 R78, R79, 01 R8). -/
structure Guard where
  p : PReg
  n : BitVec 1
  s : BitVec 2
  deriving DecidableEq, Repr, Inhabited

/-- The conditions of ISET, ISETI, ISET64 (spec 07 R120). -/
inductive ICond where
  | eq | ne | lt | le | gt | ge | ltu | geu
  deriving DecidableEq, Repr, Inhabited

/-- The conditions of FSET and DSET (spec 09 R163). -/
inductive FCond where
  | eq | ne | lt | le | gt | ge | num | nan
  deriving DecidableEq, Repr, Inhabited

/-- The operations of PLOP (spec 07 R122). -/
inductive PlopOp where
  | and | or | xor | andn | orn | nand | nor | xnor
  deriving DecidableEq, Repr, Inhabited

/-- The modes of VOTE (spec 07 R129). -/
inductive VoteMode where
  | any | all | uni
  deriving DecidableEq, Repr, Inhabited

/-- The operations of GRED and GSCAN (spec 07 R130). -/
inductive RedOp where
  | add | and | or | xor | smin | smax | umin | umax | fadd | fmin | fmax
  deriving DecidableEq, Repr, Inhabited

/-- The rounding field of the floating-point control word; `dyn` reads %fpmode (spec 05 R84). -/
inductive Rnd where
  | rne | rz | ru | rd | dyn
  deriving DecidableEq, Repr, Inhabited

/-- The operand of FCLASS (spec 09 R174). -/
inductive FClassSel where
  | f32 | f64 | h0 | h1 | b0 | b1
  deriving DecidableEq, Repr, Inhabited

/-- The order field of the memory control word (spec 05 R83). -/
inductive Order where
  | rlx | acq | rel | ar | sc
  deriving DecidableEq, Repr, Inhabited

/-- The scopes (spec 00 R6, 05 R83). -/
inductive Scope where
  | group | workgroup | cluster | die | device | domain | system
  deriving DecidableEq, Repr, Inhabited

/-- The size field of the memory control word (spec 05 R83). -/
inductive MSize where
  | b8 | b16 | b32 | b64 | b128
  deriving DecidableEq, Repr, Inhabited

/-- The operation field of the memory control word (spec 05 R83). -/
inductive AtomOp where
  | add | and | or | xor | smin | smax | umin | umax | xchg | fadd | fmin | fmax
  deriving DecidableEq, Repr, Inhabited

/-- The object kinds of BIND (spec 17 R315). -/
inductive BindKind where
  | at | lock | ph
  deriving DecidableEq, Repr, Inhabited

/-- The spaces of copies, operand loads and drains (spec 11 R202, 12 R224, R242). -/
inductive Space where
  | glob | scr | vault
  deriving DecidableEq, Repr, Inhabited

/-- The registration modes of a phaser (spec 18 R337). -/
inductive PhMode where
  | s | w | sw
  deriving DecidableEq, Repr, Inhabited

/-- The node use of a copy (spec 11 R202). -/
inductive NodeUse where
  | none | sig | gate
  deriving DecidableEq, Repr, Inhabited

/-- The writer classes of the region table (spec 19 R360, R363). -/
inductive RegionClass where
  | thread | rook | drain | coll | clear
  deriving DecidableEq, Repr, Inhabited

/-- The system registers (spec 06 R111). -/
inductive SReg where
  | tid | lane | group | wgid | wgcount | stage | core | cluster | die | part | ctx | tempi | tempm | cont | contlive
  | xheld | trapcause | trappc | trapinfo | trapmask | fpflags | fpmode | cycle
  deriving DecidableEq, Repr, Inhabited

/-- A place whose bits can fail their code: HBM frame byte, vault byte, scratchpad byte of a core (spec 10 R190). -/
inductive Loc where
  | hbm (pa : Nat)
  | vault (cluster off : Nat)
  | scratch (core addr : Nat)
  deriving DecidableEq, Repr, Inhabited

/-- What a host command of pre-emption or halt names (spec 20 R381, 21 R393). -/
inductive HostTarget where
  | wg (serial : Nat)
  | launch (ctx : Nat) (block : DWord)
  | ctx (c : Nat)
  | part
  deriving DecidableEq, Repr, Inhabited

/-- One piece of state the debugger can reach (spec 21 R396). -/
inductive DbgItem where
  | reg (grp lane : Nat) (r : Reg)
  | pred (grp lane : Nat) (p : PReg)
  | sys (grp lane : Nat) (r : SReg)
  | pc (grp lane : Nat)
  | depth (grp lane : Nat)
  | scratch (off : Nat)
  | mem (va : Nat)
  | vault (addr : Nat)
  deriving DecidableEq, Repr, Inhabited

/-- The words of a context descriptor that the host writes (spec 23 R417). -/
structure CtxDesc where
  root : DWord
  handler : DWord
  trapArea : DWord
  saveBase : DWord
  saveSize : DWord
  ireserve : DWord
  mreserve : DWord
  traceBase : DWord
  traceSize : Word
  traceEnables : Word
  /-- The reserved bytes 0x54 to 0xFF, as one number: must be zero. -/
  reserved : Nat
  deriving DecidableEq, Repr, Inhabited

/-- The target whose access table an entry stands in: local HBM, the vault of a cluster, another device (spec 10 R179, 17 R322, 23 R426). -/
inductive Target where
  | hbm
  | vault (cluster : Nat)
  | device (dev : Nat)
  deriving DecidableEq, Repr, Inhabited

/-- An entry of an access table: what the masters of `part` may do at a target, for local HBM with `size` bytes from `base` (spec 23 R426). -/
structure Grant where
  part : Nat
  base : Nat
  size : Nat
  read : Bool
  write : Bool
  tgt : Target
  deriving DecidableEq, Repr, Inhabited

/-- A request for an attestation report, through the endpoint of a partition, with the requester's nonce (spec 23 R428). -/
structure Challenge where
  part : Nat
  nonce : List Byte
  deriving DecidableEq, Repr, Inhabited

/-- What the management firmware gives a partition (spec 23 R426, 14 R265). -/
structure PartCfg where
  owner : Nat
  clusters : List Nat
  lanes : List (Nat × Nat)
  grants : List Grant
  /-- Its shares of the eight Ultra Ethernet ports, then of the sixteen Dexeirvo planes (spec 23 R426, R427). -/
  shares : List Nat
  deriving DecidableEq, Repr, Inhabited

/-- Control-space words without behaviour of their own (spec 00 R4, 21 R390, R399, 23 R416, R421). -/
inductive CsWord where
  | channelSize (ch n : Nat)
  | fabric (k : Nat) (lo hi : DWord) (ridx flags : Word) (reserved : DWord)
  | codeBreak (core k : Nat) (addr : DWord)
  | watchRange (core k : Nat) (base : DWord) (len : Word)
  | breakCtl (core k : Nat) (serial : Nat) (w : Word)
  | watchCtl (core k : Nat) (serial : Nat) (w : Word)
  | haltOnBreak (core : Nat) (on : Bool)
  | binRange (core k : Nat) (base limit : DWord)
  /-- The host sets or clears an entry of the region table (spec 19 R363). -/
  | region (k : Nat) (cls : RegionClass) (vault : Bool) (base size : Nat)
  deriving DecidableEq, Repr, Inhabited

/-- A request of another device (spec 17 R321). -/
inductive RemoteOp where
  | load (pa n : Nat)
  | store (pa : Nat) (bytes : List Byte)
  | atomic (op : AtomOp) (sz : MSize) (pa : Nat) (operand : BitVec 128)
  | cas (sz : MSize) (pa : Nat) (cmp new : BitVec 128)
  deriving DecidableEq, Repr, Inhabited

/-- A request of another device, with the partition that its master belongs to (spec 23 R426). -/
structure RemoteReq where
  part : Nat
  op : RemoteOp
  deriving DecidableEq, Repr, Inhabited


/-- The instructions of the opcode map and the steps of the table, in the table's order.  Register fields are raw (their pair and quad
alignment is a check of issue, spec 05 R73); `g` is the guard with the stall field, `st` the stall field where there is no guard. -/
inductive Instr where
  | nop (g : Guard)
  | mov (d a : Reg) (g : Guard)
  | ldi (d : Reg) (lit : BitVec 32) (g : Guard)
  | ldiIadd (d a : Reg) (lit : BitVec 32) (g : Guard)
  | ldiAnd (d a : Reg) (lit : BitVec 32) (g : Guard)
  | ldiOr (d a : Reg) (lit : BitVec 32) (g : Guard)
  | ldiXor (d a : Reg) (lit : BitVec 32) (g : Guard)
  | ldiShl (d a : Reg) (n : BitVec 5) (g : Guard)
  | ldiShr (d a : Reg) (n : BitVec 5) (g : Guard)
  | ldiSar (d a : Reg) (n : BitVec 5) (g : Guard)
  | ldiIset (cc : ICond) (pd : PReg) (a : Reg) (lit : BitVec 32) (g : Guard)
  | iadd (d a b : Reg) (g : Guard)
  | isub (d a b : Reg) (g : Guard)
  | imul (d a b : Reg) (g : Guard)
  | imulhs (d a b : Reg) (g : Guard)
  | imulhz (d a b : Reg) (g : Guard)
  | imad (d a b : Reg) (g : Guard)
  | ineg (d a : Reg) (g : Guard)
  | iabs (d a : Reg) (g : Guard)
  | imin (d a b : Reg) (g : Guard)
  | imax (d a b : Reg) (g : Guard)
  | iminz (d a b : Reg) (g : Guard)
  | imaxz (d a b : Reg) (g : Guard)
  | and_ (d a b : Reg) (g : Guard)
  | or_ (d a b : Reg) (g : Guard)
  | xor_ (d a b : Reg) (g : Guard)
  | andn (d a b : Reg) (g : Guard)
  | not_ (d a : Reg) (g : Guard)
  | shl (d a b : Reg) (g : Guard)
  | shr (d a b : Reg) (g : Guard)
  | sar (d a b : Reg) (g : Guard)
  | rol (d a b : Reg) (g : Guard)
  | clz (d a : Reg) (g : Guard)
  | popc (d a : Reg) (g : Guard)
  | brev (d a : Reg) (g : Guard)
  | bitil3 (d a : Reg) (g : Guard)
  | bitil2 (d a b : Reg) (g : Guard)
  | bitdi3 (d a : Reg) (k : BitVec 2) (g : Guard)
  | bfx (d a b : Reg) (g : Guard)
  | bfi (d a b : Reg) (g : Guard)
  | iset (cc : ICond) (pd : PReg) (a b : Reg) (g : Guard)
  | plop (op : PlopOp) (pd : PReg) (pa pb : BitVec 3) (g : Guard)
  | sel (d a b : Reg) (g : Guard)
  | iaddi (d a : Reg) (imm : BitVec 10) (st : BitVec 2)
  | andi (d a : Reg) (imm : BitVec 10) (st : BitVec 2)
  | ori (d a : Reg) (imm : BitVec 10) (st : BitVec 2)
  | xori (d a : Reg) (imm : BitVec 10) (st : BitVec 2)
  | shli (d a : Reg) (imm : BitVec 10) (st : BitVec 2)
  | shri (d a : Reg) (imm : BitVec 10) (st : BitVec 2)
  | sari (d a : Reg) (imm : BitVec 10) (st : BitVec 2)
  | iseti (cc : ICond) (pd : PReg) (a : Reg) (imm : BitVec 10) (st : BitVec 2)
  | iaddc (d a b : Reg) (g : Guard)
  | add64 (d a b : Reg) (g : Guard)
  | sub64 (d a b : Reg) (g : Guard)
  | addw64 (d a b : Reg) (g : Guard)
  | shl64 (d a b : Reg) (g : Guard)
  | shrl64 (d a b : Reg) (g : Guard)
  | iset64 (cc : ICond) (pd : PReg) (a b : Reg) (g : Guard)
  | shfl (d a b : Reg) (g : Guard)
  | shflx (d a : Reg) (k : BitVec 5) (g : Guard)
  | shflup (d a : Reg) (k : BitVec 5) (g : Guard)
  | shfldn (d a : Reg) (k : BitVec 5) (g : Guard)
  | vote (mode : VoteMode) (pd : PReg) (pa : BitVec 3) (g : Guard)
  | ballot (d : Reg) (pa : BitVec 3) (g : Guard)
  | gred (d a : Reg) (op : RedOp) (g : Guard)
  | gscan (d a : Reg) (ex : Bool) (op : RedOp) (g : Guard)
  | reorder (w : BitVec 1) (a b : Reg) (st : BitVec 2)
  | lser (st : BitVec 2)
  | lsend (st : BitVec 2)
  | rngx (d a b : Reg) (g : Guard)
  | fadd (d a b : Reg) (rm : Rnd) (g : Guard)
  | fsub (d a b : Reg) (rm : Rnd) (g : Guard)
  | fmul (d a b : Reg) (rm : Rnd) (g : Guard)
  | ffma (d a b : Reg) (c : BitVec 6) (rm : Rnd) (g : Guard)
  | fmin (d a b : Reg) (g : Guard)
  | fmax (d a b : Reg) (g : Guard)
  | fabs (d a : Reg) (g : Guard)
  | fneg (d a : Reg) (g : Guard)
  | fset (cc : FCond) (pd : PReg) (a b : Reg) (g : Guard)
  | frcp (d a : Reg) (g : Guard)
  | frsq (d a : Reg) (g : Guard)
  | fsqrt (d a : Reg) (rm : Rnd) (g : Guard)
  | fdiv (d a b : Reg) (rm : Rnd) (g : Guard)
  | fex2 (d a : Reg) (g : Guard)
  | flg2 (d a : Reg) (g : Guard)
  | fsin (d a : Reg) (g : Guard)
  | fcos (d a : Reg) (g : Guard)
  | frnd (d a : Reg) (rm : Rnd) (g : Guard)
  | dadd (d a b : Reg) (rm : Rnd) (g : Guard)
  | dsub (d a b : Reg) (rm : Rnd) (g : Guard)
  | dmul (d a b : Reg) (rm : Rnd) (g : Guard)
  | dfma (d a b : Reg) (c : BitVec 6) (rm : Rnd) (g : Guard)
  | dmin (d a b : Reg) (g : Guard)
  | dmax (d a b : Reg) (g : Guard)
  | dset (cc : FCond) (pd : PReg) (a b : Reg) (g : Guard)
  | ddiv (d a b : Reg) (rm : Rnd) (g : Guard)
  | dsqrt (d a : Reg) (rm : Rnd) (g : Guard)
  | hadd2 (d a b : Reg) (rm : Rnd) (g : Guard)
  | hmul2 (d a b : Reg) (rm : Rnd) (g : Guard)
  | hfma2 (d a b : Reg) (c : BitVec 6) (rm : Rnd) (g : Guard)
  | cvtfi (d a : Reg) (wide uns : Bool) (rm : Rnd) (g : Guard)
  | cvtif (d a : Reg) (wide uns : Bool) (rm : Rnd) (g : Guard)
  | cvtfd (d a : Reg) (g : Guard)
  | cvtdf (d a : Reg) (rm : Rnd) (g : Guard)
  | cvtfh (d a b : Reg) (rm : Rnd) (g : Guard)
  | cvthf (d a : Reg) (e : BitVec 1) (g : Guard)
  | narrow8 (d a : Reg) (sat inf uns : Bool) (prec : BitVec 3) (c : BitVec 6) (g : Guard)
  | widen8 (d a : Reg) (inf uns : Bool) (prec : BitVec 3) (g : Guard)
  | scalex (d a b : Reg) (rm : Rnd) (g : Guard)
  | fclass (d a : Reg) (which : FClassSel) (g : Guard)
  | ld8s (d a : Reg) (ofs : BitVec 6) (g : Guard)
  | ld8z (d a : Reg) (ofs : BitVec 6) (g : Guard)
  | ld16s (d a : Reg) (ofs : BitVec 6) (g : Guard)
  | ld16z (d a : Reg) (ofs : BitVec 6) (g : Guard)
  | ld32 (d a : Reg) (ofs : BitVec 6) (g : Guard)
  | ld64 (d a : Reg) (ofs : BitVec 6) (g : Guard)
  | ld128 (d a : Reg) (ofs : BitVec 6) (g : Guard)
  | st8 (d a : Reg) (ofs : BitVec 6) (g : Guard)
  | st16 (d a : Reg) (ofs : BitVec 6) (g : Guard)
  | st32 (d a : Reg) (ofs : BitVec 6) (g : Guard)
  | st64 (d a : Reg) (ofs : BitVec 6) (g : Guard)
  | st128 (d a : Reg) (ofs : BitVec 6) (g : Guard)
  | lds32 (d a : Reg) (ofs : BitVec 6) (g : Guard)
  | lds64 (d a : Reg) (ofs : BitVec 6) (g : Guard)
  | lds128 (d a : Reg) (ofs : BitVec 6) (g : Guard)
  | sts32 (d a : Reg) (ofs : BitVec 6) (g : Guard)
  | sts64 (d a : Reg) (ofs : BitVec 6) (g : Guard)
  | sts128 (d a : Reg) (ofs : BitVec 6) (g : Guard)
  | ldv32 (d a : Reg) (ofs : BitVec 6) (g : Guard)
  | ldv128 (d a : Reg) (ofs : BitVec 6) (g : Guard)
  | stv32 (d a : Reg) (ofs : BitVec 6) (g : Guard)
  | stv128 (d a : Reg) (ofs : BitVec 6) (g : Guard)
  | ldo (d a : Reg) (ord : Order) (sc : Scope) (sz : MSize) (g : Guard)
  | sto (d a : Reg) (ord : Order) (sc : Scope) (sz : MSize) (g : Guard)
  | atom (d a b : Reg) (ord : Order) (sc : Scope) (cm : Bool) (sz : MSize) (op : AtomOp) (g : Guard)
  | red (d a : Reg) (ord : Order) (sc : Scope) (cm : Bool) (sz : MSize) (op : AtomOp) (g : Guard)
  | cas (d a b : Reg) (ord : Order) (sc : Scope) (sz : MSize) (g : Guard)
  | fence (ord : Order) (sc : Scope) (g : Guard)
  | bind (d a b : Reg) (e : BitVec 4) (all vault : Bool) (kind : BindKind) (g : Guard)
  | unbind (e : BitVec 4) (g : Guard)
  | acq (d a : Reg) (try_ : BitVec 1) (sc : Scope) (g : Guard)
  | rel (a : Reg) (sc : Scope) (g : Guard)
  | gbegin (d : Reg) (off : BitVec 19) (g : Guard)
  | gcommit (g : Guard)
  | gabort (code : BitVec 6) (g : Guard)
  | waitw (d a b : Reg) (sc : Scope) (sz : MSize) (g : Guard)
  | pref (a : Reg) (ofs : BitVec 6) (g : Guard)
  | prefTlb (a : Reg) (ofs : BitVec 6) (g : Guard)
  | oclaim (n : BitVec 5) (g : Guard)
  | orelease (n : BitVec 5) (g : Guard)
  | oload (n : BitVec 6) (a b : Reg) (sp : Space) (g : Guard)
  | mconv (n : BitVec 6) (a b : Reg) (half sat inf uns : Bool) (prec : BitVec 3) (code : BitVec 4) (g : Guard)
  | msign (k : BitVec 3) (a b : Reg) (st : BitVec 2)
  | tacq (d : Reg) (t : BitVec 4) (g : Guard)
  | trel (t : BitVec 4) (g : Guard)
  | tld (d a : Reg) (t : BitVec 4) (g : Guard)
  | tst (d a : Reg) (t : BitVec 4) (g : Guard)
  | tzero (t : BitVec 4) (g : Guard)
  | tdrain (t : BitVec 6) (a b : Reg) (clr add : Bool) (sp : Space) (g : Guard)
  | mstat (d : Reg) (which : BitVec 6) (g : Guard)
  | cins (d a b : Reg) (g : Guard)
  | crem (d a b : Reg) (g : Guard)
  | cmove (d a b : Reg) (g : Guard)
  | copen (d a b : Reg) (g : Guard)
  | cnext (d a : Reg) (g : Guard)
  | cclose (a : Reg) (g : Guard)
  | ccount (d : Reg) (which : BitVec 2) (b : Reg) (g : Guard)
  | cfreeze (d b : Reg) (g : Guard)
  | cthaw (d b : Reg) (g : Guard)
  | cnbr (d a : Reg) (cnt : BitVec 5) (g : Guard)
  | cmrg (d a b : Reg) (i32 keepz : Bool) (g : Guard)
  | cinit (d a : Reg) (eng : BitVec 4) (g : Guard)
  | cinitRel (d a : Reg) (g : Guard)
  | ktrav (d a : Reg) (self : Bool) (g : Guard)
  | ktravResume (d a : Reg) (self : Bool) (g : Guard)
  | kstat (d : Reg) (which : BitVec 1) (g : Guard)
  | bari (n : BitVec 4) (imm : BitVec 10) (st : BitVec 2)
  | bara (n : BitVec 4) (g : Guard)
  | barw (n : BitVec 4) (g : Guard)
  | baraw (n : BitVec 4) (g : Guard)
  | phregNew (d : Reg) (mode : PhMode) (g : Guard)
  | phreg (d a : Reg) (mode : PhMode) (g : Guard)
  | phdrop (a : Reg) (g : Guard)
  | phsig (a : Reg) (g : Guard)
  | phwait (d a : Reg) (g : Guard)
  | phsw (d a : Reg) (g : Guard)
  | cpy (d a b : Reg) (sect : BitVec 12) (src dst : Space) (bar : Bool) (bi : BitVec 4) (shadow : Bool) (use : NodeUse) (solo : Bool) (g : Guard)
  | cpym (d a b : Reg) (sect : BitVec 12) (src : Space) (bar : Bool) (bi : BitVec 4) (shadow solo : Bool) (g : Guard)
  | publishDecl (vault : Bool) (k : BitVec 2) (a b : Reg) (g : Guard)
  | publish (k : BitVec 2) (g : Guard)
  | publishDrop (k : BitVec 2) (g : Guard)
  | gnodeArm (d a : Reg) (g : Guard)
  | gnodeSig (d a : Reg) (n : BitVec 8) (g : Guard)
  | gnodeTile (a : Reg) (t : BitVec 4) (g : Guard)
  | gnodeFree (a : Reg) (g : Guard)
  | qsend (a : Reg) (len : BitVec 8) (pd : BitVec 3) (nb : Bool) (k : BitVec 6) (g : Guard)
  | qrecv (d a : Reg) (len : BitVec 8) (pd : BitVec 3) (nb : Bool) (k : BitVec 6) (g : Guard)
  | bra (off : BitVec 18) (g : Guard)
  | brx (a : Reg) (g : Guard)
  | call (off : BitVec 18) (g : Guard)
  | ret (a : Reg) (g : Guard)
  | exit (a : Reg) (cnt : BitVec 3) (g : Guard)
  | yield_ (g : Guard)
  | yieldWg (g : Guard)
  | trap (code : BitVec 6) (g : Guard)
  | trapret (st : BitVec 2)
  | bkpt (code : BitVec 6) (g : Guard)
  | gets (d : Reg) (sr : SReg) (g : Guard)
  | sets (a : Reg) (sr : SReg) (g : Guard)
  | setcont (off : BitVec 19) (en : Bool) (last first : BitVec 6) (g : Guard)
  | btopup (a b : Reg) (g : Guard)
  | xacq (g : Guard)
  | xrel (g : Guard)
  | serial (st : BitVec 2)
  | serialend (st : BitVec 2)
  | ownmarkPriv (d a : Reg) (vault : Bool) (g : Guard)
  | ownmarkShared (d a : Reg) (vault : Bool) (g : Guard)
  | ownmarkRegion (d a : Reg) (e : BitVec 6) (cls : RegionClass) (vault : Bool) (g : Guard)
  | capld (d : Reg) (k : BitVec 6) (g : Guard)
  | tracemark (a : Reg) (mark : BitVec 10) (st : BitVec 2)
  | cctlOff (st : BitVec 2)
  | cctlOn (st : BitVec 2)
  | clauseFetch (w g : Nat)
  | issueSlotGrant (core slot : Nat)
  | waitPointRelease (w g : Nat)
  | resultWriteback (w g : Nat)
  | sfuResultLanding (w g id : Nat)
  | loadLanding (w g id : Nat)
  | storeAccepted (w g id : Nat)
  | scratchLoadLanding (w g id : Nat)
  | fenceComplete (w g id : Nat)
  | writeCombineFlush (core line : Nat)
  | pageWalkStart (part ctx va : Nat)
  | pageWalkComplete (k : Nat)
  | memoryReadRetry (loc : Loc) (pass : Bool)
  | remoteAccessTimeout (w g id : Nat)
  | xacqGrant (w : Nat)
  | xregDeadlockDetect (w g : Nat)
  | reorderComplete (w : Nat)
  | waitwReturn (w g id : Nat)
  | gcommitGrant (w g lane : Nat)
  | copySliceStart (k : Nat)
  | copySector (k : Nat)
  | copyComplete (k : Nat)
  | publishSwap (w g id : Nat)
  | oloadLanding (w g id : Nat)
  | mconvLanding (w g id : Nat)
  | msignSubmit (w c : Nat)
  | passStart (cluster : Nat)
  | passRetire (cluster : Nat)
  | tacqLanding (w g id : Nat)
  | tldLanding (w g id : Nat)
  | mstatLanding (w g id : Nat)
  | tdrainComplete (w g id : Nat)
  | collectionCommandExecute (engine lane : Nat)
  | cthawComplete (engine lane : Nat)
  | knightTraversal (cluster : Nat)
  | knightTraversalDone (cluster : Nat)
  | qsendEnqueue (w g id : Nat)
  | qsendHostAck (w g id : Nat)
  | qrecvReceive (w g id : Nat)
  | eventBacklogDrain (part : Nat)
  | queueEntry (part : Nat)
  | admissionDecision (part : Nat)
  | admissionStop (part : Nat)
  | workgroupStart (w : Nat)
  | workgroupRetire (w : Nat)
  | yieldTaken (w : Nat)
  | stallPreemptTimeout (w : Nat)
  | preemptionSave (w : Nat)
  | saveSpill (w : Nat)
  | quantumStart (part ctx : Nat)
  | quantumExpiry (part ctx : Nat)
  | haltReport (w : Nat)
  | stepEnd (w : Nat)
  | traceRecordWrite (part ctx : Nat)
  | rootLaunch (part ctx : Nat) (block : DWord)
  | invalidateTranslation (part ctx va size : Nat)
  | killLaunch (part ctx : Nat) (block : DWord)
  | preemptCommand (part : Nat) (tgt : HostTarget)
  | swapOut (part ctx : Nat)
  | swapIn (part ctx : Nat)
  | moveContext (part ctx dest dctx : Nat)
  | haltRequest (part : Nat) (tgt : HostTarget)
  | stepCommand (w limit : Nat)
  | resumeCommand (w : Nat)
  | replayCommand (part wgid stage n : Nat)
  | refillReserves (part ctx : Nat) (i m : DWord)
  | readCounters (core bin : Nat)
  | clearCounters (core : Nat)
  | debugStateRead (w : Nat) (item : DbgItem)
  | debugStateWrite (w : Nat) (item : DbgItem) (v : DWord)
  | queueTableWrite (part q : Nat) (v : Word)
  | contextDescriptorWrite (part ctx : Nat) (desc : CtxDesc)
  | controlSpaceWrite (part : Nat) (v : CsWord)
  | inboxSend (part : Nat) (msg : List Byte)
  | hostRmaWrite (part ctx va : Nat) (bytes : List Byte)
  | attestationRequest (nonce : Challenge)
  | firmwareBoot (image key sig : List Byte)
  | deviceReset
  | linkTraining (dom : Nat)
  | planeLinkDown (plane : Nat)
  | partitionCreate (part : Nat) (cfg : PartCfg)
  | partitionTeardown (part : Nat)
  | softError (loc : Loc)
  | hostFrameRemap (loc : Loc)
  | contextEnd (part ctx : Nat)
  | remoteAccessArrival (dev : Nat) (op : RemoteReq)
  | remoteMessageArrival (dev part ch : Nat) (msg : List Byte)
  | accessTableGrant (part : Nat) (grant : Grant)
  | idleSlotCycle (core slot : Nat)
  | traceRecordConsumed (part ctx n : Nat)
  deriving DecidableEq, Repr, Inhabited

end Sys2Proof
end

