-- ==== Sys2Proof/WellFormed.lean ====
section
/-! DEFINITION. Which terms are instructions of the machine: the values an encoding cannot hold, or that the spec reserves, are shut out. -/

namespace Sys2Proof

/-- Orders of LDO (spec 05 R83). -/
def Order.loadOk : Order → Bool
  | .rlx | .acq | .sc => true
  | .rel | .ar => false

/-- Orders of STO and RED (spec 05 R83). -/
def Order.storeOk : Order → Bool
  | .rlx | .rel | .sc => true
  | .acq | .ar => false

/-- Sizes of ATOM, RED and CAS (spec 05 R83). -/
def MSize.atomOk : MSize → Bool
  | .b32 | .b64 | .b128 => true
  | .b8 | .b16 => false

/-- A term is well formed when its fields hold no value that the spec reserves for the word or the literal: RESERVED_FIELD is then not
raised (spec 05 R73, R78, R83 to R85 and each entry).  The steps of the table have no encoding; every one is well formed. -/
def Instr.wf : Instr → Bool
  | .nop _ => true
  | .mov _ _ _ => true
  | .ldi _ _ _ => true
  | .ldiIadd _ _ _ _ => true
  | .ldiAnd _ _ _ _ => true
  | .ldiOr _ _ _ _ => true
  | .ldiXor _ _ _ _ => true
  | .ldiShl _ _ _ _ => true
  | .ldiShr _ _ _ _ => true
  | .ldiSar _ _ _ _ => true
  | .ldiIset _ pd _ _ _ => decide (pd.toNat ≠ 7)
  | .iadd _ _ _ _ => true
  | .isub _ _ _ _ => true
  | .imul _ _ _ _ => true
  | .imulhs _ _ _ _ => true
  | .imulhz _ _ _ _ => true
  | .imad _ _ _ _ => true
  | .ineg _ _ _ => true
  | .iabs _ _ _ => true
  | .imin _ _ _ _ => true
  | .imax _ _ _ _ => true
  | .iminz _ _ _ _ => true
  | .imaxz _ _ _ _ => true
  | .and_ _ _ _ _ => true
  | .or_ _ _ _ _ => true
  | .xor_ _ _ _ _ => true
  | .andn _ _ _ _ => true
  | .not_ _ _ _ => true
  | .shl _ _ _ _ => true
  | .shr _ _ _ _ => true
  | .sar _ _ _ _ => true
  | .rol _ _ _ _ => true
  | .clz _ _ _ => true
  | .popc _ _ _ => true
  | .brev _ _ _ => true
  | .bitil3 _ _ _ => true
  | .bitil2 _ _ _ _ => true
  | .bitdi3 _ _ k _ => decide (k.toNat < 3)
  | .bfx _ _ _ _ => true
  | .bfi _ _ _ _ => true
  | .iset _ pd _ _ _ => decide (pd.toNat ≠ 7)
  | .plop _ pd _ _ _ => decide (pd.toNat ≠ 7)
  | .sel _ _ _ _ => true
  | .iaddi _ _ _ _ => true
  | .andi _ _ _ _ => true
  | .ori _ _ _ _ => true
  | .xori _ _ _ _ => true
  | .shli _ _ imm _ => decide (imm.toNat < 32)
  | .shri _ _ imm _ => decide (imm.toNat < 32)
  | .sari _ _ imm _ => decide (imm.toNat < 32)
  | .iseti _ pd _ _ _ => decide (pd.toNat ≠ 7)
  | .iaddc _ _ _ _ => true
  | .add64 _ _ _ _ => true
  | .sub64 _ _ _ _ => true
  | .addw64 _ _ _ _ => true
  | .shl64 _ _ _ _ => true
  | .shrl64 _ _ _ _ => true
  | .iset64 _ pd _ _ _ => decide (pd.toNat ≠ 7)
  | .shfl _ _ _ _ => true
  | .shflx _ _ _ _ => true
  | .shflup _ _ _ _ => true
  | .shfldn _ _ _ _ => true
  | .vote _ pd _ _ => decide (pd.toNat ≠ 7)
  | .ballot _ _ _ => true
  | .gred _ _ _ _ => true
  | .gscan _ _ _ _ _ => true
  | .reorder _ _ _ _ => true
  | .lser _ => true
  | .lsend _ => true
  | .rngx _ _ _ _ => true
  | .fadd _ _ _ _ _ => true
  | .fsub _ _ _ _ _ => true
  | .fmul _ _ _ _ _ => true
  | .ffma _ _ _ _ _ _ => true
  | .fmin _ _ _ _ => true
  | .fmax _ _ _ _ => true
  | .fabs _ _ _ => true
  | .fneg _ _ _ => true
  | .fset _ pd _ _ _ => decide (pd.toNat ≠ 7)
  | .frcp _ _ _ => true
  | .frsq _ _ _ => true
  | .fsqrt _ _ _ _ => true
  | .fdiv _ _ _ _ _ => true
  | .fex2 _ _ _ => true
  | .flg2 _ _ _ => true
  | .fsin _ _ _ => true
  | .fcos _ _ _ => true
  | .frnd _ _ _ _ => true
  | .dadd _ _ _ _ _ => true
  | .dsub _ _ _ _ _ => true
  | .dmul _ _ _ _ _ => true
  | .dfma _ _ _ _ _ _ => true
  | .dmin _ _ _ _ => true
  | .dmax _ _ _ _ => true
  | .dset _ pd _ _ _ => decide (pd.toNat ≠ 7)
  | .ddiv _ _ _ _ _ => true
  | .dsqrt _ _ _ _ => true
  | .hadd2 _ _ _ _ _ => true
  | .hmul2 _ _ _ _ _ => true
  | .hfma2 _ _ _ _ _ _ => true
  | .cvtfi _ _ _ _ _ _ => true
  | .cvtif _ _ _ _ _ _ => true
  | .cvtfd _ _ _ => true
  | .cvtdf _ _ _ _ => true
  | .cvtfh _ _ _ _ _ => true
  | .cvthf _ _ _ _ => true
  | .narrow8 d _ _ _ _ prec c _ => decide (prec.toNat ≠ 0) && decide (c ≠ d)
  | .widen8 _ _ _ _ prec _ => decide (prec.toNat ≠ 0)
  | .scalex _ _ _ _ _ => true
  | .fclass _ _ _ _ => true
  | .ld8s _ _ _ _ => true
  | .ld8z _ _ _ _ => true
  | .ld16s _ _ _ _ => true
  | .ld16z _ _ _ _ => true
  | .ld32 _ _ _ _ => true
  | .ld64 _ _ _ _ => true
  | .ld128 _ _ _ _ => true
  | .st8 _ _ _ _ => true
  | .st16 _ _ _ _ => true
  | .st32 _ _ _ _ => true
  | .st64 _ _ _ _ => true
  | .st128 _ _ _ _ => true
  | .lds32 _ _ _ _ => true
  | .lds64 _ _ _ _ => true
  | .lds128 _ _ _ _ => true
  | .sts32 _ _ _ _ => true
  | .sts64 _ _ _ _ => true
  | .sts128 _ _ _ _ => true
  | .ldv32 _ _ _ _ => true
  | .ldv128 _ _ _ _ => true
  | .stv32 _ _ _ _ => true
  | .stv128 _ _ _ _ => true
  | .ldo _ _ ord _ _ _ => ord.loadOk
  | .sto _ _ ord _ _ _ => ord.storeOk
  | .atom _ _ _ _ _ cm sz op _ => sz.atomOk && (!cm || op != .xchg)
  | .red _ _ ord _ cm sz op _ => ord.storeOk && sz.atomOk && (!cm || op != .xchg)
  | .cas _ _ _ _ _ sz _ => sz.atomOk
  | .fence ord _ _ => decide (ord ≠ .rlx)
  | .bind _ a b _ all vault _ _ => !all || (!vault && decide (a = 0) && decide (b = 0))
  | .unbind _ _ => true
  | .acq _ _ _ _ _ => true
  | .rel _ _ _ => true
  | .gbegin _ _ _ => true
  | .gcommit _ => true
  | .gabort _ _ => true
  | .waitw _ _ _ _ sz _ => decide (sz = .b32) || decide (sz = .b64)
  | .pref _ _ _ => true
  | .prefTlb _ _ _ => true
  | .oclaim _ _ => true
  | .orelease _ _ => true
  | .oload _ _ _ _ _ => true
  | .mconv _ _ _ half _ _ _ _ code _ => !half || decide (code.toNat ≥ 3)
  | .msign _ _ _ _ => true
  | .tacq _ _ _ => true
  | .trel _ _ => true
  | .tld _ _ _ _ => true
  | .tst _ _ _ _ => true
  | .tzero _ _ => true
  | .tdrain _ _ _ _ _ _ _ => true
  | .mstat _ which _ => decide (which.toNat ≤ 16) || decide (32 ≤ which.toNat)
  | .cins d a _ _ => !(decide (a.toNat ≤ d.toNat) && decide (d.toNat < a.toNat + 4))
  | .crem d a _ _ => !(decide (a.toNat ≤ d.toNat) && decide (d.toNat < a.toNat + 4))
  | .cmove d a _ _ => decide (d ≠ a)
  | .copen _ _ _ _ => true
  | .cnext _ _ _ => true
  | .cclose _ _ => true
  | .ccount _ which _ _ => decide (which.toNat < 3)
  | .cfreeze _ _ _ => true
  | .cthaw _ _ _ => true
  | .cnbr _ _ cnt _ => decide (1 ≤ cnt.toNat) && decide (cnt.toNat ≤ 27)
  | .cmrg _ _ _ _ _ _ => true
  | .cinit _ _ _ _ => true
  | .cinitRel _ _ _ => true
  | .ktrav _ _ _ _ => true
  | .ktravResume _ _ _ _ => true
  | .kstat _ _ _ => true
  | .bari _ imm _ => decide (1 ≤ imm.toNat) && decide (imm.toNat < 512)
  | .bara _ _ => true
  | .barw _ _ => true
  | .baraw _ _ => true
  | .phregNew _ _ _ => true
  | .phreg _ _ _ _ => true
  | .phdrop _ _ => true
  | .phsig _ _ => true
  | .phwait _ _ _ => true
  | .phsw _ _ _ => true
  | .cpy _ _ b _ _ _ bar bi _ use _ _ => (bar || decide (bi = 0)) && (decide (use ≠ .none) || decide (b = 0))
  | .cpym _ _ _ _ _ bar bi _ _ _ => (bar || decide (bi = 0))
  | .publishDecl _ _ _ _ _ => true
  | .publish _ _ => true
  | .publishDrop _ _ => true
  | .gnodeArm _ _ _ => true
  | .gnodeSig _ _ n _ => decide (n.toNat ≠ 0)
  | .gnodeTile _ _ _ => true
  | .gnodeFree _ _ => true
  | .qsend _ _ pd nb _ _ => (nb && decide (pd.toNat ≠ 7)) || (!nb && decide (pd.toNat = 0))
  | .qrecv _ _ _ pd nb _ _ => (nb && decide (pd.toNat ≠ 7)) || (!nb && decide (pd.toNat = 0))
  | .bra _ _ => true
  | .brx _ _ => true
  | .call _ _ => true
  | .ret _ _ => true
  | .exit a cnt _ => decide (cnt.toNat ≤ 4) && (decide (cnt.toNat ≠ 0) || decide (a = 0)) && decide (a.toNat + 2 * cnt.toNat ≤ 64)
  | .yield_ _ => true
  | .yieldWg _ => true
  | .trap _ _ => true
  | .trapret _ => true
  | .bkpt _ _ => true
  | .gets _ _ _ => true
  | .sets _ _ _ => true
  | .setcont _ en last first _ => decide (first.toNat ≤ last.toNat) && (en || (decide (last = 0) && decide (first = 0)))
  | .btopup _ _ _ => true
  | .xacq _ => true
  | .xrel _ => true
  | .serial _ => true
  | .serialend _ => true
  | .ownmarkPriv _ _ _ _ => true
  | .ownmarkShared _ _ _ _ => true
  | .ownmarkRegion d a _ cls vault _ => decide (cls ≠ .clear) || (decide (d = 0) && decide (a = 0) && !vault)
  | .capld _ _ _ => true
  | .tracemark _ _ _ => true
  | .cctlOff _ => true
  | .cctlOn _ => true
  | .clauseFetch _ _ => true
  | .issueSlotGrant _ _ => true
  | .waitPointRelease _ _ => true
  | .resultWriteback _ _ => true
  | .sfuResultLanding _ _ _ => true
  | .loadLanding _ _ _ => true
  | .storeAccepted _ _ _ => true
  | .scratchLoadLanding _ _ _ => true
  | .fenceComplete _ _ _ => true
  | .writeCombineFlush _ _ => true
  | .pageWalkStart _ _ _ => true
  | .pageWalkComplete _ => true
  | .memoryReadRetry _ _ => true
  | .remoteAccessTimeout _ _ _ => true
  | .xacqGrant _ => true
  | .xregDeadlockDetect _ _ => true
  | .reorderComplete _ => true
  | .waitwReturn _ _ _ => true
  | .gcommitGrant _ _ _ => true
  | .copySliceStart _ => true
  | .copySector _ => true
  | .copyComplete _ => true
  | .publishSwap _ _ _ => true
  | .oloadLanding _ _ _ => true
  | .mconvLanding _ _ _ => true
  | .msignSubmit _ _ => true
  | .passStart _ => true
  | .passRetire _ => true
  | .tacqLanding _ _ _ => true
  | .tldLanding _ _ _ => true
  | .mstatLanding _ _ _ => true
  | .tdrainComplete _ _ _ => true
  | .collectionCommandExecute _ _ => true
  | .cthawComplete _ _ => true
  | .knightTraversal _ => true
  | .knightTraversalDone _ => true
  | .qsendEnqueue _ _ _ => true
  | .qsendHostAck _ _ _ => true
  | .qrecvReceive _ _ _ => true
  | .eventBacklogDrain _ => true
  | .queueEntry _ => true
  | .admissionDecision _ => true
  | .admissionStop _ => true
  | .workgroupStart _ => true
  | .workgroupRetire _ => true
  | .yieldTaken _ => true
  | .stallPreemptTimeout _ => true
  | .preemptionSave _ => true
  | .saveSpill _ => true
  | .quantumStart _ _ => true
  | .quantumExpiry _ _ => true
  | .haltReport _ => true
  | .stepEnd _ => true
  | .traceRecordWrite _ _ => true
  | .rootLaunch _ _ _ => true
  | .invalidateTranslation _ _ _ _ => true
  | .killLaunch _ _ _ => true
  | .preemptCommand _ _ => true
  | .swapOut _ _ => true
  | .swapIn _ _ => true
  | .moveContext _ _ _ _ => true
  | .haltRequest _ _ => true
  | .stepCommand _ _ => true
  | .resumeCommand _ => true
  | .replayCommand _ _ _ _ => true
  | .refillReserves _ _ _ _ => true
  | .readCounters _ _ => true
  | .clearCounters _ => true
  | .debugStateRead _ _ => true
  | .debugStateWrite _ _ _ => true
  | .queueTableWrite _ _ _ => true
  | .contextDescriptorWrite _ _ _ => true
  | .controlSpaceWrite _ _ => true
  | .inboxSend _ _ => true
  | .hostRmaWrite _ _ _ _ => true
  | .attestationRequest _ => true
  | .firmwareBoot _ _ _ => true
  | .deviceReset => true
  | .linkTraining _ => true
  | .planeLinkDown _ => true
  | .partitionCreate _ _ => true
  | .partitionTeardown _ => true
  | .softError _ => true
  | .hostFrameRemap _ => true
  | .contextEnd _ _ => true
  | .remoteAccessArrival _ _ => true
  | .remoteMessageArrival _ _ _ _ => true
  | .accessTableGrant _ _ => true
  | .idleSlotCycle _ _ => true
  | .traceRecordConsumed _ _ _ => true

end Sys2Proof
end

