-- ==== Sys2Proof/Decode.lean ====
section
/-! DEFINITION. The decoder of instruction words (spec 05 R78 to R95, each entry's encoding), total on any words and any bytes, rejecting by name; after it
the encoder, written from the same tables. -/

namespace Sys2Proof

/-- Why words are not an instruction: a reserved opcode or 0xFF (spec 05 R71 order 4, R95); a reserved field or value of the word or its literal
(R73 step 1); too few bytes. -/
inductive DecodeErr where
  | illegalOpcode
  | reservedField
  | overrun
  deriving DecidableEq, Repr, Inhabited

/-- Bits [lo + n - 1 : lo] of a word (spec 00 R3). -/
def bits (w : Word) (lo n : Nat) : BitVec n := w.extractLsb' lo n

/-- The opcode, bits [31:24] (spec 05 R78). -/
def fOp (w : Word) : Nat := (bits w 24 8).toNat

/-- Field D of formats T, I, L and M (spec 05 R78). -/
def fD (w : Word) : BitVec 6 := bits w 18 6

/-- Field A of formats T, I, L and M (spec 05 R78). -/
def fA (w : Word) : BitVec 6 := bits w 12 6

/-- Field B, MOD or OFS (spec 05 R78). -/
def fB (w : Word) : BitVec 6 := bits w 6 6

/-- Guard and stall of formats T, L and M (spec 05 R78). -/
def fG (w : Word) : Guard := ⟨bits w 3 3, bits w 2 1, bits w 0 2⟩

/-- Guard and stall of format B (spec 05 R78). -/
def fGB (w : Word) : Guard := ⟨bits w 21 3, bits w 20 1, bits w 0 2⟩

/-- The guard of a word that takes none: pt, not inverted (spec 05 R79). -/
def fPt (w : Word) : Bool := decide (bits w 3 3 = 7) && decide (bits w 2 1 = 0)

/-- The upper three bits of a field (spec 07 R115). -/
def hi3 (f : BitVec 6) : BitVec 3 := f.extractLsb' 3 3

/-- The lower three bits of a field (spec 07 R115). -/
def lo3 (f : BitVec 6) : BitVec 3 := f.extractLsb' 0 3

/-- The codes of `ICond` (spec 07 R120). -/
def ICond.code : ICond → Nat
  | .eq => 0
  | .ne => 1
  | .lt => 2
  | .le => 3
  | .gt => 4
  | .ge => 5
  | .ltu => 6
  | .geu => 7

/-- `ICond` from its code, none where the code is reserved (spec 07 R120). -/
def ICond.ofCode : Nat → Option ICond
  | 0 => some .eq
  | 1 => some .ne
  | 2 => some .lt
  | 3 => some .le
  | 4 => some .gt
  | 5 => some .ge
  | 6 => some .ltu
  | 7 => some .geu
  | _ => none

/-- The codes of `FCond` (spec 09 R163). -/
def FCond.code : FCond → Nat
  | .eq => 0
  | .ne => 1
  | .lt => 2
  | .le => 3
  | .gt => 4
  | .ge => 5
  | .num => 6
  | .nan => 7

/-- `FCond` from its code, none where the code is reserved (spec 09 R163). -/
def FCond.ofCode : Nat → Option FCond
  | 0 => some .eq
  | 1 => some .ne
  | 2 => some .lt
  | 3 => some .le
  | 4 => some .gt
  | 5 => some .ge
  | 6 => some .num
  | 7 => some .nan
  | _ => none

/-- The codes of `PlopOp` (spec 07 R122). -/
def PlopOp.code : PlopOp → Nat
  | .and => 0
  | .or => 1
  | .xor => 2
  | .andn => 3
  | .orn => 4
  | .nand => 5
  | .nor => 6
  | .xnor => 7

/-- `PlopOp` from its code, none where the code is reserved (spec 07 R122). -/
def PlopOp.ofCode : Nat → Option PlopOp
  | 0 => some .and
  | 1 => some .or
  | 2 => some .xor
  | 3 => some .andn
  | 4 => some .orn
  | 5 => some .nand
  | 6 => some .nor
  | 7 => some .xnor
  | _ => none

/-- The codes of `VoteMode` (spec 07 R129). -/
def VoteMode.code : VoteMode → Nat
  | .any => 0
  | .all => 1
  | .uni => 2

/-- `VoteMode` from its code, none where the code is reserved (spec 07 R129). -/
def VoteMode.ofCode : Nat → Option VoteMode
  | 0 => some .any
  | 1 => some .all
  | 2 => some .uni
  | _ => none

/-- The codes of `RedOp` (spec 07 R130). -/
def RedOp.code : RedOp → Nat
  | .add => 0
  | .and => 1
  | .or => 2
  | .xor => 3
  | .smin => 4
  | .smax => 5
  | .umin => 6
  | .umax => 7
  | .fadd => 8
  | .fmin => 9
  | .fmax => 10

/-- `RedOp` from its code, none where the code is reserved (spec 07 R130). -/
def RedOp.ofCode : Nat → Option RedOp
  | 0 => some .add
  | 1 => some .and
  | 2 => some .or
  | 3 => some .xor
  | 4 => some .smin
  | 5 => some .smax
  | 6 => some .umin
  | 7 => some .umax
  | 8 => some .fadd
  | 9 => some .fmin
  | 10 => some .fmax
  | _ => none

/-- The codes of `Rnd` (spec 05 R84). -/
def Rnd.code : Rnd → Nat
  | .rne => 0
  | .rz => 1
  | .ru => 2
  | .rd => 3
  | .dyn => 4

/-- `Rnd` from its code, none where the code is reserved (spec 05 R84). -/
def Rnd.ofCode : Nat → Option Rnd
  | 0 => some .rne
  | 1 => some .rz
  | 2 => some .ru
  | 3 => some .rd
  | 4 => some .dyn
  | _ => none

/-- The codes of `FClassSel` (spec 09 R174). -/
def FClassSel.code : FClassSel → Nat
  | .f32 => 0
  | .f64 => 1
  | .h0 => 2
  | .h1 => 3
  | .b0 => 4
  | .b1 => 5

/-- `FClassSel` from its code, none where the code is reserved (spec 09 R174). -/
def FClassSel.ofCode : Nat → Option FClassSel
  | 0 => some .f32
  | 1 => some .f64
  | 2 => some .h0
  | 3 => some .h1
  | 4 => some .b0
  | 5 => some .b1
  | _ => none

/-- The codes of `Order` (spec 05 R83). -/
def Order.code : Order → Nat
  | .rlx => 0
  | .acq => 1
  | .rel => 2
  | .ar => 3
  | .sc => 4

/-- `Order` from its code, none where the code is reserved (spec 05 R83). -/
def Order.ofCode : Nat → Option Order
  | 0 => some .rlx
  | 1 => some .acq
  | 2 => some .rel
  | 3 => some .ar
  | 4 => some .sc
  | _ => none

/-- The codes of `Scope` (spec 05 R83). -/
def Scope.code : Scope → Nat
  | .group => 0
  | .workgroup => 1
  | .cluster => 2
  | .die => 3
  | .device => 4
  | .domain => 5
  | .system => 6

/-- `Scope` from its code, none where the code is reserved (spec 05 R83). -/
def Scope.ofCode : Nat → Option Scope
  | 0 => some .group
  | 1 => some .workgroup
  | 2 => some .cluster
  | 3 => some .die
  | 4 => some .device
  | 5 => some .domain
  | 6 => some .system
  | _ => none

/-- The codes of `MSize` (spec 05 R83). -/
def MSize.code : MSize → Nat
  | .b8 => 0
  | .b16 => 1
  | .b32 => 2
  | .b64 => 3
  | .b128 => 4

/-- `MSize` from its code, none where the code is reserved (spec 05 R83). -/
def MSize.ofCode : Nat → Option MSize
  | 0 => some .b8
  | 1 => some .b16
  | 2 => some .b32
  | 3 => some .b64
  | 4 => some .b128
  | _ => none

/-- The codes of `AtomOp` (spec 05 R83). -/
def AtomOp.code : AtomOp → Nat
  | .add => 0
  | .and => 1
  | .or => 2
  | .xor => 3
  | .smin => 4
  | .smax => 5
  | .umin => 6
  | .umax => 7
  | .xchg => 8
  | .fadd => 9
  | .fmin => 10
  | .fmax => 11

/-- `AtomOp` from its code, none where the code is reserved (spec 05 R83). -/
def AtomOp.ofCode : Nat → Option AtomOp
  | 0 => some .add
  | 1 => some .and
  | 2 => some .or
  | 3 => some .xor
  | 4 => some .smin
  | 5 => some .smax
  | 6 => some .umin
  | 7 => some .umax
  | 8 => some .xchg
  | 9 => some .fadd
  | 10 => some .fmin
  | 11 => some .fmax
  | _ => none

/-- The codes of `BindKind` (spec 17 R315). -/
def BindKind.code : BindKind → Nat
  | .at => 0
  | .lock => 1
  | .ph => 2

/-- `BindKind` from its code, none where the code is reserved (spec 17 R315). -/
def BindKind.ofCode : Nat → Option BindKind
  | 0 => some .at
  | 1 => some .lock
  | 2 => some .ph
  | _ => none

/-- The codes of `Space` (spec 11 R202). -/
def Space.code : Space → Nat
  | .glob => 0
  | .scr => 1
  | .vault => 2

/-- `Space` from its code, none where the code is reserved (spec 11 R202). -/
def Space.ofCode : Nat → Option Space
  | 0 => some .glob
  | 1 => some .scr
  | 2 => some .vault
  | _ => none

/-- The codes of `PhMode` (spec 18 R339). -/
def PhMode.code : PhMode → Nat
  | .s => 0
  | .w => 1
  | .sw => 2

/-- `PhMode` from its code, none where the code is reserved (spec 18 R339). -/
def PhMode.ofCode : Nat → Option PhMode
  | 0 => some .s
  | 1 => some .w
  | 2 => some .sw
  | _ => none

/-- The codes of `NodeUse` (spec 11 R202). -/
def NodeUse.code : NodeUse → Nat
  | .none => 0
  | .sig => 1
  | .gate => 2

/-- `NodeUse` from its code, none where the code is reserved (spec 11 R202). -/
def NodeUse.ofCode : Nat → Option NodeUse
  | 0 => some .none
  | 1 => some .sig
  | 2 => some .gate
  | _ => Option.none

/-- The codes of `SReg` (spec 06 R111). -/
def SReg.code : SReg → Nat
  | .tid => 0
  | .lane => 1
  | .group => 2
  | .wgid => 3
  | .wgcount => 4
  | .stage => 5
  | .core => 6
  | .cluster => 7
  | .die => 8
  | .part => 9
  | .ctx => 10
  | .tempi => 11
  | .tempm => 12
  | .cont => 13
  | .contlive => 14
  | .xheld => 15
  | .trapcause => 16
  | .trappc => 17
  | .trapinfo => 18
  | .trapmask => 19
  | .fpflags => 20
  | .fpmode => 21
  | .cycle => 22

/-- `SReg` from its code, none where the code is reserved (spec 06 R111). -/
def SReg.ofCode : Nat → Option SReg
  | 0 => some .tid
  | 1 => some .lane
  | 2 => some .group
  | 3 => some .wgid
  | 4 => some .wgcount
  | 5 => some .stage
  | 6 => some .core
  | 7 => some .cluster
  | 8 => some .die
  | 9 => some .part
  | 10 => some .ctx
  | 11 => some .tempi
  | 12 => some .tempm
  | 13 => some .cont
  | 14 => some .contlive
  | 15 => some .xheld
  | 16 => some .trapcause
  | 17 => some .trappc
  | 18 => some .trapinfo
  | 19 => some .trapmask
  | 20 => some .fpflags
  | 21 => some .fpmode
  | 22 => some .cycle
  | _ => none

/-- The codes of the writer classes (spec 19 R360). -/
def RegionClass.code : RegionClass → Nat
  | .thread => 0
  | .rook => 1
  | .drain => 2
  | .coll => 3
  | .clear => 7

/-- A writer class from its code (spec 19 R360). -/
def RegionClass.ofCode : Nat → Option RegionClass
  | 0 => some .thread
  | 1 => some .rook
  | 2 => some .drain
  | 3 => some .coll
  | 7 => some .clear
  | _ => none

/-- The end of every arm of the decoder: the zero fields are zero and no reserved value is used, or RESERVED_FIELD (spec 05 R73, R78). -/
def accept (zero : Bool) (i : Instr) : Except DecodeErr Instr :=
  if zero && i.wf then .ok i else .error .reservedField

/-- A field with an enumerated value: RESERVED_FIELD where the code is reserved. -/
def pick {α : Type} (o : Option α) (k : α → Except DecodeErr Instr) : Except DecodeErr Instr :=
  match o with
  | some x => k x
  | none => .error .reservedField

/-- Opcodes 0x00 to 0x3F (spec 07, 05 R80). -/
def decodeInt (w l : Word) : Except DecodeErr Instr :=
  match fOp w with
  | 0x00 => accept (decide (fD w = 0) && decide (fA w = 0) && decide (fB w = 0)) (.nop (fG w))
  | 0x01 => accept (decide (fB w = 0)) (.mov (fD w) (fA w) (fG w))
  | 0x02 =>
    match (fB w).toNat with
    | 0 => accept (decide (fA w = 0) && decide (fB w = 0)) (.ldi (fD w) l (fG w))
    | 1 => accept (decide (fB w = 1)) (.ldiIadd (fD w) (fA w) l (fG w))
    | 2 => accept (decide (fB w = 2)) (.ldiAnd (fD w) (fA w) l (fG w))
    | 3 => accept (decide (fB w = 3)) (.ldiOr (fD w) (fA w) l (fG w))
    | 4 => accept (decide (fB w = 4)) (.ldiXor (fD w) (fA w) l (fG w))
    | 5 => accept (decide (fB w = 5) && decide (bits l 5 27 = 0)) (.ldiShl (fD w) (fA w) (bits l 0 5) (fG w))
    | 6 => accept (decide (fB w = 6) && decide (bits l 5 27 = 0)) (.ldiShr (fD w) (fA w) (bits l 0 5) (fG w))
    | 7 => accept (decide (fB w = 7) && decide (bits l 5 27 = 0)) (.ldiSar (fD w) (fA w) (bits l 0 5) (fG w))
    | 8 => pick (ICond.ofCode (hi3 (fD w)).toNat) fun cc => accept (decide (fB w = 8)) (.ldiIset cc (lo3 (fD w)) (fA w) l (fG w))
    | _ => .error .reservedField
  | 0x03 => accept (true) (.iadd (fD w) (fA w) (fB w) (fG w))
  | 0x04 => accept (true) (.isub (fD w) (fA w) (fB w) (fG w))
  | 0x05 => accept (true) (.imul (fD w) (fA w) (fB w) (fG w))
  | 0x06 => accept (true) (.imulhs (fD w) (fA w) (fB w) (fG w))
  | 0x07 => accept (true) (.imulhz (fD w) (fA w) (fB w) (fG w))
  | 0x08 => accept (true) (.imad (fD w) (fA w) (fB w) (fG w))
  | 0x09 => accept (decide (fB w = 0)) (.ineg (fD w) (fA w) (fG w))
  | 0x0A => accept (decide (fB w = 0)) (.iabs (fD w) (fA w) (fG w))
  | 0x0B => accept (true) (.imin (fD w) (fA w) (fB w) (fG w))
  | 0x0C => accept (true) (.imax (fD w) (fA w) (fB w) (fG w))
  | 0x0D => accept (true) (.iminz (fD w) (fA w) (fB w) (fG w))
  | 0x0E => accept (true) (.imaxz (fD w) (fA w) (fB w) (fG w))
  | 0x0F => accept (true) (.and_ (fD w) (fA w) (fB w) (fG w))
  | 0x10 => accept (true) (.or_ (fD w) (fA w) (fB w) (fG w))
  | 0x11 => accept (true) (.xor_ (fD w) (fA w) (fB w) (fG w))
  | 0x12 => accept (true) (.andn (fD w) (fA w) (fB w) (fG w))
  | 0x13 => accept (decide (fB w = 0)) (.not_ (fD w) (fA w) (fG w))
  | 0x14 => accept (true) (.shl (fD w) (fA w) (fB w) (fG w))
  | 0x15 => accept (true) (.shr (fD w) (fA w) (fB w) (fG w))
  | 0x16 => accept (true) (.sar (fD w) (fA w) (fB w) (fG w))
  | 0x17 => accept (true) (.rol (fD w) (fA w) (fB w) (fG w))
  | 0x18 => accept (decide (fB w = 0)) (.clz (fD w) (fA w) (fG w))
  | 0x19 => accept (decide (fB w = 0)) (.popc (fD w) (fA w) (fG w))
  | 0x1A => accept (decide (fB w = 0)) (.brev (fD w) (fA w) (fG w))
  | 0x1B => accept (decide (fB w = 0)) (.bitil3 (fD w) (fA w) (fG w))
  | 0x1C => accept (true) (.bitil2 (fD w) (fA w) (fB w) (fG w))
  | 0x1D => accept (decide ((fB w).toNat < 4)) (.bitdi3 (fD w) (fA w) ((fB w).setWidth 2) (fG w))
  | 0x1E => accept (true) (.bfx (fD w) (fA w) (fB w) (fG w))
  | 0x1F => accept (true) (.bfi (fD w) (fA w) (fB w) (fG w))
  | 0x20 => pick (ICond.ofCode (hi3 (fD w)).toNat) fun cc => accept (true) (.iset cc (lo3 (fD w)) (fA w) (fB w) (fG w))
  | 0x21 => pick (PlopOp.ofCode (hi3 (fD w)).toNat) fun op => accept (decide ((fA w).toNat < 8) && decide ((fB w).toNat < 8)) (.plop op (lo3 (fD w)) ((fA w).setWidth 3) ((fB w).setWidth 3) (fG w))
  | 0x22 => accept (true) (.sel (fD w) (fA w) (fB w) (fG w))
  | 0x23 => accept (true) (.iaddi (fD w) (fA w) (bits w 2 10) (bits w 0 2))
  | 0x24 => accept (true) (.andi (fD w) (fA w) (bits w 2 10) (bits w 0 2))
  | 0x25 => accept (true) (.ori (fD w) (fA w) (bits w 2 10) (bits w 0 2))
  | 0x26 => accept (true) (.xori (fD w) (fA w) (bits w 2 10) (bits w 0 2))
  | 0x27 => accept (true) (.shli (fD w) (fA w) (bits w 2 10) (bits w 0 2))
  | 0x28 => accept (true) (.shri (fD w) (fA w) (bits w 2 10) (bits w 0 2))
  | 0x29 => accept (true) (.sari (fD w) (fA w) (bits w 2 10) (bits w 0 2))
  | 0x2A => pick (ICond.ofCode (hi3 (fD w)).toNat) fun cc => accept (true) (.iseti cc (lo3 (fD w)) (fA w) (bits w 2 10) (bits w 0 2))
  | 0x2B => accept (true) (.iaddc (fD w) (fA w) (fB w) (fG w))
  | 0x2C => accept (true) (.add64 (fD w) (fA w) (fB w) (fG w))
  | 0x2D => accept (true) (.sub64 (fD w) (fA w) (fB w) (fG w))
  | 0x2E => accept (true) (.addw64 (fD w) (fA w) (fB w) (fG w))
  | 0x2F => accept (true) (.shl64 (fD w) (fA w) (fB w) (fG w))
  | 0x30 => accept (true) (.shrl64 (fD w) (fA w) (fB w) (fG w))
  | 0x31 => pick (ICond.ofCode (hi3 (fD w)).toNat) fun cc => accept (true) (.iset64 cc (lo3 (fD w)) (fA w) (fB w) (fG w))
  | 0x32 => accept (true) (.shfl (fD w) (fA w) (fB w) (fG w))
  | 0x33 => accept (decide ((fB w).toNat < 32)) (.shflx (fD w) (fA w) ((fB w).setWidth 5) (fG w))
  | 0x34 => accept (decide ((fB w).toNat < 32)) (.shflup (fD w) (fA w) ((fB w).setWidth 5) (fG w))
  | 0x35 => accept (decide ((fB w).toNat < 32)) (.shfldn (fD w) (fA w) ((fB w).setWidth 5) (fG w))
  | 0x36 => pick (VoteMode.ofCode (hi3 (fD w)).toNat) fun mode => accept (decide ((fA w).toNat < 8) && decide (fB w = 0)) (.vote mode (lo3 (fD w)) ((fA w).setWidth 3) (fG w))
  | 0x37 => accept (decide ((fA w).toNat < 8) && decide (fB w = 0)) (.ballot (fD w) ((fA w).setWidth 3) (fG w))
  | 0x38 => pick (RedOp.ofCode (fB w).toNat) fun op => accept (true) (.gred (fD w) (fA w) op (fG w))
  | 0x39 => pick (RedOp.ofCode ((fB w).toNat % 16)) fun op => accept (decide ((fB w).toNat < 32)) (.gscan (fD w) (fA w) (decide (16 ≤ (fB w).toNat)) op (fG w))
  | 0x3A => accept (decide ((fD w).toNat < 2) && fPt w) (.reorder ((fD w).setWidth 1) (fA w) (fB w) (bits w 0 2))
  | 0x3B => accept (decide (fD w = 0) && decide (fA w = 0) && decide (fB w = 0) && fPt w) (.lser (bits w 0 2))
  | 0x3C => accept (decide (fD w = 0) && decide (fA w = 0) && decide (fB w = 0) && fPt w) (.lsend (bits w 0 2))
  | 0x3D => accept (true) (.rngx (fD w) (fA w) (fB w) (fG w))
  | _ => .error .illegalOpcode

/-- Opcodes 0x40 to 0x67 (spec 09). -/
def decodeFp (w l : Word) : Except DecodeErr Instr :=
  match fOp w with
  | 0x40 => pick (Rnd.ofCode (bits l 0 3).toNat) fun rm => accept (decide (bits l 3 29 = 0)) (.fadd (fD w) (fA w) (fB w) rm (fG w))
  | 0x41 => pick (Rnd.ofCode (bits l 0 3).toNat) fun rm => accept (decide (bits l 3 29 = 0)) (.fsub (fD w) (fA w) (fB w) rm (fG w))
  | 0x42 => pick (Rnd.ofCode (bits l 0 3).toNat) fun rm => accept (decide (bits l 3 29 = 0)) (.fmul (fD w) (fA w) (fB w) rm (fG w))
  | 0x43 => pick (Rnd.ofCode (bits l 0 3).toNat) fun rm => accept (decide (bits l 14 18 = 0) && decide (bits l 3 5 = 0)) (.ffma (fD w) (fA w) (fB w) (bits l 8 6) rm (fG w))
  | 0x44 => accept (true) (.fmin (fD w) (fA w) (fB w) (fG w))
  | 0x45 => accept (true) (.fmax (fD w) (fA w) (fB w) (fG w))
  | 0x46 => accept (decide (fB w = 0)) (.fabs (fD w) (fA w) (fG w))
  | 0x47 => accept (decide (fB w = 0)) (.fneg (fD w) (fA w) (fG w))
  | 0x48 => pick (FCond.ofCode (hi3 (fD w)).toNat) fun cc => accept (true) (.fset cc (lo3 (fD w)) (fA w) (fB w) (fG w))
  | 0x49 => accept (decide (fB w = 0)) (.frcp (fD w) (fA w) (fG w))
  | 0x4A => accept (decide (fB w = 0)) (.frsq (fD w) (fA w) (fG w))
  | 0x4B => pick (Rnd.ofCode (bits l 0 3).toNat) fun rm => accept (decide (fB w = 0) && decide (bits l 3 29 = 0)) (.fsqrt (fD w) (fA w) rm (fG w))
  | 0x4C => pick (Rnd.ofCode (bits l 0 3).toNat) fun rm => accept (decide (bits l 3 29 = 0)) (.fdiv (fD w) (fA w) (fB w) rm (fG w))
  | 0x4D => accept (decide (fB w = 0)) (.fex2 (fD w) (fA w) (fG w))
  | 0x4E => accept (decide (fB w = 0)) (.flg2 (fD w) (fA w) (fG w))
  | 0x4F => accept (decide (fB w = 0)) (.fsin (fD w) (fA w) (fG w))
  | 0x50 => accept (decide (fB w = 0)) (.fcos (fD w) (fA w) (fG w))
  | 0x51 => pick (Rnd.ofCode (bits l 0 3).toNat) fun rm => accept (decide (fB w = 0) && decide (bits l 3 29 = 0)) (.frnd (fD w) (fA w) rm (fG w))
  | 0x52 => pick (Rnd.ofCode (bits l 0 3).toNat) fun rm => accept (decide (bits l 3 29 = 0)) (.dadd (fD w) (fA w) (fB w) rm (fG w))
  | 0x53 => pick (Rnd.ofCode (bits l 0 3).toNat) fun rm => accept (decide (bits l 3 29 = 0)) (.dsub (fD w) (fA w) (fB w) rm (fG w))
  | 0x54 => pick (Rnd.ofCode (bits l 0 3).toNat) fun rm => accept (decide (bits l 3 29 = 0)) (.dmul (fD w) (fA w) (fB w) rm (fG w))
  | 0x55 => pick (Rnd.ofCode (bits l 0 3).toNat) fun rm => accept (decide (bits l 14 18 = 0) && decide (bits l 3 5 = 0)) (.dfma (fD w) (fA w) (fB w) (bits l 8 6) rm (fG w))
  | 0x56 => accept (true) (.dmin (fD w) (fA w) (fB w) (fG w))
  | 0x57 => accept (true) (.dmax (fD w) (fA w) (fB w) (fG w))
  | 0x58 => pick (FCond.ofCode (hi3 (fD w)).toNat) fun cc => accept (true) (.dset cc (lo3 (fD w)) (fA w) (fB w) (fG w))
  | 0x59 => pick (Rnd.ofCode (bits l 0 3).toNat) fun rm => accept (decide (bits l 3 29 = 0)) (.ddiv (fD w) (fA w) (fB w) rm (fG w))
  | 0x5A => pick (Rnd.ofCode (bits l 0 3).toNat) fun rm => accept (decide (fB w = 0) && decide (bits l 3 29 = 0)) (.dsqrt (fD w) (fA w) rm (fG w))
  | 0x5B => pick (Rnd.ofCode (bits l 0 3).toNat) fun rm => accept (decide (bits l 3 29 = 0)) (.hadd2 (fD w) (fA w) (fB w) rm (fG w))
  | 0x5C => pick (Rnd.ofCode (bits l 0 3).toNat) fun rm => accept (decide (bits l 3 29 = 0)) (.hmul2 (fD w) (fA w) (fB w) rm (fG w))
  | 0x5D => pick (Rnd.ofCode (bits l 0 3).toNat) fun rm => accept (decide (bits l 14 18 = 0) && decide (bits l 3 5 = 0)) (.hfma2 (fD w) (fA w) (fB w) (bits l 8 6) rm (fG w))
  | 0x5E => pick (Rnd.ofCode (bits l 0 3).toNat) fun rm => accept (decide (fB w = 0) && decide (bits l 16 16 = 0) && decide (bits l 3 11 = 0)) (.cvtfi (fD w) (fA w) (decide (bits l 15 1 = 1)) (decide (bits l 14 1 = 1)) rm (fG w))
  | 0x5F => pick (Rnd.ofCode (bits l 0 3).toNat) fun rm => accept (decide (fB w = 0) && decide (bits l 16 16 = 0) && decide (bits l 3 11 = 0)) (.cvtif (fD w) (fA w) (decide (bits l 15 1 = 1)) (decide (bits l 14 1 = 1)) rm (fG w))
  | 0x60 => accept (decide (fB w = 0)) (.cvtfd (fD w) (fA w) (fG w))
  | 0x61 => pick (Rnd.ofCode (bits l 0 3).toNat) fun rm => accept (decide (fB w = 0) && decide (bits l 3 29 = 0)) (.cvtdf (fD w) (fA w) rm (fG w))
  | 0x62 => pick (Rnd.ofCode (bits l 0 3).toNat) fun rm => accept (decide (bits l 3 29 = 0)) (.cvtfh (fD w) (fA w) (fB w) rm (fG w))
  | 0x63 => accept (decide ((fB w).toNat < 2)) (.cvthf (fD w) (fA w) ((fB w).setWidth 1) (fG w))
  | 0x64 => accept (decide (fB w = 0) && decide (bits l 12 20 = 0)) (.narrow8 (fD w) (fA w) (decide (bits l 11 1 = 1)) (decide (bits l 10 1 = 1)) (decide (bits l 9 1 = 1)) (bits l 6 3) (bits l 0 6) (fG w))
  | 0x65 => accept (decide (fB w = 0) && decide (bits l 11 21 = 0) && decide (bits l 0 6 = 0)) (.widen8 (fD w) (fA w) (decide (bits l 10 1 = 1)) (decide (bits l 9 1 = 1)) (bits l 6 3) (fG w))
  | 0x66 => pick (Rnd.ofCode (bits l 0 3).toNat) fun rm => accept (decide (bits l 3 29 = 0)) (.scalex (fD w) (fA w) (fB w) rm (fG w))
  | 0x67 => pick (FClassSel.ofCode (fB w).toNat) fun which => accept (true) (.fclass (fD w) (fA w) which (fG w))
  | _ => .error .illegalOpcode

/-- Opcodes 0x80 to 0xA4 (spec 10, 16, 17, 18). -/
def decodeMem (w l : Word) : Except DecodeErr Instr :=
  match fOp w with
  | 0x80 => accept (true) (.ld8s (fD w) (fA w) (fB w) (fG w))
  | 0x81 => accept (true) (.ld8z (fD w) (fA w) (fB w) (fG w))
  | 0x82 => accept (true) (.ld16s (fD w) (fA w) (fB w) (fG w))
  | 0x83 => accept (true) (.ld16z (fD w) (fA w) (fB w) (fG w))
  | 0x84 => accept (true) (.ld32 (fD w) (fA w) (fB w) (fG w))
  | 0x85 => accept (true) (.ld64 (fD w) (fA w) (fB w) (fG w))
  | 0x86 => accept (true) (.ld128 (fD w) (fA w) (fB w) (fG w))
  | 0x87 => accept (true) (.st8 (fD w) (fA w) (fB w) (fG w))
  | 0x88 => accept (true) (.st16 (fD w) (fA w) (fB w) (fG w))
  | 0x89 => accept (true) (.st32 (fD w) (fA w) (fB w) (fG w))
  | 0x8A => accept (true) (.st64 (fD w) (fA w) (fB w) (fG w))
  | 0x8B => accept (true) (.st128 (fD w) (fA w) (fB w) (fG w))
  | 0x8C => accept (true) (.lds32 (fD w) (fA w) (fB w) (fG w))
  | 0x8D => accept (true) (.lds64 (fD w) (fA w) (fB w) (fG w))
  | 0x8E => accept (true) (.lds128 (fD w) (fA w) (fB w) (fG w))
  | 0x8F => accept (true) (.sts32 (fD w) (fA w) (fB w) (fG w))
  | 0x90 => accept (true) (.sts64 (fD w) (fA w) (fB w) (fG w))
  | 0x91 => accept (true) (.sts128 (fD w) (fA w) (fB w) (fG w))
  | 0x92 => accept (true) (.ldv32 (fD w) (fA w) (fB w) (fG w))
  | 0x93 => accept (true) (.ldv128 (fD w) (fA w) (fB w) (fG w))
  | 0x94 => accept (true) (.stv32 (fD w) (fA w) (fB w) (fG w))
  | 0x95 => accept (true) (.stv128 (fD w) (fA w) (fB w) (fG w))
  | 0x96 => pick (Order.ofCode (bits l 28 4).toNat) fun ord => pick (Scope.ofCode (bits l 25 3).toNat) fun sc => pick (MSize.ofCode (bits l 20 4).toNat) fun sz => accept (decide (fB w = 0) && decide (bits l 24 1 = 0) && decide (bits l 0 20 = 0)) (.ldo (fD w) (fA w) ord sc sz (fG w))
  | 0x97 => pick (Order.ofCode (bits l 28 4).toNat) fun ord => pick (Scope.ofCode (bits l 25 3).toNat) fun sc => pick (MSize.ofCode (bits l 20 4).toNat) fun sz => accept (decide (fB w = 0) && decide (bits l 24 1 = 0) && decide (bits l 0 20 = 0)) (.sto (fD w) (fA w) ord sc sz (fG w))
  | 0x98 => pick (Order.ofCode (bits l 28 4).toNat) fun ord => pick (Scope.ofCode (bits l 25 3).toNat) fun sc => pick (MSize.ofCode (bits l 20 4).toNat) fun sz => pick (AtomOp.ofCode (bits l 16 4).toNat) fun op => accept (decide (bits l 0 16 = 0)) (.atom (fD w) (fA w) (fB w) ord sc (decide (bits l 24 1 = 1)) sz op (fG w))
  | 0x99 => pick (Order.ofCode (bits l 28 4).toNat) fun ord => pick (Scope.ofCode (bits l 25 3).toNat) fun sc => pick (MSize.ofCode (bits l 20 4).toNat) fun sz => pick (AtomOp.ofCode (bits l 16 4).toNat) fun op => accept (decide (fB w = 0) && decide (bits l 0 16 = 0)) (.red (fD w) (fA w) ord sc (decide (bits l 24 1 = 1)) sz op (fG w))
  | 0x9A => pick (Order.ofCode (bits l 28 4).toNat) fun ord => pick (Scope.ofCode (bits l 25 3).toNat) fun sc => pick (MSize.ofCode (bits l 20 4).toNat) fun sz => accept (decide (bits l 24 1 = 0) && decide (bits l 0 20 = 0)) (.cas (fD w) (fA w) (fB w) ord sc sz (fG w))
  | 0x9B => pick (Order.ofCode (bits l 28 4).toNat) fun ord => pick (Scope.ofCode (bits l 25 3).toNat) fun sc => accept (decide (fD w = 0) && decide (fA w = 0) && decide (fB w = 0) && decide (bits l 0 25 = 0)) (.fence ord sc (fG w))
  | 0x9C => pick (BindKind.ofCode (bits l 0 2).toNat) fun kind => accept (decide (bits l 8 24 = 0)) (.bind (fD w) (fA w) (fB w) (bits l 4 4) (decide (bits l 3 1 = 1)) (decide (bits l 2 1 = 1)) kind (fG w))
  | 0x9D => accept (decide (fD w = 0) && decide (fA w = 0) && decide (fB w = 0) && decide (bits l 8 24 = 0) && decide (bits l 0 4 = 0)) (.unbind (bits l 4 4) (fG w))
  | 0x9E => pick (Scope.ofCode (bits l 25 3).toNat) fun sc => accept (decide ((fB w).toNat < 2) && decide (bits l 28 4 = 0) && decide (bits l 0 25 = 0)) (.acq (fD w) (fA w) ((fB w).setWidth 1) sc (fG w))
  | 0x9F => pick (Scope.ofCode (bits l 25 3).toNat) fun sc => accept (decide (fD w = 0) && decide (fB w = 0) && decide (bits l 28 4 = 0) && decide (bits l 0 25 = 0)) (.rel (fA w) sc (fG w))
  | 0xA0 => accept (decide (fA w = 0) && decide (fB w = 0) && decide (bits l 0 13 = 0)) (.gbegin (fD w) (bits l 13 19) (fG w))
  | 0xA1 => accept (decide (fD w = 0) && decide (fA w = 0) && decide (fB w = 0)) (.gcommit (fG w))
  | 0xA2 => accept (decide (fD w = 0) && decide (fA w = 0)) (.gabort (fB w) (fG w))
  | 0xA3 => pick (Scope.ofCode (bits l 25 3).toNat) fun sc => pick (MSize.ofCode (bits l 20 4).toNat) fun sz => accept (decide (bits l 28 4 = 0) && decide (bits l 24 1 = 0) && decide (bits l 0 20 = 0)) (.waitw (fD w) (fA w) (fB w) sc sz (fG w))
  | 0xA4 =>
    match (fD w).toNat with
    | 0 => accept (decide (fD w = 0)) (.pref (fA w) (fB w) (fG w))
    | 1 => accept (decide (fD w = 1)) (.prefTlb (fA w) (fB w) (fG w))
    | _ => .error .reservedField
  | _ => .error .illegalOpcode

/-- Opcodes 0xB0 to 0xCD (spec 12, 14, 15). -/
def decodeMx (w l : Word) : Except DecodeErr Instr :=
  match fOp w with
  | 0xB0 => accept (decide (fD w = 0) && decide (fA w = 0) && decide ((fB w).toNat < 32)) (.oclaim ((fB w).setWidth 5) (fG w))
  | 0xB1 => accept (decide (fD w = 0) && decide (fA w = 0) && decide ((fB w).toNat < 32)) (.orelease ((fB w).setWidth 5) (fG w))
  | 0xB2 => pick (Space.ofCode (bits l 0 2).toNat) fun sp => accept (decide (bits l 2 30 = 0)) (.oload (fD w) (fA w) (fB w) sp (fG w))
  | 0xB3 => accept (decide (bits l 11 21 = 0)) (.mconv (fD w) (fA w) (fB w) (decide (bits l 10 1 = 1)) (decide (bits l 9 1 = 1)) (decide (bits l 8 1 = 1)) (decide (bits l 7 1 = 1)) (bits l 4 3) (bits l 0 4) (fG w))
  | 0xB4 => accept (decide ((fD w).toNat < 8) && fPt w) (.msign ((fD w).setWidth 3) (fA w) (fB w) (bits w 0 2))
  | 0xB5 => accept (decide (fA w = 0) && decide ((fB w).toNat < 16)) (.tacq (fD w) ((fB w).setWidth 4) (fG w))
  | 0xB6 => accept (decide (fD w = 0) && decide (fA w = 0) && decide ((fB w).toNat < 16)) (.trel ((fB w).setWidth 4) (fG w))
  | 0xB7 => accept (decide ((fB w).toNat < 16)) (.tld (fD w) (fA w) ((fB w).setWidth 4) (fG w))
  | 0xB8 => accept (decide ((fB w).toNat < 16)) (.tst (fD w) (fA w) ((fB w).setWidth 4) (fG w))
  | 0xB9 => accept (decide (fD w = 0) && decide (fA w = 0) && decide ((fB w).toNat < 16)) (.tzero ((fB w).setWidth 4) (fG w))
  | 0xBA => pick (Space.ofCode (bits l 0 2).toNat) fun sp => accept (decide (bits l 4 28 = 0)) (.tdrain (fD w) (fA w) (fB w) (decide (bits l 3 1 = 1)) (decide (bits l 2 1 = 1)) sp (fG w))
  | 0xBB => accept (decide (fA w = 0)) (.mstat (fD w) (fB w) (fG w))
  | 0xC0 => accept (true) (.cins (fD w) (fA w) (fB w) (fG w))
  | 0xC1 => accept (true) (.crem (fD w) (fA w) (fB w) (fG w))
  | 0xC2 => accept (true) (.cmove (fD w) (fA w) (fB w) (fG w))
  | 0xC3 => accept (true) (.copen (fD w) (fA w) (fB w) (fG w))
  | 0xC4 => accept (decide (fB w = 0)) (.cnext (fD w) (fA w) (fG w))
  | 0xC5 => accept (decide (fD w = 0) && decide (fB w = 0)) (.cclose (fA w) (fG w))
  | 0xC6 => accept (decide ((fA w).toNat < 4)) (.ccount (fD w) ((fA w).setWidth 2) (fB w) (fG w))
  | 0xC7 => accept (decide (fA w = 0)) (.cfreeze (fD w) (fB w) (fG w))
  | 0xC8 => accept (decide (fA w = 0)) (.cthaw (fD w) (fB w) (fG w))
  | 0xC9 => accept (decide (fB w = 0) && decide (bits l 5 27 = 0)) (.cnbr (fD w) (fA w) (bits l 0 5) (fG w))
  | 0xCA => accept (decide (bits l 2 30 = 0)) (.cmrg (fD w) (fA w) (fB w) (decide (bits l 1 1 = 1)) (decide (bits l 0 1 = 1)) (fG w))
  | 0xCB =>
    match (bits l 4 1).toNat with
    | 0 => accept (decide (fB w = 0) && decide (bits l 5 27 = 0) && decide (bits l 4 1 = 0)) (.cinit (fD w) (fA w) (bits l 0 4) (fG w))
    | 1 => accept (decide (fB w = 0) && decide (bits l 5 27 = 0) && decide (bits l 4 1 = 1) && decide (bits l 0 4 = 0)) (.cinitRel (fD w) (fA w) (fG w))
    | _ => .error .reservedField
  | 0xCC =>
    match (bits l 1 1).toNat with
    | 0 => accept (decide (fB w = 0) && decide (bits l 2 30 = 0) && decide (bits l 1 1 = 0)) (.ktrav (fD w) (fA w) (decide (bits l 0 1 = 1)) (fG w))
    | 1 => accept (decide (fB w = 0) && decide (bits l 2 30 = 0) && decide (bits l 1 1 = 1)) (.ktravResume (fD w) (fA w) (decide (bits l 0 1 = 1)) (fG w))
    | _ => .error .reservedField
  | 0xCD => accept (decide (fA w = 0) && decide ((fB w).toNat < 2)) (.kstat (fD w) ((fB w).setWidth 1) (fG w))
  | _ => .error .illegalOpcode

/-- Opcodes 0xD0 to 0xFB (spec 03, 04, 06, 11, 18 to 21, 23). -/
def decodeSy (w l : Word) : Except DecodeErr Instr :=
  match fOp w with
  | 0xD0 => accept (decide ((fD w).toNat < 16) && decide (fA w = 0)) (.bari ((fD w).setWidth 4) (bits w 2 10) (bits w 0 2))
  | 0xD1 => accept (decide ((fD w).toNat < 16) && decide (fA w = 0) && decide (fB w = 0)) (.bara ((fD w).setWidth 4) (fG w))
  | 0xD2 => accept (decide ((fD w).toNat < 16) && decide (fA w = 0) && decide (fB w = 0)) (.barw ((fD w).setWidth 4) (fG w))
  | 0xD3 => accept (decide ((fD w).toNat < 16) && decide (fA w = 0) && decide (fB w = 0)) (.baraw ((fD w).setWidth 4) (fG w))
  | 0xD4 =>
    match (bits l 2 1).toNat with
    | 1 => pick (PhMode.ofCode (bits l 0 2).toNat) fun mode => accept (decide (fA w = 0) && decide (fB w = 0) && decide (bits l 3 29 = 0) && decide (bits l 2 1 = 1)) (.phregNew (fD w) mode (fG w))
    | 0 => pick (PhMode.ofCode (bits l 0 2).toNat) fun mode => accept (decide (fB w = 0) && decide (bits l 3 29 = 0) && decide (bits l 2 1 = 0)) (.phreg (fD w) (fA w) mode (fG w))
    | _ => .error .reservedField
  | 0xD5 => accept (decide (fD w = 0) && decide (fB w = 0)) (.phdrop (fA w) (fG w))
  | 0xD6 => accept (decide (fD w = 0) && decide (fB w = 0)) (.phsig (fA w) (fG w))
  | 0xD7 => accept (decide (fB w = 0)) (.phwait (fD w) (fA w) (fG w))
  | 0xD8 => accept (decide (fB w = 0)) (.phsw (fD w) (fA w) (fG w))
  | 0xD9 => pick (Space.ofCode (bits l 18 2).toNat) fun src => pick (Space.ofCode (bits l 16 2).toNat) fun dst => pick (NodeUse.ofCode (bits l 8 2).toNat) fun use => accept (decide (bits l 0 7 = 0)) (.cpy (fD w) (fA w) (fB w) (bits l 20 12) src dst (decide (bits l 15 1 = 1)) (bits l 11 4) (decide (bits l 10 1 = 1)) use (decide (bits l 7 1 = 1)) (fG w))
  | 0xDA => pick (Space.ofCode (bits l 18 2).toNat) fun src => accept (decide (bits l 16 2 = 1) && decide (bits l 8 2 = 0) && decide (bits l 0 7 = 0)) (.cpym (fD w) (fA w) (fB w) (bits l 20 12) src (decide (bits l 15 1 = 1)) (bits l 11 4) (decide (bits l 10 1 = 1)) (decide (bits l 7 1 = 1)) (fG w))
  | 0xDB =>
    match (fD w).toNat / 8 with
    | 0 => accept (decide ((fD w).toNat < 8)) (.publishDecl (decide (4 ≤ (fD w).toNat)) ((fD w).setWidth 2) (fA w) (fB w) (fG w))
    | 1 => accept (decide (8 ≤ (fD w).toNat ∧ (fD w).toNat < 12) && decide (fA w = 0) && decide (fB w = 0)) (.publish ((fD w).setWidth 2) (fG w))
    | 2 => accept (decide (16 ≤ (fD w).toNat ∧ (fD w).toNat < 20) && decide (fA w = 0) && decide (fB w = 0)) (.publishDrop ((fD w).setWidth 2) (fG w))
    | _ => .error .reservedField
  | 0xDC =>
    match (fB w).toNat with
    | 0 => accept (decide (fB w = 0) && decide (bits l 0 32 = 0)) (.gnodeArm (fD w) (fA w) (fG w))
    | 1 => accept (decide (fB w = 1) && decide (bits l 8 24 = 0)) (.gnodeSig (fD w) (fA w) (bits l 0 8) (fG w))
    | 2 => accept (decide (fD w = 0) && decide (fB w = 2) && decide (bits l 4 28 = 0)) (.gnodeTile (fA w) (bits l 0 4) (fG w))
    | 3 => accept (decide (fD w = 0) && decide (fB w = 3) && decide (bits l 0 32 = 0)) (.gnodeFree (fA w) (fG w))
    | _ => .error .reservedField
  | 0xDD => accept (decide (fD w = 0) && decide (fB w = 0) && decide (bits l 20 12 = 0) && decide (bits l 11 1 = 0) && decide (bits l 6 1 = 0)) (.qsend (fA w) (bits l 12 8) (bits l 8 3) (decide (bits l 7 1 = 1)) (bits l 0 6) (fG w))
  | 0xDE => accept (decide (fB w = 0) && decide (bits l 20 12 = 0) && decide (bits l 11 1 = 0) && decide (bits l 6 1 = 0)) (.qrecv (fD w) (fA w) (bits l 12 8) (bits l 8 3) (decide (bits l 7 1 = 1)) (bits l 0 6) (fG w))
  | 0xE0 => accept (true) (.bra (bits w 2 18) (fGB w))
  | 0xE1 => accept (decide (fD w = 0) && decide (fB w = 0)) (.brx (fA w) (fG w))
  | 0xE2 => accept (true) (.call (bits w 2 18) (fGB w))
  | 0xE3 => accept (decide (fD w = 0) && decide (fB w = 0)) (.ret (fA w) (fG w))
  | 0xE4 => accept (decide (fD w = 0) && decide ((fB w).toNat < 8)) (.exit (fA w) ((fB w).setWidth 3) (fG w))
  | 0xE5 =>
    match (fB w).toNat with
    | 0 => accept (decide (fD w = 0) && decide (fA w = 0) && decide (fB w = 0)) (.yield_ (fG w))
    | 1 => accept (decide (fD w = 0) && decide (fA w = 0) && decide (fB w = 1)) (.yieldWg (fG w))
    | _ => .error .reservedField
  | 0xE6 => accept (decide (fD w = 0) && decide (fA w = 0)) (.trap (fB w) (fG w))
  | 0xE7 => accept (decide (fD w = 0) && decide (fA w = 0) && decide (fB w = 0) && fPt w) (.trapret (bits w 0 2))
  | 0xE8 => accept (decide (fD w = 0) && decide (fA w = 0)) (.bkpt (fB w) (fG w))
  | 0xF0 => pick (SReg.ofCode (fB w).toNat) fun sr => accept (decide (fA w = 0)) (.gets (fD w) sr (fG w))
  | 0xF1 => pick (SReg.ofCode (fB w).toNat) fun sr => accept (decide (fD w = 0)) (.sets (fA w) sr (fG w))
  | 0xF2 => accept (decide (fD w = 0) && decide (fA w = 0) && decide (fB w = 0)) (.setcont (bits l 13 19) (decide (bits l 12 1 = 1)) (bits l 6 6) (bits l 0 6) (fG w))
  | 0xF3 => accept (decide (fD w = 0)) (.btopup (fA w) (fB w) (fG w))
  | 0xF4 => accept (decide (fD w = 0) && decide (fA w = 0) && decide (fB w = 0)) (.xacq (fG w))
  | 0xF5 => accept (decide (fD w = 0) && decide (fA w = 0) && decide (fB w = 0)) (.xrel (fG w))
  | 0xF6 => accept (decide (fD w = 0) && decide (fA w = 0) && decide (fB w = 0) && fPt w) (.serial (bits w 0 2))
  | 0xF7 => accept (decide (fD w = 0) && decide (fA w = 0) && decide (fB w = 0) && fPt w) (.serialend (bits w 0 2))
  | 0xF8 =>
    match (fB w).toNat with
    | 0 => accept (decide (fB w = 0) && decide (bits l 1 31 = 0)) (.ownmarkPriv (fD w) (fA w) (decide (bits l 0 1 = 1)) (fG w))
    | 1 => accept (decide (fB w = 1) && decide (bits l 1 31 = 0)) (.ownmarkShared (fD w) (fA w) (decide (bits l 0 1 = 1)) (fG w))
    | 2 => pick (RegionClass.ofCode (bits l 1 3).toNat) fun cls => accept (decide (fB w = 2) && decide (bits l 10 22 = 0)) (.ownmarkRegion (fD w) (fA w) (bits l 4 6) cls (decide (bits l 0 1 = 1)) (fG w))
    | _ => .error .reservedField
  | 0xF9 => accept (decide (fA w = 0) && decide (fB w = 0) && decide (bits l 6 26 = 0)) (.capld (fD w) (bits l 0 6) (fG w))
  | 0xFA => accept (decide (fD w = 0)) (.tracemark (fA w) (bits w 2 10) (bits w 0 2))
  | 0xFB =>
    match (bits w 2 10).toNat with
    | 0 => accept (decide (fD w = 0) && decide (fA w = 0) && decide (bits w 2 10 = 0)) (.cctlOff (bits w 0 2))
    | 1 => accept (decide (fD w = 0) && decide (fA w = 0) && decide (bits w 2 10 = 1)) (.cctlOn (bits w 0 2))
    | _ => .error .reservedField
  | _ => .error .illegalOpcode

/-- The instruction of a word and, for format L, its literal word: the machine's decoder (spec 05 R71, R78, R95). -/
def decodeWord (w l : Word) : Except DecodeErr Instr :=
  if fOp w < 0x40 then decodeInt w l
  else if fOp w < 0x80 then decodeFp w l
  else if fOp w < 0xB0 then decodeMem w l
  else if fOp w < 0xD0 then decodeMx w l
  else decodeSy w l

/-- The opcodes that the map assigns (spec 05 R89 to R95). -/
def opAssigned (op : Nat) : Bool :=
  decide (op ≤ 0x3D) || decide (0x40 ≤ op ∧ op ≤ 0x67) || decide (0x80 ≤ op ∧ op ≤ 0xA4) || decide (0xB0 ≤ op ∧ op ≤ 0xBB)
    || decide (0xC0 ≤ op ∧ op ≤ 0xCD) || decide (0xD0 ≤ op ∧ op ≤ 0xDE) || decide (0xE0 ≤ op ∧ op ≤ 0xE8) || decide (0xF0 ≤ op ∧ op ≤ 0xFB)

/-- The opcodes of format L, which a literal word follows (spec 05 R78, R89 to R94). -/
def opLiteral (op : Nat) : Bool :=
  [0x02, 0x40, 0x41, 0x42, 0x43, 0x4B, 0x4C, 0x51, 0x52, 0x53, 0x54, 0x55, 0x59, 0x5A, 0x5B, 0x5C, 0x5D, 0x5E, 0x5F, 0x61, 0x62, 0x64, 0x65, 0x66, 0x96, 0x97, 0x98, 0x99, 0x9A, 0x9B, 0x9C, 0x9D, 0x9E, 0x9F, 0xA0, 0xA3, 0xB2, 0xB3, 0xBA, 0xC9, 0xCA, 0xCB, 0xCC, 0xD4, 0xD9, 0xDA, 0xDC, 0xDD, 0xDE, 0xF2, 0xF8, 0xF9].contains op

/-- Words out of bytes, little-endian (spec 00 R3): one word, the rest. -/
def takeWord : List Byte → Option (Word × List Byte)
  | b0 :: b1 :: b2 :: b3 :: rest => some (b3 ++ b2 ++ b1 ++ b0, rest)
  | _ => none

/-- The decoder on any bytes: the instruction at their front and the bytes after it, or why not. -/
def decodeBytes (bs : List Byte) : Except DecodeErr (Instr × List Byte) :=
  match takeWord bs with
  | none => .error .overrun
  | some (w, rest) =>
    if opLiteral (fOp w) then
      match takeWord rest with
      | none => .error .overrun
      | some (l, rest') => (decodeWord w l).map (fun i => (i, rest'))
    else (decodeWord w 0).map (fun i => (i, rest))

/-- The clause class of an opcode; control transfers, 0xE0 to 0xEF, may stand in any class (spec 05 R86). -/
def opClass (op : Nat) : Nat :=
  if op < 0x80 then 0 else if op < 0xB0 then 1 else if op < 0xC0 then 2 else if op < 0xD0 then 3 else if op < 0xE0 then 4 else 5

/-- An opcode of a control transfer (spec 05 R69). -/
def opControl (op : Nat) : Bool := decide (0xE0 ≤ op ∧ op ≤ 0xEF)

/-- The opcodes that stand only last in an END clause (spec 05 R69). -/
def opLast (op : Nat) : Bool := opControl op || decide (op = 0x3A) || decide (op = 0x3B) || decide (op = 0x3C) || decide (op = 0xA2)

/-- A number of the host's table: bit 0 is the least significant bit of the first word. -/
def tableBytes (n : Nat) (w : Nat) : List Byte := (List.range n).map fun k => BitVec.ofNat 8 (w / 2 ^ (8 * k))

/-- The instruction this decoder reads from a row's bits, laid out in memory as the machine stores words, with zeros above them up to two words. -/
def decodeTableWord (nbits w : Nat) : Option Instr :=
  match decodeBytes (tableBytes 8 (w % 2 ^ nbits)) with
  | .ok (i, _) => some i
  | .error _ => none

/-- A word of formats T, L and M (spec 05 R78). -/
def wordT (op : Nat) (d a b : BitVec 6) (g : Guard) : Word :=
  BitVec.ofNat 32 (op * 2 ^ 24 + d.toNat * 2 ^ 18 + a.toNat * 2 ^ 12 + b.toNat * 2 ^ 6 + g.p.toNat * 2 ^ 3 + g.n.toNat * 2 ^ 2 + g.s.toNat)

/-- A word of format I (spec 05 R78). -/
def wordI (op : Nat) (d a : BitVec 6) (imm : BitVec 10) (s : BitVec 2) : Word :=
  BitVec.ofNat 32 (op * 2 ^ 24 + d.toNat * 2 ^ 18 + a.toNat * 2 ^ 12 + imm.toNat * 2 ^ 2 + s.toNat)

/-- A word of format B (spec 05 R78). -/
def wordB (op : Nat) (off : BitVec 18) (g : Guard) : Word :=
  BitVec.ofNat 32 (op * 2 ^ 24 + g.p.toNat * 2 ^ 21 + g.n.toNat * 2 ^ 20 + off.toNat * 2 ^ 2 + g.s.toNat)

/-- Two three-bit halves of a field (spec 07 R115). -/
def cat3 (h l : BitVec 3) : BitVec 6 := h ++ l

/-- The guard pt with a stall count, for words that take no guard. -/
def ptGuard (s : BitVec 2) : Guard := ⟨7, 0, s⟩

/-- The words of an instruction, the literal second where the format has one; none for the steps of the table, which have no encoding.
For an instruction that is not well formed the words are those of its fields cut to their widths. -/
def encode : Instr → Option (List Word)
  | .nop g => some [wordT 0x00 0 0 0 g]
  | .mov d a g => some [wordT 0x01 d a 0 g]
  | .ldi d lit g => some [wordT 0x02 d 0 0 g, lit]
  | .ldiIadd d a lit g => some [wordT 0x02 d a 1 g, lit]
  | .ldiAnd d a lit g => some [wordT 0x02 d a 2 g, lit]
  | .ldiOr d a lit g => some [wordT 0x02 d a 3 g, lit]
  | .ldiXor d a lit g => some [wordT 0x02 d a 4 g, lit]
  | .ldiShl d a n g => some [wordT 0x02 d a 5 g, BitVec.ofNat 32 (n.toNat)]
  | .ldiShr d a n g => some [wordT 0x02 d a 6 g, BitVec.ofNat 32 (n.toNat)]
  | .ldiSar d a n g => some [wordT 0x02 d a 7 g, BitVec.ofNat 32 (n.toNat)]
  | .ldiIset cc pd a lit g => some [wordT 0x02 (cat3 (BitVec.ofNat 3 cc.code) pd) a 8 g, lit]
  | .iadd d a b g => some [wordT 0x03 d a b g]
  | .isub d a b g => some [wordT 0x04 d a b g]
  | .imul d a b g => some [wordT 0x05 d a b g]
  | .imulhs d a b g => some [wordT 0x06 d a b g]
  | .imulhz d a b g => some [wordT 0x07 d a b g]
  | .imad d a b g => some [wordT 0x08 d a b g]
  | .ineg d a g => some [wordT 0x09 d a 0 g]
  | .iabs d a g => some [wordT 0x0A d a 0 g]
  | .imin d a b g => some [wordT 0x0B d a b g]
  | .imax d a b g => some [wordT 0x0C d a b g]
  | .iminz d a b g => some [wordT 0x0D d a b g]
  | .imaxz d a b g => some [wordT 0x0E d a b g]
  | .and_ d a b g => some [wordT 0x0F d a b g]
  | .or_ d a b g => some [wordT 0x10 d a b g]
  | .xor_ d a b g => some [wordT 0x11 d a b g]
  | .andn d a b g => some [wordT 0x12 d a b g]
  | .not_ d a g => some [wordT 0x13 d a 0 g]
  | .shl d a b g => some [wordT 0x14 d a b g]
  | .shr d a b g => some [wordT 0x15 d a b g]
  | .sar d a b g => some [wordT 0x16 d a b g]
  | .rol d a b g => some [wordT 0x17 d a b g]
  | .clz d a g => some [wordT 0x18 d a 0 g]
  | .popc d a g => some [wordT 0x19 d a 0 g]
  | .brev d a g => some [wordT 0x1A d a 0 g]
  | .bitil3 d a g => some [wordT 0x1B d a 0 g]
  | .bitil2 d a b g => some [wordT 0x1C d a b g]
  | .bitdi3 d a k g => some [wordT 0x1D d a (k.setWidth 6) g]
  | .bfx d a b g => some [wordT 0x1E d a b g]
  | .bfi d a b g => some [wordT 0x1F d a b g]
  | .iset cc pd a b g => some [wordT 0x20 (cat3 (BitVec.ofNat 3 cc.code) pd) a b g]
  | .plop op pd pa pb g => some [wordT 0x21 (cat3 (BitVec.ofNat 3 op.code) pd) (pa.setWidth 6) (pb.setWidth 6) g]
  | .sel d a b g => some [wordT 0x22 d a b g]
  | .iaddi d a imm st => some [wordI 0x23 d a imm st]
  | .andi d a imm st => some [wordI 0x24 d a imm st]
  | .ori d a imm st => some [wordI 0x25 d a imm st]
  | .xori d a imm st => some [wordI 0x26 d a imm st]
  | .shli d a imm st => some [wordI 0x27 d a imm st]
  | .shri d a imm st => some [wordI 0x28 d a imm st]
  | .sari d a imm st => some [wordI 0x29 d a imm st]
  | .iseti cc pd a imm st => some [wordI 0x2A (cat3 (BitVec.ofNat 3 cc.code) pd) a imm st]
  | .iaddc d a b g => some [wordT 0x2B d a b g]
  | .add64 d a b g => some [wordT 0x2C d a b g]
  | .sub64 d a b g => some [wordT 0x2D d a b g]
  | .addw64 d a b g => some [wordT 0x2E d a b g]
  | .shl64 d a b g => some [wordT 0x2F d a b g]
  | .shrl64 d a b g => some [wordT 0x30 d a b g]
  | .iset64 cc pd a b g => some [wordT 0x31 (cat3 (BitVec.ofNat 3 cc.code) pd) a b g]
  | .shfl d a b g => some [wordT 0x32 d a b g]
  | .shflx d a k g => some [wordT 0x33 d a (k.setWidth 6) g]
  | .shflup d a k g => some [wordT 0x34 d a (k.setWidth 6) g]
  | .shfldn d a k g => some [wordT 0x35 d a (k.setWidth 6) g]
  | .vote mode pd pa g => some [wordT 0x36 (cat3 (BitVec.ofNat 3 mode.code) pd) (pa.setWidth 6) 0 g]
  | .ballot d pa g => some [wordT 0x37 d (pa.setWidth 6) 0 g]
  | .gred d a op g => some [wordT 0x38 d a (BitVec.ofNat 6 op.code) g]
  | .gscan d a ex op g => some [wordT 0x39 d a (BitVec.ofNat 6 (16 * ex.toNat + op.code)) g]
  | .reorder w a b st => some [wordT 0x3A (w.setWidth 6) a b (ptGuard st)]
  | .lser st => some [wordT 0x3B 0 0 0 (ptGuard st)]
  | .lsend st => some [wordT 0x3C 0 0 0 (ptGuard st)]
  | .rngx d a b g => some [wordT 0x3D d a b g]
  | .fadd d a b rm g => some [wordT 0x40 d a b g, BitVec.ofNat 32 (rm.code)]
  | .fsub d a b rm g => some [wordT 0x41 d a b g, BitVec.ofNat 32 (rm.code)]
  | .fmul d a b rm g => some [wordT 0x42 d a b g, BitVec.ofNat 32 (rm.code)]
  | .ffma d a b c rm g => some [wordT 0x43 d a b g, BitVec.ofNat 32 (c.toNat * 2 ^ 8 + rm.code)]
  | .fmin d a b g => some [wordT 0x44 d a b g]
  | .fmax d a b g => some [wordT 0x45 d a b g]
  | .fabs d a g => some [wordT 0x46 d a 0 g]
  | .fneg d a g => some [wordT 0x47 d a 0 g]
  | .fset cc pd a b g => some [wordT 0x48 (cat3 (BitVec.ofNat 3 cc.code) pd) a b g]
  | .frcp d a g => some [wordT 0x49 d a 0 g]
  | .frsq d a g => some [wordT 0x4A d a 0 g]
  | .fsqrt d a rm g => some [wordT 0x4B d a 0 g, BitVec.ofNat 32 (rm.code)]
  | .fdiv d a b rm g => some [wordT 0x4C d a b g, BitVec.ofNat 32 (rm.code)]
  | .fex2 d a g => some [wordT 0x4D d a 0 g]
  | .flg2 d a g => some [wordT 0x4E d a 0 g]
  | .fsin d a g => some [wordT 0x4F d a 0 g]
  | .fcos d a g => some [wordT 0x50 d a 0 g]
  | .frnd d a rm g => some [wordT 0x51 d a 0 g, BitVec.ofNat 32 (rm.code)]
  | .dadd d a b rm g => some [wordT 0x52 d a b g, BitVec.ofNat 32 (rm.code)]
  | .dsub d a b rm g => some [wordT 0x53 d a b g, BitVec.ofNat 32 (rm.code)]
  | .dmul d a b rm g => some [wordT 0x54 d a b g, BitVec.ofNat 32 (rm.code)]
  | .dfma d a b c rm g => some [wordT 0x55 d a b g, BitVec.ofNat 32 (c.toNat * 2 ^ 8 + rm.code)]
  | .dmin d a b g => some [wordT 0x56 d a b g]
  | .dmax d a b g => some [wordT 0x57 d a b g]
  | .dset cc pd a b g => some [wordT 0x58 (cat3 (BitVec.ofNat 3 cc.code) pd) a b g]
  | .ddiv d a b rm g => some [wordT 0x59 d a b g, BitVec.ofNat 32 (rm.code)]
  | .dsqrt d a rm g => some [wordT 0x5A d a 0 g, BitVec.ofNat 32 (rm.code)]
  | .hadd2 d a b rm g => some [wordT 0x5B d a b g, BitVec.ofNat 32 (rm.code)]
  | .hmul2 d a b rm g => some [wordT 0x5C d a b g, BitVec.ofNat 32 (rm.code)]
  | .hfma2 d a b c rm g => some [wordT 0x5D d a b g, BitVec.ofNat 32 (c.toNat * 2 ^ 8 + rm.code)]
  | .cvtfi d a wide uns rm g => some [wordT 0x5E d a 0 g, BitVec.ofNat 32 (wide.toNat * 2 ^ 15 + uns.toNat * 2 ^ 14 + rm.code)]
  | .cvtif d a wide uns rm g => some [wordT 0x5F d a 0 g, BitVec.ofNat 32 (wide.toNat * 2 ^ 15 + uns.toNat * 2 ^ 14 + rm.code)]
  | .cvtfd d a g => some [wordT 0x60 d a 0 g]
  | .cvtdf d a rm g => some [wordT 0x61 d a 0 g, BitVec.ofNat 32 (rm.code)]
  | .cvtfh d a b rm g => some [wordT 0x62 d a b g, BitVec.ofNat 32 (rm.code)]
  | .cvthf d a e g => some [wordT 0x63 d a (e.setWidth 6) g]
  | .narrow8 d a sat inf uns prec c g => some [wordT 0x64 d a 0 g, BitVec.ofNat 32 (sat.toNat * 2 ^ 11 + inf.toNat * 2 ^ 10 + uns.toNat * 2 ^ 9 + prec.toNat * 2 ^ 6 + c.toNat)]
  | .widen8 d a inf uns prec g => some [wordT 0x65 d a 0 g, BitVec.ofNat 32 (inf.toNat * 2 ^ 10 + uns.toNat * 2 ^ 9 + prec.toNat * 2 ^ 6)]
  | .scalex d a b rm g => some [wordT 0x66 d a b g, BitVec.ofNat 32 (rm.code)]
  | .fclass d a which g => some [wordT 0x67 d a (BitVec.ofNat 6 which.code) g]
  | .ld8s d a ofs g => some [wordT 0x80 d a ofs g]
  | .ld8z d a ofs g => some [wordT 0x81 d a ofs g]
  | .ld16s d a ofs g => some [wordT 0x82 d a ofs g]
  | .ld16z d a ofs g => some [wordT 0x83 d a ofs g]
  | .ld32 d a ofs g => some [wordT 0x84 d a ofs g]
  | .ld64 d a ofs g => some [wordT 0x85 d a ofs g]
  | .ld128 d a ofs g => some [wordT 0x86 d a ofs g]
  | .st8 d a ofs g => some [wordT 0x87 d a ofs g]
  | .st16 d a ofs g => some [wordT 0x88 d a ofs g]
  | .st32 d a ofs g => some [wordT 0x89 d a ofs g]
  | .st64 d a ofs g => some [wordT 0x8A d a ofs g]
  | .st128 d a ofs g => some [wordT 0x8B d a ofs g]
  | .lds32 d a ofs g => some [wordT 0x8C d a ofs g]
  | .lds64 d a ofs g => some [wordT 0x8D d a ofs g]
  | .lds128 d a ofs g => some [wordT 0x8E d a ofs g]
  | .sts32 d a ofs g => some [wordT 0x8F d a ofs g]
  | .sts64 d a ofs g => some [wordT 0x90 d a ofs g]
  | .sts128 d a ofs g => some [wordT 0x91 d a ofs g]
  | .ldv32 d a ofs g => some [wordT 0x92 d a ofs g]
  | .ldv128 d a ofs g => some [wordT 0x93 d a ofs g]
  | .stv32 d a ofs g => some [wordT 0x94 d a ofs g]
  | .stv128 d a ofs g => some [wordT 0x95 d a ofs g]
  | .ldo d a ord sc sz g => some [wordT 0x96 d a 0 g, BitVec.ofNat 32 (ord.code * 2 ^ 28 + sc.code * 2 ^ 25 + sz.code * 2 ^ 20)]
  | .sto d a ord sc sz g => some [wordT 0x97 d a 0 g, BitVec.ofNat 32 (ord.code * 2 ^ 28 + sc.code * 2 ^ 25 + sz.code * 2 ^ 20)]
  | .atom d a b ord sc cm sz op g => some [wordT 0x98 d a b g, BitVec.ofNat 32 (ord.code * 2 ^ 28 + sc.code * 2 ^ 25 + cm.toNat * 2 ^ 24 + sz.code * 2 ^ 20 + op.code * 2 ^ 16)]
  | .red d a ord sc cm sz op g => some [wordT 0x99 d a 0 g, BitVec.ofNat 32 (ord.code * 2 ^ 28 + sc.code * 2 ^ 25 + cm.toNat * 2 ^ 24 + sz.code * 2 ^ 20 + op.code * 2 ^ 16)]
  | .cas d a b ord sc sz g => some [wordT 0x9A d a b g, BitVec.ofNat 32 (ord.code * 2 ^ 28 + sc.code * 2 ^ 25 + sz.code * 2 ^ 20)]
  | .fence ord sc g => some [wordT 0x9B 0 0 0 g, BitVec.ofNat 32 (ord.code * 2 ^ 28 + sc.code * 2 ^ 25)]
  | .bind d a b e all vault kind g => some [wordT 0x9C d a b g, BitVec.ofNat 32 (e.toNat * 2 ^ 4 + all.toNat * 2 ^ 3 + vault.toNat * 2 ^ 2 + kind.code)]
  | .unbind e g => some [wordT 0x9D 0 0 0 g, BitVec.ofNat 32 (e.toNat * 2 ^ 4)]
  | .acq d a try_ sc g => some [wordT 0x9E d a (try_.setWidth 6) g, BitVec.ofNat 32 (sc.code * 2 ^ 25)]
  | .rel a sc g => some [wordT 0x9F 0 a 0 g, BitVec.ofNat 32 (sc.code * 2 ^ 25)]
  | .gbegin d off g => some [wordT 0xA0 d 0 0 g, BitVec.ofNat 32 (off.toNat * 2 ^ 13)]
  | .gcommit g => some [wordT 0xA1 0 0 0 g]
  | .gabort code g => some [wordT 0xA2 0 0 code g]
  | .waitw d a b sc sz g => some [wordT 0xA3 d a b g, BitVec.ofNat 32 (sc.code * 2 ^ 25 + sz.code * 2 ^ 20)]
  | .pref a ofs g => some [wordT 0xA4 0 a ofs g]
  | .prefTlb a ofs g => some [wordT 0xA4 1 a ofs g]
  | .oclaim n g => some [wordT 0xB0 0 0 (n.setWidth 6) g]
  | .orelease n g => some [wordT 0xB1 0 0 (n.setWidth 6) g]
  | .oload n a b sp g => some [wordT 0xB2 n a b g, BitVec.ofNat 32 (sp.code)]
  | .mconv n a b half sat inf uns prec code g => some [wordT 0xB3 n a b g, BitVec.ofNat 32 (half.toNat * 2 ^ 10 + sat.toNat * 2 ^ 9 + inf.toNat * 2 ^ 8 + uns.toNat * 2 ^ 7 + prec.toNat * 2 ^ 4 + code.toNat)]
  | .msign k a b st => some [wordT 0xB4 (k.setWidth 6) a b (ptGuard st)]
  | .tacq d t g => some [wordT 0xB5 d 0 (t.setWidth 6) g]
  | .trel t g => some [wordT 0xB6 0 0 (t.setWidth 6) g]
  | .tld d a t g => some [wordT 0xB7 d a (t.setWidth 6) g]
  | .tst d a t g => some [wordT 0xB8 d a (t.setWidth 6) g]
  | .tzero t g => some [wordT 0xB9 0 0 (t.setWidth 6) g]
  | .tdrain t a b clr add sp g => some [wordT 0xBA t a b g, BitVec.ofNat 32 (clr.toNat * 2 ^ 3 + add.toNat * 2 ^ 2 + sp.code)]
  | .mstat d which g => some [wordT 0xBB d 0 which g]
  | .cins d a b g => some [wordT 0xC0 d a b g]
  | .crem d a b g => some [wordT 0xC1 d a b g]
  | .cmove d a b g => some [wordT 0xC2 d a b g]
  | .copen d a b g => some [wordT 0xC3 d a b g]
  | .cnext d a g => some [wordT 0xC4 d a 0 g]
  | .cclose a g => some [wordT 0xC5 0 a 0 g]
  | .ccount d which b g => some [wordT 0xC6 d (which.setWidth 6) b g]
  | .cfreeze d b g => some [wordT 0xC7 d 0 b g]
  | .cthaw d b g => some [wordT 0xC8 d 0 b g]
  | .cnbr d a cnt g => some [wordT 0xC9 d a 0 g, BitVec.ofNat 32 (cnt.toNat)]
  | .cmrg d a b i32 keepz g => some [wordT 0xCA d a b g, BitVec.ofNat 32 (i32.toNat * 2 ^ 1 + keepz.toNat)]
  | .cinit d a eng g => some [wordT 0xCB d a 0 g, BitVec.ofNat 32 (eng.toNat)]
  | .cinitRel d a g => some [wordT 0xCB d a 0 g, BitVec.ofNat 32 (1 * 2 ^ 4)]
  | .ktrav d a self g => some [wordT 0xCC d a 0 g, BitVec.ofNat 32 (self.toNat)]
  | .ktravResume d a self g => some [wordT 0xCC d a 0 g, BitVec.ofNat 32 (1 * 2 ^ 1 + self.toNat)]
  | .kstat d which g => some [wordT 0xCD d 0 (which.setWidth 6) g]
  | .bari n imm st => some [wordI 0xD0 (n.setWidth 6) 0 imm st]
  | .bara n g => some [wordT 0xD1 (n.setWidth 6) 0 0 g]
  | .barw n g => some [wordT 0xD2 (n.setWidth 6) 0 0 g]
  | .baraw n g => some [wordT 0xD3 (n.setWidth 6) 0 0 g]
  | .phregNew d mode g => some [wordT 0xD4 d 0 0 g, BitVec.ofNat 32 (1 * 2 ^ 2 + mode.code)]
  | .phreg d a mode g => some [wordT 0xD4 d a 0 g, BitVec.ofNat 32 (mode.code)]
  | .phdrop a g => some [wordT 0xD5 0 a 0 g]
  | .phsig a g => some [wordT 0xD6 0 a 0 g]
  | .phwait d a g => some [wordT 0xD7 d a 0 g]
  | .phsw d a g => some [wordT 0xD8 d a 0 g]
  | .cpy d a b sect src dst bar bi shadow use solo g => some [wordT 0xD9 d a b g, BitVec.ofNat 32 (sect.toNat * 2 ^ 20 + src.code * 2 ^ 18 + dst.code * 2 ^ 16 + bar.toNat * 2 ^ 15 + bi.toNat * 2 ^ 11 + shadow.toNat * 2 ^ 10 + use.code * 2 ^ 8 + solo.toNat * 2 ^ 7)]
  | .cpym d a b sect src bar bi shadow solo g => some [wordT 0xDA d a b g, BitVec.ofNat 32 (sect.toNat * 2 ^ 20 + src.code * 2 ^ 18 + 1 * 2 ^ 16 + bar.toNat * 2 ^ 15 + bi.toNat * 2 ^ 11 + shadow.toNat * 2 ^ 10 + solo.toNat * 2 ^ 7)]
  | .publishDecl vault k a b g => some [wordT 0xDB (BitVec.ofNat 6 (4 * vault.toNat + k.toNat)) a b g]
  | .publish k g => some [wordT 0xDB (BitVec.ofNat 6 (8 + k.toNat)) 0 0 g]
  | .publishDrop k g => some [wordT 0xDB (BitVec.ofNat 6 (16 + k.toNat)) 0 0 g]
  | .gnodeArm d a g => some [wordT 0xDC d a 0 g, BitVec.ofNat 32 (0)]
  | .gnodeSig d a n g => some [wordT 0xDC d a 1 g, BitVec.ofNat 32 (n.toNat)]
  | .gnodeTile a t g => some [wordT 0xDC 0 a 2 g, BitVec.ofNat 32 (t.toNat)]
  | .gnodeFree a g => some [wordT 0xDC 0 a 3 g, BitVec.ofNat 32 (0)]
  | .qsend a len pd nb k g => some [wordT 0xDD 0 a 0 g, BitVec.ofNat 32 (len.toNat * 2 ^ 12 + pd.toNat * 2 ^ 8 + nb.toNat * 2 ^ 7 + k.toNat)]
  | .qrecv d a len pd nb k g => some [wordT 0xDE d a 0 g, BitVec.ofNat 32 (len.toNat * 2 ^ 12 + pd.toNat * 2 ^ 8 + nb.toNat * 2 ^ 7 + k.toNat)]
  | .bra off g => some [wordB 0xE0 off g]
  | .brx a g => some [wordT 0xE1 0 a 0 g]
  | .call off g => some [wordB 0xE2 off g]
  | .ret a g => some [wordT 0xE3 0 a 0 g]
  | .exit a cnt g => some [wordT 0xE4 0 a (cnt.setWidth 6) g]
  | .yield_ g => some [wordT 0xE5 0 0 0 g]
  | .yieldWg g => some [wordT 0xE5 0 0 1 g]
  | .trap code g => some [wordT 0xE6 0 0 code g]
  | .trapret st => some [wordT 0xE7 0 0 0 (ptGuard st)]
  | .bkpt code g => some [wordT 0xE8 0 0 code g]
  | .gets d sr g => some [wordT 0xF0 d 0 (BitVec.ofNat 6 sr.code) g]
  | .sets a sr g => some [wordT 0xF1 0 a (BitVec.ofNat 6 sr.code) g]
  | .setcont off en last first g => some [wordT 0xF2 0 0 0 g, BitVec.ofNat 32 (off.toNat * 2 ^ 13 + en.toNat * 2 ^ 12 + last.toNat * 2 ^ 6 + first.toNat)]
  | .btopup a b g => some [wordT 0xF3 0 a b g]
  | .xacq g => some [wordT 0xF4 0 0 0 g]
  | .xrel g => some [wordT 0xF5 0 0 0 g]
  | .serial st => some [wordT 0xF6 0 0 0 (ptGuard st)]
  | .serialend st => some [wordT 0xF7 0 0 0 (ptGuard st)]
  | .ownmarkPriv d a vault g => some [wordT 0xF8 d a 0 g, BitVec.ofNat 32 (vault.toNat)]
  | .ownmarkShared d a vault g => some [wordT 0xF8 d a 1 g, BitVec.ofNat 32 (vault.toNat)]
  | .ownmarkRegion d a e cls vault g => some [wordT 0xF8 d a 2 g, BitVec.ofNat 32 (e.toNat * 2 ^ 4 + cls.code * 2 ^ 1 + vault.toNat)]
  | .capld d k g => some [wordT 0xF9 d 0 0 g, BitVec.ofNat 32 (k.toNat)]
  | .tracemark a mark st => some [wordI 0xFA 0 a mark st]
  | .cctlOff st => some [wordI 0xFB 0 0 0 st]
  | .cctlOn st => some [wordI 0xFB 0 0 1 st]
  | .clauseFetch _ _ => none
  | .issueSlotGrant _ _ => none
  | .waitPointRelease _ _ => none
  | .resultWriteback _ _ => none
  | .sfuResultLanding _ _ _ => none
  | .loadLanding _ _ _ => none
  | .storeAccepted _ _ _ => none
  | .scratchLoadLanding _ _ _ => none
  | .fenceComplete _ _ _ => none
  | .writeCombineFlush _ _ => none
  | .pageWalkStart _ _ _ => none
  | .pageWalkComplete _ => none
  | .memoryReadRetry _ _ => none
  | .remoteAccessTimeout _ _ _ => none
  | .xacqGrant _ => none
  | .xregDeadlockDetect _ _ => none
  | .reorderComplete _ => none
  | .waitwReturn _ _ _ => none
  | .gcommitGrant _ _ _ => none
  | .copySliceStart _ => none
  | .copySector _ => none
  | .copyComplete _ => none
  | .publishSwap _ _ _ => none
  | .oloadLanding _ _ _ => none
  | .mconvLanding _ _ _ => none
  | .msignSubmit _ _ => none
  | .passStart _ => none
  | .passRetire _ => none
  | .tacqLanding _ _ _ => none
  | .tldLanding _ _ _ => none
  | .mstatLanding _ _ _ => none
  | .tdrainComplete _ _ _ => none
  | .collectionCommandExecute _ _ => none
  | .cthawComplete _ _ => none
  | .knightTraversal _ => none
  | .knightTraversalDone _ => none
  | .qsendEnqueue _ _ _ => none
  | .qsendHostAck _ _ _ => none
  | .qrecvReceive _ _ _ => none
  | .eventBacklogDrain _ => none
  | .queueEntry _ => none
  | .admissionDecision _ => none
  | .admissionStop _ => none
  | .workgroupStart _ => none
  | .workgroupRetire _ => none
  | .yieldTaken _ => none
  | .stallPreemptTimeout _ => none
  | .preemptionSave _ => none
  | .saveSpill _ => none
  | .quantumStart _ _ => none
  | .quantumExpiry _ _ => none
  | .haltReport _ => none
  | .stepEnd _ => none
  | .traceRecordWrite _ _ => none
  | .rootLaunch _ _ _ => none
  | .invalidateTranslation _ _ _ _ => none
  | .killLaunch _ _ _ => none
  | .preemptCommand _ _ => none
  | .swapOut _ _ => none
  | .swapIn _ _ => none
  | .moveContext _ _ _ _ => none
  | .haltRequest _ _ => none
  | .stepCommand _ _ => none
  | .resumeCommand _ => none
  | .replayCommand _ _ _ _ => none
  | .refillReserves _ _ _ _ => none
  | .readCounters _ _ => none
  | .clearCounters _ => none
  | .debugStateRead _ _ => none
  | .debugStateWrite _ _ _ => none
  | .queueTableWrite _ _ _ => none
  | .contextDescriptorWrite _ _ _ => none
  | .controlSpaceWrite _ _ => none
  | .inboxSend _ _ => none
  | .hostRmaWrite _ _ _ _ => none
  | .attestationRequest _ => none
  | .firmwareBoot _ _ _ => none
  | .deviceReset => none
  | .linkTraining _ => none
  | .planeLinkDown _ => none
  | .partitionCreate _ _ => none
  | .partitionTeardown _ => none
  | .softError _ => none
  | .hostFrameRemap _ => none
  | .contextEnd _ _ => none
  | .remoteAccessArrival _ _ => none
  | .remoteMessageArrival _ _ _ _ => none
  | .accessTableGrant _ _ => none
  | .idleSlotCycle _ _ => none
  | .traceRecordConsumed _ _ _ => none

end Sys2Proof
end

