-- ==== Sys2Proof/Machine/State.lean ====
section
/-! DEFINITION. The state of the device as plain data: device, partition, cluster, core, workgroup, group and lane state, the commands handed to the
engines, and the reset.  Tables are `Store`s: lists of (key, value) pairs with rising keys. -/

namespace Sys2Proof.Machine

/-- A table: pairs of key and value with rising keys; a key that is not listed holds the default of the table. -/
abbrev Store (α : Type) := List (Nat × α)

/-- A memory: cells of address and byte with rising addresses and no zero byte; an unlisted address reads as zero (spec 23 R427, log 4). -/
abbrev Memory := List Host.Cell

/-- The 64 cause codes (spec 20 R366), in the order of their codes. -/
inductive Cause where
  | preempt | illegalOpcode | illegalHeader | classMismatch | reservedField | misalignedPair | extNotHeld | privilege
  | controlPlacement | branchTarget | stallUndersized | waitMissing | software | fpException | runTooLong | clauseOverrun
  | pageNotPresent | pagePermission | accessTableDeny | scratchBounds | vaultBounds | misalignedAccess | memtypeConflict | uncorrectable
  | regionWriter | ownership | bindConflict | asyncCopyFault | watch | atomicSize | lockState | translationAbort
  | barrierCount | phaserMode | phaserHandle | gambitNested | gambitForbidden | lserNested | xregDeadlock | capabilityInvalid
  | capabilityPermission | serialOrder | publishState | copySlice | graphNode | launchBlockInvalid | successorReserve | stageRole
  | formatDivergence | formatInvalid | tokenAbsent | slotNotClaimed | operandMap | convergenceSet | tileIndex | drainTarget
  | collectionHeader | collectionFrozen | cursorInvalid | mergeLength | knightStack | knightNode | breakpoint | doubleFault
  deriving DecidableEq, Repr, Inhabited

/-- An entry of a group's frontier (spec 06 R101). -/
structure Entry where
  addr : DWord
  prio : Nat
  lanes : Mask
  deriving DecidableEq, Repr, Inhabited

/-- The run a group is in (spec 05 R67, 06 R98): its active lanes, the clause being issued with the words of it still to issue, the words counted for
R68, where lanes have moved, and how many words have issued.  `fetched` is false between two clauses; `waiting` is true while the fetched clause's WAIT has not been passed. -/
structure Run where
  lanes : Mask
  hdrAddr : DWord
  hdr : Word
  pc : DWord
  rest : List Word
  count : Nat
  fetched : Bool
  waiting : Bool
  moves : List (DWord × Mask)
  started : Nat
  /-- The run's place in the order in which runs start (06 R96). -/
  born : Nat
  /-- The next word issues without matching a watchpoint that has halted the workgroup (21 R392, log 14). -/
  noMatch : Bool
  /-- It has passed a held instruction and goes on to its next honour point (06 R99, 21 R397). -/
  goes : Bool
  deriving DecidableEq, Repr, Inhabited

/-- A register-file write of a fixed-latency result: a register of a lane, a predicate of a lane, or bits ORed into a lane's %fpflags. -/
inductive LaneWrite where
  | reg (r lane : Nat) (v : Word)
  | pred (p lane : Nat) (v : Bool)
  | flags (lane : Nat) (v : Word)
  deriving DecidableEq, Repr, Inhabited

/-- A fixed-latency result that has not landed (spec 05 R75): the producer's address, the cycle from which it may be read, whether the producer is one
that updates flags (spec 09 R159). -/
structure Pend where
  pc : DWord
  due : Nat
  flagged : Bool
  writes : List LaneWrite
  deriving DecidableEq, Repr, Inhabited

/-- The issue record of a command (spec 20 R369), but for its cause fields, which `Fail` holds. -/
structure IssueRec where
  pc : DWord
  lanes : Mask
  word : Word
  lit : Word
  a : DWord
  b : DWord
  d : DWord
  deriving DecidableEq, Repr, Inhabited

/-- A deferred fault held with its command (spec 20 R367, 10 R193): cause, cause lanes, address, %trapinfo. -/
structure Fail where
  cause : Cause
  lanes : Mask
  addr : DWord
  info : DWord
  deriving DecidableEq, Repr, Inhabited

/-- The address spaces of loads and stores (spec 10 R175). -/
inductive MemSpace where
  | global | vault
  deriving DecidableEq, Repr, Inhabited

/-- What a lane of a read-modify-write does: an operation of the memory control word or a compare-and-swap (spec 18 R331). -/
inductive RmwOp where
  | op (o : AtomOp)
  | cas
  deriving DecidableEq, Repr, Inhabited

/-- What a load of a Gambit region returns (spec 18 R344, R345): memory, so that it becomes an input; a store entry's form; bytes without a tag. -/
inductive RForm where
  | input
  | entry (addr size : Nat) (k : DWord)
  | plain
  deriving DecidableEq, Repr, Inhabited

/-- One lane's part of a memory command: its address and the operands read at issue; for a load of an open region its form and the bytes buffered in the
region's store entries, by offset. -/
structure LaneAcc where
  lane : Nat
  addr : Nat
  val : BitVec 128
  cmp : BitVec 128
  region : Option (RForm × List (Nat × Byte))
  /-- In a deterministic launch the lane's access is shared: it waits for the turn (spec 19 R353, R355). -/
  sh : Bool
  deriving DecidableEq, Repr, Inhabited

/-- What a resource hold waits for (spec 06 R100): room on a WAIT class, in the Rook, in the queues of engine lanes (lane and how many entries), in the Knight, of
region slots or of the turn buffer (how many); a strongly ordered access (10 R187); the second read of a word of code (05 R65); `none`: a halt. -/
inductive Resource where
  | cls (c : Nat)
  | rook
  | lanes (needs : List (Nat × Nat))
  | knight
  | slots (n : Nat)
  | turn (n : Nat)
  | strong
  | code (va : DWord)
  | none
  deriving DecidableEq, Repr, Inhabited

/-- Why a group keeps its run without issuing (spec 06 R97 to R100): a held instruction, or a resource hold. -/
inductive Held where
  | reorder
  | barrier (n phase : Nat)
  | serial
  | serialend
  /-- MSIGN has recorded the last signature and waits for an entry of the reservation table (spec 12 R231). -/
  | msign (c : Nat)
  | resource (r : Resource)
  deriving DecidableEq, Repr, Inhabited

/-- How TRAPRET with an unchanged %trappc goes on (spec 20 R371): the word issues again in its run, the lanes stand at the address, the wait point is
reached again. -/
inductive Resume where
  | run
  | stand
  | wait
  deriving DecidableEq, Repr, Inhabited

/-- Trap mode of a group (spec 20 R370, R375): the trap set, the run and the frontier entries held aside, the value of %trappc at entry, and the command
whose deferred fault was taken, which TRAPRET replays. -/
structure TrapMode where
  lanes : Mask
  aside : List Entry
  run : Option Run
  pc : DWord
  resume : Resume
  replay : Option Nat
  /-- The address of the frame that the entry wrote (spec 20 R375, log 34). -/
  frame : DWord
  /-- The number of the first command that the handler can hand on. -/
  since : Nat
  deriving DecidableEq, Repr, Inhabited

/-- The serial state of a group (spec 07 R135): the lanes of the serial set that have not run the body, and those that have finished it. -/
structure Lser where
  body : DWord
  cur : Nat
  todo : List Nat
  done : List (DWord × Mask)
  deriving DecidableEq, Repr, Inhabited

/-- A symbolic tag of a Gambit region (spec 18 R345): the register, whether it is a pair, the input's address and size, the addend. -/
structure Tag where
  reg : Nat
  two : Bool
  addr : Nat
  size : Nat
  k : DWord
  deriving DecidableEq, Repr, Inhabited

/-- A constraint (spec 18 R345): the condition on input + k and an untagged value, which of the two is the first source, the outcome recorded. -/
structure Constr where
  addr : Nat
  size : Nat
  k : DWord
  cc : ICond
  u : DWord
  tagFirst : Bool
  holds : Bool
  deriving DecidableEq, Repr, Inhabited

/-- A store entry of a region (spec 18 R345): constant, or an input plus an addend. -/
structure RStore where
  addr : Nat
  size : Nat
  val : DWord
  sym : Option (Nat × Nat × DWord)
  deriving DecidableEq, Repr, Inhabited

/-- An open Gambit region of a lane (spec 18 R341 to R348). -/
structure Region where
  wg : Nat
  grp : Nat
  lane : Nat
  fallback : DWord
  status : Reg
  stamp : Nat
  eager : Bool
  /-- Lines read, by line number of the virtual address, with the physical line. -/
  lines : List (Nat × Nat)
  /-- Physical lines that an eager region has locked (R348). -/
  locked : List Nat
  tags : List Tag
  constrs : List Constr
  stores : List RStore
  plain : Bool
  /-- Another agent has written a line the region has read (R346). -/
  changed : Bool
  /-- GCOMMIT has been issued. -/
  asked : Bool
  /-- Aborted, with cause and code; delivered at the next wait point on LD (R347). -/
  aborted : Option (Nat × Nat)
  deriving DecidableEq, Repr, Inhabited

/-- A collection command (spec 14 R273 to R284). -/
inductive CollOp where
  | ins
  | rem
  | move
  | open_
  | next
  | close
  | count (which : Nat)
  | freeze
  | thaw
  | nbr (cnt : Nat)
  | mrg (i32 keepz : Bool)
  | init (engine : Nat)
  | release
  deriving DecidableEq, Repr, Inhabited

/-- One lane's part of a collection command: header or descriptor address, or cursor handle; the quad A; the quad D or the lengths. -/
structure CollLane where
  lane : Nat
  hdr : DWord
  a : BitVec 128
  d : BitVec 128
  /-- The engine lane it was handed to: 16 × engine + lane; 256 for none (R266). -/
  route : Nat
  /-- What the ownership or the region table denied at issue (spec 19 R353, R363); a replayed command is checked again. -/
  deny : Option Cause
  again : Bool
  deriving DecidableEq, Repr, Inhabited

/-- A lane's command that has faulted (spec 14 R269). -/
structure CollFault where
  lane : Nat
  cause : Cause
  addr : DWord
  info : Nat
  deriving DecidableEq, Repr, Inhabited

/-- An entry of the bind table (spec 17 R315): object, and a region or the all flag. -/
structure Bind where
  kind : BindKind
  obj : DWord
  all : Bool
  vault : Bool
  base : Nat
  size : Nat
  deriving DecidableEq, Repr, Inhabited

/-- A shadow slot (spec 11 R215): the buffer and which half is the front. -/
structure Shadow where
  vault : Bool
  base : Nat
  size : Nat
  upper : Bool
  deriving DecidableEq, Repr, Inhabited

/-- Commands that no later step of the table completes (log 13): graph nodes (spec 03 R45), CAPLD (23 R423), PUBLISH.decl (11 R216), BIND and UNBIND (17 R315 to
R318), phasers (18 R339), barrier arrivals (11 R211), results and counts of GNODE, BIND, UNBIND, PUBLISH.decl and KSTAT (05 R74, 15 R297). -/
inductive Cmd where
  | gnodeArm (block : DWord)
  | gnodeSig (h : Word) (n : Nat)
  | capld (k : Nat)
  | decl (k : Nat) (sh : Shadow)
  | bindPh (e : Nat) (b : Bind)
  /-- A command whose work is done at issue: its results land, and its count falls, later (05 R74, R76). -/
  | land (ws : List LaneWrite)
  /-- An arrival on a barrier that waits for the group's earlier accesses (spec 11 R211). -/
  | arrive (n : Nat)
  | phNew (mode : PhMode)
  | phReg (h : Word) (mode : PhMode)
  | phDrop (h : Word)
  | phSig (h : Word)
  | phWait (h : Word)
  /-- PHSW; the flag says that its signal has been given. -/
  | phSw (h : Word) (signalled : Bool)
  deriving DecidableEq, Repr, Inhabited

/-- What a command handed to the memory system or an engine is to do.  `lanes` hold the addresses and operands read at issue. -/
inductive OutKind where
  | none
  /-- Special-function, divide and square-root results (spec 09 R165 to R167): the writes and the lanes that raise FP_EXCEPTION. -/
  | sfu (writes : List LaneWrite) (exc : Mask) (conds : Nat)
  /-- A global or vault load of `n` bytes; `ord` is the order and scope of LDO (spec 10 R195, R198, 18 R329). -/
  | load (sp : MemSpace) (n : Nat) (sext : Bool) (dst : Reg) (ord : Order) (sc : Scope) (lanes : List LaneAcc)
  /-- A global or vault store (spec 10 R196, R198, 18 R329). -/
  | store (sp : MemSpace) (n : Nat) (ord : Order) (sc : Scope) (lanes : List LaneAcc)
  /-- ATOM, RED and CAS (spec 18 R331); `dst` is none for RED. -/
  | rmw (op : RmwOp) (n : Nat) (dst : Option Reg) (ord : Order) (sc : Scope) (cm : Bool) (lanes : List LaneAcc)
  /-- FENCE (spec 16 R304); `acqd` is set once its acquire part is done. -/
  | fence (ord : Order) (sc : Scope) (lanes : Mask) (acqd : Bool)
  /-- A scratchpad load: the values read in its passes (spec 10 R178, 16 R308), none before its passes. -/
  | loadScratch (n : Nat) (dst : Reg) (vals : Option (List LaneWrite)) (lanes : List LaneAcc)
  /-- A scratchpad store before its passes (spec 10 R178, 16 R308); it is in no class. -/
  | storeScratch (n : Nat) (lanes : List LaneAcc)
  /-- WAITW (spec 18 R336). -/
  | waitw (n : Nat) (dst : Reg) (sc : Scope) (lanes : List LaneAcc)
  /-- ACQ (spec 18 R335): the lock's address; `tries` is ACQ.try; `waits` the place of a waiting ACQ in the order of
  arrival, and the word's physical address. -/
  | acq (dst : Reg) (lanes : Mask) (addr : Nat) (tries : Bool) (sc : Scope) (waits : Option (Nat × Nat))
  | rel (addr : Nat) (sc : Scope)
  | gcommit (lanes : Mask)
  | xacq
  /-- A contribution to a copy (spec 11 R203): the copy and the slice. -/
  | copy (c slice : Nat)
  /-- PUBLISH and PUBLISH.drop of a slot (spec 11 R216). -/
  | publish (k : Nat) (drop : Bool)
  /-- OLOAD (spec 12 R225) and MCONV (R226): slot, source, stride; the form of MCONV; the number of the slot's OCLAIM (R223). -/
  | oload (slot : Nat) (sp : Space) (src stride claim : Nat)
  | mconv (slot : Nat) (half sat inf uns : Bool) (prec code : Nat) (src stride claim : Nat)
  | tacq (dst : Reg) (t : Nat) (lanes : Mask)
  | tld (writes : List LaneWrite)
  | mstat (dst : Reg) (which : Nat) (lanes : Mask)
  /-- TDRAIN (spec 12 R243): the tile's content, integer kind, once it has been read; the elements already written. -/
  | tdrain (t : Nat) (clr add : Bool) (sp : Space) (dst stride : Nat) (data : Option (Store Word × Bool)) (done : Nat)
  /-- A collection or merge instruction (spec 14 R266): registers D and A, the lanes' commands, those not completed, the faults. -/
  | coll (op : CollOp) (d a : Reg) (lanes : List CollLane) (left : List Nat) (faults : List CollFault)
  /-- KTRAV (spec 15 R295): result pair, lanes, descriptor, record queue, self, resume, pairs emitted so far; the faults that follow the reported one. -/
  | ktrav (dst : Reg) (lanes : Mask) (desc queue : DWord) (self resume : Bool) (emitted : Nat) (later : List Fail)
  /-- QSEND (spec 23 R422): capability, message; true once it has been sent to a host and waits for the acknowledgement. -/
  | qsend (k : Nat) (off len : Nat) (bytes : Option (List Byte)) (nb : Bool) (pd : Nat) (lanes : Mask) (sent : Bool)
  | qrecv (k : Nat) (off len : Nat) (nb : Bool) (pd : Nat) (dst : Reg) (lanes : Mask)
  | cmd (c : Cmd) (dst : Option Reg) (lanes : Mask)
  deriving DecidableEq, Repr, Inhabited

/-- An outstanding command (spec 05 R74, 20 R367): its number in the device's issue order, WAIT class, issue record, what it does, its deferred fault once it has
faulted, the registers and predicates it will write, whether it is a shared access that waits for its turn (spec 19 R355). -/
structure Out where
  id : Nat
  cls : Nat
  irec : IssueRec
  kind : OutKind
  fail : Option Fail
  dregs : List Nat
  dpreds : List Nat
  shared : Bool
  /-- The cycle by which every fixed-latency result issued before it has landed (spec 05 R75). -/
  after : Nat
  /-- The interval between two hand-offs of a lane-serialised body in which it issued; 0 outside a body (spec 16 R310). -/
  ser : Nat
  deriving DecidableEq, Repr, Inhabited

/-- The retry record of a thread (spec 18 R343). -/
structure Retry where
  fallback : DWord
  stamp : Nat
  aborts : Nat
  deriving DecidableEq, Repr, Inhabited

/-- A REORDER that has been issued: key width, mask, the word's address, and the keys of its lanes as they were at issue (spec 06 R115, 07 R133). -/
structure ReorderReq where
  wide : Bool
  mask : DWord
  pc : DWord
  keys : List (Nat × Nat)
  deriving DecidableEq, Repr, Inhabited

/-- A group of a workgroup (spec 02 R15, 04 R53 to R55, 05 R74 to R76, 06 R97 to R103, R111, 20 R370). -/
structure Group where
  /-- The group slot it occupies, plus one; zero means the group does not exist. -/
  slot : Nat
  /-- v0 to v63: key 32 × register + lane. -/
  regs : Store Word
  /-- p0 to p6: key 32 × predicate + lane. -/
  preds : Store Bool
  tid : Store Word
  /-- %lane and %group of a lane where a debugger has written them; else they say where the lane stands (06 R111, 21 R396, log 110). -/
  laneNo : Store Word
  groupNo : Store Word
  fpflags : Store Word
  fpmode : Store Word
  trapmask : Store Word
  /-- Lanes whose thread has not ended. -/
  live : Mask
  extHeld : Bool
  extPending : Bool
  trapCause : Nat
  trapPc : DWord
  trapInfo : DWord
  trapMode : Option TrapMode
  frontier : List Entry
  run : Option Run
  held : Option Held
  /-- The cycle before which the group issues nothing (spec 05 R75). -/
  ready : Nat
  gaveUp : Nat
  /-- The cycle in which it came to its wait point (spec 20 R376). -/
  stood : Nat
  /-- The issue slot on whose next choice the group ranks last (spec 06 R107). -/
  slotYield : Option Nat
  pend : List Pend
  outs : List Out
  /-- Non-solo copies issued (spec 11 R203). -/
  copiesIssued : Nat
  lser : Option Lser
  /-- Hand-offs of lane-serialised bodies so far (spec 16 R310). -/
  serCtr : Nat
  reorder : Option ReorderReq
  /-- Per barrier, the phase in which the group last arrived, plus one (spec 11 R211). -/
  arrived : Store Nat
  endedTurn : Bool
  /-- Lock words held, by address (spec 18 R335). -/
  locks : List Nat
  retries : Store Retry
  /-- Lanes that have reached the last EXIT and wait for their commands (spec 22 R405), with the EXIT's address and successor list. -/
  exiting : Option (Mask × DWord)
  deriving DecidableEq, Repr, Inhabited

/-- Where a workgroup is in its life. -/
inductive WgStatus where
  | absent
  | admitted
  | running
  | retiring
  | saved
  /-- It has ended by a double fault or a kill, and commands it handed on still run to completion (spec 20 R373). -/
  | ended
  deriving DecidableEq, Repr, Inhabited

/-- A named barrier (spec 11 R211). -/
structure Bar where
  armed : Bool
  count : Nat
  arrivals : Nat
  phase : Nat
  /-- The last phase in which a copy arrived, plus one (R208). -/
  copyPhase : Nat
  deriving DecidableEq, Repr, Inhabited

/-- A submitted pass (spec 12 R231, R233): operand bytes are held once it has started. -/
structure Pass where
  id : Nat
  wg : Nat
  tile : Nat
  a : Nat
  b : Nat
  fmt : Word
  /-- Loads of the signers that it waits for (R231). -/
  waits : List Nat
  base : Nat
  at_ : Nat
  core : Nat
  slot : Nat
  /-- Per slot it reads, the contents of the slot's last ORELEASE before the submission, and that ORELEASE's number (R222). -/
  ops : Store Memory
  rels : Store Nat
  opA : Memory
  opB : Memory
  deriving DecidableEq, Repr, Inhabited

/-- An operand slot of a workgroup (spec 12 R221, R222). -/
structure OSlot where
  claimed : Bool
  inUse : Bool
  dirty : Bool
  bytes : Memory
  /-- What a pass reads: the contents at the last ORELEASE, with the loads issued before it (R222). -/
  rel : Memory
  /-- Numbers of the first command after the last ORELEASE and after the last OCLAIM. -/
  relId : Nat
  claimId : Nat
  deriving DecidableEq, Repr, Inhabited

/-- An accumulator tile of a workgroup (spec 12 R236, R238): elements by index; the token lies at the engine; the graph node bound (03 R45). -/
structure Tile where
  elems : Store Word
  inUse : Bool
  dirty : Bool
  int : Bool
  atEngine : Bool
  retired : Nat
  overflow : Bool
  invalid : Bool
  bound : Option Nat
  deriving DecidableEq, Repr, Inhabited

/-- An open convergence register (spec 12 R230). -/
structure Conv where
  word : Word
  fmt : Word
  signed : List Nat
  /-- Loads of signers that the pass waits for (R231). -/
  waits : List Nat
  deriving DecidableEq, Repr, Inhabited

/-- How a saved workgroup was saved (spec 20 R377, R378, R382). -/
inductive SaveKind where
  | exhausted
  | voluntary
  | full
  | overdraft
  deriving DecidableEq, Repr, Inhabited

/-- A workgroup, from admission to the end of its retirement (spec 02, 04, 20). -/
structure Wg where
  status : WgStatus
  launch : Nat
  part : Nat
  ctx : Nat
  wgid : Nat
  stage : Nat
  /-- Device-wide core index. -/
  core : Nat
  /-- Base of the scratchpad allocation in the core. -/
  base : Nat
  ngroups : Nat
  groups : Store Group
  tempi : Word
  tempm : Word
  cont : DWord
  contlive : BitVec 13
  checking : Bool
  yieldPending : Bool
  yieldWg : Bool
  preempt : Option SaveKind
  /-- The cycle in which the full pre-emption was requested (spec 20 R382). -/
  askedAt : Nat
  haltReq : Bool
  halted : Bool
  /-- The cycle of the last halt report; and the halted cycles that the stall count which began at a cycle leaves out (spec 21 R393). -/
  haltedAt : Nat
  stallSkip : Nat × Nat
  /-- A step in progress: issues left (spec 21 R397). -/
  stepLeft : Option Nat
  stepEvent : Option Nat
  /-- TRACEMARKs written, and the ordinal of a replay command (spec 21 R404). -/
  marks : Nat
  replay : Option Nat
  succ : Option (List DWord)
  succSlots : Nat
  nodeSlots : Nat
  xacqQ : List Nat
  bars : Store Bar
  shadows : Store Shadow
  oslots : Store OSlot
  tiles : Store Tile
  convs : Store Conv
  binds : Store Bind
  saveKind : Option SaveKind
  /-- Units that were eligible when the workgroup was saved and are not yet decided (spec 20 R378). -/
  waitsFor : List Nat
  savedScratch : Memory
  /-- Submitted passes that had not started at the save (spec 12 R246). -/
  savedPasses : List Pass
  /-- The last EXIT word (spec 22 R412). -/
  exitPc : DWord
  spilled : Bool
  deriving DecidableEq, Repr, Inhabited

/-- A launch block as it was read at queue entry (spec 02 R17 to R19, R26). -/
structure Block where
  entry : DWord
  argp : DWord
  count : Nat
  groups : Nat
  stages : Nat
  progress : Nat
  det : Bool
  checking : Bool
  priority : Nat
  succReserve : Nat
  xmax : Nat
  scratch : Nat
  slots : Nat
  tiles : Nat
  nodes : Nat
  tempi : Word
  tempm : Word
  overdraft : Word
  topUp : Bool
  cap : Bool
  inhEn : Bool
  inhLast : Nat
  inhFirst : Nat
  capTable : DWord
  roles : DWord
  recordQueue : DWord
  deriving DecidableEq, Repr, Inhabited

/-- Registers kept for an inheriting successor (spec 04 R61 to R63): the core, and per group its slot, its registers at the end of its threads and
whether it held an extended block. -/
structure Park where
  core : Nat
  xheld : List Bool
  slots : List Nat
  regs : List (Store Word)
  deriving DecidableEq, Repr, Inhabited

/-- What made a launch ready (spec 02 R25, 03 R30): the parent's budgets where a workgroup's EXIT did, and what it parked. -/
structure Readied where
  part : Nat
  ctx : Nat
  addr : DWord
  budgets : Option (Word × Word)
  park : Option Park
  deriving DecidableEq, Repr, Inhabited

/-- A launch that has entered a queue (spec 03). -/
structure Launch where
  live : Bool
  part : Nat
  ctx : Nat
  addr : DWord
  block : Block
  queue : Nat
  inQueue : Bool
  root : Bool
  budgets : Option (Word × Word)
  park : Option Park
  /-- The next %wgid to admit. -/
  nextUnit : Nat
  /-- Workgroups admitted and not yet ended. -/
  running : Nat
  killed : Bool
  /-- R29: the queue word changed under a launch with admitted units. -/
  cut : Bool
  /-- The turn of a deterministic launch: the index %wgid × S + %stage that holds it or waits for placement (spec 19 R354). -/
  turn : Nat
  /-- Cycle since which the head has lacked room (spec 03 R37). -/
  lackSince : Option Nat
  deriving DecidableEq, Repr, Inhabited

/-- An entry of the partition's graph table (spec 03 R41, R42, 11 R207): armed with a block and a context; the copies lodged at it; the workgroup
whose reserve it was taken from. -/
structure Node where
  armed : Bool
  gen : Nat
  ctx : Nat
  block : DWord
  gated : List Nat
  deriving DecidableEq, Repr, Inhabited

/-- A context of a partition (spec 23 R417): the words the host wrote, the words the hardware writes, how long it has been swapped out. -/
structure Ctx where
  desc : CtxDesc
  ireserve : DWord
  mreserve : DWord
  traceIndex : Word
  traceDropped : Word
  traceUnread : Nat
  state : Nat
  outSince : Nat
  /-- A quantum (R385) or an inheritance (R386, the lock words concerned) makes saved workgroups of a swapped-out context eligible. -/
  quantum : Bool
  inherits : List (Nat × Nat)
  /-- Trace records not yet written (spec 21 R402), oldest first. -/
  records : List (List Byte)
  deriving DecidableEq, Repr, Inhabited

/-- A message in a channel (spec 23 R419, R422): source code, sending device, bytes. -/
structure Msg where
  src : Nat
  dev : Nat
  bytes : List Byte
  deriving DecidableEq, Repr, Inhabited

/-- A channel: capacity in slots and messages, oldest first (spec 23 R419). -/
structure Channel where
  cap : Nat
  msgs : List Msg
  deriving DecidableEq, Repr, Inhabited

/-- An entry of the fabric address table (spec 23 R421). -/
structure Fabric where
  lo : DWord
  hi : DWord
  ridx : Word
  ordered : Bool
  valid : Bool
  deriving DecidableEq, Repr, Inhabited

/-- An entry of the ownership table (spec 19 R352): a range private to a workgroup. -/
structure OwnEnt where
  wg : Nat
  vault : Bool
  base : Nat
  size : Nat
  deriving DecidableEq, Repr, Inhabited

/-- An entry of the region table (spec 19 R363). -/
structure RegionEnt where
  used : Bool
  cls : RegionClass
  vault : Bool
  base : Nat
  size : Nat
  deriving DecidableEq, Repr, Inhabited

/-- A member of a phaser (spec 18 R337): its phase and whether it has signalled it. -/
structure PhMember where
  wg : Nat
  grp : Nat
  mode : PhMode
  phase : Nat
  signalled : Bool
  deriving DecidableEq, Repr, Inhabited

/-- A phaser (spec 18 R337, R338): `counted` says that a signal-capable member has counted for the current phase. -/
structure Phaser where
  live : Bool
  gen : Nat
  ctx : Nat
  phase : Nat
  counted : Bool
  members : List PhMember
  deriving DecidableEq, Repr, Inhabited

/-- A lane as the debug unit names it, and where it stands (spec 21 R388). -/
structure LaneAt where
  ctx : Nat
  block : DWord
  wgid : Nat
  stage : Nat
  tid : Nat
  die : Nat
  cluster : Nat
  core : Nat
  group : Nat
  lane : Nat
  deriving DecidableEq, Repr, Inhabited

/-- What the device sends to a host (spec 20 R373, R374, 21 R393, R399, 23 R414 to R428). -/
inductive HostMsg where
  | ack
  | invalid
  | busy
  | accessError
  | refused
  | doubleFault (wg : Nat) (cause : Cause) (pc info : DWord)
  | killed (ctx : Nat) (block : DWord)
  | halted (wg : Nat) (lanes : List LaneAt)
  | stepEnd (wg event : Nat) (lanes : List LaneAt)
  | counters (vals : List Nat) (overflow : Bool)
  | value (v : DWord) (who : Option LaneAt)
  | retired (loc : Loc)
  | message (host : Nat) (bytes : List Byte)
  | remote (dev part ch : Nat) (bytes : List Byte)
  | window (off : Nat) (bytes : List Byte)
  | report (body : List Byte) (sig : List Byte)
  /-- The response to a request of another device: the bytes it returns, or a fault (17 R321, R322). -/
  | reply (dev : Nat) (bytes : List Byte)
  | replyFault (dev : Nat) (c : Cause)
  deriving DecidableEq, Repr, Inhabited

/-- A partition (spec 00 R1, 03, 14 R265, 18 R337, 19, 23). -/
structure Part where
  made : Bool
  owner : Nat
  clusters : List Nat
  lanes : List (Nat × Nat)
  /-- The ranges of local HBM that are its own (23 R426, R427). -/
  own : List (Nat × Nat)
  /-- Its shares of the Ultra Ethernet ports and of the Dexeirvo planes (23 R416, R426, R427). -/
  shares : List Nat
  queueWords : Store Word
  queues : Store (List Nat)
  ready : List Readied
  pool : Nat
  nodes : Store Node
  nodesFree : Nat
  ctxs : Store Ctx
  /-- The rotating pointers of admission, per priority, reset 63 (R38), and of the restore lists, reset 15 (R378). -/
  qptr : Store Nat
  rptr : Store Nat
  corePtr : Nat
  clusterPtr : Nat
  /-- Restore lists: key 16 × priority + context, units of workgroup serials in the order of their saves (R378). -/
  restore : Store (List (List Nat))
  /-- The queue and the launch at its head that have stopped admission (R37). -/
  stopped : Option (Nat × Nat)
  /-- Commands of pre-emption and swap-out that are not acknowledged yet: the workgroups that are still to be saved (23 R416). -/
  waitAcks : List (List Nat)
  channels : Store Channel
  backlog : List (List Byte)
  dropped : Nat
  fabric : Store Fabric
  owned : List OwnEnt
  regions : Store RegionEnt
  phasers : Store Phaser
  deriving DecidableEq, Repr, Inhabited

/-- A breakpoint or watchpoint of a debug unit (spec 21 R390): address or base, length, control word, the workgroup named. -/
structure DbgPoint where
  addr : DWord
  len : Word
  ctl : Word
  wg : Nat
  deriving DecidableEq, Repr, Inhabited

/-- A bin of the lane-cycle record (spec 21 R399); the five counts: active, predicated off, masked, absent, idle. -/
structure Bin where
  base : DWord
  limit : DWord
  counts : List Nat
  overflow : Bool
  deriving DecidableEq, Repr, Inhabited

/-- A cached translation (spec 10 R185): tags, the page and its rights. -/
structure TlbEntry where
  part : Nat
  ctx : Nat
  page : Nat
  size : Nat
  pa : Nat
  r : Bool
  w : Bool
  x : Bool
  typ : Nat
  deriving DecidableEq, Repr, Inhabited

/-- A core: issue slots (R96), hidden read cache by sector (10 R189), held write-combining lines (10 R187), debug unit (21 R390), lane-cycle record. -/
structure Core where
  slots : Store (Option (Nat × Nat))
  /-- Per issue slot: the first cycle in which it may issue again, and the start of the run that issued last (R96). -/
  issued : Store (Nat × Nat)
  cache : Store (List Byte)
  combine : Store (List (Nat × Byte))
  /-- The cycle in which each held write-combining line received its first byte (R187). -/
  combineAt : Store Nat
  /-- The core's TLB: 64 entries (10 R185). -/
  tlb : List TlbEntry
  breaks : Store DbgPoint
  watches : Store DbgPoint
  haltOnBreak : Bool
  bins : Store Bin
  totals : Bin
  /-- The cycle from which each pipe is free: 0 and 1 vector, 2 special-function, then one for each other clause class (06 R96, 09 R167). -/
  pipes : Store Nat
  deriving DecidableEq, Repr, Inhabited

/-- A page walk (spec 10 R185): the die whose walker it takes or waits for, the cores whose accesses ask for it. -/
structure Walk where
  die : Nat
  cores : List Nat
  part : Nat
  ctx : Nat
  va : Nat
  deriving DecidableEq, Repr, Inhabited

/-- The gate of a copy (spec 11 R207): none, lodged at a node, open, cancelled. -/
inductive Gate where
  | none
  | lodged (node : Nat)
  | opened
  | cancelled
  deriving DecidableEq, Repr, Inhabited

/-- Where a slice of a copy stands (spec 11 R201, R218, R467). -/
inductive SliceStatus where
  | lodged
  | queued
  | running
  | faulted
  | landed
  deriving DecidableEq, Repr, Inhabited

/-- A slice: its copy, its group's command, source, destination, sectors, and the next sector. -/
structure Slice where
  copy : Nat
  wg : Nat
  grp : Nat
  id : Nat
  src : Nat
  dst : Nat
  len : Nat
  pos : Nat
  /-- Its place in the order in which slices reach the Rook (R201). -/
  order : Nat
  /-- The rounds in which it has had a sector (R201). -/
  round : Nat
  status : SliceStatus
  deriving DecidableEq, Repr, Inhabited

/-- A receiver of a multicast (spec 11 R206): its workgroup, and whether its part has stopped (R467). -/
structure Recv where
  wg : Nat
  stopped : Bool
  deriving DecidableEq, Repr, Inhabited

/-- A copy (spec 11 R203, R204): issuing workgroup; the number of its collective, none for a solo slice; the groups that are to contribute; slices so
far; the fields of the literal; the receivers of a CPYM in ascending order and the stride. -/
structure Copy where
  wg : Nat
  part : Nat
  ctx : Nat
  coll : Option Nat
  members : List Nat
  slices : List Nat
  srcSp : Space
  dstSp : Space
  bar : Option Nat
  shadow : Bool
  use : NodeUse
  /-- A slice that is not empty has given the node handle and the receiver word. -/
  named : Bool
  handle : Word
  multi : Option Word
  recvs : List Recv
  gate : Gate
  refused : Option Cause
  cluster : Nat
  deriving DecidableEq, Repr, Inhabited

/-- A traversal handed to a Knight (spec 15 R295). -/
structure KCmd where
  wg : Nat
  grp : Nat
  id : Nat
  part : Nat
  ctx : Nat
  desc : DWord
  queue : DWord
  self : Bool
  resume : Bool
  /-- Its output has shared lines: its writing starts in the issuer's turn; what the tables denied at issue; a replay is checked again (spec 19 R353). -/
  shared : Bool
  deny : Option Cause
  again : Bool
  /-- Pairs that the command has emitted before a fault. -/
  emitted : Nat
  deriving DecidableEq, Repr, Inhabited

/-- How a traversal ends (spec 15 R294 to R296): a result, or a fault. -/
inductive KEnd where
  | done
  | full
  | fault (f : Fail)
  /-- Writes that faulted are completed, and the traversal goes on (R296). -/
  | again
  deriving DecidableEq, Repr, Inhabited

/-- A running traversal (spec 15 R289, R292, R293): the queue's ring base, batch size, slots, handle array; the stack of reference-code pairs, top first; the
slot being filled with the records written; pairs emitted by this command, and since the traversal started; how it is to end. -/
structure KRun where
  cmd : KCmd
  ring : Nat
  batch : Nat
  slots : Nat
  handles : Nat
  stack : List (Nat × Nat)
  slot : Option (Nat × Nat)
  emitted : Nat
  total : Nat
  ends : Option KEnd
  deriving DecidableEq, Repr, Inhabited

/-- A cluster: the reservation table, the passes in the engine in the order of their start (12 R220, R233), the Knight (15 R295). -/
structure Cluster where
  table : List Pass
  inEngine : List Pass
  waiting : List KCmd
  kept : List KRun
  krun : Option KRun
  /-- The cluster's TLB: 1,024 entries (10 R185). -/
  tlb : List TlbEntry
  /-- The save bank: the workgroups whose landed saves it holds, until each is copied to its context's save area (20 R383). -/
  bank : List Nat
  deriving DecidableEq, Repr, Inhabited

/-- A command in an engine lane's queue (spec 14 R265, R266). -/
structure CollCmd where
  wg : Nat
  grp : Nat
  id : Nat
  part : Nat
  ctx : Nat
  core : Nat
  det : Bool
  op : CollOp
  /-- It writes shared lines of a deterministic launch: it waits for the turn (spec 19 R353, R365). -/
  shared : Bool
  arg : CollLane
  deriving DecidableEq, Repr, Inhabited

/-- A cursor entry (spec 13 R260, 14 R277): the header's physical and virtual address, the range, the position. -/
structure Cursor where
  isOpen : Bool
  gen : Nat
  wg : Nat
  hdr : Nat
  va : Nat
  valid : Bool
  lo : Nat
  hi : Nat
  key : Nat
  pay : Nat
  copies : Nat
  deriving DecidableEq, Repr, Inhabited

/-- An engine lane: queue, the build or the thaw that is not complete, cursor table (spec 14 R265, R280). -/
structure ELane where
  queue : List CollCmd
  busy : Option CollCmd
  cursors : Store Cursor
  deriving DecidableEq, Repr, Inhabited

/-- The ranges of an initialised collection that only its engine writes (spec 13 R253): the header's physical address; the pieces of physical memory, base and
size, that hold header, directory and pool, in this order (log 31). -/
structure Sealed where
  hdr : Nat
  /-- The partition whose engine lane serves it (14 R269). -/
  part : Nat
  pieces : List (Nat × Nat)
  deriving DecidableEq, Repr, Inhabited

/-- What is inside the package but for the management hardware: memories, cores, engines, partitions, workgroups. -/
structure Mach where
  /-- Arithmetic-clock cycles since device reset; %cycle is its low 64 bits (spec 06 R111). -/
  cycle : Nat
  /-- MODEL'S OWN (log 10): how many free values have been used. -/
  freeCtr : Nat
  /-- The group whose run issues the next instruction (log 1). -/
  cur : Option (Nat × Nat)
  /-- Commands handed on so far: the number of the next one. -/
  nextCmd : Nat
  wgs : Store Wg
  nextWg : Nat
  launches : Store Launch
  nextLaunch : Nat
  parts : Store Part
  cores : Store Core
  /-- Global memory by physical address (spec 10 R183): local HBM and the HBM of other devices. -/
  hbm : Memory
  /-- Vaults: cluster × 2^22 + offset (spec 10 R179). -/
  vault : Memory
  /-- Scratchpads: core × 2^19 + core address (spec 10 R177). -/
  scratch : Memory
  /-- The TLBs of the dies: 16,384 entries each (spec 10 R185). -/
  dieTlbs : Store (List TlbEntry)
  walks : List Walk
  /-- Retired 64 KiB frames, 4 KiB vault blocks and 768-byte scratchpad rows (spec 10 R190). -/
  badFrames : List Nat
  badBlocks : List Nat
  badRows : List Nat
  /-- Locations with an error that a read has not yet met (spec 10 R190). -/
  failing : List Loc
  /-- Transient errors counted, per die. -/
  transients : Store Nat
  regions : List Region
  copies : Store Copy
  nextCopy : Nat
  slices : Store Slice
  nextSlice : Nat
  /-- Clusters by device-wide index. -/
  clusters : Store Cluster
  /-- Engine lanes: 16 × engine + lane. -/
  elanes : Store ELane
  sealed_ : List Sealed
  grants : List Grant
  /-- Planes whose link is down (spec 23 R425). -/
  planesDown : List Nat
  hostOut : List (Nat × HostMsg)
  deriving DecidableEq, Repr, Inhabited

/-- The management hardware (spec 23 R425, R428): the fused hash of the firmware key, whether the device runs firmware or stands in recovery, the
running image with its key and signature, the domain number, attestation reports sent. -/
structure Hw where
  fuse : Nat
  running : Bool
  firmware : List Byte
  key : List Byte
  sig : List Byte
  domain : Nat
  reports : List HostMsg
  deriving DecidableEq, Repr, Inhabited

/-- MODEL'S OWN (log 1): one entry of the schedule: issue the next word of a group's run, or take one of the table's steps. -/
inductive Choice where
  | issue (wg grp : Nat)
  | event (i : Instr)
  deriving DecidableEq, Repr, Inhabited

/-- The state of the device. -/
structure State where
  hw : Hw
  m : Mach
  /-- MODEL'S OWN (log 1): the order in which agents act; empty, the default order of `Sys2Proof/Machine/Step.lean` applies. -/
  schedule : List Choice
  /-- MODEL'S OWN (log 1): how many words the default order has issued; every eighth waits until the other agents have nothing to do. -/
  turn : Nat
  deriving DecidableEq, Repr, Inhabited

/-- How a step of the model ends in a fault. -/
inductive Fault where
  /-- Raised by an instruction of the opcode map that is executed while no group holds an issue slot: no hardware does that, and no step of
  `Sys2Proof.Machine.step` reaches it.  Safe. -/
  | noIssuingGroup
  deriving DecidableEq, Repr, Inhabited

/-- How the model refuses. -/
inductive Refusal where
  /-- Raised by an arm of the dispatch whose instruction has no meaning yet.  Safe: nothing is claimed of it. -/
  | notModelled (mnemonic : String)
  deriving DecidableEq, Repr, Inhabited

/-- The device right after reset: the clock at zero (spec 06 R111), in recovery until a firmware image verifies (23 R428), memories zero (23 R427),
no partition (23 R426).  Values the spec does not give: log 3. -/
def State.reset : State where
  hw := default
  m := default
  schedule := []
  turn := 0

end Sys2Proof.Machine
end

