-- ==== Sys2Proof/Machine/Store.lean ====
section
/-! DEFINITION. Tables with rising keys, and memories: tables of bytes in one canonical form, with no entry that holds zero. -/

namespace Sys2Proof.Machine

/-- The value at a key; an unlisted key holds the default. -/
def Store.get {α : Type} (dflt : α) : Store α → Nat → α
  | [], _ => dflt
  | (k, v) :: rest, key => if key = k then v else if key < k then dflt else Store.get dflt rest key

/-- A new value at a key of a table. -/
def Store.put {α : Type} : Store α → Nat → α → Store α
  | [], key, v => [(key, v)]
  | (k, u) :: rest, key, v =>
    if key = k then (key, v) :: rest
    else if key < k then (key, v) :: (k, u) :: rest
    else (k, u) :: Store.put rest key v

/-- A new value at a key of a canonical table; the default removes the entry. -/
def Store.set {α : Type} [DecidableEq α] (dflt : α) : Store α → Nat → α → Store α
  | [], key, v => if v = dflt then [] else [(key, v)]
  | (k, u) :: rest, key, v =>
    if key = k then (if v = dflt then rest else (key, v) :: rest)
    else if key < k then (if v = dflt then (k, u) :: rest else (key, v) :: (k, u) :: rest)
    else (k, u) :: Store.set dflt rest key v

/-- The value at a key changed by a function. -/
def Store.upd {α : Type} (dflt : α) (s : Store α) (key : Nat) (f : α → α) : Store α :=
  Store.put s key (f (Store.get dflt s key))

/-- A table without a key. -/
def Store.del {α : Type} (s : Store α) (key : Nat) : Store α := s.filter fun e => decide (e.1 ≠ key)

/-- The keys of a table that lists the keys above a bound: rising, and no default value. -/
def Store.wfFrom {α : Type} [DecidableEq α] (dflt : α) : Nat → Store α → Bool
  | _, [] => true
  | b, (k, v) :: rest => decide (b ≤ k) && decide (v ≠ dflt) && Store.wfFrom dflt (k + 1) rest

/-- The canonical form. -/
def Store.wf {α : Type} [DecidableEq α] (dflt : α) (s : Store α) : Bool := Store.wfFrom dflt 0 s

/-- The keys listed. -/
def Store.keys {α : Type} (s : Store α) : List Nat := s.map (·.1)

/-- A byte of a memory; an unlisted byte reads as zero (spec 23 R427, log 4). -/
def Memory.read (mem : Memory) (a : Nat) : Byte := Store.get 0 mem a

/-- One byte written. -/
def Memory.write (mem : Memory) (a : Nat) (b : Byte) : Memory := Store.set 0 mem a b

/-- The canonical form of a memory. -/
def Memory.wf (mem : Memory) : Bool := Store.wf (0 : Byte) mem

/-- `n` bytes from an address up. -/
def Memory.readN (mem : Memory) (a : Nat) : Nat → List Byte
  | 0 => []
  | n + 1 => Memory.read mem a :: Memory.readN mem (a + 1) n

/-- Bytes written from an address up. -/
def Memory.writeN (mem : Memory) (a : Nat) : List Byte → Memory
  | [] => mem
  | b :: bs => Memory.writeN (Memory.write mem a b) (a + 1) bs

/-- A number from bytes, little-endian (spec 00 R3). -/
def leNat : List Byte → Nat
  | [] => 0
  | b :: bs => b.toNat + 256 * leNat bs

/-- `n` bytes of a number, little-endian (spec 00 R3). -/
def leBytes : Nat → Nat → List Byte
  | 0, _ => []
  | n + 1, v => BitVec.ofNat 8 v :: leBytes n (v / 256)

/-- An element placed before the first that it may not follow. -/
def placeBy {α : Type} (le : α → α → Bool) (x : α) : List α → List α
  | [] => [x]
  | y :: ys => if le x y then x :: y :: ys else y :: placeBy le x ys

/-- A list in the order of a relation; equals keep their places. -/
def sortBy {α : Type} (le : α → α → Bool) : List α → List α
  | [] => []
  | x :: xs => placeBy le x (sortBy le xs)

/-- Bytes without the ones in a range: the canonical form is kept. -/
def Memory.dropRange (mem : Memory) (lo hi : Nat) : Memory := mem.filter fun c => decide (c.1 < lo) || decide (hi ≤ c.1)

end Sys2Proof.Machine
end

