-- ==== Sys2Proof/Machine/Get.lean ====
section
/-! DEFINITION. Reading and changing the parts of the machine: workgroups, groups, lanes' registers and predicates, launches, partitions, contexts,
cores. -/

namespace Sys2Proof.Machine

/-- A workgroup by its serial number. -/
def Mach.wg (m : Mach) (w : Nat) : Wg := Store.get default m.wgs w

/-- A workgroup changed. -/
def Mach.modW (m : Mach) (w : Nat) (f : Wg → Wg) : Mach := { m with wgs := Store.upd default m.wgs w f }

/-- A group of a workgroup. -/
def Mach.grp (m : Mach) (w g : Nat) : Group := Store.get default (m.wg w).groups g

/-- A group changed. -/
def Mach.modG (m : Mach) (w g : Nat) (f : Group → Group) : Mach :=
  m.modW w fun x => { x with groups := Store.upd default x.groups g f }

/-- A launch. -/
def Mach.launch (m : Mach) (k : Nat) : Launch := Store.get default m.launches k

/-- A launch changed. -/
def Mach.modL (m : Mach) (k : Nat) (f : Launch → Launch) : Mach := { m with launches := Store.upd default m.launches k f }

/-- A partition. -/
def Mach.part (m : Mach) (p : Nat) : Part := Store.get default m.parts p

/-- A partition changed. -/
def Mach.modP (m : Mach) (p : Nat) (f : Part → Part) : Mach := { m with parts := Store.upd default m.parts p f }

/-- A context of a partition. -/
def Mach.ctx (m : Mach) (p c : Nat) : Ctx := Store.get default (m.part p).ctxs c

/-- A context changed. -/
def Mach.modC (m : Mach) (p c : Nat) (f : Ctx → Ctx) : Mach := m.modP p fun x => { x with ctxs := Store.upd default x.ctxs c f }

/-- A core by its device-wide index (spec 00 R2). -/
def Mach.core (m : Mach) (k : Nat) : Core := Store.get default m.cores k

/-- A core changed. -/
def Mach.modK (m : Mach) (k : Nat) (f : Core → Core) : Mach := { m with cores := Store.upd default m.cores k f }

/-- The launch block of a workgroup. -/
def Mach.block (m : Mach) (w : Nat) : Block := (m.launch (m.wg w).launch).block

/-- A free value used: the counter of free values advances (log 10). -/
def Mach.useFree (m : Mach) : Mach := { m with freeCtr := m.freeCtr + 1 }

/-- The groups of a workgroup, by number. -/
def Wg.groupIds (x : Wg) : List Nat := List.range x.ngroups

/-- The serials of the workgroups that exist. -/
def Mach.wgIds (m : Mach) : List Nat := (m.wgs.filter fun e => decide (e.2.status ≠ .absent)).map (·.1)

/-- The lanes of a mask, in ascending order. -/
def lanesOf (k : Mask) : List Nat := (List.range 32).filter fun l => k.getLsbD l

/-- The mask of a list of lanes. -/
def maskOf (ls : List Nat) : Mask := ls.foldl (fun acc l => acc ||| BitVec.ofNat 32 (2 ^ l)) 0

/-- The mask of the lanes that meet a condition. -/
def maskIf (f : Nat → Bool) : Mask := maskOf ((List.range 32).filter f)

/-- The lowest lane of a mask. -/
def lowLane (k : Mask) : Option Nat := (lanesOf k).head?

/-- The lowest lane, 0 for an empty mask. -/
def lowLaneD (k : Mask) : Nat := (lowLane k).getD 0

/-- Register `r` of lane `l` (spec 00 R7). -/
def Group.reg (x : Group) (r l : Nat) : Word := Store.get 0 x.regs (32 * r + l)

/-- Register `r` of lane `l` written. -/
def Group.setReg (x : Group) (r l : Nat) (v : Word) : Group := { x with regs := Store.put x.regs (32 * r + l) v }

/-- The pair at `r`: the low word is the even register (spec 07 R125). -/
def Group.pair (x : Group) (r l : Nat) : DWord := x.reg (r + 1) l ++ x.reg r l

/-- The quad at `r`, lowest register first. -/
def Group.quad (x : Group) (r l : Nat) : BitVec 128 := x.reg (r + 3) l ++ x.reg (r + 2) l ++ x.reg (r + 1) l ++ x.reg r l

/-- `n` registers from `r`, as one number, lowest register least significant. -/
def Group.regsVal (x : Group) (r n l : Nat) : Nat :=
  match n with
  | 0 => 0
  | k + 1 => (x.reg r l).toNat + 2 ^ 32 * x.regsVal (r + 1) k l

/-- `n` registers from `r` written from one number. -/
def Group.setRegs (x : Group) (r n l : Nat) (v : Nat) : Group :=
  match n with
  | 0 => x
  | k + 1 => (x.setReg r l (BitVec.ofNat 32 v)).setRegs (r + 1) k l (v / 2 ^ 32)

/-- Predicate `p` of lane `l`; p7 is pt (spec 05 R79). -/
def Group.pred (x : Group) (p l : Nat) : Bool := if p = 7 then true else Store.get false x.preds (32 * p + l)

/-- Predicate `p` of lane `l` written; pt holds. -/
def Group.setPred (x : Group) (p l : Nat) (v : Bool) : Group :=
  if p = 7 then x else { x with preds := Store.put x.preds (32 * p + l) v }

/-- The die of a device-wide cluster, of a device-wide core (spec 00 R2). -/
def dieOfCore (k : Nat) : Nat := k / 256

/-- The device-wide cluster of a device-wide core (spec 00 R2). -/
def clusterOfCore (k : Nat) : Nat := k / 4

end Sys2Proof.Machine
end

