-- ==== Sys2Proof/Machine/Mem.lean ====
section
/-! DEFINITION. Address translation and the memories behind it (spec 10 R175 to R193). -/

namespace Sys2Proof.Machine

/-- What an access asks of a page (spec 10 R184). -/
inductive Right where
  | read
  | write
  | fetch
  deriving DecidableEq, Repr, Inhabited

/-- A translated address: physical address, memory type (0 normal, 1 write-combining, 2 device, 3 strongly ordered), rights (spec 10 R182). -/
structure Xlat where
  pa : Nat
  typ : Nat
  r : Bool
  w : Bool
  x : Bool
  size : Nat
  deriving DecidableEq, Repr, Inhabited

/-- A value of %trapinfo that no rule states: free (log 23). -/
def freeInfo (m : Mach) : DWord := Config.trapInfo m.freeCtr

/-- A value of %trapinfo whose low word a rule states and no rule states the rest (log 23). -/
def infoLow (m : Mach) (v : Word) : DWord := (freeInfo m).extractLsb' 32 32 ++ v

/-- Bytes of HBM of a device: 576 GiB (spec 00 R1, 10 R183). -/
def hbmBytes : Nat := 0x9000000000

/-- A field of a number. -/
def fld (v lo n : Nat) : Nat := v / 2 ^ lo % 2 ^ n

/-- A physical address of local HBM (spec 10 R183). -/
def paLocal (pa : Nat) : Bool := decide (pa < hbmBytes)

/-- The target of a physical address, bits [51:50] (spec 10 R183). -/
def paTarget (pa : Nat) : Nat := fld pa 50 2

/-- A physical address that keeps R183; one that names this device's own number is another device's address to the model (log 115). -/
def paOk (pa : Nat) : Bool :=
  match paTarget pa with
  | 0 => decide (fld pa 40 10 = 0) && decide (fld pa 0 40 < hbmBytes)
  | 1 => decide (fld pa 48 2 = 0) && decide (fld pa 40 8 < 144) && decide (fld pa 0 40 < hbmBytes)
  | 2 => true
  | _ => false

/-- The 64 KiB frame of a physical address has been retired (spec 10 R190). -/
def frameBad (m : Mach) (pa : Nat) : Bool := m.badFrames.contains (pa / 65536)

/-- One level of a walk for `va`: the entry of the table at `table`, and below it the next levels (spec 10 R181, R182, R184). -/
def walkFrom (m : Mach) (va : Nat) : Nat → Nat → Except Cause Xlat
  | lvl, table =>
    let sh := 16 + 9 * lvl
    let e := leNat (Memory.readN m.hbm (table + 8 * fld va sh 9) 8)
    let addr := fld e 12 40 * 4096
    if frameBad m table then .error .uncorrectable
    else if fld e 0 1 = 0 then .error .pageNotPresent
    else if fld e 52 12 ≠ 0 ∨ fld e 7 5 ≠ 0 then .error .translationAbort
    else if fld e 1 1 = 1 then
      if lvl = 3 ∨ addr % 2 ^ sh ≠ 0 ∨ (fld e 5 1 = 1 ∧ fld e 6 1 = 1) then .error .translationAbort
      else
        let pa := addr + va % 2 ^ sh
        if paOk pa then
          .ok ⟨pa, fld e 2 2, decide (fld e 4 1 = 1), decide (fld e 5 1 = 1), decide (fld e 6 1 = 1), sh⟩
        else .error .translationAbort
    else if fld e 2 5 ≠ 0 ∨ paLocal addr = false then .error .translationAbort
    else
      match lvl with
      | 0 => .error .translationAbort
      | l + 1 => walkFrom m va l addr

/-- A walk from the root of a context (spec 10 R181). -/
def walk (m : Mach) (p c va : Nat) : Except Cause Xlat := walkFrom m va 3 (m.ctx p c).desc.root.toNat

/-! ## The TLBs -/

/-- Where an access stands, for the TLBs and walkers it uses (spec 10 R185). -/
inductive Site where
  | core (k : Nat)
  | cluster (c : Nat)
  | die (d : Nat)
  deriving DecidableEq, Repr, Inhabited

/-- The core of a site, if it is one. -/
def Site.coreOf : Site → Option Nat
  | .core k => some k
  | _ => none

/-- The cluster of a site below die level. -/
def Site.clusterOf : Site → Option Nat
  | .core k => some (clusterOfCore k)
  | .cluster c => some c
  | .die _ => none

/-- The die of a site. -/
def Site.dieOf : Site → Nat
  | .core k => dieOfCore k
  | .cluster c => c / 64
  | .die d => d

/-- The entry is tagged with a partition and a context and covers an address (spec 10 R185). -/
def TlbEntry.covers (p c va : Nat) (e : TlbEntry) : Bool := decide (e.part = p) && decide (e.ctx = c) && decide (va / 2 ^ e.size = e.page)

/-- The TLB of a core, of a cluster, of a die. -/
def coreTlb (m : Mach) (k : Nat) : List TlbEntry := (Store.get default m.cores k : Core).tlb

/-- The TLB of a cluster. -/
def clusterTlb (m : Mach) (c : Nat) : List TlbEntry := (Store.get default m.clusters c : Cluster).tlb

/-- The TLB of a die. -/
def dieTlb (m : Mach) (d : Nat) : List TlbEntry := Store.get [] m.dieTlbs d

/-- The entries an access can hit: its core's, then its cluster's, then its die's (spec 10 R185). -/
def siteTlb (m : Mach) (k : Site) : List TlbEntry :=
  ((k.coreOf.map (coreTlb m)).getD []) ++ ((k.clusterOf.map (clusterTlb m)).getD []) ++ dieTlb m k.dieOf

/-- The cached translation of an address, if one is held (spec 10 R185). -/
def tlbFind (m : Mach) (k : Site) (p c va : Nat) : Option Xlat :=
  ((siteTlb m k).find? (TlbEntry.covers p c va)).map fun e =>
    ⟨e.pa + va % 2 ^ e.size, e.typ, e.r, e.w, e.x, e.size⟩

/-- An entry placed in a TLB of a capacity; a full TLB gives up one entry, free (spec 10 R185, log 16). -/
def tlbPut (cap pick p c va : Nat) (x : Xlat) (es : List TlbEntry) : List TlbEntry :=
  if es.any (TlbEntry.covers p c va) then es
  else (if cap ≤ es.length then es.eraseIdx (pick % cap) else es) ++ [⟨p, c, va / 2 ^ x.size, x.size, x.pa - va % 2 ^ x.size, x.r, x.w, x.x, x.typ⟩]

/-- Every TLB of a site holds the address. -/
def tlbHeld (m : Mach) (k : Site) (p c va : Nat) : Bool :=
  let has := fun (es : List TlbEntry) => es.any (TlbEntry.covers p c va)
  ((k.coreOf.map (coreTlb m)).map has).getD true && ((k.clusterOf.map (clusterTlb m)).map has).getD true && has (dieTlb m k.dieOf)

/-- A translation placed in the TLBs of a site that do not hold it: 64, 1,024 and 16,384 entries (spec 10 R185). -/
def tlbFill (k : Site) (p c va : Nat) (x : Xlat) (m : Mach) : Mach :=
  let n := Config.pick m.freeCtr
  let cs := match k.coreOf with | some i => Store.upd default m.cores i fun (q : Core) => { q with tlb := tlbPut 64 n p c va x q.tlb } | none => m.cores
  let ks := match k.clusterOf with
    | some i => Store.upd default m.clusters i fun (q : Cluster) => { q with tlb := tlbPut 1024 n p c va x q.tlb }
    | none => m.clusters
  { m with cores := cs, clusters := ks, dieTlbs := Store.upd [] m.dieTlbs k.dieOf (tlbPut 16384 n p c va x), freeCtr := m.freeCtr + 1 }

/-- Cached translations that meet a condition are dropped everywhere. -/
def tlbDrop (gone : TlbEntry → Bool) (m : Mach) : Mach :=
  { m with
    cores := m.cores.map fun e => (e.1, { e.2 with tlb := e.2.tlb.filter fun t => !(gone t) })
    clusters := m.clusters.map fun e => (e.1, { e.2 with tlb := e.2.tlb.filter fun t => !(gone t) })
    dieTlbs := m.dieTlbs.map fun e => (e.1, e.2.filter fun t => !(gone t)) }

/-! ## Access tables -/

/-- The entry of an access table for a partition: the one written last (spec 23 R426). -/
def grantFor (m : Mach) (p : Nat) (t : Target) : Option Grant :=
  (m.grants.filter fun g => decide (g.part = p) && decide (g.tgt = t)).getLast?

/-- The right an entry gives. -/
def grantGives (rt : Right) (g : Grant) : Bool :=
  match rt with
  | .write => g.write
  | .read | .fetch => g.read

/-- A right granted in the target's access table (spec 17 R322, 23 R426); another device grants what no entry of its table takes away (log 20). -/
def granted (m : Mach) (p pa : Nat) (rt : Right) : Bool :=
  match paTarget pa with
  | 0 => m.grants.any fun g => decide (g.tgt = .hbm) && decide (g.part = p) && decide (g.base ≤ pa) && decide (pa < g.base + g.size) && grantGives rt g
  | 1 => ((grantFor m p (.device (fld pa 40 8))).map (grantGives rt)).getD true
  | _ => true

/-- A right granted in a vault's access table (spec 10 R179, 23 R426): the vaults of a partition's clusters are its own until an entry says otherwise (log 52). -/
def vaultGranted (m : Mach) (p cluster : Nat) (rt : Right) : Bool :=
  ((grantFor m p (.vault cluster)).map (grantGives rt)).getD true

/-- A right of the page. -/
def Xlat.allows (x : Xlat) (rt : Right) : Bool :=
  match rt with
  | .read => x.r
  | .write => x.w
  | .fetch => x.x

/-- The page of an address: from the TLBs where they hold it, else from a walk (spec 10 R185). -/
def lookup (m : Mach) (k : Site) (p c va : Nat) : Except Cause Xlat :=
  match tlbFind m k p c va with
  | some x => .ok x
  | none => walk m p c va

/-- The plane on which requests for an address travel is down (spec 17 R321, 23 R425). -/
def planeClosed (m : Mach) (pa : Nat) : Bool := m.planesDown.contains (pa / 256 % 16)

/-- Some plane carries messages (spec 23 R425). -/
def linkUp (m : Mach) : Bool := (List.range 16).any fun k => !(m.planesDown.contains k)

/-- The address lies in another device, on a plane whose link is down: the access faults (spec 17 R321, R322, 23 R425). -/
def planeDown (m : Mach) (pa : Nat) : Bool := decide (paTarget pa = 1) && planeClosed m pa

/-- The translation of an access: TLB or walk, then permission, then the access table, then planes that are down and retired frames (spec 10 R181, R184, R190, 23 R425). -/
def translate (m : Mach) (k : Site) (p c va : Nat) (rt : Right) : Except Cause Xlat :=
  if 2 ^ 52 ≤ va then .error .pageNotPresent
  else
    match lookup m k p c va with
    | .error e => .error e
    | .ok x =>
      if x.allows rt = false then .error .pagePermission
      else if granted m p x.pa rt = false then .error .accessTableDeny
      else if planeDown m x.pa || (paLocal x.pa && frameBad m x.pa) then .error .uncorrectable
      else .ok x

/-- As `translate`, on a page that must be normal (spec 10 R188). -/
def translateNormal (m : Mach) (k : Site) (p c va : Nat) (rt : Right) : Except Cause Xlat :=
  match translate m k p c va rt with
  | .error e => .error e
  | .ok x => if x.typ = 0 then .ok x else .error .memtypeConflict

/-- As `translateNormal`, for an access that needs both rights (spec 03 R34). -/
def translateBoth (m : Mach) (k : Site) (p c va : Nat) : Except Cause Xlat :=
  match translateNormal m k p c va .read with
  | .error e => .error e
  | .ok _ => translateNormal m k p c va .write

/-- An access's translation enters the TLBs of its site, as a walk that misses them fills them (spec 10 R185). -/
def touchTlb (k : Site) (p c va : Nat) (m : Mach) : Mach :=
  match decide (2 ^ 52 ≤ va) || tlbHeld m k p c va, lookup m k p c va with
  | false, .ok x => tlbFill k p c va x m
  | _, _ => m

/-- An HBM location whose check has failed and that waits for its second read lies in the granule of an address (spec 10 R190, R191). -/
def hbmFailing (m : Mach) (pa : Nat) : Bool := m.failing.any fun f => match f with | .hbm a => decide (a / 32 = pa / 32) | _ => false

/-- A walk meets an entry whose check has failed (spec 10 R190). -/
def walkFailing (m : Mach) (va : Nat) : Nat → Nat → Bool
  | lvl, table =>
    let e := leNat (Memory.readN m.hbm (table + 8 * fld va (16 + 9 * lvl) 9) 8)
    hbmFailing m (table + 8 * fld va (16 + 9 * lvl) 9) ||
      (decide (fld e 0 2 = 1) && match lvl with | 0 => false | l + 1 => walkFailing m va l (fld e 12 40 * 4096))

/-- The walks of a die, in the order of their requests: the first 96 have walkers (spec 10 R185). -/
def walksOn (m : Mach) (d : Nat) : List Walk := m.walks.filter fun k => decide (k.die = d)

/-- A walk for a page of a context. -/
def Walk.isFor (k : Walk) (p c va : Nat) : Bool := decide (k.part = p) && decide (k.ctx = c) && decide (k.va / 65536 = va / 65536)

/-- An access that misses the TLBs waits: the page's walk is in progress, every walker of its die is busy, or an entry is to be read again (spec 10 R185,
R190).  Else its walk is part of the step that performs it (log 16). -/
def xlatWaits (m : Mach) (k : Site) (p c va : Nat) : Bool :=
  decide (va < 2 ^ 52) && (tlbFind m k p c va).isNone &&
    ((walksOn m k.dieOf).any (fun w => w.isFor p c va) || decide (96 ≤ (walksOn m k.dieOf).length) || walkFailing m va 3 (m.ctx p c).desc.root.toNat)

/-- Bytes at a physical address; the host window returns free values (spec 10 R183, log 8). -/
def readPa (m : Mach) (pa n : Nat) : List Byte :=
  if paTarget pa = 2 then (List.range n).map fun k => Config.hostWindow (m.freeCtr + k) else Memory.readN m.hbm pa n

/-- An agent that writes: a lane of a group, or none for any other agent. -/
abbrev Agent := Option (Nat × Nat × Nat)

/-- A write marks the open regions of other agents that have read the line (spec 18 R346). -/
def markRegions (rs : List Region) (who : Agent) (pa : Nat) : List Region :=
  rs.map fun r =>
    if decide (who ≠ some (r.wg, r.grp, r.lane)) && r.lines.any (fun l => decide (l.2 = pa / 128)) then { r with changed := true } else r

/-- A sector of a core's hidden read cache updated by a write of the core's own (spec 10 R189). -/
def cacheUpdate (cache : Store (List Byte)) (pa : Nat) (bs : List Byte) : Store (List Byte) :=
  let key := pa / 32
  match Store.get [] cache key with
  | [] => cache
  | sec => Store.put cache key ((List.range 32).map fun k =>
      let a := key * 32 + k
      if pa ≤ a ∧ a < pa + bs.length then bs.getD (a - pa) 0 else sec.getD k 0)

/-- The lines of 128 bytes that a hidden read cache holds. -/
def cacheLines (cache : Store (List Byte)) : List Nat := ((Store.keys cache).map (· / 4)).eraseDups

/-- A sector enters a hidden read cache of 64 KiB, 512 lines of 128 bytes; where every line is in use one is evicted, free (spec 00 R1, 10 R189, log 6). -/
def cachePut (pick key : Nat) (sec : List Byte) (cache : Store (List Byte)) : Store (List Byte) :=
  let ls := cacheLines cache
  let kept := if ls.contains (key / 4) || decide (ls.length < 512) then cache
    else cache.filter fun e => decide (e.1 / 4 ≠ ls.getD (pick % 512) 0)
  Store.put kept key sec

/-- Bytes written at a physical address inside one sector, by an agent, on behalf of a core where a thread of it writes (spec 10 R189). -/
def writePa (m : Mach) (core : Option Nat) (who : Agent) (pa : Nat) (bs : List Byte) : Mach :=
  if paTarget pa = 2 then { m with hostOut := m.hostOut ++ [(0, .window (fld pa 0 50) bs)] }
  else
    let m1 := { m with hbm := Memory.writeN m.hbm pa bs, regions := markRegions m.regions who pa }
    match core with
    | none => m1
    | some k => m1.modK k fun c => { c with cache := cacheUpdate c.cache pa bs }

/-- Key of a vault byte: the vault of a device-wide cluster (spec 10 R179). -/
def vaultKey (cluster off : Nat) : Nat := cluster * 2 ^ 22 + off

/-- The memory key of a vault address of a partition, none where the address breaks R179's bounds. -/
def vaultAddr (m : Mach) (p addr : Nat) : Option Nat :=
  if fld addr 30 2 ≠ 0 then none
  else
    match (m.part p).clusters[fld addr 22 8]? with
    | none => none
    | some c => some (vaultKey c (fld addr 0 22))

/-- A vault location whose check has failed lies in the granule of a key (spec 10 R190, R191). -/
def vaultFailing (m : Mach) (key : Nat) : Bool := m.failing.any fun f => match f with | .vault c o => decide (vaultKey c o / 32 = key / 32) | _ => false

/-- The 4 KiB block of a vault byte has been retired (spec 10 R190). -/
def blockBad (m : Mach) (key : Nat) : Bool := m.badBlocks.contains (key / 4096)

/-- Key of a scratchpad byte: device-wide core and core address (spec 10 R177). -/
def scratchKey (core addr : Nat) : Nat := core * 2 ^ 19 + addr

/-- The memory key of offset `o` of a workgroup's allocation (spec 04 R48). -/
def scratchAddr (x : Wg) (o : Nat) : Nat := scratchKey x.core (x.base + o)

/-- A word of code (spec 05 R65): execute permission, any memory type. -/
def fetchWord (m : Mach) (k : Site) (p c va : Nat) : Except Cause Word :=
  match translate m k p c va .fetch with
  | .error e => .error e
  | .ok x => .ok (BitVec.ofNat 32 (leNat (readPa m x.pa 4)))

/-- The fetch of a word waits: for its walk, or for the second read of a word that failed its check (spec 05 R65, 10 R185, R190). -/
def fetchWaits (m : Mach) (k : Site) (p c va : Nat) : Bool :=
  xlatWaits m k p c va || match translate m k p c va .fetch with | .ok x => paLocal x.pa && hbmFailing m x.pa | .error _ => false

/-- The header at a target (spec 05 R72): 4-aligned, marker 0xA; a fault of the read is its own cause, PAGE_NOT_PRESENT above the address space (10 R181,
log 116). -/
def headerAt (m : Mach) (k : Site) (p c : Nat) (t : DWord) : Except Cause Word :=
  if t.toNat % 4 ≠ 0 then .error .branchTarget
  else
    match fetchWord m k p c t.toNat with
    | .error e => .error e
    | .ok w => if (bits w 0 4).toNat = 0xA then .ok w else .error .branchTarget

/-- The priority a frontier entry takes at an address: the PRIO of the header there (spec 05 R66, 06 R102); 0 where the header cannot be read, whose
fault the fetch will raise (log 21). -/
def prioAt (m : Mach) (k : Site) (p c : Nat) (t : DWord) : Nat :=
  match fetchWord m k p c t.toNat with
  | .error _ => 0
  | .ok w => (bits w 16 8).toNat

/-- The YP bit of the header at an address (spec 05 R66, R67). -/
def yieldAt (m : Mach) (k : Site) (p c : Nat) (t : DWord) : Bool :=
  match headerAt m k p c t with
  | .error _ => false
  | .ok w => decide (bits w 7 1 = 1)

end Sys2Proof.Machine
end

