-- ==== Sys2Proof/Machine/Fp.lean ====
section
/-! DEFINITION. Number formats and correctly rounded arithmetic on bit patterns (spec 08, 09): values are decoded to exact integers times powers of
two, computed exactly, and rounded once.  Patterns are Nat numbers below 2 to the width. -/

namespace Sys2Proof.Machine

/-- A binary format: exponent bits and fraction bits (spec 08 R138). -/
structure Fmt where
  eb : Nat
  fb : Nat
  deriving DecidableEq, Repr, Inhabited

/-- FP64 (spec 08 R138). -/
def fp64 : Fmt := ⟨11, 52⟩

/-- FP32 (spec 08 R138). -/
def fp32 : Fmt := ⟨8, 23⟩

/-- FP16 (spec 08 R138). -/
def fp16 : Fmt := ⟨5, 10⟩

/-- BF16 (spec 08 R138). -/
def bf16 : Fmt := ⟨8, 7⟩

/-- The four modes (spec 08 R141). -/
inductive RM where
  | rne | rz | ru | rd
  deriving DecidableEq, Repr, Inhabited

/-- The mode of a two-bit code (spec 09 R155). -/
def RM.ofBits (n : Nat) : RM :=
  match n % 4 with
  | 0 => .rne
  | 1 => .rz
  | 2 => .ru
  | _ => .rd

/-- An exact value: a NaN with its fraction bits, an infinity, or sign, integer, power of two. -/
inductive FVal where
  | nan (frac : Nat)
  | inf (neg : Bool)
  | fin (neg : Bool) (m : Nat) (e : Int)
  deriving DecidableEq, Repr, Inhabited

/-- A result pattern with the flags it raises, in the bit order of %fpflags (spec 09 R154). -/
structure FRes where
  val : Nat
  flags : Nat
  deriving DecidableEq, Repr, Inhabited

/-- The invalid flag. -/
def flInvalid : Nat := 1

/-- The divide-by-zero flag. -/
def flDivZero : Nat := 2

/-- The overflow flag. -/
def flOverflow : Nat := 4

/-- The underflow flag. -/
def flUnderflow : Nat := 8

/-- The inexact flag. -/
def flInexact : Nat := 16

/-- The bias of a format. -/
def Fmt.bias (f : Fmt) : Nat := 2 ^ (f.eb - 1) - 1

/-- The exponent of the least unit of the subnormals. -/
def Fmt.qmin (f : Fmt) : Int := 1 - (f.bias : Int) - (f.fb : Int)

/-- The pattern of an infinity, without sign. -/
def Fmt.infBits (f : Fmt) : Nat := (2 ^ f.eb - 1) * 2 ^ f.fb

/-- A sign bit at its place. -/
def Fmt.sign (f : Fmt) (neg : Bool) : Nat := if neg then 2 ^ (f.eb + f.fb) else 0

/-- The canonical NaN (spec 08 R139). -/
def Fmt.qnan (f : Fmt) : Nat := f.infBits + 2 ^ (f.fb - 1)

/-- The value of a pattern (spec 08 R138). -/
def Fmt.decode (f : Fmt) (v : Nat) : FVal :=
  let neg := decide (fld v (f.eb + f.fb) 1 = 1)
  let e := fld v f.fb f.eb
  let t := fld v 0 f.fb
  if e = 2 ^ f.eb - 1 then (if t = 0 then .inf neg else .nan t)
  else if e = 0 then .fin neg t f.qmin
  else .fin neg (2 ^ f.fb + t) (f.qmin + (e - 1 : Nat))

/-- The pattern is a NaN. -/
def Fmt.isNan (f : Fmt) (v : Nat) : Bool := decide (fld v f.fb f.eb = 2 ^ f.eb - 1 ∧ fld v 0 f.fb ≠ 0)

/-- The pattern is a signalling NaN: its top fraction bit is 0 (spec 08 R139). -/
def Fmt.isSig (f : Fmt) (v : Nat) : Bool := f.isNan v && decide (fld v (f.fb - 1) 1 = 0)

/-- A NaN with its quiet bit set. -/
def Fmt.quiet (f : Fmt) (v : Nat) : Nat := if fld v (f.fb - 1) 1 = 1 then v else v + 2 ^ (f.fb - 1)

/-- Rounding an integer times 2^-sh to an integer: the increment, for a quotient with the parity given, a remainder and its half (spec 08 R141). -/
def roundUp (rm : RM) (neg odd : Bool) (rem half : Nat) : Bool :=
  match rm with
  | .rne => decide (half < rem) || (decide (rem = half) && odd)
  | .rz => false
  | .ru => decide (rem ≠ 0) && !neg
  | .rd => decide (rem ≠ 0) && neg

/-- An integer divided by 2^sh and rounded: the quotient, and whether it differs. -/
def roundShift (rm : RM) (neg : Bool) (m sh : Nat) : Nat × Bool :=
  let q := m / 2 ^ sh
  let r := m % 2 ^ sh
  (q + (roundUp rm neg (decide (q % 2 = 1)) (2 * r) (2 ^ sh)).toNat, decide (r ≠ 0))

/-- The number of bits of a positive integer. -/
def bitLen (m : Nat) : Nat := if m = 0 then 0 else Nat.log2 m + 1

/-- Rounding of (-1)^neg × m × 2^e, m positive, into a format, with the flags of overflow, underflow and inexact; tininess is detected after rounding
(spec 08 R141). -/
def Fmt.round (f : Fmt) (rm : RM) (neg : Bool) (m : Nat) (e : Int) : FRes :=
  let len : Int := bitLen m
  let q0 := e + len - (f.fb + 1 : Nat)
  let q := max q0 f.qmin
  let sh := (q - e).toNat
  let (n, inex) := if q ≤ e then (m * 2 ^ (e - q).toNat, false) else roundShift rm neg m sh
  let enc := (q - f.qmin).toNat * 2 ^ f.fb + n
  if f.infBits ≤ enc then
    let big := match rm with
      | .rne => true
      | .rz => false
      | .ru => !neg
      | .rd => neg
    ⟨f.sign neg + (if big then f.infBits else f.infBits - 1), flOverflow + flInexact⟩
  else
    let n0 := if q0 ≤ e then m * 2 ^ (e - q0).toNat else (roundShift rm neg m (q0 - e).toNat).1
    let tiny := decide (q0 < f.qmin) && !(decide (q0 + 1 = f.qmin) && decide (n0 = 2 ^ (f.fb + 1)))
    ⟨f.sign neg + enc, (if inex then flInexact else 0) + (if tiny && inex then flUnderflow else 0)⟩

/-- A finite value rounded; zero keeps its sign. -/
def Fmt.roundFin (f : Fmt) (rm : RM) (neg : Bool) (m : Nat) (e : Int) : FRes :=
  if m = 0 then ⟨f.sign neg, 0⟩ else f.round rm neg m e

/-- The first NaN among sources, quieted; a signalling one raises invalid (spec 09 R157). -/
def Fmt.nanOf (f : Fmt) (vs : List Nat) : Option FRes :=
  match vs.find? f.isNan with
  | none => none
  | some v => some ⟨f.quiet v, if vs.any f.isSig then flInvalid else 0⟩

/-- An invalid operation (spec 09 R157). -/
def Fmt.invalid (f : Fmt) : FRes := ⟨f.qnan, flInvalid⟩

/-- The exact sum of two finite values, rounded once; an exact zero is signed as R141 states. -/
def Fmt.sumFin (f : Fmt) (rm : RM) (n1 : Bool) (m1 : Nat) (e1 : Int) (n2 : Bool) (m2 : Nat) (e2 : Int) : FRes :=
  let e := min e1 e2
  let a : Int := (if n1 then -1 else 1) * (m1 * 2 ^ (e1 - e).toNat : Nat)
  let b : Int := (if n2 then -1 else 1) * (m2 * 2 ^ (e2 - e).toNat : Nat)
  let s := a + b
  if s = 0 then ⟨f.sign (if n1 = n2 then n1 else decide (rm = .rd)), 0⟩ else f.round rm (decide (s < 0)) s.natAbs e

/-- Addition (spec 09 R160). -/
def Fmt.add (f : Fmt) (rm : RM) (a b : Nat) : FRes :=
  match f.nanOf [a, b] with
  | some r => r
  | none =>
    match f.decode a, f.decode b with
    | .inf n1, .inf n2 => if n1 = n2 then ⟨f.sign n1 + f.infBits, 0⟩ else f.invalid
    | .inf n1, _ => ⟨f.sign n1 + f.infBits, 0⟩
    | _, .inf n2 => ⟨f.sign n2 + f.infBits, 0⟩
    | .fin n1 m1 e1, .fin n2 m2 e2 => f.sumFin rm n1 m1 e1 n2 m2 e2
    | _, _ => f.invalid

/-- A pattern with its sign inverted. -/
def Fmt.neg (f : Fmt) (a : Nat) : Nat := if fld a (f.eb + f.fb) 1 = 1 then a - 2 ^ (f.eb + f.fb) else a + 2 ^ (f.eb + f.fb)

/-- Subtraction: NaNs are taken from the sources as they stand (spec 09 R157, R160). -/
def Fmt.sub (f : Fmt) (rm : RM) (a b : Nat) : FRes :=
  match f.nanOf [a, b] with
  | some r => r
  | none => f.add rm a (f.neg b)

/-- Multiplication (spec 09 R160). -/
def Fmt.mul (f : Fmt) (rm : RM) (a b : Nat) : FRes :=
  match f.nanOf [a, b] with
  | some r => r
  | none =>
    match f.decode a, f.decode b with
    | .inf n1, .inf n2 => ⟨f.sign (n1 != n2) + f.infBits, 0⟩
    | .inf n1, .fin n2 m _ => if m = 0 then f.invalid else ⟨f.sign (n1 != n2) + f.infBits, 0⟩
    | .fin n1 m _, .inf n2 => if m = 0 then f.invalid else ⟨f.sign (n1 != n2) + f.infBits, 0⟩
    | .fin n1 m1 e1, .fin n2 m2 e2 => f.roundFin rm (n1 != n2) (m1 * m2) (e1 + e2)
    | _, _ => f.invalid

/-- The product of two values is 0 × ∞ (spec 09 R157). -/
def zeroTimesInf (x y : FVal) : Bool :=
  match x, y with
  | .inf _, .fin _ 0 _ => true
  | .fin _ 0 _, .inf _ => true
  | _, _ => false

/-- Fused multiply-add (spec 09 R157, R160): a NaN among a and b comes first; 0 × ∞ is invalid even beside a quiet NaN in c. -/
def Fmt.fma (f : Fmt) (rm : RM) (a b c : Nat) : FRes :=
  if zeroTimesInf (f.decode a) (f.decode b) then f.invalid
  else
    match f.nanOf [a, b, c] with
    | some r => r
    | none =>
      match f.decode a, f.decode b, f.decode c with
      | .fin n1 m1 e1, .fin n2 m2 e2, .fin n3 m3 e3 => f.sumFin rm (n1 != n2) (m1 * m2) (e1 + e2) n3 m3 e3
      | .fin _ _ _, .fin _ _ _, .inf n3 => ⟨f.sign n3 + f.infBits, 0⟩
      | x, y, z =>
        let np := (match x with | .inf n => n | .fin n _ _ => n | .nan _ => false) != (match y with | .inf n => n | .fin n _ _ => n | .nan _ => false)
        match z with
        | .inf n3 => if np = n3 then ⟨f.sign np + f.infBits, 0⟩ else f.invalid
        | _ => ⟨f.sign np + f.infBits, 0⟩

/-- Division, correctly rounded (spec 09 R165): the quotient to more bits than the format holds, its last bit sticky. -/
def Fmt.div (f : Fmt) (rm : RM) (a b : Nat) : FRes :=
  match f.nanOf [a, b] with
  | some r => r
  | none =>
    match f.decode a, f.decode b with
    | .inf _, .inf _ => f.invalid
    | .inf n1, .fin n2 _ _ => ⟨f.sign (n1 != n2) + f.infBits, 0⟩
    | .fin n1 _ _, .inf n2 => ⟨f.sign (n1 != n2), 0⟩
    | .fin n1 m1 e1, .fin n2 m2 e2 =>
      if m2 = 0 then (if m1 = 0 then f.invalid else ⟨f.sign (n1 != n2) + f.infBits, flDivZero⟩)
      else if m1 = 0 then ⟨f.sign (n1 != n2), 0⟩
      else
        let k := bitLen m2 + f.fb + 4
        let q := m1 * 2 ^ k / m2
        f.round rm (n1 != n2) (2 * q + (if m1 * 2 ^ k % m2 = 0 then 0 else 1)) (e1 - e2 - k - 1)
    | _, _ => f.invalid

/-- The integer square root, bit by bit: from 2^k downward, above a root already found. -/
def isqrtFrom (n : Nat) : Nat → Nat → Nat
  | 0, r => if (r + 1) * (r + 1) ≤ n then r + 1 else r
  | k + 1, r => isqrtFrom n k (if (r + 2 ^ (k + 1)) * (r + 2 ^ (k + 1)) ≤ n then r + 2 ^ (k + 1) else r)

/-- The integer square root. -/
def isqrt (n : Nat) : Nat := isqrtFrom n (bitLen n / 2 + 1) 0

/-- Square root, correctly rounded (spec 09 R165, R157). -/
def Fmt.sqrt (f : Fmt) (rm : RM) (a : Nat) : FRes :=
  match f.nanOf [a] with
  | some r => r
  | none =>
    match f.decode a with
    | .inf n => if n then f.invalid else ⟨f.infBits, 0⟩
    | .fin n m e =>
      if m = 0 then ⟨a, 0⟩
      else if n then f.invalid
      else
        let odd := e % 2
        let m' := m * 2 ^ (odd.toNat + 2 * (f.fb + 4))
        let r := isqrt m'
        f.round rm false (2 * r + (if r * r = m' then 0 else 1)) ((e - odd) / 2 - (f.fb + 4 : Nat) - 1)
    | .nan _ => f.invalid

/-- The order of two numbers by their patterns: zeros are equal. -/
def Fmt.key (f : Fmt) (a : Nat) : Int :=
  let mag : Nat := fld a 0 (f.eb + f.fb)
  if fld a (f.eb + f.fb) 1 = 1 then -(mag : Int) else mag

/-- The pattern has its sign bit set. -/
def Fmt.negBit (f : Fmt) (a : Nat) : Bool := decide (fld a (f.eb + f.fb) 1 = 1)

/-- The smaller of two numbers, -0 below +0 (spec 09 R161). -/
def Fmt.lesser (f : Fmt) (a b : Nat) : Nat :=
  if f.key a < f.key b then a else if f.key b < f.key a then b else if f.negBit a then a else b

/-- The larger of two numbers (spec 09 R161). -/
def Fmt.greater (f : Fmt) (a b : Nat) : Nat :=
  if f.key a < f.key b then b else if f.key b < f.key a then a else if f.negBit a then b else a

/-- FMIN, FMAX, DMIN and DMAX (spec 09 R161). -/
def Fmt.minMax (f : Fmt) (mx : Bool) (a b : Nat) : FRes :=
  let fl := if f.isSig a || f.isSig b then flInvalid else 0
  match f.isNan a, f.isNan b with
  | true, true => ⟨f.qnan, fl⟩
  | true, false => ⟨b, fl⟩
  | false, true => ⟨a, fl⟩
  | false, false => ⟨if mx then f.greater a b else f.lesser a b, fl⟩

/-- FSET and DSET (spec 09 R163): the condition and the flags. -/
def Fmt.compare (f : Fmt) (cc : FCond) (a b : Nat) : Bool × Nat :=
  let nan := f.isNan a || f.isNan b
  let sig := f.isSig a || f.isSig b
  let ka := f.key a
  let kb := f.key b
  match cc with
  | .eq => (!nan && decide (ka = kb), if sig then flInvalid else 0)
  | .ne => (nan || decide (ka ≠ kb), if sig then flInvalid else 0)
  | .lt => (!nan && decide (ka < kb), if nan then flInvalid else 0)
  | .le => (!nan && decide (ka ≤ kb), if nan then flInvalid else 0)
  | .gt => (!nan && decide (kb < ka), if nan then flInvalid else 0)
  | .ge => (!nan && decide (kb ≤ ka), if nan then flInvalid else 0)
  | .num => (!nan, if sig then flInvalid else 0)
  | .nan => (nan, if sig then flInvalid else 0)

/-- A finite value rounded to an integer: its magnitude, and whether it differs (spec 09 R164, R168). -/
def roundMag (rm : RM) (neg : Bool) (m : Nat) (e : Int) : Nat × Bool :=
  if 0 ≤ e then (m * 2 ^ e.toNat, false) else roundShift rm neg m (-e).toNat

/-- FRND (spec 09 R164). -/
def Fmt.integral (f : Fmt) (rm : RM) (a : Nat) : FRes :=
  match f.nanOf [a] with
  | some r => r
  | none =>
    match f.decode a with
    | .fin n m e => ⟨(f.roundFin rm n (roundMag rm n m e).1 0).val, 0⟩
    | _ => ⟨a, 0⟩

/-- CVTFI (spec 09 R168): an integer of `bits` bits, as a pattern. -/
def Fmt.toInt (f : Fmt) (rm : RM) (nbits : Nat) (uns : Bool) (a : Nat) : FRes :=
  let hi : Nat := if uns then 2 ^ nbits - 1 else 2 ^ (nbits - 1) - 1
  let lo : Nat := if uns then 0 else 2 ^ (nbits - 1)
  match f.decode a with
  | .nan _ => ⟨0, flInvalid⟩
  | .inf n => ⟨if n then lo else hi, flInvalid⟩
  | .fin n m e =>
    let (k, inex) := roundMag rm n m e
    if n then
      if lo < k then ⟨lo, flInvalid⟩ else ⟨(2 ^ nbits - k) % 2 ^ nbits, if inex then flInexact else 0⟩
    else if hi < k then ⟨hi, flInvalid⟩ else ⟨k, if inex then flInexact else 0⟩

/-- CVTIF (spec 09 R168): an integer pattern of `nbits` bits, rounded. -/
def Fmt.ofInt (f : Fmt) (rm : RM) (nbits : Nat) (uns : Bool) (v : Nat) : FRes :=
  if !uns && decide (2 ^ (nbits - 1) ≤ v) then f.roundFin rm true (2 ^ nbits - v) 0 else f.roundFin rm false v 0

/-- A conversion between formats (spec 09 R157, R169, R170): a NaN keeps its sign and the top bits of its payload, quieted. -/
def Fmt.convert (f t : Fmt) (rm : RM) (a : Nat) : FRes :=
  match f.decode a with
  | .nan frac =>
    let fr := if f.fb ≤ t.fb then frac * 2 ^ (t.fb - f.fb) else frac / 2 ^ (f.fb - t.fb)
    ⟨t.quiet (t.sign (f.negBit a) + t.infBits + fr), if f.isSig a then flInvalid else 0⟩
  | .inf n => ⟨t.sign n + t.infBits, 0⟩
  | .fin n m e => t.roundFin rm n m e

/-- The class bit of FCLASS (spec 09 R174). -/
def Fmt.classBit (f : Fmt) (a : Nat) : Nat :=
  let n := f.negBit a
  match f.decode a with
  | .nan _ => if f.isSig a then 8 else 9
  | .inf _ => if n then 0 else 7
  | .fin _ m _ =>
    if m = 0 then (if n then 3 else 4)
    else if fld a f.fb f.eb = 0 then (if n then 2 else 5)
    else if n then 1 else 6

/-- SCALEX (spec 09 R173). -/
def scalex (rm : RM) (a b : Nat) : FRes :=
  let s0 := fld b 0 8
  let s1 := fld b 8 8
  if s0 = 255 ∨ s1 = 255 then fp32.invalid
  else
    match fp32.nanOf [a] with
    | some r => r
    | none =>
      match fp32.decode a with
      | .fin n m e => fp32.roundFin rm n m (e + s0 + s1 - 254)
      | _ => ⟨a, 0⟩

/-! ## The binary8 family -/

/-- A binary8 form (spec 08 R142, R143). -/
structure Form8 where
  p : Nat
  uns : Bool
  inf : Bool
  deriving DecidableEq, Repr, Inhabited

/-- The bias of a form. -/
def Form8.bias (f : Form8) : Nat := 2 ^ ((if f.uns then 9 - f.p else 8 - f.p) - 1)

/-- The NaN code. -/
def Form8.nan (f : Form8) : Nat := if f.uns then 0xFF else 0x80

/-- The largest finite magnitude code. -/
def Form8.nmax (f : Form8) : Nat :=
  match f.uns, f.inf with
  | false, true => 0x7E
  | false, false => 0x7F
  | true, true => 0xFD
  | true, false => 0xFE

/-- The exponent of the least unit. -/
def Form8.qmin (f : Form8) : Int := 1 - (f.bias : Int) - ((f.p - 1 : Nat) : Int)

/-- The value of a magnitude code (spec 08 R142). -/
def Form8.mag (f : Form8) (n : Nat) : Nat × Int :=
  let e := n / 2 ^ (f.p - 1)
  let t := n % 2 ^ (f.p - 1)
  if e = 0 then (t, f.qmin) else (2 ^ (f.p - 1) + t, f.qmin + (e - 1 : Nat))

/-- The value of a code (spec 08 R142, R143). -/
def Form8.decode (f : Form8) (c : Nat) : FVal :=
  let neg := !f.uns && decide (128 ≤ c)
  let n := if f.uns then c else c % 128
  if c = f.nan then .nan 1
  else if f.inf && decide (n = f.nmax + 1) then .inf neg
  else .fin neg (f.mag n).1 (f.mag n).2

/-- An exact value as an FP32 pattern (spec 08 R144). -/
def fp32Of (x : FVal) : Nat :=
  match x with
  | .nan _ => fp32.qnan
  | .inf n => fp32.sign n + fp32.infBits
  | .fin n m e => (fp32.roundFin .rne n m e).val

/-- The grid point nearest to a magnitude, a tie to the even code, without upper limit; and whether it differs (spec 08 R146). -/
def Form8.nearest (f : Form8) (m : Nat) (e : Int) : Nat × Bool :=
  if m = 0 then (0, false)
  else
    let q := max (e + bitLen m - (f.p : Int)) f.qmin
    let base := (q - f.qmin).toNat * 2 ^ (f.p - 1)
    if q ≤ e then (base + m * 2 ^ (e - q).toNat, false)
    else
      let sh := (q - e).toNat
      let n := m / 2 ^ sh
      let r := m % 2 ^ sh
      (base + n + (roundUp .rne false (decide ((base + n) % 2 = 1)) (2 * r) (2 ^ sh)).toNat, decide (r ≠ 0))

/-- A magnitude code with a sign. -/
def Form8.code (f : Form8) (neg : Bool) (n : Nat) : Nat := if neg && !f.uns then 128 + n else n

/-- round8 with the conditions it raises (spec 08 R146, R147); a negative value clamped to zero in an unsigned form raises no underflow
(log 22), an infinity that becomes a NaN no inexact (log 114). -/
def Form8.round (f : Form8) (sat : Bool) (x : FVal) : FRes :=
  match x with
  | .nan _ => ⟨f.nan, 0⟩
  | .inf neg =>
    if f.inf && (!f.uns || !neg) then ⟨f.code neg (f.nmax + 1), 0⟩
    else if sat then ⟨if !neg then f.nmax else if f.uns then 0 else f.code true f.nmax, flInexact⟩
    else ⟨f.nan, flInvalid⟩
  | .fin neg m e =>
    let (n, diff) := f.nearest m e
    if decide (f.nmax < n) && !(f.uns && neg) then
      if sat then ⟨f.code neg f.nmax, flOverflow + flInexact⟩
      else if f.inf then ⟨f.code neg (f.nmax + 1), flOverflow + flInexact⟩
      else ⟨f.nan, flOverflow + flInexact + flInvalid⟩
    else if n = 0 then ⟨0, if m = 0 then 0 else flUnderflow + flInexact⟩
    else if f.uns && neg then (if sat then ⟨0, flInexact⟩ else ⟨f.nan, flInvalid⟩)
    else ⟨f.code neg n, (if diff then flInexact else 0) + (if diff && decide (n < 2 ^ (f.p - 1)) then flUnderflow else 0)⟩

/-- One step of NARROW8's chain (spec 08 R148): the code, its conditions and the residual. -/
def narrowStep (f : Form8) (sat : Bool) (x r : Nat) : FRes × Nat :=
  let y := (fp32.add .rne x r).val
  let q := f.round sat (fp32.decode y)
  match fp32.decode y, f.decode q.val with
  | .fin _ _ _, .fin n m e => (q, (fp32.sub .rne y (fp32Of (.fin n m e))).val)
  | _, _ => (q, 0)

/-- NARROW8 (spec 08 R148): the bytes as a word, the conditions and the residual. -/
def narrow8 (f : Form8) (sat : Bool) (xs : List Nat) (r : Nat) : FRes × Nat :=
  (xs.zipIdx).foldl (fun acc x =>
    let s := narrowStep f sat x.1 acc.2
    (⟨acc.1.val + s.1.val * 256 ^ x.2, acc.1.flags ||| s.1.flags⟩, s.2)) (⟨0, 0⟩, r)

end Sys2Proof.Machine
end

