-- ==== Sys2Proof/Machine/CollModel.lean ====
section
/-! DEFINITION. Collections as the hardware orders and stores them: keys, headers, segments, inserts, removals, cursors (spec 13 R248 to R264). -/

namespace Sys2Proof.Machine

/-- An element: key and payload (spec 13 R250). -/
abbrev Elem := Nat × Nat

/-- The total order (spec 13 R250). -/
def elemLe (a b : Elem) : Bool := decide (a.1 < b.1) || (decide (a.1 = b.1) && decide (a.2 ≤ b.2))

/-! ## The header -/

/-- The collection header (spec 13 R251). -/
structure Header where
  version : Nat
  layout : Nat
  ox : Nat
  oy : Nat
  oz : Nat
  cexp : Nat
  cap : Nat
  cells : Nat
  count : Nat
  occ : Nat
  rejected : Nat
  evicted : Nat
  gen : Nat
  dir : Nat
  pool : Nat
  nsegs : Nat
  dcap : Nat
  used : Nat
  free : Nat
  state : Nat
  dused : Nat
  rest : Nat
  deriving DecidableEq, Repr, Inhabited

/-- A little-endian field of a byte list. -/
def fieldAt (bs : List Byte) (off n : Nat) : Nat := leNat ((bs.drop off).take n)

/-- A header from its 256 bytes (spec 13 R251). -/
def parseHeader (bs : List Byte) : Header :=
  let f := fieldAt bs
  ⟨f 0 4, f 4 4, f 8 4, f 0xC 4, f 0x10 4, f 0x14 4, f 0x18 4, f 0x1C 4, f 0x20 8, f 0x28 8, f 0x30 8, f 0x38 8, f 0x40 8, f 0x48 8, f 0x50 8, f 0x58 4,
    f 0x5C 4, f 0x60 4, f 0x64 4, f 0x68 4, f 0x6C 4, f 0x70 0x90⟩

/-- The hardware's fields at 0x20 to 0x47. -/
def Header.counts (h : Header) : List Byte := leBytes 8 h.count ++ leBytes 8 h.occ ++ leBytes 8 h.rejected ++ leBytes 8 h.evicted ++ leBytes 8 h.gen

/-- The hardware's fields at 0x60 to 0x6F. -/
def Header.states (h : Header) : List Byte := leBytes 4 h.used ++ leBytes 4 h.free ++ leBytes 4 h.state ++ leBytes 4 h.dused

/-- The key kind is plain (spec 13 R248). -/
def Header.plain (h : Header) : Bool := decide (fld h.layout 0 4 = 1)

/-- Offset bits. -/
def Header.q (h : Header) : Nat := fld h.layout 8 4

/-- User bits. -/
def Header.u (h : Header) : Nat := fld h.layout 12 6

/-- The drop rule is EVICTHI (spec 13 R252). -/
def Header.evicts (h : Header) : Bool := decide (fld h.layout 4 2 = 1)

/-- Payload bytes (spec 13 R250). -/
def Header.bp (h : Header) : Nat := (3 * h.q + h.u + 7) / 8

/-- The collection is initialised (spec 13 R251). -/
def Header.initialised (h : Header) : Bool := decide (fld h.state 0 1 = 1)

/-- The collection is frozen. -/
def Header.frozen (h : Header) : Bool := decide (fld h.state 1 1 = 1)

/-- The serving engine. -/
def Header.engine (h : Header) : Nat := fld h.state 4 4

/-- The cell exponent (spec 13 R251). -/
def Header.exp (h : Header) : Int := (BitVec.ofNat 8 h.cexp).toInt

/-- A finite pattern; zero in a plain collection. -/
def originOk (plain : Bool) (v : Nat) : Bool :=
  match fp32.decode v with
  | .fin _ m _ => !plain || decide (m = 0)
  | _ => false

/-- Two ranges of addresses share a byte. -/
def spansMeet (a n b k : Nat) : Bool := decide (a < b + k) && decide (b < a + n)

/-- The software's fields keep R251 and R252, and the three ranges do not overlap (spec 13 R253). -/
def Header.ok (h : Header) (at_ : Nat) : Bool :=
  decide (h.version = 1) && decide (fld h.layout 0 4 ≤ 1) && decide (fld h.layout 4 2 ≤ 1) && decide (fld h.layout 6 2 = 0) && decide (h.q ≤ 10) &&
    decide (h.u ≤ 32) && decide (fld h.layout 18 14 = 0) && (!h.plain || decide (h.q = 0)) && originOk h.plain h.ox && originOk h.plain h.oy &&
    originOk h.plain h.oz && decide (h.cexp < 256) && decide (-64 ≤ h.exp) && decide (h.exp ≤ 63) && (!h.plain || decide (h.cexp = 0)) && decide (1 ≤ h.cap) &&
    decide (1 ≤ h.cells) && decide (h.cells ≤ h.cap) && decide (h.dir % 64 = 0) && decide (h.pool % 4096 = 0) && decide (2 ≤ h.nsegs) &&
    decide (h.nsegs ≤ 0x01000000) && decide (h.nsegs ≤ h.dcap) && decide (h.rest = 0) && !(spansMeet at_ 256 h.dir (16 * h.dcap)) &&
    !(spansMeet at_ 256 h.pool (4096 * h.nsegs)) && !(spansMeet h.dir (16 * h.dcap) h.pool (4096 * h.nsegs))

/-! ## Keys -/

/-- A 21-bit coordinate spread to every third bit (spec 07 R127). -/
def spread3 (c : Nat) : Nat := (List.range 21).foldl (fun acc i => acc + fld c i 1 * 2 ^ (3 * i)) 0

/-- The coordinate at axis `a` of a key. -/
def unspread3 (key a : Nat) : Nat := (List.range 21).foldl (fun acc i => acc + fld key (3 * i + a) 1 * 2 ^ i) 0

/-- The key of a cell (spec 13 R249). -/
def cellKey (x y z : Nat) : Nat := spread3 x + 2 * spread3 y + 4 * spread3 z

/-- A scaled coordinate: its cell and its offset, none for RANGE (spec 13 R249). -/
def axisCell (e : Int) (q p origin : Nat) : Option (Nat × Nat) :=
  let two := (fp32.round .rne false 1 (-e)).val
  let s := (fp32.mul .rne (fp32.sub .rne p origin).val two).val
  match fp32.decode s with
  | .fin neg m k =>
    if neg && decide (m ≠ 0) then none
    else
      let fl := fun (j : Nat) => if 0 ≤ k + j then m * 2 ^ (k + j).toNat else m / 2 ^ (-(k + j)).toNat
      if 2 ^ 21 ≤ fl 0 then none else some (fl 0, fl q - fl 0 * 2 ^ q)
  | _ => none

/-- The element of a CINS quad, none for RANGE (spec 13 R249, 14 R274). -/
def newElem (h : Header) (a : BitVec 128) : Option Elem :=
  let w := fun k => fld a.toNat (32 * k) 32
  if h.plain then
    let key := fld a.toNat 0 64
    if 2 ^ 63 ≤ key then none else some (key, w 2 % 2 ^ h.u)
  else
    match axisCell h.exp h.q (w 0) h.ox, axisCell h.exp h.q (w 1) h.oy, axisCell h.exp h.q (w 2) h.oz with
    | some x, some y, some z =>
      some (cellKey x.1 y.1 z.1, w 3 % 2 ^ h.u * 2 ^ (3 * h.q) + z.2 * 2 ^ (2 * h.q) + y.2 * 2 ^ h.q + x.2)
    | _, _, _ => none

/-- An element in eviction form (spec 14 R274): one quad. -/
def evictForm (x : Elem) : Nat := x.1 + 2 ^ 64 * x.2

/-! ## Segments -/

/-- A segment in use: pool index and entries (spec 13 R254, R255). -/
structure Seg where
  idx : Nat
  ents : List Elem
  deriving DecidableEq, Repr, Inhabited

/-- No segment (spec 13 R251, R255). -/
def noSeg : Nat := 0xFFFFFFFF

/-- A gap as a varint (spec 13 R255). -/
def varint : Nat → Nat → List Byte
  | 0, v => [BitVec.ofNat 8 v]
  | n + 1, v => if v < 128 then [BitVec.ofNat 8 v] else BitVec.ofNat 8 (128 + v % 128) :: varint n (v / 128)

/-- The bytes of entries after a key (spec 13 R255). -/
def encEnts (bp : Nat) : Nat → List Elem → List Byte
  | _, [] => []
  | k, e :: es => varint 9 (e.1 - k) ++ leBytes bp e.2 ++ encEnts bp e.1 es

/-- The key of the first entry. -/
def firstKey (es : List Elem) : Nat := (es.headD (0, 0)).1

/-- The bytes of a segment's entries. -/
def segBytes (bp : Nat) (es : List Elem) : List Byte := encEnts bp (firstKey es) es

/-- Bytes used by entries (spec 13 R255). -/
def segUsed (bp : Nat) (es : List Elem) : Nat := (segBytes bp es).length

/-- A varint read: its value and the bytes after it. -/
def readVarint : List Byte → Nat × List Byte
  | [] => (0, [])
  | b :: bs => if b.toNat < 128 then (b.toNat, bs) else
      let r := readVarint bs
      (b.toNat - 128 + 128 * r.1, r.2)

/-- Entries read (spec 13 R255). -/
def decEnts (bp : Nat) : Nat → Nat → List Byte → List Elem
  | 0, _, _ => []
  | n + 1, k, bs =>
    let r := readVarint bs
    (k + r.1, leNat (r.2.take bp)) :: decEnts bp n (k + r.1) (r.2.drop bp)

/-- A collection as its engine works on it: header, segments in use in total order, the known front of the free list, the links written, entries moved
between segments. -/
structure Coll where
  h : Header
  segs : List Seg
  free : List Nat
  links : List (Nat × Nat)
  deriving DecidableEq, Repr, Inhabited

/-- The elements in total order. -/
def Coll.elems (c : Coll) : List Elem := c.segs.flatMap (·.ents)

/-- The segment at the head of the free list is taken (spec 13 R256). -/
def Coll.pop (c : Coll) : Option (Nat × Coll) :=
  match c.free with
  | [] => none
  | k :: ks => if k = noSeg then none else some (k, { c with free := ks })

/-- A segment returns to the head of the free list (spec 13 R256). -/
def Coll.push (k : Nat) (c : Coll) : Coll := { c with free := k :: c.free, links := c.links ++ [(k, c.free.headD noSeg)] }

/-- The place of the segment an element goes to (spec 13 R256). -/
def Coll.place (c : Coll) (x : Elem) : Nat := (c.segs.filter fun s => elemLe (s.ents.headD (0, 0)) x).length - 1

/-- An element placed among entries. -/
def putEnt (x : Elem) : List Elem → List Elem
  | [] => [x]
  | e :: es => if elemLe e x then e :: putEnt x es else x :: e :: es

/-- One copy of an element taken out. -/
def takeEnt (x : Elem) : List Elem → List Elem
  | [] => []
  | e :: es => if e = x then es else e :: takeEnt x es

/-- Entries of segment `i` replaced. -/
def Coll.setSeg (c : Coll) (i : Nat) (es : List Elem) : Coll := { c with segs := c.segs.modify i fun s => { s with ents := es } }

/-- The bytes used before the entry boundary `k`. -/
def cutBytes (bp : Nat) (es : List Elem) (k : Nat) : Nat := segUsed bp (es.take k)

/-- The distance of a boundary from half of the bytes used, doubled. -/
def cutDist (bp : Nat) (es : List Elem) (k : Nat) : Nat :=
  let a := 2 * cutBytes bp es k
  let u := segUsed bp es
  (a - u) + (u - a)

/-- The boundary of a split: nearest to half of the bytes used, the lower one on a tie (spec 13 R256). -/
def splitAt (bp : Nat) (es : List Elem) : Nat :=
  ((List.range (es.length - 1)).map (· + 1)).foldl (fun best k => if cutDist bp es k < cutDist bp es best then k else best) 1

/-- An element is put; none where a split finds the free list empty (spec 13 R256). -/
def Coll.put (c : Coll) (x : Elem) : Option Coll :=
  let bp := c.h.bp
  match c.segs with
  | [] => c.pop.map fun r => { r.2 with segs := [⟨r.1, [x]⟩] }
  | _ :: _ =>
    let i := c.place x
    let es := (c.segs.getD i default).ents
    if segUsed bp (putEnt x es) ≤ 4080 then some (c.setSeg i (putEnt x es))
    else
      match c.pop with
      | none => none
      | some (j, c1) =>
        let k := splitAt bp es
        let c2 := { c1 with segs := c1.segs.take i ++ [(⟨(c1.segs.getD i default).idx, es.take k⟩ : Seg), (⟨j, es.drop k⟩ : Seg)] ++ c1.segs.drop (i + 1) }
        let p := c2.place x
        some (c2.setSeg p (putEnt x (c2.segs.getD p default).ents))

/-- Entries moved from the front of a successor until the segment holds 1,020 bytes (spec 13 R256). -/
def moveFront (bp : Nat) (es : List Elem) : List Elem → List Elem × List Elem
  | [] => (es, [])
  | t :: ts => if 1020 ≤ segUsed bp es then (es, t :: ts) else moveFront bp (es ++ [t]) ts

/-- How many entries move from the end of a predecessor to the front of the last segment (spec 13 R256). -/
def moveBack (bp : Nat) (rs es : List Elem) : Nat :=
  ((List.range (rs.length + 1)).find? fun k => decide (1020 ≤ segUsed bp (rs.drop (rs.length - k) ++ es))).getD rs.length

/-- The bounds of segment `i` restored after a removal (spec 13 R256). -/
def Coll.mend (c : Coll) (i : Nat) : Coll :=
  let bp := c.h.bp
  let s := c.segs.getD i default
  if s.ents = [] then Coll.push s.idx { c with segs := c.segs.eraseIdx i }
  else if 1020 ≤ segUsed bp s.ents then c
  else
    match c.segs[i + 1]? with
    | some t =>
      if segUsed bp (s.ents ++ t.ents) ≤ 4080 then Coll.push t.idx { (c.setSeg i (s.ents ++ t.ents)) with segs := (c.setSeg i (s.ents ++ t.ents)).segs.eraseIdx (i + 1) }
      else
        let r := moveFront bp s.ents t.ents
        (c.setSeg i r.1).setSeg (i + 1) r.2
    | none =>
      if i = 0 then c
      else
        let p := c.segs.getD (i - 1) default
        if segUsed bp (p.ents ++ s.ents) ≤ 4080 then Coll.push s.idx { (c.setSeg (i - 1) (p.ents ++ s.ents)) with segs := (c.setSeg (i - 1) (p.ents ++ s.ents)).segs.eraseIdx i }
        else
          let k := moveBack bp p.ents s.ents
          let n := p.ents.length - k
          (c.setSeg (i - 1) (p.ents.take n)).setSeg i (p.ents.drop n ++ s.ents)

/-- The key is present. -/
def Coll.hasKey (c : Coll) (k : Nat) : Bool := c.segs.any fun s => s.ents.any fun e => decide (e.1 = k)

/-- The element is present. -/
def Coll.has (c : Coll) (x : Elem) : Bool := c.segs.any fun s => s.ents.contains x

/-- One copy of a present element is removed, from the segment it would be placed in (spec 13 R256, R258, log 32); the counts follow. -/
def Coll.remove (c : Coll) (x : Elem) : Coll :=
  let i := c.place x
  let c1 := (c.setSeg i (takeEnt x (c.segs.getD i default).ents)).mend i
  { c1 with h := { c1.h with count := c1.h.count - 1, occ := if c1.hasKey x.1 then c1.h.occ else c1.h.occ - 1 } }

/-- The largest element. -/
def Coll.largest (c : Coll) : Option Elem := (c.segs.getLast?).bind fun s => s.ents.getLast?

/-- Eviction until both capacities hold (spec 13 R261): the collection, the first element removed, the number removed. -/
def Coll.evict : Nat → Coll → Option Elem → Nat → Coll × Option Elem × Nat
  | 0, c, f, n => (c, f, n)
  | k + 1, c, f, n =>
    if c.h.count ≤ c.h.cap ∧ c.h.occ ≤ c.h.cells then (c, f, n)
    else
      match c.largest with
      | none => (c, f, n)
      | some y =>
        let c1 := c.remove y
        Coll.evict k { c1 with h := { c1.h with evicted := (c1.h.evicted + 1) % 2 ^ 64 } } (f <|> some y) (n + 1)

/-- A status of R267. -/
inductive CStat where
  | ok | inserted | dropped | range | pool | removed | notfound | moved | nocursor | full | unchanged
  deriving DecidableEq, Repr, Inhabited

/-- The code of a status (spec 14 R267). -/
def CStat.code : CStat → Nat
  | .ok => 0
  | .inserted => 1
  | .dropped => 2
  | .range => 3
  | .pool => 4
  | .removed => 5
  | .notfound => 6
  | .moved => 7
  | .nocursor => 8
  | .full => 9
  | .unchanged => 10

/-- The status word (spec 14 R267). -/
def statusWord (s : CStat) (evicted : Nat) : Nat := s.code + 256 * min evicted 0xFFFFFF

/-- What an insert or a move comes to. -/
structure InsRes where
  c : Coll
  st : CStat
  first : Option Elem
  num : Nat
  deriving DecidableEq, Repr, Inhabited

/-- A new element that is not kept (spec 13 R256, R261). -/
def Coll.reject (c : Coll) (s : CStat) : InsRes := ⟨{ c with h := { c.h with rejected := (c.h.rejected + 1) % 2 ^ 64 } }, s, none, 0⟩

/-- The counts after an element has been put. -/
def Coll.counted (c : Coll) (fresh : Bool) : Coll := { c with h := { c.h with count := c.h.count + 1, occ := c.h.occ + fresh.toNat } }

/-- An insert (spec 13 R261, R262). -/
def Coll.insert (c : Coll) (evicts : Bool) (x : Elem) : InsRes :=
  let fresh := !(c.hasKey x.1)
  if c.h.count + 1 ≤ c.h.cap ∧ (fresh = false ∨ c.h.occ + 1 ≤ c.h.cells) then
    match c.put x with
    | none => c.reject .pool
    | some c1 => ⟨c1.counted fresh, .inserted, none, 0⟩
  else if evicts = false ∨ (match c.largest with | some y => elemLe y x | none => true) = true then c.reject .dropped
  else
    match c.put x with
    | none => c.reject .pool
    | some c1 =>
      let r := Coll.evict (c1.h.count + 2) (c1.counted fresh) none 0
      ⟨r.1, .inserted, r.2.1, r.2.2⟩

/-- A removal (spec 13 R258). -/
def Coll.delete (c : Coll) (x : Elem) : Coll × CStat := if x.1 < 2 ^ 63 ∧ c.has x then (c.remove x, .removed) else (c, .notfound)

/-- A move: nothing changes unless it takes effect (spec 13 R259). -/
def Coll.move (c : Coll) (evicts : Bool) (x : Elem) (y : Option Elem) : InsRes :=
  if x.1 < 2 ^ 63 ∧ c.has x then
    match y with
    | none => ⟨c, .range, none, 0⟩
    | some y =>
      let r := (c.remove x).insert evicts y
      if r.st = .inserted then { r with st := .moved } else ⟨c, r.st, none, 0⟩
  else ⟨c, .notfound, none, 0⟩

/-- A cursor's step: the element returned and the new position (spec 13 R260). -/
def cursorStep (es : List Elem) (hi : Nat) (k p j : Nat) : Option (Elem × Nat × Nat × Nat) :=
  let c := es.filter fun e => decide (e.1 ≤ hi) && elemLe (k, p) e
  if j < (c.filter fun e => decide (e = (k, p))).length then some ((k, p), k, p, j + 1)
  else
    match c.filter fun e => decide (e ≠ (k, p)) with
    | [] => none
    | x :: _ => some (x, x.1, x.2, 1)

/-! ## Rule books -/

/-- The cell of a key moved by a stencil entry, none where it leaves the range (spec 13 R264). -/
def moveCell (key : Nat) (s : Word) : Option Nat :=
  let c := fun a => (unspread3 key a : Int) + (s.extractLsb' (8 * a) 8).toInt
  if (List.range 3).all fun a => decide (0 ≤ c a) && decide (c a < 2 ^ 21) then some (cellKey (c 0).toNat (c 1).toNat (c 2).toNat) else none

/-- The triples of a rule book in their order (spec 13 R264). -/
def ruleBook (ins outs : List Elem) (stencil : List Word) : List (Nat × Nat × Nat) :=
  stencil.zipIdx.flatMap fun s =>
    outs.zipIdx.flatMap fun o =>
      match moveCell o.1.1 s.1 with
      | none => []
      | some k => (ins.zipIdx.filter fun i => decide (i.1.1 = k)).map fun i => (i.2, o.2, s.2)

/-! ## Merges -/

/-- The position of the first index that does not rise (spec 14 R283). -/
def notRising : Nat → List Nat → Option Nat
  | _, [] => none
  | _, [_] => none
  | n, a :: b :: rest => if a < b then notRising (n + 1) (b :: rest) else some (n + 1)

/-- The sum of two values (spec 14 R284). -/
def mergeSum (i32 : Bool) (a b : Nat) : Nat := if i32 then (a + b) % 2 ^ 32 else (fp32.add .rne a b).val

/-- A sum that is dropped without KEEPZ: +0, −0, or integer 0 (spec 14 R284). -/
def mergeZero (i32 : Bool) (v : Nat) : Bool := if i32 then decide (v = 0) else decide (v % 2 ^ 31 = 0)

/-- The merge of two runs of index and value (spec 14 R284), with fuel for both lengths. -/
def mergeRuns (i32 keepz : Bool) : Nat → List (Nat × Nat) → List (Nat × Nat) → List (Nat × Nat)
  | 0, as, bs => as ++ bs
  | _ + 1, [], bs => bs
  | _ + 1, a :: as, [] => a :: as
  | n + 1, a :: as, b :: bs =>
    if a.1 < b.1 then a :: mergeRuns i32 keepz n as (b :: bs)
    else if b.1 < a.1 then b :: mergeRuns i32 keepz n (a :: as) bs
    else
      let v := mergeSum i32 a.2 b.2
      if mergeZero i32 v && !keepz then mergeRuns i32 keepz n as bs else (a.1, v) :: mergeRuns i32 keepz n as bs

end Sys2Proof.Machine
end

