-- ==== Sys2Proof/Machine/Operands.lean ====
section
/-! DEFINITION. The operand forms: which registers and predicates each instruction names, reads and writes (spec 05 R73, R77, R78 and each entry), its
guard and stall field, its class and charges (R89 to R94). -/

namespace Sys2Proof.Machine

/-- The register fields of a word; `c` stands in the literal (spec 05 R78, R84, R85); `imp` names registers that no field of the word names. -/
inductive Fld where
  | d | a | b | c | imp
  deriving DecidableEq, Repr, Inhabited

/-- A register operand: field, first register, how many, the alignment its entry asks for, whether it is read and written. -/
structure Opnd where
  f : Fld
  r : Nat
  n : Nat
  al : Nat
  rd : Bool
  wr : Bool
  deriving DecidableEq, Repr, Inhabited


/-- Registers of a value of a size: one up to 32 bits, a pair for 64, a quad for 128 (spec 18 R329, R331). -/
def sizeRegs : MSize → Nat
  | .b8 | .b16 | .b32 => 1
  | .b64 => 2
  | .b128 => 4

/-- Bytes of a size. -/
def sizeBytes : MSize → Nat
  | .b8 => 1
  | .b16 => 2
  | .b32 => 4
  | .b64 => 8
  | .b128 => 16

/-- Registers of an address in a space: a pair for global addresses, else one (spec 10 R175, 11 R202). -/
def spaceRegs : Space → Nat
  | .glob => 2
  | .scr | .vault => 1

/-- Registers of a system register: pairs for the 64-bit ones (spec 06 R111). -/
def sregRegs : SReg → Nat
  | .cont | .trappc | .trapinfo | .cycle => 2
  | .tid | .lane | .group | .wgid | .wgcount | .stage | .core | .cluster | .die | .part | .ctx | .tempi | .tempm | .contlive | .xheld | .trapcause
  | .trapmask | .fpflags | .fpmode => 1

/-- The register operands of an instruction. -/
def instrOpnds : Instr → List Opnd
  | .nop _ => []
  | .mov d a _ => [⟨.d, d.toNat, 1, 1, false, true⟩, ⟨.a, a.toNat, 1, 1, true, false⟩]
  | .ldi d _ _ => [⟨.d, d.toNat, 1, 1, false, true⟩]
  | .ldiIadd d a _ _ => [⟨.d, d.toNat, 1, 1, false, true⟩, ⟨.a, a.toNat, 1, 1, true, false⟩]
  | .ldiAnd d a _ _ => [⟨.d, d.toNat, 1, 1, false, true⟩, ⟨.a, a.toNat, 1, 1, true, false⟩]
  | .ldiOr d a _ _ => [⟨.d, d.toNat, 1, 1, false, true⟩, ⟨.a, a.toNat, 1, 1, true, false⟩]
  | .ldiXor d a _ _ => [⟨.d, d.toNat, 1, 1, false, true⟩, ⟨.a, a.toNat, 1, 1, true, false⟩]
  | .ldiShl d a _ _ => [⟨.d, d.toNat, 1, 1, false, true⟩, ⟨.a, a.toNat, 1, 1, true, false⟩]
  | .ldiShr d a _ _ => [⟨.d, d.toNat, 1, 1, false, true⟩, ⟨.a, a.toNat, 1, 1, true, false⟩]
  | .ldiSar d a _ _ => [⟨.d, d.toNat, 1, 1, false, true⟩, ⟨.a, a.toNat, 1, 1, true, false⟩]
  | .ldiIset _ _ a _ _ => [⟨.a, a.toNat, 1, 1, true, false⟩]
  | .iadd d a b _ => [⟨.d, d.toNat, 1, 1, false, true⟩, ⟨.a, a.toNat, 1, 1, true, false⟩, ⟨.b, b.toNat, 1, 1, true, false⟩]
  | .isub d a b _ => [⟨.d, d.toNat, 1, 1, false, true⟩, ⟨.a, a.toNat, 1, 1, true, false⟩, ⟨.b, b.toNat, 1, 1, true, false⟩]
  | .imul d a b _ => [⟨.d, d.toNat, 1, 1, false, true⟩, ⟨.a, a.toNat, 1, 1, true, false⟩, ⟨.b, b.toNat, 1, 1, true, false⟩]
  | .imulhs d a b _ => [⟨.d, d.toNat, 1, 1, false, true⟩, ⟨.a, a.toNat, 1, 1, true, false⟩, ⟨.b, b.toNat, 1, 1, true, false⟩]
  | .imulhz d a b _ => [⟨.d, d.toNat, 1, 1, false, true⟩, ⟨.a, a.toNat, 1, 1, true, false⟩, ⟨.b, b.toNat, 1, 1, true, false⟩]
  | .imad d a b _ => [⟨.d, d.toNat, 1, 1, true, true⟩, ⟨.a, a.toNat, 1, 1, true, false⟩, ⟨.b, b.toNat, 1, 1, true, false⟩]
  | .ineg d a _ => [⟨.d, d.toNat, 1, 1, false, true⟩, ⟨.a, a.toNat, 1, 1, true, false⟩]
  | .iabs d a _ => [⟨.d, d.toNat, 1, 1, false, true⟩, ⟨.a, a.toNat, 1, 1, true, false⟩]
  | .imin d a b _ => [⟨.d, d.toNat, 1, 1, false, true⟩, ⟨.a, a.toNat, 1, 1, true, false⟩, ⟨.b, b.toNat, 1, 1, true, false⟩]
  | .imax d a b _ => [⟨.d, d.toNat, 1, 1, false, true⟩, ⟨.a, a.toNat, 1, 1, true, false⟩, ⟨.b, b.toNat, 1, 1, true, false⟩]
  | .iminz d a b _ => [⟨.d, d.toNat, 1, 1, false, true⟩, ⟨.a, a.toNat, 1, 1, true, false⟩, ⟨.b, b.toNat, 1, 1, true, false⟩]
  | .imaxz d a b _ => [⟨.d, d.toNat, 1, 1, false, true⟩, ⟨.a, a.toNat, 1, 1, true, false⟩, ⟨.b, b.toNat, 1, 1, true, false⟩]
  | .and_ d a b _ => [⟨.d, d.toNat, 1, 1, false, true⟩, ⟨.a, a.toNat, 1, 1, true, false⟩, ⟨.b, b.toNat, 1, 1, true, false⟩]
  | .or_ d a b _ => [⟨.d, d.toNat, 1, 1, false, true⟩, ⟨.a, a.toNat, 1, 1, true, false⟩, ⟨.b, b.toNat, 1, 1, true, false⟩]
  | .xor_ d a b _ => [⟨.d, d.toNat, 1, 1, false, true⟩, ⟨.a, a.toNat, 1, 1, true, false⟩, ⟨.b, b.toNat, 1, 1, true, false⟩]
  | .andn d a b _ => [⟨.d, d.toNat, 1, 1, false, true⟩, ⟨.a, a.toNat, 1, 1, true, false⟩, ⟨.b, b.toNat, 1, 1, true, false⟩]
  | .not_ d a _ => [⟨.d, d.toNat, 1, 1, false, true⟩, ⟨.a, a.toNat, 1, 1, true, false⟩]
  | .shl d a b _ => [⟨.d, d.toNat, 1, 1, false, true⟩, ⟨.a, a.toNat, 1, 1, true, false⟩, ⟨.b, b.toNat, 1, 1, true, false⟩]
  | .shr d a b _ => [⟨.d, d.toNat, 1, 1, false, true⟩, ⟨.a, a.toNat, 1, 1, true, false⟩, ⟨.b, b.toNat, 1, 1, true, false⟩]
  | .sar d a b _ => [⟨.d, d.toNat, 1, 1, false, true⟩, ⟨.a, a.toNat, 1, 1, true, false⟩, ⟨.b, b.toNat, 1, 1, true, false⟩]
  | .rol d a b _ => [⟨.d, d.toNat, 1, 1, false, true⟩, ⟨.a, a.toNat, 1, 1, true, false⟩, ⟨.b, b.toNat, 1, 1, true, false⟩]
  | .clz d a _ => [⟨.d, d.toNat, 1, 1, false, true⟩, ⟨.a, a.toNat, 1, 1, true, false⟩]
  | .popc d a _ => [⟨.d, d.toNat, 1, 1, false, true⟩, ⟨.a, a.toNat, 1, 1, true, false⟩]
  | .brev d a _ => [⟨.d, d.toNat, 1, 1, false, true⟩, ⟨.a, a.toNat, 1, 1, true, false⟩]
  | .bitil3 d a _ => [⟨.d, d.toNat, 2, 2, false, true⟩, ⟨.a, a.toNat, 3, 4, true, false⟩]
  | .bitil2 d a b _ => [⟨.d, d.toNat, 1, 1, false, true⟩, ⟨.a, a.toNat, 1, 1, true, false⟩, ⟨.b, b.toNat, 1, 1, true, false⟩]
  | .bitdi3 d a _ _ => [⟨.d, d.toNat, 1, 1, false, true⟩, ⟨.a, a.toNat, 2, 2, true, false⟩]
  | .bfx d a b _ => [⟨.d, d.toNat, 1, 1, false, true⟩, ⟨.a, a.toNat, 1, 1, true, false⟩, ⟨.b, b.toNat, 1, 1, true, false⟩]
  | .bfi d a b _ => [⟨.d, d.toNat, 1, 1, true, true⟩, ⟨.a, a.toNat, 1, 1, true, false⟩, ⟨.b, b.toNat, 1, 1, true, false⟩]
  | .iset _ _ a b _ => [⟨.a, a.toNat, 1, 1, true, false⟩, ⟨.b, b.toNat, 1, 1, true, false⟩]
  | .plop _ _ _ _ _ => []
  | .sel d a b _ => [⟨.d, d.toNat, 1, 1, true, true⟩, ⟨.a, a.toNat, 1, 1, true, false⟩, ⟨.b, b.toNat, 1, 1, true, false⟩]
  | .iaddi d a _ _ => [⟨.d, d.toNat, 1, 1, false, true⟩, ⟨.a, a.toNat, 1, 1, true, false⟩]
  | .andi d a _ _ => [⟨.d, d.toNat, 1, 1, false, true⟩, ⟨.a, a.toNat, 1, 1, true, false⟩]
  | .ori d a _ _ => [⟨.d, d.toNat, 1, 1, false, true⟩, ⟨.a, a.toNat, 1, 1, true, false⟩]
  | .xori d a _ _ => [⟨.d, d.toNat, 1, 1, false, true⟩, ⟨.a, a.toNat, 1, 1, true, false⟩]
  | .shli d a _ _ => [⟨.d, d.toNat, 1, 1, false, true⟩, ⟨.a, a.toNat, 1, 1, true, false⟩]
  | .shri d a _ _ => [⟨.d, d.toNat, 1, 1, false, true⟩, ⟨.a, a.toNat, 1, 1, true, false⟩]
  | .sari d a _ _ => [⟨.d, d.toNat, 1, 1, false, true⟩, ⟨.a, a.toNat, 1, 1, true, false⟩]
  | .iseti _ _ a _ _ => [⟨.a, a.toNat, 1, 1, true, false⟩]
  | .iaddc d a b _ => [⟨.d, d.toNat, 1, 1, false, true⟩, ⟨.a, a.toNat, 1, 1, true, false⟩, ⟨.b, b.toNat, 1, 1, true, false⟩]
  | .add64 d a b _ => [⟨.d, d.toNat, 2, 2, false, true⟩, ⟨.a, a.toNat, 2, 2, true, false⟩, ⟨.b, b.toNat, 2, 2, true, false⟩]
  | .sub64 d a b _ => [⟨.d, d.toNat, 2, 2, false, true⟩, ⟨.a, a.toNat, 2, 2, true, false⟩, ⟨.b, b.toNat, 2, 2, true, false⟩]
  | .addw64 d a b _ => [⟨.d, d.toNat, 2, 2, false, true⟩, ⟨.a, a.toNat, 2, 2, true, false⟩, ⟨.b, b.toNat, 1, 1, true, false⟩]
  | .shl64 d a b _ => [⟨.d, d.toNat, 2, 2, false, true⟩, ⟨.a, a.toNat, 2, 2, true, false⟩, ⟨.b, b.toNat, 1, 1, true, false⟩]
  | .shrl64 d a b _ => [⟨.d, d.toNat, 2, 2, false, true⟩, ⟨.a, a.toNat, 2, 2, true, false⟩, ⟨.b, b.toNat, 1, 1, true, false⟩]
  | .iset64 _ _ a b _ => [⟨.a, a.toNat, 2, 2, true, false⟩, ⟨.b, b.toNat, 2, 2, true, false⟩]
  | .shfl d a b _ => [⟨.d, d.toNat, 1, 1, false, true⟩, ⟨.a, a.toNat, 1, 1, true, false⟩, ⟨.b, b.toNat, 1, 1, true, false⟩]
  | .shflx d a _ _ => [⟨.d, d.toNat, 1, 1, false, true⟩, ⟨.a, a.toNat, 1, 1, true, false⟩]
  | .shflup d a _ _ => [⟨.d, d.toNat, 1, 1, false, true⟩, ⟨.a, a.toNat, 1, 1, true, false⟩]
  | .shfldn d a _ _ => [⟨.d, d.toNat, 1, 1, false, true⟩, ⟨.a, a.toNat, 1, 1, true, false⟩]
  | .vote _ _ _ _ => []
  | .ballot d _ _ => [⟨.d, d.toNat, 1, 1, false, true⟩]
  | .gred d a _ _ => [⟨.d, d.toNat, 1, 1, false, true⟩, ⟨.a, a.toNat, 1, 1, true, false⟩]
  | .gscan d a _ _ _ => [⟨.d, d.toNat, 1, 1, false, true⟩, ⟨.a, a.toNat, 1, 1, true, false⟩]
  | .reorder w a b _ => [⟨.a, a.toNat, (w.toNat + 1), (w.toNat + 1), true, false⟩, ⟨.b, b.toNat, 2, 2, true, false⟩]
  | .lser _ => []
  | .lsend _ => []
  | .rngx d a b _ => [⟨.d, d.toNat, 4, 4, false, true⟩, ⟨.a, a.toNat, 4, 4, true, false⟩, ⟨.b, b.toNat, 2, 2, true, false⟩]
  | .fadd d a b _ _ => [⟨.d, d.toNat, 1, 1, false, true⟩, ⟨.a, a.toNat, 1, 1, true, false⟩, ⟨.b, b.toNat, 1, 1, true, false⟩]
  | .fsub d a b _ _ => [⟨.d, d.toNat, 1, 1, false, true⟩, ⟨.a, a.toNat, 1, 1, true, false⟩, ⟨.b, b.toNat, 1, 1, true, false⟩]
  | .fmul d a b _ _ => [⟨.d, d.toNat, 1, 1, false, true⟩, ⟨.a, a.toNat, 1, 1, true, false⟩, ⟨.b, b.toNat, 1, 1, true, false⟩]
  | .ffma d a b c _ _ => [⟨.d, d.toNat, 1, 1, false, true⟩, ⟨.a, a.toNat, 1, 1, true, false⟩, ⟨.b, b.toNat, 1, 1, true, false⟩, ⟨.c, c.toNat, 1, 1, true, false⟩]
  | .fmin d a b _ => [⟨.d, d.toNat, 1, 1, false, true⟩, ⟨.a, a.toNat, 1, 1, true, false⟩, ⟨.b, b.toNat, 1, 1, true, false⟩]
  | .fmax d a b _ => [⟨.d, d.toNat, 1, 1, false, true⟩, ⟨.a, a.toNat, 1, 1, true, false⟩, ⟨.b, b.toNat, 1, 1, true, false⟩]
  | .fabs d a _ => [⟨.d, d.toNat, 1, 1, false, true⟩, ⟨.a, a.toNat, 1, 1, true, false⟩]
  | .fneg d a _ => [⟨.d, d.toNat, 1, 1, false, true⟩, ⟨.a, a.toNat, 1, 1, true, false⟩]
  | .fset _ _ a b _ => [⟨.a, a.toNat, 1, 1, true, false⟩, ⟨.b, b.toNat, 1, 1, true, false⟩]
  | .frcp d a _ => [⟨.d, d.toNat, 1, 1, false, true⟩, ⟨.a, a.toNat, 1, 1, true, false⟩]
  | .frsq d a _ => [⟨.d, d.toNat, 1, 1, false, true⟩, ⟨.a, a.toNat, 1, 1, true, false⟩]
  | .fsqrt d a _ _ => [⟨.d, d.toNat, 1, 1, false, true⟩, ⟨.a, a.toNat, 1, 1, true, false⟩]
  | .fdiv d a b _ _ => [⟨.d, d.toNat, 1, 1, false, true⟩, ⟨.a, a.toNat, 1, 1, true, false⟩, ⟨.b, b.toNat, 1, 1, true, false⟩]
  | .fex2 d a _ => [⟨.d, d.toNat, 1, 1, false, true⟩, ⟨.a, a.toNat, 1, 1, true, false⟩]
  | .flg2 d a _ => [⟨.d, d.toNat, 1, 1, false, true⟩, ⟨.a, a.toNat, 1, 1, true, false⟩]
  | .fsin d a _ => [⟨.d, d.toNat, 1, 1, false, true⟩, ⟨.a, a.toNat, 1, 1, true, false⟩]
  | .fcos d a _ => [⟨.d, d.toNat, 1, 1, false, true⟩, ⟨.a, a.toNat, 1, 1, true, false⟩]
  | .frnd d a _ _ => [⟨.d, d.toNat, 1, 1, false, true⟩, ⟨.a, a.toNat, 1, 1, true, false⟩]
  | .dadd d a b _ _ => [⟨.d, d.toNat, 2, 2, false, true⟩, ⟨.a, a.toNat, 2, 2, true, false⟩, ⟨.b, b.toNat, 2, 2, true, false⟩]
  | .dsub d a b _ _ => [⟨.d, d.toNat, 2, 2, false, true⟩, ⟨.a, a.toNat, 2, 2, true, false⟩, ⟨.b, b.toNat, 2, 2, true, false⟩]
  | .dmul d a b _ _ => [⟨.d, d.toNat, 2, 2, false, true⟩, ⟨.a, a.toNat, 2, 2, true, false⟩, ⟨.b, b.toNat, 2, 2, true, false⟩]
  | .dfma d a b c _ _ => [⟨.d, d.toNat, 2, 2, false, true⟩, ⟨.a, a.toNat, 2, 2, true, false⟩, ⟨.b, b.toNat, 2, 2, true, false⟩, ⟨.c, c.toNat, 2, 2, true, false⟩]
  | .dmin d a b _ => [⟨.d, d.toNat, 2, 2, false, true⟩, ⟨.a, a.toNat, 2, 2, true, false⟩, ⟨.b, b.toNat, 2, 2, true, false⟩]
  | .dmax d a b _ => [⟨.d, d.toNat, 2, 2, false, true⟩, ⟨.a, a.toNat, 2, 2, true, false⟩, ⟨.b, b.toNat, 2, 2, true, false⟩]
  | .dset _ _ a b _ => [⟨.a, a.toNat, 2, 2, true, false⟩, ⟨.b, b.toNat, 2, 2, true, false⟩]
  | .ddiv d a b _ _ => [⟨.d, d.toNat, 2, 2, false, true⟩, ⟨.a, a.toNat, 2, 2, true, false⟩, ⟨.b, b.toNat, 2, 2, true, false⟩]
  | .dsqrt d a _ _ => [⟨.d, d.toNat, 2, 2, false, true⟩, ⟨.a, a.toNat, 2, 2, true, false⟩]
  | .hadd2 d a b _ _ => [⟨.d, d.toNat, 1, 1, false, true⟩, ⟨.a, a.toNat, 1, 1, true, false⟩, ⟨.b, b.toNat, 1, 1, true, false⟩]
  | .hmul2 d a b _ _ => [⟨.d, d.toNat, 1, 1, false, true⟩, ⟨.a, a.toNat, 1, 1, true, false⟩, ⟨.b, b.toNat, 1, 1, true, false⟩]
  | .hfma2 d a b c _ _ => [⟨.d, d.toNat, 1, 1, false, true⟩, ⟨.a, a.toNat, 1, 1, true, false⟩, ⟨.b, b.toNat, 1, 1, true, false⟩, ⟨.c, c.toNat, 1, 1, true, false⟩]
  | .cvtfi d a wide _ _ _ => [⟨.d, d.toNat, (if wide then 2 else 1), (if wide then 2 else 1), false, true⟩, ⟨.a, a.toNat, 1, 1, true, false⟩]
  | .cvtif d a wide _ _ _ => [⟨.d, d.toNat, 1, 1, false, true⟩, ⟨.a, a.toNat, (if wide then 2 else 1), (if wide then 2 else 1), true, false⟩]
  | .cvtfd d a _ => [⟨.d, d.toNat, 2, 2, false, true⟩, ⟨.a, a.toNat, 1, 1, true, false⟩]
  | .cvtdf d a _ _ => [⟨.d, d.toNat, 1, 1, false, true⟩, ⟨.a, a.toNat, 2, 2, true, false⟩]
  | .cvtfh d a b _ _ => [⟨.d, d.toNat, 1, 1, false, true⟩, ⟨.a, a.toNat, 1, 1, true, false⟩, ⟨.b, b.toNat, 1, 1, true, false⟩]
  | .cvthf d a _ _ => [⟨.d, d.toNat, 1, 1, false, true⟩, ⟨.a, a.toNat, 1, 1, true, false⟩]
  | .narrow8 d a _ _ _ _ c _ => [⟨.d, d.toNat, 1, 1, false, true⟩, ⟨.a, a.toNat, 4, 4, true, false⟩, ⟨.c, c.toNat, 1, 1, true, true⟩]
  | .widen8 d a _ _ _ _ => [⟨.d, d.toNat, 4, 4, false, true⟩, ⟨.a, a.toNat, 1, 1, true, false⟩]
  | .scalex d a b _ _ => [⟨.d, d.toNat, 1, 1, false, true⟩, ⟨.a, a.toNat, 1, 1, true, false⟩, ⟨.b, b.toNat, 1, 1, true, false⟩]
  | .fclass d a which _ => [⟨.d, d.toNat, 1, 1, false, true⟩, ⟨.a, a.toNat, (if which = .f64 then 2 else 1), (if which = .f64 then 2 else 1), true, false⟩]
  | .ld8s d a _ _ => [⟨.d, d.toNat, 1, 1, false, true⟩, ⟨.a, a.toNat, 2, 2, true, false⟩]
  | .ld8z d a _ _ => [⟨.d, d.toNat, 1, 1, false, true⟩, ⟨.a, a.toNat, 2, 2, true, false⟩]
  | .ld16s d a _ _ => [⟨.d, d.toNat, 1, 1, false, true⟩, ⟨.a, a.toNat, 2, 2, true, false⟩]
  | .ld16z d a _ _ => [⟨.d, d.toNat, 1, 1, false, true⟩, ⟨.a, a.toNat, 2, 2, true, false⟩]
  | .ld32 d a _ _ => [⟨.d, d.toNat, 1, 1, false, true⟩, ⟨.a, a.toNat, 2, 2, true, false⟩]
  | .ld64 d a _ _ => [⟨.d, d.toNat, 2, 2, false, true⟩, ⟨.a, a.toNat, 2, 2, true, false⟩]
  | .ld128 d a _ _ => [⟨.d, d.toNat, 4, 4, false, true⟩, ⟨.a, a.toNat, 2, 2, true, false⟩]
  | .st8 d a _ _ => [⟨.d, d.toNat, 1, 1, true, false⟩, ⟨.a, a.toNat, 2, 2, true, false⟩]
  | .st16 d a _ _ => [⟨.d, d.toNat, 1, 1, true, false⟩, ⟨.a, a.toNat, 2, 2, true, false⟩]
  | .st32 d a _ _ => [⟨.d, d.toNat, 1, 1, true, false⟩, ⟨.a, a.toNat, 2, 2, true, false⟩]
  | .st64 d a _ _ => [⟨.d, d.toNat, 2, 2, true, false⟩, ⟨.a, a.toNat, 2, 2, true, false⟩]
  | .st128 d a _ _ => [⟨.d, d.toNat, 4, 4, true, false⟩, ⟨.a, a.toNat, 2, 2, true, false⟩]
  | .lds32 d a _ _ => [⟨.d, d.toNat, 1, 1, false, true⟩, ⟨.a, a.toNat, 1, 1, true, false⟩]
  | .lds64 d a _ _ => [⟨.d, d.toNat, 2, 2, false, true⟩, ⟨.a, a.toNat, 1, 1, true, false⟩]
  | .lds128 d a _ _ => [⟨.d, d.toNat, 4, 4, false, true⟩, ⟨.a, a.toNat, 1, 1, true, false⟩]
  | .sts32 d a _ _ => [⟨.d, d.toNat, 1, 1, true, false⟩, ⟨.a, a.toNat, 1, 1, true, false⟩]
  | .sts64 d a _ _ => [⟨.d, d.toNat, 2, 2, true, false⟩, ⟨.a, a.toNat, 1, 1, true, false⟩]
  | .sts128 d a _ _ => [⟨.d, d.toNat, 4, 4, true, false⟩, ⟨.a, a.toNat, 1, 1, true, false⟩]
  | .ldv32 d a _ _ => [⟨.d, d.toNat, 1, 1, false, true⟩, ⟨.a, a.toNat, 1, 1, true, false⟩]
  | .ldv128 d a _ _ => [⟨.d, d.toNat, 4, 4, false, true⟩, ⟨.a, a.toNat, 1, 1, true, false⟩]
  | .stv32 d a _ _ => [⟨.d, d.toNat, 1, 1, true, false⟩, ⟨.a, a.toNat, 1, 1, true, false⟩]
  | .stv128 d a _ _ => [⟨.d, d.toNat, 4, 4, true, false⟩, ⟨.a, a.toNat, 1, 1, true, false⟩]
  | .ldo d a _ _ sz _ => [⟨.d, d.toNat, sizeRegs sz, sizeRegs sz, false, true⟩, ⟨.a, a.toNat, 2, 2, true, false⟩]
  | .sto d a _ _ sz _ => [⟨.d, d.toNat, sizeRegs sz, sizeRegs sz, true, false⟩, ⟨.a, a.toNat, 2, 2, true, false⟩]
  | .atom d a b _ _ _ sz _ _ => [⟨.d, d.toNat, sizeRegs sz, sizeRegs sz, false, true⟩, ⟨.a, a.toNat, 2, 2, true, false⟩, ⟨.b, b.toNat, sizeRegs sz, sizeRegs sz, true, false⟩]
  | .red d a _ _ _ sz _ _ => [⟨.d, d.toNat, sizeRegs sz, sizeRegs sz, true, false⟩, ⟨.a, a.toNat, 2, 2, true, false⟩]
  | .cas d a b _ _ sz _ => [⟨.d, d.toNat, sizeRegs sz, sizeRegs sz, false, true⟩, ⟨.a, a.toNat, 2, 2, true, false⟩, ⟨.b, b.toNat, (2 * sizeRegs sz), (2 * sizeRegs sz), true, false⟩]
  | .fence _ _ _ => []
  | .bind d a b _ all vault kind _ => [⟨.d, d.toNat, (if kind = .ph then 1 else 2), (if kind = .ph then 1 else 2), true, false⟩, ⟨.a, a.toNat, (if all then 0 else if vault then 1 else 2), (if all then 0 else if vault then 1 else 2), true, false⟩, ⟨.b, b.toNat, (if all then 0 else 1), (if all then 0 else 1), true, false⟩]
  | .unbind _ _ => []
  | .acq d a _ _ _ => [⟨.d, d.toNat, 1, 1, false, true⟩, ⟨.a, a.toNat, 2, 2, true, false⟩]
  | .rel a _ _ => [⟨.a, a.toNat, 2, 2, true, false⟩]
  | .gbegin d _ _ => [⟨.d, d.toNat, 1, 1, false, true⟩]
  | .gcommit _ => []
  | .gabort _ _ => []
  | .waitw d a b _ sz _ => [⟨.d, d.toNat, sizeRegs sz, sizeRegs sz, false, true⟩, ⟨.a, a.toNat, 2, 2, true, false⟩, ⟨.b, b.toNat, sizeRegs sz, sizeRegs sz, true, false⟩]
  | .pref a _ _ => [⟨.a, a.toNat, 2, 2, true, false⟩]
  | .prefTlb a _ _ => [⟨.a, a.toNat, 2, 2, true, false⟩]
  | .oclaim _ _ => []
  | .orelease _ _ => []
  | .oload _ a b sp _ => [⟨.a, a.toNat, spaceRegs sp, spaceRegs sp, true, false⟩, ⟨.b, b.toNat, 1, 1, true, false⟩]
  | .mconv _ a b _ _ _ _ _ _ _ => [⟨.a, a.toNat, 1, 1, true, false⟩, ⟨.b, b.toNat, 1, 1, true, false⟩]
  | .msign _ a b _ => [⟨.a, a.toNat, 1, 1, true, false⟩, ⟨.b, b.toNat, 1, 1, true, false⟩]
  | .tacq d _ _ => [⟨.d, d.toNat, 1, 1, false, true⟩]
  | .trel _ _ => []
  | .tld d a _ _ => [⟨.d, d.toNat, 1, 1, false, true⟩, ⟨.a, a.toNat, 1, 1, true, false⟩]
  | .tst d a _ _ => [⟨.d, d.toNat, 1, 1, true, false⟩, ⟨.a, a.toNat, 1, 1, true, false⟩]
  | .tzero _ _ => []
  | .tdrain _ a b _ _ sp _ => [⟨.a, a.toNat, spaceRegs sp, spaceRegs sp, true, false⟩, ⟨.b, b.toNat, 1, 1, true, false⟩]
  | .mstat d _ _ => [⟨.d, d.toNat, 1, 1, false, true⟩]
  | .cins d a b _ => [⟨.d, d.toNat, 1, 1, false, true⟩, ⟨.a, a.toNat, 4, 4, true, true⟩, ⟨.b, b.toNat, 2, 2, true, false⟩]
  | .crem d a b _ => [⟨.d, d.toNat, 1, 1, false, true⟩, ⟨.a, a.toNat, 4, 4, true, false⟩, ⟨.b, b.toNat, 2, 2, true, false⟩]
  | .cmove d a b _ => [⟨.d, d.toNat, 4, 4, true, true⟩, ⟨.a, a.toNat, 4, 4, true, true⟩, ⟨.b, b.toNat, 2, 2, true, false⟩]
  | .copen d a b _ => [⟨.d, d.toNat, 1, 1, false, true⟩, ⟨.a, a.toNat, 4, 4, true, false⟩, ⟨.b, b.toNat, 2, 2, true, false⟩]
  | .cnext d a _ => [⟨.d, d.toNat, 4, 4, false, true⟩, ⟨.a, a.toNat, 1, 1, true, false⟩]
  | .cclose a _ => [⟨.a, a.toNat, 1, 1, true, false⟩]
  | .ccount d _ b _ => [⟨.d, d.toNat, 4, 4, false, true⟩, ⟨.b, b.toNat, 2, 2, true, false⟩]
  | .cfreeze d b _ => [⟨.d, d.toNat, 1, 1, false, true⟩, ⟨.b, b.toNat, 2, 2, true, false⟩]
  | .cthaw d b _ => [⟨.d, d.toNat, 1, 1, false, true⟩, ⟨.b, b.toNat, 2, 2, true, false⟩]
  | .cnbr d a _ _ => [⟨.d, d.toNat, 2, 2, false, true⟩, ⟨.a, a.toNat, 2, 2, true, false⟩]
  | .cmrg d a b _ _ _ => [⟨.d, d.toNat, 2, 2, false, true⟩, ⟨.a, a.toNat, 2, 2, true, false⟩, ⟨.b, b.toNat, 2, 2, true, false⟩]
  | .cinit d a _ _ => [⟨.d, d.toNat, 1, 1, false, true⟩, ⟨.a, a.toNat, 2, 2, true, false⟩]
  | .cinitRel d a _ => [⟨.d, d.toNat, 1, 1, false, true⟩, ⟨.a, a.toNat, 2, 2, true, false⟩]
  | .ktrav d a _ _ => [⟨.d, d.toNat, 2, 2, false, true⟩, ⟨.a, a.toNat, 2, 2, true, false⟩]
  | .ktravResume d a _ _ => [⟨.d, d.toNat, 2, 2, false, true⟩, ⟨.a, a.toNat, 2, 2, true, false⟩]
  | .kstat d _ _ => [⟨.d, d.toNat, 1, 1, false, true⟩]
  | .bari _ _ _ => []
  | .bara _ _ => []
  | .barw _ _ => []
  | .baraw _ _ => []
  | .phregNew d _ _ => [⟨.d, d.toNat, 1, 1, false, true⟩]
  | .phreg d a _ _ => [⟨.d, d.toNat, 1, 1, false, true⟩, ⟨.a, a.toNat, 1, 1, true, false⟩]
  | .phdrop a _ => [⟨.a, a.toNat, 1, 1, true, false⟩]
  | .phsig a _ => [⟨.a, a.toNat, 1, 1, true, false⟩]
  | .phwait d a _ => [⟨.d, d.toNat, 1, 1, false, true⟩, ⟨.a, a.toNat, 1, 1, true, false⟩]
  | .phsw d a _ => [⟨.d, d.toNat, 1, 1, false, true⟩, ⟨.a, a.toNat, 1, 1, true, false⟩]
  | .cpy d a b _ src dst _ _ _ use _ _ => [⟨.d, d.toNat, spaceRegs dst, spaceRegs dst, true, false⟩, ⟨.a, a.toNat, spaceRegs src, spaceRegs src, true, false⟩, ⟨.b, b.toNat, (if use = .none then 0 else 1), (if use = .none then 0 else 1), true, false⟩]
  | .cpym d a b _ src _ _ _ _ _ => [⟨.d, d.toNat, 1, 1, true, false⟩, ⟨.a, a.toNat, spaceRegs src, spaceRegs src, true, false⟩, ⟨.b, b.toNat, 1, 1, true, false⟩]
  | .publishDecl _ _ a b _ => [⟨.a, a.toNat, 1, 1, true, false⟩, ⟨.b, b.toNat, 1, 1, true, false⟩]
  | .publish _ _ => []
  | .publishDrop _ _ => []
  | .gnodeArm d a _ => [⟨.d, d.toNat, 1, 1, false, true⟩, ⟨.a, a.toNat, 2, 2, true, false⟩]
  | .gnodeSig d a _ _ => [⟨.d, d.toNat, 1, 1, false, true⟩, ⟨.a, a.toNat, 1, 1, true, false⟩]
  | .gnodeTile a _ _ => [⟨.a, a.toNat, 1, 1, true, false⟩]
  | .gnodeFree a _ => [⟨.a, a.toNat, 1, 1, true, false⟩]
  | .qsend a _ _ _ _ _ => [⟨.a, a.toNat, 1, 1, true, false⟩]
  | .qrecv d a _ _ _ _ _ => [⟨.d, d.toNat, 1, 1, false, true⟩, ⟨.a, a.toNat, 1, 1, true, false⟩]
  | .bra _ _ => []
  | .brx a _ => [⟨.a, a.toNat, 1, 1, true, false⟩]
  | .call _ _ => [⟨.imp, 30, 2, 2, false, true⟩]
  | .ret a _ => [⟨.a, a.toNat, 2, 2, true, false⟩]
  | .exit a cnt _ => [⟨.a, a.toNat, (2 * cnt.toNat), 2, true, false⟩]
  | .yield_ _ => []
  | .yieldWg _ => []
  | .trap _ _ => []
  | .trapret _ => []
  | .bkpt _ _ => []
  | .gets d sr _ => [⟨.d, d.toNat, sregRegs sr, sregRegs sr, false, true⟩]
  | .sets a sr _ => [⟨.a, a.toNat, sregRegs sr, sregRegs sr, true, false⟩]
  | .setcont _ _ _ _ _ => []
  | .btopup a b _ => [⟨.a, a.toNat, 1, 1, true, false⟩, ⟨.b, b.toNat, 1, 1, true, false⟩]
  | .xacq _ => []
  | .xrel _ => []
  | .serial _ => []
  | .serialend _ => []
  | .ownmarkPriv d a vault _ => [⟨.d, d.toNat, 1, 1, true, false⟩, ⟨.a, a.toNat, (if vault then 1 else 2), (if vault then 1 else 2), true, false⟩]
  | .ownmarkShared d a vault _ => [⟨.d, d.toNat, 1, 1, true, false⟩, ⟨.a, a.toNat, (if vault then 1 else 2), (if vault then 1 else 2), true, false⟩]
  | .ownmarkRegion d a _ cls vault _ => [⟨.d, d.toNat, (if cls = .clear then 0 else 1), (if cls = .clear then 0 else 1), true, false⟩, ⟨.a, a.toNat, (if cls = .clear then 0 else if vault then 1 else 2), (if cls = .clear then 0 else if vault then 1 else 2), true, false⟩]
  | .capld d _ _ => [⟨.d, d.toNat, 4, 4, false, true⟩]
  | .tracemark a _ _ => [⟨.a, a.toNat, 1, 1, true, false⟩]
  | .cctlOff _ => []
  | .cctlOn _ => []
  | .clauseFetch _ _ => []
  | .issueSlotGrant _ _ => []
  | .waitPointRelease _ _ => []
  | .resultWriteback _ _ => []
  | .sfuResultLanding _ _ _ => []
  | .loadLanding _ _ _ => []
  | .storeAccepted _ _ _ => []
  | .scratchLoadLanding _ _ _ => []
  | .fenceComplete _ _ _ => []
  | .writeCombineFlush _ _ => []
  | .pageWalkStart _ _ _ => []
  | .pageWalkComplete _ => []
  | .memoryReadRetry _ _ => []
  | .remoteAccessTimeout _ _ _ => []
  | .xacqGrant _ => []
  | .xregDeadlockDetect _ _ => []
  | .reorderComplete _ => []
  | .waitwReturn _ _ _ => []
  | .gcommitGrant _ _ _ => []
  | .copySliceStart _ => []
  | .copySector _ => []
  | .copyComplete _ => []
  | .publishSwap _ _ _ => []
  | .oloadLanding _ _ _ => []
  | .mconvLanding _ _ _ => []
  | .msignSubmit _ _ => []
  | .passStart _ => []
  | .passRetire _ => []
  | .tacqLanding _ _ _ => []
  | .tldLanding _ _ _ => []
  | .mstatLanding _ _ _ => []
  | .tdrainComplete _ _ _ => []
  | .collectionCommandExecute _ _ => []
  | .cthawComplete _ _ => []
  | .knightTraversal _ => []
  | .knightTraversalDone _ => []
  | .qsendEnqueue _ _ _ => []
  | .qsendHostAck _ _ _ => []
  | .qrecvReceive _ _ _ => []
  | .eventBacklogDrain _ => []
  | .queueEntry _ => []
  | .admissionDecision _ => []
  | .admissionStop _ => []
  | .workgroupStart _ => []
  | .workgroupRetire _ => []
  | .yieldTaken _ => []
  | .stallPreemptTimeout _ => []
  | .preemptionSave _ => []
  | .saveSpill _ => []
  | .quantumStart _ _ => []
  | .quantumExpiry _ _ => []
  | .haltReport _ => []
  | .stepEnd _ => []
  | .traceRecordWrite _ _ => []
  | .rootLaunch _ _ _ => []
  | .invalidateTranslation _ _ _ _ => []
  | .killLaunch _ _ _ => []
  | .preemptCommand _ _ => []
  | .swapOut _ _ => []
  | .swapIn _ _ => []
  | .moveContext _ _ _ _ => []
  | .haltRequest _ _ => []
  | .stepCommand _ _ => []
  | .resumeCommand _ => []
  | .replayCommand _ _ _ _ => []
  | .refillReserves _ _ _ _ => []
  | .readCounters _ _ => []
  | .clearCounters _ => []
  | .debugStateRead _ _ => []
  | .debugStateWrite _ _ _ => []
  | .queueTableWrite _ _ _ => []
  | .contextDescriptorWrite _ _ _ => []
  | .controlSpaceWrite _ _ => []
  | .inboxSend _ _ => []
  | .hostRmaWrite _ _ _ _ => []
  | .attestationRequest _ => []
  | .firmwareBoot _ _ _ => []
  | .deviceReset => []
  | .linkTraining _ => []
  | .planeLinkDown _ => []
  | .partitionCreate _ _ => []
  | .partitionTeardown _ => []
  | .softError _ => []
  | .hostFrameRemap _ => []
  | .contextEnd _ _ => []
  | .remoteAccessArrival _ _ => []
  | .remoteMessageArrival _ _ _ _ => []
  | .accessTableGrant _ _ => []
  | .idleSlotCycle _ _ => []
  | .traceRecordConsumed _ _ _ => []

/-- Guard and stall of an instruction; formats I and the unguarded words have guard pt (spec 05 R78, R79). -/
def instrGuard : Instr → Guard
  | .nop g => g
  | .mov _ _ g => g
  | .ldi _ _ g => g
  | .ldiIadd _ _ _ g => g
  | .ldiAnd _ _ _ g => g
  | .ldiOr _ _ _ g => g
  | .ldiXor _ _ _ g => g
  | .ldiShl _ _ _ g => g
  | .ldiShr _ _ _ g => g
  | .ldiSar _ _ _ g => g
  | .ldiIset _ _ _ _ g => g
  | .iadd _ _ _ g => g
  | .isub _ _ _ g => g
  | .imul _ _ _ g => g
  | .imulhs _ _ _ g => g
  | .imulhz _ _ _ g => g
  | .imad _ _ _ g => g
  | .ineg _ _ g => g
  | .iabs _ _ g => g
  | .imin _ _ _ g => g
  | .imax _ _ _ g => g
  | .iminz _ _ _ g => g
  | .imaxz _ _ _ g => g
  | .and_ _ _ _ g => g
  | .or_ _ _ _ g => g
  | .xor_ _ _ _ g => g
  | .andn _ _ _ g => g
  | .not_ _ _ g => g
  | .shl _ _ _ g => g
  | .shr _ _ _ g => g
  | .sar _ _ _ g => g
  | .rol _ _ _ g => g
  | .clz _ _ g => g
  | .popc _ _ g => g
  | .brev _ _ g => g
  | .bitil3 _ _ g => g
  | .bitil2 _ _ _ g => g
  | .bitdi3 _ _ _ g => g
  | .bfx _ _ _ g => g
  | .bfi _ _ _ g => g
  | .iset _ _ _ _ g => g
  | .plop _ _ _ _ g => g
  | .sel _ _ _ g => g
  | .iaddi _ _ _ st => ptGuard st
  | .andi _ _ _ st => ptGuard st
  | .ori _ _ _ st => ptGuard st
  | .xori _ _ _ st => ptGuard st
  | .shli _ _ _ st => ptGuard st
  | .shri _ _ _ st => ptGuard st
  | .sari _ _ _ st => ptGuard st
  | .iseti _ _ _ _ st => ptGuard st
  | .iaddc _ _ _ g => g
  | .add64 _ _ _ g => g
  | .sub64 _ _ _ g => g
  | .addw64 _ _ _ g => g
  | .shl64 _ _ _ g => g
  | .shrl64 _ _ _ g => g
  | .iset64 _ _ _ _ g => g
  | .shfl _ _ _ g => g
  | .shflx _ _ _ g => g
  | .shflup _ _ _ g => g
  | .shfldn _ _ _ g => g
  | .vote _ _ _ g => g
  | .ballot _ _ g => g
  | .gred _ _ _ g => g
  | .gscan _ _ _ _ g => g
  | .reorder _ _ _ st => ptGuard st
  | .lser st => ptGuard st
  | .lsend st => ptGuard st
  | .rngx _ _ _ g => g
  | .fadd _ _ _ _ g => g
  | .fsub _ _ _ _ g => g
  | .fmul _ _ _ _ g => g
  | .ffma _ _ _ _ _ g => g
  | .fmin _ _ _ g => g
  | .fmax _ _ _ g => g
  | .fabs _ _ g => g
  | .fneg _ _ g => g
  | .fset _ _ _ _ g => g
  | .frcp _ _ g => g
  | .frsq _ _ g => g
  | .fsqrt _ _ _ g => g
  | .fdiv _ _ _ _ g => g
  | .fex2 _ _ g => g
  | .flg2 _ _ g => g
  | .fsin _ _ g => g
  | .fcos _ _ g => g
  | .frnd _ _ _ g => g
  | .dadd _ _ _ _ g => g
  | .dsub _ _ _ _ g => g
  | .dmul _ _ _ _ g => g
  | .dfma _ _ _ _ _ g => g
  | .dmin _ _ _ g => g
  | .dmax _ _ _ g => g
  | .dset _ _ _ _ g => g
  | .ddiv _ _ _ _ g => g
  | .dsqrt _ _ _ g => g
  | .hadd2 _ _ _ _ g => g
  | .hmul2 _ _ _ _ g => g
  | .hfma2 _ _ _ _ _ g => g
  | .cvtfi _ _ _ _ _ g => g
  | .cvtif _ _ _ _ _ g => g
  | .cvtfd _ _ g => g
  | .cvtdf _ _ _ g => g
  | .cvtfh _ _ _ _ g => g
  | .cvthf _ _ _ g => g
  | .narrow8 _ _ _ _ _ _ _ g => g
  | .widen8 _ _ _ _ _ g => g
  | .scalex _ _ _ _ g => g
  | .fclass _ _ _ g => g
  | .ld8s _ _ _ g => g
  | .ld8z _ _ _ g => g
  | .ld16s _ _ _ g => g
  | .ld16z _ _ _ g => g
  | .ld32 _ _ _ g => g
  | .ld64 _ _ _ g => g
  | .ld128 _ _ _ g => g
  | .st8 _ _ _ g => g
  | .st16 _ _ _ g => g
  | .st32 _ _ _ g => g
  | .st64 _ _ _ g => g
  | .st128 _ _ _ g => g
  | .lds32 _ _ _ g => g
  | .lds64 _ _ _ g => g
  | .lds128 _ _ _ g => g
  | .sts32 _ _ _ g => g
  | .sts64 _ _ _ g => g
  | .sts128 _ _ _ g => g
  | .ldv32 _ _ _ g => g
  | .ldv128 _ _ _ g => g
  | .stv32 _ _ _ g => g
  | .stv128 _ _ _ g => g
  | .ldo _ _ _ _ _ g => g
  | .sto _ _ _ _ _ g => g
  | .atom _ _ _ _ _ _ _ _ g => g
  | .red _ _ _ _ _ _ _ g => g
  | .cas _ _ _ _ _ _ g => g
  | .fence _ _ g => g
  | .bind _ _ _ _ _ _ _ g => g
  | .unbind _ g => g
  | .acq _ _ _ _ g => g
  | .rel _ _ g => g
  | .gbegin _ _ g => g
  | .gcommit g => g
  | .gabort _ g => g
  | .waitw _ _ _ _ _ g => g
  | .pref _ _ g => g
  | .prefTlb _ _ g => g
  | .oclaim _ g => g
  | .orelease _ g => g
  | .oload _ _ _ _ g => g
  | .mconv _ _ _ _ _ _ _ _ _ g => g
  | .msign _ _ _ st => ptGuard st
  | .tacq _ _ g => g
  | .trel _ g => g
  | .tld _ _ _ g => g
  | .tst _ _ _ g => g
  | .tzero _ g => g
  | .tdrain _ _ _ _ _ _ g => g
  | .mstat _ _ g => g
  | .cins _ _ _ g => g
  | .crem _ _ _ g => g
  | .cmove _ _ _ g => g
  | .copen _ _ _ g => g
  | .cnext _ _ g => g
  | .cclose _ g => g
  | .ccount _ _ _ g => g
  | .cfreeze _ _ g => g
  | .cthaw _ _ g => g
  | .cnbr _ _ _ g => g
  | .cmrg _ _ _ _ _ g => g
  | .cinit _ _ _ g => g
  | .cinitRel _ _ g => g
  | .ktrav _ _ _ g => g
  | .ktravResume _ _ _ g => g
  | .kstat _ _ g => g
  | .bari _ _ st => ptGuard st
  | .bara _ g => g
  | .barw _ g => g
  | .baraw _ g => g
  | .phregNew _ _ g => g
  | .phreg _ _ _ g => g
  | .phdrop _ g => g
  | .phsig _ g => g
  | .phwait _ _ g => g
  | .phsw _ _ g => g
  | .cpy _ _ _ _ _ _ _ _ _ _ _ g => g
  | .cpym _ _ _ _ _ _ _ _ _ g => g
  | .publishDecl _ _ _ _ g => g
  | .publish _ g => g
  | .publishDrop _ g => g
  | .gnodeArm _ _ g => g
  | .gnodeSig _ _ _ g => g
  | .gnodeTile _ _ g => g
  | .gnodeFree _ g => g
  | .qsend _ _ _ _ _ g => g
  | .qrecv _ _ _ _ _ _ g => g
  | .bra _ g => g
  | .brx _ g => g
  | .call _ g => g
  | .ret _ g => g
  | .exit _ _ g => g
  | .yield_ g => g
  | .yieldWg g => g
  | .trap _ g => g
  | .trapret st => ptGuard st
  | .bkpt _ g => g
  | .gets _ _ g => g
  | .sets _ _ g => g
  | .setcont _ _ _ _ g => g
  | .btopup _ _ g => g
  | .xacq g => g
  | .xrel g => g
  | .serial st => ptGuard st
  | .serialend st => ptGuard st
  | .ownmarkPriv _ _ _ g => g
  | .ownmarkShared _ _ _ g => g
  | .ownmarkRegion _ _ _ _ _ g => g
  | .capld _ _ g => g
  | .tracemark _ _ st => ptGuard st
  | .cctlOff st => ptGuard st
  | .cctlOn st => ptGuard st
  | .clauseFetch _ _ => ptGuard 0
  | .issueSlotGrant _ _ => ptGuard 0
  | .waitPointRelease _ _ => ptGuard 0
  | .resultWriteback _ _ => ptGuard 0
  | .sfuResultLanding _ _ _ => ptGuard 0
  | .loadLanding _ _ _ => ptGuard 0
  | .storeAccepted _ _ _ => ptGuard 0
  | .scratchLoadLanding _ _ _ => ptGuard 0
  | .fenceComplete _ _ _ => ptGuard 0
  | .writeCombineFlush _ _ => ptGuard 0
  | .pageWalkStart _ _ _ => ptGuard 0
  | .pageWalkComplete _ => ptGuard 0
  | .memoryReadRetry _ _ => ptGuard 0
  | .remoteAccessTimeout _ _ _ => ptGuard 0
  | .xacqGrant _ => ptGuard 0
  | .xregDeadlockDetect _ _ => ptGuard 0
  | .reorderComplete _ => ptGuard 0
  | .waitwReturn _ _ _ => ptGuard 0
  | .gcommitGrant _ _ _ => ptGuard 0
  | .copySliceStart _ => ptGuard 0
  | .copySector _ => ptGuard 0
  | .copyComplete _ => ptGuard 0
  | .publishSwap _ _ _ => ptGuard 0
  | .oloadLanding _ _ _ => ptGuard 0
  | .mconvLanding _ _ _ => ptGuard 0
  | .msignSubmit _ _ => ptGuard 0
  | .passStart _ => ptGuard 0
  | .passRetire _ => ptGuard 0
  | .tacqLanding _ _ _ => ptGuard 0
  | .tldLanding _ _ _ => ptGuard 0
  | .mstatLanding _ _ _ => ptGuard 0
  | .tdrainComplete _ _ _ => ptGuard 0
  | .collectionCommandExecute _ _ => ptGuard 0
  | .cthawComplete _ _ => ptGuard 0
  | .knightTraversal _ => ptGuard 0
  | .knightTraversalDone _ => ptGuard 0
  | .qsendEnqueue _ _ _ => ptGuard 0
  | .qsendHostAck _ _ _ => ptGuard 0
  | .qrecvReceive _ _ _ => ptGuard 0
  | .eventBacklogDrain _ => ptGuard 0
  | .queueEntry _ => ptGuard 0
  | .admissionDecision _ => ptGuard 0
  | .admissionStop _ => ptGuard 0
  | .workgroupStart _ => ptGuard 0
  | .workgroupRetire _ => ptGuard 0
  | .yieldTaken _ => ptGuard 0
  | .stallPreemptTimeout _ => ptGuard 0
  | .preemptionSave _ => ptGuard 0
  | .saveSpill _ => ptGuard 0
  | .quantumStart _ _ => ptGuard 0
  | .quantumExpiry _ _ => ptGuard 0
  | .haltReport _ => ptGuard 0
  | .stepEnd _ => ptGuard 0
  | .traceRecordWrite _ _ => ptGuard 0
  | .rootLaunch _ _ _ => ptGuard 0
  | .invalidateTranslation _ _ _ _ => ptGuard 0
  | .killLaunch _ _ _ => ptGuard 0
  | .preemptCommand _ _ => ptGuard 0
  | .swapOut _ _ => ptGuard 0
  | .swapIn _ _ => ptGuard 0
  | .moveContext _ _ _ _ => ptGuard 0
  | .haltRequest _ _ => ptGuard 0
  | .stepCommand _ _ => ptGuard 0
  | .resumeCommand _ => ptGuard 0
  | .replayCommand _ _ _ _ => ptGuard 0
  | .refillReserves _ _ _ _ => ptGuard 0
  | .readCounters _ _ => ptGuard 0
  | .clearCounters _ => ptGuard 0
  | .debugStateRead _ _ => ptGuard 0
  | .debugStateWrite _ _ _ => ptGuard 0
  | .queueTableWrite _ _ _ => ptGuard 0
  | .contextDescriptorWrite _ _ _ => ptGuard 0
  | .controlSpaceWrite _ _ => ptGuard 0
  | .inboxSend _ _ => ptGuard 0
  | .hostRmaWrite _ _ _ _ => ptGuard 0
  | .attestationRequest _ => ptGuard 0
  | .firmwareBoot _ _ _ => ptGuard 0
  | .deviceReset => ptGuard 0
  | .linkTraining _ => ptGuard 0
  | .planeLinkDown _ => ptGuard 0
  | .partitionCreate _ _ => ptGuard 0
  | .partitionTeardown _ => ptGuard 0
  | .softError _ => ptGuard 0
  | .hostFrameRemap _ => ptGuard 0
  | .contextEnd _ _ => ptGuard 0
  | .remoteAccessArrival _ _ => ptGuard 0
  | .remoteMessageArrival _ _ _ _ => ptGuard 0
  | .accessTableGrant _ _ => ptGuard 0
  | .idleSlotCycle _ _ => ptGuard 0
  | .traceRecordConsumed _ _ _ => ptGuard 0

/-- The predicates an instruction reads besides its guard (spec 05 R77). -/
def instrPredReads : Instr → List PReg
  | .nop _ => []
  | .mov _ _ _ => []
  | .ldi _ _ _ => []
  | .ldiIadd _ _ _ _ => []
  | .ldiAnd _ _ _ _ => []
  | .ldiOr _ _ _ _ => []
  | .ldiXor _ _ _ _ => []
  | .ldiShl _ _ _ _ => []
  | .ldiShr _ _ _ _ => []
  | .ldiSar _ _ _ _ => []
  | .ldiIset _ _ _ _ _ => []
  | .iadd _ _ _ _ => []
  | .isub _ _ _ _ => []
  | .imul _ _ _ _ => []
  | .imulhs _ _ _ _ => []
  | .imulhz _ _ _ _ => []
  | .imad _ _ _ _ => []
  | .ineg _ _ _ => []
  | .iabs _ _ _ => []
  | .imin _ _ _ _ => []
  | .imax _ _ _ _ => []
  | .iminz _ _ _ _ => []
  | .imaxz _ _ _ _ => []
  | .and_ _ _ _ _ => []
  | .or_ _ _ _ _ => []
  | .xor_ _ _ _ _ => []
  | .andn _ _ _ _ => []
  | .not_ _ _ _ => []
  | .shl _ _ _ _ => []
  | .shr _ _ _ _ => []
  | .sar _ _ _ _ => []
  | .rol _ _ _ _ => []
  | .clz _ _ _ => []
  | .popc _ _ _ => []
  | .brev _ _ _ => []
  | .bitil3 _ _ _ => []
  | .bitil2 _ _ _ _ => []
  | .bitdi3 _ _ _ _ => []
  | .bfx _ _ _ _ => []
  | .bfi _ _ _ _ => []
  | .iset _ _ _ _ _ => []
  | .plop _ _ pa pb _ => [pa, pb]
  | .sel _ _ _ _ => []
  | .iaddi _ _ _ _ => []
  | .andi _ _ _ _ => []
  | .ori _ _ _ _ => []
  | .xori _ _ _ _ => []
  | .shli _ _ _ _ => []
  | .shri _ _ _ _ => []
  | .sari _ _ _ _ => []
  | .iseti _ _ _ _ _ => []
  | .iaddc _ _ _ _ => [6]
  | .add64 _ _ _ _ => []
  | .sub64 _ _ _ _ => []
  | .addw64 _ _ _ _ => []
  | .shl64 _ _ _ _ => []
  | .shrl64 _ _ _ _ => []
  | .iset64 _ _ _ _ _ => []
  | .shfl _ _ _ _ => []
  | .shflx _ _ _ _ => []
  | .shflup _ _ _ _ => []
  | .shfldn _ _ _ _ => []
  | .vote _ _ pa _ => [pa]
  | .ballot _ pa _ => [pa]
  | .gred _ _ _ _ => []
  | .gscan _ _ _ _ _ => []
  | .reorder _ _ _ _ => []
  | .lser _ => []
  | .lsend _ => []
  | .rngx _ _ _ _ => []
  | .fadd _ _ _ _ _ => []
  | .fsub _ _ _ _ _ => []
  | .fmul _ _ _ _ _ => []
  | .ffma _ _ _ _ _ _ => []
  | .fmin _ _ _ _ => []
  | .fmax _ _ _ _ => []
  | .fabs _ _ _ => []
  | .fneg _ _ _ => []
  | .fset _ _ _ _ _ => []
  | .frcp _ _ _ => []
  | .frsq _ _ _ => []
  | .fsqrt _ _ _ _ => []
  | .fdiv _ _ _ _ _ => []
  | .fex2 _ _ _ => []
  | .flg2 _ _ _ => []
  | .fsin _ _ _ => []
  | .fcos _ _ _ => []
  | .frnd _ _ _ _ => []
  | .dadd _ _ _ _ _ => []
  | .dsub _ _ _ _ _ => []
  | .dmul _ _ _ _ _ => []
  | .dfma _ _ _ _ _ _ => []
  | .dmin _ _ _ _ => []
  | .dmax _ _ _ _ => []
  | .dset _ _ _ _ _ => []
  | .ddiv _ _ _ _ _ => []
  | .dsqrt _ _ _ _ => []
  | .hadd2 _ _ _ _ _ => []
  | .hmul2 _ _ _ _ _ => []
  | .hfma2 _ _ _ _ _ _ => []
  | .cvtfi _ _ _ _ _ _ => []
  | .cvtif _ _ _ _ _ _ => []
  | .cvtfd _ _ _ => []
  | .cvtdf _ _ _ _ => []
  | .cvtfh _ _ _ _ _ => []
  | .cvthf _ _ _ _ => []
  | .narrow8 _ _ _ _ _ _ _ _ => []
  | .widen8 _ _ _ _ _ _ => []
  | .scalex _ _ _ _ _ => []
  | .fclass _ _ _ _ => []
  | .ld8s _ _ _ _ => []
  | .ld8z _ _ _ _ => []
  | .ld16s _ _ _ _ => []
  | .ld16z _ _ _ _ => []
  | .ld32 _ _ _ _ => []
  | .ld64 _ _ _ _ => []
  | .ld128 _ _ _ _ => []
  | .st8 _ _ _ _ => []
  | .st16 _ _ _ _ => []
  | .st32 _ _ _ _ => []
  | .st64 _ _ _ _ => []
  | .st128 _ _ _ _ => []
  | .lds32 _ _ _ _ => []
  | .lds64 _ _ _ _ => []
  | .lds128 _ _ _ _ => []
  | .sts32 _ _ _ _ => []
  | .sts64 _ _ _ _ => []
  | .sts128 _ _ _ _ => []
  | .ldv32 _ _ _ _ => []
  | .ldv128 _ _ _ _ => []
  | .stv32 _ _ _ _ => []
  | .stv128 _ _ _ _ => []
  | .ldo _ _ _ _ _ _ => []
  | .sto _ _ _ _ _ _ => []
  | .atom _ _ _ _ _ _ _ _ _ => []
  | .red _ _ _ _ _ _ _ _ => []
  | .cas _ _ _ _ _ _ _ => []
  | .fence _ _ _ => []
  | .bind _ _ _ _ _ _ _ _ => []
  | .unbind _ _ => []
  | .acq _ _ _ _ _ => []
  | .rel _ _ _ => []
  | .gbegin _ _ _ => []
  | .gcommit _ => []
  | .gabort _ _ => []
  | .waitw _ _ _ _ _ _ => []
  | .pref _ _ _ => []
  | .prefTlb _ _ _ => []
  | .oclaim _ _ => []
  | .orelease _ _ => []
  | .oload _ _ _ _ _ => []
  | .mconv _ _ _ _ _ _ _ _ _ _ => []
  | .msign _ _ _ _ => []
  | .tacq _ _ _ => []
  | .trel _ _ => []
  | .tld _ _ _ _ => []
  | .tst _ _ _ _ => []
  | .tzero _ _ => []
  | .tdrain _ _ _ _ _ _ _ => []
  | .mstat _ _ _ => []
  | .cins _ _ _ _ => []
  | .crem _ _ _ _ => []
  | .cmove _ _ _ _ => []
  | .copen _ _ _ _ => []
  | .cnext _ _ _ => []
  | .cclose _ _ => []
  | .ccount _ _ _ _ => []
  | .cfreeze _ _ _ => []
  | .cthaw _ _ _ => []
  | .cnbr _ _ _ _ => []
  | .cmrg _ _ _ _ _ _ => []
  | .cinit _ _ _ _ => []
  | .cinitRel _ _ _ => []
  | .ktrav _ _ _ _ => []
  | .ktravResume _ _ _ _ => []
  | .kstat _ _ _ => []
  | .bari _ _ _ => []
  | .bara _ _ => []
  | .barw _ _ => []
  | .baraw _ _ => []
  | .phregNew _ _ _ => []
  | .phreg _ _ _ _ => []
  | .phdrop _ _ => []
  | .phsig _ _ => []
  | .phwait _ _ _ => []
  | .phsw _ _ _ => []
  | .cpy _ _ _ _ _ _ _ _ _ _ _ _ => []
  | .cpym _ _ _ _ _ _ _ _ _ _ => []
  | .publishDecl _ _ _ _ _ => []
  | .publish _ _ => []
  | .publishDrop _ _ => []
  | .gnodeArm _ _ _ => []
  | .gnodeSig _ _ _ _ => []
  | .gnodeTile _ _ _ => []
  | .gnodeFree _ _ => []
  | .qsend _ _ _ _ _ _ => []
  | .qrecv _ _ _ _ _ _ _ => []
  | .bra _ _ => []
  | .brx _ _ => []
  | .call _ _ => []
  | .ret _ _ => []
  | .exit _ _ _ => []
  | .yield_ _ => []
  | .yieldWg _ => []
  | .trap _ _ => []
  | .trapret _ => []
  | .bkpt _ _ => []
  | .gets _ _ _ => []
  | .sets _ _ _ => []
  | .setcont _ _ _ _ _ => []
  | .btopup _ _ _ => []
  | .xacq _ => []
  | .xrel _ => []
  | .serial _ => []
  | .serialend _ => []
  | .ownmarkPriv _ _ _ _ => []
  | .ownmarkShared _ _ _ _ => []
  | .ownmarkRegion _ _ _ _ _ _ => []
  | .capld _ _ _ => []
  | .tracemark _ _ _ => []
  | .cctlOff _ => []
  | .cctlOn _ => []
  | .clauseFetch _ _ => []
  | .issueSlotGrant _ _ => []
  | .waitPointRelease _ _ => []
  | .resultWriteback _ _ => []
  | .sfuResultLanding _ _ _ => []
  | .loadLanding _ _ _ => []
  | .storeAccepted _ _ _ => []
  | .scratchLoadLanding _ _ _ => []
  | .fenceComplete _ _ _ => []
  | .writeCombineFlush _ _ => []
  | .pageWalkStart _ _ _ => []
  | .pageWalkComplete _ => []
  | .memoryReadRetry _ _ => []
  | .remoteAccessTimeout _ _ _ => []
  | .xacqGrant _ => []
  | .xregDeadlockDetect _ _ => []
  | .reorderComplete _ => []
  | .waitwReturn _ _ _ => []
  | .gcommitGrant _ _ _ => []
  | .copySliceStart _ => []
  | .copySector _ => []
  | .copyComplete _ => []
  | .publishSwap _ _ _ => []
  | .oloadLanding _ _ _ => []
  | .mconvLanding _ _ _ => []
  | .msignSubmit _ _ => []
  | .passStart _ => []
  | .passRetire _ => []
  | .tacqLanding _ _ _ => []
  | .tldLanding _ _ _ => []
  | .mstatLanding _ _ _ => []
  | .tdrainComplete _ _ _ => []
  | .collectionCommandExecute _ _ => []
  | .cthawComplete _ _ => []
  | .knightTraversal _ => []
  | .knightTraversalDone _ => []
  | .qsendEnqueue _ _ _ => []
  | .qsendHostAck _ _ _ => []
  | .qrecvReceive _ _ _ => []
  | .eventBacklogDrain _ => []
  | .queueEntry _ => []
  | .admissionDecision _ => []
  | .admissionStop _ => []
  | .workgroupStart _ => []
  | .workgroupRetire _ => []
  | .yieldTaken _ => []
  | .stallPreemptTimeout _ => []
  | .preemptionSave _ => []
  | .saveSpill _ => []
  | .quantumStart _ _ => []
  | .quantumExpiry _ _ => []
  | .haltReport _ => []
  | .stepEnd _ => []
  | .traceRecordWrite _ _ => []
  | .rootLaunch _ _ _ => []
  | .invalidateTranslation _ _ _ _ => []
  | .killLaunch _ _ _ => []
  | .preemptCommand _ _ => []
  | .swapOut _ _ => []
  | .swapIn _ _ => []
  | .moveContext _ _ _ _ => []
  | .haltRequest _ _ => []
  | .stepCommand _ _ => []
  | .resumeCommand _ => []
  | .replayCommand _ _ _ _ => []
  | .refillReserves _ _ _ _ => []
  | .readCounters _ _ => []
  | .clearCounters _ => []
  | .debugStateRead _ _ => []
  | .debugStateWrite _ _ _ => []
  | .queueTableWrite _ _ _ => []
  | .contextDescriptorWrite _ _ _ => []
  | .controlSpaceWrite _ _ => []
  | .inboxSend _ _ => []
  | .hostRmaWrite _ _ _ _ => []
  | .attestationRequest _ => []
  | .firmwareBoot _ _ _ => []
  | .deviceReset => []
  | .linkTraining _ => []
  | .planeLinkDown _ => []
  | .partitionCreate _ _ => []
  | .partitionTeardown _ => []
  | .softError _ => []
  | .hostFrameRemap _ => []
  | .contextEnd _ _ => []
  | .remoteAccessArrival _ _ => []
  | .remoteMessageArrival _ _ _ _ => []
  | .accessTableGrant _ _ => []
  | .idleSlotCycle _ _ => []
  | .traceRecordConsumed _ _ _ => []

/-- The predicates an instruction writes. -/
def instrPredWrites : Instr → List PReg
  | .nop _ => []
  | .mov _ _ _ => []
  | .ldi _ _ _ => []
  | .ldiIadd _ _ _ _ => []
  | .ldiAnd _ _ _ _ => []
  | .ldiOr _ _ _ _ => []
  | .ldiXor _ _ _ _ => []
  | .ldiShl _ _ _ _ => []
  | .ldiShr _ _ _ _ => []
  | .ldiSar _ _ _ _ => []
  | .ldiIset _ pd _ _ _ => [pd]
  | .iadd _ _ _ _ => []
  | .isub _ _ _ _ => []
  | .imul _ _ _ _ => []
  | .imulhs _ _ _ _ => []
  | .imulhz _ _ _ _ => []
  | .imad _ _ _ _ => []
  | .ineg _ _ _ => []
  | .iabs _ _ _ => []
  | .imin _ _ _ _ => []
  | .imax _ _ _ _ => []
  | .iminz _ _ _ _ => []
  | .imaxz _ _ _ _ => []
  | .and_ _ _ _ _ => []
  | .or_ _ _ _ _ => []
  | .xor_ _ _ _ _ => []
  | .andn _ _ _ _ => []
  | .not_ _ _ _ => []
  | .shl _ _ _ _ => []
  | .shr _ _ _ _ => []
  | .sar _ _ _ _ => []
  | .rol _ _ _ _ => []
  | .clz _ _ _ => []
  | .popc _ _ _ => []
  | .brev _ _ _ => []
  | .bitil3 _ _ _ => []
  | .bitil2 _ _ _ _ => []
  | .bitdi3 _ _ _ _ => []
  | .bfx _ _ _ _ => []
  | .bfi _ _ _ _ => []
  | .iset _ pd _ _ _ => [pd]
  | .plop _ pd _ _ _ => [pd]
  | .sel _ _ _ _ => []
  | .iaddi _ _ _ _ => []
  | .andi _ _ _ _ => []
  | .ori _ _ _ _ => []
  | .xori _ _ _ _ => []
  | .shli _ _ _ _ => []
  | .shri _ _ _ _ => []
  | .sari _ _ _ _ => []
  | .iseti _ pd _ _ _ => [pd]
  | .iaddc _ _ _ _ => [6]
  | .add64 _ _ _ _ => []
  | .sub64 _ _ _ _ => []
  | .addw64 _ _ _ _ => []
  | .shl64 _ _ _ _ => []
  | .shrl64 _ _ _ _ => []
  | .iset64 _ pd _ _ _ => [pd]
  | .shfl _ _ _ _ => []
  | .shflx _ _ _ _ => []
  | .shflup _ _ _ _ => []
  | .shfldn _ _ _ _ => []
  | .vote _ pd _ _ => [pd]
  | .ballot _ _ _ => []
  | .gred _ _ _ _ => []
  | .gscan _ _ _ _ _ => []
  | .reorder _ _ _ _ => []
  | .lser _ => []
  | .lsend _ => []
  | .rngx _ _ _ _ => []
  | .fadd _ _ _ _ _ => []
  | .fsub _ _ _ _ _ => []
  | .fmul _ _ _ _ _ => []
  | .ffma _ _ _ _ _ _ => []
  | .fmin _ _ _ _ => []
  | .fmax _ _ _ _ => []
  | .fabs _ _ _ => []
  | .fneg _ _ _ => []
  | .fset _ pd _ _ _ => [pd]
  | .frcp _ _ _ => []
  | .frsq _ _ _ => []
  | .fsqrt _ _ _ _ => []
  | .fdiv _ _ _ _ _ => []
  | .fex2 _ _ _ => []
  | .flg2 _ _ _ => []
  | .fsin _ _ _ => []
  | .fcos _ _ _ => []
  | .frnd _ _ _ _ => []
  | .dadd _ _ _ _ _ => []
  | .dsub _ _ _ _ _ => []
  | .dmul _ _ _ _ _ => []
  | .dfma _ _ _ _ _ _ => []
  | .dmin _ _ _ _ => []
  | .dmax _ _ _ _ => []
  | .dset _ pd _ _ _ => [pd]
  | .ddiv _ _ _ _ _ => []
  | .dsqrt _ _ _ _ => []
  | .hadd2 _ _ _ _ _ => []
  | .hmul2 _ _ _ _ _ => []
  | .hfma2 _ _ _ _ _ _ => []
  | .cvtfi _ _ _ _ _ _ => []
  | .cvtif _ _ _ _ _ _ => []
  | .cvtfd _ _ _ => []
  | .cvtdf _ _ _ _ => []
  | .cvtfh _ _ _ _ _ => []
  | .cvthf _ _ _ _ => []
  | .narrow8 _ _ _ _ _ _ _ _ => []
  | .widen8 _ _ _ _ _ _ => []
  | .scalex _ _ _ _ _ => []
  | .fclass _ _ _ _ => []
  | .ld8s _ _ _ _ => []
  | .ld8z _ _ _ _ => []
  | .ld16s _ _ _ _ => []
  | .ld16z _ _ _ _ => []
  | .ld32 _ _ _ _ => []
  | .ld64 _ _ _ _ => []
  | .ld128 _ _ _ _ => []
  | .st8 _ _ _ _ => []
  | .st16 _ _ _ _ => []
  | .st32 _ _ _ _ => []
  | .st64 _ _ _ _ => []
  | .st128 _ _ _ _ => []
  | .lds32 _ _ _ _ => []
  | .lds64 _ _ _ _ => []
  | .lds128 _ _ _ _ => []
  | .sts32 _ _ _ _ => []
  | .sts64 _ _ _ _ => []
  | .sts128 _ _ _ _ => []
  | .ldv32 _ _ _ _ => []
  | .ldv128 _ _ _ _ => []
  | .stv32 _ _ _ _ => []
  | .stv128 _ _ _ _ => []
  | .ldo _ _ _ _ _ _ => []
  | .sto _ _ _ _ _ _ => []
  | .atom _ _ _ _ _ _ _ _ _ => []
  | .red _ _ _ _ _ _ _ _ => []
  | .cas _ _ _ _ _ _ _ => []
  | .fence _ _ _ => []
  | .bind _ _ _ _ _ _ _ _ => []
  | .unbind _ _ => []
  | .acq _ _ _ _ _ => []
  | .rel _ _ _ => []
  | .gbegin _ _ _ => []
  | .gcommit _ => []
  | .gabort _ _ => []
  | .waitw _ _ _ _ _ _ => []
  | .pref _ _ _ => []
  | .prefTlb _ _ _ => []
  | .oclaim _ _ => []
  | .orelease _ _ => []
  | .oload _ _ _ _ _ => []
  | .mconv _ _ _ _ _ _ _ _ _ _ => []
  | .msign _ _ _ _ => []
  | .tacq _ _ _ => []
  | .trel _ _ => []
  | .tld _ _ _ _ => []
  | .tst _ _ _ _ => []
  | .tzero _ _ => []
  | .tdrain _ _ _ _ _ _ _ => []
  | .mstat _ _ _ => []
  | .cins _ _ _ _ => []
  | .crem _ _ _ _ => []
  | .cmove _ _ _ _ => []
  | .copen _ _ _ _ => []
  | .cnext _ _ _ => []
  | .cclose _ _ => []
  | .ccount _ _ _ _ => []
  | .cfreeze _ _ _ => []
  | .cthaw _ _ _ => []
  | .cnbr _ _ _ _ => []
  | .cmrg _ _ _ _ _ _ => []
  | .cinit _ _ _ _ => []
  | .cinitRel _ _ _ => []
  | .ktrav _ _ _ _ => []
  | .ktravResume _ _ _ _ => []
  | .kstat _ _ _ => []
  | .bari _ _ _ => []
  | .bara _ _ => []
  | .barw _ _ => []
  | .baraw _ _ => []
  | .phregNew _ _ _ => []
  | .phreg _ _ _ _ => []
  | .phdrop _ _ => []
  | .phsig _ _ => []
  | .phwait _ _ _ => []
  | .phsw _ _ _ => []
  | .cpy _ _ _ _ _ _ _ _ _ _ _ _ => []
  | .cpym _ _ _ _ _ _ _ _ _ _ => []
  | .publishDecl _ _ _ _ _ => []
  | .publish _ _ => []
  | .publishDrop _ _ => []
  | .gnodeArm _ _ _ => []
  | .gnodeSig _ _ _ _ => []
  | .gnodeTile _ _ _ => []
  | .gnodeFree _ _ => []
  | .qsend _ _ pd nb _ _ => if nb then [pd] else []
  | .qrecv _ _ _ pd nb _ _ => if nb then [pd] else []
  | .bra _ _ => []
  | .brx _ _ => []
  | .call _ _ => []
  | .ret _ _ => []
  | .exit _ _ _ => []
  | .yield_ _ => []
  | .yieldWg _ => []
  | .trap _ _ => []
  | .trapret _ => []
  | .bkpt _ _ => []
  | .gets _ _ _ => []
  | .sets _ _ _ => []
  | .setcont _ _ _ _ _ => []
  | .btopup _ _ _ => []
  | .xacq _ => []
  | .xrel _ => []
  | .serial _ => []
  | .serialend _ => []
  | .ownmarkPriv _ _ _ _ => []
  | .ownmarkShared _ _ _ _ => []
  | .ownmarkRegion _ _ _ _ _ _ => []
  | .capld _ _ _ => []
  | .tracemark _ _ _ => []
  | .cctlOff _ => []
  | .cctlOn _ => []
  | .clauseFetch _ _ => []
  | .issueSlotGrant _ _ => []
  | .waitPointRelease _ _ => []
  | .resultWriteback _ _ => []
  | .sfuResultLanding _ _ _ => []
  | .loadLanding _ _ _ => []
  | .storeAccepted _ _ _ => []
  | .scratchLoadLanding _ _ _ => []
  | .fenceComplete _ _ _ => []
  | .writeCombineFlush _ _ => []
  | .pageWalkStart _ _ _ => []
  | .pageWalkComplete _ => []
  | .memoryReadRetry _ _ => []
  | .remoteAccessTimeout _ _ _ => []
  | .xacqGrant _ => []
  | .xregDeadlockDetect _ _ => []
  | .reorderComplete _ => []
  | .waitwReturn _ _ _ => []
  | .gcommitGrant _ _ _ => []
  | .copySliceStart _ => []
  | .copySector _ => []
  | .copyComplete _ => []
  | .publishSwap _ _ _ => []
  | .oloadLanding _ _ _ => []
  | .mconvLanding _ _ _ => []
  | .msignSubmit _ _ => []
  | .passStart _ => []
  | .passRetire _ => []
  | .tacqLanding _ _ _ => []
  | .tldLanding _ _ _ => []
  | .mstatLanding _ _ _ => []
  | .tdrainComplete _ _ _ => []
  | .collectionCommandExecute _ _ => []
  | .cthawComplete _ _ => []
  | .knightTraversal _ => []
  | .knightTraversalDone _ => []
  | .qsendEnqueue _ _ _ => []
  | .qsendHostAck _ _ _ => []
  | .qrecvReceive _ _ _ => []
  | .eventBacklogDrain _ => []
  | .queueEntry _ => []
  | .admissionDecision _ => []
  | .admissionStop _ => []
  | .workgroupStart _ => []
  | .workgroupRetire _ => []
  | .yieldTaken _ => []
  | .stallPreemptTimeout _ => []
  | .preemptionSave _ => []
  | .saveSpill _ => []
  | .quantumStart _ _ => []
  | .quantumExpiry _ _ => []
  | .haltReport _ => []
  | .stepEnd _ => []
  | .traceRecordWrite _ _ => []
  | .rootLaunch _ _ _ => []
  | .invalidateTranslation _ _ _ _ => []
  | .killLaunch _ _ _ => []
  | .preemptCommand _ _ => []
  | .swapOut _ _ => []
  | .swapIn _ _ => []
  | .moveContext _ _ _ _ => []
  | .haltRequest _ _ => []
  | .stepCommand _ _ => []
  | .resumeCommand _ => []
  | .replayCommand _ _ _ _ => []
  | .refillReserves _ _ _ _ => []
  | .readCounters _ _ => []
  | .clearCounters _ => []
  | .debugStateRead _ _ => []
  | .debugStateWrite _ _ _ => []
  | .queueTableWrite _ _ _ => []
  | .contextDescriptorWrite _ _ _ => []
  | .controlSpaceWrite _ _ => []
  | .inboxSend _ _ => []
  | .hostRmaWrite _ _ _ _ => []
  | .attestationRequest _ => []
  | .firmwareBoot _ _ _ => []
  | .deviceReset => []
  | .linkTraining _ => []
  | .planeLinkDown _ => []
  | .partitionCreate _ _ => []
  | .partitionTeardown _ => []
  | .softError _ => []
  | .hostFrameRemap _ => []
  | .contextEnd _ _ => []
  | .remoteAccessArrival _ _ => []
  | .remoteMessageArrival _ _ _ _ => []
  | .accessTableGrant _ _ => []
  | .idleSlotCycle _ _ => []
  | .traceRecordConsumed _ _ _ => []

/-- The WAIT class an instruction counts on, by WAIT bit: LD 0, ST 1, SP 2, SFU 3, MX 4, CO 5, KT 6, QU 7 (spec 05 R74, R89 to R94). -/
def instrWaitClass : Instr → Option Nat
  | .nop _ => none
  | .mov _ _ _ => none
  | .ldi _ _ _ => none
  | .ldiIadd _ _ _ _ => none
  | .ldiAnd _ _ _ _ => none
  | .ldiOr _ _ _ _ => none
  | .ldiXor _ _ _ _ => none
  | .ldiShl _ _ _ _ => none
  | .ldiShr _ _ _ _ => none
  | .ldiSar _ _ _ _ => none
  | .ldiIset _ _ _ _ _ => none
  | .iadd _ _ _ _ => none
  | .isub _ _ _ _ => none
  | .imul _ _ _ _ => none
  | .imulhs _ _ _ _ => none
  | .imulhz _ _ _ _ => none
  | .imad _ _ _ _ => none
  | .ineg _ _ _ => none
  | .iabs _ _ _ => none
  | .imin _ _ _ _ => none
  | .imax _ _ _ _ => none
  | .iminz _ _ _ _ => none
  | .imaxz _ _ _ _ => none
  | .and_ _ _ _ _ => none
  | .or_ _ _ _ _ => none
  | .xor_ _ _ _ _ => none
  | .andn _ _ _ _ => none
  | .not_ _ _ _ => none
  | .shl _ _ _ _ => none
  | .shr _ _ _ _ => none
  | .sar _ _ _ _ => none
  | .rol _ _ _ _ => none
  | .clz _ _ _ => none
  | .popc _ _ _ => none
  | .brev _ _ _ => none
  | .bitil3 _ _ _ => none
  | .bitil2 _ _ _ _ => none
  | .bitdi3 _ _ _ _ => none
  | .bfx _ _ _ _ => none
  | .bfi _ _ _ _ => none
  | .iset _ _ _ _ _ => none
  | .plop _ _ _ _ _ => none
  | .sel _ _ _ _ => none
  | .iaddi _ _ _ _ => none
  | .andi _ _ _ _ => none
  | .ori _ _ _ _ => none
  | .xori _ _ _ _ => none
  | .shli _ _ _ _ => none
  | .shri _ _ _ _ => none
  | .sari _ _ _ _ => none
  | .iseti _ _ _ _ _ => none
  | .iaddc _ _ _ _ => none
  | .add64 _ _ _ _ => none
  | .sub64 _ _ _ _ => none
  | .addw64 _ _ _ _ => none
  | .shl64 _ _ _ _ => none
  | .shrl64 _ _ _ _ => none
  | .iset64 _ _ _ _ _ => none
  | .shfl _ _ _ _ => none
  | .shflx _ _ _ _ => none
  | .shflup _ _ _ _ => none
  | .shfldn _ _ _ _ => none
  | .vote _ _ _ _ => none
  | .ballot _ _ _ => none
  | .gred _ _ _ _ => none
  | .gscan _ _ _ _ _ => none
  | .reorder _ _ _ _ => none
  | .lser _ => none
  | .lsend _ => none
  | .rngx _ _ _ _ => none
  | .fadd _ _ _ _ _ => none
  | .fsub _ _ _ _ _ => none
  | .fmul _ _ _ _ _ => none
  | .ffma _ _ _ _ _ _ => none
  | .fmin _ _ _ _ => none
  | .fmax _ _ _ _ => none
  | .fabs _ _ _ => none
  | .fneg _ _ _ => none
  | .fset _ _ _ _ _ => none
  | .frcp _ _ _ => some 3
  | .frsq _ _ _ => some 3
  | .fsqrt _ _ _ _ => some 3
  | .fdiv _ _ _ _ _ => some 3
  | .fex2 _ _ _ => some 3
  | .flg2 _ _ _ => some 3
  | .fsin _ _ _ => some 3
  | .fcos _ _ _ => some 3
  | .frnd _ _ _ _ => none
  | .dadd _ _ _ _ _ => none
  | .dsub _ _ _ _ _ => none
  | .dmul _ _ _ _ _ => none
  | .dfma _ _ _ _ _ _ => none
  | .dmin _ _ _ _ => none
  | .dmax _ _ _ _ => none
  | .dset _ _ _ _ _ => none
  | .ddiv _ _ _ _ _ => some 3
  | .dsqrt _ _ _ _ => some 3
  | .hadd2 _ _ _ _ _ => none
  | .hmul2 _ _ _ _ _ => none
  | .hfma2 _ _ _ _ _ _ => none
  | .cvtfi _ _ _ _ _ _ => none
  | .cvtif _ _ _ _ _ _ => none
  | .cvtfd _ _ _ => none
  | .cvtdf _ _ _ _ => none
  | .cvtfh _ _ _ _ _ => none
  | .cvthf _ _ _ _ => none
  | .narrow8 _ _ _ _ _ _ _ _ => none
  | .widen8 _ _ _ _ _ _ => none
  | .scalex _ _ _ _ _ => none
  | .fclass _ _ _ _ => none
  | .ld8s _ _ _ _ => some 0
  | .ld8z _ _ _ _ => some 0
  | .ld16s _ _ _ _ => some 0
  | .ld16z _ _ _ _ => some 0
  | .ld32 _ _ _ _ => some 0
  | .ld64 _ _ _ _ => some 0
  | .ld128 _ _ _ _ => some 0
  | .st8 _ _ _ _ => some 1
  | .st16 _ _ _ _ => some 1
  | .st32 _ _ _ _ => some 1
  | .st64 _ _ _ _ => some 1
  | .st128 _ _ _ _ => some 1
  | .lds32 _ _ _ _ => some 2
  | .lds64 _ _ _ _ => some 2
  | .lds128 _ _ _ _ => some 2
  | .sts32 _ _ _ _ => none
  | .sts64 _ _ _ _ => none
  | .sts128 _ _ _ _ => none
  | .ldv32 _ _ _ _ => some 0
  | .ldv128 _ _ _ _ => some 0
  | .stv32 _ _ _ _ => some 1
  | .stv128 _ _ _ _ => some 1
  | .ldo _ _ _ _ _ _ => some 0
  | .sto _ _ _ _ _ _ => some 1
  | .atom _ _ _ _ _ _ _ _ _ => some 0
  | .red _ _ _ _ _ _ _ _ => some 1
  | .cas _ _ _ _ _ _ _ => some 0
  | .fence _ _ _ => some 1
  | .bind _ _ _ _ _ _ _ _ => some 7
  | .unbind _ _ => some 7
  | .acq _ _ _ _ _ => some 0
  | .rel _ _ _ => some 1
  | .gbegin _ _ _ => none
  | .gcommit _ => some 0
  | .gabort _ _ => none
  | .waitw _ _ _ _ _ _ => some 0
  | .pref _ _ _ => none
  | .prefTlb _ _ _ => none
  | .oclaim _ _ => none
  | .orelease _ _ => none
  | .oload _ _ _ _ _ => some 4
  | .mconv _ _ _ _ _ _ _ _ _ _ => some 4
  | .msign _ _ _ _ => none
  | .tacq _ _ _ => some 4
  | .trel _ _ => none
  | .tld _ _ _ _ => some 4
  | .tst _ _ _ _ => none
  | .tzero _ _ => none
  | .tdrain _ _ _ _ _ _ _ => some 4
  | .mstat _ _ _ => some 4
  | .cins _ _ _ _ => some 5
  | .crem _ _ _ _ => some 5
  | .cmove _ _ _ _ => some 5
  | .copen _ _ _ _ => some 5
  | .cnext _ _ _ => some 5
  | .cclose _ _ => some 5
  | .ccount _ _ _ _ => some 5
  | .cfreeze _ _ _ => some 5
  | .cthaw _ _ _ => some 5
  | .cnbr _ _ _ _ => some 5
  | .cmrg _ _ _ _ _ _ => some 5
  | .cinit _ _ _ _ => some 5
  | .cinitRel _ _ _ => some 5
  | .ktrav _ _ _ _ => some 6
  | .ktravResume _ _ _ _ => some 6
  | .kstat _ _ _ => some 6
  | .bari _ _ _ => none
  | .bara _ _ => none
  | .barw _ _ => none
  | .baraw _ _ => none
  | .phregNew _ _ _ => some 7
  | .phreg _ _ _ _ => some 7
  | .phdrop _ _ => some 7
  | .phsig _ _ => some 7
  | .phwait _ _ _ => some 7
  | .phsw _ _ _ => some 7
  | .cpy _ _ _ _ _ _ _ _ _ _ _ _ => some 7
  | .cpym _ _ _ _ _ _ _ _ _ _ => some 7
  | .publishDecl _ _ _ _ _ => some 7
  | .publish _ _ => some 7
  | .publishDrop _ _ => some 7
  | .gnodeArm _ _ _ => some 7
  | .gnodeSig _ _ _ _ => some 7
  | .gnodeTile _ _ _ => some 7
  | .gnodeFree _ _ => some 7
  | .qsend _ _ _ _ _ _ => some 7
  | .qrecv _ _ _ _ _ _ _ => some 7
  | .bra _ _ => none
  | .brx _ _ => none
  | .call _ _ => none
  | .ret _ _ => none
  | .exit _ _ _ => none
  | .yield_ _ => none
  | .yieldWg _ => none
  | .trap _ _ => none
  | .trapret _ => none
  | .bkpt _ _ => none
  | .gets _ _ _ => none
  | .sets _ _ _ => none
  | .setcont _ _ _ _ _ => none
  | .btopup _ _ _ => none
  | .xacq _ => some 7
  | .xrel _ => none
  | .serial _ => none
  | .serialend _ => none
  | .ownmarkPriv _ _ _ _ => none
  | .ownmarkShared _ _ _ _ => none
  | .ownmarkRegion _ _ _ _ _ _ => none
  | .capld _ _ _ => some 7
  | .tracemark _ _ _ => none
  | .cctlOff _ => none
  | .cctlOn _ => none
  | .clauseFetch _ _ => none
  | .issueSlotGrant _ _ => none
  | .waitPointRelease _ _ => none
  | .resultWriteback _ _ => none
  | .sfuResultLanding _ _ _ => none
  | .loadLanding _ _ _ => none
  | .storeAccepted _ _ _ => none
  | .scratchLoadLanding _ _ _ => none
  | .fenceComplete _ _ _ => none
  | .writeCombineFlush _ _ => none
  | .pageWalkStart _ _ _ => none
  | .pageWalkComplete _ => none
  | .memoryReadRetry _ _ => none
  | .remoteAccessTimeout _ _ _ => none
  | .xacqGrant _ => none
  | .xregDeadlockDetect _ _ => none
  | .reorderComplete _ => none
  | .waitwReturn _ _ _ => none
  | .gcommitGrant _ _ _ => none
  | .copySliceStart _ => none
  | .copySector _ => none
  | .copyComplete _ => none
  | .publishSwap _ _ _ => none
  | .oloadLanding _ _ _ => none
  | .mconvLanding _ _ _ => none
  | .msignSubmit _ _ => none
  | .passStart _ => none
  | .passRetire _ => none
  | .tacqLanding _ _ _ => none
  | .tldLanding _ _ _ => none
  | .mstatLanding _ _ _ => none
  | .tdrainComplete _ _ _ => none
  | .collectionCommandExecute _ _ => none
  | .cthawComplete _ _ => none
  | .knightTraversal _ => none
  | .knightTraversalDone _ => none
  | .qsendEnqueue _ _ _ => none
  | .qsendHostAck _ _ _ => none
  | .qrecvReceive _ _ _ => none
  | .eventBacklogDrain _ => none
  | .queueEntry _ => none
  | .admissionDecision _ => none
  | .admissionStop _ => none
  | .workgroupStart _ => none
  | .workgroupRetire _ => none
  | .yieldTaken _ => none
  | .stallPreemptTimeout _ => none
  | .preemptionSave _ => none
  | .saveSpill _ => none
  | .quantumStart _ _ => none
  | .quantumExpiry _ _ => none
  | .haltReport _ => none
  | .stepEnd _ => none
  | .traceRecordWrite _ _ => none
  | .rootLaunch _ _ _ => none
  | .invalidateTranslation _ _ _ _ => none
  | .killLaunch _ _ _ => none
  | .preemptCommand _ _ => none
  | .swapOut _ _ => none
  | .swapIn _ _ => none
  | .moveContext _ _ _ _ => none
  | .haltRequest _ _ => none
  | .stepCommand _ _ => none
  | .resumeCommand _ => none
  | .replayCommand _ _ _ _ => none
  | .refillReserves _ _ _ _ => none
  | .readCounters _ _ => none
  | .clearCounters _ => none
  | .debugStateRead _ _ => none
  | .debugStateWrite _ _ _ => none
  | .queueTableWrite _ _ _ => none
  | .contextDescriptorWrite _ _ _ => none
  | .controlSpaceWrite _ _ => none
  | .inboxSend _ _ => none
  | .hostRmaWrite _ _ _ _ => none
  | .attestationRequest _ => none
  | .firmwareBoot _ _ _ => none
  | .deviceReset => none
  | .linkTraining _ => none
  | .planeLinkDown _ => none
  | .partitionCreate _ _ => none
  | .partitionTeardown _ => none
  | .softError _ => none
  | .hostFrameRemap _ => none
  | .contextEnd _ _ => none
  | .remoteAccessArrival _ _ => none
  | .remoteMessageArrival _ _ _ _ => none
  | .accessTableGrant _ _ => none
  | .idleSlotCycle _ _ => none
  | .traceRecordConsumed _ _ _ => none

/-- The charge to %tempi (spec 05 R87, R89 to R94). -/
def instrTempi : Instr → Nat
  | .nop _ => 1
  | .mov _ _ _ => 1
  | .ldi _ _ _ => 1
  | .ldiIadd _ _ _ _ => 1
  | .ldiAnd _ _ _ _ => 1
  | .ldiOr _ _ _ _ => 1
  | .ldiXor _ _ _ _ => 1
  | .ldiShl _ _ _ _ => 1
  | .ldiShr _ _ _ _ => 1
  | .ldiSar _ _ _ _ => 1
  | .ldiIset _ _ _ _ _ => 1
  | .iadd _ _ _ _ => 1
  | .isub _ _ _ _ => 1
  | .imul _ _ _ _ => 1
  | .imulhs _ _ _ _ => 1
  | .imulhz _ _ _ _ => 1
  | .imad _ _ _ _ => 1
  | .ineg _ _ _ => 1
  | .iabs _ _ _ => 1
  | .imin _ _ _ _ => 1
  | .imax _ _ _ _ => 1
  | .iminz _ _ _ _ => 1
  | .imaxz _ _ _ _ => 1
  | .and_ _ _ _ _ => 1
  | .or_ _ _ _ _ => 1
  | .xor_ _ _ _ _ => 1
  | .andn _ _ _ _ => 1
  | .not_ _ _ _ => 1
  | .shl _ _ _ _ => 1
  | .shr _ _ _ _ => 1
  | .sar _ _ _ _ => 1
  | .rol _ _ _ _ => 1
  | .clz _ _ _ => 1
  | .popc _ _ _ => 1
  | .brev _ _ _ => 1
  | .bitil3 _ _ _ => 1
  | .bitil2 _ _ _ _ => 1
  | .bitdi3 _ _ _ _ => 1
  | .bfx _ _ _ _ => 1
  | .bfi _ _ _ _ => 1
  | .iset _ _ _ _ _ => 1
  | .plop _ _ _ _ _ => 1
  | .sel _ _ _ _ => 1
  | .iaddi _ _ _ _ => 1
  | .andi _ _ _ _ => 1
  | .ori _ _ _ _ => 1
  | .xori _ _ _ _ => 1
  | .shli _ _ _ _ => 1
  | .shri _ _ _ _ => 1
  | .sari _ _ _ _ => 1
  | .iseti _ _ _ _ _ => 1
  | .iaddc _ _ _ _ => 1
  | .add64 _ _ _ _ => 2
  | .sub64 _ _ _ _ => 2
  | .addw64 _ _ _ _ => 2
  | .shl64 _ _ _ _ => 2
  | .shrl64 _ _ _ _ => 2
  | .iset64 _ _ _ _ _ => 2
  | .shfl _ _ _ _ => 1
  | .shflx _ _ _ _ => 1
  | .shflup _ _ _ _ => 1
  | .shfldn _ _ _ _ => 1
  | .vote _ _ _ _ => 1
  | .ballot _ _ _ => 1
  | .gred _ _ _ _ => 2
  | .gscan _ _ _ _ _ => 2
  | .reorder _ _ _ _ => 8
  | .lser _ => 1
  | .lsend _ => 1
  | .rngx _ _ _ _ => 4
  | .fadd _ _ _ _ _ => 1
  | .fsub _ _ _ _ _ => 1
  | .fmul _ _ _ _ _ => 1
  | .ffma _ _ _ _ _ _ => 1
  | .fmin _ _ _ _ => 1
  | .fmax _ _ _ _ => 1
  | .fabs _ _ _ => 1
  | .fneg _ _ _ => 1
  | .fset _ _ _ _ _ => 1
  | .frcp _ _ _ => 4
  | .frsq _ _ _ => 4
  | .fsqrt _ _ _ _ => 4
  | .fdiv _ _ _ _ _ => 4
  | .fex2 _ _ _ => 4
  | .flg2 _ _ _ => 4
  | .fsin _ _ _ => 4
  | .fcos _ _ _ => 4
  | .frnd _ _ _ _ => 1
  | .dadd _ _ _ _ _ => 2
  | .dsub _ _ _ _ _ => 2
  | .dmul _ _ _ _ _ => 2
  | .dfma _ _ _ _ _ _ => 2
  | .dmin _ _ _ _ => 2
  | .dmax _ _ _ _ => 2
  | .dset _ _ _ _ _ => 2
  | .ddiv _ _ _ _ _ => 8
  | .dsqrt _ _ _ _ => 8
  | .hadd2 _ _ _ _ _ => 1
  | .hmul2 _ _ _ _ _ => 1
  | .hfma2 _ _ _ _ _ _ => 1
  | .cvtfi _ _ _ _ _ _ => 1
  | .cvtif _ _ _ _ _ _ => 1
  | .cvtfd _ _ _ => 2
  | .cvtdf _ _ _ _ => 2
  | .cvtfh _ _ _ _ _ => 1
  | .cvthf _ _ _ _ => 1
  | .narrow8 _ _ _ _ _ _ _ _ => 1
  | .widen8 _ _ _ _ _ _ => 1
  | .scalex _ _ _ _ _ => 1
  | .fclass _ _ _ _ => 1
  | .ld8s _ _ _ _ => 1
  | .ld8z _ _ _ _ => 1
  | .ld16s _ _ _ _ => 1
  | .ld16z _ _ _ _ => 1
  | .ld32 _ _ _ _ => 1
  | .ld64 _ _ _ _ => 1
  | .ld128 _ _ _ _ => 1
  | .st8 _ _ _ _ => 1
  | .st16 _ _ _ _ => 1
  | .st32 _ _ _ _ => 1
  | .st64 _ _ _ _ => 1
  | .st128 _ _ _ _ => 1
  | .lds32 _ _ _ _ => 1
  | .lds64 _ _ _ _ => 1
  | .lds128 _ _ _ _ => 1
  | .sts32 _ _ _ _ => 1
  | .sts64 _ _ _ _ => 1
  | .sts128 _ _ _ _ => 1
  | .ldv32 _ _ _ _ => 1
  | .ldv128 _ _ _ _ => 1
  | .stv32 _ _ _ _ => 1
  | .stv128 _ _ _ _ => 1
  | .ldo _ _ _ _ _ _ => 1
  | .sto _ _ _ _ _ _ => 1
  | .atom _ _ _ _ _ _ _ _ _ => 2
  | .red _ _ _ _ _ _ _ _ => 2
  | .cas _ _ _ _ _ _ _ => 2
  | .fence _ _ _ => 2
  | .bind _ _ _ _ _ _ _ _ => 2
  | .unbind _ _ => 2
  | .acq _ _ _ _ _ => 2
  | .rel _ _ _ => 2
  | .gbegin _ _ _ => 2
  | .gcommit _ => 4
  | .gabort _ _ => 1
  | .waitw _ _ _ _ _ _ => 2
  | .pref _ _ _ => 1
  | .prefTlb _ _ _ => 1
  | .oclaim _ _ => 1
  | .orelease _ _ => 1
  | .oload _ _ _ _ _ => 2
  | .mconv _ _ _ _ _ _ _ _ _ _ => 2
  | .msign _ _ _ _ => 1
  | .tacq _ _ _ => 2
  | .trel _ _ => 1
  | .tld _ _ _ _ => 1
  | .tst _ _ _ _ => 1
  | .tzero _ _ => 1
  | .tdrain _ _ _ _ _ _ _ => 2
  | .mstat _ _ _ => 1
  | .cins _ _ _ _ => 2
  | .crem _ _ _ _ => 2
  | .cmove _ _ _ _ => 3
  | .copen _ _ _ _ => 2
  | .cnext _ _ _ => 1
  | .cclose _ _ => 1
  | .ccount _ _ _ _ => 1
  | .cfreeze _ _ _ => 4
  | .cthaw _ _ _ => 4
  | .cnbr _ _ _ _ => 8
  | .cmrg _ _ _ _ _ _ => 4
  | .cinit _ _ _ _ => 4
  | .cinitRel _ _ _ => 4
  | .ktrav _ _ _ _ => 4
  | .ktravResume _ _ _ _ => 4
  | .kstat _ _ _ => 1
  | .bari _ _ _ => 1
  | .bara _ _ => 1
  | .barw _ _ => 1
  | .baraw _ _ => 1
  | .phregNew _ _ _ => 2
  | .phreg _ _ _ _ => 2
  | .phdrop _ _ => 1
  | .phsig _ _ => 1
  | .phwait _ _ _ => 1
  | .phsw _ _ _ => 1
  | .cpy _ _ _ _ _ _ _ _ _ _ _ _ => 2
  | .cpym _ _ _ _ _ _ _ _ _ _ => 2
  | .publishDecl _ _ _ _ _ => 1
  | .publish _ _ => 1
  | .publishDrop _ _ => 1
  | .gnodeArm _ _ _ => 2
  | .gnodeSig _ _ _ _ => 2
  | .gnodeTile _ _ _ => 2
  | .gnodeFree _ _ => 2
  | .qsend _ _ _ _ _ _ => 2
  | .qrecv _ _ _ _ _ _ _ => 2
  | .bra _ _ => 1
  | .brx _ _ => 1
  | .call _ _ => 1
  | .ret _ _ => 1
  | .exit _ _ _ => 1
  | .yield_ _ => 1
  | .yieldWg _ => 1
  | .trap _ _ => 1
  | .trapret _ => 1
  | .bkpt _ _ => 1
  | .gets _ _ _ => 1
  | .sets _ _ _ => 1
  | .setcont _ _ _ _ _ => 1
  | .btopup _ _ _ => 1
  | .xacq _ => 1
  | .xrel _ => 1
  | .serial _ => 1
  | .serialend _ => 1
  | .ownmarkPriv _ _ _ _ => 2
  | .ownmarkShared _ _ _ _ => 2
  | .ownmarkRegion _ _ _ _ _ _ => 2
  | .capld _ _ _ => 1
  | .tracemark _ _ _ => 1
  | .cctlOff _ => 1
  | .cctlOn _ => 1
  | .clauseFetch _ _ => 0
  | .issueSlotGrant _ _ => 0
  | .waitPointRelease _ _ => 0
  | .resultWriteback _ _ => 0
  | .sfuResultLanding _ _ _ => 0
  | .loadLanding _ _ _ => 0
  | .storeAccepted _ _ _ => 0
  | .scratchLoadLanding _ _ _ => 0
  | .fenceComplete _ _ _ => 0
  | .writeCombineFlush _ _ => 0
  | .pageWalkStart _ _ _ => 0
  | .pageWalkComplete _ => 0
  | .memoryReadRetry _ _ => 0
  | .remoteAccessTimeout _ _ _ => 0
  | .xacqGrant _ => 0
  | .xregDeadlockDetect _ _ => 0
  | .reorderComplete _ => 0
  | .waitwReturn _ _ _ => 0
  | .gcommitGrant _ _ _ => 0
  | .copySliceStart _ => 0
  | .copySector _ => 0
  | .copyComplete _ => 0
  | .publishSwap _ _ _ => 0
  | .oloadLanding _ _ _ => 0
  | .mconvLanding _ _ _ => 0
  | .msignSubmit _ _ => 0
  | .passStart _ => 0
  | .passRetire _ => 0
  | .tacqLanding _ _ _ => 0
  | .tldLanding _ _ _ => 0
  | .mstatLanding _ _ _ => 0
  | .tdrainComplete _ _ _ => 0
  | .collectionCommandExecute _ _ => 0
  | .cthawComplete _ _ => 0
  | .knightTraversal _ => 0
  | .knightTraversalDone _ => 0
  | .qsendEnqueue _ _ _ => 0
  | .qsendHostAck _ _ _ => 0
  | .qrecvReceive _ _ _ => 0
  | .eventBacklogDrain _ => 0
  | .queueEntry _ => 0
  | .admissionDecision _ => 0
  | .admissionStop _ => 0
  | .workgroupStart _ => 0
  | .workgroupRetire _ => 0
  | .yieldTaken _ => 0
  | .stallPreemptTimeout _ => 0
  | .preemptionSave _ => 0
  | .saveSpill _ => 0
  | .quantumStart _ _ => 0
  | .quantumExpiry _ _ => 0
  | .haltReport _ => 0
  | .stepEnd _ => 0
  | .traceRecordWrite _ _ => 0
  | .rootLaunch _ _ _ => 0
  | .invalidateTranslation _ _ _ _ => 0
  | .killLaunch _ _ _ => 0
  | .preemptCommand _ _ => 0
  | .swapOut _ _ => 0
  | .swapIn _ _ => 0
  | .moveContext _ _ _ _ => 0
  | .haltRequest _ _ => 0
  | .stepCommand _ _ => 0
  | .resumeCommand _ => 0
  | .replayCommand _ _ _ _ => 0
  | .refillReserves _ _ _ _ => 0
  | .readCounters _ _ => 0
  | .clearCounters _ => 0
  | .debugStateRead _ _ => 0
  | .debugStateWrite _ _ _ => 0
  | .queueTableWrite _ _ _ => 0
  | .contextDescriptorWrite _ _ _ => 0
  | .controlSpaceWrite _ _ => 0
  | .inboxSend _ _ => 0
  | .hostRmaWrite _ _ _ _ => 0
  | .attestationRequest _ => 0
  | .firmwareBoot _ _ _ => 0
  | .deviceReset => 0
  | .linkTraining _ => 0
  | .planeLinkDown _ => 0
  | .partitionCreate _ _ => 0
  | .partitionTeardown _ => 0
  | .softError _ => 0
  | .hostFrameRemap _ => 0
  | .contextEnd _ _ => 0
  | .remoteAccessArrival _ _ => 0
  | .remoteMessageArrival _ _ _ _ => 0
  | .accessTableGrant _ _ => 0
  | .idleSlotCycle _ _ => 0
  | .traceRecordConsumed _ _ _ => 0

/-- The steps of the table that are no instructions (spec 95). -/
def instrIsEvent (i : Instr) : Bool := (encode i).isNone

/-- The opcode of an instruction word, from the encoder; 256 for the steps of the table. -/
def instrOpcode (i : Instr) : Nat :=
  match encode i with
  | some (w :: _) => fOp w
  | _ => 256

/-- How many words the instruction occupies. -/
def instrWords (i : Instr) : Nat := ((encode i).getD []).length

/-- A group's lanes in which an instruction takes effect: active, and the guard is 1 (spec 05 R79). -/
def effMask (x : Group) (act : Mask) (g : Guard) : Mask :=
  act &&& maskIf fun l => x.pred g.p.toNat l != decide (g.n = 1)

/-- The value of an operand in a lane for an issue record: a single register zero-extended, else the first two as a pair (spec 20 R369). -/
def opndValue (x : Group) (l : Nat) (os : List Opnd) (f : Fld) : DWord :=
  match os.find? fun o => decide (o.f = f) && decide (o.n ≠ 0) with
  | none => 0
  | some o => if o.n = 1 then (x.reg o.r l).setWidth 64 else x.pair o.r l

/-- The registers an operand covers. -/
def Opnd.regs (o : Opnd) : List Nat := (List.range o.n).map (o.r + ·)

end Sys2Proof.Machine
end

