-- ==== Sys2Proof/Machine/Commands.lean ====
section
/-! DEFINITION. Commands handed on and their ends, what orders and acquires do to a core, lock words, phasers, gates of copies: what every part of the
machine that ends a workgroup needs (spec 05 R74, 10 R187, R189, 11 R207, 18 R334 to R338, 20 R367, R386). -/

namespace Sys2Proof.Machine

/-! ## Landing -/

/-- A lane write that has landed. -/
def Group.land1 (x : Group) : LaneWrite → Group
  | .reg r l v => x.setReg r l v
  | .pred p l v => x.setPred p l v
  | .flags l v => { x with fpflags := Store.upd 0 x.fpflags l (· ||| v) }

/-- Lane writes in order. -/
def Group.landAll (x : Group) (ws : List LaneWrite) : Group := ws.foldl Group.land1 x

/-- The two writes go to one register or predicate of one lane; bits of %fpflags accumulate and supersede nothing. -/
def sameDest : LaneWrite → LaneWrite → Bool
  | .reg r l _, .reg r' l' _ => decide (32 * r + l = 32 * r' + l')
  | .pred p l _, .pred p' l' _ => decide (p ≠ 7) && decide (p' ≠ 7) && decide (32 * p + l = 32 * p' + l')
  | _, _ => false

/-- Results due at `now` land in issue order; a result that a later-issued write has superseded is dropped (spec 05 R75). -/
def landPend (now : Nat) (kept : List Pend) (x : Group) : List Pend → Group × List Pend
  | [] => (x, kept)
  | p :: ps =>
    if p.due ≤ now then
      landPend now (kept.map fun q => { q with writes := q.writes.filter fun u => !(p.writes.any (sameDest u)) }) (x.landAll p.writes) ps
    else landPend now (kept ++ [p]) x ps

/-- The group with every result that is due landed. -/
def Group.landDue (x : Group) (now : Nat) : Group :=
  let r := landPend now [] x x.pend
  { r.1 with pend := r.2 }

/-- Fixed-latency results landed, whatever their time: REORDER completes later than any of them (spec 05 R75, 07 R133). -/
def Group.landEvery (y : Group) : Group := { (y.landAll (y.pend.flatMap (·.writes))) with pend := [] }

/-- A group's results that are due by a cycle have landed: that cycle has come. -/
def landedBy (w g c : Nat) (m : Mach) : Mach := { m with cycle := max m.cycle c }.modG w g fun y => y.landDue (max m.cycle c)

/-- The last cycle at which a result of the group lands. -/
def Group.lastDue (y : Group) : Nat := y.pend.foldl (fun n p => max n p.due) 0

/-- A group's fixed-latency results have landed, as they have wherever hardware writes its registers later than they issued (spec 05 R75). -/
def allLanded (w g : Nat) (m : Mach) : Mach := landedBy w g (m.grp w g).lastDue m

/-- A command is dropped. -/
def dropOut (w g id : Nat) (m : Mach) : Mach := m.modG w g fun y => { y with outs := y.outs.filter fun o => decide (o.id ≠ id) }

/-- A write-combining line is emptied (spec 10 R187). -/
def flushLine (core line : Nat) (m : Mach) : Mach :=
  (Store.get [] (m.core core).combine line).foldl (fun acc e => writePa acc (some core) none (line * 128 + e.1) [e.2])
    (m.modK core fun c => { c with combine := Store.del c.combine line, combineAt := Store.del c.combineAt line })

/-- Every write-combining line of a core is emptied. -/
def flushAll (core : Nat) (m : Mach) : Mach := (Store.keys (m.core core).combine).foldl (fun acc l => flushLine core l acc) m

/-- Lines of a core that have been held for 1,024 cycles (spec 10 R187). -/
def agedLines (now : Nat) (c : Core) : List Nat :=
  (Store.keys c.combine).filter fun l => decide (Store.get now c.combineAt l + 1024 ≤ now)

/-- Write-combining lines held for 1,024 cycles are emptied (spec 10 R187). -/
def flushAged (m : Mach) : Mach := m.cores.foldl (fun acc e => (agedLines m.cycle e.2).foldl (fun a l => flushLine e.1 l a) acc) m

/-- The hidden read cache of a core is invalidated (spec 10 R189). -/
def dropCache (core : Nat) (m : Mach) : Mach := m.modK core fun c => { c with cache := [] }

/-- The order has an acquire part, a release part. -/
def hasAcq : Order → Bool
  | .acq | .ar | .sc => true
  | _ => false

/-- A release part. -/
def hasRel : Order → Bool
  | .rel | .ar | .sc => true
  | _ => false

/-- A scope of a cluster or wider, whose acquires invalidate the hidden read cache (spec 10 R189). -/
def wideScope : Scope → Bool
  | .group | .workgroup => false
  | _ => true

/-- An acquire at a scope has completed (spec 10 R189). -/
def acquireAt (core : Nat) (s : Scope) (m : Mach) : Mach := if wideScope s then dropCache core m else m

/-- The acquire and release parts of an order that has been performed by a thread of a core. -/
def orderDone (core : Nat) (o : Order × Scope) (m : Mach) : Mach :=
  let m1 := if hasRel o.1 then flushAll core m else m
  if hasAcq o.1 then acquireAt core o.2 m1 else m1

/-- An outstanding command that has not faulted. -/
def findOut (m : Mach) (w g id : Nat) : Option Out := (m.grp w g).outs.find? fun o => decide (o.id = id) && o.fail.isNone

/-- A command's results are written into the group's registers: those of fixed latency that issued before it have landed by then, a later-issued one lands
after it (spec 05 R75, R76). -/
def landWrites (w g id : Nat) (ws : List LaneWrite) (m : Mach) : Mach :=
  (landedBy w g (((findOut m w g id).map (·.after)).getD 0) m).modG w g fun y => y.landAll ws

/-- Results are written, and the command is no longer outstanding (spec 05 R74, R76). -/
def landOut (w g id : Nat) (ws : List LaneWrite) (m : Mach) : Mach := dropOut w g id (landWrites w g id ws m)

/-- The class whose wait point reports a command's fault: SP for a scratchpad store, which no class counts (spec 05 R74, 10 R190, R191). -/
def faultClass (o : Out) : Nat :=
  match o.kind with
  | .storeScratch _ _ => 2
  | _ => o.cls

/-- A command has faulted: it is held with its record (spec 20 R367); the faults of a workgroup that has ended are discarded (R373). -/
def failOut (w g id : Nat) (f : Fail) (m : Mach) : Mach :=
  if (m.wg w).status = .ended then dropOut w g id m
  else m.useFree.modG w g fun y => { y with outs := y.outs.map fun o => if o.id = id then { o with fail := some f, cls := faultClass o } else o }

/-- What a command is to do has changed. -/
def setOut (w g id : Nat) (k : OutKind) (m : Mach) : Mach :=
  m.modG w g fun y => { y with outs := y.outs.map fun o => if o.id = id then { o with kind := k } else o }

/-! ## Lock words -/

/-- A command with its workgroup and group. -/
structure CoreOut where
  w : Nat
  g : Nat
  o : Out
  deriving DecidableEq, Repr, Inhabited

/-- A lock word held by a group (spec 18 R334). -/
def lockWord (m : Mach) (w g : Nat) (waiters : Bool) : Nat :=
  let x := m.wg w
  w % 2 ^ 24 * 2 ^ 40 + g % 16 * 2 ^ 36 + x.ctx % 16 * 2 ^ 32 + x.part % 16 * 2 ^ 28 + (if waiters then 2 else 0) + 1

/-- The outstanding commands of the device. -/
def allOuts (m : Mach) : List CoreOut :=
  m.wgIds.flatMap fun w => (m.wg w).groupIds.flatMap fun g => (m.grp w g).outs.map fun o => ⟨w, g, o⟩

/-- The place of a waiting ACQ in the order of arrival, and its word. -/
def arrivalOf (o : Out) : Option (Nat × Nat) :=
  match o.kind with
  | .acq _ _ _ _ _ w => w
  | _ => none

/-- The ACQs that wait at a word's home, oldest first (spec 18 R335). -/
def waitersAt (m : Mach) (pa : Nat) : List CoreOut :=
  sortBy (fun a b => decide (((arrivalOf a.o).map (·.1)).getD 0 ≤ ((arrivalOf b.o).map (·.1)).getD 0))
    ((allOuts m).filter fun e => e.o.fail.isNone && decide ((arrivalOf e.o).map (·.2) = some pa))

/-- A lock word written by the hardware for a lane (spec 18 R346). -/
def putLock (core : Nat) (who : Agent) (pa v : Nat) (m : Mach) : Mach := writePa m (some core) who pa (leBytes 8 v)

/-- An ACQ is granted its word: it completes with 1 (spec 18 R335). -/
def grantLock (e : CoreOut) (pa : Nat) (m : Mach) : Mach :=
  match e.o.kind with
  | .acq dst lanes _ _ sc _ =>
    let m1 := m.modG e.w e.g fun y => { y with locks := y.locks ++ [pa] }
    orderDone (m.wg e.w).core (.acq, sc) (landOut e.w e.g e.o.id ((lanesOf lanes).map fun l => .reg dst.toNat l 1) m1)
  | _ => m

/-- A waiter on a word whose holder's context is swapped out makes that context's saved workgroups eligible (spec 20 R386). -/
def inherit (p pa v prio : Nat) (m : Mach) : Mach :=
  let c := fld v 32 4
  if (m.ctx p c).state = 2 then m.modC p c fun x => { x with inherits := x.inherits ++ [(pa, prio)] } else m

/-- A word passes to its oldest waiter, or is free; those that still wait make the new holder's context eligible where it is swapped out (spec 18 R335, 20 R373,
R386). -/
def passLock (core : Nat) (who : Agent) (pa : Nat) (m : Mach) : Mach :=
  match waitersAt m pa with
  | [] => putLock core who pa 0 m
  | e :: rest =>
    let v := lockWord m e.w e.g (!rest.isEmpty)
    rest.foldl (fun acc q => inherit (m.wg q.w).part pa v (m.block q.w).priority acc) (grantLock e pa (putLock core who pa v m))

/-- A full pre-emption is requested of a workgroup (spec 20 R381). -/
def requestSave (k : SaveKind) (w : Nat) (m : Mach) : Mach :=
  if (m.wg w).status = .running ∨ (m.wg w).status = .admitted then m.modW w fun x => { x with preempt := some (x.preempt.getD k), askedAt := if x.preempt.isNone then m.cycle else x.askedAt }
  else m

/-- The workgroups of a context. -/
def ctxWgs (m : Mach) (p c : Nat) : List Nat := m.wgIds.filter fun w => decide ((m.wg w).part = p) && decide ((m.wg w).ctx = c)

/-- The holder has released a word: the inheritance on it ends, and the context is pre-empted and swapped out again (spec 20 R386). -/
def endInherit (p c pa : Nat) (m : Mach) : Mach :=
  let x := m.ctx p c
  let left := x.inherits.filter fun e => decide (e.1 ≠ pa)
  let m1 := m.modC p c fun x => { x with inherits := left }
  if x.inherits.isEmpty || !left.isEmpty || x.quantum || decide (x.state ≠ 2) then m1
  else (ctxWgs m1 p c).foldl (fun acc w => requestSave .full w acc) m1

/-! ## Phasers -/

/-- A phaser handle is live, for a context of a partition (spec 18 R337): the phaser's index. -/
def livePhaser (m : Mach) (p c : Nat) (h : Word) : Option Nat :=
  let k := fld h.toNat 0 12
  let q : Phaser := Store.get default (m.part p).phasers k
  if fld h.toNat 28 4 = 0 ∧ q.live = true ∧ q.gen = fld h.toNat 12 16 ∧ q.ctx = c then some k else none

/-- A mode that signals. -/
def signals : PhMode → Bool
  | .s | .sw => true
  | .w => false

/-- Phases past the current one up to which a member has signalled: a signal-only member may be ahead; another has signalled the current one or not. -/
def signalledBy (q : Phaser) (e : PhMember) : Nat :=
  if e.mode = .s then (e.phase + 2 ^ 32 - q.phase) % 2 ^ 32 else if e.phase = q.phase ∧ e.signalled = true then 1 else 0

/-- The current phase, and those after it that every counting member has signalled, complete (spec 18 R338); a phase for which no signal-capable member has
ever counted does not. -/
def completePhase (q : Phaser) : Phaser :=
  match (q.members.filter fun e => signals e.mode).map (signalledBy q) with
  | [] => if q.live && q.counted then { q with phase := (q.phase + 1) % 2 ^ 32, counted := false } else q
  | k :: ks => if q.live then { q with phase := (q.phase + ks.foldl min k) % 2 ^ 32 } else q

/-- A member leaves; the drop may complete a phase; a phaser without members is free (spec 18 R338). -/
def leavePhaser (w g : Nat) (q : Phaser) : Phaser :=
  let ms := q.members.filter fun e => !(decide (e.wg = w) && decide (e.grp = g))
  if ms.length = q.members.length then q
  else if ms.isEmpty then { q with live := false, gen := (q.gen + 1) % 65536, phase := 0, counted := false, members := [] }
  else completePhase { q with members := ms }

/-- A group's memberships are dropped (spec 18 R339). -/
def dropPhasers (w g : Nat) (m : Mach) : Mach :=
  m.modP (m.wg w).part fun p => { p with phasers := p.phasers.map fun e => if e.2.live then (e.1, leavePhaser w g e.2) else e }

/-! ## Gates -/

/-- A copy changed. -/
def Mach.modCopy (m : Mach) (k : Nat) (f : Copy → Copy) : Mach := { m with copies := Store.upd default m.copies k f }

/-- A copy. -/
def Mach.copy (m : Mach) (k : Nat) : Copy := Store.get default m.copies k

/-- A slice changed. -/
def Mach.modSlice (m : Mach) (k : Nat) (f : Slice → Slice) : Mach := { m with slices := Store.upd default m.slices k f }

/-- A slice. -/
def Mach.slice (m : Mach) (k : Nat) : Slice := Store.get default m.slices k

/-- A copy makes no progress: its workgroup or a receiver is saved (spec 11 R219). -/
def copyStalled (m : Mach) (c : Copy) : Bool :=
  decide ((m.wg c.wg).status = .saved) || c.recvs.any fun r => !r.stopped && decide ((m.wg r.wg).status = .saved)

/-- The slices that a cluster's Rook holds; the copies of saved workgroups are not in it (spec 11 R201, R219). -/
def rookSlices (m : Mach) (cl : Nat) : Store Slice :=
  m.slices.filter fun e => decide ((m.copy e.2.copy).cluster = cl) && (match e.2.status with | .queued | .running | .faulted => true | _ => false) &&
    !(copyStalled m (m.copy e.2.copy))

/-- How many of its 256 places are taken (spec 11 R201). -/
def rookHeld (m : Mach) (cl : Nat) : Nat := (rookSlices m cl).length

/-- A slice reaches the Rook, in its old place if it has had one; where no place is free, or its workgroup or a receiver is saved, it stays outside (spec 11 R201,
R219). -/
def queueSlice (k : Nat) (m : Mach) : Mach :=
  if 256 ≤ rookHeld m (m.copy (m.slice k).copy).cluster ∨ copyStalled m (m.copy (m.slice k).copy) = true then m
  else { (m.modSlice k fun s => { s with status := .queued, order := if s.order = 0 then m.nextCmd + 1 else s.order }) with nextCmd := m.nextCmd + 1 }

/-- A lodged copy starts (spec 11 R207). -/
def openGate (k : Nat) (m : Mach) : Mach :=
  (m.copy k).slices.foldl (fun acc j => if (acc.slice j).status = .lodged then queueSlice j acc else acc) (m.modCopy k fun c => { c with gate := .opened })

/-- A lodged copy is cancelled: its groups take GRAPH_NODE (spec 11 R205, R207). -/
def cancelGate (k : Nat) (m : Mach) : Mach :=
  (m.copy k).slices.foldl (fun acc j =>
    let s := acc.slice j
    failOut s.wg s.grp s.id ⟨.graphNode, 0, 0, 0⟩ (acc.modSlice j fun s => { s with status := .landed })) (m.modCopy k fun c => { c with gate := .cancelled, refused := some .graphNode })

end Sys2Proof.Machine
end

