-- ==== Sys2Proof/Machine/Events.lean ====
section
/-! DEFINITION. Event records, trace records, launch-block fields, predecessor counts: what agents of every kind share (spec 03 R32 to R36, 02 R21,
21 R400 to R402). -/

namespace Sys2Proof.Machine

/-- The code of a cause (spec 20 R366). -/
def causeCode : Cause → Nat
  | .preempt => 0x00
  | .illegalOpcode => 0x01
  | .illegalHeader => 0x02
  | .classMismatch => 0x03
  | .reservedField => 0x04
  | .misalignedPair => 0x05
  | .extNotHeld => 0x06
  | .privilege => 0x07
  | .controlPlacement => 0x08
  | .branchTarget => 0x09
  | .stallUndersized => 0x0A
  | .waitMissing => 0x0B
  | .software => 0x0C
  | .fpException => 0x0D
  | .runTooLong => 0x0E
  | .clauseOverrun => 0x0F
  | .pageNotPresent => 0x10
  | .pagePermission => 0x11
  | .accessTableDeny => 0x12
  | .scratchBounds => 0x13
  | .vaultBounds => 0x14
  | .misalignedAccess => 0x15
  | .memtypeConflict => 0x16
  | .uncorrectable => 0x17
  | .regionWriter => 0x18
  | .ownership => 0x19
  | .bindConflict => 0x1A
  | .asyncCopyFault => 0x1B
  | .watch => 0x1C
  | .atomicSize => 0x1D
  | .lockState => 0x1E
  | .translationAbort => 0x1F
  | .barrierCount => 0x20
  | .phaserMode => 0x21
  | .phaserHandle => 0x22
  | .gambitNested => 0x23
  | .gambitForbidden => 0x24
  | .lserNested => 0x25
  | .xregDeadlock => 0x26
  | .capabilityInvalid => 0x27
  | .capabilityPermission => 0x28
  | .serialOrder => 0x29
  | .publishState => 0x2A
  | .copySlice => 0x2B
  | .graphNode => 0x2C
  | .launchBlockInvalid => 0x2D
  | .successorReserve => 0x2E
  | .stageRole => 0x2F
  | .formatDivergence => 0x30
  | .formatInvalid => 0x31
  | .tokenAbsent => 0x32
  | .slotNotClaimed => 0x33
  | .operandMap => 0x34
  | .convergenceSet => 0x35
  | .tileIndex => 0x36
  | .drainTarget => 0x37
  | .collectionHeader => 0x38
  | .collectionFrozen => 0x39
  | .cursorInvalid => 0x3A
  | .mergeLength => 0x3B
  | .knightStack => 0x3C
  | .knightNode => 0x3D
  | .breakpoint => 0x3E
  | .doubleFault => 0x3F

/-- The cause of a code; codes from 64 up do not occur (spec 20 R366). -/
def causeOfCode (n : Nat) : Cause :=
  ([.preempt, .illegalOpcode, .illegalHeader, .classMismatch, .reservedField, .misalignedPair, .extNotHeld, .privilege, .controlPlacement, .branchTarget, .stallUndersized, .waitMissing, .software, .fpException, .runTooLong, .clauseOverrun, .pageNotPresent, .pagePermission, .accessTableDeny, .scratchBounds, .vaultBounds, .misalignedAccess, .memtypeConflict, .uncorrectable, .regionWriter, .ownership, .bindConflict, .asyncCopyFault, .watch, .atomicSize, .lockState, .translationAbort, .barrierCount, .phaserMode, .phaserHandle, .gambitNested, .gambitForbidden, .lserNested, .xregDeadlock, .capabilityInvalid, .capabilityPermission, .serialOrder, .publishState, .copySlice, .graphNode, .launchBlockInvalid, .successorReserve, .stageRole, .formatDivergence, .formatInvalid, .tokenAbsent, .slotNotClaimed, .operandMap, .convergenceSet, .tileIndex, .drainTarget, .collectionHeader, .collectionFrozen, .cursorInvalid, .mergeLength, .knightStack, .knightNode, .breakpoint, .doubleFault] : List Cause).getD n .preempt

/-- What goes to the host of a partition. -/
def toHost (p : Nat) (x : HostMsg) (m : Mach) : Mach := { m with hostOut := m.hostOut ++ [(p, x)] }

/-- A channel of a partition. -/
def channelOf (m : Mach) (p k : Nat) : Channel := Store.get default (m.part p).channels k

/-- A channel has room for a message (spec 23 R419). -/
def channelRoom (m : Mach) (p k : Nat) : Bool := decide ((channelOf m p k).msgs.length < (channelOf m p k).cap)

/-- A message enters a channel. -/
def channelPut (p k : Nat) (x : Msg) (m : Mach) : Mach :=
  m.modP p fun q => { q with channels := Store.upd default q.channels k fun c => { c with msgs := c.msgs ++ [x] } }

/-- An event record is delivered: into channel 0, else into the backlog of 256, else dropped and counted (spec 23 R419). -/
def deliverRecord (p : Nat) (bs : List Byte) (m : Mach) : Mach :=
  if channelRoom m p 0 && (m.part p).backlog.isEmpty then channelPut p 0 ⟨3, 0, bs⟩ m
  else if (m.part p).backlog.length < 256 then m.modP p fun q => { q with backlog := q.backlog ++ [bs] }
  else m.modP p fun q => { q with dropped := if q.dropped < 0xFFFFFFFF then q.dropped + 1 else q.dropped }

/-- The event record of R32: block or node, cause, source, underlying cause. -/
def eventRecord (p : Nat) (addr : DWord) (c : Cause) (src under : Nat) (m : Mach) : Mach :=
  deliverRecord p (leBytes 8 addr.toNat ++ [BitVec.ofNat 8 (causeCode c), BitVec.ofNat 8 src, BitVec.ofNat 8 under, 0, 0, 0, 0, 0]) m

/-! ## Errors of memory -/

/-- The 768-byte row of a scratchpad byte (spec 10 R177, R190). -/
def rowOf (key : Nat) : Nat := key / 2 ^ 19 * 683 + key % 2 ^ 19 / 768

/-- The die of a location (spec 10 R190, log 25). -/
def dieOf : Loc → Nat
  | .hbm pa => Config.hbmDie pa
  | .vault c _ => c / 64
  | .scratch core _ => dieOfCore core

/-- The partitions that a location belongs to: those whose access tables reach it, or that own the cluster. -/
def partsOf (m : Mach) (loc : Loc) : List Nat :=
  (m.parts.filter fun e => e.2.made && match loc with
    | .hbm pa => m.grants.any fun g => decide (g.tgt = .hbm) && decide (g.part = e.1) && decide (g.base ≤ pa) && decide (pa < g.base + g.size)
    | .vault c _ => e.2.clusters.contains c
    | .scratch k _ => e.2.clusters.contains (clusterOfCore k)).map (·.1)

/-- A lasting error retires its frame, block or bank row; the host is told of a frame or block (spec 10 R190). -/
def retireLoc (loc : Loc) (m : Mach) : Mach :=
  let m1 := (match loc with
    | .hbm pa => { m with badFrames := m.badFrames ++ [pa / 65536] }
    | .vault c off => { m with badBlocks := m.badBlocks ++ [vaultKey c off / 4096] }
    | .scratch core a => { m with badRows := m.badRows ++ [rowOf (scratchKey core a)] })
  match loc with
  | .scratch _ _ => m1
  | _ => (partsOf m loc).foldl (fun acc p => toHost p (.retired loc) acc) { m1 with failing := m1.failing.filter fun f => decide (f ≠ loc) }

/-- MEMORY_READ_RETRY: the second read of a location that failed its check (spec 10 R190). -/
def memoryReadRetry (loc : Loc) (pass : Bool) (m : Mach) : Mach :=
  if m.failing.contains loc = false || (match loc with | .scratch c a => m.badRows.contains (rowOf (scratchKey c a)) | _ => false) then m
  else if pass then
    { m with failing := m.failing.filter fun f => decide (f ≠ loc), transients := Store.upd 0 m.transients (dieOf loc) (· + 1) }
  else retireLoc loc m

/-- Hardware reads or changes the granule of an HBM address within one step: a location of it whose check has failed is read again at once (spec 10 R190, R191,
log 7). -/
def retryHbm (pa : Nat) (m : Mach) : Mach :=
  (m.failing.filter fun f => match f with | .hbm a => decide (a / 32 = pa / 32) | _ => false).foldl
    (fun acc f => memoryReadRetry f (Config.retryPasses acc.freeCtr) acc.useFree) m

/-! ## Records and counts -/

/-- A write into the ranges of an initialised collection by another agent than its engine is denied (spec 13 R253). -/
def sealedAt (m : Mach) (pa : Nat) : Bool :=
  m.sealed_.any fun s => s.pieces.any fun r => decide (r.1 ≤ pa) && decide (pa < r.1 + r.2)

/-- A collection's sealed memory lies in a range of bytes (spec 13 R253). -/
def sealedRange (m : Mach) (pa n : Nat) : Bool := m.sealed_.any fun s => s.pieces.any fun r => decide (r.1 < pa + n) && decide (pa < r.1 + r.2)

/-- Where hardware writes some bytes of a granule for a context, or the fault: the granule is read first, and the frame may be retired by that (spec 10 R188, R191,
13 R253). -/
def hwWrite (k : Site) (p c va : Nat) (both : Bool) (m : Mach) : Except Cause Xlat × Mach :=
  let look := fun (m : Mach) => if both then translateBoth m k p c va else translateNormal m k p c va .write
  match look m with
  | .error e => (.error e, m)
  | .ok x =>
    let m1 := retryHbm x.pa m
    match look m1 with
    | .error e => (.error e, m1)
    | .ok x1 => (if sealedAt m1 x1.pa then .error .accessTableDeny else .ok x1, m1)

/-- Where the admission unit of a partition stands. -/
def partSite (m : Mach) (p : Nat) : Site := .die ((m.part p).clusters.headD 0 / 64)

/-- A trace record joins those of its context that are not yet written, when the context enables its kind (spec 21 R400, R401). -/
def traceRecord (w : Nat) (g : Nat) (kind : Nat) (pc : DWord) (lanes : Mask) (value : Word) (mark : Nat) (m : Mach) : Mach :=
  let x := m.wg w
  if (m.ctx x.part x.ctx).desc.traceEnables.getLsbD kind then
    m.modC x.part x.ctx fun c =>
      { c with records := c.records ++ [leBytes 8 m.cycle ++ leBytes 8 pc.toNat ++ leBytes 4 x.wgid ++ leBytes 4 lanes.toNat ++ leBytes 4 value.toNat
          ++ leBytes 2 (mark % 1024 + 1024 * (g % 16) + 16384 * (x.stage % 4)) ++ [BitVec.ofNat 8 kind, 0]] }
  else m

/-- A field of a launch block written by the hardware (spec 02 R21): a write that faults is dropped and reported with source 4. -/
def writeBlockField (p c : Nat) (block : DWord) (off : Nat) (v : Nat) (m : Mach) : Mach :=
  match hwWrite (partSite m p) p c (block.toNat + off) false m with
  | (.ok x, m1) => writePa m1 none none x.pa (leBytes 4 v)
  | (.error e, m1) => eventRecord p block .launchBlockInvalid 4 (causeCode e) m1

/-- A decrement of the predecessor count of a block by `n` (spec 03 R33, R34): the new count, or the cause of the refusal with the underlying cause; and the
machine. -/
def decrementCount (k : Site) (p c : Nat) (block : DWord) (n : Nat) (m : Mach) : Except (Cause × Nat) Nat × Mach :=
  match hwWrite k p c (block.toNat + 0x30) true m with
  | (.error e, m1) => (.error (e, causeCode e), m1)
  | (.ok x, m1) =>
    if paLocal x.pa = false then (.error (.graphNode, 0), m1)
    else
      let cnt := leNat (readPa m1 x.pa 4)
      if cnt < n then (.error (.graphNode, 0), m1) else (.ok (cnt - n), writePa m1 none none x.pa (leBytes 4 (cnt - n)))

/-- A launch that a decrement or a GNODE.arm has made ready waits for its queue entry, with the slot handed to it (spec 03 R35). -/
def makeReady (r : Readied) (m : Mach) : Mach := m.modP r.part fun q => { q with ready := q.ready ++ [r] }

/-- A queue slot returns to the pool (spec 03 R31). -/
def freeSlots (p n : Nat) (m : Mach) : Mach := m.modP p fun q => { q with pool := q.pool + n }

/-- A node freed: its generation rises, its entry is free again, and the copies lodged in it start, when its block has become ready, or are cancelled
(spec 03 R41, R42, 11 R207). -/
def freeNode (p k : Nat) (ready : Bool) (m : Mach) : Mach :=
  let gs := (Store.get default (m.part p).nodes k : Node).gated
  gs.foldl (fun acc c => if ready then openGate c acc else cancelGate c acc) (m.modP p fun q =>
    { q with nodes := Store.upd default q.nodes k fun e => { e with armed := false, gen := (e.gen + 1) % 65536, gated := [] },
             nodesFree := q.nodesFree + 1 })

/-- A live node of a handle, for a context (spec 03 R41). -/
def liveNode (m : Mach) (p c : Nat) (h : Word) : Option Nat :=
  let e := Store.get default (m.part p).nodes (fld h.toNat 0 12)
  if fld h.toNat 28 4 = 0 ∧ e.armed = true ∧ e.gen = fld h.toNat 12 16 ∧ e.ctx = c then some (fld h.toNat 0 12) else none

/-- The handle of an armed node (spec 03 R41). -/
def nodeHandle (m : Mach) (p k : Nat) : Word := BitVec.ofNat 32 ((Store.get default (m.part p).nodes k).gen * 4096 + k)

/-- The physical address of a block, through a context. -/
def blockPa (m : Mach) (p c : Nat) (block : DWord) : Option Nat :=
  match lookup m (partSite m p) p c block.toNat with
  | .ok x => some x.pa
  | .error _ => none

/-- The block a context names is the block another context names: by name, or by its place in memory (spec 03 R35). -/
def sameBlock (m : Mach) (p c : Nat) (a : DWord) (p' c' : Nat) (b : DWord) : Bool :=
  (decide (p = p') && decide (c = c') && decide (a = b)) ||
    (match blockPa m p c a, blockPa m p' c' b with | some x, some y => decide (x = y) | _, _ => false)

/-- The nodes that are armed on a block, of any context, by partition: they are freed when the block enters its queue (spec 03 R35, R42). -/
def nodesOn (m : Mach) (p c : Nat) (block : DWord) : List (Nat × Nat) :=
  m.parts.flatMap fun q => (q.2.nodes.filter fun e => e.2.armed && sameBlock m p c block q.1 e.2.ctx e.2.block).map fun e => (q.1, e.1)

/-- A decrement by a node, a copy, a pass or a Knight signal: at zero the block is ready with the node's slot and the node is free (spec 03 R33, R35);
refused decrements are reported with the source given. -/
def nodeDecrement (p k n src : Nat) (m : Mach) : Mach :=
  let e := Store.get default (m.part p).nodes k
  match decrementCount (partSite m p) p e.ctx e.block n m with
  | (.error (_, under), m1) => eventRecord p e.block .graphNode src under m1
  | (.ok cnt, m1) => if cnt = 0 then makeReady ⟨p, e.ctx, e.block, none, none⟩ (freeNode p k true m1) else m1

end Sys2Proof.Machine
end

