-- ==== Sys2Proof/Machine/EndWg.lean ====
section
/-! DEFINITION. The end of a workgroup: what is freed (spec 22 R407), and the ends without retirement (spec 20 R373, R374, 19 R359). -/

namespace Sys2Proof.Machine

/-! ## Where a group may go on -/

/-- The workgroup's groups may act: it runs and is not halted. -/
def wgActive (x : Wg) : Bool := decide (x.status = .running) && !x.halted

/-- The workgroup's groups may start a run: no halt, no pre-emption and no end of a step is to be honoured there (spec 06 R99). -/
def mayGoOn (x : Wg) : Bool := wgActive x && !x.haltReq && x.preempt.isNone && x.stepEvent.isNone

/-- A group may go on past a wait point, a held instruction or a resource hold (spec 06 R99); in trap mode a halt stops it at the next boundary of a run only (21
R395). -/
def mayPass (x : Wg) (y : Group) : Bool := wgActive x && x.preempt.isNone && (y.trapMode.isSome || (!x.haltReq && x.stepEvent.isNone))

/-! ## The lane-cycle record and the issue slots -/

/-- Lane-cycles of one class added to a bin's counter, which stops at its top (spec 21 R399). -/
def Bin.add (b : Bin) (k n : Nat) : Bin :=
  let v := b.counts.getD k 0 + n
  let cs := (List.range 5).map fun j => if j = k then (if v < 2 ^ 48 then v else 2 ^ 48 - 1) else b.counts.getD j 0
  { b with counts := cs, overflow := b.overflow || decide (2 ^ 48 ≤ v) }

/-- The first bin that holds an address (spec 21 R399). -/
def binOf (k : Core) (addr : DWord) : Option Nat :=
  (k.bins.find? fun e => decide (e.2.base.toNat ≤ addr.toNat) && decide (addr.toNat < e.2.limit.toNat)).map (·.1)

/-- Lane-cycles of a cycle, by class, counted in the totals and in the bin of the cycle's address (spec 21 R398, R399). -/
def countCycle (addr : Option DWord) (ns : List (Nat × Nat)) (k : Core) : Core :=
  let k1 := { k with totals := ns.foldl (fun b e => b.add e.1 e.2) k.totals }
  match addr.bind (binOf k) with
  | none => k1
  | some j => { k1 with bins := Store.upd default k1.bins j fun b => ns.foldl (fun b e => b.add e.1 e.2) b }

/-- The slot that a group holds. -/
def slotOf (m : Mach) (w g : Nat) : Option Nat :=
  ((m.core (m.wg w).core).slots.find? fun e => decide (e.2 = some (w, g))).map (·.1)

/-- The address of a run's next word: a header is no word that issues (spec 05 R66, 21 R389, R399). -/
def Run.next (r : Run) : DWord := if r.fetched then r.pc else r.hdrAddr + 4

/-- The address of the cycles in which a slot that holds a group's run issues nothing; none where it holds no run (spec 21 R399). -/
def slotAddr (m : Mach) (e : Option (Nat × Nat)) : Option DWord := e.bind fun h => (m.grp h.1 h.2).run.map Run.next

/-- The cycles of a slot up to the present one in which it has issued nothing are counted (spec 21 R398, R399). -/
def idleUntil (m : Mach) (slot : Nat) (c : Core) : Core :=
  let q := Store.get (0, 0) c.issued slot
  let c1 := countCycle (slotAddr m (Store.get none c.slots slot)) [(4, 32 * (m.cycle - q.1))] c
  { c1 with issued := Store.put c.issued slot (max q.1 m.cycle, q.2) }

/-- A group's issue slot is given up (spec 06 R98). -/
def dropSlot (w g : Nat) (m : Mach) : Mach :=
  let k := (m.wg w).core
  m.modK k fun c =>
    { (match slotOf m w g with | none => c | some j => idleUntil m j c) with slots := c.slots.map fun e => if e.2 = some (w, g) then (e.1, none) else e }

/-- A workgroup's groups hold no slot. -/
def dropSlots (w : Nat) (m : Mach) : Mach := (m.wg w).groupIds.foldl (fun acc g => dropSlot w g acc) m

/-- The held lock words of a group pass to their oldest waiters or are free, and the inheritances on them end (spec 20 R373, R386). -/
def dropLocks (w g : Nat) (m : Mach) : Mach :=
  let x := m.wg w
  (m.grp w g).locks.foldl (fun acc pa => endInherit x.part x.ctx pa (passLock x.core none pa acc)) (m.modG w g fun y => { y with locks := [] })

/-- A cursor closed: its entry is free and its generation rises (spec 14 R277). -/
def closeCursor (c : Cursor) : Cursor := { c with isOpen := false, gen := (c.gen + 1) % 4096 }

/-- The cursors of a workgroup in an engine lane are closed. -/
def ELane.dropCursors (w : Nat) (x : ELane) : ELane :=
  { x with cursors := x.cursors.map fun c => (c.1, if c.2.isOpen && decide (c.2.wg = w) then closeCursor c.2 else c.2) }

/-- The cursors of a workgroup are closed (spec 20 R374, 22 R407). -/
def dropCursors (w : Nat) (m : Mach) : Mach := { m with elanes := m.elanes.map fun e => (e.1, e.2.dropCursors w) }

/-- The slice reads or writes the scratchpad allocation of a workgroup, for a CPYM as its last receiver part (spec 11 R467). -/
def touchesScratch (w : Nat) (c : Copy) : Bool :=
  (decide (c.wg = w) && decide (c.srcSp = .scr)) ||
    (if c.multi.isSome then c.recvs.all fun r => r.stopped || decide (r.wg = w) else decide (c.wg = w) && decide (c.dstSp = .scr))

/-- The copy is lodged in a node. -/
def Copy.isLodged (c : Copy) : Bool :=
  match c.gate with
  | .lodged _ => true
  | _ => false

/-- The receiver parts of a workgroup stop. -/
def Copy.stopPart (w : Nat) (c : Copy) : Copy := { c with recvs := c.recvs.map fun r => { r with stopped := r.stopped || decide (r.wg = w) } }

/-- Slices of a list of copies land where they are. -/
def landSlices (ks : List Nat) (ss : Store Slice) : Store Slice :=
  ss.map fun e => (e.1, if ks.contains e.2.copy then { e.2 with status := .landed } else e.2)

/-- Copy parts in a freed allocation stop and count as landed; lodged copies of the workgroup are cancelled without a report (spec 11 R467, 20 R374). -/
def stopCopies (w : Nat) (m : Mach) : Mach :=
  let gone := (m.copies.filter fun e => decide (e.2.wg = w) && e.2.isLodged).map (·.1)
  let stop := (m.copies.filter fun e => touchesScratch w e.2).map (·.1)
  let ss := landSlices stop (m.slices.filter fun e => !(gone.contains e.2.copy))
  let cs := (m.copies.filter fun e => !(gone.contains e.1)).map fun e => (e.1, e.2.stopPart w)
  let m1 := { m with slices := ss, copies := cs }
  m1.modP (m.wg w).part fun p => { p with nodes := p.nodes.map fun e => (e.1, { e.2 with gated := e.2.gated.filter fun k => !(gone.contains k) }) }

/-- Passes of the workgroup that have not started are discarded (spec 22 R408), and so is a save of it that a bank holds (20 R374, R383). -/
def dropPasses (w : Nat) (m : Mach) : Mach :=
  { m with clusters := m.clusters.map fun e => (e.1, { e.2 with table := e.2.table.filter fun p => decide (p.wg ≠ w), bank := e.2.bank.filter fun v => decide (v ≠ w) }) }

/-- State of partition and engines that ends with a workgroup: locks, phaser memberships, cursors, copy parts, passes, open regions, ownership entries
(spec 11 R467, 20 R373, R374, 22 R407). -/
def dropShared (w : Nat) (m : Mach) : Mach :=
  let m1 := (m.wg w).groupIds.foldl (fun acc g => dropPhasers w g (dropLocks w g acc)) m
  let m2 := dropPasses w (stopCopies w (dropCursors w m1))
  { (m2.modP (m.wg w).part fun q => { q with owned := q.owned.filter fun o => decide (o.wg ≠ w) }) with
    regions := m2.regions.filter fun r => decide (r.wg ≠ w) }

/-- A command that runs to completion after its workgroup has ended: an access handed to the memory system, a message, a drain whose tile has been read and
that writes no scratchpad (spec 11 R467, 20 R373); accesses that wait for a turn are discarded (19 R359). -/
def outlives (held : Bool) (o : Out) : Bool :=
  (!o.shared || held) &&
    match o.kind with
    | .store _ _ _ _ _ | .rmw _ _ _ _ _ _ _ => true
    | .qsend _ _ _ bytes _ _ _ _ => bytes.isSome
    | .tdrain _ _ _ sp _ _ data _ => data.isSome && decide (sp ≠ .scr)
    | _ => false

/-- A group whose threads have ended, with the commands that still run. -/
def ghostGroup (held : Bool) (y : Group) : Group := { (default : Group) with outs := y.outs.filter (outlives held) }

/-- Collection commands and traversals of a workgroup that wait for its turn are discarded; where the turn is held they run (spec 19 R359, 20 R373). -/
def dropLodged (w : Nat) (held : Bool) (m : Mach) : Mach :=
  { m with
    elanes := m.elanes.map fun e => (e.1, { e.2 with queue := (e.2.queue.filter fun c => held || !(decide (c.wg = w) && c.shared)).map fun c =>
      if c.wg = w then { c with shared := false } else c })
    clusters := m.clusters.map fun e => (e.1, { e.2 with
      waiting := (e.2.waiting.filter fun c => held || !(decide (c.wg = w) && c.shared)).map fun c => if c.wg = w then { c with shared := false } else c
      kept := e.2.kept.filter fun k => decide (k.cmd.wg ≠ w) }) }

/-- Everything a workgroup holds is freed, but for what is parked (spec 22 R407): its slots, its reserves, its record; a record of the commands that
still run stays. -/
def freeWg (w : Nat) (m : Mach) : Mach :=
  let x := m.wg w
  let held := decide ((m.launch x.launch).turn = x.wgid * (m.block w).stages + x.stage)
  let m1 := dropShared w (dropSlots w (dropLodged w held m))
  let m2 := m1.modP x.part fun q => { q with pool := q.pool + x.succSlots + x.nodeSlots, nodesFree := q.nodesFree + x.nodeSlots }
  let m3 := (m2.modL x.launch fun l => { l with running := l.running - 1 }).modP x.part fun q =>
    { q with restore := q.restore.map fun e => (e.1, (e.2.map fun u => u.filter fun v => decide (v ≠ w)).filter fun u => !u.isEmpty) }
  let gs := (m3.wg w).groups.map fun e => (e.1, ghostGroup held e.2)
  { m3 with
    wgs := if gs.all fun e => e.2.outs.isEmpty then Store.del m3.wgs w
      else Store.put m3.wgs w { (default : Wg) with status := .ended, launch := x.launch, part := x.part, ctx := x.ctx, wgid := x.wgid, stage := x.stage, core := x.core, base := x.base, ngroups := x.ngroups, groups := gs }
    cur := if (m3.cur.map (·.1)) = some w then none else m3.cur }

/-- A killed, aborted or cut launch whose last workgroup has ended: state 4, and the acknowledgement of a kill command (spec 03 R29, 20 R373, R374). -/
def settleLaunch (k : Nat) (m : Mach) : Mach :=
  let l := m.launch k
  if l.live && (l.killed || l.cut) && decide (l.running = 0) && !l.inQueue then
    let m1 := writeBlockField l.part l.ctx l.addr 0x50 4 m
    let m2 := if l.killed then toHost l.part (.killed l.ctx l.addr) m1 else m1
    m2.modL k fun l => { l with live := false }
  else m

/-- The workgroup stands on a core and can still be saved (spec 22 R406). -/
def onCore (x : Wg) : Bool := decide (x.status = .running) || decide (x.status = .admitted)

/-- Commands of pre-emption and swap-out whose workgroups have all left their cores are acknowledged (spec 23 R416). -/
def settleAcks (p : Nat) (m : Mach) : Mach :=
  let ls := (m.part p).waitAcks.map fun ws => ws.filter fun w => onCore (m.wg w)
  (ls.filter (·.isEmpty)).foldl (fun acc _ => toHost p .ack acc) (m.modP p fun q => { q with waitAcks := ls.filter fun ws => !ws.isEmpty })

/-- A workgroup ends without retirement (spec 20 R373, R374): no release, no successor decremented, reserved slots released. -/
def endAborted (w : Nat) (m : Mach) : Mach := settleAcks (m.wg w).part (settleLaunch (m.wg w).launch (freeWg w m))

/-- A launch leaves its queue and releases its slot (spec 20 R374). -/
def leaveQueue (k : Nat) (m : Mach) : Mach :=
  let l := m.launch k
  if l.inQueue then
    ((m.modP l.part fun q => { q with queues := Store.upd default q.queues l.queue fun ks => ks.filter fun j => decide (j ≠ k), pool := q.pool + 1 }).modL k
      fun l => { l with inQueue := false })
  else m

/-- A workgroup that a kill ends at once: halted, standing at a wait point, a held instruction or a resource hold, in trap mode, saved, or between
two runs (spec 19 R359, 20 R374). -/
def killableNow (x : Wg) : Bool :=
  decide (x.status = .saved) || x.halted || decide (x.status = .admitted) || decide (x.status = .retiring) ||
    x.groupIds.all fun g =>
      let y : Group := Store.get default x.groups g
      y.run.isNone || y.held.isSome || y.trapMode.isSome || (y.run.map (·.waiting)).getD false

/-- A kill of a launch: it leaves its queue, its workgroups that can end now end, the others at their next honour point (spec 20 R374). -/
def killLaunch (k : Nat) (m : Mach) : Mach :=
  let m1 := (leaveQueue k m).modL k fun l => { l with killed := true }
  let ws := m1.wgIds.filter fun w => decide ((m1.wg w).launch = k) && decide ((m1.wg w).status ≠ .ended)
  settleLaunch k (ws.foldl (fun acc w => if killableNow (m1.wg w) then endAborted w acc else requestSave .full w acc) m1)

/-- A double fault (spec 20 R373): the workgroup ends at once, the host is told; a deterministic launch is killed (R359). -/
def doubleFault (w g : Nat) (c : Cause) (pc info : DWord) (m : Mach) : Mach :=
  let x := m.wg w
  let k := x.launch
  let orig : Cause := match (m.grp w g).trapMode with | some _ => causeOfCode (m.grp w g).trapCause | none => c
  let pc' := match (m.grp w g).trapMode with | some _ => (m.grp w g).trapPc | none => pc
  let info' := match (m.grp w g).trapMode with | some _ => (m.grp w g).trapInfo | none => info
  let m1 := toHost x.part (.doubleFault w orig pc' info') m
  let m2 := if (m1.launch k).block.det then m1 else m1.modL k fun l => { l with cut := true }
  let m3 := endAborted w m2
  if (m1.launch k).block.det then killLaunch k m3 else m3

end Sys2Proof.Machine
end

