-- ==== Sys2Proof/Machine/Places.lean ====
section
/-! DEFINITION. Where a lane's access goes, the pending stores of a core, and what hardware reads and writes for a group in the order of its accesses (spec 10
R175 to R184, R187, 11 R215, 13 R253, 16 R300, R307, 20 R370, R375). -/

namespace Sys2Proof.Machine

/-! ## Places -/

/-- Where a lane's bytes lie: in a vault or in global memory, the key of the first byte, the memory type. -/
structure Place where
  vault : Bool
  key : Nat
  typ : Nat
  deriving DecidableEq, Repr, Inhabited

/-- An address seen through the shadow buffers of a space: the front half; a direct access to the hidden half is PUBLISH_STATE (spec 11 R215). -/
def shadowMap (ss : Store Shadow) (vault : Bool) (a : Nat) : Except Cause Nat :=
  match ss.find? fun e => decide (e.2.vault = vault) && decide (e.2.base ≤ a) && decide (a < e.2.base + 2 * e.2.size) with
  | none => .ok a
  | some e => if a < e.2.base + e.2.size then .ok (if e.2.upper then a + e.2.size else a) else .error .publishState

/-- The vault buffers of a partition: they redirect every agent's access (spec 11 R215). -/
def vaultShadows (m : Mach) (p : Nat) : Store Shadow :=
  ((m.wgIds.filter fun w => decide ((m.wg w).part = p)).flatMap fun w => (m.wg w).shadows).filter fun e => e.2.vault

/-- A vault byte by its key: the vault's access table, then retired blocks (spec 10 R179, R190). -/
def vaultByte (m : Mach) (p : Nat) (rt : Right) (key : Nat) : Except Cause Place :=
  if vaultGranted m p (key / 2 ^ 22) rt = false then .error .accessTableDeny
  else if blockBad m key then .error .uncorrectable
  else .ok ⟨true, key, 0⟩

/-- The key of a vault byte through the buffers of the partition. -/
def vaultPlace (m : Mach) (p a : Nat) (rt : Right) : Except Cause Place :=
  match shadowMap (vaultShadows m p) true a with
  | .error e => .error e
  | .ok a' =>
    match vaultAddr m p a' with
    | none => .error .vaultBounds
    | some k => vaultByte m p rt k

/-- The key of a scratchpad byte of a workgroup's allocation through its buffers. -/
def scratchPlace (m : Mach) (w o : Nat) : Except Cause Nat :=
  match shadowMap (m.wg w).shadows false o with
  | .error e => .error e
  | .ok o' => .ok (scratchAddr (m.wg w) o')

/-- The right an access needs: writes and atomics need write (spec 10 R182, R184). -/
def kindRight : OutKind → Right
  | .store _ _ _ _ _ | .rmw _ _ _ _ _ _ _ | .rel _ _ | .acq _ _ _ _ _ _ => .write
  | _ => .read

/-- Accesses that need normal pages: atomics and lock words (spec 10 R188, 18 R334). -/
def needsNormal : OutKind → Bool
  | .rmw _ _ _ _ _ _ _ | .rel _ _ | .acq _ _ _ _ _ _ => true
  | _ => false

/-- A load of a Gambit region needs a normal page (spec 18 R344). -/
def regionLoad (k : OutKind) (a : LaneAcc) : Bool :=
  match k with
  | .load _ _ _ _ _ _ _ => a.region.isSome
  | _ => false

/-- The space of a lane's access. -/
def kindSpace : OutKind → MemSpace
  | .load sp _ _ _ _ _ _ | .store sp _ _ _ _ => sp
  | _ => .global

/-- Bytes of a lane's access. -/
def kindBytes : OutKind → Nat
  | .load _ n _ _ _ _ _ | .store _ n _ _ _ | .rmw _ n _ _ _ _ _ | .waitw n _ _ _ => n
  | .rel _ _ | .acq _ _ _ _ _ _ => 8
  | _ => 0

/-- The lanes' accesses; a lock word is the access of the group's issue. -/
def kindLanes (o : Out) : List LaneAcc :=
  match o.kind with
  | .load _ _ _ _ _ _ ls | .store _ _ _ _ ls | .rmw _ _ _ _ _ _ ls | .waitw _ _ _ ls => ls
  | .rel a _ | .acq _ _ a _ _ _ => [⟨lowLaneD o.irec.lanes, a, 0, 0, none, o.shared⟩]
  | _ => []

/-- Where a thread of a workgroup stands, for translations. -/
def wgSite (m : Mach) (w : Nat) : Site := .core (m.wg w).core

/-- Where a lane's access goes, or the fault it meets: of the causes that one lane meets, the memory type is checked last (spec 10 R184, R188, R190, 13 R253,
log 97). -/
def accPlace (m : Mach) (w : Nat) (k : OutKind) (a : LaneAcc) : Except Cause Place :=
  match kindSpace k with
  | .vault => vaultPlace m (m.wg w).part a.addr (kindRight k)
  | .global =>
    match translate m (wgSite m w) (m.wg w).part (m.wg w).ctx a.addr (kindRight k) with
    | .error e => .error e
    | .ok x =>
      if kindRight k = .write ∧ sealedAt m x.pa = true then .error .accessTableDeny
      else if ((needsNormal k || regionLoad k a) && decide (x.typ ≠ 0)) || (decide (kindBytes k = 16) && decide (2 ≤ x.typ)) then .error .memtypeConflict
      else .ok ⟨false, x.pa, x.typ⟩

/-! ## The commands of a core -/

/-- The outstanding commands of the groups of a core (spec 16 R307). -/
def coreOuts (m : Mach) (core : Nat) : List CoreOut :=
  (m.wgIds.filter fun w => decide ((m.wg w).core = core) && decide ((m.wg w).status ≠ .saved)).flatMap fun w =>
    (m.wg w).groupIds.flatMap fun g => (m.grp w g).outs.map fun o => ⟨w, g, o⟩

/-- The bytes a lane's access covers, where it can be performed now. -/
def placeOf (m : Mach) (e : CoreOut) (a : LaneAcc) : Option Place :=
  match accPlace m e.w e.o.kind a with
  | .ok p => some p
  | .error _ => none

/-- A plain or ordered store. -/
def isStoreK : OutKind → Bool
  | .store _ _ _ _ _ => true
  | _ => false

/-- A pending store that can be answered from: it has not faulted, and no lane of it is about to (spec 16 R307). -/
def answers (m : Mach) (e : CoreOut) : Bool := e.o.fail.isNone && isStoreK e.o.kind && (kindLanes e.o).all fun a => (placeOf m e a).isSome

/-- The byte that a pending store of a list writes at a place, the latest first, the highest lane first (spec 16 R307, log 117); `id` bounds
the stores. -/
def forwarded (m : Mach) (outs : List CoreOut) (id : Nat) (vault : Bool) (key : Nat) : Option Byte :=
  outs.foldl (fun acc e =>
    if decide (e.o.id < id) && answers m e then
      (kindLanes e.o).foldl (fun acc a =>
        match placeOf m e a with
        | some p => if p.vault = vault ∧ p.key ≤ key ∧ key < p.key + kindBytes e.o.kind then some (a.val.extractLsb' (8 * (key - p.key)) 8) else acc
        | none => acc) acc
    else acc) none

/-- The commands in issue order. -/
def sortOuts (es : List CoreOut) : List CoreOut := sortBy (fun a b => decide (a.o.id ≤ b.o.id)) es

/-- A byte held in the core's write-combining lines (spec 10 R187). -/
def combined (m : Mach) (core pa : Nat) : Option Byte :=
  ((Store.get [] (m.core core).combine (pa / 128)).find? fun e => decide (e.1 = pa % 128)).map (·.2)

/-! ## Hardware acting for a group -/

/-- Bytes that hardware reads for a group: a pending store of the core is answered first, then a write-combining line, then the home (spec 16 R300). -/
def readOwn (m : Mach) (core pa n : Nat) : List Byte :=
  let outs := sortOuts (coreOuts m core)
  let home := readPa m pa n
  (List.range n).map fun k =>
    match forwarded m outs m.nextCmd false (pa + k), combined m core (pa + k) with
    | some b, _ => b
    | none, some b => b
    | none, none => home.getD k 0

/-- What a pending store still has to write after a later write of hardware to some of its bytes: nothing where all are covered (spec 16 R300). -/
def overwriteLane (m : Mach) (e : CoreOut) (pa : Nat) (bs : List Byte) (a : LaneAcc) : Option LaneAcc :=
  match placeOf m e a with
  | none => some a
  | some p =>
    let n := kindBytes e.o.kind
    if p.vault then some a
    else if pa ≤ p.key ∧ p.key + n ≤ pa + bs.length then none
    else
      some { a with val := BitVec.ofNat 128 (leNat ((List.range n).map fun k =>
        if pa ≤ p.key + k ∧ p.key + k < pa + bs.length then bs.getD (p.key + k - pa) 0 else a.val.extractLsb' (8 * k) 8)) }

/-- A pending store after a later write of hardware. -/
def overwriteOut (m : Mach) (w g pa : Nat) (bs : List Byte) (o : Out) : Out :=
  match o.kind, o.fail with
  | .store sp n ord sc lanes, none => { o with kind := .store sp n ord sc (lanes.filterMap (overwriteLane m ⟨w, g, o⟩ pa bs)) }
  | _, _ => o

/-- Bytes that hardware writes for a group: later in each byte's order than what the core's threads have stored, and seen by its hidden read cache (spec
10 R189, 16 R300, log 38). -/
def writeOwn (m : Mach) (core pa : Nat) (bs : List Byte) : Mach :=
  let wgs := m.wgs.map fun e =>
    if e.2.core = core ∧ e.2.status ≠ .saved then
      (e.1, { e.2 with groups := e.2.groups.map fun f => (f.1, { f.2 with outs := f.2.outs.map (overwriteOut m e.1 f.1 pa bs) }) })
    else e
  let m1 := { m with wgs := wgs }.modK core fun c =>
    { c with combine := c.combine.map fun (e : Nat × List (Nat × Byte)) => (e.1, e.2.filter fun b => decide (e.1 * 128 + b.1 < pa) || decide (pa + bs.length ≤ e.1 * 128 + b.1)) }
  writePa m1 (some core) none pa bs

end Sys2Proof.Machine
end

