-- ==== Sys2Proof/Machine/Ops.lean ====
section
/-! DEFINITION. What every instruction shares: landing of fixed-latency results, the checks of issue, the charge, the frontier, the end of a word, a
clause and a run; taking a trap and returning from one (spec 05 R65 to R77, R87, 06 R96 to R104, 20 R366 to R376). -/

namespace Sys2Proof.Machine

/-! ## Time and tempo -/

/-- The register that is never charged (spec 02 R24). -/
def unbounded : Word := 0x7FFFFFFF

/-- A budget register charged by `n`; it stops at the lowest number (spec 02 R24, R25). -/
def chargeReg (v : Word) (n : Nat) : Word :=
  if v = unbounded then v else if v.toInt - n < -(2 ^ 31) then 0x80000000 else BitVec.ofInt 32 (v.toInt - n)

/-- A budget register is at or below zero (spec 02 R25). -/
def spent (v : Word) : Bool := decide (v.toInt ≤ 0)

/-- After a charge: a yield becomes pending at zero, a full pre-emption is requested below minus the overdraft (spec 20 R376, R379). -/
def afterCharge (now : Nat) (lim : Word) (x : Wg) : Wg :=
  let x1 := if (spent x.tempi || spent x.tempm) && !x.yieldPending then { x with yieldPending := true, yieldWg := false } else x
  if decide (x.tempi.toInt < -(lim.toNat : Int)) || decide (x.tempm.toInt < -(lim.toNat : Int)) then
    { x1 with preempt := some (x1.preempt.getD .overdraft), askedAt := if x1.preempt.isNone then now else x1.askedAt }
  else x1

/-- A charge of `i` to %tempi and `s` sectors to %tempm; none in trap mode (spec 05 R87). -/
def charge (w g i s : Nat) (m : Mach) : Mach :=
  if (m.grp w g).trapMode.isSome then m
  else
    let lim := (m.block w).overdraft
    m.modW w fun x => afterCharge m.cycle lim { x with tempi := chargeReg x.tempi i, tempm := chargeReg x.tempm s }

/-! ## The frontier -/

/-- Lanes join the entry at an address, or form a new one (spec 06 R101, R102). -/
def joinEntry (fr : List Entry) (addr : DWord) (prio : Nat) (ls : Mask) : List Entry :=
  if ls = 0 then fr
  else if fr.any fun e => decide (e.addr = addr) then fr.map fun e => if e.addr = addr then { e with lanes := e.lanes ||| ls } else e
  else fr ++ [⟨addr, prio, ls⟩]

/-- Lanes of a group stand at an address, whose header gives the priority (spec 05 R66, 06 R102). -/
def standAt (w g : Nat) (addr : DWord) (ls : Mask) (m : Mach) : Mach :=
  let x := m.wg w
  let pr := prioAt m (wgSite m w) x.part x.ctx addr
  m.modG w g fun y => { y with frontier := joinEntry y.frontier addr pr ls }

/-- The first of two entries is issued before the second (spec 06 R101). -/
def entryBefore (a b : Entry) : Bool := decide (b.prio < a.prio) || (decide (a.prio = b.prio) && decide (a.addr.toNat < b.addr.toNat))

/-- The entry that is issued next among a list (spec 06 R101). -/
def bestEntry : List Entry → Option Entry
  | [] => none
  | e :: es => match bestEntry es with
    | none => some e
    | some f => if entryBefore f e then some f else some e

/-- The lanes that moved in a run. -/
def Run.moved (r : Run) : Mask := r.moves.foldl (fun acc x => acc ||| x.2) 0

/-- The end of a run (spec 05 R67, 06 R102): moved lanes stand at their targets, the others at the address past the clause; the slot is given up. -/
def endRun (w g : Nat) (m : Mach) : Mach :=
  match (m.grp w g).run with
  | none => m
  | some r =>
    let live := (m.grp w g).live
    let m1 := standAt w g r.pc (r.lanes &&& live &&& ~~~r.moved) m
    let m2 := r.moves.foldl (fun acc x => standAt w g x.1 (x.2 &&& live) acc) m1
    (dropSlot w g m2).modG w g fun y => { y with run := none, gaveUp := m.cycle }

/-- A word and its literal have issued: the next word, the next clause of the run, or the run's end (spec 05 R67, R75). -/
def finishWord (w g n st : Nat) (m : Mach) : Mach :=
  match (m.grp w g).run with
  | none => m
  | some r =>
    let r1 := { r with pc := r.pc + BitVec.ofNat 64 (4 * n), rest := r.rest.drop n, started := r.started + n, noMatch := false, goes := false }
    let m1 := m.modG w g fun y => { y with run := some r1, ready := m.cycle + st + 1 }
    match r1.rest with
    | _ :: _ => m1
    | [] =>
      let x := m.wg w
      if decide (bits r.hdr 27 1 = 1) || yieldAt m (wgSite m w) x.part x.ctx r1.pc then endRun w g m1
      else m1.modG w g fun y => { y with run := some { r1 with fetched := false, hdrAddr := r1.pc } }

/-! ## Taking a trap and returning -/

/-- The core's index among the partition's cores (spec 04 R52). -/
def logicalCore (m : Mach) (w : Nat) : Nat :=
  let x := m.wg w
  4 * ((m.part x.part).clusters.findIdx fun c => decide (c = clusterOfCore x.core)) + x.core % 4

/-- The address of a group's frame in the trap area (spec 20 R368). -/
def frameAddr (m : Mach) (w g : Nat) : DWord :=
  let x := m.wg w
  (m.ctx x.part x.ctx).desc.trapArea + BitVec.ofNat 64 (1024 * (48 * logicalCore m w + ((m.grp w g).slot - 1)))

/-- The 64 bytes of an issue record with its cause (spec 20 R369). -/
def recordBytes (r : IssueRec) (f : Fail) (wait : Nat) : List Byte :=
  leBytes 8 r.pc.toNat ++ leBytes 4 f.lanes.toNat ++ leBytes 4 r.lanes.toNat ++ leBytes 4 r.word.toNat ++ leBytes 4 r.lit.toNat
    ++ [BitVec.ofNat 8 (causeCode f.cause), BitVec.ofNat 8 wait, 0, 0, 0, 0, 0, 0] ++ leBytes 8 f.addr.toNat ++ leBytes 8 r.a.toNat
    ++ leBytes 8 r.b.toNat ++ leBytes 8 r.d.toNat

/-- What a trap is about: the issue record, the fault (cause, lanes, address, %trapinfo), the WAIT bit (0xFF if precise), the resume point, the trap
set, and how TRAPRET goes on (spec 20 R369 to R371). -/
structure TrapArgs where
  irec : IssueRec
  fail : Fail
  wait : Nat
  pc : DWord
  lanes : Mask
  resume : Resume
  replay : Option Nat
  deriving DecidableEq, Repr, Inhabited

/-- The retry record and the status word of an abort (spec 18 R343, R347, R349). -/
def abortStatus (aborts code cause : Nat) : Word :=
  BitVec.ofNat 32 ((if 8 ≤ aborts then 0x10000 else 0) + 256 * (code % 256) + 16 * (aborts % 16) + cause % 16)

/-- What an ended region leaves in an outstanding command of its lane: a commit no longer asked for, a load that is no longer followed. -/
def dropLane (l : Nat) (o : Out) : Option Out :=
  match o.kind with
  | .gcommit ls => if ls.getLsbD l then (if ls = maskOf [l] then none else some { o with kind := .gcommit (ls &&& ~~~(maskOf [l])) }) else some o
  | .load sp n sext dst ord sc lanes =>
    some { o with kind := .load sp n sext dst ord sc (lanes.map fun a => if a.lane = l then { a with region := none } else a) }
  | _ => some o

/-- An open region ends by an abort: the abort count rises, the status register receives the status word, the slot is free (spec 18 R341, R347). -/
def abortRegion (r : Region) (cause code : Nat) (m0 : Mach) : Mach :=
  let m := allLanded r.wg r.grp m0
  let old := Store.get default (m.grp r.wg r.grp).retries r.lane
  let n := min 15 (old.aborts + 1)
  { (m.modG r.wg r.grp fun y =>
      { (y.setReg r.status.toNat r.lane (abortStatus n code cause)) with
        retries := Store.put y.retries r.lane ⟨r.fallback, r.stamp, n⟩
        outs := y.outs.filterMap (dropLane r.lane) }) with
    regions := m.regions.filter fun q => decide ((q.wg, q.grp, q.lane) ≠ (r.wg, r.grp, r.lane)) }

/-- The open regions of lanes of a group. -/
def regionsOf (m : Mach) (w g : Nat) (ls : Mask) : List Region :=
  m.regions.filter fun r => decide (r.wg = w) && decide (r.grp = g) && ls.getLsbD r.lane

/-- A memory fault, for the cause of a region's abort (spec 18 R349). -/
def memoryCause : Cause → Bool
  | .pageNotPresent | .pagePermission | .accessTableDeny | .misalignedAccess | .memtypeConflict | .uncorrectable | .translationAbort
  | .regionWriter | .ownership | .atomicSize | .scratchBounds | .vaultBounds => true
  | _ => false

/-- Lanes that take a trap abort their open regions, and the trap is taken with %trappc at the fallback; the faulting access is not replayed
(spec 18 R349). -/
def trapRegions (w g : Nat) (t : TrapArgs) (m : Mach) : TrapArgs × Mach :=
  match regionsOf m w g t.lanes with
  | [] => (t, m)
  | r :: rs =>
    let m1 := match t.replay with | some id => dropOut w g id m | none => m
    ({ t with pc := r.fallback, resume := .stand, replay := none },
      (r :: rs).foldl (fun acc q => abortRegion q (if memoryCause t.fail.cause then 5 else 7) 0 acc) m1)

/-- The granules of a range whose check has failed are read again at once (spec 10 R190, 20 R370, log 7). -/
def retryRange (pa n : Nat) (m : Mach) : Mach := (List.range ((n + 31) / 32)).foldl (fun acc k => retryHbm (pa + 32 * k) acc) m

/-- Code that hardware reads within a step: a word whose check has failed is read again at once (spec 05 R65, 10 R190, log 7). -/
def retryCode (k : Site) (p c va : Nat) (m : Mach) : Mach :=
  match translate m k p c va .fetch with
  | .ok x => retryHbm x.pa m
  | .error _ => m

/-- The group's frame where it can be written or read, once its granules have been read (spec 10 R188, R191, 13 R253, 20 R368). -/
def frameAt (w : Nat) (f : DWord) (rt : Right) (m : Mach) : Except Cause Xlat × Mach :=
  let look := fun (m : Mach) => translateNormal m (wgSite m w) (m.wg w).part (m.wg w).ctx f.toNat rt
  match look m with
  | .error e => (.error e, m)
  | .ok fr =>
    let m1 := retryRange fr.pa 512 m
    match look m1 with
    | .error e => (.error e, m1)
    | .ok fr1 => (if decide (rt = .write) && sealedRange m1 fr1.pa 512 then .error .accessTableDeny else .ok fr1, m1)

/-- The PC of a lane whose group takes a trap, for its trace record (spec 21 R389, R401). -/
def trapPcOf (y : Group) (t : TrapArgs) : DWord :=
  match t.resume, y.run with
  | .wait, some r => r.next
  | .run, _ => t.irec.pc
  | _, _ => t.pc

/-- The event that a trap is for a step in progress: a watchpoint's match comes before the entry (spec 21 R397). -/
def trapEvent (c : Cause) : Nat := if c = .watch then 3 else 2

/-- The entry of a trap, the handler's address and the frame's place known: a double fault where the group is in trap mode, has no valid handler or the frame
cannot be written; else the frame is written, v30:v31 name it, and the trap set stands at the handler in trap mode with everything else of the group held aside
(spec 20 R370). -/
def enterAt (w g : Nat) (t t0 : TrapArgs) (h f : DWord) (place : Except Cause Xlat) (m : Mach) : Mach :=
  let x := m.wg w
  let y := m.grp w g
  match decide (y.trapMode.isSome ∨ h = 0), headerAt m (wgSite m w) x.part x.ctx h, place with
  | false, .ok hd, .ok fr =>
    let m1 := writeOwn m x.core fr.pa (recordBytes t.irec t.fail t.wait ++ List.replicate 192 0)
    let m2 := (lanesOf t.lanes).foldl (fun acc l => writeOwn acc x.core (fr.pa + 0x100 + 8 * l) (leBytes 8 (y.pair 30 l).toNat)) m1
    let m3 := m2.modG w g fun z =>
      let z1 := (lanesOf t.lanes).foldl (fun a l => a.setRegs 30 2 l f.toNat) z
      { z1 with
        trapCause := causeCode t.fail.cause
        trapPc := t.pc
        trapInfo := t.fail.info
        trapMode := some ⟨t.lanes, y.frontier, y.run, t.pc, t.resume, t.replay, f, m.nextCmd⟩
        frontier := [⟨h, (bits hd 16 8).toNat, t.lanes⟩]
        run := none
        held := none
        gaveUp := m.cycle }
    traceRecord w g 1 (trapPcOf y t0) t.lanes (BitVec.ofNat 32 (causeCode t.fail.cause)) 0
      (m3.useFree.modW w fun z => { z with stepEvent := if z.stepLeft.isSome then some (z.stepEvent.getD (trapEvent t.fail.cause)) else z.stepEvent })
  | _, _, _ => doubleFault w g t.fail.cause t.pc t.fail.info m

/-- TAKING A TRAP (spec 20 R370): what has been issued lands, the slot is given up, regions of the trap set abort, and the handler is entered. -/
def enterTrap (w g : Nat) (t0 : TrapArgs) (m0 : Mach) : Mach :=
  let e := trapRegions w g t0 (dropSlot w g (allLanded w g m0))
  let x := e.2.wg w
  let h := (e.2.ctx x.part x.ctx).desc.handler
  let f := frameAddr e.2 w g
  let r := frameAt w f .write (retryCode (wgSite e.2 w) x.part x.ctx h.toNat e.2)
  enterAt w g e.1 t0 h f r.1 r.2

/-- Lane `l`'s v30:v31 from the frame (spec 20 R375). -/
def restoreLinks (core pa : Nat) (ls : Mask) (m : Mach) (y : Group) : Group :=
  (lanesOf ls).foldl (fun a l => a.setRegs 30 2 l (leNat (readOwn m core (pa + 0x100 + 8 * l) 8))) y

/-- A lane's collection command as its engine lane holds it (spec 14 R266). -/
def collCmd (m : Mach) (w g : Nat) (o : Out) (op : CollOp) (a : CollLane) : CollCmd :=
  let x := m.wg w
  ⟨w, g, o.id, x.part, x.ctx, x.core, (m.block w).det, op, o.shared, a⟩

/-- Lanes' commands enter the queues of their engine lanes, in ascending lane order (spec 14 R266). -/
def queueColl (w g : Nat) (o : Out) (op : CollOp) (ls : List CollLane) (m : Mach) : Mach :=
  ls.foldl (fun acc a => { acc with elanes := Store.upd default acc.elanes a.route fun e => { e with queue := e.queue ++ [collCmd acc w g o op a] } }) m

/-- The mark of a command whose engine lane is not known yet. -/
def unrouted : Nat := 512

/-- The lanes of a record's mask hand their commands over again, each to the engine lane that its header then names; the other faults stay due (spec 14 R266,
R269). -/
def replayColl (w g : Nat) (o : Out) (op : CollOp) (d a : Reg) (lanes : List CollLane) (faults : List CollFault) (ls : Mask) (m : Mach) : Mach :=
  let again := (lanes.map fun e => if ls.getLsbD e.lane then { e with deny := none, again := true, route := unrouted } else e)
  let todo := (again.filter fun e => ls.getLsbD e.lane).map (·.lane)
  setOut w g o.id (.coll op d a again todo (faults.filter fun f => !(ls.getLsbD f.lane)))
    (m.modG w g fun y => { y with outs := y.outs.map fun p => if p.id = o.id then { p with fail := none } else p })

/-- A traversal is handed to the cluster's Knight (spec 15 R295). -/
def queueKnight (c : KCmd) (core : Nat) (m : Mach) : Mach :=
  { m with clusters := Store.upd default m.clusters (clusterOfCore core) fun k => { k with waiting := k.waiting ++ [c] } }

/-- A KTRAV after its fault: the fault of a write that followed is due next; else the traversal goes to the Knight again (spec 15 R296). -/
def replayKnight (w g : Nat) (o : Out) (dst : Reg) (lanes : Mask) (desc queue : DWord) (self resume : Bool) (n : Nat) (later : List Fail) (m : Mach) : Mach :=
  let x := m.wg w
  let put := fun (f : Option Fail) (fs : List Fail) => m.modG w g fun y => { y with outs := y.outs.map fun p =>
    if p.id = o.id then { p with fail := f, kind := .ktrav dst lanes desc queue self resume n fs } else p }
  match later with
  | f :: fs => put (some f) fs
  | [] => queueKnight ⟨w, g, o.id, x.part, x.ctx, desc, queue, self, resume, o.shared, none, true, n⟩ x.core (put none [])

/-- What the Knight keeps of a command is discarded (spec 15 R296). -/
def dropKept (id : Nat) (m : Mach) : Mach :=
  { m with clusters := m.clusters.map fun e => (e.1, { e.2 with kept := e.2.kept.filter fun k => decide (k.cmd.id ≠ id) }) }

/-- The faults after which an unchanged %trappc replays a command: a decrement is never retried; a vault access that met a hidden half is an access like any other
(spec 03 R34, 10 R193, 11 R215). -/
def replayable (k : OutKind) (c : Cause) : Bool :=
  match k with
  | .cmd (.gnodeSig _ _) _ _ => false
  | .publish _ _ => memoryCause c
  | _ => memoryCause c || decide (c = .publishState)

/-- After TRAPRET the command whose deferred fault was taken is replayed, where %trappc is unchanged and its chapter gives a replay; a slice of a copy that
stopped at a sector goes on; any other is no longer outstanding (spec 10 R193, 11 R205, R218, 12 R228, R244, 14 R269, 15 R296, 20 R371). -/
def replayOut (w g id : Nat) (same : Bool) (m : Mach) : Mach :=
  match (m.grp w g).outs.find? fun o => decide (o.id = id) with
  | none => m
  | some o =>
    match o.fail with
    | none => m
    | some f =>
      let clear := m.modG w g fun y => { y with outs := y.outs.map fun p => if p.id = id then { p with fail := none } else p }
      match o.kind with
      | .copy _ k => if f.cause = .asyncCopyFault then clear else dropOut w g id (m.modSlice k fun s => { s with status := .landed })
      | .coll op d a lanes _ faults => if same then replayColl w g o op d a lanes faults f.lanes m else dropOut w g id m
      | .ktrav dst ls desc q self resume n later => if same then replayKnight w g o dst ls desc q self resume n later m else dropOut w g id (dropKept id m)
      | _ => if same && replayable o.kind f.cause then clear else dropOut w g id m

/-- The end of trap mode: the cause is kept, the entries held aside return to the frontier (spec 20 R375). -/
def leaveTrap (t : TrapMode) (y : Group) : Group :=
  { y with
    trapMode := none
    run := none
    frontier := t.aside.foldl (fun fr e => joinEntry fr e.addr e.prio (e.lanes &&& y.live)) [] }

/-- RETURNING FROM A TRAP (spec 20 R375, R371), for a group in trap mode whose run `r` issues TRAPRET: a double fault where a live lane of the trap
set is not active, the frame cannot be read or a changed %trappc is no header; else the links return, and the lanes go on where the trap was taken
or stand at the new address; the word's stall holds the group's next issue (05 R75). -/
def returnTrap (w g st : Nat) (mi : Mach) : Mach :=
  let ml := allLanded w g mi
  let x := ml.wg w
  let y := ml.grp w g
  match y.trapMode, y.run with
  | some t, some r =>
    let ls := t.lanes &&& y.live
    let (fr?, m2) := frameAt w t.frame .read ml
    let m := retryCode (wgSite m2 w) x.part x.ctx y.trapPc.toNat m2
    match decide (ls &&& ~~~r.lanes = 0), fr? with
    | true, .ok fr =>
      let m0 := match t.replay with | some id => replayOut w g id (decide (y.trapPc = t.pc)) m | none => m
      let m1 := (dropSlot w g m0).modG w g fun z => { leaveTrap t (restoreLinks x.core fr.pa ls m z) with gaveUp := m.cycle, ready := mi.cycle + st + 1 }
      if y.trapPc = t.pc then
        match t.resume, t.run with
        | .stand, _ => standAt w g y.trapPc ls m1
        | _, some q => m1.modG w g fun z => { z with run := some { q with lanes := q.lanes &&& y.live } }
        | _, none => standAt w g y.trapPc ls m1
      else
        match headerAt m (wgSite m w) x.part x.ctx y.trapPc with
        | .ok _ => standAt w g y.trapPc ls m1
        | .error c => doubleFault w g c y.trapPc y.trapInfo m
    | _, _ => doubleFault w g (causeOfCode y.trapCause) y.trapPc y.trapInfo m
  | _, _ => ml

end Sys2Proof.Machine
end

