-- ==== Sys2Proof/Machine/Tags.lean ====
section
/-! DEFINITION. The symbolic tags of Gambit regions: what each instruction issued inside a region does to them (spec 18 R345). -/

namespace Sys2Proof.Machine

/-- A sign-extended I-format immediate (spec 05 R80). -/
def immWord (imm : BitVec 10) : Word := imm.signExtend 32

/-- The conditions on words or pairs (spec 07 R120). -/
def icond {n : Nat} (cc : ICond) (a b : BitVec n) : Bool :=
  match cc with
  | .eq => decide (a = b)
  | .ne => decide (a ≠ b)
  | .lt => decide (a.toInt < b.toInt)
  | .le => decide (a.toInt ≤ b.toInt)
  | .gt => decide (b.toInt < a.toInt)
  | .ge => decide (b.toInt ≤ a.toInt)
  | .ltu => decide (a.toNat < b.toNat)
  | .geu => decide (b.toNat ≤ a.toNat)

/-- The registers read by an instruction. -/
def regReads (i : Instr) : List Nat := ((instrOpnds i).filter (·.rd)).flatMap Opnd.regs

/-- The registers written. -/
def regWrites (i : Instr) : List Nat := ((instrOpnds i).filter (·.wr)).flatMap Opnd.regs

/-- The registers a tag covers. -/
def Tag.covers (t : Tag) (r : Nat) : Bool := decide (r = t.reg) || (t.two && decide (r = t.reg + 1))

/-- The tag that covers a register. -/
def Region.tagAt (q : Region) (r : Nat) : Option Tag := q.tags.find? fun t => t.covers r

/-- A tag of exactly this register or pair; only such a read follows the table of R345. -/
def Region.tagOf (q : Region) (r : Nat) (two : Bool) : Option Tag := q.tags.find? fun t => decide (t.reg = r) && decide (t.two = two)

/-- Any of the registers is tagged. -/
def Region.tagged (q : Region) (rs : List Nat) : Bool := rs.any fun r => (q.tagAt r).isSome

/-- The tags of registers that receive an untagged value are cleared. -/
def Region.clearTags (q : Region) (rs : List Nat) : Region := { q with tags := q.tags.filter fun t => !(rs.any t.covers) }

/-- A register receives a tag; a ninth tag turns the region plain. -/
def Region.setTag (q : Region) (t : Tag) : Region :=
  let q1 := q.clearTags (if t.two then [t.reg, t.reg + 1] else [t.reg])
  if q1.tags.length < 8 then { q1 with tags := q1.tags ++ [t] } else { q1 with plain := true }

/-- A constraint is recorded; a ninth one turns the region plain. -/
def Region.addConstr (q : Region) (c : Constr) : Region :=
  if q.constrs.length < 8 then { q with constrs := q.constrs ++ [c] } else { q with plain := true }

/-- How an instruction stands in the table of R345: a move; an addition of a constant or of a register (pair, its sign, whether the second source may be the
tagged one); a comparison; or none of them. -/
inductive TagForm where
  | move (d a : Nat)
  | addK (d a : Nat) (two : Bool) (k : DWord)
  | addR (d a b : Nat) (two neg both : Bool)
  | cmpR (cc : ICond) (a b : Nat) (two : Bool)
  | cmpK (cc : ICond) (a : Nat) (k : DWord)
  | store
  | load
  | other
  deriving DecidableEq, Repr, Inhabited

/-- The form of an instruction; LDI with MOD 1 and 8 acts as IADDI and ISETI (spec 05 R80).  ADDW64's second source is the lane's
own register; a half of its own pair is no constant. -/
def tagForm (y : Group) (l : Nat) : Instr → TagForm
  | .mov d a _ => .move d.toNat a.toNat
  | .iadd d a b _ => .addR d.toNat a.toNat b.toNat false false true
  | .isub d a b _ => .addR d.toNat a.toNat b.toNat false true false
  | .iaddi d a imm _ => .addK d.toNat a.toNat false (imm.signExtend 64)
  | .ldiIadd d a lit _ => .addK d.toNat a.toNat false (lit.signExtend 64)
  | .add64 d a b _ => .addR d.toNat a.toNat b.toNat true false true
  | .sub64 d a b _ => .addR d.toNat a.toNat b.toNat true true false
  | .addw64 d a b _ =>
    if b.toNat = a.toNat ∨ b.toNat = a.toNat + 1 then .other else .addK d.toNat a.toNat true ((y.reg b.toNat l).signExtend 64)
  | .iset cc _ a b _ => .cmpR cc a.toNat b.toNat false
  | .iset64 cc _ a b _ => .cmpR cc a.toNat b.toNat true
  | .iseti cc _ a imm _ => .cmpK cc a.toNat (imm.signExtend 64)
  | .ldiIset cc _ a lit _ => .cmpK cc a.toNat (lit.setWidth 64)
  | .st32 _ _ _ _ | .st64 _ _ _ _ => .store
  | .ld32 _ _ _ _ | .ld64 _ _ _ _ => .load
  | _ => .other

/-- A register or a pair as a 64-bit value. -/
def Group.val64 (y : Group) (r : Nat) (two : Bool) (l : Nat) : DWord := if two then y.pair r l else (y.reg r l).setWidth 64

/-- The outcome of a condition on registers or on pairs. -/
def cmpOutcome (cc : ICond) (two : Bool) (a b : DWord) : Bool :=
  if two then icond cc a b else icond cc (a.setWidth 32 : Word) (b.setWidth 32)

/-- The registers of an operand of one register or of a pair. -/
def spanOf (r : Nat) (two : Bool) : List Nat := if two then [r, r + 1] else [r]

/-- A comparison of a tagged value with an untagged one records a constraint that keeps the outcome it has now. -/
def Region.compare (q : Region) (cc : ICond) (two : Bool) (t : Tag) (tagFirst : Bool) (va vb : DWord) : Region :=
  q.addConstr ⟨t.addr, t.size, t.k, cc, if tagFirst then vb else va, tagFirst, cmpOutcome cc two va vb⟩

/-- The effect of one instruction on the tags of a lane's region; `y` is the group as the instruction reads it.  Loads and stores are followed where
they are performed. -/
def Region.follow (q : Region) (y : Group) (l : Nat) (i : Instr) : Region :=
  let plain := (if q.tagged (regReads i) then { q with plain := true } else q).clearTags (regWrites i)
  match tagForm y l i with
  | .store => q
  | .load => if q.tagged (regReads i) then { q with plain := true } else q
  | .other => plain
  | .move d a =>
    match q.tagOf a false with
    | some t => q.setTag { t with reg := d }
    | none => plain
  | .addK d a two k =>
    match q.tagOf a two with
    | some t => if two && q.tagged ((regReads i).filter fun r => !([a, a + 1].contains r)) then plain else q.setTag { t with reg := d, k := t.k + k }
    | none => plain
  | .addR d a b two neg both =>
    match q.tagOf a two, q.tagged (spanOf a two), q.tagOf b two, q.tagged (spanOf b two) with
    | some t, _, _, false => q.setTag { t with reg := d, k := if neg then t.k - y.val64 b two l else t.k + y.val64 b two l }
    | _, false, some t, _ => if both then q.setTag { t with reg := d, k := t.k + y.val64 a two l } else plain
    | _, _, _, _ => plain
  | .cmpR cc a b two =>
    match q.tagOf a two, q.tagged (spanOf a two), q.tagOf b two, q.tagged (spanOf b two) with
    | some t, _, _, false => q.compare cc two t true (y.val64 a two l) (y.val64 b two l)
    | _, false, some t, _ => q.compare cc two t false (y.val64 a two l) (y.val64 b two l)
    | _, _, _, _ => plain
  | .cmpK cc a k =>
    match q.tagOf a false with
    | some t => q.compare cc false t true (y.val64 a false l) k
    | none => plain

/-- The open regions of the lanes in which an instruction takes effect follow it (spec 18 R345). -/
def followTags (i : Instr) (w g : Nat) (eff : Mask) (y : Group) (m : Mach) : Mach :=
  { m with regions := m.regions.map fun q =>
      if decide (q.wg = w) && decide (q.grp = g) && eff.getLsbD q.lane && !q.asked && q.aborted.isNone then q.follow y q.lane i else q }

end Sys2Proof.Machine
end

