-- ==== Sys2Proof/Machine/Issue.lean ====
section
/-! DEFINITION. Issue: the checks in their order, the charge, the instruction's own part, the end of the word (spec 05 R73, R74, R77, R87, 06 R100). -/

namespace Sys2Proof.Machine

/-- An issue: group, address, words, lanes that are active and that take effect, whether it is in trap mode. -/
structure Iss where
  w : Nat
  g : Nat
  pc : DWord
  word : Word
  lit : Word
  act : Mask
  eff : Mask
  rec_ : IssueRec
  deriving DecidableEq, Repr, Inhabited

/-- What an instruction's own part comes to: its effect with the sectors of its memory charge; a precise trap with %trapinfo, cause lanes and address; a resource hold
(R100);
a halt before the instruction takes effect (21 R392); or an effect that has itself placed the group (a trap taken, a return, a halt). -/
inductive Own where
  | done (sectors : Nat) (m : Mach)
  | trap (c : Cause) (info : DWord) (lanes : Mask) (addr : DWord)
  | hold (r : Resource)
  | halt
  | placed (m : Mach)
  deriving DecidableEq, Repr, Inhabited

/-- A precise trap whose cause lanes are the lanes that take effect; no rule states its %trapinfo (log 23). -/
def trapEff (x : Iss) (c : Cause) (m : Mach) : Own := .trap c (freeInfo m) x.eff 0

/-- The issue of an instruction by the group's run. -/
def mkIss (i : Instr) (w g : Nat) (m : Mach) : Iss :=
  let y := m.grp w g
  let r := y.run.getD default
  let act := r.lanes &&& y.live
  let eff := effMask y act (instrGuard i)
  let lit := if opLiteral (instrOpcode i) then r.rest.getD 1 0 else 0
  let os := instrOpnds i
  let v := fun f => match lowLane eff with | none => 0 | some l => opndValue y l os f
  ⟨w, g, r.pc, r.rest.headD 0, lit, act, eff, ⟨r.pc, eff, r.rest.headD 0, lit, v .a, v .b, v .d⟩⟩

/-- MISALIGNED_PAIR: an operand's register breaks its alignment (spec 05 R78). -/
def misalignedPair (i : Instr) : Bool := (instrOpnds i).any fun o => decide (o.n ≠ 0 ∧ o.r % o.al ≠ 0)

/-- An operand lies in v32 to v63 (spec 04 R53). -/
def usesExtended (i : Instr) : Bool := (instrOpnds i).any fun o => decide (o.n ≠ 0 ∧ 32 ≤ o.r + (o.n - 1))

/-- The predicates read, the guard among them; pt is none (spec 05 R77, R79). -/
def predReads (i : Instr) : List Nat := (((instrGuard i).p :: instrPredReads i).map BitVec.toNat).filter fun p => decide (p ≠ 7)

/-- The predicates written. -/
def predWrites (i : Instr) : List Nat := ((instrPredWrites i).map BitVec.toNat).filter fun p => decide (p ≠ 7)

/-- A fixed-latency write is to a register or predicate of the lists. -/
def pendHits (rs ps : List Nat) (p : Pend) : Bool :=
  p.writes.any fun u => match u with
    | .reg r _ _ => rs.contains r
    | .pred q _ _ => ps.contains q
    | .flags _ _ => false

/-- Registers marked in a REORDER mask (spec 07 R133). -/
def markedRegs (k : DWord) : List Nat := (List.range 64).filter fun r => k.getLsbD r

/-- The registers that a REORDER moves, by the mask of its lowest active lane (spec 07 R133); an instruction of another opcode moves none. -/
def movedRegs (i : Instr) (y : Group) : List Nat :=
  match i with
  | .reorder _ _ b _ => markedRegs (y.pair b.toNat (lowLaneD ((y.run.getD default).lanes &&& y.live)))
  | _ => []

/-- GETS %fpflags reads what flag updates write (spec 09 R159). -/
def readsFlags : Instr → Bool
  | .gets _ .fpflags _ => true
  | _ => false

/-- STALL_UNDERSIZED: a fixed-latency result is read before it may be (spec 05 R75, R77, 07 R133, 09 R159): the producer. -/
def stallProducer (i : Instr) (y : Group) : Option DWord :=
  (y.pend.find? fun p => pendHits (regReads i ++ movedRegs i y) (predReads i) p || (readsFlags i && p.flagged)).map (·.pc)

/-- A command that will update flags (spec 09 R159). -/
def isSfu : OutKind → Bool
  | .sfu _ _ _ => true
  | _ => false

/-- WAIT_MISSING: a variable-latency result is outstanding to a register or predicate named (spec 05 R76, R77, 07 R134, 09 R159): the producer. -/
def waitProducer (i : Instr) (y : Group) : Option DWord :=
  let rs := regReads i ++ regWrites i ++ movedRegs i y
  let ps := predReads i ++ predWrites i
  (y.outs.find? fun o => o.dregs.any (rs.contains ·) || o.dpreds.any (ps.contains ·) || (readsFlags i && isSfu o.kind)).map (·.irec.pc)

/-- WAIT_MISSING with the scoreboard on or off: of XREL, where some lane takes effect, for a result aimed at v32 to v63; of REORDER for its marked registers and
its key (spec 04 R58, 05 R73, 07 R134). -/
def alwaysProducer (i : Instr) (y : Group) : Option DWord :=
  let rs := match i with
    | .xrel g => if effMask y ((y.run.getD default).lanes &&& y.live) g = 0 then [] else (List.range 32).map (32 + ·)
    | .reorder w a _ _ => movedRegs i y ++ (List.range (w.toNat + 1)).map (a.toNat + ·)
    | _ => []
  (y.outs.find? fun o => o.dregs.any (rs.contains ·)).map (·.irec.pc)

/-- The checks 2 to 4 of issue, in order (spec 05 R73): cause and %trapinfo. -/
def issueCheck (i : Instr) (w g : Nat) (m : Mach) : Option (Cause × DWord) :=
  let y := m.grp w g
  let on := (m.wg w).checking
  if misalignedPair i then some (.misalignedPair, freeInfo m)
  else if (usesExtended i || (movedRegs i y).any fun r => decide (32 ≤ r)) && !y.extHeld then some (.extNotHeld, freeInfo m)
  else
    match (if on then stallProducer i y else none), (if on then (waitProducer i y) <|> (alwaysProducer i y) else alwaysProducer i y) with
    | some pc, _ => some (.stallUndersized, pc)
    | none, some pc => some (.waitMissing, pc)
    | none, none => none

/-- A precise trap at issue (spec 20 R370, R371): the trap set is the active lanes, the instruction issues again on an unchanged %trappc. -/
def trapAtIssue (x : Iss) (c : Cause) (info : DWord) (lanes : Mask) (addr : DWord) (m : Mach) : Mach :=
  enterTrap x.w x.g ⟨x.rec_, ⟨c, lanes, addr, info⟩, 0xFF, x.pc, x.act, .run, none⟩ m

/-- A resource hold: the group stands at the instruction and the slot may pass; a hold that goes on is no new one (spec 06 R97, R98, R100). -/
def resourceHold (again : Bool) (r : Resource) (w g : Nat) (m : Mach) : Mach :=
  dropSlot w g (m.modG w g fun y => { y with held := some (.resource r), gaveUp := if again then y.gaveUp else m.cycle })

/-- The group stands at a resource hold. -/
def atResource (y : Group) : Bool :=
  match y.held with
  | some (.resource _) => true
  | _ => false

/-- Commands outstanding on a class (spec 05 R74). -/
def classCount (y : Group) (c : Nat) : Nat := (y.outs.filter fun o => decide (o.cls = c)).length

/-- The class count stands at 63 (spec 05 R74). -/
def classFull (i : Instr) (y : Group) : Bool :=
  match instrWaitClass i with
  | none => false
  | some c => decide (63 ≤ classCount y c)

/-- The number of lanes of a mask. -/
def popMask (k : Mask) : Nat := (lanesOf k).length

/-- The lane-cycles of an issue: active, predicated off, masked by divergence, absent (spec 21 R398). -/
def issueCounts (x : Iss) (y : Group) : List (Nat × Nat) :=
  [(0, popMask x.eff), (1, popMask (x.act &&& ~~~x.eff)), (2, popMask (y.live &&& ~~~x.act)), (3, 32 - popMask y.live)]

/-- The slot's cycles before an issue, and the issue, in the lane-cycle record; the slot issues again in the next cycle at the earliest (spec 06 R96, 21 R398,
R399). -/
def countCore (x : Iss) (m : Mach) (c : Core) : Core :=
  let y := m.grp x.w x.g
  let c1 := match slotOf m x.w x.g with
    | none => c
    | some j => { idleUntil m j c with issued := Store.put c.issued j (m.cycle + 1, (y.run.getD default).born) }
  countCycle (some x.pc) (issueCounts x y) c1

/-- An issue is counted: in the lane-cycle record, and against the limit of a debugger's step (spec 21 R397, R398). -/
def countIssue (x : Iss) (m : Mach) : Mach :=
  let m1 := m.modK (m.wg x.w).core (countCore x m)
  m1.modW x.w fun z =>
    match z.stepLeft with
    | none => z
    | some 0 => z
    | some (n + 1) => { z with stepLeft := some n, stepEvent := if n = 0 then some (z.stepEvent.getD 4) else z.stepEvent }

/-- The end of an issue: the memory charge, the end of the word. -/
def finishIssue (i : Instr) (x : Iss) (sectors : Nat) (m : Mach) : Mach :=
  finishWord x.w x.g (instrWords i) (instrGuard i).s.toNat (charge x.w x.g 0 sectors m)

/-- A watchpoint halts the workgroup before the instruction takes effect, uncharged; when it resumes, the word issues once without matching again
(spec 21 R392, R397, log 14). -/
def haltAtWatch (w g : Nat) (m : Mach) : Mach :=
  (resourceHold false .none w g (m.modG w g fun y => { y with run := y.run.map fun r => { r with noMatch := true } })).modW w fun x =>
    { x with haltReq := true, stepEvent := if x.stepLeft.isSome then some (x.stepEvent.getD 3) else x.stepEvent }

/-- The opcodes of the special-function pipe (spec 09 R167). -/
def sfuOp (op : Nat) : Bool := decide (0x49 ≤ op ∧ op ≤ 0x50) || decide (op = 0x59) || decide (op = 0x5A)

/-- Cycles for which an instruction occupies its pipe; what memory accesses add is timing that the model leaves out (spec 09 R167, log 2). -/
def pipeCycles (i : Instr) : Nat :=
  let op := instrOpcode i
  if op = 0x59 ∨ op = 0x5A then 32
  else if op = 0x4B ∨ op = 0x4C then 8
  else if sfuOp op then 4
  else if (0x52 ≤ op ∧ op ≤ 0x58) ∨ op = 0x60 ∨ op = 0x61 then 2
  else
    match i with
    | .cvtfi _ _ wide _ _ _ | .cvtif _ _ wide _ _ _ => if wide then 2 else 1
    | _ => 1

/-- The pipe an instruction enters: the vector pipe that is free first, the special-function pipe, or that of its class (spec 06 R96). -/
def pipeOf (i : Instr) (k : Core) : Nat :=
  let op := instrOpcode i
  if sfuOp op then 2
  else if op < 0x80 then (if Store.get 0 k.pipes 1 < Store.get 0 k.pipes 0 then 1 else 0)
  else 2 + opClass op

/-- An instruction enters its pipe in its issue cycle, or as soon as the pipe is free; its latency and its stall count from there (spec 06 R96). -/
def enterPipe (i : Instr) (w : Nat) (m : Mach) : Mach :=
  let c := (m.wg w).core
  let p := pipeOf i (m.core c)
  let t := max m.cycle (Store.get 0 (m.core c).pipes p)
  { m with cycle := t }.modK c fun k => { k with pipes := Store.put k.pipes p (t + pipeCycles i) }

/-- An instruction whose checks have passed is performed (spec 05 R73 step 5, R87, 06 R100): held, halted, trapping, placed or done; open regions follow
it (18 R345). -/
def perform (again : Bool) (i : Instr) (x : Iss) (own : Iss → Mach → Own) (m : Mach) : Mach :=
  let m1 := charge x.w x.g (instrTempi i) 0 (enterPipe i x.w (countIssue x m))
  match own x m1 with
  | .hold r => resourceHold again r x.w x.g m
  | .halt => haltAtWatch x.w x.g m
  | .trap c info lanes addr => trapAtIssue x c info lanes addr m1
  | .placed m2 => m2
  | .done sectors m2 => finishIssue i x sectors (followTags i x.w x.g x.eff (m.grp x.w x.g) m2)

/-- The cycle in which a group issues (spec 05 R75, 06 R96): its stall has passed, its slot issues nothing else in it, and of two runs that would issue in one
cycle the one that started earlier comes first. -/
def issueCycle (w g : Nat) (m : Mach) : Nat :=
  let y := m.grp w g
  let c := m.core (m.wg w).core
  match slotOf m w g with
  | none => max m.cycle y.ready
  | some j =>
    let t := max (max m.cycle y.ready) (Store.get (0, 0) c.issued j).1
    let o := Store.get (0, 0) c.issued (1 - j)
    if o.1 = t + 1 ∧ (y.run.getD default).born < o.2 then t + 1 else t

/-- The group is ready to issue: its issue cycle has come, and results that are due have landed. -/
def settle (w g : Nat) (m : Mach) : Mach :=
  let m1 := { m with cycle := issueCycle w g m }
  m1.modG w g fun y => { y.landDue m1.cycle with held := none }

/-- An instruction issued by the run of group `g` of workgroup `w` (spec 05 R73 to R77, R87). -/
def issue (i : Instr) (own : Iss → Mach → Own) (w g : Nat) (m0 : Mach) : Mach :=
  let m := settle w g m0
  let x := mkIss i w g m
  match issueCheck i w g m with
  | some (c, info) => trapAtIssue x c info x.eff 0 (charge w g (instrTempi i) 0 (countIssue x m))
  | none =>
    let again := atResource (m0.grp w g)
    if classFull i (m.grp w g) then resourceHold again (.cls ((instrWaitClass i).getD 0)) w g m else perform again i x own m

/-- The meaning of an instruction of the opcode map from its own part: a device in recovery executes nothing (spec 23 R428). -/
def execute (i : Instr) (own : Iss → Mach → Own) (s : State) : Host.Outcome State Fault Refusal :=
  if s.hw.running then
    match s.m.cur with
    | none => .fault .noIssuingGroup
    | some (w, g) => .next { s with m := issue i own w g s.m }
  else .next s

/-- A step of the table: it acts on the running device; one that is not enabled changes nothing (log 11). -/
def eventStep (f : Mach → Mach) (s : State) : Host.Outcome State Fault Refusal :=
  if s.hw.running then .next { s with m := f s.m } else .next s

/-- Results of fixed latency `n` are pending from this issue on, with or without a flag update (spec 05 R75, 09 R159). -/
def laterF (n : Nat) (fl : Bool) (x : Iss) (ws : List LaneWrite) (m : Mach) : Mach :=
  m.modG x.w x.g fun y => { y with pend := y.pend ++ [⟨x.pc, m.cycle + n, fl, ws⟩] }

/-- Results of fixed latency `n` without a flag update. -/
def later (n : Nat) (x : Iss) (ws : List LaneWrite) (m : Mach) : Mach := laterF n false x ws m

/-- Register writes that take effect at once: earlier results not yet landed are superseded (spec 05 R75). -/
def writeNow (x : Iss) (ws : List LaneWrite) (m : Mach) : Mach :=
  m.modG x.w x.g fun y =>
    { (y.landAll ws) with pend := y.pend.map fun p => { p with writes := p.writes.filter fun u => !(ws.any (sameDest u)) } }

/-- An open Gambit region in a lane of the issue (spec 18 R344). -/
def inRegion (x : Iss) (ls : Mask) (m : Mach) : Bool := (regionsOf m x.w x.g ls).any fun r => !r.asked

/-- The lanes of a mask that stand in an open Gambit region. -/
def regionMask (x : Iss) (ls : Mask) (m : Mach) : Mask := maskOf (((regionsOf m x.w x.g ls).filter fun r => !r.asked).map (·.lane))

/-- GAMBIT_FORBIDDEN of an instruction that R344 does not allow in a region: its lanes are those in a region. -/
def regionTrap (x : Iss) (m : Mach) : Own := .trap .gambitForbidden (freeInfo m) (regionMask x x.eff m) 0

/-- The group is between LSER and LSEND (spec 07 R136); a handler entered from the body counts as in it (log 113). -/
def inSerial (x : Iss) (m : Mach) : Bool := (m.grp x.w x.g).lser.isSome

/-- An own part that has no effect where no lane takes effect (spec 01 R10). -/
def guarded (own : Iss → Mach → Own) (x : Iss) (m : Mach) : Own := if x.eff = 0 then .done 0 m else own x m

/-- An own part of an instruction that R344 does not allow in a region. -/
def noRegion (own : Iss → Mach → Own) (x : Iss) (m : Mach) : Own := if inRegion x x.eff m then regionTrap x m else own x m


/-- The interval between two hand-offs of a lane-serialised body in which a group's command issues; 0 outside a body (spec 16 R310). -/
def serialInterval (y : Group) : Nat := if y.lser.isSome then y.serCtr else 0

/-- A command handed on, outstanding on its class, with the registers and predicates it will write (spec 05 R74). -/
def handOn (i : Instr) (x : Iss) (cls : Nat) (k : OutKind) (shared : Bool) (m : Mach) : Mach :=
  { (m.modG x.w x.g fun y => { y with outs := y.outs ++ [⟨m.nextCmd, cls, x.rec_, k, none, regWrites i, predWrites i, shared, y.lastDue, serialInterval y⟩] }) with
    nextCmd := m.nextCmd + 1 }

/-- %trapinfo of an access trap: the lanes that break the condition, and the low word of the lowest such lane's address (spec 10 R192). -/
def laneInfo (ls : List (Nat × Nat)) : DWord :=
  BitVec.ofNat 64 ((maskOf (ls.map (·.1))).toNat + 2 ^ 32 * (((ls.map (·.2)).headD 0) % 2 ^ 32))


/-- %trapinfo of a fault of one access that a group's command makes: its lanes are the cause lanes (spec 10 R192, R193, 20 R370). -/
def groupInfo (ls : Mask) (addr : Nat) : DWord := laneInfo ((lanesOf ls).map fun l => (l, addr))

/-- An access trap: lanes and addresses that break the condition (spec 10 R192). -/
def trapLanes (c : Cause) (ls : List (Nat × Nat)) : Own :=
  .trap c (laneInfo ls) (maskOf (ls.map (·.1))) (BitVec.ofNat 64 ((ls.map (·.2)).headD 0))

end Sys2Proof.Machine
end

