-- ==== Sys2Proof/Machine/Control.lean ====
section
/-! DEFINITION. Control transfers, YIELD, TRAP, BKPT, TRAPRET, lane-serialise and REORDER's arrival (spec 03 R43, R44, 06 R104 to R108, 07 R133 to R136,
20 R375, 22 R405). -/

namespace Sys2Proof.Machine

/-- Lanes added to the moves of a run. -/
def addMove (ms : List (DWord × Mask)) (t : DWord) (k : Mask) : List (DWord × Mask) :=
  if k = 0 then ms
  else if ms.any fun e => decide (e.1 = t) then ms.map fun e => if e.1 = t then (t, e.2 ||| k) else e
  else ms ++ [(t, k)]

/-- The run of a group changed. -/
def modRun (x : Iss) (f : Run → Run) (m : Mach) : Mach := m.modG x.w x.g fun y => { y with run := y.run.map f }

/-- The trap of a bad target: BRANCH_TARGET with the target's low word, or the fault of the read with the lanes that would go there (spec 05 R72). -/
def targetTrap (c : Cause) (t : DWord) (k : Mask) : Own :=
  let low := t.toNat % 2 ^ 32
  if c = .branchTarget then .trap c (BitVec.ofNat 64 low) k t else .trap c (BitVec.ofNat 64 (k.toNat + 2 ^ 32 * low)) k t

/-- The header a workgroup's group goes to, or the fault of the target (spec 05 R72); a target of RET must have bits [63:52] zero (06 R106,
log 116). -/
def targetAt (m : Mach) (w : Nat) (ret : Bool) (t : DWord) : Except Cause Word :=
  if ret && decide (2 ^ 52 ≤ t.toNat) then .error .branchTarget else headerAt m (wgSite m w) (m.wg w).part (m.wg w).ctx t

/-- The read of a target's header waits (spec 05 R65, R72, 10 R185, R190). -/
def targetWaits (m : Mach) (w : Nat) (t : DWord) : Bool :=
  decide (t.toNat % 4 = 0) && fetchWaits m (wgSite m w) (m.wg w).part (m.wg w).ctx t.toNat

/-- The first bad target of the lanes, in ascending lane order (spec 05 R72, 06 R104). -/
def badTarget (m : Mach) (w : Nat) (ret : Bool) : List (Nat × DWord) → Option (Cause × DWord)
  | [] => none
  | (_, t) :: rest =>
    match targetAt m w ret t with
    | .error e => some (e, t)
    | .ok _ => badTarget m w ret rest

/-- A control transfer: each lane's target is checked before any lane moves; `also` is done with the transfer; while a target's word is to be read again the
group stands at the instruction (spec 06 R104 to R106, log 7, 121). -/
def transfer (ret : Bool) (tgt : Group → Nat → DWord) (also : Mach → Mach) (x : Iss) (m : Mach) : Own :=
  let y := m.grp x.w x.g
  let ts := (lanesOf x.eff).map fun l => (l, tgt y l)
  match ts.find? fun e => targetWaits m x.w e.2 with
  | some e => .hold (.code e.2)
  | none =>
    match badTarget m x.w ret ts with
    | some (c, t) => targetTrap c t (maskOf ((ts.filter fun e => decide (e.2 = t)).map (·.1)))
    | none => .done 0 (modRun x (fun r => { r with moves := ts.foldl (fun ms e => addMove ms e.2 (maskOf [e.1])) r.moves }) (also m))

/-- The target of format B: the word's address plus 4 × OFF (spec 05 R81). -/
def relTarget (pc : DWord) (off : BitVec 18) : DWord := pc + (off.signExtend 64 <<< 2)

/-- BRA (spec 06 R105). -/
def execBra (off : BitVec 18) (g : Guard) (s : State) : Host.Outcome State Fault Refusal :=
  execute (.bra off g) (fun x m => transfer false (fun _ _ => relTarget x.pc off) id x m) s

/-- CALL: v30:v31 receive the address past the clause (spec 06 R105). -/
def execCall (off : BitVec 18) (g : Guard) (s : State) : Host.Outcome State Fault Refusal :=
  execute (.call off g) (fun x m =>
    transfer false (fun _ _ => relTarget x.pc off)
      (writeNow x ((lanesOf x.eff).flatMap fun l =>
        [.reg 30 l ((x.pc + 4).extractLsb' 0 32), .reg 31 l ((x.pc + 4).extractLsb' 32 32)])) x m) s

/-- BRX: each lane goes to the word's address plus its signed offset (spec 06 R106). -/
def execBrx (a : Reg) (g : Guard) (s : State) : Host.Outcome State Fault Refusal :=
  execute (.brx a g) (fun x m => transfer false (fun y l => x.pc + (y.reg a.toNat l).signExtend 64) id x m) s

/-- RET: each lane goes to the address in its pair (spec 06 R106). -/
def execRet (a : Reg) (g : Guard) (s : State) : Host.Outcome State Fault Refusal :=
  execute (.ret a g) (fun x m => transfer true (fun y l => y.pair a.toNat l) id x m) s

/-! ## EXIT -/

/-- The lanes end: they are absent from then on; a group without a live lane leaves its phasers (spec 18 R339), a workgroup
without one retires (spec 03 R43, 02 R16). -/
def endLanes (w g : Nat) (k : Mask) (pc : DWord) (m : Mach) : Mach :=
  let m0 := m.modG w g fun y => { y with live := y.live &&& ~~~k, exiting := none }
  let m1 := if (m0.grp w g).live = 0 then dropPhasers w g m0 else m0
  if (m1.wg w).groupIds.all fun j => decide ((m1.grp w j).live = 0) then
    m1.modW w fun z => { z with status := .retiring, exitPc := pc }
  else m1

/-- The names an EXIT lists: pairs of the lowest lane in which it takes effect (spec 03 R43). -/
def exitNames (y : Group) (a : Reg) (cnt l : Nat) : List DWord := (List.range cnt).map fun k => y.pair (a.toNat + 2 * k) l

/-- The traps of a successor list (spec 03 R43, R44); a list longer than the reserve that differs from the one fixed is GRAPH_NODE (log 99). -/
def exitListTrap (res : Nat) (fixed : Option (List DWord)) (names : List DWord) : Option Cause :=
  if names = [] then none
  else
    match fixed with
    | some old => if names = old then none else some .graphNode
    | none =>
      if res < names.length then some .successorReserve
      else if names.any fun n => decide (n.toNat % 128 ≠ 0) then some .graphNode
      else none

/-- The group still holds lanes that must not end yet: a held lock word (spec 18 R335), a signer that has not signed (spec 12 R232). -/
def exitBlocked (m : Mach) (x : Iss) : Option Cause :=
  let y := m.grp x.w x.g
  if x.eff ≠ y.live then none
  else if y.locks ≠ [] then some .lockState
  else if (m.wg x.w).convs.any fun e => e.2.word.getLsbD (16 + x.g) && !(e.2.signed.contains x.g) then some .convergenceSet
  else none

/-- EXIT (spec 03 R43, R44, 06 R99, 22 R405): traps; the successor list is fixed; for the group's last lanes it is a wait point on every class, where what is
pending is honoured. -/
def exitOwn (a : Reg) (cnt : Nat) (x : Iss) (m : Mach) : Own :=
  let y := m.grp x.w x.g
  let z := m.wg x.w
  let names := exitNames y a cnt (lowLaneD x.eff)
  match exitListTrap (m.block x.w).succReserve z.succ names with
  | some c => trapEff x c m
  | none =>
    if inRegion x x.eff m then regionTrap x m
    else if inSerial x m then trapEff x .lserNested m
    else
      match exitBlocked m x with
      | some c => trapEff x c m
      | none =>
        let m1 := if names = [] then m else m.modW x.w fun z => { z with succ := some names }
        if x.eff = y.live ∧ (y.outs ≠ [] ∨ mayPass z y = false) then
          .placed (dropSlot x.w x.g (modRun x (fun r => { r with waiting := true }) (m1.modG x.w x.g fun y =>
            { y with exiting := some (x.eff, x.pc), gaveUp := m.cycle })))
        else .done 0 (endLanes x.w x.g x.eff x.pc m1)

/-- EXIT. -/
def execExit (a : Reg) (cnt : BitVec 3) (g : Guard) (s : State) : Host.Outcome State Fault Refusal :=
  execute (.exit a cnt g) (guarded (exitOwn a cnt.toNat)) s

/-! ## YIELD, TRAP, BKPT, TRAPRET -/

/-- The traps of YIELD, TRAP and BKPT (spec 06 R107, R108). -/
def noRegionNoSerial (own : Iss → Mach → Own) (x : Iss) (m : Mach) : Own :=
  if inRegion x x.eff m then regionTrap x m else if inSerial x m then trapEff x .lserNested m else own x m

/-- A slot yield: the group ranks last on the next choice of its slot (spec 06 R107). -/
def slotYieldOwn (x : Iss) (m : Mach) : Own := .done 0 (m.modG x.w x.g fun y => { y with slotYield := slotOf m x.w x.g })

/-- YIELD (spec 06 R107). -/
def execYield (g : Guard) (s : State) : Host.Outcome State Fault Refusal :=
  execute (.yield_ g) (guarded (noRegionNoSerial slotYieldOwn)) s

/-- YIELD.wg: the workgroup's yield is pending; in trap mode it acts as YIELD (spec 06 R107). -/
def execYieldWg (g : Guard) (s : State) : Host.Outcome State Fault Refusal :=
  execute (.yieldWg g) (guarded (noRegionNoSerial fun x m =>
    if (m.grp x.w x.g).trapMode.isSome then slotYieldOwn x m
    else .done 0 (m.modW x.w fun z => if z.yieldPending then z else { z with yieldPending := true, yieldWg := true }))) s

/-- A software trap: the run ends, its active lanes are the trap set and stand past the clause when they return; the lanes that take effect are the cause lanes
(spec 06 R108, 20 R370, log 39). -/
def softTrap (i : Instr) (c : Cause) (code : Nat) (x : Iss) (m : Mach) : Own :=
  let m1 := finishIssue i x 0 (modRun x (fun r => { r with lanes := 0 }) m)
  .placed (enterTrap x.w x.g ⟨x.rec_, ⟨c, x.eff, 0, BitVec.ofNat 64 code⟩, 0xFF, x.pc + 4, x.act, .stand, none⟩ m1)

/-- TRAP (spec 06 R108). -/
def execTrap (code : BitVec 6) (g : Guard) (s : State) : Host.Outcome State Fault Refusal :=
  execute (.trap code g) (guarded (noRegionNoSerial (softTrap (.trap code g) .software code.toNat))) s

/-- BKPT: with halt-on-breakpoint armed for the core the workgroup halts, else a trap (spec 06 R108, 21 R395). -/
def execBkpt (code : BitVec 6) (g : Guard) (s : State) : Host.Outcome State Fault Refusal :=
  execute (.bkpt code g) (guarded (noRegionNoSerial fun x m =>
    if (m.core (m.wg x.w).core).haltOnBreak then .done 0 (m.modW x.w fun z => { z with haltReq := true })
    else softTrap (.bkpt code g) .breakpoint code.toNat x m)) s

/-- TRAPRET (spec 18 R344, 20 R375). -/
def execTrapret (st : BitVec 2) (s : State) : Host.Outcome State Fault Refusal :=
  execute (.trapret st) (noRegion fun x m =>
    if (m.grp x.w x.g).trapMode.isSome then .placed (returnTrap x.w x.g st.toNat m) else trapEff x .privilege m) s

/-! ## Lane-serialise and REORDER -/

/-- LSER: the active lanes run the body one at a time, the lowest first (spec 07 R135, R136). -/
def execLser (st : BitVec 2) (s : State) : Host.Outcome State Fault Refusal :=
  execute (.lser st) (fun x m =>
    if inSerial x m then trapEff x .lserNested m
    else if inRegion x x.act m then regionTrap x m
    else
      match lanesOf x.act with
      | [] => .done 0 m
      | l :: ls =>
        .done 0 (modRun x (fun r => { r with lanes := maskOf [l] })
          (m.modG x.w x.g fun y => { y with lser := some ⟨x.pc + 4, l, ls, []⟩, serCtr := y.serCtr + 1 }))) s

/-- LSEND: the current lane is parked past the clause; the next lane enters the body, or all of them go on (spec 07 R135, R136). -/
def execLsend (st : BitVec 2) (s : State) : Host.Outcome State Fault Refusal :=
  execute (.lsend st) (fun x m =>
    match (m.grp x.w x.g).lser, inRegion x x.act m with
    | none, _ => trapEff x .lserNested m
    | some _, true => regionTrap x m
    | some z, false =>
      let done := addMove z.done (x.pc + 4) x.act
      match z.todo with
      | [] => .done 0 (modRun x (fun r => { r with lanes := 0, moves := done }) (m.modG x.w x.g fun y => { y with lser := none }))
      | l :: ls =>
        .done 0 (modRun x (fun r => { r with lanes := 0, moves := [(z.body, maskOf [l])] })
          (m.modG x.w x.g fun y => { y with lser := some { z with cur := l, todo := ls, done := done }, serCtr := y.serCtr + 1 }))) s

/-- The keys of a REORDER's lanes, as they are at issue (spec 06 R115, 07 R133). -/
def reorderKeys (wide : Bool) (a : Reg) (k : Mask) (y : Group) : List (Nat × Nat) :=
  (lanesOf k).map fun l => (l, y.regsVal a.toNat (if wide then 2 else 1) l)

/-- REORDER: the checks of R134 at issue; the group has arrived and stands held until the threads move (spec 07 R133, R134). -/
def reorderOwn (wide : Bool) (a b : Reg) (x : Iss) (m : Mach) : Own :=
  let y := m.grp x.w x.g
  if y.live &&& ~~~x.act ≠ 0 then .trap .convergenceSet (infoLow m (y.live &&& ~~~x.act)) (y.live &&& ~~~x.act) 0
  else if inRegion x x.act m then regionTrap x m
  else if inSerial x m then trapEff x .lserNested m
  else if y.trapMode.isSome then trapEff x .doubleFault m
  else
    .placed (dropSlot x.w x.g (m.modG x.w x.g fun y =>
      { y with held := some .reorder, gaveUp := m.cycle,
               reorder := some ⟨wide, y.pair b.toNat (lowLaneD x.act), x.pc, reorderKeys wide a x.act y⟩ }))

/-- REORDER. -/
def execReorder (w : BitVec 1) (a b : Reg) (st : BitVec 2) (s : State) : Host.Outcome State Fault Refusal :=
  execute (.reorder w a b st) (reorderOwn (decide (w = 1)) a b) s

end Sys2Proof.Machine
end

