-- ==== Sys2Proof/Machine/System.lean ====
section
/-! DEFINITION. System registers, SETCONT, BTOPUP, extended blocks, CCTL, TRACEMARK, turns and OWNMARK (spec 04 R55 to R58, 06 R110 to R114, 19 R350 to
R363, 20 R380, 21 R403, R404). -/

namespace Sys2Proof.Machine

/-! ## System registers -/

/-- Extended blocks held by the groups of a workgroup (spec 04 R55). -/
def Wg.xcount (x : Wg) : Nat := (x.groupIds.filter fun g => (Store.get default x.groups g : Group).extHeld).length

/-- %xheld (spec 04 R55). -/
def xheldVal (m : Mach) (w g : Nat) : Nat :=
  let y := m.grp w g
  256 * ((m.block w).xmax % 16) + 16 * ((m.wg w).xcount % 16) + (if y.extPending then 2 else 0) + (if y.extHeld then 1 else 0)

/-- %trapcause (spec 06 R112). -/
def trapcauseVal (y : Group) : Nat := (if y.trapMode.isSome then 64 else 0) + y.trapCause % 64

/-- The value of a system register as a lane sees it (spec 06 R111). -/
def sregVal (m : Mach) (w g l : Nat) (sr : SReg) : Nat :=
  let x := m.wg w
  let y := m.grp w g
  match sr with
  | .tid => (Store.get 0 y.tid l).toNat
  | .lane => (Store.get (BitVec.ofNat 32 l) y.laneNo l).toNat
  | .group => (Store.get (BitVec.ofNat 32 g) y.groupNo l).toNat
  | .wgid => x.wgid
  | .wgcount => (m.block w).count
  | .stage => x.stage
  | .core => x.core % 4
  | .cluster => clusterOfCore x.core % 64
  | .die => dieOfCore x.core
  | .part => x.part
  | .ctx => x.ctx
  | .tempi => x.tempi.toNat
  | .tempm => x.tempm.toNat
  | .cont => x.cont.toNat
  | .contlive => x.contlive.toNat
  | .xheld => xheldVal m w g
  | .trapcause => trapcauseVal y
  | .trappc => y.trapPc.toNat
  | .trapinfo => y.trapInfo.toNat
  | .trapmask => (Store.get 0 y.trapmask l).toNat
  | .fpflags => (Store.get 0 y.fpflags l).toNat
  | .fpmode => (Store.get 0 y.fpmode l).toNat
  | .cycle => m.cycle

/-- Writes of a value into `n` registers from `d` in a lane. -/
def regWritesOf (d n l v : Nat) : List LaneWrite :=
  (List.range n).map fun k => .reg (d + k) l (BitVec.ofNat 32 (v / 2 ^ (32 * k)))

/-- GETS (spec 06 R113). -/
def execGets (d : Reg) (sr : SReg) (g : Guard) (s : State) : Host.Outcome State Fault Refusal :=
  execute (.gets d sr g) (fun x m => .done 0 (later 2 x ((lanesOf x.eff).flatMap fun l => regWritesOf d.toNat (sregRegs sr) l (sregVal m x.w x.g l sr)) m)) s

/-- The reserved bits of the registers that SETS may write (spec 06 R113, 09 R154, R155, 20 R372). -/
def sregReserved : SReg → Word
  | .trapmask => 0xFFFFFFFE
  | .fpflags => 0xFFFFFFE0
  | .fpmode => 0xFFFFFC0C
  | _ => 0

/-- SETS is allowed to a register (spec 06 R111). -/
def setsAllowed (y : Group) : SReg → Bool
  | .trapmask | .fpflags | .fpmode => true
  | .trappc => y.trapMode.isSome
  | _ => false

/-- A per-thread register of a lane written. -/
def Group.setSreg (y : Group) (sr : SReg) (l : Nat) (v : Word) : Group :=
  match sr with
  | .trapmask => { y with trapmask := Store.put y.trapmask l v }
  | .fpflags => { y with fpflags := Store.put y.fpflags l v }
  | .fpmode => { y with fpmode := Store.put y.fpmode l v }
  | _ => y

/-- SETS: PRIVILEGE, RESERVED_FIELD; the lanes' registers, or %trappc from the lowest lane, before the next issue (spec 06 R113). -/
def setsOwn (a : Reg) (sr : SReg) (x : Iss) (m : Mach) : Own :=
  let y := m.grp x.w x.g
  if setsAllowed y sr = false then trapEff x .privilege m
  else if (lanesOf x.eff).any fun l => decide (y.reg a.toNat l &&& sregReserved sr ≠ 0) then trapEff x .reservedField m
  else if sr = .trappc then .done 0 (m.modG x.w x.g fun z => { z with trapPc := z.pair a.toNat (lowLaneD x.eff) })
  else .done 0 (m.modG x.w x.g fun z => (lanesOf x.eff).foldl (fun acc l => acc.setSreg sr l (acc.reg a.toNat l)) z)

/-- SETS. -/
def execSets (a : Reg) (sr : SReg) (g : Guard) (s : State) : Host.Outcome State Fault Refusal :=
  execute (.sets a sr g) (guarded (noRegion (setsOwn a sr))) s

/-- SETCONT: the target is a header with YP = 1 (spec 06 R114). -/
def setcontOwn (off : BitVec 19) (live : BitVec 13) (x : Iss) (m : Mach) : Own :=
  let t := x.pc + (off.signExtend 64 <<< 2)
  if targetWaits m x.w t then .hold (.code t)
  else
    match targetAt m x.w false t with
    | .error c => targetTrap c t x.eff
    | .ok h =>
      if bits h 7 1 = 1 then .done 0 (m.modW x.w fun z => { z with cont := t, contlive := live })
      else targetTrap .branchTarget t x.eff

/-- SETCONT. -/
def execSetcont (off : BitVec 19) (en : Bool) (last first : BitVec 6) (g : Guard) (s : State) : Host.Outcome State Fault Refusal :=
  execute (.setcont off en last first g) (guarded (noRegion (setcontOwn off (BitVec.ofBool en ++ last ++ first)))) s

/-! ## Tempo -/

/-- A group is parked (spec 20 R376): all its live lanes stand in the entry at %cont, whose header has YP = 1, and every class count is zero. -/
def groupParked (m : Mach) (w g : Nat) : Bool :=
  let x := m.wg w
  let y := m.grp w g
  decide (y.live = 0) ||
    (y.run.isNone && y.trapMode.isNone && y.outs.isEmpty && yieldAt m (wgSite m w) x.part x.ctx x.cont &&
      (match y.frontier with
       | [e] => decide (e.addr = x.cont) && decide (e.lanes = y.live)
       | _ => false))

/-- A budget register filled from a reserve (spec 20 R380): register and reserve. -/
def topUp (v : Word) (res : DWord) (amt : Nat) : Word × DWord :=
  if v = unbounded then (v, res)
  else
    let g := min (min amt res.toNat) (0x7FFFFFFE - v.toInt).toNat
    (v + BitVec.ofNat 32 g, res - BitVec.ofNat 64 g)

/-- BTOPUP (spec 20 R380). -/
def btopupOwn (a b : Reg) (x : Iss) (m : Mach) : Own :=
  if (m.block x.w).topUp = false then trapEff x .privilege m
  else
    let y := m.grp x.w x.g
    let z := m.wg x.w
    let c := m.ctx z.part z.ctx
    let l := lowLaneD x.eff
    let i := topUp z.tempi c.ireserve (y.reg a.toNat l).toNat
    let s := topUp z.tempm c.mreserve (y.reg b.toNat l).toNat
    let m1 := m.modC z.part z.ctx fun c => { c with ireserve := i.2, mreserve := s.2 }
    let back := !(spent i.1) && !(spent s.1) && !(z.groupIds.any fun g => groupParked m x.w g)
    .done 0 (m1.modW x.w fun z =>
      { z with tempi := i.1, tempm := s.1, yieldPending := z.yieldPending && !back, yieldWg := z.yieldWg && !back })

/-- BTOPUP. -/
def execBtopup (a b : Reg) (g : Guard) (s : State) : Host.Outcome State Fault Refusal :=
  execute (.btopup a b g) (guarded (noRegion (btopupOwn a b))) s

/-! ## Extended blocks -/

/-- The WAIT class of an instruction's command. -/
def waitClass (i : Instr) : Nat := (instrWaitClass i).getD 0

/-- An outstanding command is the group's XACQ request. -/
def isXacq (o : Out) : Bool := match o.kind with | .xacq => true | _ => false

/-- XACQ: a request for an extended block joins the workgroup's queue (spec 04 R56). -/
def execXacq (g : Guard) (s : State) : Host.Outcome State Fault Refusal :=
  execute (.xacq g) (guarded (noRegion fun x m =>
    let y := m.grp x.w x.g
    if (m.block x.w).xmax = 0 then trapEff x .xregDeadlock m
    else if y.extHeld || y.extPending then .done 0 m
    else
      .done 0 ((handOn (.xacq g) x (waitClass (.xacq g)) .xacq false (m.modG x.w x.g fun y => { y with extPending := true })).modW x.w
        fun z => { z with xacqQ := z.xacqQ ++ [x.g] }))) s

/-- The contents of the extended block are gone: the registers read as zero when a block is granted (spec 04 R56, R58). -/
def Group.dropExt (y : Group) : Group :=
  { y with regs := y.regs.filter (fun e => decide (e.1 < 1024)), extHeld := false,
           pend := y.pend.map fun p => { p with writes := p.writes.filter fun u => match u with | .reg r _ _ => decide (r < 32) | _ => true } }

/-- A block granted to the head of the queue (spec 04 R56). -/
def grantExt (w : Nat) (m : Mach) : Mach :=
  match (m.wg w).xacqQ with
  | [] => m
  | g :: rest =>
    if (m.wg w).xcount < (m.block w).xmax then
      (m.modG w g fun y => { y.dropExt with extHeld := true, extPending := false, outs := y.outs.filter fun o => !(isXacq o) }).modW w
        fun z => { z with xacqQ := rest }
    else m

/-- XREL: the pending request is withdrawn or the block is given up (spec 04 R58, R59); WAIT_MISSING is one of the checks of issue (05 R73). -/
def xrelOwn (x : Iss) (m : Mach) : Own :=
  if (m.grp x.w x.g).extPending then
    .done 0 ((m.modG x.w x.g fun y => { y with extPending := false, outs := y.outs.filter fun o => !(isXacq o) }).modW x.w
      fun z => { z with xacqQ := z.xacqQ.filter fun g => decide (g ≠ x.g) })
  else .done 0 (m.modG x.w x.g Group.dropExt)

/-- XREL. -/
def execXrel (g : Guard) (s : State) : Host.Outcome State Fault Refusal :=
  execute (.xrel g) (guarded (noRegion xrelOwn)) s

/-! ## CCTL and TRACEMARK -/

/-- CCTL #0 (spec 06 R110). -/
def execCctlOff (st : BitVec 2) (s : State) : Host.Outcome State Fault Refusal :=
  execute (.cctlOff st) (noRegion fun x m => .done 0 (m.modW x.w fun z => { z with checking := false })) s

/-- CCTL #1 (spec 06 R110). -/
def execCctlOn (st : BitVec 2) (s : State) : Host.Outcome State Fault Refusal :=
  execute (.cctlOn st) (noRegion fun x m => .done 0 (m.modW x.w fun z => { z with checking := true })) s

/-- The context of a workgroup enables mark records (spec 21 R403). -/
def marksOn (m : Mach) (w : Nat) : Bool := (m.ctx (m.wg w).part (m.wg w).ctx).desc.traceEnables.getLsbD 0

/-- A TRACEMARK whose record is the one a replay command names: the workgroup halts directly after it (spec 21 R404). -/
def markHalts (z : Wg) : Bool := decide (z.replay = some (z.marks + 1))

/-- TRACEMARK (spec 21 R403, R404). -/
def execTracemark (a : Reg) (mark : BitVec 10) (st : BitVec 2) (s : State) : Host.Outcome State Fault Refusal :=
  execute (.tracemark a mark st) (noRegion fun x m =>
    if marksOn m x.w then
      let v := (m.grp x.w x.g).reg a.toNat (lowLaneD x.act)
      let m1 := (traceRecord x.w x.g 0 x.pc x.act v mark.toNat m).modW x.w fun z => { z with marks := z.marks + 1 }
      if markHalts (m.wg x.w) then
        .placed (resourceHold false .none x.w x.g (finishIssue (.tracemark a mark st) x 0 (m1.modW x.w fun z => { z with haltReq := true, replay := none })))
      else .done 0 m1
    else .done 0 m) s

/-! ## Turns -/

/-- The place of a workgroup in the order of turns (spec 19 R354). -/
def turnIndex (m : Mach) (w : Nat) : Nat := (m.wg w).wgid * (m.block w).stages + (m.wg w).stage

/-- A workgroup's launch is deterministic (spec 02 R18). -/
def isDet (m : Mach) (w : Nat) : Bool := (m.block w).det

/-- The workgroup holds its turn (spec 19 R354). -/
def holdsTurn (m : Mach) (w : Nat) : Bool := decide ((m.launch (m.wg w).launch).turn = turnIndex m w)

/-- The workgroup's turn has ended. -/
def turnEnded (m : Mach) (w : Nat) : Bool := decide (turnIndex m w < (m.launch (m.wg w).launch).turn)

/-- An instruction of turns holds its group (spec 19 R356). -/
def turnHold (k : Held) (x : Iss) (m : Mach) : Own :=
  .placed (dropSlot x.w x.g (m.modG x.w x.g fun y => { y with held := some k, gaveUp := m.cycle }))

/-- The traps of SERIAL and SERIALEND; outside deterministic mode nothing else (spec 19 R350, R356, R357). -/
def turnOwn (k : Held) (again : Group → Bool) (also : Group → Group) (x : Iss) (m : Mach) : Own :=
  let y := m.grp x.w x.g
  if isDet m x.w && (turnEnded m x.w || again y) then trapEff x .serialOrder m
  else if inRegion x x.act m then regionTrap x m
  else if inSerial x m then trapEff x .lserNested m
  else if y.trapMode.isSome then trapEff x .doubleFault m
  else if isDet m x.w then turnHold k x (m.modG x.w x.g also)
  else .done 0 m

/-- SERIAL: the group stands held until its workgroup's turn has arrived (spec 19 R356). -/
def execSerial (st : BitVec 2) (s : State) : Host.Outcome State Fault Refusal :=
  execute (.serial st) (turnOwn .serial (fun _ => false) id) s

/-- SERIALEND: the group stands held until the turn has ended (spec 19 R356). -/
def execSerialend (st : BitVec 2) (s : State) : Host.Outcome State Fault Refusal :=
  execute (.serialend st) (turnOwn .serialend (fun y => y.endedTurn) (fun y => { y with endedTurn := true })) s

/-! ## Ownership and region tables -/

/-- Two ranges of one space overlap. -/
def overlaps (v1 : Bool) (b1 n1 : Nat) (v2 : Bool) (b2 n2 : Nat) : Bool :=
  decide (v1 = v2) && decide (b1 < b2 + n2) && decide (b2 < b1 + n1)

/-- A vault range whose every byte keeps R179 (spec 10 R179). -/
def vaultRangeOk (m : Mach) (p base len : Nat) : Bool :=
  decide (base + len ≤ 2 ^ 30) && (vaultAddr m p base).isSome && (vaultAddr m p (base + len - 1)).isSome

/-- The traps of a range of OWNMARK (spec 19 R362). -/
def ownRangeTrap (m : Mach) (p : Nat) (vault : Bool) (base len : Nat) : Option Cause :=
  if base % 256 ≠ 0 ∨ len % 256 ≠ 0 ∨ len = 0 then some .misalignedAccess
  else if vault then (if vaultRangeOk m p base len then none else some .vaultBounds)
  else if 2 ^ 52 < base + len then some .pageNotPresent
  else none

/-- Base and length of an OWNMARK, of the lowest lane (spec 19 R361). -/
def ownRange (y : Group) (d a : Reg) (vault : Bool) (l : Nat) : Nat × Nat :=
  (if vault then (y.reg a.toNat l).toNat else (y.pair a.toNat l).toNat, (y.reg d.toNat l).toNat)

/-- An OWNMARK: no effect outside deterministic mode; its range checked, then its own part (spec 19 R350, R361, R362). -/
def ownmark (d a : Reg) (vault : Bool) (act : Nat → Nat → Iss → Mach → Own) : Iss → Mach → Own :=
  guarded (noRegion fun x m =>
    if isDet m x.w then
      let r := ownRange (m.grp x.w x.g) d a vault (lowLaneD x.eff)
      match ownRangeTrap m (m.wg x.w).part vault r.1 r.2 with
      | some c => trapEff x c m
      | none => act r.1 r.2 x m
    else .done 0 m)

/-- Entries of the ownership table (spec 19 R352). -/
def ownEntries : Nat := 4096

/-- OWNMARK.priv (spec 19 R361). -/
def execOwnmarkPriv (d a : Reg) (vault : Bool) (g : Guard) (s : State) : Host.Outcome State Fault Refusal :=
  execute (.ownmarkPriv d a vault g) (ownmark d a vault fun base len x m =>
    let p := (m.wg x.w).part
    let es := (m.part p).owned
    if es.any fun o => decide (o.wg ≠ x.w) && overlaps o.vault o.base o.size vault base len then trapEff x .ownership m
    else if es.length < ownEntries then .done 0 (m.modP p fun q => { q with owned := q.owned ++ [⟨x.w, vault, base, len⟩] })
    else .done 0 m) s

/-- OWNMARK.shared (spec 19 R361). -/
def execOwnmarkShared (d a : Reg) (vault : Bool) (g : Guard) (s : State) : Host.Outcome State Fault Refusal :=
  execute (.ownmarkShared d a vault g) (ownmark d a vault fun base len x m =>
    .done 0 (m.modP (m.wg x.w).part fun q =>
      { q with owned := q.owned.filter fun o =>
          !(decide (o.wg = x.w) && decide (o.vault = vault) && decide (base ≤ o.base) && decide (o.base + o.size ≤ base + len)) })) s

/-- An entry of the region table written, by a workgroup that holds its turn (spec 19 R361). -/
def setRegionEntry (e : Nat) (v : RegionEnt) (x : Iss) (m : Mach) : Own :=
  .done 0 (m.modP (m.wg x.w).part fun q => { q with regions := Store.put q.regions e v })

/-- OWNMARK.region and OWNMARK.region.clr (spec 19 R361, R362). -/
def execOwnmarkRegion (d a : Reg) (e : BitVec 6) (cls : RegionClass) (vault : Bool) (g : Guard) (s : State) : Host.Outcome State Fault Refusal :=
  execute (.ownmarkRegion d a e cls vault g)
    (if cls = .clear then
      guarded (noRegion fun x m =>
        if isDet m x.w = false then .done 0 m
        else if holdsTurn m x.w = false then trapEff x .serialOrder m
        else setRegionEntry e.toNat default x m)
    else
      ownmark d a vault fun base len x m =>
        if holdsTurn m x.w = false then trapEff x .serialOrder m
        else if (m.part (m.wg x.w).part).regions.any fun r =>
            decide (r.1 ≠ e.toNat) && r.2.used && decide (r.2.cls ≠ cls) && overlaps r.2.vault r.2.base r.2.size vault base len then
          trapEff x .regionWriter m
        else setRegionEntry e.toNat ⟨true, cls, vault, base, len⟩ x m) s

end Sys2Proof.Machine
end

