-- ==== Sys2Proof/Machine/Access.lean ====
section
/-! DEFINITION. Where a lane's access goes, what it faults with, what it reads and writes, and which accesses must come first (spec 10 R175 to R194, 11 R215, 16
R300 to R308, 17 R319 to R321, 18 R328). -/

namespace Sys2Proof.Machine

/-- A read that meets an error not yet retried waits for the retry (spec 10 R190, R191): locations in the granules an access touches. -/
def failingAt (m : Mach) (pl : Place) : Bool := if pl.vault then vaultFailing m pl.key else hbmFailing m pl.key

/-! ## Faults of a command -/

/-- The deferred fault of a list of faulting lanes: the lowest cause code, the lanes with it, the address of the lowest of them (spec 10 R193, 20 R370). -/
def laneFault (fs : List (Nat × Nat × Cause)) : Option Fail :=
  match fs with
  | [] => none
  | f :: _ =>
    let code := fs.foldl (fun acc e => min acc (causeCode e.2.2)) (causeCode f.2.2)
    let gs := fs.filter fun e => decide (causeCode e.2.2 = code)
    some ⟨causeOfCode code, maskOf (gs.map (·.1)), BitVec.ofNat 64 ((gs.map (·.2.1)).headD 0), laneInfo (gs.map fun e => (e.1, e.2.1))⟩

/-- The fault an access command meets now. -/
def accFault (m : Mach) (w : Nat) (o : Out) : Option Fail :=
  laneFault ((kindLanes o).filterMap fun a =>
    match accPlace m w o.kind a with
    | .error e => some (a.lane, a.addr, e)
    | .ok _ => none)

/-! ## The commands of a core -/

/-- Two ranges of bytes share one. -/
def placesMeet (p : Place) (n : Nat) (q : Place) (k : Nat) : Bool :=
  decide (p.vault = q.vault) && decide (p.key < q.key + k) && decide (q.key < p.key + n)

/-- Two commands touch a common byte. -/
def outsMeet (m : Mach) (e f : CoreOut) : Bool :=
  (kindLanes e.o).any fun a => (kindLanes f.o).any fun b =>
    match placeOf m e a, placeOf m f b with
    | some p, some q => placesMeet p (kindBytes e.o.kind) q (kindBytes f.o.kind)
    | _, _ => false

/-- The kinds of accesses, for the rules of order. -/
def isLoadK : OutKind → Bool
  | .load _ _ _ _ _ _ _ => true
  | _ => false

/-- A read-modify-write. -/
def isRmwK : OutKind → Bool
  | .rmw _ _ _ _ _ _ _ => true
  | _ => false

/-- A load or store, whose fault holds back the group's later stores (spec 10 R194). -/
def isAccessK (k : OutKind) : Bool := isLoadK k || isStoreK k || isRmwK k

/-- Two commutative atomics of one operation may be performed in either order (spec 18 R332, 19 R350). -/
def bothCm (det : Bool) : OutKind → OutKind → Bool
  | .rmw o1 _ _ _ _ c1 _, .rmw o2 _ _ _ _ c2 _ => !det && c1 && c2 && decide (o1 = o2)
  | _, _ => false

/-- The order and scope a command names. -/
def namedOrder : OutKind → Order × Scope
  | .load _ _ _ _ o s _ => (o, s)
  | .store _ _ o s _ => (o, s)
  | .rmw _ _ _ o s _ _ => (o, s)
  | .fence o s _ _ => (o, s)
  | .acq _ _ _ _ s _ => (.acq, s)
  | .rel _ s => (.rel, s)
  | _ => (.rlx, .group)

/-- A lane's access lies on a strongly ordered page. -/
def isStrong (m : Mach) (e : CoreOut) : Bool :=
  (kindLanes e.o).any fun a => match placeOf m e a with | some p => decide (p.typ = 3) | none => false

/-- The order and scope a command acts with: on a strongly ordered page .sc at system scope (spec 10 R187). -/
def actsOrder (m : Mach) (e : CoreOut) : Order × Scope := if isStrong m e then (.sc, .system) else namedOrder e.o.kind

/-- The scopes whose releases order remote accesses (spec 17 R321). -/
def farScope : Scope → Bool
  | .domain | .system => true
  | _ => false

/-- The lanes a command acts in. -/
def outMask (o : Out) : Mask :=
  match o.kind with
  | .fence _ _ ls _ => ls
  | .rel _ _ | .acq _ _ _ _ _ _ | .copy _ _ => o.irec.lanes
  | .gcommit ls => ls
  | .loadScratch _ _ _ ls | .storeScratch _ ls => maskOf (ls.map (·.lane))
  | .qsend _ _ _ _ _ _ ls _ => ls
  | _ => maskOf ((kindLanes o).map (·.lane))

/-- A hand-off of a lane-serialised body lies between an earlier command and a later one: a release and an acquire at group scope, over every space (spec
16 R310). -/
def handedOff (later earlier : Out) : Bool := decide (earlier.ser ≠ 0) && decide (earlier.ser ≠ later.ser)

/-- Two commands act in a common lane, or a hand-off orders them. -/
def shareLane (a b : Out) : Bool := decide (outMask a &&& outMask b ≠ 0) || handedOff a b

/-- An access of a lane to another device's memory. -/
def isRemote (m : Mach) (e : CoreOut) : Bool :=
  (kindLanes e.o).any fun a => match placeOf m e a with | some p => !p.vault && decide (paTarget p.key = 1) | none => false

/-- The two commands have accesses of one lane to device or strongly ordered pages (spec 10 R187, 16 R302). -/
def bothDevice (m : Mach) (e f : CoreOut) : Bool :=
  (kindLanes e.o).any fun a => (kindLanes f.o).any fun b =>
    decide (a.lane = b.lane) && (match placeOf m e a, placeOf m f b with | some p, some q => decide (2 ≤ p.typ) && decide (2 ≤ q.typ) | _, _ => false)

/-- A copy of the group writes another device's memory (spec 17 R321). -/
def remoteCopy (m : Mach) (e : CoreOut) : Bool :=
  match e.o.kind with
  | .copy k j =>
    let c := m.copy k
    decide (c.dstSp = .glob) &&
      (match lookup m (.cluster c.cluster) c.part c.ctx (m.slice j).dst with | .ok x => decide (paTarget x.pa = 1) | .error _ => false)
  | _ => false

/-- A waiting command that holds nothing back: WAITW reads again and again, a waiting ACQ stands at its word's home. -/
def isWaiting : OutKind → Bool
  | .waitw _ _ _ _ => true
  | .acq _ _ _ _ _ w => w.isSome
  | _ => false

/-! ## What must come first -/

/-- The parts of a memory command: it reads, it writes. -/
def readsK : OutKind → Bool
  | .load _ _ _ _ _ _ _ | .rmw _ _ _ _ _ _ _ | .waitw _ _ _ _ | .acq _ _ _ _ _ _ => true
  | _ => false

/-- A command that may write memory. -/
def writesK : OutKind → Bool
  | .store _ _ _ _ _ | .rmw _ _ _ _ _ _ _ | .rel _ _ | .acq _ _ _ _ _ _ | .gcommit _ => true
  | _ => false

/-- A scratchpad access whose passes have not come (spec 16 R308); QSEND reads its message as a scratchpad load does (23 R422). -/
def scratchPending : OutKind → Bool
  | .loadScratch _ _ none _ | .storeScratch _ _ | .qsend _ _ _ none _ _ _ _ => true
  | _ => false

/-- An access of a thread, or an end of a Gambit region, that has not been performed. -/
def accessK (k : OutKind) : Bool := readsK k || writesK k || scratchPending k

/-- An earlier command that holds back a later one of its lanes by a rule of order, with the later one's order and scope (spec 10 R187, R194, 16 R301, R304,
R310, 17 R321, 18 R328, R336). -/
def groupOrder (m : Mach) (e : CoreOut) (f : Out) : Bool :=
  let fe : CoreOut := ⟨e.w, e.g, f⟩
  let eo := actsOrder m e
  let fo := actsOrder m fe
  let scr := scratchPending e.o.kind
  let store := match e.o.kind with | .storeScratch _ _ => true | _ => false
  let writes := writesK e.o.kind || store
  decide (f.id < e.o.id) &&
    ((writes && !scr && isAccessK f.kind && (f.fail.isSome || (accFault m e.w f).isSome)) ||
     (shareLane e.o f &&
       ((writes && readsK f.kind) || (readsK f.kind && hasAcq fo.1) || handedOff e.o f && accessK f.kind ||
        (match f.kind with
         | .fence o _ _ acqd => (writes && hasRel o) || decide (o = .sc) || (hasAcq o && !acqd)
         | .acq _ _ _ _ _ _ | .gcommit _ => true
         | .waitw _ _ _ _ => isLoadK e.o.kind && outsMeet m e fe
         | _ => false) ||
        (hasRel eo.1 && ((accessK f.kind && (farScope eo.2 || !(isRemote m fe))) || (farScope eo.2 && remoteCopy m fe))) ||
        (hasAcq eo.1 && farScope eo.2 && readsK f.kind && isRemote m fe))) ||
     bothDevice m e fe)

/-- An earlier command that a fence of the lanes waits for: loads for its acquire part, every access for its release part (spec 16 R304, 17 R321). -/
def fenceWaits (m : Mach) (w g : Nat) (o : Out) (ord : Order) (sc : Scope) (f : Out) : Bool :=
  let fe : CoreOut := ⟨w, g, f⟩
  let loads := readsK f.kind || (match f.kind with | .loadScratch _ _ _ _ => true | _ => false)
  decide (f.id < o.id) && shareLane o f &&
    ((hasAcq ord && loads) || (hasRel ord && (loads || accessK f.kind) && (farScope sc || !(isRemote m fe))) || (hasRel ord && farScope sc && remoteCopy m fe))

/-- An earlier command of the group that a command waits for by a rule of order. -/
def holdsBack (m : Mach) (w g : Nat) (o f : Out) : Bool :=
  match o.kind with
  | .fence ord sc _ _ => fenceWaits m w g o ord sc f
  | _ => groupOrder m ⟨w, g, o⟩ f

/-- The commands of a group that cannot complete before a TRAPRET: they have faulted, or the rules put one that has before them. -/
def stuckOuts (m : Mach) (w g : Nat) : List Nat :=
  let outs := (m.grp w g).outs
  if outs.all fun o => o.fail.isNone then []
  else outs.foldl (fun acc o => if o.fail.isSome || outs.any (fun f => acc.contains f.id && holdsBack m w g o f) then acc ++ [o.id] else acc) []

/-- A command that cannot complete before a TRAPRET. -/
def behindFault (m : Mach) (w g : Nat) (o : Out) : Bool := o.fail.isSome || (stuckOuts m w g).contains o.id

/-- What a handler loads does not wait for what cannot complete before its TRAPRET (log 40). -/
def handlerPasses (m : Mach) (e : CoreOut) (f : Out) : Bool :=
  isLoadK e.o.kind &&
    (match (m.grp e.w e.g).trapMode with
     | some t => decide (f.id < t.since) && decide (t.since ≤ e.o.id) && behindFault m e.w e.g f
     | none => false)

/-- Two commands have accesses of two different threads to a common byte. -/
def otherThread (m : Mach) (e f : CoreOut) : Bool :=
  (kindLanes e.o).any fun a => (kindLanes f.o).any fun b =>
    (decide (e.w ≠ f.w) || decide (e.g ≠ f.g) || decide (a.lane ≠ b.lane)) &&
      match placeOf m e a, placeOf m f b with
      | some p, some q => placesMeet p (kindBytes e.o.kind) q (kindBytes f.o.kind)
      | _, _ => false

/-- A thread's two accesses name a common byte, whether or not the first can be performed. -/
def sameThread (e f : CoreOut) : Bool :=
  decide (e.w = f.w) && decide (e.g = f.g) && decide (kindSpace e.o.kind = kindSpace f.o.kind) &&
    (kindLanes e.o).any fun a => (kindLanes f.o).any fun b =>
      decide (a.lane = b.lane) && decide (a.addr < b.addr + kindBytes f.o.kind) && decide (b.addr < a.addr + kindBytes e.o.kind)

/-- A buffered access that waits for its workgroup's turn: no thread of another group sees it (spec 19 R353, R355). -/
def buffered (m : Mach) (f : CoreOut) : Bool := f.o.shared && !(holdsTurn m f.w)

/-- A pending store that no other thread may see yet: what must come before it has not (spec 16 R301, 18 R328). -/
def unseen (m : Mach) (f : CoreOut) : Bool := (m.grp f.w f.g).outs.any fun p => groupOrder m f p

/-- An earlier command of the core to a common byte comes first (spec 16 R300, R307): a load is answered from pending stores that its thread may see, and waits for
the other accesses; a store or an atomic waits for all of them.  A load that has faulted holds back its own thread's later loads of the byte. -/
def byteFirst (m : Mach) (e f : CoreOut) : Bool :=
  decide (f.o.id < e.o.id) && !(decide (e.w = f.w) && decide (e.g = f.g) && handlerPasses m e f.o) &&
    (if f.o.fail.isSome then isLoadK e.o.kind && (isLoadK f.o.kind || isRmwK f.o.kind) && sameThread e f
     else
       !(isWaiting f.o.kind) && outsMeet m e f &&
         (if isLoadK e.o.kind then
            (readsK f.o.kind || (match f.o.kind with | .rel _ _ => true | _ => false)) || (isStoreK f.o.kind && !(buffered m f) && otherThread m e f && unseen m f)
          else (readsK f.o.kind || writesK f.o.kind) && !(bothCm (isDet m e.w) e.o.kind f.o.kind)))

/-- An earlier command of the group that must complete before an access is performed. -/
def groupFirst (m : Mach) (e : CoreOut) (f : Out) : Bool := groupOrder m e f && !(handlerPasses m e f)

/-- Entries of the turn buffer ahead of a buffered access: it waits for its workgroup's turn, and for the earlier ones (spec 19 R355). -/
def turnFirst (m : Mach) (e : CoreOut) : Bool :=
  e.o.shared &&
    (!(holdsTurn m e.w) ||
      (m.wg e.w).groupIds.any fun g => (m.grp e.w g).outs.any fun f =>
        f.shared && decide (f.id < e.o.id) && writesK f.kind && !(isWaiting f.kind) && f.fail.isNone)

/-- The access of a lane waits for its translation, or for the second read of a location (spec 10 R185, R190, R191). -/
def laneWaits (m : Mach) (e : CoreOut) (a : LaneAcc) : Bool :=
  (decide (kindSpace e.o.kind = .global) && xlatWaits m (wgSite m e.w) (m.wg e.w).part (m.wg e.w).ctx a.addr) ||
    (match placeOf m e a with | some p => failingAt m p | none => false)

/-- Nothing but its workgroup's turn holds a command back. -/
def mayPerformNow (m : Mach) (e : CoreOut) : Bool :=
  !((coreOuts m (m.wg e.w).core).any (byteFirst m e)) && !((m.grp e.w e.g).outs.any (groupFirst m e)) && !((kindLanes e.o).any (laneWaits m e))

/-- A command may be performed now. -/
def mayPerform (m : Mach) (e : CoreOut) : Bool := mayPerformNow m e && !(turnFirst m e)

/-! ## Resources -/

/-- A strongly ordered access of the group has not completed: the group issues no further memory instruction (spec 10 R187); one that has faulted holds none
back (log 106). -/
def strongPending (m : Mach) (w g : Nat) : Bool := (m.grp w g).outs.any fun o => o.fail.isNone && isStrong m ⟨w, g, o⟩

/-- Entries of a core's turn buffer in use: a shared access of a lane, or an engine command, that waits for its turn (spec 19 R355). -/
def turnEntries (m : Mach) (core : Nat) : Nat :=
  ((coreOuts m core).filter fun e => e.o.shared && !(holdsTurn m e.w)).foldl (fun acc e =>
    acc + match e.o.kind with | .coll _ _ _ _ left _ => left.length | _ => max 1 ((kindLanes e.o).filter (·.sh)).length) 0

/-- The turn buffer has no room for more entries, and the turn has not arrived (spec 19 R355). -/
def turnFull (m : Mach) (w k : Nat) : Bool := !(holdsTurn m w) && decide (512 < turnEntries m (m.wg w).core + k)

/-- Region slots of a core in use (spec 18 R341). -/
def regionSlots (m : Mach) (core : Nat) : Nat := (m.regions.filter fun q => decide ((m.wg q.wg).core = core) && q.aborted.isNone).length

/-- A command that waits in the turn buffer (spec 19 R355). -/
def kLodged (m : Mach) (c : KCmd) : Bool := c.shared && !(holdsTurn m c.wg)

/-- Commands that wait at a Knight: those in a turn buffer are not among them (spec 15 R295, 19 R355). -/
def kWaiting (m : Mach) (cl : Nat) : Nat := ((Store.get default m.clusters cl : Cluster).waiting.filter fun c => !(kLodged m c)).length

/-- Queues of engine lanes have room for so many commands each (spec 14 R265, R266). -/
def lanesRoom (m : Mach) (needs : List (Nat × Nat)) : Bool :=
  needs.all fun e => decide ((Store.get default m.elanes e.1 : ELane).queue.length + e.2 ≤ 64)

/-- What a group's resource hold waits for is there (spec 06 R100). -/
def resourceFree (m : Mach) (w g : Nat) : Resource → Bool
  | .cls c => decide (classCount (m.grp w g) c < 63)
  | .rook => decide (rookHeld m (clusterOfCore (m.wg w).core) < 256)
  | .lanes needs => lanesRoom m needs
  | .knight => decide (kWaiting m (clusterOfCore (m.wg w).core) < 16)
  | .slots n => decide (regionSlots m (m.wg w).core + n ≤ 64)
  | .turn n => !(turnFull m w n)
  | .strong => !(strongPending m w g)
  | .code va => !(targetWaits m w va)
  | .none => true

/-! ## Reading and writing -/

/-- A held sector of the hidden read cache takes the bytes of a read that bypassed it, so that no later load of the core's threads returns an older write (spec 16
R300, log 98). -/
def refreshCache (core : Nat) (pl : Place) (m : Mach) : Mach :=
  if pl.vault || (Store.get [] (m.core core).cache (pl.key / 32)).isEmpty then m
  else m.modK core fun c => { c with cache := Store.put c.cache (pl.key / 32) (readPa m (pl.key / 32 * 32) 32) }

/-- A load of a lane from memory: a held sector of the hidden read cache where one is hit, else the home; a normal page's sector is filled (spec 10 R189,
17 R319, log 6). -/
def homeBytes (m : Mach) (core : Nat) (pl : Place) (n : Nat) (cached : Bool) : List Byte × Mach :=
  if pl.vault then (Memory.readN m.vault pl.key n, m)
  else if cached && decide (pl.typ = 0) then
    let sec := Store.get [] (m.core core).cache (pl.key / 32)
    let m1 := m.useFree
    if !sec.isEmpty && Config.cacheHit m.freeCtr then ((List.range n).map fun k => sec.getD (pl.key % 32 + k) 0, m1)
    else
      (readPa m pl.key n,
        m1.modK core fun c => { c with cache := cachePut (Config.pick m.freeCtr) (pl.key / 32) (readPa m (pl.key / 32 * 32) 32) c.cache })
  else (readPa m pl.key n, refreshCache core pl m)

/-- The stores of the core that a group's load may be answered from: its own group's, and those of other groups that no turn holds (spec 16 R307, 19 R355). -/
def visibleOuts (m : Mach) (core w g : Nat) : List CoreOut :=
  (sortOuts (coreOuts m core)).filter fun f => (decide (f.w = w) && decide (f.g = g)) || !(buffered m f)

/-- The bytes a lane's load of a group returns (spec 16 R307). -/
def loadBytes (m : Mach) (w g id : Nat) (pl : Place) (n : Nat) (cached : Bool) : List Byte × Mach :=
  let core := (m.wg w).core
  let outs := visibleOuts m core w g
  let r := homeBytes m core pl n cached
  ((List.range n).map fun k =>
      match forwarded m outs id pl.vault (pl.key + k) with
      | some b => b
      | none =>
        match (if pl.vault then none else combined m core (pl.key + k)) with
        | some b => b
        | none => r.1.getD k 0,
    r.2)

/-- A byte enters a write-combining line; a full line is emptied (spec 10 R187). -/
def combineByte (core pa : Nat) (b : Byte) (m : Mach) : Mach :=
  let m1 := m.modK core fun c =>
    { c with
      combine := Store.upd [] c.combine (pa / 128) fun es => (es.filter fun e => decide (e.1 ≠ pa % 128)) ++ [(pa % 128, b)]
      combineAt := if (Store.get [] c.combine (pa / 128)).isEmpty then Store.put c.combineAt (pa / 128) m.cycle else c.combineAt }
  if (Store.get [] (m1.core core).combine (pa / 128)).length = 128 then flushLine core (pa / 128) m1 else m1

/-- A lane's store is performed at its home, or held in a write-combining line (spec 10 R187, R196). -/
def storeBytes (core : Nat) (who : Agent) (pl : Place) (bs : List Byte) (m : Mach) : Mach :=
  if pl.vault then { m with vault := Memory.writeN m.vault pl.key bs }
  else if pl.typ = 1 then (List.range bs.length).foldl (fun acc k => combineByte core (pl.key + k) (bs.getD k 0) acc) m
  else writePa m (some core) who pl.key bs

/-- The register writes of a lane that receives bytes: a sub-word extended, else registers from the lowest up (spec 10 R195). -/
def loadWrites (n : Nat) (sext : Bool) (dst : Reg) (lane : Nat) (bs : List Byte) : List LaneWrite :=
  let v := leNat bs
  if n < 4 then
    [.reg dst.toNat lane (if sext then (BitVec.ofNat (8 * n) v).signExtend 32 else BitVec.ofNat 32 v)]
  else regWritesOf dst.toNat (n / 4) lane v

end Sys2Proof.Machine
end

