-- ==== Sys2Proof/Machine/Regions.lean ====
section
/-! DEFINITION. The lines, locks, loads and stores of an open Gambit region (spec 18 R343 to R348). -/

namespace Sys2Proof.Machine

/-- A region of a lane that is still being run. -/
def Region.open_ (q : Region) : Bool := !q.asked && q.aborted.isNone

/-- The region is of this lane. -/
def Region.isOf (q : Region) (w g l : Nat) : Bool := decide (q.wg = w) && decide (q.grp = g) && decide (q.lane = l)

/-- The open region of a lane. -/
def regionOf (m : Mach) (w g l : Nat) : Option Region := m.regions.find? fun q => q.isOf w g l && !q.asked

/-- The region of a lane whose outcome is not decided: it is being run, or its commit has been asked for. -/
def liveRegion (m : Mach) (w g l : Nat) : Option Region := m.regions.find? fun q => q.isOf w g l && q.aborted.isNone

/-- The region of a lane changed. -/
def modRegion (w g l : Nat) (f : Region → Region) (m : Mach) : Mach :=
  { m with regions := m.regions.map fun q => if q.isOf w g l then f q else q }

/-- An abort is decided; its locks are released; it is delivered at the lane's next wait point on LD or at its GCOMMIT (spec 18 R347, R348). -/
def markAbort (w g l cause code : Nat) (m : Mach) : Mach :=
  modRegion w g l (fun q => if q.aborted.isNone then { q with aborted := some (cause, code), locked := [] } else q) m

/-- The age of regions: timestamp, device-wide core, group slot, lane (spec 18 R343). -/
def regionAge (m : Mach) (q : Region) : List Nat := [q.stamp, (m.wg q.wg).core, (m.grp q.wg q.grp).slot, q.lane]

/-- One region is older than another. -/
def olderRegion (m : Mach) (a b : Region) : Bool := decide (regionAge m a < regionAge m b)

/-- Regions that have locked a line, but for one. -/
def lockers (m : Mach) (q : Region) (line : Nat) : List Region :=
  m.regions.filter fun r => !(r.isOf q.wg q.grp q.lane) && r.aborted.isNone && r.locked.contains line

/-- The younger of two regions aborts with cause YOUNGER. -/
def abortYounger (q r : Region) (m : Mach) : Mach :=
  if olderRegion m q r then markAbort r.wg r.grp r.lane 8 0 m else markAbort q.wg q.grp q.lane 8 0 m

/-- A region touches a line: regions that have locked it conflict, and an eager region locks it (spec 18 R348). -/
def touchLine (w g l line : Nat) (m : Mach) : Mach :=
  match liveRegion m w g l with
  | none => m
  | some q =>
    modRegion w g l (fun q => if q.eager && q.aborted.isNone && !(q.locked.contains line) then { q with locked := q.locked ++ [line] } else q)
      ((lockers m q line).foldl (fun acc r => abortYounger q r acc) m)

/-- A region reads a line, whether or not its commit has been asked for; a fifth one aborts it with cause CAPACITY (spec 18 R341, R345, R346). -/
def readLine (w g l vline line : Nat) (m : Mach) : Mach :=
  match liveRegion m w g l with
  | none => m
  | some q =>
    if q.lines.any (fun e => decide (e.1 = vline)) then touchLine w g l line m
    else if q.lines.length < 4 then touchLine w g l line (modRegion w g l (fun q => { q with lines := q.lines ++ [(vline, line)] }) m)
    else markAbort w g l 3 0 m

/-- Two ranges of bytes of one region meet. -/
def rangesMeet (a n b k : Nat) : Bool := decide (a < b + k) && decide (b < a + n)

/-- The bytes of a range that the store entries buffer, by offset, the latest entry first (spec 18 R344). -/
def bufferedBytes (es : List RStore) (a n : Nat) : List (Nat × Byte) :=
  (List.range n).filterMap fun k =>
    (es.reverse.find? fun e => decide (e.addr ≤ a + k) && decide (a + k < e.addr + e.size)).map fun e =>
      (k, e.val.extractLsb' (8 * (a + k - e.addr)) 8)

/-- What a load of a region returns beside memory: the entry's form where the latest entry it meets is its own range, else bytes without a tag
(spec 18 R345). -/
def regionForm (q : Region) (a n : Nat) : RForm :=
  match (q.stores.filter fun e => rangesMeet a n e.addr e.size).reverse.head? with
  | none => .input
  | some e =>
    if e.addr = a ∧ e.size = n then (match e.sym with | some (ad, sz, k) => .entry ad sz k | none => .plain) else .plain

/-- A load that meets part of an entry, or entries whose values are symbolic, in a range that is not an entry's own: the region is plain from then on
(results stay exact, spec 18 R345). -/
def mixedLoad (q : Region) (a n : Nat) : Bool :=
  let es := q.stores.filter fun e => rangesMeet a n e.addr e.size
  match es.reverse.head? with
  | none => false
  | some e => !(decide (e.addr = a) && decide (e.size = n)) && (es.any (fun e => e.sym.isSome) || decide ((bufferedBytes q.stores a n).length < n))

/-- A load of a lane is issued inside its region. -/
def regionLoadAt (w g l addr n : Nat) (areg : List Nat) (m : Mach) : Option (RForm × List (Nat × Byte)) × Mach :=
  match regionOf m w g l with
  | none => (none, m)
  | some q =>
    (some (if q.tagged areg then .plain else regionForm q addr n, bufferedBytes q.stores addr n),
      if mixedLoad q addr n then modRegion w g l (fun q => { q with plain := true }) m else m)

/-- A store of a lane inside its region: an entry, symbolic when the value is tagged; a tagged address or a half of a tagged pair turns the region
plain; a ninth entry aborts it with cause CAPACITY (spec 18 R345). -/
def Region.store (q : Region) (addr n : Nat) (val : DWord) (dreg : Nat) (areg : List Nat) : Region :=
  let two := decide (n = 8)
  let t := q.tagOf dreg two
  let q1 := if q.tagged areg || (t.isNone && q.tagged (spanOf dreg two)) then { q with plain := true } else q
  let es := q1.stores.filter fun e => !(decide (e.addr = addr) && decide (e.size = n))
  let sym := match t with | some t => if q.tagged areg then none else some (t.addr, t.size, t.k) | none => none
  if es.length < 8 then { q1 with stores := es ++ [⟨addr, n, val, sym⟩] } else { q1 with aborted := some (q1.aborted.getD (3, 0)), locked := [] }

/-- The line of an address, where it translates. -/
def lineOf (m : Mach) (w va : Nat) (rt : Right) : Option Nat :=
  match translate m (wgSite m w) (m.wg w).part (m.wg w).ctx va rt with
  | .ok x => some (x.pa / 128)
  | .error _ => none

/-- A store of a lane inside its region takes an entry and writes no memory; an eager region locks the line (spec 18 R344, R348). -/
def regionStoreAt (w g l addr n : Nat) (val : DWord) (dreg : Nat) (areg : List Nat) (m : Mach) : Mach :=
  let m1 := modRegion w g l (fun q => if q.open_ then q.store addr n val dreg areg else q) m
  match lineOf m w addr .write with
  | some line => touchLine w g l line m1
  | none => m1

/-- The tag a load leaves in its destination (spec 18 R345). -/
def Region.loaded (q : Region) (dst n addr : Nat) (f : RForm) : Region :=
  let two := decide (n = 8)
  match f with
  | .input => q.setTag ⟨dst, two, addr, n, 0⟩
  | .entry a s k => q.setTag ⟨dst, two, a, s, k⟩
  | .plain => q.clearTags (spanOf dst two)

/-- A load of a lane has landed inside its region: the lines it read, the tag of its destination. -/
def regionLanded (w g dst n : Nat) (a : LaneAcc) (pa : Nat) (m : Mach) : Mach :=
  match a.region with
  | none => m
  | some (f, buf) =>
    let m1 := modRegion w g a.lane (fun q => if q.open_ then q.loaded dst n a.addr f else q) m
    if buf.length = n then m1 else readLine w g a.lane (a.addr / 128) (pa / 128) m1

end Sys2Proof.Machine
end

