-- ==== Sys2Proof/Machine/Sched.lean ====
section
/-! DEFINITION. The steps of a core's front end: a clause is fetched and decoded, an issue slot takes a group, results land, a slot stays idle, and the
trap of a word with a reserved field (spec 05 R65 to R73, 06 R96 to R103, 21 R391, R398). -/

namespace Sys2Proof.Machine

/-! ## Fetching and decoding a clause -/

/-- A trap of fetching or decoding: precise, of the run's lanes, at an address, with the words of its record (spec 05 R65, R71, 20 R369, R371). -/
def fetchTrap (w g : Nat) (c : Cause) (at_ : DWord) (word lit : Word) (addr info : DWord) (m : Mach) : Mach :=
  match (m.grp w g).run with
  | none => m
  | some r =>
    let ls := r.lanes &&& (m.grp w g).live
    enterTrap w g ⟨⟨at_, ls, word, lit, 0, 0, 0⟩, ⟨c, ls, addr, info⟩, 0xFF, at_, ls, .run, none⟩ m

/-- %trapinfo of a fetch fault: the lanes, and the low word of the address of the word that faulted (spec 05 R65). -/
def fetchInfo (ls : Mask) (va : DWord) : DWord := BitVec.ofNat 64 (ls.toNat + 2 ^ 32 * (va.toNat % 2 ^ 32))

/-- The words of a clause, in ascending order, or the first fault (spec 05 R65). -/
def fetchWords (m : Mach) (k : Site) (p c : Nat) : Nat → Nat → Except (Cause × Nat) (List Word)
  | _, 0 => .ok []
  | va, n + 1 =>
    match fetchWord m k p c va with
    | .error e => .error (e, va)
    | .ok w =>
      match fetchWords m k p c (va + 4) n with
      | .error e => .error e
      | .ok ws => .ok (w :: ws)

/-- The checks of a header, orders 1 to 3 (spec 05 R71). -/
def headerCheck (h : Word) (count : Nat) : Option Cause :=
  let n := (bits h 28 4).toNat
  if (bits h 0 4).toNat ≠ 0xA ∨ n = 0 ∨ 6 ≤ (bits h 24 3).toNat then some .illegalHeader
  else if bits h 4 3 ≠ 0 then some .reservedField
  else if 24 < count + n then some .runTooLong
  else none

/-- The words of a clause that are decoded, with their places and how many words follow each: the literal of an L-format word is not decoded as an opcode
(spec 05 R71). -/
def decodedWords : Nat → List Word → List (Nat × Word × Nat)
  | _, [] => []
  | k, [w] => [(k, w, 0)]
  | k, w :: l :: ws =>
    if opLiteral (fOp w) then (k, w, ws.length + 1) :: decodedWords (k + 2) ws else (k, w, ws.length + 1) :: decodedWords (k + 1) (l :: ws)

/-- One check of the words, at the first word that fails it. -/
def firstFailing (ws : List (Nat × Word × Nat)) (c : Cause) (bad : Word → Nat → Bool) : Option (Nat × Word × Cause) :=
  (ws.find? fun e => bad e.2.1 e.2.2).map fun e => (e.1, e.2.1, c)

/-- The checks of the words of a clause, orders 4 to 7, each over the words in ascending address order: the place of the word and the cause (spec 05 R71). -/
def wordsCheck (h : Word) (words : List Word) : Option (Nat × Word × Cause) :=
  let ws := decodedWords 0 words
  (firstFailing ws .illegalOpcode fun w _ => !(opAssigned (fOp w)))
    <|> (firstFailing ws .controlPlacement fun w left => opLast (fOp w) && (decide (left ≠ 0) || decide (bits h 27 1 = 0)))
    <|> (firstFailing ws .classMismatch fun w _ => !(opControl (fOp w)) && decide (opClass (fOp w) ≠ (bits h 24 3).toNat))
    <|> (firstFailing ws .clauseOverrun fun w left => opLiteral (fOp w) && decide (left = 0))

/-- The classes a clause waits on: its WAIT field, and LD while a lane's Gambit commit is not known (spec 05 R70, 18 R347). -/
def waitMask (m : Mach) (w g : Nat) (r : Run) : BitVec 8 :=
  bits r.hdr 8 8 ||| (if (regionsOf m w g r.lanes).any (·.asked) then 1 else 0)

/-- Every count a wait names is zero; in trap mode a command that has faulted does not count (spec 05 R70, 20 R367, log 40). -/
def countsZero (m : Mach) (w g : Nat) (k : BitVec 8) : Bool :=
  (m.grp w g).outs.all fun o => !(k.getLsbD o.cls) || ((m.grp w g).trapMode.isSome && o.fail.isSome)

/-- The group stands at a wait point; it keeps its slot only while the counts are zero (spec 06 R97, R98, log 108, 118). -/
def standWaiting (w g : Nat) (r : Run) (m : Mach) : Mach :=
  let m1 := m.modG w g fun y => { y with run := some { r with waiting := true }, stood := m.cycle }
  if countsZero m w g (waitMask m w g r) then m1
  else dropSlot w g (m1.modG w g fun y => { y with gaveUp := m.cycle })

/-- A clause that has passed its checks stands ready to issue (spec 05 R67, R68). -/
def clauseReady (w g : Nat) (r : Run) (h : Word) (ws : List Word) (m : Mach) : Mach :=
  let n := (bits h 28 4).toNat
  let r1 : Run := { r with hdr := h, pc := r.hdrAddr + 4, rest := ws, count := r.count + n, fetched := true, waiting := false }
  if waitMask m w g r1 = 0 then m.modG w g fun y => { y with run := some r1 } else standWaiting w g r1 m

/-- The address of the last word of a clause that is fetched, as far as its header can be read (spec 05 R65, R71). -/
def clauseEnd (m : Mach) (w : Nat) (r : Run) : Nat :=
  match fetchWord m (wgSite m w) (m.wg w).part (m.wg w).ctx r.hdrAddr.toNat with
  | .ok h => if (headerCheck h r.count).isNone then r.hdrAddr.toNat + 4 * (bits h 28 4).toNat else r.hdrAddr.toNat
  | .error _ => r.hdrAddr.toNat

/-- The fetch of a clause waits: for a walk, or for the second read of a word (spec 05 R65, 10 R185, R190). -/
def clauseWaits (m : Mach) (w : Nat) (r : Run) : Bool :=
  let x := m.wg w
  let waits := fun va => fetchWaits m (wgSite m w) x.part x.ctx va
  waits r.hdrAddr.toNat || (List.range ((clauseEnd m w r - r.hdrAddr.toNat) / 4)).any fun k => waits (r.hdrAddr.toNat + 4 + 4 * k)

/-- The clause of a group's run is fetched and decoded: faults and failed checks trap in their order (spec 05 R65, R71). -/
def fetchClause (w g : Nat) (r : Run) (m : Mach) : Mach :=
  let x := m.wg w
  let ls := r.lanes &&& (m.grp w g).live
  let a := r.hdrAddr
  match fetchWord m (wgSite m w) x.part x.ctx a.toNat with
  | .error e => fetchTrap w g e a 0 0 a (fetchInfo ls a) m
  | .ok h =>
    match headerCheck h r.count with
    | some c => fetchTrap w g c a h 0 0 (infoLow m h) m
    | none =>
      match fetchWords m (wgSite m w) x.part x.ctx (a.toNat + 4) (bits h 28 4).toNat with
      | .error (e, va) => fetchTrap w g e a 0 0 (BitVec.ofNat 64 va) (fetchInfo ls (BitVec.ofNat 64 va)) m
      | .ok ws =>
        match wordsCheck h ws with
        | some (k, word, c) =>
          fetchTrap w g c (a + BitVec.ofNat 64 (4 + 4 * k)) word (if opLiteral (fOp word) then ws.getD (k + 1) 0 else 0) 0 (infoLow m word) m
        | none => clauseReady w g r h ws m

/-- The translations that a clause's fetch used are held (spec 10 R185). -/
def clauseTouch (w : Nat) (r : Run) (m : Mach) : Mach :=
  let x := m.wg w
  let fill := fun (a : Nat) (acc : Mach) => touchTlb (wgSite m w) x.part x.ctx a acc
  fill (clauseEnd m w r) (fill r.hdrAddr.toNat m)

/-- CLAUSE_FETCH: a group in a run reaches its next clause (spec 05 R65). -/
def clauseFetch (w g : Nat) (m : Mach) : Mach :=
  match (m.grp w g).run with
  | none => m
  | some r =>
    if wgActive (m.wg w) && !r.fetched && (slotOf m w g).isSome && !(clauseWaits m w r) then fetchClause w g r (clauseTouch w r m) else m

/-- CLAUSE_FETCH. -/
def execClauseFetch (w g : Nat) (s : State) : Host.Outcome State Fault Refusal := eventStep (clauseFetch w g) s

/-! ## Issue slots -/

/-- The entries a group may issue: not the entry at %cont while a yield is pending (spec 20 R376); between LSER and LSEND only the current lane
(spec 07 R135). -/
def issuable (m : Mach) (w g : Nat) : List Entry :=
  let x := m.wg w
  let y := m.grp w g
  let es := y.frontier.filter fun e => !(x.yieldPending && decide (e.addr = x.cont) && yieldAt m (wgSite m w) x.part x.ctx e.addr)
  match y.lser with
  | some z => es.filterMap fun e => if e.lanes.getLsbD z.cur then some { e with lanes := maskOf [z.cur] } else none
  | none => es

/-- A group is ready (spec 06 R97, R99, R100): it has a run to resume or an entry to issue, nothing holds it, and what it waits for is there. -/
def groupReady (m : Mach) (w g : Nat) : Bool :=
  let x := m.wg w
  let y := m.grp w g
  wgActive x && decide (y.live ≠ 0) && (slotOf m w g).isNone &&
    match y.held, y.run with
    | some (.resource r), _ => (if r = .none then mayGoOn x else mayPass x y) && resourceFree m w g r
    | some _, _ => false
    | none, some r => !r.waiting && (r.goes || mayPass x y)
    | none, none => mayGoOn x && (bestEntry (issuable m w g)).isSome

/-- The rank of a ready group on a slot; the smallest is taken (spec 06 R97). -/
def slotRank (m : Mach) (slot w g : Nat) : Nat × Nat × Nat × Nat :=
  let y := m.grp w g
  (255 - (m.block w).priority, if y.slotYield = some slot then 1 else 0, y.gaveUp, y.slot)

/-- One rank is before another. -/
def rankBefore (a b : Nat × Nat × Nat × Nat) : Bool :=
  decide (a.1 < b.1) || (decide (a.1 = b.1) && (decide (a.2.1 < b.2.1) || (decide (a.2.1 = b.2.1) &&
    (decide (a.2.2.1 < b.2.2.1) || (decide (a.2.2.1 = b.2.2.1) && decide (a.2.2.2 < b.2.2.2))))))

/-- The ready groups of a core. -/
def readyGroups (m : Mach) (core : Nat) : List (Nat × Nat) :=
  (m.wgIds.filter fun w => decide ((m.wg w).core = core)).flatMap fun w =>
    ((m.wg w).groupIds.filter fun g => groupReady m w g).map fun g => (w, g)

/-- The first of a list of groups on a slot (spec 06 R97). -/
def bestGroup (m : Mach) (slot : Nat) : List (Nat × Nat) → Option (Nat × Nat)
  | [] => none
  | e :: es =>
    match bestGroup m slot es with
    | none => some e
    | some f => if rankBefore (slotRank m slot f.1 f.2) (slotRank m slot e.1 e.2) then some f else some e

/-- The lanes whose thread a breakpoint or watchpoint matches (spec 21 R390). -/
def dbgLanes (d : DbgPoint) (w : Nat) (y : Group) (ls : Mask) : Mask :=
  if bits d.ctl 18 1 = 1 then ls
  else if d.wg = w then maskIf fun l => ls.getLsbD l && decide ((Store.get 0 y.tid l).toNat = (bits d.ctl 8 10).toNat)
  else 0

/-- A code breakpoint of the core matches an entry (spec 21 R391). -/
def breakMatches (m : Mach) (w : Nat) (y : Group) (e : Entry) : Bool :=
  (m.core (m.wg w).core).breaks.any fun b =>
    decide (bits b.2.ctl 0 1 = 1) && decide (b.2.addr = e.addr) && decide (dbgLanes b.2 w y (e.lanes &&& y.live) ≠ 0)

/-- Lanes taken out of the entry at an address. -/
def leaveEntry (fr : List Entry) (addr : DWord) (ls : Mask) : List Entry :=
  (fr.map fun e => if e.addr = addr then { e with lanes := e.lanes &&& ~~~ls } else e).filter fun e => decide (e.lanes ≠ 0)

/-- A group's run starts at an entry, which leaves the frontier (spec 06 R96, R101). -/
def startRun (w g : Nat) (e : Entry) (m : Mach) : Mach :=
  { (m.modG w g fun y =>
    { y with frontier := leaveEntry y.frontier e.addr e.lanes,
             run := some { lanes := e.lanes, hdrAddr := e.addr, hdr := 0, pc := e.addr, rest := [], count := 0, fetched := false, waiting := false,
                           moves := [], started := 0, born := m.nextCmd, noMatch := false, goes := false } }) with nextCmd := m.nextCmd + 1 }

/-- A breakpoint has matched: the workgroup halts before the entry's first word issues (spec 21 R391, R397). -/
def haltAtBreak (w : Nat) (m : Mach) : Mach :=
  m.modW w fun x => { x with haltReq := true, stepEvent := if x.stepLeft.isSome then some (x.stepEvent.getD 3) else x.stepEvent }

/-- A choice on a slot has been made: the slot yields that it answers are over (spec 06 R107). -/
def clearYields (core slot : Nat) (m : Mach) : Mach :=
  (m.wgIds.filter fun w => decide ((m.wg w).core = core)).foldl (fun acc w =>
    acc.modW w fun x => { x with groups := x.groups.map fun e => if e.2.slotYield = some slot then (e.1, { e.2 with slotYield := none }) else e }) m

/-- A group takes a slot: it resumes its run, or starts one at its best entry unless a breakpoint matches (spec 06 R97, R98, R101, 21 R391). -/
def takeSlot (core slot w g : Nat) (m : Mach) : Mach :=
  let seat := fun (acc : Mach) =>
    { (acc.modK core fun c => { idleUntil acc slot c with slots := Store.put c.slots slot (some (w, g)) }) with cur := some (w, g) }
  match (m.grp w g).run with
  | some _ => seat m
  | none =>
    match bestEntry (issuable m w g) with
    | none => m
    | some e =>
      let m1 := startRun w g e m
      if breakMatches m w (m.grp w g) e then haltAtBreak w m1 else seat m1

/-- ISSUE_SLOT_GRANT: a free slot takes the ready group ranked first (spec 06 R97). -/
def slotGrant (core slot : Nat) (m : Mach) : Mach :=
  if decide (slot < 2) && ((Store.get none (m.core core).slots slot) : Option (Nat × Nat)).isNone then
    match bestGroup m slot (readyGroups m core) with
    | none => m
    | some (w, g) => clearYields core slot (takeSlot core slot w g m)
  else m

/-- ISSUE_SLOT_GRANT. -/
def execIssueSlotGrant (core slot : Nat) (s : State) : Host.Outcome State Fault Refusal := eventStep (slotGrant core slot) s

/-- RESULT_WRITEBACK: fixed-latency results that are due land (spec 05 R75). -/
def execResultWriteback (w g : Nat) (s : State) : Host.Outcome State Fault Refusal :=
  eventStep (fun m => m.modG w g fun y => y.landDue m.cycle) s

/-- IDLE_SLOT_CYCLE: a cycle in which a slot issues nothing (spec 21 R398, R399). -/
def idleCycle (core slot : Nat) (m : Mach) : Mach :=
  let m1 := { m with cycle := m.cycle + 1 }
  m1.modK core (idleUntil m1 slot)

/-- IDLE_SLOT_CYCLE. -/
def execIdleSlotCycle (core slot : Nat) (s : State) : Host.Outcome State Fault Refusal := eventStep (idleCycle core slot) s

/-! ## A word with a reserved field -/

/-- The word's own fields kept or cleared: D, A, B, guard, literal. -/
def clearFields (w l : Word) (k : Nat) : Word × Word :=
  let w1 := if k.testBit 0 then w &&& ~~~(0x3F000 : Word) else w
  let w2 := if k.testBit 1 then w1 &&& ~~~(0xFC0 : Word) else w1
  let w3 := if k.testBit 2 then w2 &&& ~~~(0xFC0000 : Word) else w2
  let w4 := if k.testBit 3 then (w3 &&& ~~~(0x3C : Word)) ||| 0x38 else w3
  (w4, if k.testBit 4 then 0 else l)

/-- The instruction a word with a reserved field names by its opcode: the first that decodes when as few fields as need be are cleared.  It gives the
register fields of the issue record and the charge (spec 05 R73, R87, 20 R369). -/
def nearestInstr (w l : Word) : Option Instr :=
  (List.range 32).findSome? fun k =>
    match decodeWord (clearFields w l k).1 (clearFields w l k).2 with
    | .ok i => some i
    | .error _ => none

/-- %trapinfo of RESERVED_FIELD: the lanes for an instruction of collections (spec 14 R268), else no rule states it. -/
def reservedInfo (i : Instr) (x : Iss) (m : Mach) : DWord := if instrWaitClass i = some 5 then infoLow m x.eff else freeInfo m

/-- RESERVED_FIELD at issue: charged, precise, whatever the guard (spec 05 R73, R87). -/
def issueReserved (w g : Nat) (m0 : Mach) : Mach :=
  let m := settle w g m0
  let r := (m.grp w g).run.getD default
  let word := r.rest.headD 0
  let i := (nearestInstr word (r.rest.getD 1 0)).getD (.nop (ptGuard 0))
  let x0 := mkIss i w g m
  let lit := if opLiteral (fOp word) then r.rest.getD 1 0 else 0
  let x := { x0 with lit := lit, rec_ := { x0.rec_ with lit := lit } }
  trapAtIssue x .reservedField (reservedInfo i x m) x.eff 0 (charge w g (instrTempi i) 0 (countIssue x m))

end Sys2Proof.Machine
end

