-- ==== Sys2Proof/Machine/Memory.lean ====
section
/-! DEFINITION. Loads, stores and prefetches of the three address spaces, and the steps in which they land (spec 10 R175 to R200, 16 R300 to R308, 19 R353
to R363, 21 R392). -/

namespace Sys2Proof.Machine

/-! ## Addresses and the traps of an access -/

/-- A lane's global address: the pair plus an offset (spec 10 R175, log 24). -/
def eaPair (y : Group) (a : Reg) (k l : Nat) : Nat := (y.pair a.toNat l + BitVec.ofNat 64 k).toNat

/-- A lane's scratchpad or vault address: the sum modulo 2^32 (spec 10 R175). -/
def eaWord (y : Group) (a : Reg) (k l : Nat) : Nat := (y.reg a.toNat l + BitVec.ofNat 32 k).toNat

/-- An access as the checks of issue see it: its space, size, what it does, whether its form may stand in a Gambit region. -/
structure Req where
  sp : MemSpace
  n : Nat
  reads : Bool
  writes : Bool
  region : Bool
  deriving DecidableEq, Repr, Inhabited

/-- An address outside its space (spec 10 R179, R181). -/
def outOfSpace (m : Mach) (p : Nat) (sp : MemSpace) (a : Nat) : Bool :=
  match sp with
  | .global => decide (2 ^ 52 ≤ a)
  | .vault => (vaultAddr m p a).isNone

/-- The cause of an address outside its space. -/
def spaceCause : MemSpace → Cause
  | .global => .pageNotPresent
  | .vault => .vaultBounds

/-- A trap of the lanes that break a condition, none where no lane does. -/
def lanesTrap (c : Cause) (ls : List (Nat × Nat)) : Option Own :=
  match ls with
  | [] => none
  | e :: es => some (trapLanes c (e :: es))

/-- As `lanesTrap`, where no rule states %trapinfo. -/
def lanesTrapFree (c : Cause) (ls : List (Nat × Nat)) (m : Mach) : Option Own :=
  match ls with
  | [] => none
  | e :: es => some (.trap c (freeInfo m) (maskOf ((e :: es).map (·.1))) (BitVec.ofNat 64 e.2))

/-- Ownership entries of other workgroups that a range meets (spec 19 R352, R353). -/
def ownedByOther (m : Mach) (w : Nat) (vault : Bool) (a n : Nat) : Bool :=
  (m.part (m.wg w).part).owned.any fun o => decide (o.wg ≠ w) && overlaps o.vault o.base o.size vault a n

/-- Every 256-byte line of a range is private to the workgroup. -/
def ownedBySelf (m : Mach) (w : Nat) (vault : Bool) (a n : Nat) : Bool :=
  (List.range ((a + n + 255) / 256 - a / 256)).all fun k =>
    (m.part (m.wg w).part).owned.any fun o =>
      decide (o.wg = w) && decide (o.vault = vault) && decide (o.base ≤ (a / 256 + k) * 256) && decide ((a / 256 + k) * 256 < o.base + o.size)

/-- A write to a byte under an entry of another writer class (spec 19 R363). -/
def otherWriter (m : Mach) (p : Nat) (cls : RegionClass) (vault : Bool) (a n : Nat) : Bool :=
  (m.part p).regions.any fun r => r.2.used && decide (r.2.cls ≠ cls) && overlaps r.2.vault r.2.base r.2.size vault a n

/-- The space of an access as the ownership and region tables name it. -/
def isVault : MemSpace → Bool
  | .global => false
  | .vault => true

/-- A lane's write is shared: it waits for the turn (spec 19 R353). -/
def sharedLane (m : Mach) (w : Nat) (q : Req) (a : Nat) : Bool := isDet m w && q.writes && !(ownedBySelf m w (isVault q.sp) a q.n)

/-- Some lane's write is shared. -/
def sharedAccess (m : Mach) (w : Nat) (q : Req) (ls : List (Nat × Nat)) : Bool := ls.any fun e => sharedLane m w q e.2

/-- The entries of the turn buffer that an access takes: one for each shared write of a lane (spec 19 R355). -/
def sharedCount (m : Mach) (w : Nat) (q : Req) (ls : List (Nat × Nat)) : Nat := (ls.filter fun e => sharedLane m w q e.2).length

/-- A memory instruction stands at a resource hold: a strongly ordered access is outstanding, or the turn buffer has no room (spec 06 R100, 10 R187, 19 R355). -/
def accessHold (m : Mach) (w g n : Nat) (sh : Bool) : Option Resource :=
  if strongPending m w g then some .strong else if sh && turnFull m w n then some (.turn n) else none

/-- OWNERSHIP, REGION_WRITER, SERIAL_ORDER of a deterministic launch (spec 19 R353, R357, R363). -/
def turnTrap (x : Iss) (m : Mach) (q : Req) (ls : List (Nat × Nat)) : Option Own :=
  if isDet m x.w = false then none
  else
    (lanesTrapFree .ownership (ls.filter fun e => ownedByOther m x.w (isVault q.sp) e.2 q.n) m)
      <|> (if q.writes then lanesTrapFree .regionWriter (ls.filter fun e => otherWriter m (m.wg x.w).part .thread (isVault q.sp) e.2 q.n) m else none)
      <|> (if q.writes && turnEnded m x.w then
          lanesTrapFree .serialOrder (ls.filter fun e => !(ownedBySelf m x.w (isVault q.sp) e.2 q.n)) m else none)

/-- The lanes of an access that a watchpoint matches (spec 21 R392). -/
def watchLanes (m : Mach) (x : Iss) (q : Req) (ls : List (Nat × Nat)) (d : DbgPoint) : Mask :=
  let y := m.grp x.w x.g
  if bits d.ctl 0 1 = 1 ∧ ((q.reads && decide (bits d.ctl 1 1 = 1)) || (q.writes && decide (bits d.ctl 2 1 = 1))) = true then
    dbgLanes d x.w y (maskOf ((ls.filter fun e =>
      decide (e.2 < d.addr.toNat + d.len.toNat) && decide (d.addr.toNat < e.2 + q.n) && (Store.get 0 y.trapmask e.1).getLsbD 0).map (·.1)))
  else 0

/-- The first watchpoint that matches: a halt, or WATCH (spec 21 R392). -/
def watchStop (x : Iss) (m : Mach) (q : Req) (ls : List (Nat × Nat)) : Option Own :=
  let y := m.grp x.w x.g
  let past := (y.run.map (·.noMatch)).getD false
  if y.trapMode.isSome then none
  else
    ((m.core (m.wg x.w).core).watches.find? fun e => decide (watchLanes m x q ls e.2 ≠ 0) && !(past && decide (bits e.2.ctl 3 1 = 1))).map fun e =>
      if bits e.2.ctl 3 1 = 1 then .halt
      else
        let k := watchLanes m x q ls e.2
        .trap .watch (BitVec.ofNat 64 (k.toNat + 2 ^ 32 * (e.1 % 16))) k (BitVec.ofNat 64 (((ls.find? fun a => k.getLsbD a.1).map (·.2)).getD 0))

/-- The traps of an address: its alignment, its space (spec 10 R192, 18 R330). -/
def addrTrap (x : Iss) (m : Mach) (q : Req) (ls : List (Nat × Nat)) : Option Own :=
  (lanesTrap .misalignedAccess (ls.filter fun e => decide (e.2 % q.n ≠ 0)))
    <|> (lanesTrap (spaceCause q.sp) (ls.filter fun e => outOfSpace m (m.wg x.w).part q.sp e.2))

/-- The traps of a global or vault access at issue, in their order (spec 10 R192, 18 R330, 19 R353, 21 R392). -/
def accessTrap (x : Iss) (m : Mach) (q : Req) (ls : List (Nat × Nat)) : Option Own :=
  (addrTrap x m q ls)
    <|> (if q.region then none else lanesTrap .gambitForbidden (ls.filter fun e => (regionOf m x.w x.g e.1).isSome))
    <|> (turnTrap x m q ls)
    <|> (watchStop x m q ls)

/-- Distinct 32-byte sectors of addresses (spec 05 R87). -/
def sectorCount (as : List Nat) : Nat := ((as.map (· / 32)).eraseDups).length

/-! ## Issue -/

/-- A global or vault access: traps, holds, then the command is handed on; lanes that take effect in a region have their loads followed and their
stores buffered. -/
def accessOwn (i : Instr) (q : Req) (ea : Group → Nat → Nat) (mk : Group → Nat → LaneAcc → LaneAcc) (kind : List LaneAcc → OutKind)
    (dreg : Nat) (areg : List Nat) (x : Iss) (m : Mach) : Own :=
  let y := m.grp x.w x.g
  let ls := (lanesOf x.eff).map fun l => (l, ea y l)
  let sh := sharedAccess m x.w q ls
  match accessTrap x m q ls with
  | some t => t
  | none =>
    match accessHold m x.w x.g (sharedCount m x.w q ls) sh with
    | some r => .hold r
    | none =>
      let s := sectorCount (ls.map (·.2))
      let acc := fun (e : Nat × Nat) => mk y e.1 ⟨e.1, e.2, 0, 0, none, sharedLane m x.w q e.2⟩
      if q.writes && q.region then
        let ins := ls.filter fun e => (regionOf m x.w x.g e.1).isSome
        let outs := ls.filter fun e => (regionOf m x.w x.g e.1).isNone
        let m1 := ins.foldl (fun acc2 e => regionStoreAt x.w x.g e.1 e.2 q.n ((acc e).val.setWidth 64) dreg areg acc2) m
        .done s (if outs = [] then m1 else handOn i x (waitClass i) (kind (outs.map acc)) sh m1)
      else
        let r := ls.foldl (fun (st : List LaneAcc × Mach) e =>
          let f := regionLoadAt x.w x.g e.1 e.2 q.n areg st.2
          (st.1 ++ [{ acc e with region := f.1 }], f.2)) ([], m)
        .done s (handOn i x (waitClass i) (kind r.1) sh r.2)

/-- A global load (spec 10 R195). -/
def loadOwn (i : Instr) (n : Nat) (sext region : Bool) (d a : Reg) (ofs : BitVec 6) : Iss → Mach → Own :=
  guarded (accessOwn i ⟨.global, n, true, false, region⟩ (fun y l => eaPair y a (ofs.toNat * n) l) (fun _ _ e => e)
    (.load .global n sext d .rlx .group) d.toNat [a.toNat, a.toNat + 1])

/-- The data a store takes from its registers (spec 10 R196). -/
def storeData (d : Reg) (n : Nat) (y : Group) (l : Nat) (e : LaneAcc) : LaneAcc :=
  { e with val := BitVec.ofNat 128 (y.regsVal d.toNat ((n + 3) / 4) l % 2 ^ (8 * n)) }

/-- A global store (spec 10 R196). -/
def storeOwn (i : Instr) (n : Nat) (region : Bool) (d a : Reg) (ofs : BitVec 6) : Iss → Mach → Own :=
  guarded (accessOwn i ⟨.global, n, false, true, region⟩ (fun y l => eaPair y a (ofs.toNat * n) l) (storeData d n)
    (.store .global n .rlx .group) d.toNat [a.toNat, a.toNat + 1])

/-- A vault load (spec 10 R198). -/
def vaultLoadOwn (i : Instr) (n : Nat) (d a : Reg) (ofs : BitVec 6) : Iss → Mach → Own :=
  guarded (accessOwn i ⟨.vault, n, true, false, false⟩ (fun y l => eaWord y a (ofs.toNat * n) l) (fun _ _ e => e)
    (.load .vault n false d .rlx .group) d.toNat [a.toNat])

/-- A vault store (spec 10 R198). -/
def vaultStoreOwn (i : Instr) (n : Nat) (d a : Reg) (ofs : BitVec 6) : Iss → Mach → Own :=
  guarded (accessOwn i ⟨.vault, n, false, true, false⟩ (fun y l => eaWord y a (ofs.toNat * n) l) (storeData d n)
    (.store .vault n .rlx .group) d.toNat [a.toNat])

/-! ## The scratchpad -/

/-- The keys of a lane's scratchpad bytes through the shadow buffers, none where the access meets a hidden half or the edge of one (spec 11 R215). -/
def scratchKeys (m : Mach) (w a n : Nat) : Option (List Nat) :=
  (List.range n).mapM fun k =>
    match scratchPlace m w (a + k) with
    | .ok key => some key
    | .error _ => none

/-- The traps of a scratchpad access, in their order (spec 10 R176, R192, 11 R215). -/
def scratchTrap (x : Iss) (m : Mach) (n : Nat) (ls : List (Nat × Nat)) : Option Own :=
  (lanesTrap .misalignedAccess (ls.filter fun e => decide (e.2 % n ≠ 0)))
    <|> (lanesTrap .scratchBounds (ls.filter fun e => decide ((m.block x.w).scratch < e.2 + n)))
    <|> (lanesTrapFree .publishState (ls.filter fun e => (scratchKeys m x.w e.2 n).isNone) m)
    <|> (lanesTrap .gambitForbidden (ls.filter fun e => (regionOf m x.w x.g e.1).isSome))

/-- The keys of a lane's scratchpad bytes when its passes come: where a buffer declared since issue would refuse them, the addresses themselves (log 101). -/
def scratchAt (m : Mach) (w a n : Nat) : List Nat := (scratchKeys m w a n).getD ((List.range n).map fun k => scratchAddr (m.wg w) (a + k))

/-- Errors in the granules of a lane's scratchpad bytes; in a row that has been retired the error is a lasting one (spec 10 R190, R191). -/
def scratchErrors (m : Mach) (w a n : Nat) : List Nat :=
  let ks := scratchAt m w a n
  m.failing.filterMap fun f => match f with
    | .scratch c b => if ks.any fun k => decide (k / 32 = scratchKey c b / 32) then some (scratchKey c b) else none
    | _ => none

/-- The lanes of a scratchpad access, with their addresses; its size. -/
def scratchLanes : OutKind → List LaneAcc × Nat
  | .loadScratch n _ _ ls | .storeScratch n ls => (ls, n)
  | .qsend _ off n _ _ _ ls _ => ([⟨lowLaneD ls, off, 0, 0, none, false⟩], n)
  | _ => ([], 0)

/-- A word of the access waits for its second read (spec 10 R190). -/
def scratchRetries (m : Mach) (w : Nat) (k : OutKind) : Bool :=
  (scratchLanes k).1.any fun a => (scratchErrors m w a.addr (scratchLanes k).2).any fun e => !(m.badRows.contains (rowOf e))

/-- The lanes of an access that meet a lasting error (spec 10 R190, R191). -/
def scratchFaulty (m : Mach) (w : Nat) (k : OutKind) : List LaneAcc :=
  (scratchLanes k).1.filter fun a => decide (scratchErrors m w a.addr (scratchLanes k).2 ≠ [])

/-- A command is a fence. -/
def isFenceK : OutKind → Bool
  | .fence _ _ _ _ => true
  | _ => false

/-- What cannot complete before a TRAPRET holds no scratchpad access back, but for a fence outside the handler (spec 16 R304, R308, log 40). -/
def scratchPasses (m : Mach) (w g : Nat) (o f : Out) : Bool :=
  behindFault m w g f &&
    (!(isFenceK f.kind) || match (m.grp w g).trapMode with | some t => decide (f.id < t.since) && decide (t.since ≤ o.id) | none => false)

/-- The passes of a scratchpad access may come: those of the group's earlier ones have, nothing orders it behind an earlier command, and none of its words is to
be read again (spec 10 R190, 16 R301, R304, R308, R310). -/
def scratchMay (m : Mach) (w g : Nat) (o : Out) : Bool :=
  !((m.grp w g).outs.any fun f => decide (f.id < o.id) &&
      ((scratchPending f.kind && f.fail.isNone) || (groupOrder m ⟨w, g, o⟩ f && !(scratchPasses m w g o f)))) &&
    !(scratchRetries m w o.kind)

/-- The lane writes of a scratchpad load. -/
def scratchVals (m : Mach) (w n : Nat) (d : Reg) (ls : List (Nat × Nat)) : List LaneWrite :=
  ls.flatMap fun e => loadWrites n false d e.1 ((scratchAt m w e.2 n).map (Memory.read m.scratch))

/-- Bytes written to a workgroup's scratchpad. -/
def scratchWrite (w a : Nat) (bs : List Byte) (m : Mach) : Mach :=
  { m with scratch := ((scratchAt m w a bs.length).zip bs).foldl (fun acc e => Memory.write acc e.1 e.2) m.scratch }

/-- A scratchpad access in its passes: a load reads, a store writes, lanes in ascending order; a lasting error is UNCORRECTABLE, reported on SP, and for the
message of a QSEND on QU (spec 10 R178, R190, R191, R197, 16 R308, 23 R422, R424). -/
def scratchAct (w g : Nat) (o : Out) (m : Mach) : Mach :=
  match scratchFaulty m w o.kind with
  | f :: fs => failOut w g o.id ⟨.uncorrectable, maskOf ((f :: fs).map (·.lane)), BitVec.ofNat 64 f.addr, freeInfo m⟩ m
  | [] =>
    match o.kind with
    | .loadScratch n d none lanes => setOut w g o.id (.loadScratch n d (some (scratchVals m w n d (lanes.map fun a => (a.lane, a.addr)))) lanes) m
    | .qsend k off n none nb pd lanes sent =>
      setOut w g o.id (.qsend k off n (some ((scratchAt m w off n).map (Memory.read m.scratch))) nb pd lanes sent) m
    | .storeScratch n lanes => dropOut w g o.id (lanes.foldl (fun acc a => scratchWrite w a.addr (leBytes n a.val.toNat) acc) m)
    | _ => m

/-- A pending scratchpad access goes through its passes if it may. -/
def scratchPass (w g id : Nat) (m : Mach) : Mach :=
  match if (m.wg w).status = .saved then none else findOut m w g id with
  | some o => if scratchPending o.kind && scratchMay m w g o then scratchAct w g o m else m
  | none => m

/-- The group's pending scratchpad accesses, in the order of issue. -/
def scratchSettle (w g : Nat) (m : Mach) : Mach := (m.grp w g).outs.foldl (fun acc o => scratchPass w g o.id acc) m

/-- A scratchpad access of the group at issue. -/
def scratchOwn (n : Nat) (a : Reg) (ofs : BitVec 6) (act : List (Nat × Nat) → Iss → Mach → Own) : Iss → Mach → Own :=
  guarded fun x m =>
    let ls := (lanesOf x.eff).map fun l => (l, eaWord (m.grp x.w x.g) a (ofs.toNat * n) l)
    match scratchTrap x m n ls with
    | some t => t
    | none => if strongPending m x.w x.g then .hold .strong else act ls x m

/-- A scratchpad access that is being issued, as a command. -/
def scratchOut (x : Iss) (k : OutKind) (m : Mach) : Out := ⟨m.nextCmd, 8, x.rec_, k, none, [], [], false, 0, serialInterval (m.grp x.w x.g)⟩

/-- The passes of a scratchpad access come with its issue. -/
def scratchNow (x : Iss) (k : OutKind) (m : Mach) : Bool := scratchMay m x.w x.g (scratchOut x k m) && (scratchFaulty m x.w k).isEmpty

/-- A scratchpad load: its words are read in its passes, and land later (spec 10 R178, R197, 16 R308). -/
def ldsOwn (i : Instr) (n : Nat) (d a : Reg) (ofs : BitVec 6) : Iss → Mach → Own :=
  scratchOwn n a ofs fun ls x m =>
    let k := fun v => OutKind.loadScratch n d v (ls.map fun e => ⟨e.1, e.2, 0, 0, none, false⟩)
    if scratchNow x (k none) m then .done 0 (handOn i x (waitClass i) (k (some (scratchVals m x.w n d ls))) false m)
    else .done 0 (scratchPass x.w x.g m.nextCmd (handOn i x (waitClass i) (k none) false m))

/-- A scratchpad store is performed in its passes, in the order of issue, lanes in ascending order; it is in no class (spec 05 R74, 10 R178, R197, 16 R308). -/
def stsOwn (i : Instr) (n : Nat) (d a : Reg) (ofs : BitVec 6) : Iss → Mach → Own :=
  scratchOwn n a ofs fun ls x m =>
    let y := m.grp x.w x.g
    let k := OutKind.storeScratch n (ls.map fun e => ⟨e.1, e.2, BitVec.ofNat 128 (y.regsVal d.toNat (n / 4) e.1), 0, none, false⟩)
    if scratchNow x k m then .done 0 (ls.foldl (fun acc e => scratchWrite x.w e.2 (leBytes n (y.regsVal d.toNat (n / 4) e.1)) acc) m)
    else .done 0 (scratchPass x.w x.g m.nextCmd (handOn i x 8 k false m))

/-! ## Prefetch -/

/-- A sector filled into a core's hidden read cache (spec 10 R189, R200). -/
def fillSector (core pa : Nat) (m : Mach) : Mach :=
  m.useFree.modK core fun c => { c with cache := cachePut (Config.pick m.freeCtr) (pa / 32) (readPa m (pa / 32 * 32) 32) c.cache }

/-- PREF of one lane; whatever would fault is dropped, an error met is retired; kind 1 places the translation of a page of any memory type (spec 10 R187, R190,
R200, log 105). -/
def prefLane (w : Nat) (tlbOnly : Bool) (ea : Nat) (m : Mach) : Mach :=
  let x := m.wg w
  match xlatWaits m (wgSite m w) x.part x.ctx ea, translate m (wgSite m w) x.part x.ctx ea .read with
  | false, .ok t =>
    let m1 := touchTlb (wgSite m w) x.part x.ctx ea m
    if tlbOnly then m1
    else if decide (t.typ = 0) && decide (paTarget t.pa ≠ 2) then
      let m2 := retryHbm t.pa m1
      if paLocal t.pa && frameBad m2 t.pa then m2 else fillSector x.core t.pa m2
    else m1
  | _, _ => m

/-- PREF and PREF.tlb (spec 10 R200); in a deterministic launch a line private to another workgroup raises OWNERSHIP (19 R353). -/
def prefOwn (tlbOnly : Bool) (a : Reg) (ofs : BitVec 6) : Iss → Mach → Own :=
  guarded fun x m =>
    let ls := (lanesOf x.eff).map fun l => (l, eaPair (m.grp x.w x.g) a (ofs.toNat * 32) l / 32 * 32)
    match lanesTrap .gambitForbidden (ls.filter fun e => (regionOf m x.w x.g e.1).isSome)
        <|> (if isDet m x.w then lanesTrapFree .ownership (ls.filter fun e => ownedByOther m x.w false e.2 32) m else none) with
    | some t => t
    | none =>
      if strongPending m x.w x.g then .hold .strong
      else .done (sectorCount (ls.map (·.2))) (ls.foldl (fun acc e => prefLane x.w tlbOnly e.2 acc) m)

/-! ## Landing -/

/-- A lane's load returns bytes (spec 10 R195, 16 R307, 18 R344). -/
def loadLane (w g : Nat) (o : Out) (n : Nat) (sext : Bool) (dst : Reg) (cached : Bool) (a : LaneAcc) (r : List LaneWrite × Mach) : List LaneWrite × Mach :=
  match accPlace r.2 w o.kind a with
  | .error _ => r
  | .ok pl =>
    let b := loadBytes r.2 w g o.id pl n (cached && a.region.isNone)
    let buf := match a.region with | some (_, es) => es | none => []
    let bs := (List.range n).map fun k => ((buf.find? fun e => decide (e.1 = k)).map (·.2)).getD (b.1.getD k 0)
    (r.1 ++ loadWrites n sext dst a.lane bs, regionLanded w g dst.toNat n a pl.key b.2)

/-- A value as a byte list in memory order. -/
def valBytes (n : Nat) (v : BitVec 128) : List Byte := leBytes n v.toNat

/-- Who makes a lane's write. -/
def laneAgent (w g l : Nat) : Agent := some (w, g, l)

/-- A lane's store is performed (spec 10 R196). -/
def storeLane (w g : Nat) (o : Out) (n : Nat) (a : LaneAcc) (m : Mach) : Mach :=
  let x := m.wg w
  match accPlace m w o.kind a with
  | .error _ => m
  | .ok pl => storeBytes x.core (laneAgent w g a.lane) pl (valBytes n a.val) m

/-- The value an operation leaves (spec 18 R331): `n` bytes. -/
def atomValue (op : AtomOp) (n : Nat) (old v : Nat) : Nat :=
  let k := 8 * n
  let s := fun (t : Nat) => (BitVec.ofNat k t).toInt
  let f := if n = 8 then fp64 else fp32
  match op with
  | .add => (old + v) % 2 ^ k
  | .and => old &&& v
  | .or => old ||| v
  | .xor => old ^^^ v
  | .smin => if s v < s old then v else old
  | .smax => if s old < s v then v else old
  | .umin => min old v
  | .umax => max old v
  | .xchg => v
  | .fadd => (f.add .rne old v).val
  | .fmin => (f.minMax false old v).val
  | .fmax => (f.minMax true old v).val

/-- What a read-modify-write of a lane writes, if it writes (spec 18 R331). -/
def rmwValue (op : RmwOp) (n : Nat) (a : LaneAcc) (old : Nat) : Option Nat :=
  match op with
  | .op o => some (atomValue o n old a.val.toNat)
  | .cas => if old = a.cmp.toNat then some a.val.toNat else none

/-- A lane's read-modify-write is performed at the home (spec 18 R331). -/
def rmwLane (w g : Nat) (o : Out) (op : RmwOp) (n : Nat) (dst : Option Reg) (a : LaneAcc) (r : List LaneWrite × Mach) : List LaneWrite × Mach :=
  let x := r.2.wg w
  match accPlace r.2 w o.kind a with
  | .error _ => r
  | .ok pl =>
    let old := leNat (readPa r.2 pl.key n)
    let m1 := match rmwValue op n a old with
      | some v => writePa r.2 (some x.core) (laneAgent w g a.lane) pl.key (leBytes n v)
      | none => refreshCache x.core pl r.2
    (match dst with | some d => r.1 ++ regWritesOf d.toNat (n / 4) a.lane old | none => r.1, m1)

/-- The translations of a command's accesses enter the TLBs (spec 10 R185). -/
def touchLanes (w : Nat) (o : Out) (m : Mach) : Mach :=
  match kindSpace o.kind with
  | .vault => m
  | .global => (kindLanes o).foldl (fun acc a => touchTlb (wgSite acc w) (acc.wg w).part (acc.wg w).ctx a.addr acc) m

/-- The lanes' accesses of a load, a store or a read-modify-write are performed, lanes in ascending order: the results, and the machine (spec 10 R195, R196, 18
R328, R331). -/
def performLanes (w g : Nat) (o : Out) (mi : Mach) : List LaneWrite × Mach :=
  let m0 := touchLanes w o mi
  let m := if hasRel (actsOrder m0 ⟨w, g, o⟩).1 then flushAll (m0.wg w).core m0 else m0
  match o.kind with
  | .load _ n sext dst ord _ lanes => lanes.foldl (fun r a => loadLane w g o n sext dst (decide (ord = .rlx)) a r) ([], m)
  | .store _ n _ _ lanes => ([], lanes.foldl (fun acc a => storeLane w g o n a acc) m)
  | .rmw op n dst _ _ _ lanes => lanes.foldl (fun r a => rmwLane w g o op n dst a r) ([], m)
  | _ => ([], m)

/-- LOAD_LANDING and STORE_ACCEPTED: the command is performed, and its results are written (spec 10 R193, R195, R196, 18 R331). -/
def accessAct (w g : Nat) (o : Out) (m : Mach) : Mach :=
  let r := performLanes w g o m
  orderDone (m.wg w).core (actsOrder m ⟨w, g, o⟩) (landOut w g o.id r.1 r.2)

/-- The private lanes of a command, or its shared ones. -/
def OutKind.part (sh : Bool) : OutKind → OutKind
  | .store sp n ord sc lanes => .store sp n ord sc (lanes.filter fun a => a.sh = sh)
  | .rmw op n dst ord sc cm lanes => .rmw op n dst ord sc cm (lanes.filter fun a => a.sh = sh)
  | k => k

/-- The lanes of a command with shared ones whose access is private do not wait for the turn (spec 16 R298, 19 R353, R355, log 45). -/
def privatePart (w g : Nat) (o : Out) (m : Mach) : Mach :=
  let p := { o with kind := o.kind.part false }
  if (kindLanes p).isEmpty || decide (p.kind = o.kind) || !(mayPerformNow m ⟨w, g, p⟩) then m
  else
    let r := performLanes w g p m
    orderDone (m.wg w).core (actsOrder m ⟨w, g, p⟩) (setOut w g o.id (o.kind.part true) (landWrites w g o.id r.1 r.2))

/-- A step of a command: its fault is found, or it is performed when nothing must come before it; while it waits for the turn its private lanes are
performed (spec 10 R193, R194, 19 R355). -/
def whenPerformed (ok : OutKind → Bool) (w g id : Nat) (act : Out → Mach → Mach) (m : Mach) : Mach :=
  match if (m.wg w).status = .saved then none else findOut m w g id with
  | none => m
  | some o =>
    match ok o.kind, o.shared && !(holdsTurn m w), accFault m w o with
    | false, _, _ => m
    | true, true, some _ => m
    | true, true, none => privatePart w g o m
    | true, false, some f => failOut w g id f m
    | true, false, none => if mayPerform m ⟨w, g, o⟩ then act o m else m

/-- The commands that LOAD_LANDING completes. -/
def landsAsLoad : OutKind → Bool
  | .load _ _ _ _ _ _ _ | .rmw _ _ (some _) _ _ _ _ => true
  | _ => false

/-- The commands that STORE_ACCEPTED completes. -/
def landsAsStore : OutKind → Bool
  | .store _ _ _ _ _ | .rmw _ _ none _ _ _ _ => true
  | _ => false

/-- SCRATCH_LOAD_LANDING: what a scratchpad load has read in its passes is written into its registers (spec 10 R178, R190). -/
def scratchLanding (w g id : Nat) (mi : Mach) : Mach :=
  let m := scratchPass w g id mi
  match findOut m w g id with
  | some o =>
    match o.kind with
    | .loadScratch _ _ (some ws) _ => landOut w g id ws m
    | _ => m
  | none => m

/-- SCRATCH_LOAD_LANDING. -/
def execScratchLoadLanding (w g id : Nat) (s : State) : Host.Outcome State Fault Refusal := eventStep (scratchLanding w g id) s

/-- WRITE_COMBINE_FLUSH (spec 10 R187). -/
def execWriteCombineFlush (core line : Nat) (s : State) : Host.Outcome State Fault Refusal := eventStep (flushLine core line) s

/-- REMOTE_ACCESS_TIMEOUT: an access to another device has had no response (spec 17 R322). -/
def remoteTimeout (w g id : Nat) (m : Mach) : Mach :=
  match if (m.wg w).status = .saved then none else findOut m w g id with
  | some o =>
    if isRemote m ⟨w, g, o⟩ && (mayPerform m ⟨w, g, o⟩) then
      failOut w g id ((laneFault ((kindLanes o).filterMap fun a =>
        match placeOf m ⟨w, g, o⟩ a with
        | some p => if paTarget p.key = 1 ∧ p.vault = false then some (a.lane, a.addr, Cause.uncorrectable) else none
        | none => none)).getD default) m
    else m
  | none => m

/-- REMOTE_ACCESS_TIMEOUT. -/
def execRemoteAccessTimeout (w g id : Nat) (s : State) : Host.Outcome State Fault Refusal := eventStep (remoteTimeout w g id) s

/-! ## The instructions -/

/-- LD8S (spec 10 R195). -/
def execLd8s (d a : Reg) (ofs : BitVec 6) (g : Guard) (s : State) : Host.Outcome State Fault Refusal :=
  execute (.ld8s d a ofs g) (loadOwn (.ld8s d a ofs g) 1 true false d a ofs) s

/-- LD8Z (spec 10 R195). -/
def execLd8z (d a : Reg) (ofs : BitVec 6) (g : Guard) (s : State) : Host.Outcome State Fault Refusal :=
  execute (.ld8z d a ofs g) (loadOwn (.ld8z d a ofs g) 1 false false d a ofs) s

/-- LD16S (spec 10 R195). -/
def execLd16s (d a : Reg) (ofs : BitVec 6) (g : Guard) (s : State) : Host.Outcome State Fault Refusal :=
  execute (.ld16s d a ofs g) (loadOwn (.ld16s d a ofs g) 2 true false d a ofs) s

/-- LD16Z (spec 10 R195). -/
def execLd16z (d a : Reg) (ofs : BitVec 6) (g : Guard) (s : State) : Host.Outcome State Fault Refusal :=
  execute (.ld16z d a ofs g) (loadOwn (.ld16z d a ofs g) 2 false false d a ofs) s

/-- LD32 (spec 10 R195). -/
def execLd32 (d a : Reg) (ofs : BitVec 6) (g : Guard) (s : State) : Host.Outcome State Fault Refusal :=
  execute (.ld32 d a ofs g) (loadOwn (.ld32 d a ofs g) 4 false true d a ofs) s

/-- LD64 (spec 10 R195). -/
def execLd64 (d a : Reg) (ofs : BitVec 6) (g : Guard) (s : State) : Host.Outcome State Fault Refusal :=
  execute (.ld64 d a ofs g) (loadOwn (.ld64 d a ofs g) 8 false true d a ofs) s

/-- LD128 (spec 10 R195). -/
def execLd128 (d a : Reg) (ofs : BitVec 6) (g : Guard) (s : State) : Host.Outcome State Fault Refusal :=
  execute (.ld128 d a ofs g) (loadOwn (.ld128 d a ofs g) 16 false false d a ofs) s

/-- ST8 (spec 10 R196). -/
def execSt8 (d a : Reg) (ofs : BitVec 6) (g : Guard) (s : State) : Host.Outcome State Fault Refusal :=
  execute (.st8 d a ofs g) (storeOwn (.st8 d a ofs g) 1 false d a ofs) s

/-- ST16 (spec 10 R196). -/
def execSt16 (d a : Reg) (ofs : BitVec 6) (g : Guard) (s : State) : Host.Outcome State Fault Refusal :=
  execute (.st16 d a ofs g) (storeOwn (.st16 d a ofs g) 2 false d a ofs) s

/-- ST32 (spec 10 R196). -/
def execSt32 (d a : Reg) (ofs : BitVec 6) (g : Guard) (s : State) : Host.Outcome State Fault Refusal :=
  execute (.st32 d a ofs g) (storeOwn (.st32 d a ofs g) 4 true d a ofs) s

/-- ST64 (spec 10 R196). -/
def execSt64 (d a : Reg) (ofs : BitVec 6) (g : Guard) (s : State) : Host.Outcome State Fault Refusal :=
  execute (.st64 d a ofs g) (storeOwn (.st64 d a ofs g) 8 true d a ofs) s

/-- ST128 (spec 10 R196). -/
def execSt128 (d a : Reg) (ofs : BitVec 6) (g : Guard) (s : State) : Host.Outcome State Fault Refusal :=
  execute (.st128 d a ofs g) (storeOwn (.st128 d a ofs g) 16 false d a ofs) s

/-- LDS32 (spec 10 R197). -/
def execLds32 (d a : Reg) (ofs : BitVec 6) (g : Guard) (s : State) : Host.Outcome State Fault Refusal :=
  execute (.lds32 d a ofs g) (ldsOwn (.lds32 d a ofs g) 4 d a ofs) s

/-- LDS64 (spec 10 R197). -/
def execLds64 (d a : Reg) (ofs : BitVec 6) (g : Guard) (s : State) : Host.Outcome State Fault Refusal :=
  execute (.lds64 d a ofs g) (ldsOwn (.lds64 d a ofs g) 8 d a ofs) s

/-- LDS128 (spec 10 R197). -/
def execLds128 (d a : Reg) (ofs : BitVec 6) (g : Guard) (s : State) : Host.Outcome State Fault Refusal :=
  execute (.lds128 d a ofs g) (ldsOwn (.lds128 d a ofs g) 16 d a ofs) s

/-- STS32 (spec 10 R197). -/
def execSts32 (d a : Reg) (ofs : BitVec 6) (g : Guard) (s : State) : Host.Outcome State Fault Refusal :=
  execute (.sts32 d a ofs g) (stsOwn (.sts32 d a ofs g) 4 d a ofs) s

/-- STS64 (spec 10 R197). -/
def execSts64 (d a : Reg) (ofs : BitVec 6) (g : Guard) (s : State) : Host.Outcome State Fault Refusal :=
  execute (.sts64 d a ofs g) (stsOwn (.sts64 d a ofs g) 8 d a ofs) s

/-- STS128 (spec 10 R197). -/
def execSts128 (d a : Reg) (ofs : BitVec 6) (g : Guard) (s : State) : Host.Outcome State Fault Refusal :=
  execute (.sts128 d a ofs g) (stsOwn (.sts128 d a ofs g) 16 d a ofs) s

/-- LDV32 (spec 10 R198). -/
def execLdv32 (d a : Reg) (ofs : BitVec 6) (g : Guard) (s : State) : Host.Outcome State Fault Refusal :=
  execute (.ldv32 d a ofs g) (vaultLoadOwn (.ldv32 d a ofs g) 4 d a ofs) s

/-- LDV128 (spec 10 R198). -/
def execLdv128 (d a : Reg) (ofs : BitVec 6) (g : Guard) (s : State) : Host.Outcome State Fault Refusal :=
  execute (.ldv128 d a ofs g) (vaultLoadOwn (.ldv128 d a ofs g) 16 d a ofs) s

/-- STV32 (spec 10 R198). -/
def execStv32 (d a : Reg) (ofs : BitVec 6) (g : Guard) (s : State) : Host.Outcome State Fault Refusal :=
  execute (.stv32 d a ofs g) (vaultStoreOwn (.stv32 d a ofs g) 4 d a ofs) s

/-- STV128 (spec 10 R198). -/
def execStv128 (d a : Reg) (ofs : BitVec 6) (g : Guard) (s : State) : Host.Outcome State Fault Refusal :=
  execute (.stv128 d a ofs g) (vaultStoreOwn (.stv128 d a ofs g) 16 d a ofs) s

/-- PREF (spec 10 R200). -/
def execPref (a : Reg) (ofs : BitVec 6) (g : Guard) (s : State) : Host.Outcome State Fault Refusal :=
  execute (.pref a ofs g) (prefOwn false a ofs) s

/-- PREF.tlb (spec 10 R200). -/
def execPrefTlb (a : Reg) (ofs : BitVec 6) (g : Guard) (s : State) : Host.Outcome State Fault Refusal :=
  execute (.prefTlb a ofs g) (prefOwn true a ofs) s

end Sys2Proof.Machine
end

