-- ==== Sys2Proof/Machine/Ordered.lean ====
section
/-! DEFINITION. Ordered loads and stores, atomics, fences, bindings, lock words, word waits, and the steps that complete them; soft errors (spec 10 R190, 16
R304 to R306, 17 R315 to R318, 18 R328 to R336, 20 R386). -/

namespace Sys2Proof.Machine

/-! ## Ordered loads and stores, atomics -/

/-- LDO (spec 18 R329). -/
def execLdo (d a : Reg) (ord : Order) (sc : Scope) (sz : MSize) (g : Guard) (s : State) : Host.Outcome State Fault Refusal :=
  execute (.ldo d a ord sc sz g)
    (guarded (accessOwn (.ldo d a ord sc sz g) ⟨.global, sizeBytes sz, true, false, false⟩ (fun y l => eaPair y a 0 l) (fun _ _ e => e)
      (.load .global (sizeBytes sz) false d ord sc) d.toNat [])) s

/-- STO (spec 18 R329). -/
def execSto (d a : Reg) (ord : Order) (sc : Scope) (sz : MSize) (g : Guard) (s : State) : Host.Outcome State Fault Refusal :=
  execute (.sto d a ord sc sz g)
    (guarded (accessOwn (.sto d a ord sc sz g) ⟨.global, sizeBytes sz, false, true, false⟩ (fun y l => eaPair y a 0 l) (storeData d (sizeBytes sz))
      (.store .global (sizeBytes sz) ord sc) d.toNat [])) s

/-- The sizes an operation supports (spec 05 R83). -/
def atomSizeOk (op : AtomOp) (sz : MSize) : Bool :=
  match op, sz with
  | .xchg, .b128 => true
  | _, .b32 | _, .b64 => true
  | _, _ => false

/-- ATOMIC_SIZE comes first (spec 18 R330). -/
def sizeChecked (ok : Bool) (a : Reg) (own : Iss → Mach → Own) (x : Iss) (m : Mach) : Own :=
  if ok then own x m
  else (lanesTrap .atomicSize ((lanesOf x.eff).map fun l => (l, eaPair (m.grp x.w x.g) a 0 l))).getD (trapEff x .atomicSize m)

/-- An atomic access of `n` bytes, with the operands of a lane (spec 18 R331). -/
def atomOwn (i : Instr) (n : Nat) (a : Reg) (mk : Group → Nat → LaneAcc → LaneAcc) (kind : List LaneAcc → OutKind) : Iss → Mach → Own :=
  accessOwn i ⟨.global, n, true, true, false⟩ (fun y l => eaPair y a 0 l) mk kind 0 []

/-- ATOM (spec 18 R331). -/
def execAtom (d a b : Reg) (ord : Order) (sc : Scope) (cm : Bool) (sz : MSize) (op : AtomOp) (g : Guard) (s : State) : Host.Outcome State Fault Refusal :=
  execute (.atom d a b ord sc cm sz op g)
    (guarded (sizeChecked (atomSizeOk op sz) a
      (atomOwn (.atom d a b ord sc cm sz op g) (sizeBytes sz) a (storeData b (sizeBytes sz)) (.rmw (.op op) (sizeBytes sz) (some d) ord sc cm)))) s

/-- RED (spec 18 R331). -/
def execRed (d a : Reg) (ord : Order) (sc : Scope) (cm : Bool) (sz : MSize) (op : AtomOp) (g : Guard) (s : State) : Host.Outcome State Fault Refusal :=
  execute (.red d a ord sc cm sz op g)
    (guarded (sizeChecked (atomSizeOk op sz) a
      (atomOwn (.red d a ord sc cm sz op g) (sizeBytes sz) a (storeData d (sizeBytes sz)) (.rmw (.op op) (sizeBytes sz) none ord sc cm)))) s

/-- The operands of CAS: the compare value, then the new value (spec 18 R331). -/
def casData (b : Reg) (sz : MSize) (y : Group) (l : Nat) (e : LaneAcc) : LaneAcc :=
  { e with cmp := BitVec.ofNat 128 (y.regsVal b.toNat (sizeRegs sz) l), val := BitVec.ofNat 128 (y.regsVal (b.toNat + sizeRegs sz) (sizeRegs sz) l) }

/-- CAS (spec 18 R331). -/
def execCas (d a b : Reg) (ord : Order) (sc : Scope) (sz : MSize) (g : Guard) (s : State) : Host.Outcome State Fault Refusal :=
  execute (.cas d a b ord sc sz g)
    (guarded (atomOwn (.cas d a b ord sc sz g) (sizeBytes sz) a (casData b sz) (.rmw .cas (sizeBytes sz) (some d) ord sc false))) s

/-! ## Fences -/

/-- FENCE: the command is outstanding on ST; the group goes on (spec 16 R304, R306). -/
def execFence (ord : Order) (sc : Scope) (g : Guard) (s : State) : Host.Outcome State Fault Refusal :=
  execute (.fence ord sc g)
    (guarded (noRegion fun x m => .done 0 (handOn (.fence ord sc g) x (waitClass (.fence ord sc g)) (.fence ord sc x.eff false) false m))) s

/-- FENCE_COMPLETE: the acquire part is done once the earlier loads are, and the hidden read cache is invalidated; with the release part done too the fence
completes, and write-combining lines have been emptied (spec 10 R187, R189, 16 R304). -/
def fenceComplete (w g id : Nat) (m : Mach) : Mach :=
  match findOut m w g id with
  | some o =>
    match o.kind with
    | .fence ord sc lanes acqd =>
      let core := (m.wg w).core
      let waits := fun k => (m.grp w g).outs.any (fenceWaits m w g o k sc)
      let m1 := if hasAcq ord && !acqd && !(waits .acq) then acquireAt core sc (setOut w g id (.fence ord sc lanes true) m) else m
      if waits ord then m1 else landOut w g id [] (flushAll core m1)
    | _ => m
  | none => m

/-! ## Bindings -/

/-- The object of a binding: an address, or a phaser handle (spec 17 R315). -/
def bindObject (y : Group) (d : Reg) (kind : BindKind) (l : Nat) : DWord :=
  match kind with
  | .ph => (y.reg d.toNat l).setWidth 64
  | _ => y.pair d.toNat l

/-- The alignment of an object (spec 17 R317). -/
def bindAlign : BindKind → Nat
  | .at => 4
  | .lock => 8
  | .ph => 1

/-- The traps of BIND, in their order (spec 17 R317). -/
def bindTrap (m : Mach) (x : Iss) (e : Nat) (b : Bind) : Option Cause :=
  let p := (m.wg x.w).part
  let t := (m.wg x.w).binds
  let isAddr := decide (b.kind ≠ .ph)
  if b.obj.toNat % bindAlign b.kind ≠ 0 ∨ (!b.all && (decide (b.base % 32 ≠ 0) || decide (b.size % 32 ≠ 0))) = true then some .misalignedAccess
  else if (isAddr && decide (2 ^ 52 ≤ b.obj.toNat)) || (!b.all && !b.vault && (decide (2 ^ 52 ≤ b.base) || decide (2 ^ 52 < b.base + b.size))) then
    some .pageNotPresent
  else if !b.all && b.vault && !(vaultRangeOk m p b.base (max 1 b.size)) then some .vaultBounds
  else if (t.any fun f => decide (f.1 = e)) || (!b.all && decide (b.size = 0)) ||
      (!b.all && t.any fun f => !f.2.all && decide ((f.2.kind, f.2.obj) ≠ (b.kind, b.obj)) && overlaps f.2.vault f.2.base f.2.size b.vault b.base b.size) then
    some .bindConflict
  else none

/-- The fault of a phaser command whose handle is not live. -/
def phaserFault (c : Cause) (o : Out) (m : Mach) : Fail := ⟨c, o.irec.lanes, 0, freeInfo m⟩

/-- An entry of the bind table written. -/
def putBind (w e : Nat) (b : Bind) (m : Mach) : Mach := m.modW w fun z => { z with binds := Store.put z.binds e b }

/-- BIND of a phaser is performed, or its handle is not live (spec 17 R316, R317). -/
def bindPhaser (w g : Nat) (o : Out) (e : Nat) (h : Word) (b : Bind) (m : Mach) : Mach :=
  match livePhaser m (m.wg w).part (m.wg w).ctx h with
  | some _ => landOut w g o.id [] (putBind w e b m)
  | none => failOut w g o.id (phaserFault .phaserHandle o m) m

/-- The number and the record of the command handed on last by a group. -/
def lastOut (m : Mach) (w g : Nat) : Option Out := (m.grp w g).outs.reverse.head?

/-- The entry a BIND writes (spec 17 R316). -/
def bindEntry (y : Group) (d a b : Reg) (all vault : Bool) (kind : BindKind) (l : Nat) : Bind :=
  if all then ⟨kind, bindObject y d kind l, true, false, 0, 0⟩
  else
    ⟨kind, bindObject y d kind l, false, vault, if vault then (y.reg a.toNat l).toNat else (y.pair a.toNat l).toNat, (y.reg b.toNat l).toNat⟩

/-- A command of class QU whose work is done at issue: its results land, and its count falls, later (spec 05 R74, 17 R316, R318, log 13). -/
def landLater (i : Instr) (x : Iss) (dst : Option Reg) (ws : List LaneWrite) (m : Mach) : Mach :=
  handOn i x (waitClass i) (.cmd (.land ws) dst x.eff) false m

/-- BIND: the table changes at issue; the binding of a phaser whose handle is not live is reported at the next wait point on QU (spec 17 R316, R317,
log 13). -/
def bindOwn (i : Instr) (d a b : Reg) (e : Nat) (all vault : Bool) (kind : BindKind) (x : Iss) (m : Mach) : Own :=
  let en := bindEntry (m.grp x.w x.g) d a b all vault kind (lowLaneD x.eff)
  match bindTrap m x e en with
  | some c => trapEff x c m
  | none =>
    if inRegion x x.eff m then regionTrap x m
    else if kind = .ph ∧ livePhaser m (m.wg x.w).part (m.wg x.w).ctx (en.obj.setWidth 32) = none then
      let m1 := handOn i x (waitClass i) (.cmd (.bindPh e en) none x.eff) false m
      .done 0 (match lastOut m1 x.w x.g with | some o => failOut x.w x.g o.id (phaserFault .phaserHandle o m) m1 | none => m1)
    else .done 0 (landLater i x none [] (putBind x.w e en m))

/-- BIND. -/
def execBind (d a b : Reg) (e : BitVec 4) (all vault : Bool) (kind : BindKind) (g : Guard) (s : State) : Host.Outcome State Fault Refusal :=
  execute (.bind d a b e all vault kind g) (guarded (bindOwn (.bind d a b e all vault kind g) d a b e.toNat all vault kind)) s

/-- UNBIND (spec 17 R318). -/
def execUnbind (e : BitVec 4) (g : Guard) (s : State) : Host.Outcome State Fault Refusal :=
  execute (.unbind e g) (guarded (noRegion fun x m =>
    .done 0 (landLater (.unbind e g) x none [] (m.modW x.w fun z => { z with binds := Store.del z.binds e.toNat })))) s

/-! ## Lock words -/

/-- The traps and the command of ACQ and REL: one access for the group, through the lowest lane; one sector is charged whatever the guards (spec 05 R87,
18 R330, R335). -/
def lockOwn (i : Instr) (a : Reg) (kind : Nat → OutKind) (x : Iss) (m : Mach) : Own :=
  if x.eff = 0 then .done 1 m
  else
    let l := lowLaneD x.eff
    let ea := eaPair (m.grp x.w x.g) a 0 l
    let q : Req := ⟨.global, 8, true, true, false⟩
    let forbid := if inRegion x x.eff m then lanesTrap .gambitForbidden ((lanesOf (regionMask x x.eff m)).map fun l => (l, ea)) else none
    match (addrTrap x m q [(l, ea)]) <|> forbid <|> (turnTrap x m q [(l, ea)]) <|> (watchStop x m q [(l, ea)]) with
    | some t => t
    | none =>
      match accessHold m x.w x.g 1 (sharedAccess m x.w q [(l, ea)]) with
      | some r => .hold r
      | none => .done 1 (handOn i x (waitClass i) (kind ea) (sharedAccess m x.w q [(l, ea)]) m)

/-- ACQ (spec 18 R335). -/
def execAcq (d a : Reg) (try_ : BitVec 1) (sc : Scope) (g : Guard) (s : State) : Host.Outcome State Fault Refusal :=
  execute (.acq d a try_ sc g) (fun x m => lockOwn (.acq d a try_ sc g) a (fun ea => .acq d x.eff ea (decide (try_ = 1)) sc none) x m) s

/-- REL (spec 18 R335). -/
def execRel (a : Reg) (sc : Scope) (g : Guard) (s : State) : Host.Outcome State Fault Refusal :=
  execute (.rel a sc g) (fun x m => lockOwn (.rel a sc g) a (fun ea => .rel ea sc) x m) s

/-- The word names this group as its holder. -/
def lockHeldBy (m : Mach) (w g v : Nat) : Bool :=
  decide (fld v 0 1 = 1) && decide (fld v 28 36 = fld (lockWord m w g false) 28 36)

/-- A word that no lock word can be: a reserved field, another partition (spec 18 R335). -/
def lockBroken (m : Mach) (w v : Nat) : Bool :=
  decide (fld v 2 26 ≠ 0) || (decide (fld v 0 1 = 1) && decide (fld v 28 4 ≠ (m.wg w).part % 16))

/-- A lock fault of a command (spec 18 R335). -/
def lockFault (o : Out) (addr : Nat) (m : Mach) : Fail := ⟨.lockState, o.irec.lanes, BitVec.ofNat 64 addr, freeInfo m⟩

/-- ACQs of a group that wait, with the words it holds: at most four (spec 18 R334). -/
def lockLoad (y : Group) : Nat := y.locks.length + (y.outs.filter fun o => (arrivalOf o).isSome && o.fail.isNone).length

/-- Where a lock word's command goes. -/
def lockPlace (m : Mach) (w : Nat) (k : OutKind) (addr : Nat) : Except Cause Place := accPlace m w k ⟨0, addr, 0, 0, none, false⟩

/-- The lane for which a lock word's command writes. -/
def lockAgent (w g : Nat) (o : Out) : Agent := laneAgent w g (lowLaneD o.irec.lanes)

/-- An ACQ arrives at its word's home (spec 18 R335). -/
def acqArrive (w g : Nat) (o : Out) (mi : Mach) : Mach :=
  match o.kind with
  | .acq dst lanes addr tries sc none =>
    match lockPlace mi w o.kind addr with
    | .error _ => mi
    | .ok pl =>
      let core := (mi.wg w).core
      let m := refreshCache core pl (touchLanes w o mi)
      let v := leNat (readPa m pl.key 8)
      if lockBroken m w v || lockHeldBy m w g v then failOut w g o.id (lockFault o addr m) m
      else if fld v 0 1 = 1 ∧ tries = true then
        orderDone core (.acq, sc) (landOut w g o.id ((lanesOf lanes).map fun l => .reg dst.toNat l 0) m)
      else if 4 ≤ lockLoad (m.grp w g) then failOut w g o.id (lockFault o addr m) m
      else if fld v 0 1 = 0 then grantLock ⟨w, g, o⟩ pl.key (putLock core (lockAgent w g o) pl.key (lockWord m w g false) m)
      else
        let m1 := putLock core (lockAgent w g o) pl.key (v ||| 2) (setOut w g o.id (.acq dst lanes addr tries sc (some (m.nextCmd, pl.key))) m)
        inherit (m.wg w).part pl.key v (m.block w).priority { m1 with nextCmd := m1.nextCmd + 1 }
  | _ => mi

/-- A REL is performed at its word's home (spec 18 R335). -/
def relArrive (w g : Nat) (o : Out) (mi : Mach) : Mach :=
  match o.kind with
  | .rel addr sc =>
    match lockPlace mi w o.kind addr with
    | .error _ => mi
    | .ok pl =>
      let core := (mi.wg w).core
      let m := touchLanes w o mi
      let v := leNat (readPa m pl.key 8)
      if lockBroken m w v || !(lockHeldBy m w g v) then failOut w g o.id (lockFault o addr m) m
      else
        let m1 := (orderDone core (.rel, sc) (landOut w g o.id [] m)).modG w g fun y => { y with locks := y.locks.filter fun k => decide (k ≠ pl.key) }
        endInherit (m.wg w).part (m.wg w).ctx pl.key (passLock core (lockAgent w g o) pl.key m1)
  | _ => mi

/-- LOAD_LANDING: loads and atomics, and the arrival of an ACQ. -/
def loadLanding (w g id : Nat) (m : Mach) : Mach :=
  whenPerformed (fun k => landsAsLoad k || (match k with | .acq _ _ _ _ _ none => true | _ => false)) w g id
    (fun o m => match o.kind with | .acq _ _ _ _ _ _ => acqArrive w g o m | _ => accessAct w g o m) m

/-- STORE_ACCEPTED: stores, atomics without a result, and REL. -/
def storeAccepted (w g id : Nat) (m : Mach) : Mach :=
  whenPerformed (fun k => landsAsStore k || (match k with | .rel _ _ => true | _ => false)) w g id
    (fun o m => match o.kind with | .rel _ _ => relArrive w g o m | _ => accessAct w g o m) m

/-! ## Waiting on a word -/

/-- WAITW (spec 18 R336). -/
def waitwOwn (i : Instr) (d a b : Reg) (sc : Scope) (sz : MSize) (x : Iss) (m : Mach) : Own :=
  if x.eff = 0 then .done 1 m
  else
    let y := m.grp x.w x.g
    let n := sizeBytes sz
    let ls := (lanesOf x.eff).map fun l => (l, eaPair y a 0 l)
    match accessTrap x m ⟨.global, n, true, false, false⟩ ls with
    | some t => t
    | none =>
      if strongPending m x.w x.g then .hold .strong
      else
        .done 1 (handOn i x (waitClass i)
          (.waitw n d sc (ls.map fun e => ⟨e.1, e.2, 0, BitVec.ofNat 128 (y.regsVal b.toNat (n / 4) e.1), none, false⟩)) false m)

/-- WAITW. -/
def execWaitw (d a b : Reg) (sc : Scope) (sz : MSize) (g : Guard) (s : State) : Host.Outcome State Fault Refusal :=
  execute (.waitw d a b sc sz g) (waitwOwn (.waitw d a b sc sz g) d a b sc sz) s

/-- A lane of a WAITW reads its location at the home, with what the core's threads have stored and its write-combining lines hold; the value it returns is
kept (spec 16 R300, 18 R336). -/
def waitwLane (m : Mach) (e : CoreOut) (n : Nat) (a : LaneAcc) : LaneAcc :=
  if a.region.isSome then a
  else
    match placeOf m e a with
    | none => a
    | some pl =>
      let home := readPa m pl.key n
      let bs := (List.range n).map fun k => (combined m (m.wg e.w).core (pl.key + k)).getD (home.getD k 0)
      if leNat bs = a.cmp.toNat then a else { a with region := some (.plain, (List.range n).map fun k => (k, bs.getD k 0)) }

/-- WAITW_RETURN: lanes whose word differs have their result; when every lane has one, they are written (spec 18 R336). -/
def waitwReturn (w g id : Nat) (m : Mach) : Mach :=
  whenPerformed (fun k => match k with | .waitw _ _ _ _ => true | _ => false) w g id (fun o m =>
    match o.kind with
    | .waitw n dst sc lanes =>
      let ls := lanes.map (waitwLane m ⟨w, g, o⟩ n)
      let m := lanes.foldl (fun acc a => match placeOf acc ⟨w, g, o⟩ a with | some pl => refreshCache (acc.wg w).core pl acc | none => acc) (touchLanes w o m)
      if ls.all fun a => a.region.isSome then
        landOut w g id (ls.flatMap fun a => loadWrites n false dst a.lane (match a.region with | some (_, es) => es.map (·.2) | none => [])) m
      else setOut w g id (.waitw n dst sc ls) m
    | _ => m) m

/-! ## Soft errors -/

/-- SOFT_ERROR: stored bits no longer match their code; the next read will meet it (spec 10 R190). -/
def softError (loc : Loc) (m : Mach) : Mach := if m.failing.contains loc then m else { m with failing := m.failing ++ [loc] }

/-- SOFT_ERROR. -/
def execSoftError (loc : Loc) (s : State) : Host.Outcome State Fault Refusal := eventStep (softError loc) s

/-- HOST_FRAME_REMAP: the host has remapped a retired frame or block, which is in use again (spec 10 R190). -/
def hostFrameRemap (loc : Loc) (m : Mach) : Mach :=
  match loc with
  | .hbm pa => { m with badFrames := m.badFrames.filter fun f => decide (f ≠ pa / 65536) }
  | .vault c off => { m with badBlocks := m.badBlocks.filter fun f => decide (f ≠ vaultKey c off / 4096) }
  | .scratch _ _ => m

/-- HOST_FRAME_REMAP. -/
def execHostFrameRemap (loc : Loc) (s : State) : Host.Outcome State Fault Refusal := eventStep (hostFrameRemap loc) s

end Sys2Proof.Machine
end

