-- ==== Sys2Proof/Machine/Gambit.lean ====
section
/-! DEFINITION. Gambit regions: GBEGIN, GCOMMIT, GABORT and the grant of a commit (spec 18 R341 to R349). -/

namespace Sys2Proof.Machine

/-- The region of a lane, open or waiting for its outcome. -/
def anyRegion (m : Mach) (w g l : Nat) : Option Region := m.regions.find? fun q => q.isOf w g l

/-- The retry record a GBEGIN goes on with (spec 18 R343): the same fallback with a count above 0 keeps its timestamp. -/
def retryAt (r : Retry) (t : DWord) (now : Nat) : Retry := if r.fallback = t ∧ 0 < r.aborts then r else ⟨t, now % 2 ^ 64, 0⟩

/-- A region opened for a lane. -/
def openRegion (w g : Nat) (t : DWord) (d : Reg) (l : Nat) (m : Mach) : Mach :=
  let r := retryAt (Store.get default (m.grp w g).retries l) t m.cycle
  let m1 := m.modG w g fun y => { y with retries := Store.put y.retries l r }
  { m1 with regions := m1.regions ++ [⟨w, g, l, t, d, r.stamp, decide (8 ≤ r.aborts), [], [], [], [], [], false, false, false, none⟩] }

/-- GBEGIN: BRANCH_TARGET, GAMBIT_NESTED (a region whose outcome is not known counts as open, log 26), DOUBLE_FAULT, LSER_NESTED; held until the slots are free (spec 07 R136, 18 R341, R342). -/
def gbeginOwn (d : Reg) (off : BitVec 19) (x : Iss) (m : Mach) : Own :=
  let t := x.pc + (off.signExtend 64 <<< 2)
  match targetWaits m x.w t, targetAt m x.w false t with
  | true, _ => .hold (.code t)
  | false, .error c => targetTrap c t x.eff
  | false, .ok _ =>
    if (lanesOf x.eff).any fun l => (anyRegion m x.w x.g l).isSome then trapEff x .gambitNested m
    else if (m.grp x.w x.g).trapMode.isSome then trapEff x .doubleFault m
    else if inSerial x m then trapEff x .lserNested m
    else if 64 < regionSlots m (m.wg x.w).core + popMask x.eff then .hold (.slots (popMask x.eff))
    else .done 0 ((lanesOf x.eff).foldl (fun acc l => openRegion x.w x.g t d l acc) m)

/-- GBEGIN. -/
def execGbegin (d : Reg) (off : BitVec 19) (g : Guard) (s : State) : Host.Outcome State Fault Refusal :=
  execute (.gbegin d off g) (guarded (gbeginOwn d off)) s

/-- A region's stores, as ranges. -/
def regionStores (q : Region) : List (Nat × Nat) := q.stores.map fun e => (e.addr, e.size)

/-- The traps of a commit's stores in a deterministic launch: OWNERSHIP, REGION_WRITER, SERIAL_ORDER (spec 19 R353, R357, R363). -/
def commitTrap (qs : List Region) (x : Iss) (m : Mach) : Option Own :=
  let hits := fun (f : RStore → Bool) => qs.filterMap fun q => (q.stores.find? f).map fun e => (q.lane, e.addr)
  if isDet m x.w = false then none
  else
    (lanesTrapFree .ownership (hits fun e => ownedByOther m x.w false e.addr e.size) m)
      <|> (lanesTrapFree .regionWriter (hits fun e => otherWriter m (m.wg x.w).part .thread false e.addr e.size) m)
      <|> (if turnEnded m x.w then lanesTrapFree .serialOrder (hits fun e => !(ownedBySelf m x.w false e.addr e.size)) m else none)

/-- GCOMMIT: the lanes ask for their commit; a lane whose abort has been decided has its outcome; outside a region there is no effect (spec 18 R346,
R347). -/
def gcommitOwn (i : Instr) (x : Iss) (m : Mach) : Own :=
  let qs := (lanesOf x.eff).filterMap fun l => regionOf m x.w x.g l
  let live := qs.filter fun q => q.aborted.isNone
  let sh := isDet m x.w && live.any fun q => q.stores.any fun e => !(ownedBySelf m x.w false e.addr e.size)
  let sectors := sectorCount (qs.flatMap fun q => (regionStores q).map (·.1))
  match commitTrap live x m, sh && turnFull m x.w live.length with
  | some t, _ => t
  | none, true => .hold (.turn live.length)
  | none, false =>
    let m1 := qs.foldl (fun acc q => modRegion x.w x.g q.lane (fun q => { q with asked := true }) acc) m
    .done sectors (if live = [] then m1 else handOn i x (waitClass i) (.gcommit (maskOf (live.map (·.lane)))) sh m1)

/-- GCOMMIT. -/
def execGcommit (g : Guard) (s : State) : Host.Outcome State Fault Refusal :=
  execute (.gcommit g) (guarded (gcommitOwn (.gcommit g))) s

/-- GABORT: regions abort at once with cause EXPLICIT, and their lanes go to the fallback; outside a region there is no effect (spec 18 R347). -/
def gabortOwn (code : Nat) (x : Iss) (m : Mach) : Own :=
  .done 0 (((lanesOf x.eff).filterMap fun l => regionOf m x.w x.g l).foldl (fun acc q =>
    modRun x (fun r => { r with moves := addMove r.moves q.fallback (maskOf [q.lane]) })
      (abortRegion q (q.aborted.getD (4, code)).1 (q.aborted.getD (4, code)).2 acc)) m)

/-- GABORT. -/
def execGabort (code : BitVec 6) (g : Guard) (s : State) : Host.Outcome State Fault Refusal :=
  execute (.gabort code g) (guarded (gabortOwn code.toNat)) s

/-! ## The grant of a commit -/

/-- Where a location of a region lies, for a read or a write (spec 18 R344, 13 R253). -/
def regionPlace (m : Mach) (w va : Nat) (rt : Right) : Except Cause Nat :=
  match translateNormal m (wgSite m w) (m.wg w).part (m.wg w).ctx va rt with
  | .error e => .error e
  | .ok x => if rt = .write ∧ sealedAt m x.pa = true then .error .accessTableDeny else .ok x.pa

/-- The locations that a commit writes, and those that it reads again (spec 18 R346). -/
def commitPlaces (q : Region) : List (Nat × Right) :=
  (q.stores.map fun e => (e.addr, Right.write)) ++
    (if q.changed then (q.constrs.map fun c => (c.addr, Right.read)) ++ q.stores.filterMap (fun e => e.sym.map fun s => (s.1, Right.read)) else [])

/-- The first fault that the stores of a region, and the inputs it reads again, meet. -/
def commitFault (m : Mach) (q : Region) : Option (Cause × Nat) :=
  (commitPlaces q).findSome? fun e => match regionPlace m q.wg e.1 e.2 with | .error c => some (c, e.1) | .ok _ => none

/-- A commit waits for a walk, or for the second read of a granule that it reads or writes (spec 10 R185, R190, R191). -/
def commitWaits (m : Mach) (q : Region) : Bool :=
  (commitPlaces q).any fun e => xlatWaits m (wgSite m q.wg) (m.wg q.wg).part (m.wg q.wg).ctx e.1 ||
    match regionPlace m q.wg e.1 e.2 with | .ok pa => hbmFailing m pa | .error _ => false

/-- An input read afresh, plus its addend (spec 18 R345, R346). -/
def freshInput (m : Mach) (w addr size : Nat) (k : DWord) : DWord :=
  match regionPlace m w addr .read with
  | .ok pa => if size = 8 then BitVec.ofNat 64 (leNat (readPa m pa 8)) + k else BitVec.ofNat 64 ((leNat (readPa m pa size) + k.toNat) % 2 ^ (8 * size))
  | .error _ => k

/-- A constraint keeps its outcome with the fresh input (spec 18 R346). -/
def constrKept (m : Mach) (w : Nat) (c : Constr) : Bool :=
  let v := freshInput m w c.addr c.size c.k
  decide (cmpOutcome c.cc (decide (c.size = 8)) (if c.tagFirst then v else c.u) (if c.tagFirst then c.u else v) = c.holds)

/-- The lines of a region: those it has read and those it stores to. -/
def regionLines (m : Mach) (q : Region) : List Nat :=
  q.lines.map (·.2) ++ q.stores.filterMap fun e => match regionPlace m q.wg e.addr .write with | .ok pa => some (pa / 128) | .error _ => none

/-- An earlier access of the lane has not been performed, or the group's order holds the commit's stores back (spec 10 R194, 16 R310, 18 R346). -/
def laneBusy (m : Mach) (w g l : Nat) (o : Out) : Bool :=
  let mine := { o with kind := .gcommit (maskOf [l]) }
  (m.grp w g).outs.any fun f =>
    decide (f.id < o.id) && ((shareLane mine f && (accessK f.kind || isFenceK f.kind)) || groupOrder m ⟨w, g, mine⟩ f)

/-- A commit that is pending and that only the rules of lines may hold back. -/
def commitPending (m : Mach) (q : Region) : Bool :=
  q.asked && q.aborted.isNone && (m.grp q.wg q.grp).outs.any fun o =>
    o.fail.isNone && (match o.kind with | .gcommit ls => ls.getLsbD q.lane | _ => false) && !(laneBusy m q.wg q.grp q.lane o) &&
      (!o.shared || holdsTurn m q.wg)

/-- An older pending commit shares a line: it is granted first (spec 18 R346). -/
def olderCommit (m : Mach) (q : Region) : Bool :=
  m.regions.any fun r =>
    !(r.isOf q.wg q.grp q.lane) && commitPending m r && (commitFault m r).isNone && olderRegion m r q && (regionLines m r).any fun k => (regionLines m q).contains k

/-- The lane's outcome is known. -/
def settleCommit (w g l : Nat) (m : Mach) : Mach := m.modG w g fun y => { y with outs := y.outs.filterMap (dropLane l) }

/-- Every store entry is performed at one point; the retry record is cleared; the region is gone (spec 18 R346). -/
def performCommit (q : Region) (m : Mach) : Mach :=
  let core := (m.wg q.wg).core
  let vals := q.stores.map fun e =>
    (e, match e.sym with | some (a, s, k) => if q.changed then freshInput m q.wg a s k else e.val | none => e.val)
  let m1 := vals.foldl (fun acc e =>
    match regionPlace acc q.wg e.1.addr .write with
    | .ok pa => writePa acc (some core) (laneAgent q.wg q.grp q.lane) pa (leBytes e.1.size e.2.toNat)
    | .error _ => acc) (flushAll core m)
  let m2 := { m1 with regions := m1.regions.filter fun r => !(r.isOf q.wg q.grp q.lane) }
  orderDone core (.ar, .device) (settleCommit q.wg q.grp q.lane (m2.modG q.wg q.grp fun y => { y with retries := Store.del y.retries q.lane }))

/-- The fault of a command whose lanes' commits have all faulted or been decided; while another lane's can still be decided it is not due (spec 10 R193, 18 R347,
log 26). -/
def commitFails (w g : Nat) (o : Out) (m : Mach) : Mach :=
  let ls := match o.kind with | .gcommit k => lanesOf k | _ => []
  let fs := ls.filterMap fun l => ((anyRegion m w g l).bind (commitFault m)).map fun e => (l, e.2, e.1)
  if fs.length = ls.length then (match laneFault fs with | some f => failOut w g o.id f m | none => m) else m

/-- The outcome of a commit that nothing holds back: the lock conflicts, a changed line, the constraints (spec 18 R346, R348). -/
def decideCommit (q : Region) (o : Out) (m0 : Mach) : Mach :=
  let m := (regionLines m0 q).foldl (fun acc k => (lockers acc q k).foldl (fun acc r => abortYounger q r acc) acc) m0
  match anyRegion m q.wg q.grp q.lane with
  | none => m
  | some q1 =>
    if q1.aborted.isSome then settleCommit q.wg q.grp q.lane m
    else if q1.changed && q1.plain then settleCommit q.wg q.grp q.lane (markAbort q.wg q.grp q.lane 1 0 m)
    else
      match commitFault m q1 with
      | some _ => commitFails q.wg q.grp o m0
      | none =>
        if q1.changed && q1.constrs.any (fun c => !(constrKept m q.wg c)) then settleCommit q.wg q.grp q.lane (markAbort q.wg q.grp q.lane 2 0 m)
        else performCommit q1 m

/-- GCOMMIT_GRANT: a lane's commit is decided (spec 18 R346, R347). -/
def gcommitGrant (w g l : Nat) (m : Mach) : Mach :=
  match anyRegion m w g l, (m.grp w g).outs.find? fun o => o.fail.isNone && match o.kind with | .gcommit ls => ls.getLsbD l | _ => false with
  | some q, some o =>
    if q.aborted.isSome then settleCommit w g l m
    else if commitPending m q && !(olderCommit m q) && !(commitWaits m q) then decideCommit q o m
    else m
  | _, _ => m

end Sys2Proof.Machine
end

