-- ==== Sys2Proof/Machine/Barrier.lean ====
section
/-! DEFINITION. Named barriers (spec 11 R211 to R214). -/

namespace Sys2Proof.Machine

/-- A barrier of a workgroup. -/
def Mach.bar (m : Mach) (w n : Nat) : Bar := Store.get default (m.wg w).bars n

/-- A barrier changed. -/
def Mach.modBar (m : Mach) (w n : Nat) (f : Bar → Bar) : Mach := m.modW w fun z => { z with bars := Store.upd default z.bars n f }

/-- A held instruction completes: its word is done (spec 06 R100). -/
def finishHeld (w g : Nat) (m : Mach) : Mach :=
  finishWord w g 1 (bits (((m.grp w g).run.getD default).rest.headD 0) 0 2).toNat (m.modG w g fun y => { y with held := none })

/-- Passing a wait is an acquire, at device scope where a copy arrived in a phase that has passed (spec 11 R208, R211). -/
def passAcquire (w n ph : Nat) (m : Mach) : Mach := if ph < (m.bar w n).copyPhase then dropCache (m.wg w).core m else m

/-- An arrival of the group on a barrier waits for its earlier accesses. -/
def arrivePending (y : Group) (n : Nat) : Bool :=
  y.outs.any fun o => match o.kind with | .cmd (.arrive k) _ _ => decide (k = n) | _ => false

/-- The run goes on to its next honour point, whatever comes due meanwhile (spec 06 R99, 21 R397). -/
def runGoes (w g : Nat) (m : Mach) : Mach := m.modG w g fun y => { y with run := y.run.map fun r => { r with goes := true } }

/-- A group's held barrier wait passes if its phase is over; a workgroup that is halted, saved, or to be halted or saved, passes it later. -/
def tryBarrier (w g : Nat) (m : Mach) : Mach :=
  match (m.grp w g).held with
  | some (.barrier n ph) =>
    if mayGoOn (m.wg w) && decide (ph < (m.bar w n).phase) && !(arrivePending (m.grp w g) n) then runGoes w g (finishHeld w g (passAcquire w n ph m)) else m
  | _ => m

/-- The groups that wait in a phase that has completed pass (spec 11 R211). -/
def passWaiters (w : Nat) (m : Mach) : Mach := (m.wg w).groupIds.foldl (fun acc g => tryBarrier w g acc) m

/-- An arrival (spec 11 R211): the phase completes when the count is reached. -/
def Bar.arrive (b : Bar) (byCopy : Bool) : Bar :=
  let b1 := { b with copyPhase := if byCopy then b.phase + 1 else b.copyPhase }
  if b.count ≤ b.arrivals + 1 then { b1 with arrivals := 0, phase := b.phase + 1 } else { b1 with arrivals := b.arrivals + 1 }

/-- A phase completes: a step of the workgroup ends with event 1 (spec 21 R397). -/
def phaseStep (w : Nat) (m : Mach) : Mach := m.modW w fun z => { z with stepEvent := if z.stepLeft.isSome then some (z.stepEvent.getD 1) else z.stepEvent }

/-- An arrival on a barrier of a workgroup; waiters of a phase that completes pass. -/
def barArrive (w n : Nat) (byCopy : Bool) (m : Mach) : Mach :=
  if (m.bar w n).armed then
    let m1 := passWaiters w (m.modBar w n fun b => b.arrive byCopy)
    if (m.bar w n).phase < (m1.bar w n).phase then phaseStep w m1 else m1
  else m

/-- BARI (spec 11 R212). -/
def execBari (n : BitVec 4) (imm : BitVec 10) (st : BitVec 2) (s : State) : Host.Outcome State Fault Refusal :=
  execute (.bari n imm st) (noRegion fun x m =>
    if (m.bar x.w n.toNat).arrivals ≠ 0 then trapEff x .barrierCount m
    else .done 0 (m.modBar x.w n.toNat fun b => { b with armed := true, count := imm.toNat })) s

/-- The traps of BARA, BARW and BARAW (spec 11 R214). -/
def barTrap (n : Nat) (arrives waits : Bool) (x : Iss) (m : Mach) : Option Own :=
  let b := m.bar x.w n
  if !b.armed || (arrives && (decide (Store.get 0 (m.grp x.w x.g).arrived n = b.phase + 1) || arrivePending (m.grp x.w x.g) n)) then some (trapEff x .barrierCount m)
  else if inRegion x x.eff m then some (regionTrap x m)
  else if waits && inSerial x m then some (trapEff x .lserNested m)
  else if waits && (m.grp x.w x.g).trapMode.isSome then some (trapEff x .doubleFault m)
  else none

/-- The group arrives in the current phase, its earlier writes released (spec 10 R187, 11 R211). -/
def groupArrive (w g n : Nat) (m : Mach) : Mach :=
  barArrive w n false (flushAll (m.wg w).core (m.modG w g fun y => { y with arrived := Store.put y.arrived n ((m.bar w n).phase + 1) }))

/-- The accesses that a group made before its command have been performed; what cannot complete before a TRAPRET is not waited for (spec 11 R211, log 109). -/
def arriveReady (m : Mach) (w g id : Nat) : Bool :=
  (m.grp w g).outs.all fun f => decide (id ≤ f.id) || !(accessK f.kind || isFenceK f.kind) || isWaiting f.kind || behindFault m w g f

/-- An arrival at issue: it is made at once, or it waits for the group's earlier accesses (spec 11 R211). -/
def issueArrive (i : Instr) (x : Iss) (n : Nat) (m : Mach) : Mach :=
  if arriveReady m x.w x.g m.nextCmd then groupArrive x.w x.g n m else handOn i x 8 (.cmd (.arrive n) none x.eff) false m

/-- An arrival that has waited is made, in the phase that is current; a group that stands at the barrier's wait waits for that phase (spec 11 R211). -/
def tryArrive (w g : Nat) (o : Out) (n : Nat) (m : Mach) : Mach :=
  if arriveReady m w g o.id then
    groupArrive w g n ((dropOut w g o.id m).modG w g fun y =>
      { y with held := match y.held with | some (.barrier k p) => some (.barrier k (if k = n then (m.bar w n).phase else p)) | h => h })
  else m

/-- The group waits for a phase: it goes on if the phase is over, else it stands held (spec 11 R211, R213). -/
def waitPhase (n ph : Nat) (x : Iss) (m : Mach) : Own :=
  if ph < (m.bar x.w n).phase && !(arrivePending (m.grp x.w x.g) n) then .done 0 (passAcquire x.w n ph m)
  else .placed (dropSlot x.w x.g (m.modG x.w x.g fun y => { y with held := some (.barrier n ph), gaveUp := m.cycle }))

/-- BARA (spec 11 R213). -/
def execBara (n : BitVec 4) (g : Guard) (s : State) : Host.Outcome State Fault Refusal :=
  execute (.bara n g) (guarded fun x m =>
    match barTrap n.toNat true false x m with
    | some t => t
    | none => .done 0 (issueArrive (.bara n g) x n.toNat m)) s

/-- BARW: a group that has never arrived waits for the current phase (spec 11 R211, R213). -/
def execBarw (n : BitVec 4) (g : Guard) (s : State) : Host.Outcome State Fault Refusal :=
  execute (.barw n g) (guarded fun x m =>
    match barTrap n.toNat false true x m with
    | some t => t
    | none =>
      let a := Store.get 0 (m.grp x.w x.g).arrived n.toNat
      waitPhase n.toNat (if a = 0 then (m.bar x.w n.toNat).phase else a - 1) x m) s

/-- BARAW (spec 11 R213). -/
def execBaraw (n : BitVec 4) (g : Guard) (s : State) : Host.Outcome State Fault Refusal :=
  execute (.baraw n g) (guarded fun x m =>
    match barTrap n.toNat true true x m with
    | some t => t
    | none => waitPhase n.toNat (m.bar x.w n.toNat).phase x (issueArrive (.baraw n g) x n.toNat m)) s

end Sys2Proof.Machine
end

