-- ==== Sys2Proof/Machine/Copies.lean ====
section
/-! DEFINITION. Copies and multicasts: issue, collectives, slices, sectors, completion (spec 11 R201 to R210, R218, R219, R467). -/

namespace Sys2Proof.Machine

/-! ## Issue -/

/-- A copy instruction as its word and literal give it (spec 11 R202). -/
structure CopySpec where
  len : Nat
  srcSp : Space
  dstSp : Space
  bar : Option Nat
  shadow : Bool
  use : NodeUse
  solo : Bool
  multi : Bool
  deriving DecidableEq, Repr, Inhabited

/-- The workgroup of a stage set that stands on core `k` of the cluster (spec 11 R206). -/
def stageOn (m : Mach) (w k : Nat) : Option Nat :=
  let x := m.wg w
  if x.core % 4 = k then some w
  else
    m.wgIds.find? fun v =>
      let y := m.wg v
      decide (y.launch = x.launch) && decide (y.wgid = x.wgid) && decide (clusterOfCore y.core = clusterOfCore x.core) && decide (y.core % 4 = k) &&
        decide (y.status ≠ .ended)

/-- The cores a receiver word names, in ascending order (spec 11 R206). -/
def maskCores (word : Word) : List Nat := (List.range 4).filter fun k => word.getLsbD k

/-- The receivers of a multicast; a workgroup that is gone is a part that has stopped (spec 11 R206, R467). -/
def receivers (m : Mach) (w : Nat) (word : Word) : List Recv :=
  (maskCores word).map fun k => match stageOn m w k with | some v => ⟨v, false⟩ | none => ⟨0, true⟩

/-- The offset of a receiver's destination (spec 11 R206). -/
def recvOffset (dst i : Nat) (word : Word) : Nat := dst + i * (word.toNat / 256)

/-- The role map permits the receivers (spec 02 R26, R27, 11 R206): the issuer's own core, and the cores its peer mask names. -/
def rolesPermit (m : Mach) (w : Nat) (word : Word) : Bool :=
  (maskCores word).all fun k =>
    decide (k = (m.wg w).core % 4) ||
      (decide (1 < (m.block w).stages) && (m.block w).roles.getLsbD (16 * ((m.wg w).core % 4) + 4 + k))

/-- An operand of a copy: a pair in global space, else a register. -/
def copyAddr (y : Group) (r : Reg) (sp : Space) (l : Nat) : Nat :=
  match sp with
  | .glob => (y.pair r.toNat l).toNat
  | _ => (y.reg r.toNat l).toNat

/-- The offsets a copy writes in scratchpads: its own, or each receiver's. -/
def scratchDsts (c : CopySpec) (dst : Nat) (word : Word) : List Nat :=
  if c.dstSp ≠ .scr then []
  else if c.multi then (List.range (maskCores word).length).map fun i => recvOffset dst i word
  else [dst]

/-- A barrier the copy will arrive on is not armed: in the issuer's workgroup, for CPYM in each receiver's (spec 11 R205, R208). -/
def barrierUnarmed (m : Mach) (w : Nat) (c : CopySpec) (word : Word) : Bool :=
  match c.bar with
  | none => false
  | some b =>
    if c.multi then (receivers m w word).any fun r => !r.stopped && !(m.bar r.wg b).armed
    else !(m.bar w b).armed

/-- A range that leaves its space: a vault range that breaks R179, a global range with an end above the address space. -/
def rangeTrap (m : Mach) (p : Nat) (sp : Space) (a len : Nat) : Option Cause :=
  match sp with
  | .vault => if vaultRangeOk m p a len then none else some .vaultBounds
  | .glob => if 2 ^ 52 < a + len then some .pageNotPresent else none
  | .scr => none

/-- The precise traps of CPY and CPYM, in their order (spec 11 R205). -/
def copyTrap (m : Mach) (x : Iss) (c : CopySpec) (src dst : Nat) (word : Word) : Option Cause :=
  let p := (m.wg x.w).part
  let sb := (m.block x.w).scratch
  let ds := scratchDsts c dst word
  if c.multi && decide (bits word 4 4 ≠ 0) then some .reservedField
  else if src % 32 ≠ 0 ∨ dst % 32 ≠ 0 ∨ (c.multi && decide (word.toNat / 256 % 32 ≠ 0)) = true then some .misalignedAccess
  else if (decide (c.srcSp = .scr) && decide (sb < src + c.len)) || ds.any fun d => decide (sb < d + c.len) then some .scratchBounds
  else
    match (if c.srcSp = .vault then rangeTrap m p .vault src c.len else none) <|> (if c.dstSp = .vault then rangeTrap m p .vault dst c.len else none),
      (if c.srcSp = .glob then rangeTrap m p .glob src c.len else none) <|> (if c.dstSp = .glob then rangeTrap m p .glob dst c.len else none) with
    | some e, _ => some e
    | none, some e => some e
    | none, none =>
      if barrierUnarmed m x.w c word then some .barrierCount
      else if decide (c.srcSp = .scr) && (List.range ds.length).any fun i =>
          (!c.multi || decide (((receivers m x.w word).map (·.wg)).getD i 0 = x.w)) && rangesMeet src c.len (ds.getD i 0) c.len then some .copySlice
      else none

/-- The buffer of a workgroup that holds a range (spec 11 R215). -/
def shadowOf (m : Mach) (w : Nat) (vault : Bool) (a len : Nat) : Option (Nat × Shadow) :=
  (m.wg w).shadows.find? fun e => decide (e.2.vault = vault) && decide (e.2.base ≤ a) && decide (a + len ≤ e.2.base + e.2.size)

/-- A range that meets a hidden half (spec 11 R215). -/
def meetsHidden (ss : Store Shadow) (vault : Bool) (a len : Nat) : Bool :=
  ss.any fun e => decide (e.2.vault = vault) && rangesMeet a len (e.2.base + e.2.size) e.2.size

/-- The buffers that redirect a space, for the accesses of a workgroup. -/
def shadowsFor (m : Mach) (w : Nat) (sp : Space) : Store Shadow :=
  match sp with
  | .scr => (m.wg w).shadows
  | .vault => vaultShadows m (m.wg w).part
  | .glob => []

/-- The destinations of a copy: workgroup and address. -/
def copyDsts (m : Mach) (w : Nat) (c : CopySpec) (dst : Nat) (word : Word) : List (Nat × Nat) :=
  if c.multi then (List.range (maskCores word).length).filterMap fun i =>
    let r := (receivers m w word).getD i default
    if r.stopped then none else some (r.wg, recvOffset dst i word)
  else [(w, dst)]

/-- A shadow range that breaks R215 (spec 11 R205, R215). -/
def shadowBroken (m : Mach) (w : Nat) (c : CopySpec) (src dst : Nat) (word : Word) : Bool :=
  meetsHidden (shadowsFor m w c.srcSp) (decide (c.srcSp = .vault)) src c.len ||
    (copyDsts m w c dst word).any fun e =>
      if c.shadow then decide (c.dstSp = .glob) || (shadowOf m e.1 (decide (c.dstSp = .vault)) e.2 c.len).isNone
      else meetsHidden (shadowsFor m e.1 c.dstSp) (decide (c.dstSp = .vault)) e.2 c.len

/-- The causes of ownership and region table for an engine's writes to a range, reported on the command's class (spec 19 R353, R363). -/
def engineTurn (m : Mach) (w : Nat) (cls : RegionClass) (vault : Bool) (a len : Nat) : Option Cause :=
  if isDet m w = false then none
  else if ownedByOther m w vault a len then some .ownership
  else if otherWriter m (m.wg w).part cls vault a len then some .regionWriter
  else none

/-- A shared engine write issued after the turn has ended: SERIAL_ORDER, precise (spec 19 R357). -/
def engineLate (m : Mach) (w : Nat) (vault : Bool) (a len : Nat) : Bool := isDet m w && turnEnded m w && !(ownedBySelf m w vault a len)

/-- The causes of a copy's refusal that are reported on QU, in their order (spec 11 R205, 19 R353).  A handle is read until the copy is named, and for a signal
by each slice: a gate's node is freed when it opens (R207). -/
def copyRefusal (m : Mach) (w : Nat) (c : CopySpec) (named : Bool) (src dst : Nat) (word : Word) : Option Cause :=
  if c.multi && !(rolesPermit m w word) then some .stageRole
  else if (decide (c.use = .sig) || (decide (c.use = .gate) && !named)) && (liveNode m (m.wg w).part (m.wg w).ctx word).isNone then some .graphNode
  else if shadowBroken m w c src dst word then some .publishState
  else if c.dstSp = .scr then none
  else engineTurn m w .rook (decide (c.dstSp = .vault)) dst c.len

/-- The copy an issue joins: a collective of the workgroup that has begun, or a new one (spec 11 R204). -/
def findCollective (m : Mach) (w k : Nat) : Option Nat :=
  (m.copies.find? fun e => decide (e.2.wg = w) && decide (e.2.coll = some k)).map (·.1)

/-- A new copy of a group. -/
def newCopy (m : Mach) (w g : Nat) (c : CopySpec) : Copy :=
  let z := m.wg w
  { wg := w, part := z.part, ctx := z.ctx
    coll := if c.solo then none else some (m.grp w g).copiesIssued
    members := if c.solo then [g] else z.groupIds.filter fun j => decide ((m.grp w j).live ≠ 0)
    slices := [], srcSp := c.srcSp, dstSp := c.dstSp, bar := c.bar, shadow := c.shadow, use := c.use
    named := false, handle := 0, multi := if c.multi then some 0 else none, recvs := [], gate := .none, refused := none, cluster := clusterOfCore z.core }

/-- A slice agrees with its collective (spec 11 R204). -/
def copyAgrees (k : Copy) (c : CopySpec) (word : Option Word) : Bool :=
  decide (k.srcSp = c.srcSp) && decide (k.dstSp = c.dstSp) && decide (k.bar = c.bar) && decide (k.shadow = c.shadow) && decide (k.use = c.use) &&
    decide (k.multi.isSome = c.multi) &&
    (match word with
     | none => true
     | some v => !k.named || (if c.multi then decide (k.multi = some v) else decide (c.use = .none) || decide (k.handle = v)))

/-- A copy is refused: its slices stop where they are (spec 11 R205, log 47). -/
def refuseCopy (k : Nat) (c : Cause) (m : Mach) : Mach :=
  (m.copy k).slices.foldl (fun acc j => acc.modSlice j fun s => { s with status := .landed }) (m.modCopy k fun q => { q with refused := some (q.refused.getD c) })

/-- A fault of a slice's command: %trapinfo of R218, or zero. -/
def failSlice (c : Cause) (info : Nat) (addr : Nat) (s : Slice) (m : Mach) : Mach :=
  match findOut m s.wg s.grp s.id with
  | some o => failOut s.wg s.grp s.id ⟨c, o.irec.lanes, BitVec.ofNat 64 addr, BitVec.ofNat 64 info⟩ m
  | none => m

/-- The node handle and the receiver word of a copy become known; a gated copy is lodged (spec 11 R204, R206, R207). -/
def nameCopy (w k : Nat) (c : CopySpec) (word : Word) (m : Mach) : Mach :=
  if (m.copy k).named then m
  else
    let n := fld word.toNat 0 12
    let m1 := m.modCopy k fun q =>
      { q with named := true, handle := word, multi := if c.multi then some word else none, recvs := if c.multi then receivers m w word else [],
               gate := if c.use = .gate then .lodged n else .none }
    if c.use = .gate ∧ (m.copy k).refused = none then
      m1.modP (m.wg w).part fun p => { p with nodes := Store.upd default p.nodes n fun e => { e with gated := e.gated ++ [k] } }
    else m1

/-- A copy that the issuer's turn holds back: deterministic, its destination not the issuer's own (spec 19 R353). -/
def copyShared (m : Mach) (w : Nat) (c : CopySpec) (dst : Nat) : Bool :=
  isDet m w && decide (c.dstSp ≠ .scr) && !(ownedBySelf m w (decide (c.dstSp = .vault)) dst c.len)

/-- A slice whose copy has been refused ends; what its own group is to be told: a disagreement and a lost gate concern every group (spec 11 R204, R205, R207). -/
def endSlice (sid : Nat) (own : Option Cause) (m : Mach) : Mach :=
  let m1 := m.modSlice sid fun s => { s with status := .landed }
  match own, (m.copy (m.slice sid).copy).refused with
  | some e, _ => failSlice e 0 0 (m.slice sid) m1
  | none, some .copySlice => failSlice .copySlice 0 0 (m.slice sid) m1
  | none, some .graphNode => failSlice .graphNode 0 0 (m.slice sid) m1
  | none, _ => m1

/-- A slice joins its copy; its command is outstanding on QU (spec 11 R203 to R207).  A shared slice before its turn stays in the turn buffer (spec 19 R355). -/
def joinCopy (i : Instr) (x : Iss) (c : CopySpec) (slice : Option (Nat × Nat × Word)) (m : Mach) : Mach :=
  let found := if c.solo then none else findCollective m x.w (m.grp x.w x.g).copiesIssued
  let k := found.getD m.nextCopy
  let m1 := if found.isSome then m else { m with copies := Store.put m.copies k (newCopy m x.w x.g c), nextCopy := m.nextCopy + 1 }
  let agrees := copyAgrees (m1.copy k) c (slice.map fun s => s.2.2)
  let own := if agrees then slice.bind fun s => copyRefusal m1 x.w c (m1.copy k).named s.1 s.2.1 s.2.2 else none
  let sh := match slice with | some s => copyShared m x.w c s.2.1 | none => false
  let sid := m1.nextSlice
  let id := m1.nextCmd
  let m2 := match slice with | some s => if agrees && own.isNone then nameCopy x.w k c s.2.2 m1 else m1 | none => m1
  let lodged := match (m2.copy k).gate with | .lodged _ => true | _ => sh && !(holdsTurn m x.w)
  let m3 := { m2 with
    slices := Store.put m2.slices sid { copy := k, wg := x.w, grp := x.g, id := id, src := match slice with | some s => s.1 | none => 0, dst := match slice with | some s => s.2.1 | none => 0
                                        len := if slice.isSome then c.len else 0, pos := 0, order := 0, round := 0, status := if slice.isNone then .landed else .lodged }
    nextSlice := sid + 1 }
  let m4 := handOn i x (waitClass i) (.copy k sid) sh (m3.modCopy k fun q => { q with slices := q.slices ++ [sid] })
  let m5 := if c.solo then m4 else m4.modG x.w x.g fun y => { y with copiesIssued := y.copiesIssued + 1 }
  if agrees = false then
    let m6 := refuseCopy k .copySlice m5
    (m6.copy k).slices.foldl (fun acc j => failSlice .copySlice 0 0 (acc.slice j) acc) m6
  else if own.isSome ∨ (m5.copy k).refused.isSome = true then
    endSlice sid own (match own with | some e => refuseCopy k e m5 | none => m5)
  else if slice.isNone || lodged then m5 else queueSlice sid m5

/-- CPY and CPYM at issue (spec 11 R203, R205, R206).  Without a lane that takes effect the slice is empty. -/
def copyOwn (i : Instr) (d a b : Reg) (c : CopySpec) (x : Iss) (m : Mach) : Own :=
  let cost := if c.srcSp = .scr ∧ c.dstSp = .scr then 0 else c.len / 32
  if x.eff = 0 then .done cost (joinCopy i x c none m)
  else
    let y := m.grp x.w x.g
    let l := lowLaneD x.eff
    let src := copyAddr y a c.srcSp l
    let dst := copyAddr y d c.dstSp l
    let word := if c.multi || decide (c.use ≠ .none) then y.reg b.toNat l else 0
    match copyTrap m x c src dst word with
    | some e => trapEff x e m
    | none =>
      if inRegion x x.eff m then regionTrap x m
      else if decide (c.dstSp ≠ .scr) && engineLate m x.w (decide (c.dstSp = .vault)) dst c.len then trapEff x .serialOrder m
      else if copyShared m x.w c dst && turnFull m x.w 1 then .hold (.turn 1)
      else if decide (c.use ≠ .gate) && decide (256 ≤ rookHeld m (clusterOfCore (m.wg x.w).core)) then .hold .rook
      else .done cost (joinCopy i x c (some (src, dst, word)) m)

/-- CPY. -/
def execCpy (d a b : Reg) (sect : BitVec 12) (src dst : Space) (bar : Bool) (bi : BitVec 4) (shadow : Bool) (use : NodeUse) (solo : Bool) (g : Guard)
    (s : State) : Host.Outcome State Fault Refusal :=
  execute (.cpy d a b sect src dst bar bi shadow use solo g)
    (copyOwn (.cpy d a b sect src dst bar bi shadow use solo g) d a b
      ⟨32 * (sect.toNat + 1), src, dst, if bar then some bi.toNat else none, shadow, use, solo, false⟩) s

/-- CPYM. -/
def execCpym (d a b : Reg) (sect : BitVec 12) (src : Space) (bar : Bool) (bi : BitVec 4) (shadow solo : Bool) (g : Guard) (s : State) :
    Host.Outcome State Fault Refusal :=
  execute (.cpym d a b sect src bar bi shadow solo g)
    (copyOwn (.cpym d a b sect src bar bi shadow solo g) d a b
      ⟨32 * (sect.toNat + 1), src, .scr, if bar then some bi.toNat else none, shadow, .none, solo, true⟩) s

/-! ## Slices and sectors -/

/-- The destinations of a slice: workgroup, offset of its first byte, receiver index. -/
def sliceDsts (c : Copy) (s : Slice) : List (Nat × Nat × Nat) :=
  match c.multi with
  | none => [(c.wg, s.dst, 0)]
  | some word => (List.range c.recvs.length).filterMap fun i =>
      let r := c.recvs.getD i default
      if r.stopped then none else some (r.wg, recvOffset s.dst i word, i)

/-- Earlier accesses of the group that a copy follows (spec 10 R194, 11 R209, 16 R304, 18 R324, log 121). -/
def groupBusy (m : Mach) (w g id : Nat) : Bool :=
  (m.grp w g).outs.any fun f => decide (f.id < id) && (accessK f.kind || isFenceK f.kind)

/-- An earlier access of the group cannot be performed before a TRAPRET, or before its workgroup's turn: what waits for it is passed by the commands of others
(spec 11 R201, 15 R295, 19 R355, log 111). -/
def groupStuck (m : Mach) (w g id : Nat) : Bool :=
  (m.grp w g).outs.any fun f =>
    decide (f.id < id) && (accessK f.kind || isFenceK f.kind) && (behindFault m w g f || (f.shared && !(holdsTurn m w)))

/-- A PUBLISH of the buffer that holds a range is pending since before a command (spec 11 R215). -/
def publishPending (m : Mach) (w : Nat) (vault : Bool) (a len id : Nat) : Bool :=
  match shadowOf m w vault a len with
  | none => false
  | some (k, _) =>
    (m.wg w).groupIds.any fun g => (m.grp w g).outs.any fun o => decide (o.id < id) && match o.kind with | .publish j _ => decide (j = k) | _ => false

/-- The command number at which a copy was issued: that of its first slice. -/
def copyIssue (m : Mach) (c : Copy) : Nat := ((c.slices.head?).map fun j => (m.slice j).id).getD 0

/-- A shadow copy that a pending PUBLISH holds (spec 11 R215). -/
def shadowHeld (m : Mach) (c : Copy) (s : Slice) : Bool :=
  c.shadow && (sliceDsts c s).any fun e => publishPending m e.1 (decide (c.dstSp = .vault)) e.2.1 s.len (copyIssue m c)

/-- A workgroup in whose allocation no new engine write starts: saved, or to be halted (spec 11 R219, 21 R394). -/
def frozen (x : Wg) : Bool := decide (x.status = .saved) || x.haltReq || x.halted || x.stepEvent.isSome

/-- A slice at the Rook takes its place in the order of starts: no PUBLISH, turn, save, halt or handler holds it back (spec 11 R201, R215, R219, 19 R353, 21 R394,
log 111). -/
def sliceInOrder (m : Mach) (s : Slice) : Bool :=
  let c := m.copy s.copy
  let shared := (findOut m s.wg s.grp s.id).map (·.shared) = some true
  !(groupStuck m s.wg s.grp s.id) && !(shadowHeld m c s) && !(copyStalled m c) &&
    !((sliceDsts c s).any fun e => decide (c.dstSp = .scr) && frozen (m.wg e.1)) && (!shared || holdsTurn m s.wg)

/-- A slice's fault has been reported and not answered (spec 11 R218). -/
def sliceFails (m : Mach) (s : Slice) : Bool := ((m.grp s.wg s.grp).outs.find? fun o => decide (o.id = s.id)).any fun o => o.fail.isSome

/-- A slice outside the Rook is to reach it: its gate has opened, its turn has come, nothing of it is saved (spec 11 R201, R207, R219, 19 R355). -/
def sliceArrives (m : Mach) (s : Slice) : Bool :=
  let c := m.copy s.copy
  let shared := (findOut m s.wg s.grp s.id).map (·.shared) = some true
  decide (s.status = .lodged) && (match c.gate with | .none | .opened => true | _ => false) && !(copyStalled m c) && (!shared || holdsTurn m s.wg) &&
    !(sliceFails m s)

/-- The next place at the end of a Rook's rotation (spec 11 R201). -/
def rookTurn (m : Mach) (cl : Nat) : Nat := (rookSlices m cl).foldl (fun n e => max n (e.2.round + 1)) 1

/-- COPY_SLICE_START: a slice outside the Rook reaches it, in issue order; the oldest slice there starts once the group's earlier accesses are done, with at most 64
in progress (spec 11 R201, R209, 19 R353, log 111). -/
def copySliceStart (k : Nat) (m : Mach) : Mach :=
  let s := m.slice k
  let cl := (m.copy s.copy).cluster
  let held := rookSlices m cl
  let running := (held.filter fun e => e.2.status ≠ .queued).length
  if sliceArrives m s then
    if m.slices.any fun e => decide ((m.copy e.2.copy).cluster = cl) && sliceArrives m e.2 && decide (e.2.id < s.id) then m else queueSlice k m
  else if s.status = .queued ∧ sliceInOrder m s = true ∧ groupBusy m s.wg s.grp s.id = false ∧ running < 64 ∧
      (held.all fun e => decide (e.2.status ≠ .queued) || decide (s.order ≤ e.2.order) || !(sliceInOrder m e.2)) = true then
    m.modSlice k fun s => { s with status := .running, round := rookTurn m cl }
  else m

/-- COPY_SLICE_START. -/
def execCopySliceStart (k : Nat) (s : State) : Host.Outcome State Fault Refusal := eventStep (copySliceStart k) s

/-- A place of an engine's access from a site: global memory needs a normal page (spec 10 R188, 11 R209, 13 R253); a hidden half where the access is a shadow
copy's (11 R215). -/
def copyPlace (m : Mach) (k : Site) (p c : Nat) (sp : Space) (w a : Nat) (rt : Right) (hidden : Bool) : Except Cause Place :=
  match sp with
  | .glob =>
    match translateNormal m k p c a rt with
    | .error e => .error e
    | .ok x => if rt = .write ∧ sealedAt m x.pa = true then .error .accessTableDeny else .ok ⟨false, x.pa, 0⟩
  | .vault =>
    if hidden then
      match shadowOf m w true a 32 with
      | none => .error .publishState
      | some (_, b) =>
        match vaultAddr m p (if b.upper then a else a + b.size) with
        | none => .error .vaultBounds
        | some key => vaultByte m p rt key
    else vaultPlace m p a rt
  | .scr =>
    if hidden then
      match shadowOf m w false a 32 with
      | none => .error .publishState
      | some (_, b) => .ok ⟨false, scratchAddr (m.wg w) (if b.upper then a else a + b.size), 0⟩
    else
      match scratchPlace m w a with
      | .error e => .error e
      | .ok key => .ok ⟨false, key, 0⟩

/-- An engine's access of a space waits for a translation (spec 10 R185). -/
def spaceWaits (m : Mach) (k : Site) (p c : Nat) (sp : Space) (a : Nat) : Bool := decide (sp = .glob) && xlatWaits m k p c a

/-- An engine's access of a space has filled the TLBs it missed (spec 10 R185). -/
def spaceTouch (k : Site) (p c : Nat) (sp : Space) (a : Nat) (m : Mach) : Mach := if sp = .glob then touchTlb k p c a m else m

/-- Scratchpad words of a range of keys whose check has failed, in the granules that it meets (spec 10 R190, R191). -/
def failingKeys (m : Mach) (key n : Nat) : List Nat :=
  m.failing.filterMap fun f => match f with
    | .scratch c b => if decide (key / 32 ≤ scratchKey c b / 32) && decide (scratchKey c b / 32 ≤ (key + n - 1) / 32) then some (scratchKey c b) else none
    | _ => none

/-- Errors of a place that wait for a second read, and lasting ones (spec 10 R190). -/
def placeErrors (m : Mach) (sp : Space) (pl : Place) (n : Nat) : Bool × Bool :=
  match sp with
  | .scr =>
    let es := failingKeys m pl.key n
    (es.any fun k => !(m.badRows.contains (rowOf k)), !es.isEmpty)
  | _ => (failingAt m pl, false)

/-- Bytes of a place. -/
def readPlace (m : Mach) (sp : Space) (pl : Place) (n : Nat) : List Byte :=
  match sp with
  | .scr => Memory.readN m.scratch pl.key n
  | .vault => Memory.readN m.vault pl.key n
  | .glob => readPa m pl.key n

/-- Bytes written by an engine (spec 18 R326). -/
def writePlace (core : Option Nat) (sp : Space) (pl : Place) (bs : List Byte) (m : Mach) : Mach :=
  match sp with
  | .scr => { m with scratch := Memory.writeN m.scratch pl.key bs }
  | .vault => { m with vault := Memory.writeN m.vault pl.key bs }
  | .glob => writePa m core none pl.key bs

/-- The places a sector is written to, or the first fault: receiver index, cause, address. -/
def sectorDsts (m : Mach) (c : Copy) (pos : Nat) : List (Nat × Nat × Nat) → Except (Nat × Cause × Nat) (List Place)
  | [] => .ok []
  | e :: es =>
    match copyPlace m (.cluster c.cluster) c.part c.ctx c.dstSp e.1 (e.2.1 + 32 * pos) .write c.shadow with
    | .error x => .error (e.2.2, x, e.2.1 + 32 * pos)
    | .ok pl =>
      match sectorDsts m c pos es with
      | .error x => .error x
      | .ok ps => .ok (pl :: ps)

/-- A slice has still to write one of the places: each of its sectors by the place it has now, or where it has none by its address in a list (spec 11 R209). -/
def slicePending (m : Mach) (c : Copy) (s : Slice) (ps : List Place) (as : List (Nat × Nat)) : Bool :=
  (List.range (s.len / 32)).any fun i => decide (s.pos ≤ i) && (sliceDsts c s).any fun e =>
    match copyPlace m (.cluster c.cluster) c.part c.ctx c.dstSp e.1 (e.2.1 + 32 * i) .write c.shadow with
    | .ok pl => ps.contains pl
    | .error _ => as.any fun a => decide (a.2 = e.2.1 + 32 * i) && (decide (c.dstSp ≠ .scr) || decide (a.1 = e.1))

/-- An earlier slice of the workgroup has still to write the sector (spec 11 R209). -/
def earlierSlice (m : Mach) (k : Nat) (c : Copy) (s : Slice) (ps : List Place) : Bool :=
  m.slices.any fun e =>
    let d := m.copy e.2.copy
    decide (e.1 ≠ k) && decide (e.2.wg = s.wg) && decide (e.2.id < s.id) && decide (e.2.status ≠ .landed) && decide (d.dstSp = c.dstSp) &&
      slicePending m d e.2 ps ((sliceDsts c s).map fun f => (f.1, f.2.1 + 32 * s.pos))

/-- A sector faults: the slice stops there (spec 11 R218); the faults of a workgroup that has ended are discarded, and the slice ends (20 R373). -/
def sectorFault (k : Nat) (e : Cause) (side recv addr : Nat) (m : Mach) : Mach :=
  let s := m.slice k
  match findOut m s.wg s.grp s.id with
  | some _ =>
    failSlice .asyncCopyFault (causeCode e + 64 * side + 256 * recv + 2 ^ 32 * s.pos) addr s (m.modSlice k fun s => { s with status := .faulted })
  | none => m.modSlice k fun s => { s with status := .landed }

/-- The next sector of a slice: where it is read and where it is written, or the fault it meets: cause, side, receiver, address (spec 11 R218). -/
def sectorPlan (m : Mach) (s : Slice) : Except (Cause × Nat × Nat × Nat) (Place × List Place) :=
  let c := m.copy s.copy
  let a := s.src + 32 * s.pos
  match copyPlace m (.cluster c.cluster) c.part c.ctx c.srcSp c.wg a .read false with
  | .error e => .error (e, 0, 0, a)
  | .ok src =>
    if (placeErrors m c.srcSp src 32).2 then .error (.uncorrectable, 0, 0, a)
    else
      match sectorDsts m c s.pos (sliceDsts c s) with
      | .error (i, e, b) => .error (e, 1, i, b)
      | .ok ps => .ok (src, ps)

/-- A slice in progress may move its next sector: its fault has been answered, nothing of it is saved or halted, no translation and no second read is awaited, and an
earlier slice has nothing to write there (spec 10 R185, R190, 11 R209, R218, R219, 21 R394). -/
def sectorMoves (m : Mach) (k : Nat) (s : Slice) : Bool :=
  let c := m.copy s.copy
  let at' := Site.cluster c.cluster
  (decide (s.status = .running) || decide (s.status = .faulted)) && !(sliceFails m s) && !(copyStalled m c) &&
    !(spaceWaits m at' c.part c.ctx c.srcSp (s.src + 32 * s.pos)) &&
    !((sliceDsts c s).any fun e => (decide (c.dstSp = .scr) && (m.wg e.1).halted) || spaceWaits m at' c.part c.ctx c.dstSp (e.2.1 + 32 * s.pos)) &&
    !(match copyPlace m at' c.part c.ctx c.srcSp c.wg (s.src + 32 * s.pos) .read false with | .ok pl => (placeErrors m c.srcSp pl 32).1 | .error _ => false) &&
    !(match sectorPlan m s with | .ok p => earlierSlice m k c s p.2 | .error _ => false)

/-- A slice comes before another in the rotation of a Rook (spec 11 R201). -/
def rookBefore (a b : Slice) : Bool := decide (a.round < b.round) || (decide (a.round = b.round) && decide (a.order < b.order))

/-- COPY_SECTOR: the next sector of the Rook's rotation is read once and written to each destination (spec 11 R201, R203, R206, R218). -/
def copySector (k : Nat) (m : Mach) : Mach :=
  let s := m.slice k
  let c := m.copy s.copy
  if sectorMoves m k s = false ∨ ((rookSlices m c.cluster).any fun e => rookBefore e.2 s && sectorMoves m e.1 e.2) = true then m
  else
    match sectorPlan m s with
    | .error (e, side, i, a) => sectorFault k e side i a m
    | .ok (src, ps) =>
      let at' := Site.cluster c.cluster
      let m1 := (sliceDsts c s).foldl (fun acc e => spaceTouch at' c.part c.ctx c.dstSp (e.2.1 + 32 * s.pos) acc)
        (spaceTouch at' c.part c.ctx c.srcSp (s.src + 32 * s.pos) m)
      (ps.foldl (fun acc pl => writePlace none c.dstSp pl (readPlace m c.srcSp src 32) acc) m1).modSlice k fun s =>
        { s with pos := s.pos + 1, round := rookTurn m c.cluster, status := if s.len ≤ 32 * (s.pos + 1) then .landed else .running }

/-- COPY_SECTOR. -/
def execCopySector (k : Nat) (s : State) : Host.Outcome State Fault Refusal := eventStep (copySector k) s

/-! ## Completion -/

/-- Every group that is to contribute has done so, or has no thread left (spec 11 R204). -/
def allJoined (m : Mach) (c : Copy) : Bool :=
  c.members.all fun g => (c.slices.any fun j => decide ((m.slice j).grp = g)) || decide ((m.grp c.wg g).live = 0)

/-- The arrivals of a completed copy (spec 11 R208). -/
def copyArrivals (c : Copy) (m : Mach) : Mach :=
  match c.bar with
  | none => m
  | some b =>
    if c.multi.isSome then c.recvs.foldl (fun acc r => if r.stopped then acc else barArrive r.wg b true acc) m
    else if (m.wg c.wg).status = .ended then m else barArrive c.wg b true m

/-- The signal of a completed copy; a node that is no longer live is reported (spec 11 R207, 03 R33). -/
def copySignal (c : Copy) (m : Mach) : Mach :=
  if c.use = .sig ∧ c.named = true then
    match liveNode m c.part c.ctx c.handle with
    | some k => nodeDecrement c.part k 1 2 m
    | none => eventRecord c.part (c.handle.setWidth 64) .graphNode 2 0 m
  else m

/-- The contributing groups' commands are no longer outstanding. -/
def copyOuts (c : Copy) (m : Mach) : Mach :=
  c.slices.foldl (fun acc j =>
    let s := acc.slice j
    match findOut acc s.wg s.grp s.id with
    | some _ => landOut s.wg s.grp s.id [] (dropCache (acc.wg s.wg).core acc)
    | none => acc) m

/-- The copy's record and its slices end. -/
def dropCopy (k : Nat) (m : Mach) : Mach :=
  { m with copies := Store.del m.copies k, slices := m.slices.filter fun e => decide (e.2.copy ≠ k) }

/-- A fault of the copy has not been reported, or its report not answered. -/
def copyFaulted (m : Mach) (c : Copy) : Bool :=
  c.slices.any fun j => ((m.grp c.wg (m.slice j).grp).outs.any fun o => decide (o.id = (m.slice j).id) && o.fail.isSome)

/-- COPY_COMPLETE: when every slice has landed the copy arrives, signals and is no longer outstanding; a refused or cancelled copy ends without either
once its reports are over (spec 11 R205, R207, R208). -/
def copyComplete (k : Nat) (m : Mach) : Mach :=
  let c := m.copy k
  if (m.copies.any fun e => decide (e.1 = k)) = false ∨ copyFaulted m c = true ∨ (c.slices.any fun j => decide ((m.slice j).status ≠ .landed)) = true then m
  else if c.refused.isSome then
    let m1 := copyOuts c m
    if allJoined m c then dropCopy k m1 else m1
  else if allJoined m c && !(copyStalled m c) then dropCopy k (copyOuts c (copySignal c (copyArrivals c m)))
  else m

/-- COPY_COMPLETE. -/
def execCopyComplete (k : Nat) (s : State) : Host.Outcome State Fault Refusal := eventStep (copyComplete k) s

end Sys2Proof.Machine
end

