-- ==== Sys2Proof/Machine/Publish.lean ====
section
/-! DEFINITION. Shadow buffers and PUBLISH (spec 11 R215 to R217). -/

namespace Sys2Proof.Machine

/-- A shadow slot of a workgroup. -/
def shadowSlot (m : Mach) (w k : Nat) : Option Shadow := ((m.wg w).shadows.find? fun e => decide (e.1 = k)).map (·.2)

/-- A buffer overlaps another one of the same space: both halves count. -/
def shadowsMeet (a b : Shadow) : Bool := decide (a.vault = b.vault) && rangesMeet a.base (2 * a.size) b.base (2 * b.size)

/-- A declaration that breaks R215 or R217, precisely. -/
def declBroken (m : Mach) (w k : Nat) (s : Shadow) : Bool :=
  (shadowSlot m w k).isSome || decide (s.base % 32 ≠ 0) || decide (s.size % 32 ≠ 0) || decide (s.size = 0) ||
    (if s.vault then !(vaultRangeOk m (m.wg w).part s.base (2 * s.size)) || decide (s.base / 2 ^ 22 ≠ (s.base + 2 * s.size - 1) / 2 ^ 22)
     else decide ((m.block w).scratch < s.base + 2 * s.size)) ||
    (m.wg w).shadows.any fun e => shadowsMeet e.2 s

/-- A vault buffer that overlaps another workgroup's, or is one too many in its vault (spec 11 R217). -/
def vaultTaken (m : Mach) (w : Nat) (s : Shadow) : Bool :=
  let ss := vaultShadows m (m.wg w).part
  s.vault && (ss.any (fun e => shadowsMeet e.2 s) || decide (16 ≤ (ss.filter fun e => decide (e.2.base / 2 ^ 22 = s.base / 2 ^ 22)).length))

/-- A slot declared, the lower half in front. -/
def declare (w k : Nat) (s : Shadow) (m : Mach) : Mach := m.modW w fun z => { z with shadows := Store.put z.shadows k s }

/-- PUBLISH.decl: declared at issue, its count falls later; a vault that is taken is reported at the next wait point on QU (spec 11 R216, R217, log 13). -/
def declOwn (i : Instr) (vault : Bool) (k : Nat) (a b : Reg) (x : Iss) (m : Mach) : Own :=
  let l := lowLaneD x.eff
  let y := m.grp x.w x.g
  let s : Shadow := ⟨vault, (y.reg a.toNat l).toNat, (y.reg b.toNat l).toNat, false⟩
  if declBroken m x.w k s then trapEff x .publishState m
  else if vaultTaken m x.w s then
    let id := m.nextCmd
    let m1 := handOn i x (waitClass i) (.cmd (.decl k s) none x.eff) false m
    .done 0 (failOut x.w x.g id ⟨.publishState, x.eff, 0, freeInfo m⟩ m1)
  else .done 0 (landLater i x none [] (declare x.w k s m))

/-- PUBLISH.decl. -/
def execPublishDecl (vault : Bool) (k : BitVec 2) (a b : Reg) (g : Guard) (s : State) : Host.Outcome State Fault Refusal :=
  execute (.publishDecl vault k a b g) (guarded (noRegion (declOwn (.publishDecl vault k a b g) vault k.toNat a b))) s

/-- PUBLISH and PUBLISH.drop: the command is outstanding on QU (spec 11 R216, R217). -/
def publishOwn (i : Instr) (k : Nat) (drop : Bool) (x : Iss) (m : Mach) : Own :=
  match shadowSlot m x.w k with
  | none => trapEff x .publishState m
  | some s => if drop && s.upper then trapEff x .publishState m else .done 0 (handOn i x (waitClass i) (.publish k drop) false m)

/-- PUBLISH. -/
def execPublish (k : BitVec 2) (g : Guard) (s : State) : Host.Outcome State Fault Refusal :=
  execute (.publish k g) (guarded (noRegion (publishOwn (.publish k g) k.toNat false))) s

/-- PUBLISH.drop. -/
def execPublishDrop (k : BitVec 2) (g : Guard) (s : State) : Host.Outcome State Fault Refusal :=
  execute (.publishDrop k g) (guarded (noRegion (publishOwn (.publishDrop k g) k.toNat true))) s

/-- A shadow copy into a buffer, issued before a command, has not completed (spec 11 R216). -/
def shadowCopiesLeft (m : Mach) (w : Nat) (s : Shadow) (id : Nat) : Bool :=
  m.copies.any fun e =>
    e.2.shadow && decide (copyIssue m e.2 < id) && decide (s.vault = decide (e.2.dstSp = .vault)) &&
      e.2.slices.any fun j => (sliceDsts e.2 (m.slice j)).any fun d =>
        (s.vault || decide (d.1 = w)) && rangesMeet d.2.1 (max 1 (m.slice j).len) s.base s.size

/-- An earlier PUBLISH of the slot is pending. -/
def earlierPublish (m : Mach) (w k id : Nat) : Bool :=
  (m.wg w).groupIds.any fun g => (m.grp w g).outs.any fun o => decide (o.id < id) && match o.kind with | .publish j _ => decide (j = k) | _ => false

/-- PUBLISH_SWAP: when the shadow copies have completed and the group's earlier writes are released, the halves swap in one step, or the slot is undeclared
(spec 11 R216); its completion is an acquire of the engine's writes (18 R324). -/
def publishSwap (w g id : Nat) (m : Mach) : Mach :=
  match findOut m w g id with
  | some o =>
    match o.kind with
    | .publish k drop =>
      match shadowSlot m w k with
      | none => failOut w g id ⟨.publishState, o.irec.lanes, 0, freeInfo m⟩ m
      | some s =>
        if shadowCopiesLeft m w s id || earlierPublish m w k id || groupBusy m w g id || decide ((m.wg w).status = .saved) then m
        else if drop && s.upper then failOut w g id ⟨.publishState, o.irec.lanes, 0, freeInfo m⟩ m
        else
          landOut w g id [] (dropCache (m.wg w).core <| flushAll (m.wg w).core (m.modW w fun z =>
            { z with shadows := if drop then Store.del z.shadows k else Store.put z.shadows k { s with upper := !s.upper } }))
    | _ => m
  | none => m

/-- PUBLISH_SWAP. -/
def execPublishSwap (w g id : Nat) (s : State) : Host.Outcome State Fault Refusal := eventStep (publishSwap w g id) s

end Sys2Proof.Machine
end

