-- ==== Sys2Proof/Machine/Nodes.lean ====
section
/-! DEFINITION. Graph nodes, phasers and CAPLD: commands that no later step of the table completes; they are tried at issue and whenever something they
wait for may have changed (log 13) (spec 03 R41 to R46, 18 R337 to R340, 23 R420, R423). -/

namespace Sys2Proof.Machine

/-- One of several free entries (log 27). -/
def pickFrom (m : Mach) (ks : List Nat) : Option Nat := ks[Config.pick m.freeCtr % ks.length]?

/-- A result in every lane of a command. -/
def laneResults (dst : Option Reg) (lanes : Mask) (v : Word) : List LaneWrite :=
  match dst with
  | some d => (lanesOf lanes).map fun l => .reg d.toNat l v
  | none => []

/-- A fault of a command whose rule states no %trapinfo. -/
def cmdFail (w g : Nat) (o : Out) (c : Cause) (addr : Nat) (m : Mach) : Mach :=
  failOut w g o.id ⟨c, o.irec.lanes, BitVec.ofNat 64 addr, freeInfo m⟩ m

/-! ## Graph nodes -/

/-- Graph-table entries that are not armed. -/
def freeNodes (m : Mach) (p : Nat) : List Nat :=
  (List.range 4096).filter fun k => !(Store.get default (m.part p).nodes k : Node).armed

/-- What hardware reads in one granule for a workgroup, through its translation: a failing location is read again at once (spec 10 R190, log 7). -/
def readVia {α : Type} (look : Mach → Except Cause Xlat) (f : Mach → Xlat → Except Cause α) (m : Mach) : Except Cause α × Mach :=
  match look m with
  | .error e => (.error e, m)
  | .ok x =>
    let m1 := if paLocal x.pa then retryHbm x.pa m else m
    match look m1 with
    | .error e => (.error e, m1)
    | .ok x1 => (f m1 x1, m1)

/-- The predecessor count of a block, read through a context (spec 03 R33, R34, R45). -/
def readCount (w : Nat) (block : DWord) (m : Mach) : Except Cause Nat × Mach :=
  readVia (fun m => translateNormal m (wgSite m w) (m.wg w).part (m.wg w).ctx (block.toNat + 0x30) .read)
    (fun m x => if paLocal x.pa then .ok (leNat (readPa m x.pa 4)) else .error .graphNode) m

/-- An entry of the workgroup's reserve armed on a block (spec 03 R45). -/
def armNode (w k : Nat) (block : DWord) (m : Mach) : Mach :=
  (m.useFree.modP (m.wg w).part fun q =>
    { q with nodes := Store.upd default q.nodes k fun e => { e with armed := true, ctx := (m.wg w).ctx, block := block, gated := [] } }).modW w
    fun z => { z with nodeSlots := z.nodeSlots - 1 }

/-- GNODE.arm is performed (spec 03 R45). -/
def doArm (w g : Nat) (o : Out) (block : DWord) (dst : Option Reg) (lanes : Mask) (m : Mach) : Mach :=
  let z := m.wg w
  match readCount w block m with
  | (.error e, m0) => cmdFail w g o e (block.toNat + 0x30) m0
  | (.ok n, m0) =>
    match (if z.nodeSlots = 0 then none else pickFrom m0 (freeNodes m0 z.part)) with
    | none => cmdFail w g o .graphNode (block.toNat + 0x30) m0
    | some k =>
      let m1 := armNode w k block m0
      let m2 := landOut w g o.id (laneResults dst lanes (nodeHandle m1 z.part k)) m1
      if n = 0 then makeReady ⟨z.part, z.ctx, block, none, none⟩ (freeNode z.part k true m2) else m2

/-- GNODE.sig is performed, after the group's earlier accesses (spec 03 R34, R36, R45): a decrement that cannot be applied is the command's fault, and is never tried
again.  A node freed since the issue takes no decrement: GRAPH_NODE, which the model reports with the command (log 100). -/
def doSig (w g : Nat) (o : Out) (h : Word) (n : Nat) (dst : Option Reg) (lanes : Mask) (m : Mach) : Mach :=
  let z := m.wg w
  if groupBusy m w g o.id then m
  else
    match liveNode m z.part z.ctx h with
    | none => cmdFail w g o .graphNode 0 m
    | some k =>
      let block := (Store.get default (m.part z.part).nodes k : Node).block
      match decrementCount (wgSite m w) z.part z.ctx block n (flushAll z.core m) with
      | (.error (c, _), m1) => cmdFail w g o c (block.toNat + 0x30) m1
      | (.ok cnt, m1) =>
        let m2 := landOut w g o.id (laneResults dst lanes (BitVec.ofNat 32 cnt)) m1
        if cnt = 0 then makeReady ⟨z.part, z.ctx, block, none, none⟩ (freeNode z.part k true m2) else m2

/-! ## Phasers -/

/-- A phaser of a partition. -/
def phaserOf (m : Mach) (p k : Nat) : Phaser := Store.get default (m.part p).phasers k

/-- A phaser changed. -/
def modPhaser (p k : Nat) (f : Phaser → Phaser) (m : Mach) : Mach := m.modP p fun q => { q with phasers := Store.upd default q.phasers k f }

/-- The membership of a group. -/
def memberOf (q : Phaser) (w g : Nat) : Option PhMember := q.members.find? fun e => decide (e.wg = w) && decide (e.grp = g)

/-- Phasers of which a group is a member (spec 18 R337). -/
def membershipCount (m : Mach) (p w g : Nat) : Nat := ((m.part p).phasers.filter fun e => e.2.live && (memberOf e.2 w g).isSome).length

/-- A member changed. -/
def Phaser.modMember (q : Phaser) (w g : Nat) (f : PhMember → PhMember) : Phaser :=
  { q with members := q.members.map fun e => if e.wg = w ∧ e.grp = g then f e else e }

/-- A group registers: it joins the current phase (spec 18 R338). -/
def Phaser.join (q : Phaser) (w g : Nat) (mode : PhMode) : Phaser :=
  { q with members := q.members ++ [⟨w, g, mode, q.phase, false⟩], counted := q.counted || signals mode }

/-- The phaser a command names. -/
def cmdPhaser : Cmd → Option Word
  | .phReg h _ | .phDrop h | .phSig h | .phWait h | .phSw h _ => some h
  | _ => none

/-- An earlier phaser command of the group on the same phaser is pending (spec 18 R339). -/
def earlierPhaser (m : Mach) (w g id : Nat) (h : Word) : Bool :=
  (m.grp w g).outs.any fun f => decide (f.id < id) && match f.kind with | .cmd c _ _ => decide (cmdPhaser c = some h) | _ => false

/-- The handle of a phaser (spec 18 R337). -/
def phaserHandle (q : Phaser) (k : Nat) : Word := BitVec.ofNat 32 (q.gen * 4096 + k)

/-- PHREG.new is performed (spec 18 R339). -/
def doPhNew (w g : Nat) (o : Out) (mode : PhMode) (dst : Option Reg) (lanes : Mask) (m : Mach) : Mach :=
  let p := (m.wg w).part
  if 8 ≤ membershipCount m p w g then cmdFail w g o .phaserMode 0 m
  else
    match pickFrom m ((List.range 4096).filter fun k => !(phaserOf m p k).live) with
    | none => landOut w g o.id (laneResults dst lanes 0xFFFFFFFF) m
    | some k =>
      landOut w g o.id (laneResults dst lanes (phaserHandle (phaserOf m p k) k))
        (modPhaser p k (fun q => ({ q with live := true, ctx := (m.wg w).ctx, phase := 0, counted := false, members := [] } : Phaser).join w g mode) m.useFree)

/-- PHREG is performed (spec 18 R338 to R340). -/
def doPhReg (w g : Nat) (o : Out) (k : Nat) (mode : PhMode) (dst : Option Reg) (lanes : Mask) (m : Mach) : Mach :=
  let p := (m.wg w).part
  if (memberOf (phaserOf m p k) w g).isSome || decide (8 ≤ membershipCount m p w g) then cmdFail w g o .phaserMode 0 m
  else landOut w g o.id (laneResults dst lanes (BitVec.ofNat 32 (phaserOf m p k).phase)) (modPhaser p k (fun q => q.join w g mode) m)

/-- A member may signal: it is signal-capable, and a .sw member has not signalled its phase (spec 18 R340). -/
def maySignal (e : PhMember) : Bool := decide (e.mode = .s) || (decide (e.mode = .sw) && !e.signalled)

/-- A member signals its phase; the phaser's phase may complete (spec 18 R338, R339). -/
def signalMember (e : PhMember) : PhMember :=
  if e.mode = .s then { e with phase := (e.phase + 1) % 2 ^ 32 } else { e with signalled := true }

/-- The signal of a group on a phaser. -/
def phSignal (w g k : Nat) (m : Mach) : Mach :=
  modPhaser (m.wg w).part k (fun q => completePhase (q.modMember w g signalMember)) (flushAll (m.wg w).core m)

/-- PHSIG is performed, after the group's earlier writes (spec 18 R339, R340). -/
def doPhSig (w g : Nat) (o : Out) (k : Nat) (m : Mach) : Mach :=
  match memberOf (phaserOf m (m.wg w).part k) w g with
  | none => cmdFail w g o .phaserMode 0 m
  | some e =>
    if maySignal e = false then cmdFail w g o .phaserMode 0 m
    else if groupBusy m w g o.id then m
    else landOut w g o.id [] (phSignal w g k m)

/-- A wait of a member is over when its phase has completed: acquire, the next phase, the result (spec 18 R339, R340). -/
def doPhWait (w g : Nat) (o : Out) (k : Nat) (dst : Option Reg) (lanes : Mask) (m : Mach) : Mach :=
  let p := (m.wg w).part
  match memberOf (phaserOf m p k) w g with
  | none => cmdFail w g o .phaserMode 0 m
  | some e =>
    if e.mode = .s then cmdFail w g o .phaserMode 0 m
    else if e.phase = (phaserOf m p k).phase then m
    else
      let v := (e.phase + 1) % 2 ^ 32
      landOut w g o.id (laneResults dst lanes (BitVec.ofNat 32 v))
        (modPhaser p k (fun q => q.modMember w g fun e => { e with phase := v, signalled := false }) (dropCache (m.wg w).core m))

/-- PHSW: PHSIG, then PHWAIT (spec 18 R339). -/
def doPhSw (w g : Nat) (o : Out) (h : Word) (k : Nat) (signalled : Bool) (dst : Option Reg) (lanes : Mask) (m : Mach) : Mach :=
  if signalled then doPhWait w g o k dst lanes m
  else
    match memberOf (phaserOf m (m.wg w).part k) w g with
    | none => cmdFail w g o .phaserMode 0 m
    | some e =>
      if e.mode = .s ∨ maySignal e = false then cmdFail w g o .phaserMode 0 m
      else if groupBusy m w g o.id then m
      else doPhWait w g o k dst lanes (setOut w g o.id (.cmd (.phSw h true) dst lanes) (phSignal w g k m))

/-- PHDROP is performed (spec 18 R338 to R340). -/
def doPhDrop (w g : Nat) (o : Out) (k : Nat) (m : Mach) : Mach :=
  let p := (m.wg w).part
  if (memberOf (phaserOf m p k) w g).isNone then cmdFail w g o .phaserMode 0 m
  else landOut w g o.id [] (modPhaser p k (leavePhaser w g) m)

/-- A phaser command: in issue order on its phaser, of a live handle (spec 18 R339, R340). -/
def onPhaser (w g : Nat) (o : Out) (h : Word) (act : Nat → Mach → Mach) (m : Mach) : Mach :=
  if earlierPhaser m w g o.id h then m
  else
    match livePhaser m (m.wg w).part (m.wg w).ctx h with
    | none => cmdFail w g o .phaserHandle 0 m
    | some k => act k m

/-! ## The capability table -/

/-- Entry `k` of a workgroup's capability table, as bytes (spec 23 R420). -/
def readCap (w k : Nat) (m : Mach) : Except Cause (List Byte) × Mach :=
  readVia (fun m => translate m (wgSite m w) (m.wg w).part (m.wg w).ctx ((m.block w).capTable.toNat + 16 * k) .read) (fun m x => .ok (readPa m x.pa 16)) m

/-- CAPLD is performed (spec 23 R423). -/
def doCapld (w g : Nat) (o : Out) (k : Nat) (dst : Option Reg) (lanes : Mask) (m : Mach) : Mach :=
  let va := (m.block w).capTable.toNat + 16 * k
  match readCap w k m with
  | (.error e, m1) => failOut w g o.id ⟨e, o.irec.lanes, BitVec.ofNat 64 va, groupInfo lanes va⟩ m1
  | (.ok bs, m1) =>
    match dst with
    | some d => landOut w g o.id ((lanesOf lanes).flatMap fun l => regWritesOf d.toNat 4 l (leNat bs)) m1
    | none => landOut w g o.id [] m1

/-- A group waits: at a wait point, or in a held instruction. -/
def groupWaits (y : Group) : Bool := y.held.isSome || y.run.any fun r => r.waiting

/-- The results of a command done at issue land, now or later, at the latest when its group waits (spec 05 R74, log 13). -/
def tryLand (w g : Nat) (o : Out) (ws : List LaneWrite) (m : Mach) : Mach :=
  if Config.lands m.freeCtr || groupWaits (m.grp w g) then landOut w g o.id ws m.useFree else m

/-! ## Trying -/

/-- A command is tried: it completes, faults, or stays outstanding. -/
def tryCmd (w g id : Nat) (m : Mach) : Mach :=
  match findOut m w g id with
  | none => m
  | some o =>
    if (m.wg w).status = .saved then m
    else
      match o.kind with
      | .cmd (.gnodeArm b) dst lanes => doArm w g o b dst lanes m
      | .cmd (.gnodeSig h n) dst lanes => doSig w g o h n dst lanes m
      | .cmd (.capld k) dst lanes => doCapld w g o k dst lanes m
      | .cmd (.decl k s) _ _ =>
        if declBroken m w k s || vaultTaken m w s then cmdFail w g o .publishState 0 m else landOut w g id [] (declare w k s m)
      | .cmd (.land ws) _ _ => tryLand w g o ws m
      | .cmd (.arrive n) _ _ => tryArrive w g o n m
      | .cmd (.bindPh e b) _ _ => bindPhaser w g o e (b.obj.setWidth 32) b m
      | .cmd (.phNew mode) dst lanes => doPhNew w g o mode dst lanes m
      | .cmd (.phReg h mode) dst lanes => onPhaser w g o h (fun k m => doPhReg w g o k mode dst lanes m) m
      | .cmd (.phDrop h) _ _ => onPhaser w g o h (doPhDrop w g o) m
      | .cmd (.phSig h) _ _ => onPhaser w g o h (doPhSig w g o) m
      | .cmd (.phWait h) dst lanes => onPhaser w g o h (fun k m => doPhWait w g o k dst lanes m) m
      | .cmd (.phSw h sg) dst lanes => onPhaser w g o h (fun k m => doPhSw w g o h k sg dst lanes m) m
      | _ => m

/-- The outstanding commands of this kind, in issue order. -/
def pendingCmds (m : Mach) : List CoreOut :=
  sortOuts ((allOuts m).filter fun e => e.o.fail.isNone && match e.o.kind with | .cmd _ _ _ => true | _ => false)

/-- Rounds of trying. -/
def tryRounds (es : List CoreOut) : Nat → Mach → Mach
  | 0, m => m
  | n + 1, m => tryRounds es n (es.foldl (fun acc e => tryCmd e.w e.g e.o.id acc) m)

/-- The groups that have scratchpad accesses before their passes. -/
def scratchGroups (m : Mach) : List (Nat × Nat) :=
  ((allOuts m).filter fun e => e.o.fail.isNone && scratchPending e.o.kind).map fun e => (e.w, e.g)

/-- Every outstanding command of this kind, and every scratchpad access before its passes, is tried, until none can go on: one may wait for another. -/
def settleCmds (m : Mach) : Mach :=
  let m1 := (scratchGroups m).foldl (fun acc e => scratchSettle e.1 e.2 acc) m
  let es := pendingCmds m1
  tryRounds es es.length m1

/-- A command handed on and tried (log 13). -/
def handCmd (i : Instr) (x : Iss) (c : Cmd) (dst : Option Reg) (m : Mach) : Own :=
  .done 0 (settleCmds (handOn i x (waitClass i) (.cmd c dst x.eff) false m))

/-! ## The instructions -/

/-- GNODE.arm (spec 03 R45, R46). -/
def execGnodeArm (d a : Reg) (g : Guard) (s : State) : Host.Outcome State Fault Refusal :=
  execute (.gnodeArm d a g) (guarded (noRegion fun x m =>
    let b := (m.grp x.w x.g).pair a.toNat (lowLaneD x.eff)
    if (m.wg x.w).nodeSlots = 0 ∨ b.toNat % 128 ≠ 0 then trapEff x .graphNode m else handCmd (.gnodeArm d a g) x (.gnodeArm b) (some d) m)) s

/-- GNODE.sig (spec 03 R45, R46). -/
def execGnodeSig (d a : Reg) (n : BitVec 8) (g : Guard) (s : State) : Host.Outcome State Fault Refusal :=
  execute (.gnodeSig d a n g) (guarded (noRegion fun x m =>
    let h := (m.grp x.w x.g).reg a.toNat (lowLaneD x.eff)
    if (liveNode m (m.wg x.w).part (m.wg x.w).ctx h).isNone then trapEff x .graphNode m
    else handCmd (.gnodeSig d a n g) x (.gnodeSig h n.toNat) (some d) m)) s

/-- GNODE.tile: the next pass to retire on the tile signals the node; done at issue, its count falls later (spec 03 R45, R46, log 13). -/
def execGnodeTile (a : Reg) (t : BitVec 4) (g : Guard) (s : State) : Host.Outcome State Fault Refusal :=
  execute (.gnodeTile a t g) (guarded (noRegion fun x m =>
    let h := (m.grp x.w x.g).reg a.toNat (lowLaneD x.eff)
    let tile : Tile := Store.get default (m.wg x.w).tiles t.toNat
    if (liveNode m (m.wg x.w).part (m.wg x.w).ctx h).isNone || tile.bound.isSome then trapEff x .graphNode m
    else if (m.block x.w).tiles ≤ t.toNat then trapEff x .tileIndex m
    else .done 0 (landLater (.gnodeTile a t g) x none []
      (m.modW x.w fun z => { z with tiles := Store.upd default z.tiles t.toNat fun e => { e with bound := some h.toNat } })))) s

/-- GNODE.free: the node is freed and its slot returns to the pool; done at issue, its count falls later (spec 03 R45, R46, log 13). -/
def execGnodeFree (a : Reg) (g : Guard) (s : State) : Host.Outcome State Fault Refusal :=
  execute (.gnodeFree a g) (guarded (noRegion fun x m =>
    match liveNode m (m.wg x.w).part (m.wg x.w).ctx ((m.grp x.w x.g).reg a.toNat (lowLaneD x.eff)) with
    | none => trapEff x .graphNode m
    | some k => .done 0 (landLater (.gnodeFree a g) x none [] (freeSlots (m.wg x.w).part 1 (freeNode (m.wg x.w).part k false m))))) s

/-- PHREG.new (spec 18 R339, R340). -/
def execPhregNew (d : Reg) (mode : PhMode) (g : Guard) (s : State) : Host.Outcome State Fault Refusal :=
  execute (.phregNew d mode g) (guarded (noRegion fun x m => handCmd (.phregNew d mode g) x (.phNew mode) (some d) m)) s

/-- The phaser handle in the lowest lane. -/
def handleOf (x : Iss) (a : Reg) (m : Mach) : Word := (m.grp x.w x.g).reg a.toNat (lowLaneD x.eff)

/-- PHREG (spec 18 R339, R340). -/
def execPhreg (d a : Reg) (mode : PhMode) (g : Guard) (s : State) : Host.Outcome State Fault Refusal :=
  execute (.phreg d a mode g) (guarded (noRegion fun x m => handCmd (.phreg d a mode g) x (.phReg (handleOf x a m) mode) (some d) m)) s

/-- PHDROP (spec 18 R339, R340). -/
def execPhdrop (a : Reg) (g : Guard) (s : State) : Host.Outcome State Fault Refusal :=
  execute (.phdrop a g) (guarded (noRegion fun x m => handCmd (.phdrop a g) x (.phDrop (handleOf x a m)) none m)) s

/-- PHSIG (spec 18 R339, R340). -/
def execPhsig (a : Reg) (g : Guard) (s : State) : Host.Outcome State Fault Refusal :=
  execute (.phsig a g) (guarded (noRegion fun x m => handCmd (.phsig a g) x (.phSig (handleOf x a m)) none m)) s

/-- PHWAIT (spec 18 R339, R340). -/
def execPhwait (d a : Reg) (g : Guard) (s : State) : Host.Outcome State Fault Refusal :=
  execute (.phwait d a g) (guarded (noRegion fun x m => handCmd (.phwait d a g) x (.phWait (handleOf x a m)) (some d) m)) s

/-- PHSW (spec 18 R339, R340). -/
def execPhsw (d a : Reg) (g : Guard) (s : State) : Host.Outcome State Fault Refusal :=
  execute (.phsw d a g) (guarded (noRegion fun x m => handCmd (.phsw d a g) x (.phSw (handleOf x a m) false) (some d) m)) s

/-- CAPLD (spec 23 R423, R424). -/
def execCapld (d : Reg) (k : BitVec 6) (g : Guard) (s : State) : Host.Outcome State Fault Refusal :=
  execute (.capld d k g) (guarded fun x m =>
    if (m.block x.w).capTable = 0 then trapEff x .capabilityInvalid m
    else noRegion (fun x m => handCmd (.capld d k g) x (.capld k.toNat) (some d) m) x m) s

end Sys2Proof.Machine
end

