-- ==== Sys2Proof/Machine/Messages.lean ====
section
/-! DEFINITION. QSEND and QRECV, the steps that send and receive messages, the event backlog (spec 23 R419 to R424). -/

namespace Sys2Proof.Machine

/-! ## Issue -/

/-- The traps of QSEND and QRECV at issue, in their order (spec 11 R215, 23 R424). -/
def msgTrap (off len : Nat) (x : Iss) (m : Mach) : Option Own :=
  if off % 16 ≠ 0 then some (trapEff x .misalignedAccess m)
  else if (m.block x.w).scratch < off + len then some (trapEff x .scratchBounds m)
  else if (scratchKeys m x.w off len).isNone then some (trapEff x .publishState m)
  else if (m.block x.w).capTable = 0 then some (trapEff x .capabilityInvalid m)
  else if inRegion x x.eff m then some (regionTrap x m)
  else none

/-- Bytes of a message or a buffer (spec 23 R422). -/
def msgBytes (len : BitVec 8) : Nat := 16 * (len.toNat + 1)

/-- QSEND: the message is read at issue as a scratchpad load reads, and handed to the engine (spec 23 R422). -/
def qsendOwn (i : Instr) (a : Reg) (len : BitVec 8) (pd : BitVec 3) (nb : Bool) (k : BitVec 6) (x : Iss) (m : Mach) : Own :=
  let n := msgBytes len
  if x.eff = 0 then .done (n / 32 + n % 32 / 16) m
  else
    let off := ((m.grp x.w x.g).reg a.toNat (lowLaneD x.eff)).toNat
    match msgTrap off n x m with
    | some t => t
    | none =>
      let cmd := fun bs => OutKind.qsend k.toNat off n bs nb pd.toNat x.eff false
      let cost := n / 32 + n % 32 / 16
      if scratchNow x (cmd none) m then .done cost (handOn i x (waitClass i) (cmd (some ((scratchAt m x.w off n).map (Memory.read m.scratch)))) false m)
      else .done cost (scratchPass x.w x.g m.nextCmd (handOn i x (waitClass i) (cmd none) false m))

/-- QSEND. -/
def execQsend (a : Reg) (len : BitVec 8) (pd : BitVec 3) (nb : Bool) (k : BitVec 6) (g : Guard) (s : State) : Host.Outcome State Fault Refusal :=
  execute (.qsend a len pd nb k g) (qsendOwn (.qsend a len pd nb k g) a len pd nb k) s

/-- QRECV (spec 23 R422). -/
def qrecvOwn (i : Instr) (d a : Reg) (len : BitVec 8) (pd : BitVec 3) (nb : Bool) (k : BitVec 6) (x : Iss) (m : Mach) : Own :=
  let off := ((m.grp x.w x.g).reg a.toNat (lowLaneD x.eff)).toNat
  match msgTrap off (msgBytes len) x m with
  | some t => t
  | none => .done 0 (handOn i x (waitClass i) (.qrecv k.toNat off (msgBytes len) nb pd.toNat d x.eff) false m)

/-- QRECV. -/
def execQrecv (d a : Reg) (len : BitVec 8) (pd : BitVec 3) (nb : Bool) (k : BitVec 6) (g : Guard) (s : State) : Host.Outcome State Fault Refusal :=
  execute (.qrecv d a len pd nb k g) (guarded (qrecvOwn (.qrecv d a len pd nb k g) d a len pd nb k)) s

/-! ## Capability entries -/

/-- What an entry of kind 1, 2 or 3 names (spec 23 R420): a host by index, a channel, a channel of another device. -/
inductive Target where
  | host (k : Nat)
  | channel (c : Nat)
  | remote (dev part ch : Nat)
  deriving DecidableEq, Repr, Inhabited

/-- A valid entry: target, allowance, send and receive bits (spec 23 R420). -/
structure CapEnt where
  tgt : Target
  allow : Nat
  send : Bool
  recv : Bool
  deriving DecidableEq, Repr, Inhabited

/-- The target of a first word. -/
def capTarget (v : Nat) : Option Target :=
  match fld v 60 4 with
  | 1 => if fld v 0 48 < 64 then some (.host (fld v 0 48)) else none
  | 2 => if fld v 0 48 < 256 then some (.channel (fld v 0 48)) else none
  | 3 => if fld v 40 8 < 144 then some (.remote (fld v 40 8) (fld v 8 8) (fld v 0 8)) else none
  | _ => none

/-- An entry as it stands: none where CAPABILITY_INVALID holds of its bytes (spec 23 R420, R424). -/
def capEntry (bs : List Byte) : Option CapEnt :=
  let v := leNat (bs.take 8)
  let f := leNat (bs.drop 12)
  if fld v 48 12 ≠ 0 ∨ f / 4 ≠ 0 then none
  else (capTarget v).map fun t => ⟨t, leNat ((bs.drop 8).take 4), decide (fld f 0 1 = 1), decide (fld f 1 1 = 1)⟩

/-- The fabric address entry of a partition (spec 23 R421). -/
def fabricOf (m : Mach) (p k : Nat) : Fabric := Store.get default (m.part p).fabric k

/-- The host of an entry has a valid fabric address (spec 23 R421). -/
def capReach (m : Mach) (p : Nat) : Target → Bool
  | .host k => (fabricOf m p k).valid
  | _ => true

/-- An entry that a command may use, or the fault of R424 with its address. -/
def useCap (w k : Nat) (ok : CapEnt → Bool) (m : Mach) : Except (Cause × Nat) CapEnt :=
  match (readCap w k m).1 with
  | .error e => .error (e, (m.block w).capTable.toNat + 16 * k)
  | .ok bs =>
    match capEntry bs with
    | none => .error (.capabilityInvalid, 0)
    | some e =>
      if capReach m (m.wg w).part e.tgt = false then .error (.capabilityInvalid, 0)
      else if ok e = false then .error (.capabilityPermission, 0)
      else .ok e

/-- A command on QU faults, with the address of a fault reading the table (spec 10 R193, 23 R424). -/
def capFail (w g : Nat) (o : Out) (e : Cause × Nat) (m : Mach) : Mach :=
  if e.1 = .capabilityInvalid ∨ e.1 = .capabilityPermission then cmdFail w g o e.1 0 m
  else failOut w g o.id ⟨e.1, o.irec.lanes, BitVec.ofNat 64 e.2, groupInfo o.irec.lanes e.2⟩ m

/-- The target of an entry, if it can be read. -/
def targetOf (m : Mach) (w k : Nat) : Option Target :=
  match (readCap w k m).1 with
  | .error _ => none
  | .ok bs => (capEntry bs).map (·.tgt)

/-! ## Sending -/

/-- The target has room; a host's transport takes every message; with every plane down none reaches another device (spec 23 R422, R425, log 28). -/
def targetRoom (m : Mach) (p : Nat) : Target → Bool
  | .host _ => true
  | .channel c => channelRoom m p c
  | .remote _ _ _ => linkUp m && Config.remoteRoom m.freeCtr

/-- An earlier message of the group to the same target has not been sent: messages keep their order (spec 23 R419). -/
def earlierMessage (m : Mach) (w g id : Nat) (t : Target) : Bool :=
  (m.grp w g).outs.any fun f =>
    decide (f.id < id) && f.fail.isNone && match f.kind with | .qsend k _ _ _ _ _ _ false => decide (targetOf m w k = some t) | _ => false

/-- A fault found in the capability table. -/
def capFault (w k : Nat) (e : Cause) (m : Mach) : Cause × Nat := (e, (m.block w).capTable.toNat + 16 * k + 8)

/-- The allowance falls by the length, unless it is unbounded: one atomic write of the entry (spec 10 R191, 13 R253, 23 R420, R422). -/
def spendAllowance (w k n : Nat) (allow : Nat) (m : Mach) : Except (Cause × Nat) Unit × Mach :=
  if allow = 0xFFFFFFFF then (.ok (), m)
  else
    match hwWrite (wgSite m w) (m.wg w).part (m.wg w).ctx ((m.block w).capTable.toNat + 16 * k + 8) true m with
    | (.error e, m1) => (.error (capFault w k e m), m1)
    | (.ok x, m1) => (.ok (), writePa m1 none none x.pa (leBytes 4 (allow - n)))

/-- The message goes to its target (spec 23 R419, R422). -/
def putMessage (p : Nat) (t : Target) (bs : List Byte) (m : Mach) : Mach :=
  match t with
  | .host k => toHost p (.message k bs) m
  | .channel c => channelPut p c ⟨1, 0, bs⟩ m
  | .remote d q c => toHost p (.remote d q c bs) m

/-- The predicate of a .nb form, in the lanes of the command. -/
def nbWrites (nb : Bool) (pd : Nat) (lanes : Mask) (v : Bool) : List LaneWrite := if nb then (lanesOf lanes).map fun l => .pred pd l v else []

/-- The message is sent, refused for want of room, or kept waiting (spec 23 R422). -/
def sendMessage (w g : Nat) (o : Out) (k off n : Nat) (bs : List Byte) (nb : Bool) (pd : Nat) (lanes : Mask) (mi : Mach) : Mach :=
  let p := (mi.wg w).part
  let m := (readCap w k mi).2
  match useCap w k (fun e => e.send && decide (n ≤ e.allow)) m with
  | .error e => capFail w g o e m
  | .ok e =>
    if earlierMessage m w g o.id e.tgt then m
    else if targetRoom m p e.tgt = false then (if nb then landOut w g o.id (nbWrites nb pd lanes false) m.useFree else m.useFree)
    else
      match spendAllowance w k n e.allow (flushAll (m.wg w).core m.useFree) with
      | (.error f, m1) => capFail w g o f m1
      | (.ok _, m1) =>
        let m2 := putMessage p e.tgt bs m1
        match e.tgt with
        | .host _ => setOut w g o.id (.qsend k off n (some bs) nb pd lanes true) m2
        | _ => landOut w g o.id (nbWrites nb pd lanes true) m2

/-- QSEND_ENQUEUE (spec 23 R422): after the group's earlier writes; a message that is still to be read waits for that. -/
def qsendEnqueue (w g id : Nat) (m : Mach) : Mach :=
  match findOut m w g id with
  | some o =>
    match o.kind with
    | .qsend k off n (some bs) nb pd lanes false => if groupBusy m w g id then m else sendMessage w g o k off n bs nb pd lanes m
    | _ => m
  | none => m

/-- QSEND_ENQUEUE. -/
def execQsendEnqueue (w g id : Nat) (s : State) : Host.Outcome State Fault Refusal := eventStep (qsendEnqueue w g id) s

/-- QSEND_HOST_ACK: the host's transport has acknowledged the message (spec 23 R422). -/
def qsendHostAck (w g id : Nat) (m : Mach) : Mach :=
  match findOut m w g id with
  | some o =>
    match o.kind with
    | .qsend _ _ _ _ nb pd lanes true => landOut w g id (nbWrites nb pd lanes true) m
    | _ => m
  | none => m

/-- QSEND_HOST_ACK. -/
def execQsendHostAck (w g id : Nat) (s : State) : Host.Outcome State Fault Refusal := eventStep (qsendHostAck w g id) s

/-! ## Receiving -/

/-- The header of a message (spec 23 R422). -/
def msgHeader (x : Msg) : Word := BitVec.ofNat 32 (x.bytes.length + 2 ^ 16 * x.src + 2 ^ 20 * (x.dev % 256))

/-- A message leaves its channel. -/
def channelTake (p c : Nat) (m : Mach) : Mach :=
  m.modP p fun q => { q with channels := Store.upd default q.channels c fun h => { h with msgs := h.msgs.drop 1 } }

/-- The first message of a channel is received, or there is none (spec 23 R422). -/
def takeMessage (w g : Nat) (o : Out) (c off cap : Nat) (nb : Bool) (pd : Nat) (dst : Reg) (lanes : Mask) (m : Mach) : Mach :=
  let p := (m.wg w).part
  match (channelOf m p c).msgs with
  | [] => if nb then landOut w g o.id (nbWrites nb pd lanes false) m else m
  | x :: _ =>
    if cap < x.bytes.length then cmdFail w g o .capabilityPermission 0 m
    else if (scratchKeys m w off x.bytes.length).isNone then cmdFail w g o .publishState 0 m
    else
      landOut w g o.id ((lanesOf lanes).map (fun l => .reg dst.toNat l (msgHeader x)) ++ nbWrites nb pd lanes true)
        (dropCache (m.wg w).core (scratchWrite w off x.bytes (channelTake p c m)))

/-- An earlier QRECV of the group is pending on the same entry: they are served in order. -/
def earlierReceive (m : Mach) (w g id k : Nat) : Bool :=
  (m.grp w g).outs.any fun f => decide (f.id < id) && f.fail.isNone && match f.kind with | .qrecv j _ _ _ _ _ _ => decide (j = k) | _ => false

/-- An entry by which messages may be received: R set, a channel (spec 23 R420, R424). -/
def mayReceive (e : CapEnt) : Bool := e.recv && match e.tgt with | .channel _ => true | _ => false

/-- QRECV_RECEIVE (spec 23 R422, R424); no write starts in a saved or halted workgroup's scratchpad (21 R394). -/
def qrecvReceive (w g id : Nat) (m : Mach) : Mach :=
  match findOut m w g id with
  | some o =>
    match o.kind with
    | .qrecv k off cap nb pd dst lanes =>
      if frozen (m.wg w) || earlierReceive m w g id k then m
      else
        let m := (readCap w k m).2
        match useCap w k mayReceive m with
        | .error e => capFail w g o e m
        | .ok e =>
          match e.tgt with
          | .channel c => takeMessage w g o c off cap nb pd dst lanes m
          | _ => m
    | _ => m
  | none => m

/-- QRECV_RECEIVE. -/
def execQrecvReceive (w g id : Nat) (s : State) : Host.Outcome State Fault Refusal := eventStep (qrecvReceive w g id) s

/-- EVENT_BACKLOG_DRAIN: the oldest record that waits enters channel 0 when it has room (spec 23 R419). -/
def backlogDrain (p : Nat) (m : Mach) : Mach :=
  match (m.part p).backlog with
  | [] => m
  | r :: rs => if channelRoom m p 0 then channelPut p 0 ⟨3, 0, r⟩ (m.modP p fun q => { q with backlog := rs }) else m

/-- EVENT_BACKLOG_DRAIN. -/
def execEventBacklogDrain (part : Nat) (s : State) : Host.Outcome State Fault Refusal := eventStep (backlogDrain part) s

end Sys2Proof.Machine
end

