-- ==== Sys2Proof/Machine/Landing.lean ====
section
/-! DEFINITION. The steps in which accesses are performed, with the commands that have waited for them (spec 10 R193 to R196, 18 R331, R346, log 13); results of
special functions; page walks; the grant of extended registers and its deadlock; the end of REORDER (spec 04 R56, R60, 07 R133, R134, 09 R158, R165, 10 R185). -/

namespace Sys2Proof.Machine

/-- LOAD_LANDING. -/
def execLoadLanding (w g id : Nat) (s : State) : Host.Outcome State Fault Refusal := eventStep (fun m => settleCmds (loadLanding w g id m)) s

/-- STORE_ACCEPTED. -/
def execStoreAccepted (w g id : Nat) (s : State) : Host.Outcome State Fault Refusal := eventStep (fun m => settleCmds (storeAccepted w g id m)) s

/-- GCOMMIT_GRANT. -/
def execGcommitGrant (w g lane : Nat) (s : State) : Host.Outcome State Fault Refusal := eventStep (fun m => settleCmds (gcommitGrant w g lane m)) s

/-- FENCE_COMPLETE. -/
def execFenceComplete (w g id : Nat) (s : State) : Host.Outcome State Fault Refusal := eventStep (fun m => settleCmds (fenceComplete w g id m)) s

/-- WAITW_RETURN. -/
def execWaitwReturn (w g id : Nat) (s : State) : Host.Outcome State Fault Refusal := eventStep (fun m => settleCmds (waitwReturn w g id m)) s

/-- MEMORY_READ_RETRY. -/
def execMemoryReadRetry (loc : Loc) (pass : Bool) (s : State) : Host.Outcome State Fault Refusal :=
  eventStep (fun m => settleCmds (memoryReadRetry loc pass m)) s

/-- SFU_RESULT_LANDING: results and flags land, or the FP_EXCEPTION of the command is held and nothing is written (spec 09 R158, R165). -/
def sfuLanding (w g id : Nat) (m : Mach) : Mach :=
  match findOut m w g id with
  | some o =>
    match o.kind with
    | .sfu ws exc conds => if exc = 0 then landOut w g id ws m else failOut w g id ⟨.fpException, exc, 0, BitVec.ofNat 64 (exc.toNat + 2 ^ 32 * conds)⟩ m
    | _ => m
  | none => m

/-- SFU_RESULT_LANDING. -/
def execSfuResultLanding (w g id : Nat) (s : State) : Host.Outcome State Fault Refusal := eventStep (sfuLanding w g id) s

/-! ## Page walks -/

/-- The cores whose groups have an access of the page, or a clause in it to fetch, that misses their TLBs (spec 10 R185). -/
def pageAskers (m : Mach) (p c va : Nat) : List Nat :=
  let here := fun a => decide (a / 65536 = va / 65536)
  ((m.wgIds.filter fun w =>
      decide ((m.wg w).part = p) && decide ((m.wg w).ctx = c) && decide ((m.wg w).status ≠ .saved) && (tlbFind m (wgSite m w) p c va).isNone &&
        (m.wg w).groupIds.any fun g =>
          ((m.grp w g).outs.any fun o => o.fail.isNone && decide (kindSpace o.kind = .global) && (kindLanes o).any fun a => here a.addr) ||
            ((m.grp w g).run.any fun r => !r.fetched && here r.hdrAddr.toNat)).map fun w => (m.wg w).core).eraseDups

/-- The dies whose walkers are asked for a page: those of the cores that ask; where none does, an engine or the admission unit asks, on a die of the partition
(log 16). -/
def pageDies (m : Mach) (p : Nat) (cores : List Nat) : List Nat :=
  (if cores = [] then (m.part p).clusters.map (· / 64) else cores.map dieOfCore).eraseDups

/-- A request for a page on a die: it joins the walk of that page, or takes or waits for a walker (spec 10 R185). -/
def askWalk (p c va : Nat) (cores : List Nat) (d : Nat) (m : Mach) : Mach :=
  let mine := cores.filter fun k => decide (dieOfCore k = d)
  if (walksOn m d).any fun k => k.isFor p c va then
    { m with walks := m.walks.map fun k => if k.die = d ∧ k.isFor p c va = true then { k with cores := (k.cores ++ mine).eraseDups } else k }
  else { m with walks := m.walks ++ [⟨d, mine, p, c, va⟩] }

/-- PAGE_WALK_START: an address that misses the TLBs takes one of its die's 96 walkers, or waits for one (spec 00 R1, 10 R185). -/
def pageWalkStart (p c va : Nat) (m : Mach) : Mach :=
  let cores := pageAskers m p c va
  if decide (2 ^ 52 ≤ va) || !(m.part p).made then m
  else ((pageDies m p cores).filter fun d => !(cores.isEmpty && (tlbFind m (.die d) p c va).isSome)).foldl (fun acc d => askWalk p c va cores d acc) m

/-- PAGE_WALK_START. -/
def execPageWalkStart (part ctx va : Nat) (s : State) : Host.Outcome State Fault Refusal := eventStep (pageWalkStart part ctx va) s

/-- PAGE_WALK_COMPLETE: a walk that has a walker ends; a translation fills the TLBs of those that asked, a fault is not cached (spec 10 R184, R185).  The access
that asked reads the TLBs, or walks again, when it is performed.  A walk that has met an entry which failed its check waits for the second read (R190). -/
def pageWalkComplete (k : Nat) (m : Mach) : Mach :=
  match m.walks[k]? with
  | none => m
  | some x =>
    if 96 ≤ ((m.walks.take k).filter fun y => decide (y.die = x.die)).length ∨ walkFailing m x.va 3 (m.ctx x.part x.ctx).desc.root.toNat = true then m
    else
      let m1 := { m with walks := m.walks.eraseIdx k }
      match walk m x.part x.ctx x.va with
      | .ok t => if x.cores = [] then tlbFill (.die x.die) x.part x.ctx x.va t m1 else x.cores.foldl (fun acc c => tlbFill (.core c) x.part x.ctx x.va t acc) m1
      | .error _ => m1

/-- PAGE_WALK_COMPLETE. -/
def execPageWalkComplete (k : Nat) (s : State) : Host.Outcome State Fault Refusal := eventStep (pageWalkComplete k) s

/-! ## Extended blocks -/

/-- XACQ_GRANT (spec 04 R56). -/
def execXacqGrant (w : Nat) (s : State) : Host.Outcome State Fault Refusal :=
  eventStep (fun m => if (m.wg w).status = .running then grantExt w m else m) s

/-- A group's only outstanding command on QU is its XACQ request (spec 04 R60). -/
def waitsForExt (y : Group) : Option Out :=
  match y.outs.filter fun o => decide (o.cls = 7) with
  | [o] => if isXacq o then some o else none
  | _ => none

/-- The group stands at a clause WAIT whose QU bit is set (spec 04 R60). -/
def standsAtQu (y : Group) : Option Run :=
  match y.run with
  | some r => if r.waiting && (bits r.hdr 8 8).getLsbD 7 then some r else none
  | none => none

/-- A group that holds an extended block waits at a barrier: the barrier and the phase. -/
def holderWait (y : Group) : Option (Nat × Nat) :=
  match y.held with
  | some (.barrier n ph) => some (n, ph)
  | _ => none

/-- Copies that may still arrive on a barrier of a workgroup (spec 04 R60, 11 R208). -/
def copiesToArrive (m : Mach) (w n : Nat) : Nat :=
  (m.copies.filter fun e =>
    decide (e.2.bar = some n) && e.2.refused.isNone &&
      (if e.2.multi.isSome then e.2.recvs.any fun r => decide (r.wg = w) && !r.stopped else decide (e.2.wg = w))).length

/-- A group may still arrive in the current phase of a barrier: an arrival of its own is pending, or it has not arrived and does not stand waiting for that very
phase (spec 04 R60, 11 R211). -/
def mayArrive (m : Mach) (w j n : Nat) : Bool :=
  let y := m.grp w j
  decide (y.live ≠ 0) && decide (Store.get 0 y.arrived n ≠ (m.bar w n).phase + 1) &&
    (arrivePending y n || !((holderWait y).any fun e => decide (e.1 = n) && decide ((m.bar w n).phase ≤ e.2)))

/-- The phase of a barrier cannot complete without an arrival from group `g` (spec 04 R60, 11 R211). -/
def needsArrival (m : Mach) (w g n : Nat) : Bool :=
  let b := m.bar w n
  let others := ((m.wg w).groupIds.filter fun j => decide (j ≠ g) && mayArrive m w j n).length
  decide (b.arrivals + copiesToArrive m w n + others < b.count)

/-- The groups of a workgroup that hold an extended block. -/
def extHolders (m : Mach) (w : Nat) : List Nat := (m.wg w).groupIds.filter fun j => (m.grp w j).extHeld

/-- The barrier of an extended-block deadlock of group `g` (spec 04 R60): every block is held by a group that waits in a phase that cannot complete without
`g`; the barrier of the lowest such group. -/
def deadlockAt (m : Mach) (w g : Nat) : Option Nat :=
  let hs := extHolders m w
  if hs.length = (m.block w).xmax ∧
      (hs.all fun j => match holderWait (m.grp w j) with | some (n, _) => needsArrival m w g n | none => false) = true then
    hs.head?.bind fun j => (holderWait (m.grp w j)).map (·.1)
  else none

/-- XREG_DEADLOCK_DETECT: the group takes XREG_DEADLOCK at its WAIT, in trap mode a double fault; the request stays pending (spec 04 R60, 20 R371, R373, log 29). -/
def deadlockDetect (w g : Nat) (m : Mach) : Mach :=
  let y := m.grp w g
  match waitsForExt y, standsAtQu y, deadlockAt m w g with
  | some o, some r, some n =>
    if wgActive (m.wg w) then
      enterTrap w g ⟨o.irec, ⟨.xregDeadlock, o.irec.lanes, 0, BitVec.ofNat 64 (n % 16 + 2 ^ 16 * ((extHolders m w).foldl (fun a j => a + 2 ^ j) 0))⟩, 0xFF,
        r.hdrAddr, r.lanes &&& y.live, .wait, none⟩ m
    else m
  | _, _, _ => m

/-- XREG_DEADLOCK_DETECT. -/
def execXregDeadlockDetect (w g : Nat) (s : State) : Host.Outcome State Fault Refusal := eventStep (deadlockDetect w g) s

/-! ## REORDER -/

/-- A thread that REORDER moves: its key, the group and lane it comes from. -/
structure Mover where
  key : Nat
  grp : Nat
  lane : Nat
  deriving DecidableEq, Repr, Inhabited

/-- The REORDER a group stands in. -/
def reorderOf (y : Group) : Option ReorderReq :=
  match y.held with
  | some .reorder => y.reorder
  | _ => none

/-- The live threads of a workgroup by old position, with their keys (spec 07 R133). -/
def movers (m : Mach) (w : Nat) (gs : List Nat) : List Mover :=
  gs.flatMap fun g => ((reorderOf (m.grp w g)).map fun q => (lanesOf (m.grp w g).live).map fun l => (⟨Store.get 0 q.keys l, g, l⟩ : Mover)).getD []

/-- A position's registers and %tid after the move: those of the thread it receives (spec 07 R133); v32 to v63 have no place in a group that holds no extended
block, as one that had no live thread may not: they are dropped (04 R53, log 102). -/
def receive (m : Mach) (w : Nat) (k : DWord) (e : Mover) (l : Nat) (y : Group) : Group :=
  let from_ := (m.grp w e.grp).landEvery
  (markedRegs k).foldl (fun acc r => if r < 32 ∨ y.extHeld = true then acc.setReg r l (from_.reg r e.lane) else acc)
    { y with tid := Store.put y.tid l (Store.get 0 from_.tid e.lane) }

/-- A group after the permutation: it receives the threads of its positions, the others are absent (spec 07 R133); a retry record stays with the position
(18 R343, log 103). -/
def reordered (m : Mach) (w : Nat) (k : DWord) (ms : List Mover) (g : Nat) : Group :=
  let mine := (ms.drop (32 * g)).take 32
  let y := (m.grp w g).landEvery
  let y1 := (List.range mine.length).foldl (fun acc l => receive m w k (mine.getD l default) l acc) y
  { y1 with laneNo := [], groupNo := [], live := maskOf (List.range mine.length), run := none, held := none, reorder := none, frontier := [], gaveUp := m.cycle }

/-- The address past the clause of a group's REORDER; that of the lowest group for a group that had no thread (log 30). -/
def pastReorder (m : Mach) (w g : Nat) (dflt : DWord) : DWord :=
  match (m.grp w g).reorder with
  | some q => q.pc + 4
  | none => dflt

/-- The words of a REORDER that is to trap at completion (spec 07 R134, 20 R371). -/
def reorderTrap (w g : Nat) (m : Mach) : Mach :=
  match nextOf m w g with
  | some x => enterTrap w g ⟨x.rec_, ⟨.convergenceSet, x.eff, 0, freeInfo m⟩, 0xFF, x.pc, (m.grp w g).live, .run, none⟩ (m.modG w g fun y => { y with reorder := none })
  | none => m
where
  /-- The issue of the instruction the group stands in. -/
  nextOf (m : Mach) (w g : Nat) : Option Iss :=
    match (m.grp w g).run with
    | some r => match decodeWord (r.rest.headD 0) 0 with | .ok i => some (mkIss i w g m) | .error _ => none
    | none => none

/-- An access of a group is still to be performed; what cannot complete before a TRAPRET is not waited for (spec 07 R133, 16 R298, log 104). -/
def accessesLeft (m : Mach) (w g : Nat) : Bool :=
  (m.grp w g).outs.any fun o => (accessK o.kind || isFenceK o.kind) && !(isWaiting o.kind) && !(behindFault m w g o)

/-- REORDER_COMPLETE: when every group with a live thread has arrived the threads move, or CONVERGENCE_SET is taken in every group (spec 07 R133, R134). -/
def reorderComplete (w : Nat) (m : Mach) : Mach :=
  let gs := (m.wg w).groupIds.filter fun g => decide ((m.grp w g).live ≠ 0)
  match gs, gs.all fun g => (reorderOf (m.grp w g)).isSome && !(accessesLeft m w g), wgActive (m.wg w) with
  | g0 :: _, true, true =>
    let key := fun g => (reorderOf (m.grp w g)).map fun q => (q.wide, q.mask)
    if gs.any fun g => decide (key g ≠ key g0) then gs.foldl (fun acc g => reorderTrap w g acc) m
    else
      let k := ((reorderOf (m.grp w g0)).map (·.mask)).getD 0
      let ms := sortBy (fun a b => decide (a.key ≤ b.key)) (movers m w gs)
      (m.wg w).groupIds.foldl (fun acc g => standAt w g (pastReorder m w g (pastReorder m w g0 0)) (reordered m w k ms g).live
        (acc.modG w g fun _ => reordered m w k ms g)) m
  | _, _, _ => m

/-- REORDER_COMPLETE. -/
def execReorderComplete (w : Nat) (s : State) : Host.Outcome State Fault Refusal := eventStep (reorderComplete w) s

end Sys2Proof.Machine
end

