-- ==== Sys2Proof/Machine/Passes.lean ====
section
/-! DEFINITION. What a pass computes: operand elements, exact sums with one rounding, the order of sums, the tile it leaves (spec 12 R220, R221, R234, R235). -/

namespace Sys2Proof.Machine

/-! ## The format word -/

/-- The binary8 form of A, of B (spec 08 R149). -/
def formA (f : Word) : Form8 := ⟨(bits f 20 3).toNat, decide (bits f 26 1 = 1), decide (bits f 27 1 = 1)⟩

/-- The form of B. -/
def formB (f : Word) : Form8 := ⟨(bits f 23 3).toNat, decide (bits f 28 1 = 1), decide (bits f 29 1 = 1)⟩

/-- The operand codes (spec 08 R150). -/
def codeA (f : Word) : Nat := (bits f 0 4).toNat

/-- The code of B. -/
def codeB (f : Word) : Nat := (bits f 4 4).toNat

/-- A code of the 16-bit width class (spec 08 R150). -/
def wideCode (c : Nat) : Bool := decide (3 ≤ c)

/-- One operand's fields break R151. -/
def badOperand (c : Nat) (f : Form8) : Bool :=
  decide (4 < c) || (decide (c = 0) && decide (f.p = 0)) || (decide (c ≠ 0) && (decide (f.p ≠ 0) || f.uns || f.inf))

/-- FORMAT_INVALID (spec 08 R151). -/
def formatInvalid (f : Word) : Bool :=
  decide (bits f 30 2 ≠ 0) || decide (bits f 17 3 ≠ 0) || badOperand (codeA f) (formA f) || badOperand (codeB f) (formB f) ||
    decide (wideCode (codeA f) ≠ wideCode (codeB f)) || decide (2 ≤ (bits f 12 4).toNat) || decide (2 ≤ (bits f 8 4).toNat) ||
    (decide (bits f 12 4 = 1) && decide (bits f 8 4 = 1))

/-- Both operands are integers: the tile holds INT32 (spec 08 R150). -/
def intPass (f : Word) : Bool := (decide (codeA f = 1) || decide (codeA f = 2)) && (decide (codeB f = 1) || decide (codeB f = 2))

/-! ## Elements -/

/-- Element (r, k) of an operand (spec 12 R221). -/
def operandBits (mem : Memory) (code r k : Nat) : Nat :=
  if wideCode code then leNat (Memory.readN mem (8192 * (k / 64) + 128 * r + 2 * (k % 64)) 2) else (Memory.read mem (128 * r + k)).toNat

/-- An integer code's value. -/
def intOf (code v : Nat) : Int := if code = 1 then (BitVec.ofNat 8 v).toInt else (v : Int)

/-- The exact value of an operand element (spec 08 R150). -/
def operandVal (code : Nat) (f : Form8) (v : Nat) : FVal :=
  match code with
  | 0 => f.decode v
  | 3 => bf16.decode v
  | 4 => fp16.decode v
  | c => .fin (decide (intOf c v < 0)) (intOf c v).natAbs 0

/-! ## Sums -/

/-- A value with a note: it is a NaN made from operands that held none (spec 12 R238). -/
structure Term where
  val : FVal
  made : Bool
  deriving DecidableEq, Repr, Inhabited

/-- The exact product (spec 12 R234, R235). -/
def product (a b : FVal) : Term :=
  match a, b with
  | .nan _, _ => ⟨.nan 1, false⟩
  | _, .nan _ => ⟨.nan 1, false⟩
  | .inf n1, .inf n2 => ⟨.inf (n1 != n2), false⟩
  | .inf n1, .fin n2 k _ => if k = 0 then ⟨.nan 1, true⟩ else ⟨.inf (n1 != n2), false⟩
  | .fin n1 k _, .inf n2 => if k = 0 then ⟨.nan 1, true⟩ else ⟨.inf (n1 != n2), false⟩
  | .fin n1 m1 e1, .fin n2 m2 e2 => ⟨.fin (n1 != n2) (m1 * m2) (e1 + e2), false⟩

/-- The exact sum of two values; a zero is +0 unless both are −0 (spec 12 R234, R235). -/
def plus (a b : Term) : Term :=
  let made := a.made || b.made
  match a.val, b.val with
  | .nan _, _ => ⟨.nan 1, made⟩
  | _, .nan _ => ⟨.nan 1, made⟩
  | .inf n1, .inf n2 => if n1 = n2 then ⟨.inf n1, made⟩ else ⟨.nan 1, true⟩
  | .inf n, _ => ⟨.inf n, made⟩
  | _, .inf n => ⟨.inf n, made⟩
  | .fin n1 m1 e1, .fin n2 m2 e2 =>
    let e := min e1 e2
    let s : Int := (if n1 then -1 else 1) * (m1 * 2 ^ (e1 - e).toNat : Nat) + (if n2 then -1 else 1) * (m2 * 2 ^ (e2 - e).toNat : Nat)
    if s = 0 then ⟨.fin (n1 && n2) 0 e, made⟩ else ⟨.fin (decide (s < 0)) s.natAbs e, made⟩

/-- A rounded FP32 value with the tile status bits it gives: overflow seen, invalid seen. -/
structure Acc where
  val : Nat
  ovf : Bool
  inv : Bool
  deriving DecidableEq, Repr, Inhabited

/-- rne32 (spec 12 R234, R235). -/
def rne32 (sat : Bool) (t : Term) : Acc :=
  match t.val with
  | .nan _ => ⟨fp32.qnan, false, t.made⟩
  | .inf n => ⟨fp32.sign n + fp32.infBits, false, t.made⟩
  | .fin n m e =>
    let r := fp32.roundFin .rne n m e
    let o := decide (r.flags &&& flOverflow ≠ 0)
    ⟨if o && sat then fp32.sign n + (fp32.infBits - 1) else r.val, o, t.made⟩

/-- An FP32 pattern as a term. -/
def termOf (v : Nat) : Term := ⟨fp32.decode v, false⟩

/-- The rounded sum of two patterns, with the bits seen before. -/
def addAcc (sat : Bool) (a b : Acc) : Acc :=
  let r := rne32 sat (plus (termOf a.val) (termOf b.val))
  ⟨r.val, a.ovf || b.ovf || r.ovf, a.inv || b.inv || r.inv⟩

/-- The exact sum of terms. -/
def sumTerms : List Term → Term
  | [] => ⟨.fin false 0 0, false⟩
  | t :: ts => ts.foldl plus t

/-- The rounded sums of the groups of `q` products, in ascending k (spec 12 R234). -/
def groupSums (sat : Bool) (q : Nat) (p : Nat → Term) (groups : Nat) : List Acc :=
  (List.range groups).map fun g => rne32 sat (sumTerms ((List.range q).map fun j => p (q * g + j)))

/-- The sum of the groups, in order. -/
def chain (sat : Bool) : List Acc → Acc
  | [] => ⟨0, false, false⟩
  | s :: ss => ss.foldl (addAcc sat) s

/-- One element of an FP32 pass (spec 12 R234). -/
def elemFp (f : Word) (a b : Nat → Nat) (old : Nat) : Acc :=
  let sat := decide (bits f 16 1 = 1)
  let p := fun k => product (operandVal (codeA f) (formA f) (a k)) (operandVal (codeB f) (formB f) (b k))
  let acc := chain sat (if wideCode (codeA f) then groupSums sat 2 p 64 else groupSums sat 4 p 32)
  if bits f 12 4 = 1 then addAcc sat ⟨old, false, false⟩ acc else acc

/-- A sum clamped to INT32, or wrapped (spec 12 R235). -/
def int32 (sat : Bool) (v : Int) : Nat :=
  (BitVec.ofInt 32 (if sat && decide (v < -(2 ^ 31)) then -(2 ^ 31) else if sat && decide (2 ^ 31 - 1 < v) then 2 ^ 31 - 1 else v)).toNat

/-- One element of an INT32 pass (spec 12 R235). -/
def elemInt (f : Word) (a b : Nat → Nat) (old : Nat) : Acc :=
  let s := (List.range 128).foldl (fun (acc : Int) k => acc + intOf (codeA f) (a k) * intOf (codeB f) (b k)) 0
  ⟨if bits f 12 4 = 1 then int32 (decide (bits f 16 1 = 1)) ((BitVec.ofNat 32 old).toInt + s) else (BitVec.ofInt 32 s).toNat, false, false⟩

/-- Element (r, c) of a pass on a tile. -/
def passElem (f : Word) (opA opB : Memory) (old : Store Word) (i : Nat) : Acc :=
  let a := fun k => operandBits opA (codeA f) (i / 64) k
  let b := fun k => operandBits opB (codeB f) (i % 64) k
  let v := (Store.get 0 old i).toNat
  if intPass f then elemInt f a b v else elemFp f a b v

/-- The tile after a pass on it has retired (spec 12 R234 to R238). -/
def passTile (f : Word) (opA opB : Memory) (t : Tile) : Tile :=
  let es := (List.range 4096).map (passElem f opA opB t.elems)
  { t with
    elems := (es.zipIdx).foldl (fun acc e => Store.set 0 acc e.2 (BitVec.ofNat 32 e.1.val)) []
    inUse := true
    dirty := true
    int := intPass f
    retired := (t.retired + 1) % 65536
    overflow := t.overflow || es.any (·.ovf)
    invalid := t.invalid || es.any (·.inv)
    bound := none }

end Sys2Proof.Machine
end

