-- ==== Sys2Proof/Machine/Matrix.lean ====
section
/-! DEFINITION. The matrix engine: operand slots, loads and conversions into them, signatures, the reservation table, tiles and tokens, drains (spec 12 R220 to R247). -/

namespace Sys2Proof.Machine

/-! ## Operand slots -/

/-- A slot of a workgroup. -/
def Mach.oslot (m : Mach) (w n : Nat) : OSlot := Store.get default (m.wg w).oslots n

/-- A slot changed. -/
def Mach.modSlot (m : Mach) (w n : Nat) (f : OSlot → OSlot) : Mach := m.modW w fun z => { z with oslots := Store.upd default z.oslots n f }

/-- A tile of a workgroup. -/
def Mach.tile (m : Mach) (w t : Nat) : Tile := Store.get default (m.wg w).tiles t

/-- A tile changed. -/
def Mach.modTile (m : Mach) (w t : Nat) (f : Tile → Tile) : Mach := m.modW w fun z => { z with tiles := Store.upd default z.tiles t f }

/-- OCLAIM (spec 12 R223). -/
def execOclaim (n : BitVec 5) (g : Guard) (s : State) : Host.Outcome State Fault Refusal :=
  execute (.oclaim n g) (guarded fun x m =>
    if (m.block x.w).slots ≤ n.toNat then trapEff x .operandMap m
    else if inRegion x x.eff m then regionTrap x m
    else .done 0 (m.modSlot x.w n.toNat fun o => if o.claimed then o else { o with claimed := true, claimId := m.nextCmd })) s

/-- ORELEASE: passes read the contents of this moment (spec 12 R222, R223). -/
def execOrelease (n : BitVec 5) (g : Guard) (s : State) : Host.Outcome State Fault Refusal :=
  execute (.orelease n g) (guarded fun x m =>
    if (m.block x.w).slots ≤ n.toNat then trapEff x .operandMap m
    else if (m.oslot x.w n.toNat).claimed = false then trapEff x .slotNotClaimed m
    else if inRegion x x.eff m then regionTrap x m
    else .done 0 (m.modSlot x.w n.toNat fun o => { o with claimed := false, rel := o.bytes, relId := m.nextCmd })) s

/-! ## OLOAD and MCONV -/

/-- The trap of ranges that leave their space, rows of `len` bytes (spec 12 R228, R244). -/
def rowsTrap (m : Mach) (w : Nat) (sp : Space) (base stride len : Nat) : Option Cause :=
  match sp with
  | .scr => if (m.block w).scratch < base + 63 * stride + len then some .scratchBounds else none
  | _ => (List.range 64).findSome? fun r => rangeTrap m (m.wg w).part sp (base + r * stride) len

/-- The precise traps of OLOAD and MCONV, in their order (spec 12 R228). -/
def fillTrap (m : Mach) (x : Iss) (slot : Nat) (fmtBad : Bool) (sp : Space) (src stride align len : Nat) : Option Cause :=
  if fmtBad then some .formatInvalid
  else if (m.block x.w).slots ≤ slot then some .operandMap
  else if (m.oslot x.w slot).claimed = false then some .slotNotClaimed
  else if src % align ≠ 0 ∨ stride % align ≠ 0 then some .misalignedAccess
  else rowsTrap m x.w sp src stride len

/-- A fill of a slot at issue; it belongs to the slot's last OCLAIM (spec 12 R223). -/
def fillOwn (i : Instr) (slot : Nat) (fmtBad : Bool) (sp : Space) (a b : Reg) (align len : Nat) (kind : Nat → Nat → Nat → OutKind) (x : Iss) (m : Mach) : Own :=
  let cost := if sp = .scr then 0 else 256
  if x.eff = 0 then .done cost m
  else
    let y := m.grp x.w x.g
    let src := copyAddr y a sp (lowLaneD x.eff)
    let stride := (y.reg b.toNat (lowLaneD x.eff)).toNat
    match fillTrap m x slot fmtBad sp src stride align len with
    | some c => trapEff x c m
    | none => if inRegion x x.eff m then regionTrap x m else .done cost (handOn i x (waitClass i) (kind src stride (m.oslot x.w slot).claimId) false m)

/-- OLOAD (spec 12 R224, R225, R228). -/
def execOload (n : BitVec 6) (a b : Reg) (sp : Space) (g : Guard) (s : State) : Host.Outcome State Fault Refusal :=
  execute (.oload n a b sp g) (fillOwn (.oload n a b sp g) n.toNat false sp a b 32 128 (.oload n.toNat sp)) s

/-- The slot an MCONV writes (spec 12 R226, R227). -/
def convSlot (n : Nat) (half : Bool) : Nat := n + half.toNat

/-- A code with its fields that MCONV refuses (spec 12 R228). -/
def convInvalid (inf uns : Bool) (prec code : Nat) : Bool := badOperand code ⟨prec, uns, inf⟩

/-- Bytes of a row that MCONV reads: 128 words, or 64 for a 16-bit code (spec 12 R227). -/
def convRow (code : Nat) : Nat := if wideCode code then 256 else 512

/-- MCONV (spec 12 R226 to R228). -/
def execMconv (n : BitVec 6) (a b : Reg) (half sat inf uns : Bool) (prec : BitVec 3) (code : BitVec 4) (g : Guard) (s : State) :
    Host.Outcome State Fault Refusal :=
  execute (.mconv n a b half sat inf uns prec code g)
    (fillOwn (.mconv n a b half sat inf uns prec code g) (convSlot n.toNat half) (convInvalid inf uns prec.toNat code.toNat) .scr a b 4
      (convRow code.toNat) (.mconv n.toNat half sat inf uns prec.toNat code.toNat)) s

/-- The slot a pending fill writes. -/
def fillSlot : OutKind → Option Nat
  | .oload n _ _ _ _ => some n
  | .mconv n half _ _ _ _ _ _ _ _ => some (convSlot n half)
  | _ => none

/-- Pending fills of a workgroup into a slot, by command number. -/
def fillsOf (m : Mach) (w n : Nat) : List Nat :=
  (m.wg w).groupIds.flatMap fun g => ((m.grp w g).outs.filter fun o => decide (fillSlot o.kind = some n)).map (·.id)

/-- A cluster of the device. -/
def Mach.cluster (m : Mach) (c : Nat) : Cluster := Store.get default m.clusters c

/-- A cluster changed. -/
def Mach.modCluster (m : Mach) (c : Nat) (f : Cluster → Cluster) : Mach := { m with clusters := Store.upd default m.clusters c f }

/-- The slots an operand of a pass occupies (spec 12 R221). -/
def operandSlots (n code : Nat) : List Nat := if wideCode code then [n, n + 1] else [n]

/-- The slots a pass reads. -/
def Pass.slots (p : Pass) : List Nat := operandSlots p.a (codeA p.fmt) ++ operandSlots p.b (codeB p.fmt)

/-- Submitted passes of a cluster that are not past their last k-step: those that have not started, and the one started last (spec 12 R220, R245). -/
def openPasses (m : Mach) (c : Nat) : List Pass := (m.cluster c).table ++ (m.cluster c).inEngine.drop ((m.cluster c).inEngine.length - 1)

/-- The cluster of a workgroup. -/
def clusterOf (m : Mach) (w : Nat) : Nat := clusterOfCore (m.wg w).core

/-- Passes of a workgroup that read a slot, submitted and not past their last k-step (spec 12 R223, R245). -/
def readersOf (m : Mach) (w n : Nat) : List Pass :=
  (openPasses m (clusterOf m w) ++ (m.wg w).savedPasses).filter fun p => decide (p.wg = w) && p.slots.contains n

/-- A fill may write: the group's earlier accesses are done, earlier fills of the slot have landed, and no pass submitted before the OCLAIM of its claim still reads
the slot (spec 12 R223, R225). -/
def mayFill (m : Mach) (w g : Nat) (o : Out) (n claim : Nat) : Bool :=
  !(groupBusy m w g o.id) && !((fillsOf m w n).any fun j => decide (j < o.id)) && !((readersOf m w n).any fun p => decide (p.id < claim)) &&
    decide ((m.wg w).status ≠ .saved)

/-- Where the matrix engine of a workgroup's cluster stands. -/
def engineSite (m : Mach) (w : Nat) : Site := .cluster (clusterOf m w)

/-- An engine's access for a workgroup waits for a translation (spec 10 R185). -/
def engineWaits (m : Mach) (w : Nat) (sp : Space) (a : Nat) : Bool := spaceWaits m (engineSite m w) (m.wg w).part (m.wg w).ctx sp a

/-- An engine's accesses for a workgroup have filled the TLBs they missed (spec 10 R185). -/
def engineTouch (w : Nat) (sp : Space) (as : List Nat) (m : Mach) : Mach :=
  as.foldl (fun acc a => spaceTouch (engineSite m w) (m.wg w).part (m.wg w).ctx sp a acc) m

/-- Bytes of a fill's source, from `n` sectors' first address on, or the first fault; none where a read waits for a translation or meets an error not yet
retried. -/
def readRange (m : Mach) (w : Nat) (sp : Space) (a : Nat) : Nat → Except (Option (Cause × Nat)) (List Byte)
  | 0 => .ok []
  | n + 1 =>
    match engineWaits m w sp a, copyPlace m (engineSite m w) (m.wg w).part (m.wg w).ctx sp w a .read false with
    | true, _ => .error none
    | false, .error e => .error (some (e, a))
    | false, .ok pl =>
      match placeErrors m sp pl 32 with
      | (true, _) => .error none
      | (false, true) => .error (some (.uncorrectable, a))
      | (false, false) =>
        match readRange m w sp (a + 32) n with
        | .error e => .error e
        | .ok bs => .ok (readPlace m sp pl 32 ++ bs)

/-- The rows of a source, `n` sectors each. -/
def readRows (m : Mach) (w : Nat) (sp : Space) (base stride n : Nat) : Nat → Except (Option (Cause × Nat)) (List (List Byte))
  | 0 => .ok []
  | k + 1 =>
    match readRange m w sp (base + (63 - k) * stride) n with
    | .error e => .error e
    | .ok bs =>
      match readRows m w sp base stride n k with
      | .error e => .error e
      | .ok rs => .ok (bs :: rs)

/-- The words of a scratchpad row, at word alignment. -/
def readWords (m : Mach) (w : Nat) (a n : Nat) : Except (Option (Cause × Nat)) (List Byte) :=
  match scratchKeys m w a n with
  | none => .error (some (.publishState, a))
  | some ks =>
    if (scratchErrors m w a n).any fun k => !(m.badRows.contains (rowOf k)) then .error none
    else if scratchErrors m w a n = [] then .ok (ks.map (Memory.read m.scratch))
    else .error (some (.uncorrectable, a))

/-- The rows of an MCONV's source. -/
def convRows (m : Mach) (w : Nat) (base stride n : Nat) : Nat → Except (Option (Cause × Nat)) (List (List Byte))
  | 0 => .ok []
  | k + 1 =>
    match readWords m w (base + (63 - k) * stride) n with
    | .error e => .error e
    | .ok bs =>
      match convRows m w base stride n k with
      | .error e => .error e
      | .ok rs => .ok (bs :: rs)

/-- A fill issued before the ORELEASE that a pass reads enters the pass's contents too (spec 12 R222). -/
def Pass.filled (p : Pass) (w n id : Nat) (put : Memory → Memory) : Pass :=
  if p.wg = w ∧ id < Store.get 0 p.rels n then { p with ops := Store.put p.ops n (put (Store.get [] p.ops n)) } else p

/-- Rows written to a slot: to what its next release gives, and to what its last release and the passes already submitted give where the fill was issued before
that release; the slot is in use and dirty (spec 12 R222, R225). -/
def fillBytes (w n id : Nat) (rows : List (List Byte)) (m : Mach) : Mach :=
  let put := fun (mem : Memory) => Memory.writeN mem 0 rows.flatten
  let m1 := m.modSlot w n fun o => { o with bytes := put o.bytes, rel := if id < o.relId then put o.rel else o.rel, inUse := true, dirty := true }
  (m1.modCluster (clusterOf m w) fun k => { k with table := k.table.map fun p => p.filled w n id put }).modW w fun z =>
    { z with savedPasses := z.savedPasses.map fun p => p.filled w n id put }

/-- The fault of a command that acts once for its group on a range (spec 10 R193). -/
def rangeFail (w g : Nat) (o : Out) (c : Cause) (a : Nat) (m : Mach) : Mach :=
  failOut w g o.id ⟨c, o.irec.lanes, BitVec.ofNat 64 a, groupInfo o.irec.lanes a⟩ m

/-- A fill lands with its rows, faults, or waits. -/
def fillLand (w g : Nat) (o : Out) (n : Nat) (r : Except (Option (Cause × Nat)) (List (List Byte))) (m : Mach) : Mach :=
  match r with
  | .ok rows => landOut w g o.id [] (fillBytes w n o.id rows m)
  | .error (some (c, a)) => rangeFail w g o c a m
  | .error none => m

/-- OLOAD_LANDING (spec 12 R225, R228). -/
def oloadLanding (w g id : Nat) (m : Mach) : Mach :=
  match findOut m w g id with
  | some o =>
    match o.kind with
    | .oload n sp src stride claim =>
      if mayFill m w g o n claim then
        fillLand w g o n (readRows m w sp src stride 4 64) (engineTouch w sp ((List.range 64).map fun r => src + r * stride) m)
      else m
    | _ => m
  | none => m

/-- OLOAD_LANDING. -/
def execOloadLanding (w g id : Nat) (s : State) : Host.Outcome State Fault Refusal := eventStep (oloadLanding w g id) s

/-- An FP32 pattern rounded to an INT8 or UINT8, clamped; a NaN gives 0 (spec 12 R227). -/
def toInt8 (uns : Bool) (v : Nat) : Nat :=
  match fp32.decode v with
  | .nan _ => 0
  | .inf n => if uns then (if n then 0 else 255) else (if n then 128 else 127)
  | .fin n m e =>
    let k : Int := (if n then -1 else 1) * ((roundMag .rne n m e).1 : Nat)
    let c := if uns then max 0 (min 255 k) else max (-128) (min 127 k)
    (c % 256).toNat

/-- An FP32 pattern rounded to a 16-bit format; with saturate an overflow gives the largest finite value (spec 12 R226, R227). -/
def toWide (f : Fmt) (sat : Bool) (v : Nat) : Nat :=
  let r := fp32.convert f .rne v
  if sat && decide (r.flags &&& flOverflow ≠ 0) then f.sign (fp32.negBit v) + (f.infBits - 1) else r.val

/-- The bytes an element becomes (spec 12 R227). -/
def convElem (sat inf uns : Bool) (prec code v : Nat) : List Byte :=
  match code with
  | 0 => [BitVec.ofNat 8 (Form8.round ⟨prec, uns, inf⟩ sat (fp32.decode v)).val]
  | 1 => [BitVec.ofNat 8 (toInt8 false v)]
  | 2 => [BitVec.ofNat 8 (toInt8 true v)]
  | 3 => leBytes 2 (toWide bf16 sat v)
  | _ => leBytes 2 (toWide fp16 sat v)

/-- The words of a row of bytes. -/
def rowWordsOf (bs : List Byte) : List Nat := (List.range (bs.length / 4)).map fun k => leNat ((bs.drop (4 * k)).take 4)

/-- MCONV_LANDING (spec 12 R227, R228). -/
def mconvLanding (w g id : Nat) (m : Mach) : Mach :=
  match findOut m w g id with
  | some o =>
    match o.kind with
    | .mconv n half sat inf uns prec code src stride claim =>
      let t := convSlot n half
      if mayFill m w g o t claim then
        fillLand w g o t (match convRows m w src stride (convRow code) 64 with
          | .error e => .error e
          | .ok rs => .ok (rs.map fun bs => (rowWordsOf bs).flatMap (convElem sat inf uns prec code))) m
      else m
    | _ => m
  | none => m

/-- MCONV_LANDING. -/
def execMconvLanding (w g id : Nat) (s : State) : Host.Outcome State Fault Refusal := eventStep (mconvLanding w g id) s

/-! ## Signing -/

/-- The groups an operand map word names (spec 12 R229). -/
def signersOf (word : Word) : List Nat := (List.range 16).filter fun g => word.getLsbD (16 + g)

/-- The tile, the slots of A and B. -/
def mapTile (word : Word) : Nat := (bits word 10 4).toNat

/-- The A slot. -/
def mapA (word : Word) : Nat := (bits word 0 5).toNat

/-- The B slot. -/
def mapB (word : Word) : Nat := (bits word 5 5).toNat

/-- The first slot that breaks OPERAND_MAP (spec 12 R232): beyond the declared count, claimed, or the one slot in which two pairs overlap. -/
def badSlot (m : Mach) (w : Nat) (word fmt : Word) : Option Nat :=
  match (operandSlots (mapA word) (codeA fmt) ++ operandSlots (mapB word) (codeB fmt)).find? fun n =>
      decide ((m.block w).slots ≤ n) || (m.oslot w n).claimed with
  | some n => some n
  | none => if wideCode (codeA fmt) ∧ (mapA word + 1 = mapB word ∨ mapB word + 1 = mapA word) then some (max (mapA word) (mapB word)) else none

/-- A convergence register, if it is open (spec 12 R230). -/
def convOf (m : Mach) (w c : Nat) : Option Conv := ((m.wg w).convs.find? fun e => decide (e.1 = c)).map (·.2)

/-- CONVERGENCE_SET of MSIGN, with the missing lanes (spec 12 R232). -/
def signSet (m : Mach) (x : Iss) (word : Word) (k : Option Conv) : Option Word :=
  let miss := (m.grp x.w x.g).live &&& ~~~x.act
  let bad := match k with
    | none => (signersOf word).any fun g => decide ((m.wg x.w).ngroups ≤ g) || decide ((m.grp x.w g).live = 0)
    | some e => decide (e.word ≠ word) || e.signed.contains x.g
  if decide (miss ≠ 0) || !((signersOf word).contains x.g) || bad then some miss else none

/-- A tile or slots that the word may not name, where it opens its register (spec 12 R231, R232). -/
def mapTrap (m : Mach) (x : Iss) (word fmt : Word) (fresh : Bool) : Option Own :=
  if fresh = false then none
  else if (m.block x.w).tiles ≤ mapTile word then some (trapEff x .tileIndex m)
  else (badSlot m x.w word fmt).map fun n => .trap .operandMap (infoLow m (BitVec.ofNat 32 (n % 32))) x.eff 0

/-- What a pass reads of its slots: the contents at each slot's last ORELEASE, and that ORELEASE (spec 12 R222). -/
def passOps (m : Mach) (w : Nat) (ns : List Nat) : Store Memory × Store Nat :=
  ns.foldl (fun acc n => (Store.put acc.1 n (m.oslot w n).rel, Store.put acc.2 n (m.oslot w n).relId)) ([], [])

/-- The pass of a register is submitted: tile T's token passes to the engine, the register is empty (spec 12 R231, R233). -/
def submitPass (w g c : Nat) (m : Mach) : Mach :=
  match convOf m w c with
  | none => m
  | some e =>
    let t := mapTile e.word
    let r := passOps m w (operandSlots (mapA e.word) (codeA e.fmt) ++ operandSlots (mapB e.word) (codeB e.fmt))
    let p : Pass := { id := m.nextCmd, wg := w, tile := t, a := mapA e.word, b := mapB e.word, fmt := e.fmt, waits := e.waits, base := (m.block w).priority, at_ := m.cycle
                      core := (m.wg w).core, slot := (m.grp w g).slot, ops := r.1, rels := r.2, opA := [], opB := [] }
    let m1 := (m.modTile w t fun q => { q with atEngine := true }).modW w fun z => { z with convs := Store.del z.convs c }
    { (m1.modCluster (clusterOf m w) fun k => { k with table := k.table ++ [p] }) with nextCmd := m1.nextCmd + 1 }

/-- Passes of a workgroup of the cluster that came back with a restore and found no free entry enter the table, in the order of their submission (spec 12 R233,
R246, 20 R384, log 83). -/
def admitPasses (c : Nat) (m : Mach) : Mach :=
  let ws := m.wgIds.filter fun w => decide (clusterOf m w = c) && decide ((m.wg w).status ≠ .saved)
  ws.foldl (fun acc w =>
    let n := 32 - (acc.cluster c).table.length
    if (acc.wg w).savedPasses.isEmpty || decide (n = 0) then acc
    else
      (acc.modCluster c fun k => { k with table := k.table ++ (acc.wg w).savedPasses.take n }).modW w fun z => { z with savedPasses := z.savedPasses.drop n }) m

/-- The cluster's reservation table has a free entry for a new pass of a workgroup (spec 12 R233). -/
def tableRoom (m : Mach) (w : Nat) : Bool := decide ((m.cluster (clusterOf m w)).table.length < 32) && (m.wg w).savedPasses.isEmpty

/-- The pending fills that a signature waits for (spec 12 R231). -/
def signWaits (m : Mach) (x : Iss) (word fmt : Word) : List Nat :=
  ((m.grp x.w x.g).outs.filter fun o =>
    match fillSlot o.kind with
    | some n => (operandSlots (mapA word) (codeA fmt) ++ operandSlots (mapB word) (codeB fmt)).contains n
    | none => false).map (·.id)

/-- MSIGN (spec 12 R231, R232). -/
def msignOwn (c : Nat) (a b : Reg) (x : Iss) (m : Mach) : Own :=
  let y := m.grp x.w x.g
  let word := y.reg b.toNat (lowLaneD x.act)
  let k := convOf m x.w c
  let ref := match k with | some e => e.fmt | none => y.reg a.toNat (lowLaneD x.act)
  let dissent := maskIf fun l => x.act.getLsbD l && decide (y.reg a.toNat l ≠ ref)
  if bits word 14 2 ≠ 0 then trapEff x .reservedField m
  else
    match signSet m x word k with
    | some miss => .trap .convergenceSet (infoLow m miss) miss 0
    | none =>
      if dissent ≠ 0 then .trap .formatDivergence (ref ++ dissent) dissent 0
      else if formatInvalid ref then .trap .formatInvalid (infoLow m ref) x.eff 0
      else
        match mapTrap m x word ref k.isNone with
        | some t => t
        | none =>
          if inRegion x x.act m then regionTrap x m
          else if y.trapMode.isSome then trapEff x .doubleFault m
          else
            let e := k.getD ⟨word, ref, [], []⟩
            let e1 : Conv := { e with signed := e.signed ++ [x.g], waits := e.waits ++ signWaits m x word ref }
            let m1 := flushAll (m.wg x.w).core (m.modW x.w fun z => { z with convs := Store.put z.convs c e1 })
            if (signersOf word).any fun g => !(e1.signed.contains g) then .done 0 m1
            else if tableRoom m x.w then .done 0 (submitPass x.w x.g c m1)
            else .placed (dropSlot x.w x.g (m1.modG x.w x.g fun y => { y with held := some (.msign c), gaveUp := m.cycle }))

/-- MSIGN. -/
def execMsign (k : BitVec 3) (a b : Reg) (st : BitVec 2) (s : State) : Host.Outcome State Fault Refusal :=
  execute (.msign k a b st) (msignOwn k.toNat a b) s

/-- MSIGN_SUBMIT: an entry is free for the pass of a register whose last signer stands held (spec 12 R231). -/
def msignSubmit (w c : Nat) (m : Mach) : Mach :=
  match (m.wg w).groupIds.find? fun g => decide ((m.grp w g).held = some (.msign c)) with
  | none => m
  | some g => if wgActive (m.wg w) && tableRoom m w then finishHeld w g (submitPass w g c m) else m

/-- MSIGN_SUBMIT. -/
def execMsignSubmit (w c : Nat) (s : State) : Host.Outcome State Fault Refusal := eventStep (msignSubmit w c) s

/-! ## Passes -/

/-- A command with its group. -/
def wgOuts (m : Mach) (w : Nat) : List (Nat × Out) := (m.wg w).groupIds.flatMap fun g => (m.grp w g).outs.map fun o => (g, o)

/-- An entry is ready: its loads have landed, and earlier passes on its tile have started (spec 12 R222, R231, R233). -/
def passReady (m : Mach) (c : Nat) (p : Pass) : Bool :=
  !((wgOuts m p.wg).any fun e => p.waits.contains e.2.id) &&
    !(p.slots.any fun n => (fillsOf m p.wg n).any fun j => decide (j < Store.get 0 p.rels n)) &&
    !(((m.cluster c).table ++ (m.wg p.wg).savedPasses).any fun q => decide (q.wg = p.wg) && decide (q.tile = p.tile) && decide (q.id < p.id))

/-- The effective priority of an entry (spec 12 R233). -/
def passPrio (now : Nat) (p : Pass) : Nat := min 7 (p.base + (now - p.at_) / 256)

/-- One ready entry is taken before another (spec 12 R233). -/
def passBefore (now : Nat) (p q : Pass) : Bool :=
  let a := passPrio now p
  let b := passPrio now q
  decide (b < a) || (decide (a = b) && (decide (p.at_ < q.at_) || (decide (p.at_ = q.at_) &&
    (decide (p.core < q.core) || (decide (p.core = q.core) && decide (p.slot ≤ q.slot))))))

/-- The bytes of an operand: one slot, or two (spec 12 R221). -/
def Pass.operand (p : Pass) (n code : Nat) : Memory :=
  if wideCode code then Memory.writeN (Memory.dropRange (Store.get [] p.ops n) 8192 (2 ^ 20)) 8192 (Memory.readN (Store.get [] p.ops (n + 1)) 0 8192)
  else Store.get [] p.ops n

/-- PASS_START: the engine takes the ready entry with the highest effective priority; a pass before it may still be retiring (spec 12 R220, R233). -/
def passStart (c : Nat) (mi : Mach) : Mach :=
  let m := admitPasses c mi
  let k := m.cluster c
  match sortBy (passBefore m.cycle) (k.table.filter (passReady m c)), decide (k.inEngine.length < 2) with
  | p :: _, true =>
    let p1 := { p with opA := p.operand p.a (codeA p.fmt), opB := p.operand p.b (codeB p.fmt) }
    admitPasses c (m.modCluster c fun k => { k with table := k.table.filter fun q => decide (q.id ≠ p.id), inEngine := k.inEngine ++ [p1] })
  | _, _ => m

/-- PASS_START. -/
def execPassStart (cluster : Nat) (s : State) : Host.Outcome State Fault Refusal := eventStep (passStart cluster) s

/-- Passes on a tile submitted and not retired, before a command. -/
def passesOn (m : Mach) (w t : Nat) : List Pass :=
  ((m.cluster (clusterOf m w)).table ++ (m.cluster (clusterOf m w)).inEngine ++ (m.wg w).savedPasses).filter fun p => decide (p.wg = w) && decide (p.tile = t)

/-- A tile as TZERO leaves it (spec 12 R239). -/
def Tile.zero (t : Tile) : Tile := { t with elems := [], inUse := false, dirty := false, int := false, overflow := false, invalid := false }

/-- TDRAINs of a tile read it, in their order, as soon as no earlier pass is to retire on it (spec 12 R236, R243). -/
def captureDrains (w t : Nat) (m : Mach) : Mach :=
  (sortBy (fun a b => decide (a.2.id ≤ b.2.id)) (wgOuts m w)).foldl (fun acc e =>
    match e.2.kind with
    | .tdrain t' clr add sp dst stride none done =>
      if t' = t ∧ ((passesOn acc w t).any fun p => decide (p.id < e.2.id)) = false then
        let q := acc.tile w t
        let m1 := setOut w e.1 e.2.id (.tdrain t clr add sp dst stride (some (q.elems, q.int)) done) acc
        if clr then m1.modTile w t Tile.zero else m1
      else acc
    | _ => acc) m

/-- The decrement of the node bound to a tile (spec 03 R33, R45, 12 R237). -/
def tileSignal (w : Nat) (h : Option Nat) (m : Mach) : Mach :=
  match h with
  | none => m
  | some v =>
    match liveNode m (m.wg w).part (m.wg w).ctx (BitVec.ofNat 32 v) with
    | some k => nodeDecrement (m.wg w).part k 1 2 m
    | none => eventRecord (m.wg w).part (BitVec.ofNat 64 v) .graphNode 2 0 m

/-- The tile status word (spec 12 R238). -/
def tileStatus (m : Mach) (w t : Nat) (token : Bool) : Word :=
  let q := m.tile w t
  BitVec.ofNat 32 (q.retired * 2 ^ 16 + q.overflow.toNat * 2 ^ 12 + q.invalid.toNat * 2 ^ 11 + q.bound.isSome.toNat * 2 ^ 10 + q.int.toNat * 2 ^ 9
    + q.dirty.toNat * 2 ^ 8 + q.inUse.toNat * 2 ^ 7 + token.toNat * 2 ^ 6 + min 63 (passesOn m w t).length)

/-- TACQ_LANDING: the passes and drains issued before it are done; the token returns unless a later pass has taken it (spec 12 R236, R239). -/
def tacqLanding (w g id : Nat) (m : Mach) : Mach :=
  match if (m.wg w).status = .saved then none else findOut m w g id with
  | some o =>
    match o.kind with
    | .tacq d t lanes =>
      if ((passesOn m w t).any fun p => decide (p.id < id)) || (wgOuts m w).any fun e => decide (e.2.id < id) && match e.2.kind with | .tdrain t' _ _ _ _ _ _ _ => decide (t' = t) | _ => false then m
      else
        let m1 := if (passesOn m w t).isEmpty then m.modTile w t fun q => { q with atEngine := false } else m
        landOut w g id (laneResults (some d) lanes (tileStatus m1 w t true)) m1
    | _ => m
  | none => m

/-- The TACQs of a tile that were issued before a pass and may land have landed by the time the pass acts on the tile (spec 12 R236, R237). -/
def landTacqs (p : Pass) (m : Mach) : Mach :=
  (wgOuts m p.wg).foldl (fun acc e =>
    match e.2.kind with
    | .tacq _ t _ => if t = p.tile ∧ e.2.id < p.id then tacqLanding p.wg e.1 e.2.id acc else acc
    | _ => acc) m

/-- PASS_RETIRE: the oldest pass in the engine writes its tile, then the bound node is decremented, then drains may read (spec 12 R220, R237); the pass of a workgroup
that has ended writes nothing (11 R467). -/
def passRetire (c : Nat) (m : Mach) : Mach :=
  match (m.cluster c).inEngine with
  | [] => m
  | p :: ps =>
    let drop := fun (m : Mach) => m.modCluster c fun k => { k with inEngine := ps }
    if (m.wg p.wg).status = .absent ∨ (m.wg p.wg).status = .ended then drop m
    else
      let m1 := drop (landTacqs p m)
      let h := (m1.tile p.wg p.tile).bound
      captureDrains p.wg p.tile (tileSignal p.wg h (m1.modTile p.wg p.tile (passTile p.fmt p.opA p.opB)))

/-- PASS_RETIRE. -/
def execPassRetire (cluster : Nat) (s : State) : Host.Outcome State Fault Refusal := eventStep (passRetire cluster) s

/-! ## Tiles -/

/-- The traps of the tile instructions (spec 12 R241). -/
def tileOwn (t : Nat) (token : Bool) (own : Iss → Mach → Own) : Iss → Mach → Own :=
  guarded fun x m =>
    if (m.block x.w).tiles ≤ t then trapEff x .tileIndex m
    else if token && (m.tile x.w t).atEngine then trapEff x .tokenAbsent m
    else noRegion own x m

/-- TACQ (spec 12 R239). -/
def execTacq (d : Reg) (t : BitVec 4) (g : Guard) (s : State) : Host.Outcome State Fault Refusal :=
  execute (.tacq d t g) (tileOwn t.toNat false fun x m => .done 0 (handOn (.tacq d t g) x (waitClass (.tacq d t g)) (.tacq d t.toNat x.eff) false m)) s

/-- TACQ_LANDING. -/
def execTacqLanding (w g id : Nat) (s : State) : Host.Outcome State Fault Refusal := eventStep (tacqLanding w g id) s

/-- TREL: as TZERO, and a binding is dropped (spec 12 R239). -/
def execTrel (t : BitVec 4) (g : Guard) (s : State) : Host.Outcome State Fault Refusal :=
  execute (.trel t g) (tileOwn t.toNat true fun x m => .done 0 (m.modTile x.w t.toNat fun q => { q.zero with bound := none })) s

/-- TZERO (spec 12 R239). -/
def execTzero (t : BitVec 4) (g : Guard) (s : State) : Host.Outcome State Fault Refusal :=
  execute (.tzero t g) (tileOwn t.toNat true fun x m => .done 0 (m.modTile x.w t.toNat Tile.zero)) s

/-- The element a lane names (spec 12 R240). -/
def elemIndex (y : Group) (a : Reg) (l : Nat) : Nat := (y.reg a.toNat l).toNat % 4096

/-- TLD: the elements are read in the order of issue and land later (spec 12 R236, R240). -/
def execTld (d a : Reg) (t : BitVec 4) (g : Guard) (s : State) : Host.Outcome State Fault Refusal :=
  execute (.tld d a t g) (tileOwn t.toNat true fun x m =>
    let y := m.grp x.w x.g
    .done 0 (handOn (.tld d a t g) x (waitClass (.tld d a t g))
      (.tld ((lanesOf x.eff).map fun l => .reg d.toNat l (Store.get 0 (m.tile x.w t.toNat).elems (elemIndex y a l)))) false m)) s

/-- TLD_LANDING (spec 12 R240). -/
def tldLanding (w g id : Nat) (m : Mach) : Mach :=
  match findOut m w g id with
  | some o => match o.kind with | .tld ws => landOut w g id ws m | _ => m
  | none => m

/-- TLD_LANDING. -/
def execTldLanding (w g id : Nat) (s : State) : Host.Outcome State Fault Refusal := eventStep (tldLanding w g id) s

/-- TST: the highest-numbered lane wins (spec 12 R240). -/
def execTst (d a : Reg) (t : BitVec 4) (g : Guard) (s : State) : Host.Outcome State Fault Refusal :=
  execute (.tst d a t g) (tileOwn t.toNat true fun x m =>
    let y := m.grp x.w x.g
    .done 0 (m.modTile x.w t.toNat fun q =>
      { q with elems := (lanesOf x.eff).foldl (fun acc l => Store.set 0 acc (elemIndex y a l) (y.reg d.toNat l)) q.elems, inUse := true, dirty := true })) s

/-! ## Draining -/

/-- The sectors a drain writes: the address of each, by row and by column of 8 elements (spec 12 R243). -/
def drainSectors (dst stride : Nat) : List (Nat × Nat) := (List.range 512).map fun k => (8 * k, dst + k / 8 * stride + 32 * (k % 8))

/-- The precise traps of TDRAIN, in their order (spec 12 R244). -/
def drainTrap (m : Mach) (x : Iss) (t : Nat) (sp : Space) (dst stride : Nat) : Option Cause :=
  if 16 ≤ t ∨ (m.block x.w).tiles ≤ t then some .tileIndex
  else if dst % 32 ≠ 0 ∨ stride % 32 ≠ 0 ∨ stride < 256 then some .drainTarget
  else
    match rowsTrap m x.w sp dst stride 256 with
    | some c => some c
    | none => if sp = .scr ∧ ((List.range 64).any fun r => meetsHidden (m.wg x.w).shadows false (dst + r * stride) 256) = true then some .publishState else none

/-- The refusal of a drain that is reported on MX (spec 19 R353, R363). -/
def drainRefusal (m : Mach) (w : Nat) (sp : Space) (dst stride : Nat) : Option Cause :=
  if sp = .scr then none else (List.range 64).findSome? fun r => engineTurn m w .drain (decide (sp = .vault)) (dst + r * stride) 256

/-- A row of a drain is shared (spec 19 R353). -/
def drainShared (m : Mach) (w : Nat) (sp : Space) (dst stride : Nat) : Bool :=
  decide (sp ≠ .scr) && isDet m w && (List.range 64).any fun r => !(ownedBySelf m w (decide (sp = .vault)) (dst + r * stride) 256)

/-- The mark, in place of the elements already written, of a drain that the tables refused: its replay is checked again (spec 19 R353). -/
def refusedDrain : Nat := 4096

/-- TDRAIN (spec 12 R242 to R244). -/
def tdrainOwn (i : Instr) (t : Nat) (a b : Reg) (clr add : Bool) (sp : Space) (x : Iss) (m : Mach) : Own :=
  let cost := if sp = .scr then 0 else 512
  if x.eff = 0 then .done cost m
  else
    let y := m.grp x.w x.g
    let dst := copyAddr y a sp (lowLaneD x.eff)
    let stride := (y.reg b.toNat (lowLaneD x.eff)).toNat
    match drainTrap m x t sp dst stride with
    | some c => trapEff x c m
    | none =>
      let sh := drainShared m x.w sp dst stride
      if inRegion x x.eff m then regionTrap x m
      else if sh && turnEnded m x.w then trapEff x .serialOrder m
      else if sh && turnFull m x.w 1 then .hold (.turn 1)
      else
        let no := drainRefusal m x.w sp dst stride
        let m1 := handOn i x (waitClass i) (.tdrain t clr add sp dst stride none (if no.isSome then refusedDrain else 0)) sh m
        .done cost (captureDrains x.w t (match no, lastOut m1 x.w x.g with | some c, some o => cmdFail x.w x.g o c 0 m1 | _, _ => m1))

/-- TDRAIN. -/
def execTdrain (t : BitVec 6) (a b : Reg) (clr add : Bool) (sp : Space) (g : Guard) (s : State) : Host.Outcome State Fault Refusal :=
  execute (.tdrain t a b clr add sp g) (tdrainOwn (.tdrain t a b clr add sp g) t.toNat a b clr add sp) s

/-- The places of a drain's sectors, or the first fault: every page is checked before a byte is written; a lasting error that an add meets has no place, and stops it
where it stands (spec 12 R244). -/
def drainPlaces (m : Mach) (w : Nat) (sp : Space) (add : Bool) : List (Nat × Nat) → Except (Cause × Nat) (List (Nat × Option Place))
  | [] => .ok []
  | e :: es =>
    match copyPlace m (engineSite m w) (m.wg w).part (m.wg w).ctx sp w e.2 .write false, drainPlaces m w sp add es with
    | .error c, r => if c = .uncorrectable ∧ add = true then (match r with | .error x => .error x | .ok ps => .ok ((e.1, none) :: ps)) else .error (c, e.2)
    | .ok _, .error x => .error x
    | .ok pl, .ok ps => .ok ((e.1, some pl) :: ps)

/-- An element after an add-on-store, or a store (spec 12 R243). -/
def drainWord (add int : Bool) (old new : Nat) : Nat :=
  if add = false then new else if int then (old + new) % 2 ^ 32 else (addAcc false ⟨old, false, false⟩ ⟨new, false, false⟩).val

/-- The bytes of one sector after the drain. -/
def drainSector (add int : Bool) (elems : Store Word) (i : Nat) (old : List Byte) : List Byte :=
  (List.range 8).flatMap fun k => leBytes 4 (drainWord add int (leNat ((old.drop (4 * k)).take 4)) (Store.get 0 elems (i + k)).toNat)

/-- Sectors are drained in order; a lasting error met by an add stops them (spec 12 R244): the machine, and the element it stopped at. -/
def drainAll (add int : Bool) (elems : Store Word) (sp : Space) : List (Nat × Option Place) → Mach → Mach × Option Nat
  | [], m => (m, none)
  | e :: es, m =>
    match e.2 with
    | none => (m, some e.1)
    | some pl =>
      if add && (placeErrors m sp pl 32).2 then (m, some e.1)
      else drainAll add int elems sp es (writePlace none sp pl (drainSector add int elems e.1 (readPlace m sp pl 32)) m)

/-- A drain waits: for its turn, for an earlier drain of its tile, for a halt to end, for a read to be retried (spec 12 R236, 19 R353, 21 R394). -/
def drainWaits (m : Mach) (w : Nat) (o : Out) (t : Nat) (sp : Space) : Bool :=
  (o.shared && !(holdsTurn m w)) || (decide (sp = .scr) && frozen (m.wg w)) || decide ((m.wg w).status = .saved) ||
    (wgOuts m w).any fun e => decide (e.2.id < o.id) && match e.2.kind with | .tdrain t' _ _ _ _ _ _ _ => decide (t' = t) | _ => false

/-- A drain's sectors are applied as one indivisible update, or it faults; what a stopped add has written is seen by the threads that take its fault (spec 10 R189,
12 R243, R244). -/
def drainApply (w g : Nat) (o : Out) (t : Nat) (clr add : Bool) (sp : Space) (dst stride done : Nat) (data : Store Word × Bool) (m : Mach) : Mach :=
  let left := (drainSectors dst stride).filter fun e => decide (done ≤ e.1)
  match drainPlaces m w sp add left with
  | .error (c, a) => rangeFail w g o c a m
  | .ok ps =>
    if (left.any fun e => engineWaits m w sp e.2) || (add && ps.any fun e => e.2.any fun pl => (placeErrors m sp pl 32).1) then m
    else
      match drainAll add data.2 data.1 sp ps (engineTouch w sp (left.map (·.2)) m) with
      | (m1, none) => landOut w g o.id [] (dropCache (m1.wg w).core m1)
      | (m1, some i) =>
        rangeFail w g o .uncorrectable (dst + i / 64 * stride + 4 * (i % 64))
          (dropCache (m1.wg w).core (setOut w g o.id (.tdrain t clr add sp dst stride (some data) i) m1))

/-- TDRAIN_COMPLETE: a drain that was refused is checked again when it is replayed (spec 12 R243, R244, 19 R353). -/
def tdrainComplete (w g id : Nat) (m : Mach) : Mach :=
  match findOut m w g id with
  | some o =>
    match o.kind with
    | .tdrain t clr add sp dst stride (some data) done =>
      if drainWaits m w o t sp then m
      else if done = refusedDrain then
        match drainRefusal m w sp dst stride with
        | some c => cmdFail w g o c 0 m
        | none => drainApply w g o t clr add sp dst stride 0 data m
      else drainApply w g o t clr add sp dst stride done data m
    | _ => m
  | none => m

/-- TDRAIN_COMPLETE. -/
def execTdrainComplete (w g id : Nat) (s : State) : Host.Outcome State Fault Refusal := eventStep (tdrainComplete w g id) s

/-! ## MSTAT -/

/-- The traps of MSTAT's selector (spec 12 R245). -/
def mstatTrap (m : Mach) (w sel : Nat) : Option Cause :=
  if sel < 16 ∧ (m.block w).tiles ≤ sel then some .tileIndex
  else if 32 ≤ sel ∧ (m.block w).slots ≤ sel - 32 then some .operandMap
  else none

/-- The result of MSTAT (spec 12 R245). -/
def mstatVal (m : Mach) (w sel : Nat) : Word :=
  if sel < 16 then tileStatus m w sel (!(m.tile w sel).atEngine)
  else if sel < 32 then
    let t := (m.cluster (clusterOf m w)).table
    BitVec.ofNat 32 (t.length % 64 + 256 * ((t.filter fun p => decide (p.wg = w)).length % 64))
  else
    let n := sel - 32
    let o := m.oslot w n
    BitVec.ofNat 32 ((readersOf m w n).length % 64 + 64 * o.claimed.toNat + 128 * o.inUse.toNat + 256 * o.dirty.toNat + 512 * (!(fillsOf m w n).isEmpty).toNat)

/-- MSTAT (spec 12 R245). -/
def execMstat (d : Reg) (which : BitVec 6) (g : Guard) (s : State) : Host.Outcome State Fault Refusal :=
  execute (.mstat d which g) (guarded (noRegion fun x m =>
    match mstatTrap m x.w which.toNat with
    | some c => trapEff x c m
    | none => .done 0 (handOn (.mstat d which g) x (waitClass (.mstat d which g)) (.mstat d which.toNat x.eff) false m))) s

/-- MSTAT_LANDING (spec 12 R245). -/
def mstatLanding (w g id : Nat) (m : Mach) : Mach :=
  match findOut m w g id with
  | some o => match o.kind with | .mstat d sel lanes => if (m.wg w).status = .saved then m else landOut w g id (laneResults (some d) lanes (mstatVal m w sel)) m | _ => m
  | none => m

/-- MSTAT_LANDING. -/
def execMstatLanding (w g id : Nat) (s : State) : Host.Outcome State Fault Refusal := eventStep (mstatLanding w g id) s

end Sys2Proof.Machine
end

