-- ==== Sys2Proof/Machine/CollMem.lean ====
section
/-! DEFINITION. Collections in memory: the pieces of an initialised collection, reading and writing its image, descriptors and runs by virtual address
(spec 13 R251 to R256, R264, 14 R269, R281, R283). -/

namespace Sys2Proof.Machine

/-- Why a command does not complete: it has to wait, or it faults, with cause, address and the high word of a MERGE_LENGTH (spec 14 R269, R283). -/
inductive CollStop where
  | wait
  | fault (c : Cause) (addr info : Nat)
  deriving DecidableEq, Repr, Inhabited

/-- A fault without an address. -/
def collErr {α : Type} (c : Cause) : Except CollStop α := .error (.fault c 0 0)

/-- A translated address for an engine, or the fault with its address; it may wait for a walk (spec 10 R185, 14 R269). -/
def engXlat (m : Mach) (k : Site) (p c a : Nat) (look : Mach → Site → Nat → Nat → Nat → Except Cause Xlat) : Except CollStop Nat :=
  if xlatWaits m k p c a then .error .wait
  else
    match look m k p c a with
    | .ok x => .ok x.pa
    | .error e => .error (.fault e a 0)

/-- A normal page that may be read, written (spec 10 R188). -/
def lookRead (m : Mach) (k : Site) (p c a : Nat) : Except Cause Xlat := translateNormal m k p c a .read

/-- For a write. -/
def lookWrite (m : Mach) (k : Site) (p c a : Nat) : Except Cause Xlat := translateNormal m k p c a .write

/-- A location of a physical range has an error that a read has not yet met (spec 10 R190). -/
def failingSpan (m : Mach) (pa n : Nat) : Bool :=
  m.failing.any fun f => match f with | .hbm a => decide (pa / 32 ≤ a / 32) && decide (a / 32 ≤ (pa + n - 1) / 32) | _ => false

/-- Bytes read by an engine at a physical address within one frame; `va` is the address a fault names (spec 10 R190, 14 R269). -/
def engRead (m : Mach) (va pa n : Nat) : Except CollStop (List Byte) :=
  if paLocal pa && frameBad m pa then .error (.fault .uncorrectable va 0)
  else if failingSpan m pa n then .error .wait
  else .ok (readPa m pa n)

/-- A byte written by an engine. -/
def engByte (m : Mach) (pa : Nat) (b : Byte) : Mach := writePa m none none pa [b]

/-- Bytes written by an engine. -/
def engWrite (pa : Nat) (bs : List Byte) (m : Mach) : Mach := (List.range bs.length).foldl (fun acc k => engByte acc (pa + k) (bs.getD k 0)) m

/-- Bytes written by an engine where they differ. -/
def engUpdate (pa : Nat) (bs : List Byte) (m : Mach) : Mach :=
  (List.range bs.length).foldl (fun acc k => if readPa acc (pa + k) 1 = [bs.getD k 0] then acc else engByte acc (pa + k) (bs.getD k 0)) m

/-! ## The image of a collection -/

/-- The physical address of an offset into pieces. -/
def pieceAt : List (Nat × Nat) → Nat → Nat
  | [], _ => 0
  | p :: ps, off => if off < p.2 then p.1 + off else pieceAt ps (off - p.2)

/-- The physical address of a directory entry. -/
def dirPa (s : Sealed) (k : Nat) : Nat := pieceAt s.pieces (256 + 16 * k)

/-- The physical address of a pool segment. -/
def segPa (s : Sealed) (h : Header) (k : Nat) : Nat := pieceAt s.pieces (256 + 16 * h.dcap + 4096 * k)

/-- The front of the free list, at most `n` segments, with the mark at its end (spec 13 R256). -/
def readFree (m : Mach) (va : Nat) (s : Sealed) (h : Header) : Nat → Nat → Except CollStop (List Nat)
  | 0, _ => .ok []
  | n + 1, k =>
    if k = noSeg ∨ h.nsegs ≤ k then .ok [noSeg]
    else
      match engRead m va (segPa s h k) 16 with
      | .error e => .error e
      | .ok bs =>
        match readFree m va s h n (fieldAt bs 0xC 4) with
        | .error e => .error e
        | .ok ks => .ok (k :: ks)

/-- A segment in use as its bytes give it (spec 13 R255). -/
def readSeg (m : Mach) (va : Nat) (s : Sealed) (h : Header) (k : Nat) : Except CollStop Seg :=
  match engRead m va (dirPa s k) 16 with
  | .error e => .error e
  | .ok d =>
    let j := fieldAt d 8 4
    match engRead m va (segPa s h j) 16 with
    | .error e => .error e
    | .ok hd =>
      match engRead m va (segPa s h j) (16 + fieldAt hd 0xA 2) with
      | .error e => .error e
      | .ok bs => .ok ⟨j, decEnts h.bp (fieldAt hd 8 2) (fieldAt hd 0 8) (bs.drop 16)⟩

/-- Segments in use from the `k`-th on. -/
def readSegs (m : Mach) (va : Nat) (s : Sealed) (h : Header) : Nat → Nat → Except CollStop (List Seg)
  | 0, _ => .ok []
  | n + 1, k =>
    match readSeg m va s h k with
    | .error e => .error e
    | .ok x =>
      match readSegs m va s h n (k + 1) with
      | .error e => .error e
      | .ok xs => .ok (x :: xs)

/-- The header of a physical address. -/
def readHeader (m : Mach) (va pa : Nat) : Except CollStop Header :=
  match engRead m va pa 256 with
  | .error e => .error e
  | .ok bs => .ok (parseHeader bs)

/-- A collection read from memory; a command takes at most two segments from the free list, so its front of four is enough. -/
def readColl (m : Mach) (va : Nat) (s : Sealed) : Except CollStop Coll :=
  match readHeader m va s.hdr with
  | .error e => .error e
  | .ok h =>
    match readSegs m va s h h.dused 0, readFree m va s h 4 h.free with
    | .error e, _ => .error e
    | _, .error e => .error e
    | .ok xs, .ok fs => .ok ⟨h, xs, fs, []⟩

/-- The hardware's fields of a header, written after every command (spec 13 R253). -/
def writeHeader (pa : Nat) (h : Header) (m : Mach) : Mach := engWrite (pa + 0x60) h.states (engWrite (pa + 0x20) h.counts m)

/-- The bytes of a segment: head and entries; beyond them zeros while the collection is frozen (spec 13 R255). -/
def segImage (h : Header) (es : List Elem) (next : Nat) : List Byte :=
  let b := segBytes h.bp es
  leBytes 8 (firstKey es) ++ leBytes 2 es.length ++ leBytes 2 b.length ++ leBytes 4 next ++ b ++
    (if h.frozen then List.replicate (4080 - b.length) 0 else [])

/-- Segments with their places in the directory, the next segment and the ordinal of the first element (spec 13 R254, R263). -/
def writeSegs (s : Sealed) (h : Header) : Nat → Nat → List Seg → Mach → Mach
  | _, _, [], m => m
  | k, ord, x :: xs, m =>
    let next := (xs.head?.map (·.idx)).getD noSeg
    let m1 := engUpdate (segPa s h x.idx) (segImage h x.ents next) m
    let m2 := engUpdate (dirPa s k) (leBytes 8 (firstKey x.ents) ++ leBytes 4 x.idx ++ leBytes 4 (if h.frozen then ord else 0)) m1
    writeSegs s h (k + 1) (ord + x.ents.length) xs m2

/-- A collection written to memory: links of freed segments, segments in use, directory, the hardware's fields (spec 13 R253 to R256). -/
def writeColl (s : Sealed) (c : Coll) (m : Mach) : Mach :=
  let h := { c.h with used := c.segs.length, dused := c.segs.length, free := c.free.headD noSeg }
  let m1 := c.links.foldl (fun acc l => engUpdate (segPa s h l.1 + 0xC) (leBytes 4 l.2) acc) m
  writeHeader s.hdr h (writeSegs s h 0 0 c.segs m1)

/-! ## The ranges of a collection -/

/-- A range cut at frames of 64 KiB, with fuel for its frames. -/
def cutSpan : Nat → Nat → Nat → List (Nat × Nat)
  | 0, _, _ => []
  | f + 1, a, n => if n = 0 then [] else let k := min n (65536 - a % 65536); (a, k) :: cutSpan f (a + k) (n - k)

/-- The ranges of a collection by virtual address: header, directory, pool (spec 13 R253). -/
def Header.spans (h : Header) (va : Nat) : List (Nat × Nat) := [(va, 256), (h.dir, 16 * h.dcap), (h.pool, 4096 * h.nsegs)]

/-- Pieces of physical memory of ranges that need read and write permission on normal pages (spec 13 R253). -/
def piecesOf (m : Mach) (k : Site) (p c : Nat) : List (Nat × Nat) → Except CollStop (List (Nat × Nat))
  | [] => .ok []
  | e :: es =>
    match engXlat m k p c e.1 translateBoth with
    | .error x => .error x
    | .ok pa =>
      match piecesOf m k p c es with
      | .error x => .error x
      | .ok ps => .ok ((pa, e.2) :: ps)

/-- The collection initialised at a physical address (spec 13 R253, log 31). -/
def sealOf (m : Mach) (pa : Nat) : Option Sealed := m.sealed_.find? fun s => decide (s.hdr = pa)

/-- Pieces that another collection holds. -/
def piecesTaken (m : Mach) (pa : Nat) (ps : List (Nat × Nat)) : Bool :=
  m.sealed_.any fun s => decide (s.hdr ≠ pa) && s.pieces.any fun a => ps.any fun b => spansMeet a.1 a.2 b.1 b.2

/-! ## Descriptors, stencils, runs and outputs -/

/-- Bytes at a virtual address within one frame, on a normal page. -/
def engLoad (m : Mach) (k : Site) (p c va n : Nat) : Except CollStop (List Byte) :=
  match engXlat m k p c va lookRead with
  | .error e => .error e
  | .ok pa => engRead m va pa n

/-- Words from a virtual address up. -/
def engWords (m : Mach) (k : Site) (p c va : Nat) : Nat → Except CollStop (List Nat)
  | 0 => .ok []
  | n + 1 =>
    match engLoad m k p c va 4 with
    | .error e => .error e
    | .ok bs =>
      match engWords m k p c (va + 4) n with
      | .error e => .error e
      | .ok ws => .ok (leNat bs :: ws)

/-- A place an engine writes outside collections (spec 13 R253); the granule is read first (10 R191). -/
def engPlace (m : Mach) (k : Site) (p c va : Nat) : Except CollStop Nat :=
  match engXlat m k p c va lookWrite with
  | .error e => .error e
  | .ok pa =>
    if sealedAt m pa then .error (.fault .accessTableDeny va 0)
    else if paLocal pa && hbmFailing m pa then .error .wait
    else .ok pa

/-- Words placed from a virtual address up. -/
def engPlaces (m : Mach) (k : Site) (p c va : Nat) : List Nat → Except CollStop (List (Nat × Nat))
  | [] => .ok []
  | v :: vs =>
    match engPlace m k p c va with
    | .error e => .error e
    | .ok pa =>
      match engPlaces m k p c (va + 4) vs with
      | .error e => .error e
      | .ok ps => .ok ((pa, v) :: ps)

/-- Words written at their places. -/
def engPutWords (ps : List (Nat × Nat)) (m : Mach) : Mach := ps.foldl (fun acc e => engWrite e.1 (leBytes 4 e.2) acc) m

end Sys2Proof.Machine
end

