-- ==== Sys2Proof/Machine/Collections.lean ====
section
/-! DEFINITION. The instructions of collections and merges, and the steps of the collection engines (spec 13, 14 R265 to R284, 19 R353, R365). -/

namespace Sys2Proof.Machine

/-! ## Engine lanes -/

/-- The engine lanes of a partition on an engine, lowest first (spec 14 R265). -/
def lanesOn (m : Mach) (p e : Nat) : List Nat := sortBy (fun a b => decide (a ≤ b)) (((m.part p).lanes.filter fun l => decide (l.1 = e)).map (·.2))

/-- The engine lane that serves a partition's commands on an engine: 16 × engine + the lowest lane (spec 14 R266). -/
def engineLane (m : Mach) (p e : Nat) : Option Nat := ((lanesOn m p e).head?).map fun l => 16 * e + l

/-- The engine lane of the lowest-numbered engine of a die on which the partition owns one (spec 14 R266). -/
def dieLane (m : Mach) (p die : Nat) : Option Nat := (List.range 4).findSome? fun k => engineLane m p (4 * die + k)

/-- The engine lane of commands that no collection places: of the core's die, else of any; none owned, the mark 256, where every command faults. -/
def anyLane (m : Mach) (p core : Nat) : Nat :=
  ((dieLane m p (dieOfCore core)) <|> ((List.range 16).findSome? fun e => engineLane m p e)).getD 256

/-- An engine lane. -/
def Mach.elane (m : Mach) (k : Nat) : ELane := Store.get default m.elanes k

/-- An engine lane changed. -/
def Mach.modLane (m : Mach) (k : Nat) (f : ELane → ELane) : Mach := { m with elanes := Store.upd default m.elanes k f }

/-- The header at an address, as far as it can be read from a site. -/
def peekHeader (m : Mach) (k : Site) (p c va : Nat) : Option Header :=
  match translateNormal m k p c va .read with
  | .ok x => some (parseHeader (readPa m x.pa 256))
  | .error _ => none

/-- The engine that a CINIT of the group, not yet performed, names for a header (spec 14 R266). -/
def pendingEngine (m : Mach) (w g : Nat) (hdr : DWord) : Option Nat :=
  ((m.elanes.flatMap fun e => e.2.queue).filterMap fun c =>
    match c.op with | .init e => if c.wg = w ∧ c.grp = g ∧ c.arg.hdr = hdr then some e else none | _ => none).getLast?

/-- The serving engine's lane of a collection for a workgroup's partition, where its header names one (spec 14 R266). -/
def servingLane (m : Mach) (w : Nat) (hdr : DWord) : Option Nat :=
  let x := m.wg w
  ((peekHeader m (wgSite m w) x.part x.ctx hdr.toNat).bind fun h => if h.initialised then some h.engine else none).bind (engineLane m x.part)

/-- A number in a descriptor, as far as it can be read. -/
def peekField (m : Mach) (k : Site) (p c : Nat) (desc : DWord) (off n : Nat) : Nat :=
  match translateNormal m k p c desc.toNat .read with
  | .ok x => leNat (readPa m (x.pa + off) n)
  | .error _ => 0

/-- The input collection of a CNBR. -/
def nbrInput (m : Mach) (w : Nat) (desc : DWord) : DWord := BitVec.ofNat 64 (peekField m (wgSite m w) (m.wg w).part (m.wg w).ctx desc 0 8)

/-- The engine lane that a command goes to, where its instruction, a CINIT of the group or the header of its collection says so; a descriptor is read after the
group's earlier accesses, those before command `id` (spec 14 R266, R270, R282). -/
def routeNow (m : Mach) (w g id : Nat) (op : CollOp) (hdr : DWord) : Option Nat :=
  let x := m.wg w
  let any := anyLane m x.part x.core
  match op with
  | .init e => some ((engineLane m x.part e).getD any)
  | .next | .close => some ((engineLane m x.part (fld hdr.toNat 24 4)).getD any)
  | .mrg _ _ => some ((dieLane m x.part (dieOfCore x.core)).getD 256)
  | .nbr _ => if groupBusy m w g id then none else servingLane m w (nbrInput m w hdr)
  | _ => ((pendingEngine m w g hdr).bind (engineLane m x.part)) <|> servingLane m w hdr

/-- The engine lane of a command that is to be served: one that no collection places faults on any (spec 14 R266, R269, log 69). -/
def routeOf (m : Mach) (w g id : Nat) (op : CollOp) (hdr : DWord) : Nat := (routeNow m w g id op hdr).getD (anyLane m (m.wg w).part (m.wg w).core)

/-- Where the engine lane of a command stands. -/
def CollCmd.site (c : CollCmd) : Site := .die (c.arg.route / 64)

/-! ## Cursors -/

/-- The cursor of a live handle: engine lane, entry, cursor (spec 14 R277). -/
def liveCursor (m : Mach) (p w : Nat) (v : Nat) : Option (Nat × Nat × Cursor) :=
  match (lanesOn m p (fld v 24 4))[fld v 0 12 / 256]? with
  | none => none
  | some l =>
    let k := 16 * fld v 24 4 + l
    let c : Cursor := Store.get default (m.elane k).cursors (fld v 0 8)
    if fld v 28 4 = 0 ∧ c.isOpen = true ∧ c.gen = fld v 12 12 ∧ c.wg = w ∧ c.valid = true then some (k, fld v 0 8, c) else none

/-- The free entries of a cursor table (spec 14 R265). -/
def freeCursors (x : ELane) : List Nat := (List.range 256).filter fun k => !(Store.get default x.cursors k : Cursor).isOpen

/-- A cursor changed. -/
def Mach.modCursor (m : Mach) (k e : Nat) (f : Cursor → Cursor) : Mach :=
  m.modLane k fun x => { x with cursors := Store.upd default x.cursors e f }

/-- The cursors on a collection are no longer valid (spec 13 R260, 14 R273). -/
def voidCursors (pa : Nat) (m : Mach) : Mach :=
  { m with elanes := m.elanes.map fun e => (e.1, { e.2 with cursors := e.2.cursors.map fun c => (c.1, if c.2.hdr = pa then { c.2 with valid := false } else c.2) }) }

/-! ## What a command does -/

/-- A command that has taken effect: the machine, how many registers D receives and their value, what the quad A receives. -/
structure CollDone where
  m : Mach
  dn : Nat
  dv : Nat
  av : Option Nat
  deriving DecidableEq, Repr, Inhabited

/-- The physical address of a header in local HBM (spec 13 R251, R253, 14 R269). -/
def headerPa (m : Mach) (c : CollCmd) (va : Nat) : Except CollStop Nat :=
  match engXlat m c.site c.part c.ctx va translateBoth with
  | .error e => .error e
  | .ok pa => if paLocal pa then .ok pa else collErr .collectionHeader

/-- An initialised collection, served by an engine lane of the command's partition (spec 14 R269). -/
def collAt (m : Mach) (c : CollCmd) (va : Nat) : Except CollStop (Sealed × Coll) :=
  match headerPa m c va with
  | .error e => .error e
  | .ok pa =>
    match readHeader m va pa with
    | .error e => .error e
    | .ok h =>
      match h.initialised, (engineLane m c.part h.engine).isSome, sealOf m pa with
      | true, true, some s =>
        if s.part ≠ c.part then collErr .collectionHeader
        else
          match readColl m va s with
          | .error e => .error e
          | .ok x => .ok (s, x)
      | _, _, _ => collErr .collectionHeader

/-- A command on one collection: its new content and its results. -/
def onColl (m : Mach) (c : CollCmd) (f : Coll → Except CollStop (Coll × Nat × Nat × Option Nat)) : Except CollStop CollDone :=
  match collAt m c c.arg.hdr.toNat with
  | .error e => .error e
  | .ok (s, x) =>
    match f x with
    | .error e => .error e
    | .ok (y, dn, dv, av) => .ok ⟨writeColl s y m, dn, dv, av⟩

/-- Inserts act under EVICTHI in deterministic mode (spec 13 R262, 19 R365). -/
def evictsFor (c : CollCmd) (x : Coll) : Bool := c.det || x.h.evicts

/-- The results of an insert or a move: status word, and the first element removed (spec 14 R275, R276). -/
def insResult (r : InsRes) : Coll × Nat × Nat × Option Nat :=
  (r.c, 1, statusWord r.st r.num, if 0 < r.num then r.first.map evictForm else none)

/-- A quad in eviction form (spec 14 R274). -/
def quadElem (a : BitVec 128) : Elem := (fld a.toNat 0 64, fld a.toNat 64 64)

/-- CINS, CREM and CMOVE (spec 14 R275, R276). -/
def elemCmd (c : CollCmd) (x : Coll) : Except CollStop (Coll × Nat × Nat × Option Nat) :=
  if x.h.frozen then collErr .collectionFrozen
  else
    match c.op with
    | .rem =>
      let r := x.delete (quadElem c.arg.a)
      .ok (r.1, 1, statusWord r.2 0, none)
    | .move => .ok (insResult (x.move (evictsFor c x) (quadElem c.arg.d) (newElem x.h c.arg.a)))
    | _ =>
      match newElem x.h c.arg.a with
      | none => .ok (x, 1, statusWord .range 0, none)
      | some e => .ok (insResult (x.insert (evictsFor c x) e))

/-- CCOUNT (spec 14 R279). -/
def countCmd (k : Nat) (x : Coll) : Nat :=
  match k with
  | 0 => x.h.count + 2 ^ 64 * x.h.occ
  | 1 => x.h.rejected + 2 ^ 64 * x.h.evicted
  | _ => x.h.gen + 2 ^ 64 * x.h.used + 2 ^ 96 * x.h.state

/-- The frozen bit set or cleared, the generation raised (spec 13 R251, R263). -/
def Coll.refreeze (b : Bool) (x : Coll) : Coll :=
  { x with h := { x.h with gen := (x.h.gen + 1) % 2 ^ 64, state := x.h.state - 2 * fld x.h.state 1 1 + 2 * b.toNat } }

/-- CFREEZE and CTHAW (spec 14 R280). -/
def freezeCmd (b : Bool) (x : Coll) : Coll × Nat × Nat × Option Nat :=
  if x.h.frozen = b then (x, 1, statusWord .unchanged 0, none) else (x.refreeze b, 1, statusWord .ok 0, none)

/-- COPEN (spec 14 R278, log 27); a workgroup that has ended opens none. -/
def openCmd (m : Mach) (c : CollCmd) : Except CollStop CollDone :=
  match collAt m c c.arg.hdr.toNat with
  | .error e => .error e
  | .ok (s, x) =>
    let m0 := writeHeader s.hdr x.h m
    match engineLane m c.part x.h.engine with
    | none => collErr .collectionHeader
    | some k =>
      match (if (m.wg c.wg).status = .absent ∨ (m.wg c.wg).status = .ended then none else pickFrom m (freeCursors (m.elane k))) with
      | none => .ok ⟨m0, 1, 0xFFFFFFFF, none⟩
      | some e =>
        let gen := (Store.get default (m.elane k).cursors e : Cursor).gen
        let q : Cursor := ⟨true, gen, c.wg, s.hdr, c.arg.hdr.toNat, true, fld c.arg.a.toNat 0 64, fld c.arg.a.toNat 64 64, fld c.arg.a.toNat 0 64, 0, 0⟩
        .ok ⟨m0.useFree.modCursor k e fun _ => q, 1, x.h.engine * 2 ^ 24 + gen * 2 ^ 12 + e, none⟩

/-- The quad of END (spec 14 R278). -/
def endQuad : Nat := 0x80000000 * 2 ^ 32

/-- CNEXT (spec 13 R260, 14 R278). -/
def nextCmd (m : Mach) (c : CollCmd) : Except CollStop CollDone :=
  match liveCursor m c.part c.wg c.arg.hdr.toNat with
  | none => collErr .cursorInvalid
  | some (k, e, q) =>
    match sealOf m q.hdr with
    | none => collErr .cursorInvalid
    | some s =>
      match readColl m q.va s with
      | .error x => .error x
      | .ok x =>
        let m0 := writeHeader s.hdr x.h m
        match cursorStep x.elems q.hi q.key q.pay q.copies with
        | none => .ok ⟨m0, 4, endQuad, none⟩
        | some (y, key, pay, j) => .ok ⟨m0.modCursor k e fun q => { q with key := key, pay := pay, copies := j }, 4, evictForm y, none⟩

/-- CCLOSE (spec 14 R278). -/
def closeCmd (m : Mach) (c : CollCmd) : Except CollStop CollDone :=
  match liveCursor m c.part c.wg c.arg.hdr.toNat with
  | none => collErr .cursorInvalid
  | some (k, e, _) => .ok ⟨m.modCursor k e closeCursor, 0, 0, none⟩

/-! ## CINIT -/

/-- A rule-book build in progress reads the collection (spec 14 R280). -/
def buildReads (m : Mach) (pa : Nat) : Bool :=
  m.elanes.any fun e => match e.2.busy with
    | some c => (match c.op with | .nbr _ => decide (fld c.arg.a.toNat 0 64 = pa) || decide (fld c.arg.a.toNat 64 64 = pa) | _ => false)
    | none => false

/-- A collection is no longer sealed. -/
def dropSeal (pa : Nat) (m : Mach) : Mach := { m with sealed_ := m.sealed_.filter fun s => decide (s.hdr ≠ pa) }

/-- The collection at a header is served by another partition's engine lane (spec 14 R269). -/
def sealedByOther (m : Mach) (c : CollCmd) (pa : Nat) : Bool := (sealOf m pa).any fun s => decide (s.part ≠ c.part)

/-- CINIT.rel (spec 14 R273). -/
def releaseCmd (m : Mach) (c : CollCmd) : Except CollStop CollDone :=
  match headerPa m c c.arg.hdr.toNat with
  | .error e => .error e
  | .ok pa =>
    match readHeader m c.arg.hdr.toNat pa with
    | .error e => .error e
    | .ok h =>
      if h.initialised = false then .ok ⟨writeHeader pa h m, 1, statusWord .unchanged 0, none⟩
      else if (engineLane m c.part h.engine).isNone || sealedByOther m c pa then collErr .collectionHeader
      else if buildReads m pa then .error .wait
      else .ok ⟨dropSeal pa (voidCursors pa (writeHeader pa { h with state := 0 } m)), 1, statusWord .ok 0, none⟩

/-- The header of a collection that has just been initialised (spec 14 R273). -/
def Header.fresh (h : Header) (e : Nat) : Header :=
  { h with count := 0, occ := 0, rejected := 0, evicted := 0, gen := (h.gen + 1) % 2 ^ 64, used := 0, dused := 0, free := 0, state := 1 + 16 * e }

/-- The free list of all pool segments: only the link words are written (spec 14 R273). -/
def buildFree (s : Sealed) (h : Header) (m : Mach) : Mach :=
  (List.range h.nsegs).foldl (fun acc k => engUpdate (segPa s h k + 0xC) (leBytes 4 (if k + 1 = h.nsegs then noSeg else k + 1)) acc) m

/-- CINIT (spec 13 R251 to R253, 14 R269, R273). -/
def initCmd (m : Mach) (c : CollCmd) (e : Nat) : Except CollStop CollDone :=
  let va := c.arg.hdr.toNat
  if (engineLane m c.part e).isNone then collErr .collectionHeader
  else
    match headerPa m c va with
    | .error x => .error x
    | .ok pa =>
      match readHeader m va pa with
      | .error x => .error x
      | .ok h =>
        if (h.initialised && (decide (h.engine ≠ e) || sealedByOther m c pa)) || !(h.ok va) then collErr .collectionHeader
        else
          match piecesOf m c.site c.part c.ctx ((h.spans va).flatMap fun r => cutSpan (r.2 / 65536 + 2) r.1 r.2) with
          | .error x => .error x
          | .ok ps =>
            if piecesTaken m pa ps then .error (.fault .accessTableDeny va 0)
            else if buildReads m pa then .error .wait
            else
              let s : Sealed := ⟨pa, c.part, ps⟩
              let m1 := dropSeal pa (voidCursors pa m)
              .ok ⟨writeHeader pa (h.fresh e) (buildFree s h { m1 with sealed_ := m1.sealed_ ++ [s] }), 1, statusWord .ok 0, none⟩

/-! ## CNBR -/

/-- What CNBR reads: the two collections, the stencil, the book's address and capacity (spec 14 R281). -/
structure NbrArgs where
  ins : Sealed × Coll
  outs : Sealed × Coll
  stencil : List Nat
  book : Nat
  cap : Nat
  deriving DecidableEq, Repr, Inhabited

/-- A header address that may be used (spec 14 R268, R281). -/
def hdrOk (a : Nat) : Bool := decide (a % 256 = 0) && decide (a < 2 ^ 52)

/-- The descriptor, the collections and the stencil of CNBR, and its refusals (spec 14 R269, R281). -/
def nbrArgs (m : Mach) (c : CollCmd) (n : Nat) : Except CollStop NbrArgs :=
  let va := c.arg.hdr.toNat
  if va % 64 ≠ 0 then collErr .collectionHeader
  else
    match engLoad m c.site c.part c.ctx va 64 with
    | .error e => .error e
    | .ok bs =>
      let f := fieldAt bs
      if f 0x24 28 ≠ 0 ∨ hdrOk (f 0 8) = false ∨ hdrOk (f 8 8) = false ∨ f 0x10 8 % 4 ≠ 0 ∨ f 0x18 8 % 16 ≠ 0 then collErr .collectionHeader
      else
        match engWords m c.site c.part c.ctx (f 0x10 8) n, collAt m c (f 0 8), collAt m c (f 8 8) with
        | .error e, _, _ => .error e
        | _, .error e, _ => .error e
        | _, _, .error e => .error e
        | .ok st, .ok i, .ok o =>
          if i.2.h.plain || o.2.h.plain || st.any (fun s => decide (fld s 24 8 ≠ 0)) then collErr .collectionHeader
          else if !i.2.h.frozen || !o.2.h.frozen then collErr .collectionFrozen
          else .ok ⟨i, o, st, f 0x18 8, f 0x20 4⟩

/-- The words of a rule book (spec 13 R264, 14 R282). -/
def bookWords (gi go n : Nat) (ts : List (Nat × Nat × Nat)) : List Nat :=
  [n % 2 ^ 32, n / 2 ^ 32 % 2 ^ 32, gi % 2 ^ 32, go % 2 ^ 32] ++ ts.flatMap fun t => [t.1, t.2.1, t.2.2]

/-- CNBR (spec 14 R282). -/
def nbrCmd (m : Mach) (c : CollCmd) (n : Nat) : Except CollStop CollDone :=
  match nbrArgs m c n with
  | .error e => .error e
  | .ok x =>
    let ts := ruleBook x.ins.2.elems x.outs.2.elems (x.stencil.map (BitVec.ofNat 32))
    let full := decide (x.cap < ts.length)
    match engPlaces m c.site c.part c.ctx x.book (bookWords x.ins.2.h.gen x.outs.2.h.gen ts.length (if full then [] else ts)) with
    | .error e => .error e
    | .ok ps => .ok ⟨engPutWords ps m, 2, statusWord (if full then .full else .ok) 0 + 2 ^ 32 * min ts.length 0xFFFFFFFF, none⟩

/-! ## CMRG -/

/-- A MERGE_LENGTH that is found when the command is performed (spec 14 R283). -/
def mergeErr {α : Type} (info : Nat) : Except CollStop α := .error (.fault .mergeLength 0 info)

/-- The places of an output's elements. -/
def mergePlaces (m : Mach) (c : CollCmd) (oi ov : Nat) (es : List (Nat × Nat)) : Except CollStop (List (Nat × Nat)) :=
  match engPlaces m c.site c.part c.ctx oi (es.map (·.1)), engPlaces m c.site c.part c.ctx ov (es.map (·.2)) with
  | .error e, _ => .error e
  | _, .error e => .error e
  | .ok ps, .ok qs => .ok (ps ++ qs)

/-- CMRG (spec 14 R283, R284). -/
def mergeCmd (m : Mach) (c : CollCmd) (i32 keepz : Bool) : Except CollStop CollDone :=
  let va := c.arg.hdr.toNat
  let na := fld c.arg.d.toNat 0 32
  let nb := fld c.arg.d.toNat 32 32
  if va % 64 ≠ 0 then mergeErr 0
  else
    match engLoad m c.site c.part c.ctx va 64 with
    | .error e => .error e
    | .ok bs =>
      let f := fun k => fieldAt bs (8 * k) 8
      let cap := fieldAt bs 0x30 4
      let ins := [(f 0, 4 * na), (f 1, 4 * na), (f 2, 4 * nb), (f 3, 4 * nb)]
      let outs := [(f 4, 4 * cap), (f 5, 4 * cap)]
      if fieldAt bs 0x34 12 ≠ 0 ∨ ((List.range 6).any fun k => decide (f k % 4 ≠ 0)) = true ∨
          (outs.any fun o => ins.any fun i => decide (0 < o.2) && decide (0 < i.2) && spansMeet o.1 o.2 i.1 i.2) = true then mergeErr 0
      else
        match engWords m c.site c.part c.ctx (f 0) na, engWords m c.site c.part c.ctx (f 1) na, engWords m c.site c.part c.ctx (f 2) nb, engWords m c.site c.part c.ctx (f 3) nb with
        | .error e, _, _, _ => .error e
        | _, .error e, _, _ => .error e
        | _, _, .error e, _ => .error e
        | _, _, _, .error e => .error e
        | .ok ai, .ok av, .ok bi, .ok bv =>
          match notRising 0 ai, notRising 0 bi with
          | some k, _ => mergeErr (k + 1)
          | none, some k => mergeErr (k + 1 + 2 ^ 30)
          | none, none =>
            let es := mergeRuns i32 keepz (na + nb) (ai.zip av) (bi.zip bv)
            match mergePlaces m c (f 4) (f 5) (es.take cap) with
            | .error e => .error e
            | .ok ps => .ok ⟨engPutWords ps m, 2, statusWord (if es.length ≤ cap then .ok else .full) 0 + 2 ^ 32 * es.length, none⟩

/-! ## Ranges of a command in deterministic mode -/

/-- The ranges of a collection, as far as its header can be read. -/
def headerSpans (m : Mach) (k : Site) (p c va : Nat) : List (Nat × Nat) :=
  match peekHeader m k p c va with
  | some h => h.spans va
  | none => [(va, 256)]

/-- The ranges of a command's collections and outputs, for a workgroup (spec 19 R353, R365). -/
def collSpans (m : Mach) (w : Nat) (op : CollOp) (hdr : DWord) : List (Nat × Nat) :=
  let x := m.wg w
  let f := fun off n => peekField m (wgSite m w) x.part x.ctx hdr off n
  let hs := fun va => headerSpans m (wgSite m w) x.part x.ctx va
  match op with
  | .next | .close => match liveCursor m x.part w hdr.toNat with | some q => hs q.2.2.va | none => []
  | .nbr _ => hs (f 0 8) ++ hs (f 8 8) ++ [(f 0x18 8, 16 + 12 * f 0x20 4)]
  | .mrg _ _ => [(f 0x20 8, 4 * f 0x30 4), (f 0x28 8, 4 * f 0x30 4)]
  | _ => hs hdr.toNat

/-- The cause with which the ownership or region table denies a range (spec 19 R353, R363). -/
def spansDenied (m : Mach) (w : Nat) (rs : List (Nat × Nat)) : Option Cause := rs.findSome? fun r => engineTurn m w .coll false r.1 r.2

/-- A command is denied: at issue, or at its replay. -/
def collDenied (m : Mach) (c : CollCmd) : Option Cause :=
  c.arg.deny <|> (if c.arg.again then spansDenied m c.wg (collSpans m c.wg c.op c.arg.hdr) else none)

/-! ## Performing -/

/-- A command takes effect, faults, or waits (spec 14 R269). -/
def collPerform (m : Mach) (c : CollCmd) : Except CollStop CollDone :=
  match collDenied m c with
  | some e => .error (.fault e c.arg.hdr.toNat 0)
  | none =>
    match c.op with
    | .ins | .rem | .move => onColl m c (elemCmd c)
    | .open_ => openCmd m c
    | .next => nextCmd m c
    | .close => closeCmd m c
    | .count k => onColl m c fun x => .ok (x, 4, countCmd k x, none)
    | .freeze => onColl m c fun x => .ok (freezeCmd true x)
    | .thaw => onColl m c fun x => .ok (freezeCmd false x)
    | .nbr n => nbrCmd m c n
    | .mrg i32 keepz => mergeCmd m c i32 keepz
    | .init e => initCmd m c e
    | .release => releaseCmd m c

/-- Causes whose %trapinfo follows the access rule (spec 14 R268, R269, R283, 20 R370). -/
def collInfo (m : Mach) (fs : List CollFault) : DWord :=
  match fs with
  | [] => 0
  | f :: _ =>
    if f.cause = .mergeLength then BitVec.ofNat 64 ((maskOf (fs.map (·.lane))).toNat + 2 ^ 32 * f.info)
    else if memoryCause f.cause then laneInfo (fs.map fun e => (e.lane, e.addr.toNat))
    else infoLow m (maskOf (fs.map (·.lane)))

/-- The fault that is reported next: the lowest cause code, the lanes with it (spec 14 R269). -/
def collFail (m : Mach) (fs : List CollFault) : Option Fail :=
  match fs with
  | [] => none
  | f :: _ =>
    let code := fs.foldl (fun acc e => min acc (causeCode e.cause)) (causeCode f.cause)
    let gs := sortBy (fun a b => decide (a.lane ≤ b.lane)) (fs.filter fun e => decide (causeCode e.cause = code))
    some ⟨causeOfCode code, maskOf (gs.map (·.lane)), ((gs.head?).map (·.addr)).getD 0, collInfo m gs⟩

/-- A lane's command has completed: its results land; the last one lowers the count, or its instruction faults; either way the group's threads see what the engine
has written (spec 10 R189, 14 R266, R269, R270). -/
def collLand (c : CollCmd) (dn dv : Nat) (av : Option Nat) (flt : List CollFault) (m : Mach) : Mach :=
  match findOut m c.wg c.grp c.id with
  | none => m
  | some o =>
    match o.kind with
    | .coll op d a lanes left faults =>
      let ws := regWritesOf d.toNat dn c.arg.lane dv ++ (match av with | some v => regWritesOf a.toNat 4 c.arg.lane v | none => [])
      let left1 := left.filter fun l => decide (l ≠ c.arg.lane)
      let fs := faults ++ flt
      let m1 := landWrites c.wg c.grp c.id ws m
      if left1 ≠ [] then setOut c.wg c.grp c.id (.coll op d a lanes left1 fs) m1
      else
        match collFail m fs with
        | none => landOut c.wg c.grp c.id [] (dropCache (m1.wg c.wg).core m1)
        | some f => failOut c.wg c.grp c.id f (setOut c.wg c.grp c.id (.coll op d a lanes [] fs) (dropCache (m1.wg c.wg).core m1))
    | _ => m

/-- The outcome of a command. -/
def collFinish (c : CollCmd) (r : Except CollStop CollDone) (m : Mach) : Mach :=
  match r with
  | .ok d => collLand c d.dn d.dv d.av [] d.m
  | .error (.fault e addr info) => collLand c 0 0 none [⟨c.arg.lane, e, BitVec.ofNat 64 addr, info⟩] m
  | .error .wait => m

/-- A command leaves its queue. -/
def ELane.take (c : CollCmd) (x : ELane) : ELane :=
  { x with queue := x.queue.filter fun e => !(decide (e.id = c.id) && decide (e.arg.lane = c.arg.lane)) }

/-- Lanes of a collection instruction whose commands have not completed. -/
def collLeft (k : OutKind) : List Nat :=
  match k with
  | .coll _ _ _ _ left _ => left
  | _ => []

/-- Commands of a group that come before a command: of an earlier instruction, or of a lower lane (spec 13 R257). -/
def collBefore (m : Mach) (c : CollCmd) : Bool :=
  ((m.grp c.wg c.grp).outs.any fun f => f.fail.isNone && (collLeft f.kind).any fun l => decide (f.id < c.id) || (decide (f.id = c.id) && decide (l < c.arg.lane))) ||
    m.elanes.any fun e => (e.2.queue ++ e.2.busy.toList).any fun f =>
      decide (f.wg = c.wg) && decide (f.grp = c.grp) && (decide (f.id < c.id) || (decide (f.id = c.id) && decide (f.arg.lane < c.arg.lane)))

/-- A command may start: in its group's order, after the group's earlier accesses, in its workgroup's turn (spec 13 R257, 14 R270, 19 R353). -/
def collReady (m : Mach) (c : CollCmd) : Bool := !(groupBusy m c.wg c.grp c.id) && !(collBefore m c) && (!c.shared || holdsTurn m c.wg)

/-- A thaw that has to wait for a build (spec 14 R280). -/
def thawWaits (m : Mach) (c : CollCmd) : Bool :=
  match collAt m c c.arg.hdr.toNat with
  | .ok (s, x) => x.h.frozen && buildReads m s.hdr
  | .error _ => false

/-- A build as its engine lane holds it: with the physical addresses of the headers it reads. -/
def buildCmd (c : CollCmd) (x : NbrArgs) : CollCmd := { c with arg := { c.arg with a := BitVec.ofNat 128 (x.ins.1.hdr + 2 ^ 64 * x.outs.1.hdr) } }

/-- A command is tried: none where it has to wait. -/
def collTry (k : Nat) (m : Mach) (c : CollCmd) : Option Mach :=
  if collReady m c = false then none
  else
    let m1 := m.modLane k (ELane.take c)
    match c.op, collDenied m c with
    | .nbr n, none =>
      match nbrArgs m1 c n with
      | .ok x => some (m1.modLane k fun e => { e with busy := some (buildCmd c x) })
      | .error .wait => none
      | .error f => some (collFinish c (.error f) m1)
    | _, _ =>
      if decide (c.op = .thaw) && thawWaits m c then some (m1.modLane k fun e => { e with busy := some c })
      else
        match collPerform m1 c with
        | .error .wait => none
        | r => some (collFinish c r (touchTlb c.site c.part c.ctx c.arg.hdr.toNat m1))

/-- A build completes, or waits. -/
def buildDone (k : Nat) (c : CollCmd) (m : Mach) : Mach :=
  match c.op, collPerform m c with
  | .nbr _, .error .wait => m
  | .nbr _, r =>
    match r with
    | .ok d => collFinish c (.ok { d with m := d.m.modLane k fun e => { e with busy := none } }) m
    | f => collFinish c f (m.modLane k fun e => { e with busy := none })
  | _, _ => m

/-- The lanes of a collection instruction that have not been handed to an engine lane. -/
def collWaiting (k : OutKind) : List CollLane :=
  match k with
  | .coll _ _ _ lanes left _ => lanes.filter fun a => decide (a.route = unrouted) && left.contains a.lane
  | _ => []

/-- A command that waits outside the queues is to be handed over: its workgroup's turn has come, the group's earlier accesses are performed, its header's locations
are not to be read again (spec 10 R190, 14 R266, R270, 19 R355). -/
def collHandsOver (m : Mach) (e : CoreOut) (a : CollLane) : Bool :=
  (!e.o.shared || holdsTurn m e.w) && !(groupBusy m e.w e.g e.o.id) &&
    !(match translate m (wgSite m e.w) (m.wg e.w).part (m.wg e.w).ctx a.hdr.toNat .read with
      | .ok x => paLocal x.pa && failingSpan m x.pa 256
      | .error _ => false)

/-- A command enters the queue of its engine lane. -/
def collEnter (k : Nat) (e : CoreOut) (a : CollLane) (m : Mach) : Mach :=
  match e.o.kind with
  | .coll op _ _ _ _ _ =>
    let put := fun (q : CollLane) => if q.lane = a.lane then { q with route := k } else q
    (queueColl e.w e.g e.o op [{ a with route := k }] m).modG e.w e.g fun y =>
      { y with outs := y.outs.map fun o => match o.kind with
          | .coll op d r lanes left fs => if o.id = e.o.id then { o with kind := .coll op d r (lanes.map put) left fs } else o
          | _ => o }
  | _ => m

/-- Commands that wait outside the queues enter the queue of an engine lane they belong to, in issue order and ascending lane order, while it has room (spec 14 R266,
log 107). -/
def collAdmit (k : Nat) (m : Mach) : Mach :=
  ((sortOuts (allOuts m)).filter fun e => e.o.fail.isNone).foldl (fun acc e =>
    match e.o.kind with
    | .coll op _ _ _ _ _ =>
      (collWaiting e.o.kind).foldl (fun acc a =>
        if collHandsOver acc e a && decide (routeOf acc e.w e.g e.o.id op a.hdr = k) && decide ((acc.elane k).queue.length < 64) then collEnter k e a acc else acc) acc
    | _ => acc) m

/-- The engine lanes that a pending instruction's waiting commands belong to. -/
def collTargets (m : Mach) (e : CoreOut) : List Nat :=
  match e.o.kind with
  | .coll op _ _ _ _ _ => (collWaiting e.o.kind).map fun a => routeOf m e.w e.g e.o.id op a.hdr
  | _ => []

/-- COLLECTION_COMMAND_EXECUTE: commands that wait outside enter the queue; a rule-book build that has started is finished, or the oldest command of the engine lane
that may start is performed (spec 14 R265, R266, R282). -/
def collExecute (e l : Nat) (mi : Mach) : Mach :=
  let k := 16 * e + l
  let m := collAdmit k mi
  match (m.elane k).busy with
  | some c => buildDone k c m
  | none => ((m.elane k).queue.findSome? (collTry k m)).getD m

/-- COLLECTION_COMMAND_EXECUTE. -/
def execCollectionCommandExecute (engine lane : Nat) (s : State) : Host.Outcome State Fault Refusal := eventStep (collExecute engine lane) s

/-- CTHAW_COMPLETE: a thaw that waits takes effect when no build reads its collection any longer (spec 14 R280). -/
def thawComplete (e l : Nat) (m : Mach) : Mach :=
  let k := 16 * e + l
  match (m.elane k).busy with
  | some c =>
    if decide (c.op = .thaw) && !(thawWaits m c) then
      match collPerform (m.modLane k fun e => { e with busy := none }) c with
      | .error .wait => m
      | r => collFinish c r (m.modLane k fun e => { e with busy := none })
    else m
  | none => m

/-- CTHAW_COMPLETE. -/
def execCthawComplete (engine lane : Nat) (s : State) : Host.Outcome State Fault Refusal := eventStep (thawComplete engine lane) s

/-! ## Issue -/

/-- The command names a header (spec 14 R268). -/
def namesHeader : CollOp → Bool
  | .next | .close | .nbr _ | .mrg _ _ => false
  | _ => true

/-- A trap of lanes that break a condition (spec 14 R268). -/
def collTrap (c : Cause) (k : Mask) (m : Mach) : Option Own := if k = 0 then none else some (.trap c (infoLow m k) k 0)

/-- GAMBIT_FORBIDDEN of a collection instruction, with the lanes in its %trapinfo (spec 14 R268, 18 R344). -/
def collRegion (x : Iss) (m : Mach) : Own := .trap .gambitForbidden (infoLow m (regionMask x x.eff m)) (regionMask x x.eff m) 0

/-- The precise traps, in their order (spec 14 R268, R278, R283, 19 R357). -/
def collTraps (op : CollOp) (args : List CollLane) (x : Iss) (m : Mach) : Option Own :=
  let lanes := fun (f : CollLane → Bool) => maskOf ((args.filter f).map (·.lane))
  (collTrap .reservedField (lanes fun e => decide (op = .open_) && (e.a.getLsbD 63 || e.a.getLsbD 127)) m)
    <|> (collTrap .collectionHeader (lanes fun e => namesHeader op && !(hdrOk e.hdr.toNat)) m)
    <|> (collTrap .mergeLength (lanes fun e =>
          (match op with | .mrg _ _ => true | _ => false) && (decide (2 ^ 24 < fld e.d.toNat 0 32) || decide (2 ^ 24 < fld e.d.toNat 32 32))) m)
    <|> (if inRegion x x.eff m then some (collRegion x m) else none)
    <|> (if args.any fun e => (collSpans m x.w op e.hdr).any fun r => engineLate m x.w false r.1 r.2
         then some (trapEff x .serialOrder m) else none)

/-- How many commands go to each engine lane (spec 14 R266). -/
def collNeeds (args : List CollLane) : List (Nat × Nat) :=
  (((args.map (·.route)).filter fun r => decide (r ≠ unrouted)).eraseDups).map fun r => (r, (args.filter fun f => decide (f.route = r)).length)

/-- A collection instruction at issue (spec 14 R266, R268); before its workgroup's turn its commands stay in the turn buffer (19 R355). -/
def collOwn (i : Instr) (op : CollOp) (d a : Reg) (arg : Group → Nat → DWord × BitVec 128 × BitVec 128) (cost : List CollLane → Nat) (x : Iss) (m : Mach) : Own :=
  let y := m.grp x.w x.g
  let hdrs := (lanesOf x.eff).map fun l => (arg y l).1
  let sh := isDet m x.w && hdrs.any fun hdr => (collSpans m x.w op hdr).any fun r => !(ownedBySelf m x.w false r.1 r.2)
  let route := fun hdr => if sh && !(holdsTurn m x.w) then unrouted else (routeNow m x.w x.g m.nextCmd op hdr).getD unrouted
  let args : List CollLane := (lanesOf x.eff).map fun l =>
    let r := arg y l
    ⟨l, r.1, r.2.1, r.2.2, route r.1, if isDet m x.w then spansDenied m x.w (collSpans m x.w op r.1) else none, false⟩
  if args = [] then .done (cost []) m
  else
    match collTraps op args x m with
    | some t => t
    | none =>
      if sh && turnFull m x.w args.length then .hold (.turn args.length)
      else if !(lanesRoom m (collNeeds args)) then .hold (.lanes (collNeeds args))
      else
        let o : Out := ⟨m.nextCmd, 5, x.rec_, .none, none, [], [], sh, 0, serialInterval y⟩
        .done (cost args) (queueColl x.w x.g o op (args.filter fun e => decide (e.route ≠ unrouted))
          (handOn i x (waitClass i) (.coll op d a args (args.map (·.lane)) []) sh m))

/-- CINS (spec 14 R274, R275). -/
def execCins (d a b : Reg) (g : Guard) (s : State) : Host.Outcome State Fault Refusal :=
  execute (.cins d a b g) (collOwn (.cins d a b g) .ins d a (fun y l => (y.pair b.toNat l, y.quad a.toNat l, 0)) fun _ => 1) s

/-- CREM (spec 14 R274, R275). -/
def execCrem (d a b : Reg) (g : Guard) (s : State) : Host.Outcome State Fault Refusal :=
  execute (.crem d a b g) (collOwn (.crem d a b g) .rem d a (fun y l => (y.pair b.toNat l, y.quad a.toNat l, 0)) fun _ => 1) s

/-- CMOVE (spec 14 R276). -/
def execCmove (d a b : Reg) (g : Guard) (s : State) : Host.Outcome State Fault Refusal :=
  execute (.cmove d a b g) (collOwn (.cmove d a b g) .move d a (fun y l => (y.pair b.toNat l, y.quad a.toNat l, y.quad d.toNat l)) fun _ => 2) s

/-- COPEN (spec 14 R278). -/
def execCopen (d a b : Reg) (g : Guard) (s : State) : Host.Outcome State Fault Refusal :=
  execute (.copen d a b g) (collOwn (.copen d a b g) .open_ d a (fun y l => (y.pair b.toNat l, y.quad a.toNat l, 0)) fun _ => 1) s

/-- CNEXT (spec 14 R278). -/
def execCnext (d a : Reg) (g : Guard) (s : State) : Host.Outcome State Fault Refusal :=
  execute (.cnext d a g) (collOwn (.cnext d a g) .next d a (fun y l => ((y.reg a.toNat l).setWidth 64, 0, 0)) fun _ => 1) s

/-- CCLOSE (spec 14 R278). -/
def execCclose (a : Reg) (g : Guard) (s : State) : Host.Outcome State Fault Refusal :=
  execute (.cclose a g) (collOwn (.cclose a g) .close a a (fun y l => ((y.reg a.toNat l).setWidth 64, 0, 0)) fun _ => 0) s

/-- CCOUNT (spec 14 R279). -/
def execCcount (d : Reg) (which : BitVec 2) (b : Reg) (g : Guard) (s : State) : Host.Outcome State Fault Refusal :=
  execute (.ccount d which b g) (collOwn (.ccount d which b g) (.count which.toNat) d b (fun y l => (y.pair b.toNat l, 0, 0)) fun _ => 1) s

/-- CFREEZE (spec 14 R280). -/
def execCfreeze (d b : Reg) (g : Guard) (s : State) : Host.Outcome State Fault Refusal :=
  execute (.cfreeze d b g) (collOwn (.cfreeze d b g) .freeze d b (fun y l => (y.pair b.toNat l, 0, 0)) fun _ => 8) s

/-- CTHAW (spec 14 R280). -/
def execCthaw (d b : Reg) (g : Guard) (s : State) : Host.Outcome State Fault Refusal :=
  execute (.cthaw d b g) (collOwn (.cthaw d b g) .thaw d b (fun y l => (y.pair b.toNat l, 0, 0)) fun _ => 8) s

/-- CNBR (spec 14 R281, R282). -/
def execCnbr (d a : Reg) (cnt : BitVec 5) (g : Guard) (s : State) : Host.Outcome State Fault Refusal :=
  execute (.cnbr d a cnt g) (collOwn (.cnbr d a cnt g) (.nbr cnt.toNat) d a (fun y l => (y.pair a.toNat l, 0, 0)) fun _ => 16) s

/-- The sectors of CMRG's charge: eight bytes for each element of the lanes' runs (spec 14 R284, 05 R87). -/
def mergeCost (args : List CollLane) : Nat :=
  (8 * args.foldl (fun acc e => acc + fld e.d.toNat 0 32 + fld e.d.toNat 32 32) 0 + 31) / 32

/-- CMRG (spec 14 R283, R284). -/
def execCmrg (d a b : Reg) (i32 keepz : Bool) (g : Guard) (s : State) : Host.Outcome State Fault Refusal :=
  execute (.cmrg d a b i32 keepz g) (collOwn (.cmrg d a b i32 keepz g) (.mrg i32 keepz) d a (fun y l => (y.pair a.toNat l, 0, (y.pair b.toNat l).setWidth 128)) mergeCost) s

/-- CINIT (spec 14 R273). -/
def execCinit (d a : Reg) (eng : BitVec 4) (g : Guard) (s : State) : Host.Outcome State Fault Refusal :=
  execute (.cinit d a eng g) (collOwn (.cinit d a eng g) (.init eng.toNat) d a (fun y l => (y.pair a.toNat l, 0, 0)) fun _ => 8) s

/-- CINIT.rel (spec 14 R273). -/
def execCinitRel (d a : Reg) (g : Guard) (s : State) : Host.Outcome State Fault Refusal :=
  execute (.cinitRel d a g) (collOwn (.cinitRel d a g) .release d a (fun y l => (y.pair a.toNat l, 0, 0)) fun _ => 8) s

end Sys2Proof.Machine
end

