-- ==== Sys2Proof/Machine/Knight.lean ====
section
/-! DEFINITION. The Knight: KTRAV and KSTAT, the descent, the record queue, how a traversal ends (spec 15 R285 to R297). -/

namespace Sys2Proof.Machine

/-! ## Boxes and references -/

/-- A reference as it is read: its box in the order of R285, its child word. -/
structure KRef where
  box : List Nat
  word : Nat
  deriving DecidableEq, Repr, Inhabited

/-- The code of a tree's root (spec 15 R286). -/
def rootCode : Nat := 0xFFFFFFFF

/-- The word names a leaf. -/
def KRef.leaf (r : KRef) : Bool := decide (fld r.word 31 1 = 1)

/-- The index of a node or the id of a leaf. -/
def KRef.idx (r : KRef) : Nat := fld r.word 0 31

/-- A corner of a box. -/
def KRef.at_ (r : KRef) (k : Nat) : Nat := r.box.getD k 0

/-- An empty box: a minimum exceeds its maximum (spec 15 R285). -/
def KRef.empty (r : KRef) : Bool := (List.range 3).any fun k => (fp32.compare .gt (r.at_ k) (r.at_ (k + 3))).1

/-- Two boxes overlap (spec 15 R288). -/
def kOverlap (a b : KRef) : Bool :=
  !a.empty && !b.empty && (List.range 3).all fun k => (fp32.compare .le (a.at_ k) (b.at_ (k + 3))).1 && (fp32.compare .le (b.at_ k) (a.at_ (k + 3))).1

/-- The area of a box; a NaN counts as +Inf (spec 15 R288). -/
def kArea (r : KRef) : Nat :=
  let d := fun k => (fp32.sub .rne (r.at_ (k + 3)) (r.at_ k)).val
  let mul := fun x y => (fp32.mul .rne x y).val
  let add := fun x y => (fp32.add .rne x y).val
  let v := add (add (mul (d 0) (d 1)) (mul (d 1) (d 2))) (mul (d 2) (d 0))
  if fp32.isNan v then 0x7F800000 else v

/-- A fault that names a reference code (spec 15 R296). -/
def kErr {α : Type} (code : Nat) : Except CollStop α := .error (.fault .knightNode 0 code)

/-- Where a traversal's Knight stands. -/
def kSite (m : Mach) (c : KCmd) : Site := .cluster (clusterOf m c.wg)

/-- The traversal descriptor's bytes (spec 15 R287). -/
def kDesc (m : Mach) (c : KCmd) : Except CollStop (List Byte) := engLoad m (kSite m c) c.part c.ctx c.desc.toNat 128

/-- A reference of a tree, A or B, read when it is needed (spec 15 R286, R289, R296). -/
def kRef (m : Mach) (c : KCmd) (d : List Byte) (b : Bool) (code : Nat) : Except CollStop KRef :=
  let mk := fun (bs : List Byte) (w : Nat) =>
    let r : KRef := ⟨(List.range 6).map fun k => fieldAt bs (4 * k) 4, w⟩
    if r.box.any fp32.isNan then kErr code else .ok r
  if code = rootCode then mk (d.drop (if b then 0x38 else 0x20)) (fieldAt d (if b then 0x14 else 0x10) 4)
  else
    let a := fieldAt d (if b then 8 else 0) 8 + 64 * (code / 2)
    if 2 ^ 52 ≤ a then kErr code
    else
      match engLoad m (kSite m c) c.part c.ctx a 64 with
      | .error e => .error e
      | .ok bs => mk (bs.drop (24 * (code % 2))) (fieldAt bs (0x30 + 4 * (code % 2)) 4)

/-- The codes of the children of an internal reference: left and right (spec 15 R286, R296). -/
def kKids (d : List Byte) (b : Bool) (code : Nat) (r : KRef) : Except CollStop (Nat × Nat) :=
  if r.idx = 0x7FFFFFFF ∨ 2 ^ 52 ≤ fieldAt d (if b then 8 else 0) 8 + 64 * r.idx then kErr code else .ok (2 * r.idx, 2 * r.idx + 1)

/-- What a pair comes to: pairs pushed, in their order, or a record of two leaf ids (spec 15 R289). -/
inductive KAct where
  | push (ps : List (Nat × Nat))
  | emit (a b : Nat)
  deriving DecidableEq, Repr, Inhabited

/-- One pair of the descent (spec 15 R289). -/
def kPair (m : Mach) (c : KCmd) (d : List Byte) (a b : Nat) : Except CollStop KAct :=
  let tb := !c.self
  match kRef m c d false a, kRef m c d tb b with
  | .error e, _ => .error e
  | _, .error e => .error e
  | .ok ra, .ok rb =>
    if kOverlap ra rb = false then .ok (.push [])
    else if c.self ∧ a = b then
      if ra.leaf then .ok (.push [])
      else
        match kKids d false a ra with
        | .error e => .error e
        | .ok (l, r) => .ok (.push [(r, r), (l, r), (l, l)])
    else if ra.leaf && rb.leaf then .ok (.emit ra.idx rb.idx)
    else if !ra.leaf && (rb.leaf || (fp32.compare .ge (kArea ra) (kArea rb)).1) then
      match kKids d false a ra with
      | .error e => .error e
      | .ok (l, r) => .ok (.push [(r, b), (l, b)])
    else
      match kKids d tb b rb with
      | .error e => .error e
      | .ok (l, r) => .ok (.push [(a, r), (a, l)])

/-! ## The record queue -/

/-- The address of a record (spec 15 R292). -/
def recordAt (r : KRun) (slot k : Nat) : Nat := r.ring + 16 * (r.batch * slot + k)

/-- The place of a slot's handle word. -/
def kSlotPa (m : Mach) (r : KRun) (i : Nat) : Option Nat :=
  match lookup m (kSite m r.cmd) r.cmd.part r.cmd.ctx (r.handles + 4 * i) with
  | .ok x => some x.pa
  | .error _ => none

/-- Another traversal, running or kept, is still filling the slot: records of two traversals never share one (spec 15 R293). -/
def kFilling (m : Mach) (r : KRun) (i : Nat) : Bool :=
  m.clusters.any fun e => (e.2.krun.toList ++ e.2.kept).any fun q =>
    decide (q.cmd.id ≠ r.cmd.id) && q.slot.any fun s => (kSlotPa m q s.1).isSome && decide (kSlotPa m q s.1 = kSlotPa m r i)

/-- The slot that is claimed next, where it is free; none where it is not (spec 15 R293). -/
def kClaim (m : Mach) (r : KRun) : Except CollStop (Option (Nat × Nat)) :=
  let c := r.cmd
  match engLoad m (kSite m c) c.part c.ctx (c.queue.toNat + 0x18) 8 with
  | .error e => .error e
  | .ok bs =>
    let n := leNat bs
    let i := n % r.slots
    match engLoad m (kSite m c) c.part c.ctx (r.handles + 4 * i) 4 with
    | .error e => .error e
    | .ok hw =>
      match liveNode m c.part c.ctx (BitVec.ofNat 32 (leNat hw)) with
      | none => .ok none
      | some k =>
        match engLoad m (kSite m c) c.part c.ctx ((Store.get default (m.part c.part).nodes k : Node).block.toNat + 0x50) 4 with
        | .error e => .error e
        | .ok st => if (leNat st = 0 ∨ leNat st = 3 ∨ leNat st = 4) ∧ kFilling m r i = false then .ok (some (i, n)) else .ok none

/-- The handle word of a slot: its content and its place. -/
def kHandle (m : Mach) (r : KRun) (i : Nat) : Except CollStop (Nat × Nat) :=
  match engLoad m (kSite m r.cmd) r.cmd.part r.cmd.ctx (r.handles + 4 * i) 4, engPlace m (kSite m r.cmd) r.cmd.part r.cmd.ctx (r.handles + 4 * i) with
  | .error e, _ => .error e
  | _, .error e => .error e
  | .ok bs, .ok pa => .ok (leNat bs, pa)

/-- A slot is signalled: the node's block is decremented, or the freed node reported; the handle word is cleared (spec 15 R293). -/
def kSignal (c : KCmd) (h : Nat × Nat) (m : Mach) : Mach :=
  let m1 := match liveNode m c.part c.ctx (BitVec.ofNat 32 h.1) with
    | some k => nodeDecrement c.part k 1 2 m
    | none => eventRecord c.part (BitVec.ofNat 64 h.1) .graphNode 5 0 m
  engWrite h.2 (leBytes 4 0xFFFFFFFF) m1

/-- The words of records. -/
def recordWords (a b q tag : Nat) : List Nat := [a, b, q, tag]

/-- A 64-bit field that an engine writes. -/
def engPlace8 (m : Mach) (k : Site) (p c va v : Nat) : Except CollStop (List (Nat × Nat)) := engPlaces m k p c va [v % 2 ^ 32, v / 2 ^ 32]

/-- What an emission comes to: no free slot, or the run and the machine after it. -/
inductive KEmit where
  | full
  | done (r : KRun) (m : Mach)
  deriving DecidableEq, Repr, Inhabited

/-- A record is written into the slot that is being filled, with the counts; a full slot is signalled (spec 15 R291, R293). -/
def kRecord (m : Mach) (r : KRun) (tag a b : Nat) (slot : Nat × Nat) (claim : List (Nat × Nat)) : Except CollStop KEmit :=
  let c := r.cmd
  let last := decide (slot.2 + 1 = r.batch)
  match engPlaces m (kSite m c) c.part c.ctx (recordAt r slot.1 slot.2) (recordWords a b (r.total % 2 ^ 32) tag), engLoad m (kSite m c) c.part c.ctx (c.queue.toNat + 0x20) 8,
    engPlace8 m (kSite m c) c.part c.ctx (c.desc.toNat + 0x60) (r.total + 1) with
  | .error e, _, _ => .error e
  | _, .error e, _ => .error e
  | _, _, .error e => .error e
  | .ok ps, .ok wr, .ok em =>
    match engPlace8 m (kSite m c) c.part c.ctx (c.queue.toNat + 0x20) ((leNat wr + 1) % 2 ^ 64), (if last then kHandle m r slot.1 else .ok (0, 0)) with
    | .error e, _ => .error e
    | _, .error e => .error e
    | .ok wp, .ok h =>
      let m1 := engPutWords (claim ++ ps ++ em ++ wp) m
      .ok (.done { r with stack := r.stack.drop 1, slot := if last then none else some (slot.1, slot.2 + 1), emitted := r.emitted + 1, total := r.total + 1 }
        (if last then kSignal c h m1 else m1))

/-- A pair is emitted: a slot is claimed where none is being filled (spec 15 R293, R294). -/
def kEmit (m : Mach) (r : KRun) (tag a b : Nat) : Except CollStop KEmit :=
  match r.slot with
  | some s => kRecord m r tag a b s []
  | none =>
    match kClaim m r with
    | .error e => .error e
    | .ok none => .ok .full
    | .ok (some (i, n)) =>
      match engPlace8 m (kSite m r.cmd) r.cmd.part r.cmd.ctx (r.cmd.queue.toNat + 0x18) ((n + 1) % 2 ^ 64) with
      | .error e => .error e
      | .ok ps => kRecord m r tag a b (i, 0) ps

/-! ## The traversal -/

/-- The lanes of a command's issue. -/
def kLanes (m : Mach) (c : KCmd) : Mask := ((((m.grp c.wg c.grp).outs.find? fun o => decide (o.id = c.id))).map fun o => o.irec.lanes).getD 0

/-- A fault as it is held with the command (spec 15 R296, 20 R370). -/
def kFail (m : Mach) (c : KCmd) (e : Cause) (addr code : Nat) : Fail :=
  let ls := kLanes m c
  if e = .knightNode ∨ e = .knightStack then ⟨e, ls, 0, infoLow m (BitVec.ofNat 32 code)⟩
  else ⟨e, ls, BitVec.ofNat 64 addr, groupInfo ls addr⟩

/-- One pair of the running traversal is taken from the stack (spec 15 R289, R290, R294, R296). -/
def kStep (cl : Nat) (r : KRun) (m : Mach) : Mach :=
  let put := fun (q : KRun) (m : Mach) => m.modCluster cl fun x => { x with krun := some q }
  let stop := fun (s : CollStop) => match s with
    | .wait => m
    | .fault e addr code => put { r with ends := some (.fault (kFail m r.cmd e addr code)) } m
  match r.stack with
  | [] => put { r with ends := some .done } m
  | (a, b) :: rest =>
    match kDesc m r.cmd with
    | .error s => stop s
    | .ok d =>
      match kPair m r.cmd d a b with
      | .error s => stop s
      | .ok (.push ps) => if 64 < rest.length + ps.length then stop (.fault .knightStack 0 a) else put { r with stack := ps.reverse ++ rest } m
      | .ok (.emit x y) =>
        match kEmit m r (fieldAt d 0x18 4) x y with
        | .error s => stop s
        | .ok .full => put { r with ends := some .full } m
        | .ok (.done r1 m1) => put r1 m1

/-! ## Start -/

/-- The checks of descriptor and queue before a traversal begins (spec 15 R292, R295, R296). -/
def kChecks (c : KCmd) (d q : List Byte) : Bool :=
  let st := fieldAt d 0x5C 4
  decide (fieldAt d 0x1C 4 = 0) && decide (fieldAt d 0x68 24 = 0) && decide (fieldAt q 0x28 24 = 0) && decide (1 ≤ fieldAt q 8 4) && decide (fieldAt q 8 4 ≤ 4096) &&
    decide (1 ≤ fieldAt q 0xC 4) && decide (fieldAt q 0xC 4 ≤ 64) && decide (fieldAt d 0 8 % 64 = 0) && (c.self || decide (fieldAt d 8 8 % 64 = 0)) &&
    decide (fieldAt d 0x50 8 % 64 = 0) && decide (fieldAt q 0 8 % 16 = 0) && decide (fieldAt q 0x10 8 % 4 = 0) && decide (fld st 2 1 = 0) &&
    (!c.resume || (decide (fld st 0 1 = 1) && decide (fld st 1 1 = c.self.toNat) && decide (fieldAt d 0x58 4 ≤ 64)))

/-- The cursor's entries, bottom first (spec 15 R294). -/
def kCursor (m : Mach) (c : KCmd) (a : Nat) : Nat → Except CollStop (List (Nat × Nat))
  | 0 => .ok []
  | n + 1 =>
    match engLoad m (kSite m c) c.part c.ctx a 8 with
    | .error e => .error e
    | .ok bs =>
      match kCursor m c (a + 8) n with
      | .error e => .error e
      | .ok es => .ok ((fieldAt bs 0 4, fieldAt bs 4 4) :: es)

/-- The ranges a traversal writes, as far as descriptor and queue can be read (spec 19 R353). -/
def kSpans (m : Mach) (w : Nat) (desc queue : DWord) : List (Nat × Nat) :=
  let f := fun a off n => peekField m (wgSite m w) (m.wg w).part (m.wg w).ctx a off n
  let q := fun off n => f queue off n
  [(desc.toNat, 128), (f desc 0x50 8, 512), (queue.toNat, 64), (q 0x10 8, 4 * q 0xC 4), (q 0 8, 16 * q 8 4 * q 0xC 4)]

/-- The cause with which the ownership or region table denies a traversal. -/
def kDenied (m : Mach) (c : KCmd) : Option Cause := c.deny <|> (if c.again then spansDenied m c.wg (kSpans m c.wg c.desc c.queue) else none)

/-- A traversal begins, or resumes: its run and the words that are written; faults of the first row of R296 come before it has begun (spec 15 R295). -/
def kBegin (m : Mach) (c : KCmd) : Except CollStop (KRun × List (Nat × Nat)) :=
  match kDenied m c with
  | some e => .error (.fault e c.desc.toNat 0)
  | none =>
    match kDesc m c, engLoad m (kSite m c) c.part c.ctx c.queue.toNat 64 with
    | .error e, _ => .error e
    | _, .error e => .error e
    | .ok d, .ok q =>
      if kChecks c d q = false then kErr rootCode
      else
        let st := fieldAt d 0x5C 4
        let st1 := if c.resume then st + 4 else fld st 0 1 + 2 * c.self.toNat + 4
        match (if c.resume then kCursor m c (fieldAt d 0x50 8) (fieldAt d 0x58 4) else .ok [(rootCode, rootCode)]),
          engPlaces m (kSite m c) c.part c.ctx (c.desc.toNat + 0x5C) (if c.resume then [st1] else [st1, 0, 0]) with
        | .error e, _ => .error e
        | _, .error e => .error e
        | .ok es, .ok ps =>
          .ok (⟨c, fieldAt q 0 8, fieldAt q 8 4, fieldAt q 0xC 4, fieldAt q 0x10 8, es.reverse, none, c.emitted, if c.resume then fieldAt d 0x60 8 else 0, none⟩, ps)

/-- A command of a group, in its KTRAV form, after a fault: what it goes on from (spec 15 R296). -/
def kHeld (resume : Bool) (n : Nat) (later : List Fail) (c : KCmd) (m : Mach) : Mach :=
  match findOut m c.wg c.grp c.id with
  | some o =>
    match o.kind with
    | .ktrav dst ls desc q self res _ _ => setOut c.wg c.grp c.id (.ktrav dst ls desc q self (resume || res) n later) m
    | _ => m
  | none => m

/-- A waiting command leaves the list. -/
def kTake (cl : Nat) (c : KCmd) (m : Mach) : Mach := m.modCluster cl fun x => { x with waiting := x.waiting.filter fun k => decide (k.id ≠ c.id) }

/-- A run that a Knight keeps for a command, in whichever cluster it was begun (spec 15 R296). -/
def keptRun (m : Mach) (id : Nat) : Option KRun := m.clusters.findSome? fun e => e.2.kept.find? fun k => decide (k.cmd.id = id)

/-- The oldest waiting command is tried: the traversal kept for it, or a new one; none where it has to wait (spec 15 R295, R296). -/
def kTry (cl : Nat) (m : Mach) (c : KCmd) : Option Mach :=
  if groupBusy m c.wg c.grp c.id || ((m.cluster cl).waiting.any fun k => decide (k.wg = c.wg) && decide (k.grp = c.grp) && decide (k.id < c.id)) then none
  else
    let m1 := kTake cl c m
    match keptRun m c.id with
    | some k =>
      some ((dropKept c.id m1).modCluster cl fun x => { x with
        krun := some { k with cmd := c, ends := if k.ends = some .done then some .done else some .again } })
    | none =>
      match kBegin m1 c with
      | .error .wait => none
      | .error (.fault e addr code) => some (failOut c.wg c.grp c.id (kFail m1 c e addr code) m1)
      | .ok (r, ps) => some ((engPutWords ps (touchTlb (kSite m c) c.part c.ctx c.desc.toNat m1)).modCluster cl fun x => { x with krun := some r })

/-- A waiting command takes its place in the order of starts: neither its turn nor a handler holds it back (spec 15 R295, 19 R355, log 111). -/
def kInOrder (m : Mach) (c : KCmd) : Bool := !(kLodged m c) && !(groupStuck m c.wg c.grp c.id)

/-- KNIGHT_TRAVERSAL: the oldest waiting traversal starts, or one pair of the running one is processed (spec 15 R289, R295). -/
def kTraverse (cl : Nat) (m : Mach) : Mach :=
  match (m.cluster cl).krun with
  | some r => if r.ends.isSome then m else kStep cl r m
  | none => (((m.cluster cl).waiting.find? (kInOrder m)).bind (kTry cl m)).getD m

/-- KNIGHT_TRAVERSAL. -/
def execKnightTraversal (cluster : Nat) (s : State) : Host.Outcome State Fault Refusal := eventStep (kTraverse cluster) s

/-! ## End -/

/-- A partly filled slot is filled up with end records and signalled (spec 15 R291, R293). -/
def kFlush (tag : Nat) (r : KRun) (m : Mach) : Except CollStop (KRun × Mach) :=
  match r.slot with
  | none => .ok (r, m)
  | some (i, n) =>
    let ws := (List.range (r.batch - n)).flatMap fun _ => recordWords 0xFFFFFFFF 0xFFFFFFFF 0xFFFFFFFF tag
    match engPlaces m (kSite m r.cmd) r.cmd.part r.cmd.ctx (recordAt r i n) ws, kHandle m r i with
    | .error e, _ => .error e
    | _, .error e => .error e
    | .ok ps, .ok h => .ok ({ r with slot := none }, kSignal r.cmd h (engPutWords ps m))

/-- The words of a cursor (spec 15 R294). -/
def cursorWords (es : List (Nat × Nat)) : List Nat := (es.flatMap fun e => [e.1, e.2]) ++ List.replicate (128 - 2 * es.length) 0

/-- The cursor, its depth and the state word are written (spec 15 R294). -/
def kSaveCursor (running : Bool) (a : Nat) (r : KRun) (m : Mach) : Except CollStop Mach :=
  let c := r.cmd
  match engPlaces m (kSite m c) c.part c.ctx a (cursorWords r.stack.reverse),
    engPlaces m (kSite m c) c.part c.ctx (c.desc.toNat + 0x58) [r.stack.length, 1 + 2 * c.self.toNat + 4 * running.toNat] with
  | .error e, _ => .error e
  | _, .error e => .error e
  | .ok ps, .ok qs => .ok (engPutWords (ps ++ qs) m)

/-- The state word of a traversal that is done (spec 15 R295). -/
def kClear (r : KRun) (m : Mach) : Except CollStop Mach :=
  match engPlaces m (kSite m r.cmd) r.cmd.part r.cmd.ctx (r.cmd.desc.toNat + 0x5C) [2 * r.cmd.self.toNat] with
  | .error e => .error e
  | .ok ps => .ok (engPutWords ps m)

/-- The writes with which a traversal ends: the flush, but for FULL; the cursor, but for DONE.  What has been written, and the first write that stopped. -/
def kWrites (e : KEnd) (r : KRun) (m : Mach) : (KRun × Mach) × Option CollStop :=
  match kDesc m r.cmd with
  | .error s => ((r, m), some s)
  | .ok d =>
    match kFlush (fieldAt d 0x18 4) r m with
    | .error s => ((r, m), some s)
    | .ok (r1, m1) =>
      match (if e = .done then kClear r1 m1 else kSaveCursor (decide (e = .again)) (fieldAt d 0x50 8) r1 m1) with
      | .error s => ((r1, m1), some s)
      | .ok m2 => ((r1, m2), none)

/-- The results of a traversal land (spec 15 R295). -/
def kReturn (v : Nat) (r : KRun) (m : Mach) : Mach :=
  let c := r.cmd
  match findOut m c.wg c.grp c.id with
  | some o =>
    match o.kind with
    | .ktrav dst ls _ _ _ _ _ _ =>
      landOut c.wg c.grp c.id ((lanesOf ls).flatMap fun l => [.reg dst.toNat l (BitVec.ofNat 32 v), .reg (dst.toNat + 1) l (BitVec.ofNat 32 r.emitted)])
        (dropCache (m.wg c.wg).core m)
    | _ => m
  | none => m

/-- A write of the end has faulted: the Knight keeps the run; the original fault is reported first (spec 15 R296). -/
def kKeep (cl : Nat) (e : KEnd) (r : KRun) (f : Fail) (m : Mach) : Mach :=
  let c := r.cmd
  let m1 := m.modCluster cl fun x => { x with krun := none, kept := if (findOut m c.wg c.grp c.id).isSome then x.kept ++ [r] else x.kept }
  match e with
  | .fault f0 => failOut c.wg c.grp c.id f0 (kHeld true r.emitted [f] c m1)
  | _ => failOut c.wg c.grp c.id f (kHeld true r.emitted [] c m1)

/-- KNIGHT_TRAVERSAL_DONE: a traversal that has come to its end is written back and returns, faults, or goes on (spec 15 R293 to R296). -/
def kDone (cl : Nat) (m : Mach) : Mach :=
  match (m.cluster cl).krun with
  | none => m
  | some r =>
    match r.ends with
    | none => m
    | some e =>
      match kWrites e r m with
      | (_, some .wait) => m
      | ((r1, m1), some (.fault c addr code)) => kKeep cl e r1 (kFail m1 r.cmd c addr code) m1
      | ((r1, m1), none) =>
        let m2 := m1.modCluster cl fun x => { x with krun := none }
        match e with
        | .done => kReturn 0 r1 m2
        | .full => kReturn 1 r1 m2
        | .fault f => failOut r.cmd.wg r.cmd.grp r.cmd.id f (kHeld true r.emitted [] r.cmd m2)
        | .again => m1.modCluster cl fun x => { x with krun := some { r1 with ends := none } }

/-- KNIGHT_TRAVERSAL_DONE. -/
def execKnightTraversalDone (cluster : Nat) (s : State) : Host.Outcome State Fault Refusal := eventStep (kDone cluster) s

/-! ## Issue -/

/-- KTRAV (spec 15 R295, R296). -/
def ktravOwn (i : Instr) (d a : Reg) (self resume : Bool) (x : Iss) (m : Mach) : Own :=
  if x.eff = 0 then .done 16 m
  else
    let z := m.wg x.w
    let desc := (m.grp x.w x.g).pair a.toNat (lowLaneD x.eff)
    let queue := (m.block x.w).recordQueue
    let cl := clusterOfCore z.core
    if desc.toNat % 128 ≠ 0 ∨ 2 ^ 52 ≤ desc.toNat ∨ queue = 0 then .trap .knightNode (infoLow m 0xFFFFFFFF) x.eff 0
    else if inRegion x x.eff m then regionTrap x m
    else
      let rs := kSpans m x.w desc queue
      if rs.any fun r => engineLate m x.w false r.1 r.2 then trapEff x .serialOrder m
      else
        let sh := isDet m x.w && rs.any fun r => !(ownedBySelf m x.w false r.1 r.2)
        let lodged := sh && !(holdsTurn m x.w)
        if sh && turnFull m x.w 1 then .hold (.turn 1)
        else if !lodged && decide (16 ≤ kWaiting m cl) then .hold .knight
        else
          let c : KCmd := ⟨x.w, x.g, m.nextCmd, z.part, z.ctx, desc, queue, self, resume, sh, if isDet m x.w then spansDenied m x.w rs else none, false, 0⟩
          .done 16 (queueKnight c z.core (handOn i x (waitClass i) (.ktrav d x.eff desc queue self resume 0 []) sh m))

/-- KTRAV. -/
def execKtrav (d a : Reg) (self : Bool) (g : Guard) (s : State) : Host.Outcome State Fault Refusal :=
  execute (.ktrav d a self g) (ktravOwn (.ktrav d a self g) d a self false) s

/-- KTRAV.resume. -/
def execKtravResume (d a : Reg) (self : Bool) (g : Guard) (s : State) : Host.Outcome State Fault Refusal :=
  execute (.ktravResume d a self g) (ktravOwn (.ktravResume d a self g) d a self true) s

/-- A traversal of a group that is not completed. -/
def isKtrav (o : Out) : Bool :=
  match o.kind with
  | .ktrav _ _ _ _ _ _ _ _ => true
  | _ => false

/-- The word KSTAT returns (spec 15 R297). -/
def kStatus (m : Mach) (w g : Nat) (which : BitVec 1) : Word :=
  let cl := clusterOfCore (m.wg w).core
  if which = 0 then BitVec.ofNat 32 (((m.grp w g).outs.filter isKtrav).length % 64)
  else BitVec.ofNat 32 (kWaiting m cl % 32 + 256 * (m.cluster cl).krun.isSome.toNat)

/-- KSTAT: a snapshot of the issue, a result of the KT class (spec 05 R74, 15 R297, log 13). -/
def execKstat (d : Reg) (which : BitVec 1) (g : Guard) (s : State) : Host.Outcome State Fault Refusal :=
  execute (.kstat d which g) (guarded (noRegion fun x m =>
    .done 0 (landLater (.kstat d which g) x (some d) ((lanesOf x.eff).map fun l => .reg d.toNat l (kStatus m x.w x.g which)) m))) s

end Sys2Proof.Machine
end

