-- ==== Sys2Proof/Machine/Wait.lean ====
section
/-! DEFINITION. The wait point: deferred faults, aborts of Gambit regions, the end of the last lanes, held instructions that complete (spec 05 R70, 06 R99,
11 R210, 18 R347, 19 R356, 20 R367, R371, R376, 22 R405). -/

namespace Sys2Proof.Machine

/-- Of two commands that have faulted, the one reported first: the lower WAIT bit, then the earlier issue (spec 20 R367). -/
def firstDue (a b : Out) : Out := if b.cls < a.cls ∨ (b.cls = a.cls ∧ b.id < a.id) then b else a

/-- The deferred fault that is taken at a wait point on classes `k`; none in trap mode (spec 20 R367). -/
def dueFault (y : Group) (k : BitVec 8) : Option (Out × Fail) :=
  if y.trapMode.isSome then none
  else
    match y.outs.filter fun o => o.fail.isSome && k.getLsbD o.cls with
    | [] => none
    | o :: os => ((os.foldl firstDue o).fail).map fun f => (os.foldl firstDue o, f)

/-- A deferred fault is taken (spec 20 R370, R371). -/
def takeFault (w g : Nat) (d : Out × Fail) (pc : DWord) (lanes : Mask) (res : Resume) (m : Mach) : Mach :=
  enterTrap w g ⟨d.1.irec, d.2, d.1.cls, pc, lanes, res, some d.1.id⟩ m

/-- The lanes of a mask whose region has aborted. -/
def abortedOf (m : Mach) (w g : Nat) (ls : Mask) : List Region := (regionsOf m w g ls).filter fun q => q.aborted.isSome

/-- Aborts are delivered: the lanes stand at their fallback headers (spec 18 R347). -/
def deliverAborts (w g : Nat) (qs : List Region) (m : Mach) : Mach :=
  qs.foldl (fun acc q => standAt w g q.fallback (maskOf [q.lane]) (abortRegion q (q.aborted.getD (0, 0)).1 (q.aborted.getD (0, 0)).2 acc)) m

/-- Lanes leave a run. -/
def leaveRun (w g : Nat) (ls : Mask) (m : Mach) : Mach :=
  m.modG w g fun y => { y with run := y.run.map fun r => { r with lanes := r.lanes &&& ~~~ls } }

/-- A run at its wait point: a fault that is due is taken; when the counts are zero aborts are delivered and the clause may issue; a halt or a
pre-emption keeps the group standing (spec 05 R70, 06 R99, 18 R347, 20 R367, R387). -/
def waitInRun (w g : Nat) (r : Run) (m : Mach) : Mach :=
  let y := m.grp w g
  let k := waitMask m w g r
  match dueFault y k with
  | some d => takeFault w g d r.hdrAddr (r.lanes &&& y.live) .wait m
  | none =>
    if mayPass (m.wg w) y && countsZero m w g k then
      let qs := if k.getLsbD 0 then abortedOf m w g r.lanes else []
      let m1 := leaveRun w g (maskOf (qs.map (·.lane))) (deliverAborts w g qs m)
      if r.lanes &&& y.live &&& ~~~(maskOf (qs.map (·.lane))) = 0 then endRun w g m1
      else m1.modG w g fun y => { y with run := y.run.map fun r => { r with waiting := false } }
    else m

/-- The run issues its word again. -/
def issueAgain (w g : Nat) (m : Mach) : Mach :=
  m.modG w g fun y => { y with exiting := none, run := y.run.map fun r => { r with waiting := false } }

/-- The last lanes at their EXIT, a wait point on every class; scratchpad stores and arrivals, which are in no class, have come too (spec 11 R210, 18 R347, 20 R367, 22 R405). -/
def waitAtExit (w g : Nat) (ls : Mask) (pc : DWord) (m : Mach) : Mach :=
  let y := m.grp w g
  let qs := abortedOf m w g ls
  match dueFault y 0xFF with
  | some d => takeFault w g d pc (((y.run.map (·.lanes)).getD 0) &&& y.live) .run (issueAgain w g m)
  | none =>
    if !(mayPass (m.wg w) y) then m
    else if !(qs.isEmpty) then
      let k := maskOf (qs.map (·.lane))
      let m1 := (leaveRun w g k (deliverAborts w g qs m)).modG w g fun y => { y with exiting := some (ls &&& ~~~k, pc) }
      if ls &&& ~~~k = 0 then endRun w g (issueAgain w g m1) else m1
    else if countsZero m w g 0xFF && !(y.outs.any fun o => o.cls = 8) then
      finishWord w g 1 (bits (((y.run).getD default).rest.headD 0) 0 2).toNat (endLanes w g ls pc ((issueAgain w g m).modG w g fun y => { y with outs := [] }))
    else m

/-- Lanes that stand at %cont while a yield is pending, a wait point on every class (spec 05 R70, 20 R376). -/
def waitAtCont (w g : Nat) (m : Mach) : Mach :=
  let y := m.grp w g
  let x := m.wg w
  match y.frontier.find? fun e => decide (e.addr = x.cont) with
  | none => m
  | some e =>
    match dueFault y 0xFF with
    | some d => takeFault w g d x.cont (e.lanes &&& y.live) .stand (m.modG w g fun y => { y with frontier := leaveEntry y.frontier e.addr e.lanes })
    | none =>
      let qs := if countsZero m w g 0xFF then abortedOf m w g e.lanes else []
      deliverAborts w g qs (m.modG w g fun y => { y with frontier := leaveEntry y.frontier e.addr (maskOf (qs.map (·.lane))) })

/-! ## Turns -/

/-- Shared commands of a workgroup that have not completed, among those that pass a test. -/
def sharedLeft (m : Mach) (w : Nat) (p : OutKind → Bool) : Bool :=
  (m.wg w).groupIds.any fun g => (m.grp w g).outs.any fun o => o.shared && p o.kind

/-- A turn ends: the workgroup releases at device scope, and the next one acquires (spec 19 R354). -/
def endTurn (w : Nat) (m : Mach) : Mach :=
  let k := (m.wg w).launch
  let m1 := (flushAll (m.wg w).core m).modL k fun l => { l with turn := l.turn + 1 }
  match m1.wgIds.find? fun v => decide ((m1.wg v).launch = k) && holdsTurn m1 v with
  | some v => dropCache (m1.wg v).core m1
  | none => m1

/-- Every group with a live thread has issued SERIALEND (spec 19 R356). -/
def allEndedTurn (m : Mach) (w : Nat) : Bool := (m.wg w).groupIds.all fun g => decide ((m.grp w g).live = 0) || (m.grp w g).endedTurn

/-- SERIAL completes when the turn has arrived and the buffered accesses, of every kind, are performed (spec 19 R353, R356). -/
def trySerial (w g : Nat) (m : Mach) : Mach :=
  if mayGoOn (m.wg w) && holdsTurn m w && !(sharedLeft m w fun k => accessK k && !(isWaiting k)) then finishHeld w g (dropCache (m.wg w).core m) else m

/-- Every access of the workgroup's threads, but for those that cannot complete before a TRAPRET: the release that ends the turn waits for them (spec 16 R304, 19
R354, log 120). -/
def turnAccesses (m : Mach) (w : Nat) : Bool := (m.wg w).groupIds.any (accessesLeft m w)

/-- SERIALEND completes when the turn has ended; the last group to issue it ends it, when every shared access and engine write has completed and what the release
waits for has been performed (spec 19 R354, R356). -/
def trySerialEnd (w g : Nat) (m : Mach) : Mach :=
  if !(mayGoOn (m.wg w)) then m
  else if turnEnded m w then finishHeld w g m
  else if allEndedTurn m w && holdsTurn m w && !(sharedLeft m w fun _ => true) && !(turnAccesses m w) then finishHeld w g (endTurn w m)
  else m

/-- A group at a wait point of any kind. -/
def waitPoint (w g : Nat) (m : Mach) : Mach :=
  let y := m.grp w g
  if !(wgActive (m.wg w)) then m
  else
    match y.held, y.exiting, y.run with
    | some (.barrier _ _), _, _ => tryBarrier w g m
    | some .serial, _, _ => trySerial w g m
    | some .serialend, _, _ => trySerialEnd w g m
    | some _, _, _ => m
    | none, some (ls, pc), _ => waitAtExit w g ls pc m
    | none, none, some r => if r.waiting then waitInRun w g r m else m
    | none, none, none => if (m.wg w).yieldPending && (issuable m w g).isEmpty then waitAtCont w g m else m

/-- WAIT_POINT_RELEASE (spec 05 R70): commands that no step of their own completes are tried first (log 13). -/
def execWaitPointRelease (w g : Nat) (s : State) : Host.Outcome State Fault Refusal := eventStep (fun m => waitPoint w g (settleCmds m)) s

end Sys2Proof.Machine
end

