-- ==== Sys2Proof/Machine/Place.lean ====
section
/-! DEFINITION. Launch blocks as they are read and checked, and where workgroups are placed (spec 02 R17 to R20, R23, R26, 04 R47 to R52, R61, R62). -/

namespace Sys2Proof.Machine

/-! ## Launch blocks -/

/-- A field of `n` bytes at an offset (spec 02 R17). -/
def blkField (bs : List Byte) (off n : Nat) : Nat := leNat ((bs.drop off).take n)

/-- The block of the 80 bytes read (spec 02 R17 to R19). -/
def blockOf (bs : List Byte) : Block :=
  let shape := blkField bs 0x14 4
  let res := blkField bs 0x1C 4
  let flags := blkField bs 0x2C 4
  let inh := blkField bs 0x34 4
  { entry := BitVec.ofNat 64 (blkField bs 0 8)
    argp := BitVec.ofNat 64 (blkField bs 8 8)
    count := blkField bs 0x10 4
    groups := fld shape 0 8
    stages := fld shape 8 3
    progress := fld shape 11 2
    det := decide (fld shape 13 1 = 1)
    checking := decide (fld shape 14 1 = 1)
    priority := fld shape 15 3
    succReserve := fld shape 18 3
    xmax := fld shape 21 4
    scratch := blkField bs 0x18 4
    slots := fld res 0 8
    tiles := fld res 8 8
    nodes := fld res 16 8
    tempi := BitVec.ofNat 32 (blkField bs 0x20 4)
    tempm := BitVec.ofNat 32 (blkField bs 0x24 4)
    overdraft := BitVec.ofNat 32 (blkField bs 0x28 4)
    topUp := decide (fld flags 0 1 = 1)
    cap := decide (fld flags 1 1 = 1)
    inhEn := decide (fld inh 12 1 = 1)
    inhLast := fld inh 6 6
    inhFirst := fld inh 0 6
    capTable := BitVec.ofNat 64 (blkField bs 0x38 8)
    roles := BitVec.ofNat 64 (blkField bs 0x40 8)
    recordQueue := BitVec.ofNat 64 (blkField bs 0x48 8) }

/-- Reserved fields of the words at 0x14, 0x1C, 0x2C and 0x34, and the bytes from 0x58 up (spec 00 R4, 02 R17 to R19). -/
def blockReserved (bs : List Byte) : Bool :=
  decide (fld (blkField bs 0x14 4) 25 7 ≠ 0) || decide (fld (blkField bs 0x1C 4) 24 8 ≠ 0) || decide (fld (blkField bs 0x2C 4) 2 30 ≠ 0) ||
    decide (fld (blkField bs 0x34 4) 13 19 ≠ 0) || decide (blkField bs 0x58 40 ≠ 0)

/-- The block breaks R17, R18, R19 or the last sentence of R61 (spec 02 R20, 04 R61). -/
def blockBroken (addr : Nat) (bs : List Byte) : Bool :=
  let b := blockOf bs
  blockReserved bs || decide (addr % 128 ≠ 0) || decide (b.entry.toNat % 4 ≠ 0) || decide (b.count = 0) || decide (2 ^ 32 ≤ b.count * b.stages) ||
    decide (b.scratch % 256 ≠ 0) || decide (b.scratch < 256) || decide (393216 < b.scratch) || decide (b.tempi.toInt < 1) || decide (b.tempm.toInt < 1) ||
    decide (b.overdraft.toInt < 0) || decide (b.capTable.toNat % 64 ≠ 0) || decide (b.recordQueue.toNat % 64 ≠ 0) || decide (b.groups < b.xmax) ||
    decide (4 < b.succReserve) || decide (b.progress = 3) || decide (b.stages = 0) || decide (4 < b.stages) || decide (b.groups = 0) || decide (16 < b.groups) ||
    decide (64 < b.nodes) || decide (16 < b.tiles) || decide (32 < b.slots) || decide (b.inhLast < b.inhFirst) ||
    (b.inhEn && decide (32 ≤ b.inhLast) && decide (b.xmax ≠ b.groups))

/-- Entry of a core in a role map (spec 02 R26). -/
def roleEntry (roles : DWord) (c : Nat) : Nat := fld roles.toNat (16 * c) 16

/-- The core runs a stage. -/
def roleOn (roles : DWord) (c : Nat) : Bool := decide (fld (roleEntry roles c) 2 1 = 1)

/-- The core that runs a stage (spec 02 R27). -/
def roleCore (roles : DWord) (s : Nat) : Option Nat :=
  (List.range 4).find? fun c => roleOn roles c && decide (fld (roleEntry roles c) 0 2 = s)

/-- One entry of the map breaks R26. -/
def roleEntryBroken (roles : DWord) (s c : Nat) : Bool :=
  let e := roleEntry roles c
  if roleOn roles c then
    decide (fld e 8 8 ≠ 0) || decide (fld e 3 1 ≠ 0) || decide (s ≤ fld e 0 2) ||
      (List.range 4).any fun k => decide (fld e (4 + k) 1 = 1) && (decide (k = c) || !(roleOn roles k))
  else decide (e ≠ 0)

/-- The role map breaks R26: STAGE_ROLE. -/
def rolesBroken (roles : DWord) (s : Nat) : Bool :=
  if s = 1 then decide (roles ≠ 0)
  else
    (List.range 4).any (roleEntryBroken roles s) || decide (((List.range 4).filter (roleOn roles)).length ≠ s) ||
      (List.range s).any fun k => (roleCore roles k).isNone

/-! ## Free capacity -/

/-- What is taken on a core: group slots, extended blocks, ranges of the scratchpad (spec 04 R47). -/
structure CoreRoom where
  core : Nat
  slots : List Nat
  ext : Nat
  scratch : List (Nat × Nat)
  deriving DecidableEq, Repr, Inhabited

/-- What is taken in a partition: its cores; operand slots and tiles of its clusters; free queue slots and graph nodes; the pointers of placement. -/
structure Room where
  cores : List CoreRoom
  ops : Store Nat
  tiles : Store Nat
  pool : Nat
  nodes : Nat
  corePtr : Nat
  clusterPtr : Nat
  deriving DecidableEq, Repr, Inhabited

/-- The cores of a partition, ascending (spec 04 R52). -/
def partCores (q : Part) : List Nat := q.clusters.flatMap fun c => (List.range 4).map fun k => 4 * c + k

/-- The workgroup holds its place. -/
def isResident (x : Wg) : Bool := decide (x.status = .admitted) || decide (x.status = .running) || decide (x.status = .retiring)

/-- The footprint of an allocation (spec 04 R48). -/
def footprint (n : Nat) : Nat := (n + 767) / 768 * 768

/-- What is parked for launches that have not been admitted (spec 04 R62). -/
def parksOf (m : Mach) (p : Nat) : List Park :=
  (m.part p).ready.filterMap (·.park) ++ (m.launches.filter fun e => e.2.live && decide (e.2.part = p)).filterMap (·.2.park)

/-- The retired bank rows of a core: placement avoids them (spec 10 R190). -/
def badRanges (m : Mach) (k : Nat) : List (Nat × Nat) := (m.badRows.filter fun r => decide (r / 683 = k)).map fun r => (r % 683 * 768, 768)

/-- What is taken on a core. -/
def coreRoom (m : Mach) (p k : Nat) : CoreRoom :=
  let ws := m.wgIds.filter fun w => isResident (m.wg w) && decide ((m.wg w).core = k)
  let ps := (parksOf m p).filter fun r => decide (r.core = k)
  { core := k
    slots := (ws.flatMap fun w => (m.wg w).groupIds.map fun g => (m.grp w g).slot - 1) ++ ps.flatMap (·.slots)
    ext := (ws.map fun w => (m.block w).xmax).sum + (ps.map fun r => (r.xheld.filter id).length).sum
    scratch := (ws.map fun w => ((m.wg w).base, footprint (m.block w).scratch)) ++ badRanges m k }

/-- What is taken in a partition. -/
def roomOf (m : Mach) (p : Nat) : Room :=
  let q := m.part p
  let used := fun (f : Block → Nat) (c : Nat) =>
    ((m.wgIds.filter fun w => isResident (m.wg w) && decide (clusterOfCore (m.wg w).core = c)).map fun w => f (m.block w)).sum
  { cores := (partCores q).map (coreRoom m p)
    ops := q.clusters.foldl (fun s c => Store.put s c (used (·.slots) c)) []
    tiles := q.clusters.foldl (fun s c => Store.put s c (used (·.tiles) c)) []
    pool := q.pool
    nodes := q.nodesFree
    corePtr := q.corePtr
    clusterPtr := q.clusterPtr }

/-- The partition with nothing in it (spec 02 R23). -/
def emptyRoom (q : Part) : Room :=
  { cores := (partCores q).map fun k => ⟨k, [], 0, []⟩, ops := [], tiles := [], pool := 4096, nodes := 4096, corePtr := (partCores q).getLastD 0,
    clusterPtr := q.clusters.getLastD 0 }

/-! ## Fitting -/

/-- Where a workgroup is placed. -/
structure Spot where
  core : Nat
  slots : List Nat
  base : Nat
  deriving DecidableEq, Repr, Inhabited

/-- The lowest base at which a footprint fits (spec 04 R48). -/
def lowestBase (rs : List (Nat × Nat)) (n : Nat) : Option Nat :=
  ((List.range 512).map (768 * ·)).find? fun b => decide (b + n ≤ 393216) && rs.all fun r => decide (b + n ≤ r.1) || decide (r.1 + r.2 ≤ b)

/-- The free group slots of a core, ascending. -/
def freeSlotsOf (k : CoreRoom) : List Nat := (List.range 48).filter fun s => !(k.slots.contains s)

/-- A core fits a workgroup (spec 04 R47, R49); an inheriting successor takes the slots and blocks parked for it (R62). -/
def fitCore (r : Room) (b : Block) (park : Option Park) (k : CoreRoom) : Option Spot :=
  let cl := clusterOfCore k.core
  let ss := match park with | some p => p.slots.take b.groups | none => (freeSlotsOf k).take b.groups
  let parked := match park with | some p => (p.xheld.filter id).length | none => 0
  if ss.length = b.groups ∧ k.ext + b.xmax ≤ 16 + parked ∧ Store.get 0 r.ops cl + b.slots ≤ 32 ∧ Store.get 0 r.tiles cl + b.tiles ≤ 16 then
    (lowestBase k.scratch (footprint b.scratch)).map fun a => ⟨k.core, ss, a⟩
  else none

/-- A workgroup placed. -/
def Room.take (r : Room) (b : Block) (s : Spot) : Room :=
  let cl := clusterOfCore s.core
  { r with
    cores := r.cores.map fun k =>
      if k.core = s.core then { k with slots := k.slots ++ s.slots, ext := k.ext + b.xmax, scratch := k.scratch ++ [(s.base, footprint b.scratch)] } else k
    ops := Store.put r.ops cl (Store.get 0 r.ops cl + b.slots)
    tiles := Store.put r.tiles cl (Store.get 0 r.tiles cl + b.tiles) }

/-- Of places with their free group slots, in ascending order, the one with the most; a tie goes to the first after the pointer, wrapping round
(spec 04 R49). -/
def pickMost {α : Type} (ptr : Nat) (cs : List (Nat × Nat × α)) : Option (Nat × α) :=
  let most := cs.foldl (fun acc e => max acc e.2.1) 0
  let tied := cs.filter fun e => decide (e.2.1 = most)
  ((tied.find? fun e => decide (ptr < e.1)) <|> tied.head?).map fun e => (e.1, e.2.2)

/-- The cores a one-stage workgroup may go to: `home`, its parent's core or the core a restored workgroup of static placement comes from, its logical core, or any
(spec 04 R49, R52, R62, R64). -/
def coreChoices (r : Room) (b : Block) (home : Option Nat) (wgid : Nat) : List CoreRoom :=
  match home with
  | some c => r.cores.filter fun k => decide (k.core = c)
  | none => if b.det then (r.cores[wgid % r.cores.length]?).toList else r.cores

/-- A one-stage workgroup placed. -/
def placeOne (r : Room) (b : Block) (park : Option Park) (home : Option Nat) (wgid : Nat) : Option (Room × List (Nat × Spot)) :=
  (pickMost r.corePtr ((coreChoices r b home wgid).filterMap fun k => (fitCore r b park k).map fun s => (k.core, (freeSlotsOf k).length, s))).map fun e =>
    ({ r.take b e.2 with corePtr := e.1 }, [(0, e.2)])

/-- The stages of a set placed in a cluster, or the cluster does not fit (spec 04 R49). -/
def placeStages (b : Block) (cl : Nat) : Room → List Nat → Option (Room × List (Nat × Spot))
  | r, [] => some (r, [])
  | r, s :: ss =>
    match (roleCore b.roles s).bind fun c => (r.cores.find? fun k => decide (k.core = 4 * cl + c)).bind (fitCore r b none) with
    | none => none
    | some sp => (placeStages b cl (r.take b sp) ss).map fun e => (e.1, (s, sp) :: e.2)

/-- Free group slots of the cores of a cluster that the role map enables. -/
def clusterFree (r : Room) (b : Block) (cl : Nat) : Nat :=
  ((r.cores.filter fun k => decide (clusterOfCore k.core = cl) && roleOn b.roles (k.core % 4)).map fun k => (freeSlotsOf k).length).sum

/-- A stage set placed. -/
def placeSet (r : Room) (b : Block) (wgid : Nat) (stages : List Nat) : Option (Room × List (Nat × Spot)) :=
  let cls := (r.cores.map fun k => clusterOfCore k.core).eraseDups
  let try_ := if b.det then (cls[wgid % cls.length]?).toList else cls
  (pickMost r.clusterPtr (try_.filterMap fun c => (placeStages b c r stages).map fun e => (c, clusterFree r b c, e))).map fun e =>
    ({ e.2.1 with clusterPtr := e.1 }, e.2.2)

/-- The workgroups of one %wgid placed: stage and place of each. -/
def placeUnit (r : Room) (b : Block) (park : Option Park) (home : Option Nat) (wgid : Nat) (stages : List Nat) : Option (Room × List (Nat × Spot)) :=
  if b.stages = 1 then placeOne r b park home wgid else placeSet r b wgid stages

/-- A workgroup to be placed: %wgid and stage, and its place. -/
structure Placed where
  wgid : Nat
  stage : Nat
  spot : Spot
  deriving DecidableEq, Repr, Inhabited

/-- `n` sets from one up, one after another, all or nothing (spec 03 R39, 04 R50). -/
def placeRun (b : Block) (park : Option Park) : Nat → Nat → Room → Option (Room × List Placed)
  | 0, _, r => some (r, [])
  | n + 1, i, r =>
    match placeUnit r b park (park.map (·.core)) i (List.range b.stages) with
    | none => none
    | some e => (placeRun b park n (i + 1) e.1).map fun f => (f.1, e.2.map (fun s => ⟨i, s.1, s.2⟩) ++ f.2)

/-- The pool and the graph table hold what `n` workgroups reserve (spec 03 R31, R40). -/
def poolFits (r : Room) (b : Block) (n : Nat) : Bool := decide (n * (b.succReserve + b.nodes) ≤ r.pool) && decide (n * b.nodes ≤ r.nodes)

/-- A concurrent launch is larger than the partition can ever hold (spec 02 R23). -/
def neverFits (q : Part) (b : Block) : Bool :=
  let r := emptyRoom q
  let n := b.count * b.stages
  decide (b.progress = 0) && (!(poolFits r b n) || decide (48 * r.cores.length < n * b.groups) || (placeRun b none b.count 0 r).isNone)

end Sys2Proof.Machine
end

