-- ==== Sys2Proof/Machine/Launch.lean ====
section
/-! DEFINITION. Launches enter their queues or are refused; the queue table (spec 02 R20, R21, 03 R28 to R35, 23 R418). -/

namespace Sys2Proof.Machine

/-- A queue-table word of a partition (spec 03 R28). -/
def queueWord (m : Mach) (p q : Nat) : Word := Store.get 0 (m.part p).queueWords q

/-- The word is valid, its queue held, its context, its priority. -/
def qValid (v : Word) : Bool := decide (bits v 0 1 = 1)

/-- Admission from the queue is stopped by the host. -/
def qHeld (v : Word) : Bool := decide (bits v 8 1 = 1)

/-- The context that owns the queue. -/
def qCtx (v : Word) : Nat := (bits v 4 4).toNat

/-- The priority of the queue. -/
def qPrio (v : Word) : Nat := (bits v 1 3).toNat

/-- The valid queue of a context and a priority (spec 03 R30). -/
def queueFor (m : Mach) (p c prio : Nat) : Option Nat :=
  (List.range 64).find? fun q => qValid (queueWord m p q) && decide (qCtx (queueWord m p q) = c) && decide (qPrio (queueWord m p q) = prio)

/-- What a launch block's read and checks come to, in their order: a fault of the read, a broken rule, or the block (spec 02 R20, R23, 03 R34). -/
inductive BlockRead where
  | fault (c : Cause)
  | wait
  | bad (c : Cause) (b : Block)
  | ok (b : Block)
  deriving DecidableEq, Repr, Inhabited

/-- A block read and checked through a context (spec 02 R20, 03 R34); `root` asks for a predecessor count of zero too (23 R418). -/
def readBlock (m : Mach) (p c : Nat) (addr : DWord) (root : Bool) : BlockRead :=
  match xlatWaits m (partSite m p) p c addr.toNat, translateNormal m (partSite m p) p c addr.toNat .read with
  | true, _ => .wait
  | false, .error e => .fault e
  | false, .ok x =>
    if (List.range 4).any fun k => failingAt m ⟨false, x.pa + 32 * k, 0⟩ then .wait
    else
      let bs := readPa m x.pa 128
      let b := blockOf bs
      if blockBroken addr.toNat bs || (root && decide (blkField bs 0x30 4 ≠ 0)) then .bad .launchBlockInvalid b
      else if rolesBroken b.roles b.stages then .bad .stageRole b
      else if blkField bs 0x50 4 ∈ [0, 3, 4] then (if neverFits (m.part p) b then .bad .launchBlockInvalid b else .ok b)
      else .bad .launchBlockInvalid b

/-- A refusal: the slot is released, state 4 is written, an event record goes to the root workgroup; what was parked is free (spec 03 R32, 04 R62). -/
def refuseLaunch (p c : Nat) (addr : DWord) (e : Cause) (src under : Nat) (m : Mach) : Mach :=
  eventRecord p addr e src under (writeBlockField p c addr 0x50 4 (freeSlots p 1 m))

/-- The other nodes armed on a block, of any context, are freed with their slots (spec 03 R35, R42). -/
def freeOthers (p c : Nat) (addr : DWord) (m : Mach) : Mach := (nodesOn m p c addr).foldl (fun acc k => freeSlots k.1 1 (freeNode k.1 k.2 true acc)) m

/-- A launch enters queue `q` with the slot it holds: state 1 (spec 02 R21, 03 R30, R35). -/
def enterQueue (r : Readied) (q : Nat) (b : Block) (root : Bool) (m : Mach) : Mach :=
  let l : Launch :=
    { live := true, part := r.part, ctx := r.ctx, addr := r.addr, block := b, queue := q, inQueue := true, root := root, budgets := r.budgets, park := r.park
      nextUnit := 0, running := 0, killed := false, cut := false, turn := 0, lackSince := none }
  let k := m.nextLaunch
  let m1 := { m with launches := Store.put m.launches k l, nextLaunch := k + 1 }
  let m2 := m1.modP r.part fun z => { z with queues := Store.upd default z.queues q fun ks => ks ++ [k] }
  freeOthers r.part r.ctx r.addr (writeBlockField r.part r.ctx r.addr 0x50 1 m2)

/-- A launch that has become ready enters its queue, or is refused (spec 02 R20, 03 R30, R34, R35). -/
def tryEnter (r : Readied) (m : Mach) : Mach :=
  let no := fun (c : Cause) (src under : Nat) => freeOthers r.part r.ctx r.addr (refuseLaunch r.part r.ctx r.addr c src under m)
  let queue := fun (b : Block) => queueFor m r.part r.ctx b.priority
  match readBlock m r.part r.ctx r.addr false with
  | .wait => m.modP r.part fun z => { z with ready := r :: z.ready }
  | .fault c => no .launchBlockInvalid 0 (causeCode c)
  | .bad c b => if (queue b).isSome then no c 0 0 else no .launchBlockInvalid 3 0
  | .ok b =>
    match queue b with
    | some q => enterQueue r q b false (touchTlb (partSite m r.part) r.part r.ctx r.addr.toNat m)
    | none => no .launchBlockInvalid 3 0

/-- QUEUE_ENTRY: the launch that became ready first (spec 03 R35). -/
def queueEntry (p : Nat) (m : Mach) : Mach :=
  match (m.part p).ready with
  | [] => m
  | r :: rs => tryEnter r (m.modP p fun z => { z with ready := rs })

/-- QUEUE_ENTRY. -/
def execQueueEntry (part : Nat) (s : State) : Host.Outcome State Fault Refusal := eventStep (queueEntry part) s

/-- ROOT_LAUNCH (spec 23 R418): refused, answered busy, or queued and acknowledged. -/
def rootLaunch (p c : Nat) (addr : DWord) (m : Mach) : Mach :=
  if (m.part p).made = false ∨ (m.ctx p c).state ≠ 1 then toHost p .invalid m
  else
    match readBlock m p c addr true with
    | .wait => m
    | .fault _ => toHost p .invalid m
    | .bad _ _ => toHost p .invalid m
    | .ok b =>
      match queueFor m p c b.priority with
      | none => toHost p .busy m
      | some q =>
        if (m.part p).pool = 0 then toHost p .busy m
        else toHost p .ack (enterQueue ⟨p, c, addr, none, none⟩ q b true (m.modP p fun z => { z with pool := z.pool - 1 }))

/-- ROOT_LAUNCH. -/
def execRootLaunch (part ctx : Nat) (block : DWord) (s : State) : Host.Outcome State Fault Refusal := eventStep (rootLaunch part ctx block) s

/-! ## Writing the queue table -/

/-- A launch that stands in a queue whose word has changed: refused, or, with units admitted, cut (spec 03 R29). -/
def unqueue (k : Nat) (m : Mach) : Mach :=
  let l := m.launch k
  if l.nextUnit = 0 then
    (refuseLaunch l.part l.ctx l.addr .launchBlockInvalid 3 0 (m.modP l.part fun q => { q with queues := Store.upd default q.queues l.queue fun ks => ks.filter fun j => decide (j ≠ k) })).modL k
      fun l => { l with inQueue := false, live := false }
  else settleLaunch k ((leaveQueue k m).modL k fun l => { l with cut := true })

/-- The word names a context and priority that another valid word names, or sets a reserved bit: the write is ignored (spec 03 R28). -/
def queueWordBad (m : Mach) (p q : Nat) (v : Word) : Bool :=
  decide (bits v 9 23 ≠ 0) ||
    (qValid v && (List.range 64).any fun j => decide (j ≠ q) && qValid (queueWord m p j) && decide (qCtx (queueWord m p j) = qCtx v) && decide (qPrio (queueWord m p j) = qPrio v))

/-- QUEUE_TABLE_WRITE (spec 03 R28, R29). -/
def queueTableWrite (p q : Nat) (v : Word) (m : Mach) : Mach :=
  if (m.part p).made = false ∨ 64 ≤ q then toHost p .invalid m
  else if queueWordBad m p q v then toHost p .ack m
  else
    let old := queueWord m p q
    let m1 := m.modP p fun z => { z with queueWords := Store.put z.queueWords q v }
    let moved := qValid old && (!(qValid v) || decide (qCtx v ≠ qCtx old) || decide (qPrio v ≠ qPrio old))
    let ks := Store.get [] (m.part p).queues q
    toHost p .ack (if moved then ks.foldl (fun acc k => unqueue k acc) m1 else m1)

/-- QUEUE_TABLE_WRITE. -/
def execQueueTableWrite (part q : Nat) (v : Word) (s : State) : Host.Outcome State Fault Refusal := eventStep (queueTableWrite part q v) s

end Sys2Proof.Machine
end

