-- ==== Sys2Proof/Machine/Admit.lean ====
section
/-! DEFINITION. Admission of units, restores of saved workgroups, the start of a workgroup (spec 02 R22, R23, R25, 03 R37 to R40, 04 R51, R54, R62 to R64, 12 R247, 20
R378, R385, R386). -/

namespace Sys2Proof.Machine

/-! ## Units that stand at the heads -/

/-- The context is on the cores, or has a quantum (spec 20 R385). -/
def ctxRuns (m : Mach) (p c : Nat) : Bool := decide ((m.ctx p c).state = 1) || (m.ctx p c).quantum

/-- The head of a queue. -/
def queueHead (m : Mach) (p q : Nat) : Option Nat := (Store.get [] (m.part p).queues q).head?

/-- The queue is valid, not held, and its context is resident (spec 03 R37). -/
def queueOpen (m : Mach) (p q : Nat) : Bool := qValid (queueWord m p q) && !(qHeld (queueWord m p q)) && ctxRuns m p (qCtx (queueWord m p q))

/-- The sets of a launch's next unit (spec 03 R39). -/
def unitSets (l : Launch) : Nat := if l.block.progress = 0 then l.block.count else 1

/-- The place of a launch's next unit, none where it does not fit (spec 03 R39, R40, 04 R50). -/
def launchPlan (m : Mach) (k : Nat) : Option (Room × List Placed) :=
  let l := m.launch k
  let r := roomOf m l.part
  if poolFits r l.block (unitSets l * l.block.stages) then placeRun l.block l.park (unitSets l) l.nextUnit r else none

/-- A saved workgroup with its place. -/
structure Back where
  w : Nat
  spot : Spot
  deriving DecidableEq, Repr, Inhabited

/-- The core that a saved workgroup of static placement goes back to: it never changes, and an inheriting successor's is its parent's (spec 04 R52, R62, R64). -/
def homeOf (m : Mach) (ws : List Nat) : Option Nat := (ws.head?).bind fun w => if isDet m w && decide ((m.block w).stages = 1) then some (m.wg w).core else none

/-- The saved workgroups of a unit placed again, set by set (spec 04 R64, 20 R378). -/
def backSets (m : Mach) (b : Block) (unit : List Nat) : List Nat → Room → Option (Room × List Back)
  | [], r => some (r, [])
  | i :: is, r =>
    let ws := unit.filter fun w => decide ((m.wg w).wgid = i)
    match placeUnit r b none (homeOf m ws) i (ws.map fun w => (m.wg w).stage) with
    | none => none
    | some e => (backSets m b unit is e.1).map fun f => (f.1, (ws.zip (e.2.map (·.2))).map (fun x => ⟨x.1, x.2⟩) ++ f.2)

/-- The place of a saved unit, none where it does not fit. -/
def backPlan (m : Mach) (p : Nat) (unit : List Nat) : Option (Room × List Back) :=
  backSets m (m.block (unit.headD 0)) unit (sortBy (fun a b => decide (a ≤ b)) (unit.map fun w => (m.wg w).wgid).eraseDups) (roomOf m p)

/-- A unit as saved workgroups remember it: a launch's next unit, or a saved unit (spec 20 R378). -/
def launchCode (k u : Nat) : Nat := 2 * (k * 2 ^ 32 + u)

/-- A saved unit, by its first workgroup. -/
def savedCode (w : Nat) : Nat := 2 * w + 1

/-- Admission has not decided on a unit. -/
def undecided (m : Mach) (code : Nat) : Bool :=
  if code % 2 = 0 then
    let l := m.launch (code / 2 / 2 ^ 32)
    l.live && l.inQueue && decide (l.nextUnit = code / 2 % 2 ^ 32)
  else decide ((m.wg (code / 2)).status = .saved)

/-- A restore list's key: priority and context (spec 20 R378). -/
def restoreKey (prio c : Nat) : Nat := 16 * prio + c

/-- The priority at which a restore list is served: its own, or a waiter's where that is higher (spec 20 R386). -/
def restorePrio (m : Mach) (p key : Nat) : Nat :=
  let x := m.ctx p (key % 16)
  if x.state = 2 ∧ x.quantum = false then x.inherits.foldl (fun acc e => max acc e.2) (key / 16) else key / 16

/-- The workgroups of a unit: one, a stage set, or a concurrent launch (spec 02 R23, 20 R378). -/
def sameUnit (m : Mach) (w v : Nat) : Bool :=
  decide ((m.wg v).launch = (m.wg w).launch) && (decide ((m.block w).progress = 0) || decide ((m.wg v).wgid = (m.wg w).wgid))

/-- No workgroup of the unit stands on a core still. -/
def unitWhole (m : Mach) (u : List Nat) : Bool :=
  u.all fun w => m.wgIds.all fun v => !(sameUnit m w v) || !(decide ((m.wg v).status = .running) || decide ((m.wg v).status = .admitted))

/-- The head unit of a restore list that may be restored now, without its place (spec 20 R378, R385, R386). -/
def restoreHead (m : Mach) (p key : Nat) : Option (List Nat) :=
  match (Store.get [] (m.part p).restore key).head? with
  | none => none
  | some u =>
    if (ctxRuns m p (key % 16) || !((m.ctx p (key % 16)).inherits.isEmpty)) && unitWhole m u && u.all fun w => (m.wg w).waitsFor.all fun c => !(undecided m c) then some u else none

/-- The restore lists that are served at a priority and whose head fits: the contexts, ascending, with the list's key (spec 20 R378). -/
def restoreCands (m : Mach) (p prio : Nat) : List (Nat × Nat) :=
  (List.range 16).filterMap fun c =>
    ((List.range 8).reverse.find? fun k =>
      decide (restorePrio m p (restoreKey k c) = prio) && ((restoreHead m p (restoreKey k c)).bind (backPlan m p)).isSome).map fun k => (c, restoreKey k c)

/-- A stop of admission lasts: its launch still heads its queue, which can be served (spec 03 R37). -/
def stopLasts (m : Mach) (p : Nat) (s : Nat × Nat) : Bool := queueOpen m p s.1 && decide (queueHead m p s.1 = some s.2)

/-- Admission from a queue is stopped by a head that has lacked room for 100 µs (spec 03 R37). -/
def queueStopped (m : Mach) (p q : Nat) : Bool :=
  match (m.part p).stopped with
  | none => false
  | some s => decide (q ≠ s.1) && stopLasts m p s && decide (qPrio (queueWord m p q) ≤ qPrio (queueWord m p s.1))

/-- The queues that are eligible at a priority, ascending (spec 03 R37). -/
def queueCands (m : Mach) (p prio : Nat) : List Nat :=
  (List.range 64).filter fun q =>
    queueOpen m p q && decide (qPrio (queueWord m p q) = prio) && !(queueStopped m p q) && ((queueHead m p q).bind (launchPlan m)).isSome

/-- The units that are eligible, of one priority or of all, as a save remembers them (spec 20 R378). -/
def eligibleUnits (m : Mach) (p : Nat) (prio : Option Nat) : List Nat :=
  (List.range 8).flatMap fun k =>
    if prio.isSome && decide (prio ≠ some k) then []
    else
      (restoreCands m p k).map (fun e => savedCode (((restoreHead m p e.2).getD []).headD 0)) ++
        (queueCands m p k).filterMap fun q => (queueHead m p q).map fun j => launchCode j (m.launch j).nextUnit

/-! ## Admitting a unit -/

/-- Registers of an inheriting successor's group (spec 04 R62, R63). -/
def inheritRegs (b : Block) (pk : Park) (g : Nat) : Store Word :=
  (pk.regs.getD g []).filter fun e => decide (b.inhFirst ≤ e.1 / 32) && decide (e.1 / 32 ≤ b.inhLast) && (decide (e.1 < 1024) || pk.xheld.getD g false)

/-- A group at placement (spec 04 R49, R54, R62). -/
def newGroup (b : Block) (park : Option Park) (now g slot : Nat) : Group :=
  { (default : Group) with
    slot := slot + 1
    live := 0xFFFFFFFF
    tid := (List.range 32).map fun l => (l, BitVec.ofNat 32 (32 * g + l))
    gaveUp := now
    ready := now + 40
    extHeld := park.isSome && decide (32 ≤ b.inhLast)
    regs := match park with | some pk => inheritRegs b pk g | none => [] }

/-- The starting value of a budget register (spec 02 R25). -/
def startBudget (b : Block) (v : Word) (cap : Option Word) : Word :=
  match cap with
  | some c => if b.cap && decide (c.toInt < v.toInt) then c else v
  | none => v

/-- The register range of %contlive at the start (spec 02 R25). -/
def startLive (b : Block) : BitVec 13 := if b.inhEn then BitVec.ofNat 13 (4096 + 64 * b.inhLast + b.inhFirst) else 0

/-- A workgroup at placement (spec 02 R15, R25, 04 R54). -/
def newWg (k : Nat) (l : Launch) (now : Nat) (e : Placed) : Wg :=
  let b := l.block
  { (default : Wg) with
    status := .admitted
    launch := k
    part := l.part
    ctx := l.ctx
    wgid := e.wgid
    stage := e.stage
    core := e.spot.core
    base := e.spot.base
    ngroups := b.groups
    groups := (e.spot.slots.zipIdx).map fun s => (s.2, newGroup b l.park now s.2 s.1)
    tempi := startBudget b b.tempi (l.budgets.map (·.1))
    tempm := startBudget b b.tempm (l.budgets.map (·.2))
    cont := b.entry
    contlive := startLive b
    checking := b.checking
    succSlots := b.succReserve
    nodeSlots := b.nodes }

/-- A decision on a unit is made: saved workgroups no longer wait for it (spec 20 R378). -/
def unitDecided (code : Nat) (m : Mach) : Mach :=
  { m with wgs := m.wgs.map fun e => (e.1, { e.2 with waitsFor := e.2.waitsFor.filter fun c => decide (c ≠ code) }) }

/-- The pointers of placement and what is reserved of pool and graph table (spec 03 R31, R40, 04 R49). -/
def reserveUnit (p : Nat) (r : Room) (b : Block) (n : Nat) (m : Mach) : Mach :=
  m.modP p fun q => { q with corePtr := r.corePtr, clusterPtr := r.clusterPtr, pool := q.pool - n * (b.succReserve + b.nodes), nodesFree := q.nodesFree - n * b.nodes }

/-- The next unit of a launch is admitted (spec 02 R21, 03 R31, R39, R40, 04 R62). -/
def admitUnit (k : Nat) (r : Room) (ps : List Placed) (m : Mach) : Mach :=
  let l := m.launch k
  let m1 := unitDecided (launchCode k l.nextUnit) (reserveUnit l.part r l.block ps.length m)
  let m2 := ps.foldl (fun acc e => { acc with wgs := Store.put acc.wgs acc.nextWg (newWg k l acc.cycle e), nextWg := acc.nextWg + 1 }) m1
  let m3 := m2.modL k fun l => { l with nextUnit := l.nextUnit + unitSets l, running := l.running + ps.length, park := none, lackSince := none }
  let m4 := m3.modP l.part fun q => { q with stopped := if q.stopped = some (l.queue, k) then none else q.stopped }
  let m5 := if l.nextUnit = 0 then writeBlockField l.part l.ctx l.addr 0x50 2 m4 else m4
  if l.block.count ≤ l.nextUnit + unitSets l then leaveQueue k m5 else m5

/-! ## Restoring a unit -/

/-- The bytes of a saved allocation at its new base; after a yield the two words of placement (spec 02 R22, 20 R377, R382). -/
def placeScratch (core base n : Nat) (bytes : Memory) (mem : Memory) : Memory :=
  let lo := scratchKey core base
  bytes.foldl (fun acc c => Memory.write acc (lo + c.1) c.2) (mem.dropRange lo (lo + footprint n))

/-- The two words of placement: argument pointer and block address (spec 02 R22). -/
def startWords (b : Block) (addr : DWord) : Memory := Memory.writeN [] 0 (leBytes 8 b.argp.toNat ++ leBytes 8 addr.toNat)

/-- A budget register at restore (spec 20 R378). -/
def refill (v add : Word) : Word := if spent v then v + add else v

/-- A group placed again (spec 04 R64); when it last gave up a slot is kept (log 118). -/
def backGroup (now slot : Nat) (y : Group) : Group :=
  { y with slot := slot + 1, stood := now, ready := now + 40, slotYield := none }

/-- A tile or a slot that was not in use reads zero after a restore (spec 12 R247). -/
def backTile (t : Tile) : Tile := if t.inUse then t else { t with elems := [] }

/-- An operand slot after a restore. -/
def backSlot (o : OSlot) : OSlot := if o.inUse then o else { o with bytes := [], rel := [] }

/-- A saved workgroup's record as it stands after the restore (spec 04 R64, 12 R247, 20 R378). -/
def backWg (b : Block) (now : Nat) (s : Spot) (x : Wg) : Wg :=
  let i := refill x.tempi b.tempi
  let k := refill x.tempm b.tempm
  { x with
    status := .running
    core := s.core
    base := s.base
    groups := x.groups.map fun e => (e.1, backGroup now (s.slots.getD e.1 0) e.2)
    tempi := i
    tempm := k
    yieldPending := spent i || spent k
    yieldWg := false
    preempt := none
    saveKind := none
    waitsFor := []
    savedScratch := []
    tiles := x.tiles.map fun e => (e.1, backTile e.2)
    oslots := x.oslots.map fun e => (e.1, backSlot e.2)
    spilled := false }

/-- The PC of the lanes of a run: its next word where it has stopped part-way, its entry's header where it has not begun (spec 21 R389). -/
def Run.pcAt (r : Run) : DWord := if r.started = 0 ∧ r.fetched = false then r.hdrAddr else r.next

/-- The PC of a lane that stands in a run or in one of some entries (spec 21 R389). -/
def pcIn (run : Option Run) (fr : List Entry) (l : Nat) : DWord :=
  match run.filter fun r => r.lanes.getLsbD l with
  | some r => r.pcAt
  | none => ((fr.find? fun e => e.lanes.getLsbD l).map (·.addr)).getD 0

/-- The PC of a lane, of one held aside in trap mode too (spec 21 R389). -/
def lanePc (y : Group) (l : Nat) : DWord :=
  match y.trapMode.filter fun t => !(t.lanes.getLsbD l) with
  | some t => pcIn t.run t.aside l
  | none => pcIn y.run y.frontier l

/-- A trace record of a workgroup: of the lowest group that has a thread (spec 21 R401, log 33). -/
def wgRecord (w kind : Nat) (v : Word) (m : Mach) : Mach :=
  match (m.wg w).groupIds.find? fun g => decide ((m.grp w g).live ≠ 0) with
  | some g => traceRecord w g kind (lanePc (m.grp w g) (lowLaneD (m.grp w g).live)) (m.grp w g).live v 0 m
  | none => traceRecord w 0 kind 0 0 v 0 m

/-- Passes saved before they started re-enter the table in their order, with age 0, as it has room (spec 12 R233, R247, log 83); `slot` holds the submitting group while
they are saved. -/
def backPasses (w : Nat) (m : Mach) : Mach :=
  admitPasses (clusterOf m w) (m.modW w fun z => { z with savedPasses := z.savedPasses.map fun p => { p with at_ := m.cycle, core := z.core, slot := (m.grp w p.slot).slot } })

/-- One saved workgroup is restored: its place, its scratchpad, its passes, an acquire at device scope (spec 12 R247, 16 R303, 20 R378). -/
def restoreWg (e : Back) (m : Mach) : Mach :=
  let x := m.wg e.w
  let l := m.launch x.launch
  let bytes := match x.saveKind with | some .full | some .overdraft => x.savedScratch | _ => startWords l.block l.addr
  let m1 := { m with scratch := placeScratch e.spot.core e.spot.base l.block.scratch bytes m.scratch }
  let m2 := dropCache e.spot.core (m1.modW e.w (backWg l.block m.cycle e.spot))
  let m3 : Mach := { m2 with
    copies := m2.copies.map fun k => (k.1, if k.2.wg = e.w then { k.2 with cluster := clusterOfCore e.spot.core } else k.2)
    clusters := m2.clusters.map fun k => (k.1, { k.2 with bank := k.2.bank.filter fun v => decide (v ≠ e.w) }) }
  wgRecord e.w 5 0 (backPasses e.w m3)

/-- The head unit of a restore list is restored. -/
def restoreUnit (p key : Nat) (r : Room) (bs : List Back) (m : Mach) : Mach :=
  let m1 := m.modP p fun q => { q with corePtr := r.corePtr, clusterPtr := r.clusterPtr, restore := Store.upd [] q.restore key fun us => us.drop 1 }
  bs.foldl (fun acc e => restoreWg e acc) (unitDecided (savedCode ((bs.map (·.w)).headD 0)) m1)

/-! ## The decision -/

/-- The cycle since which each head has lacked room (spec 03 R37). -/
def countLack (p : Nat) (m : Mach) : Mach :=
  (List.range 64).foldl (fun acc q =>
    match queueHead m p q with
    | none => acc
    | some k => acc.modL k fun l => { l with lackSince := if queueOpen m p q && (launchPlan m k).isNone then some (l.lackSince.getD m.cycle) else none }) m

/-- The winner of a rotating pointer (spec 03 R38, 20 R378). -/
def rotate (ptr : Nat) (ks : List Nat) : Nat := ((ks.find? fun k => decide (ptr < k)) <|> ks.head?).getD 0

/-- A restore list of a priority wins (spec 20 R378). -/
def decideRestore (p prio : Nat) (cs : List (Nat × Nat)) (m : Mach) : Mach :=
  let det := cs.any fun e => (m.block (((restoreHead m p e.2).getD []).headD 0)).det
  let c := if det then (cs.map (·.1)).headD 0 else rotate (Store.get 15 (m.part p).rptr prio) (cs.map (·.1))
  let key := ((cs.find? fun e => decide (e.1 = c)).map (·.2)).getD 0
  match (restoreHead m p key).bind (backPlan m p) with
  | none => m
  | some e => restoreUnit p key e.1 e.2 (if det then m else m.modP p fun q => { q with rptr := Store.put q.rptr prio c })

/-- A queue of a priority wins (spec 03 R38). -/
def decideQueue (p prio : Nat) (qs : List Nat) (m : Mach) : Mach :=
  let det := qs.any fun q => ((queueHead m p q).map fun k => (m.launch k).block.det).getD false
  let q := if det then qs.headD 0 else rotate (Store.get 63 (m.part p).qptr prio) qs
  match queueHead m p q with
  | none => m
  | some k =>
    match launchPlan m k with
    | none => m
    | some e => admitUnit k e.1 e.2 (if det then m else m.modP p fun z => { z with qptr := Store.put z.qptr prio q })

/-- The head of a queue has lacked room for 130,000 cycles (spec 03 R37). -/
def headStarved (m : Mach) (p q : Nat) : Bool :=
  queueOpen m p q && (match (queueHead m p q).bind fun k => (m.launch k).lackSince with | some t => decide (t + 130000 ≤ m.cycle) | none => false)

/-- ADMISSION_STOP: the starved head of the highest priority stops admission from queues of its priority and below (spec 03 R37). -/
def admissionStop (p : Nat) (m : Mach) : Mach :=
  let beats := fun q => match (m.part p).stopped with
    | none => true
    | some s => !(stopLasts m p s) || decide (qPrio (queueWord m p s.1) < qPrio (queueWord m p q))
  match (List.range 8).reverse.findSome? fun k => (List.range 64).find? fun q => decide (qPrio (queueWord m p q) = k) && headStarved m p q && beats q with
  | none => m
  | some q => m.modP p fun z => { z with stopped := (queueHead m p q).map fun k => (q, k) }

/-- ADMISSION_DECISION: the highest priority at which a restore list or a queue is eligible; the lists come first (spec 03 R37, 20 R378). A head that is due to stop
admission has stopped it. -/
def admissionDecision (p : Nat) (m0 : Mach) : Mach :=
  let m := admissionStop p (countLack p m0)
  match (List.range 8).reverse.find? fun k => !((restoreCands m p k).isEmpty) || !((queueCands m p k).isEmpty) with
  | none => m
  | some k => if (restoreCands m p k).isEmpty then decideQueue p k (queueCands m p k) m else decideRestore p k (restoreCands m p k) m

/-- ADMISSION_DECISION. -/
def execAdmissionDecision (part : Nat) (s : State) : Host.Outcome State Fault Refusal := eventStep (admissionDecision part) s

/-- ADMISSION_STOP. -/
def execAdmissionStop (part : Nat) (s : State) : Host.Outcome State Fault Refusal := eventStep (admissionStop part) s

/-! ## The start -/

/-- A workgroup of lower %wgid starts first: of the launch where it is weakly parallel, on the core where placement is static (spec 02 R23, 04 R52). -/
def startsLater (m : Mach) (w : Nat) : Bool :=
  let x := m.wg w
  m.wgIds.any fun v => decide ((m.wg v).launch = x.launch) && decide ((m.wg v).status = .admitted) && decide ((m.wg v).wgid < x.wgid) &&
    (decide ((m.block w).progress = 2) || ((m.block w).det && decide ((m.wg v).core = x.core)))

/-- WORKGROUP_START: the two words, zeros, the acquire; every group stands at the entry; its first issue comes 40 cycles after its admission
(spec 02 R22, R23, R25, 03 R36, 04 R51, R52, R54). -/
def workgroupStart (w : Nat) (m : Mach) : Mach :=
  let x := m.wg w
  let l := m.launch x.launch
  if x.status = .admitted ∧ startsLater m w = false then
    let m1 := { m with scratch := placeScratch x.core x.base l.block.scratch (startWords l.block l.addr) m.scratch }
    let m2 := dropCache x.core (m1.modW w fun x => { x with status := .running, yieldPending := spent x.tempi || spent x.tempm })
    x.groupIds.foldl (fun acc g => standAt w g l.block.entry 0xFFFFFFFF acc) m2
  else m

/-- WORKGROUP_START. -/
def execWorkgroupStart (w : Nat) (s : State) : Host.Outcome State Fault Refusal := eventStep (workgroupStart w) s

end Sys2Proof.Machine
end

