-- ==== Sys2Proof/Machine/Save.lean ====
section
/-! DEFINITION. Workgroups leave their cores: the yield, the stall rule, the full pre-emption, restore lists (spec 06 R99, 10 R187, 11 R219, 12 R246, 16 R303, 18 R349,
20 R376 to R384, R387). -/

namespace Sys2Proof.Machine

/-! ## Honour points -/

/-- The group stands at an honour point (spec 06 R99): between two runs, at a wait point, in a held instruction, at a resource hold, or without a slot
since one of these; a group without a thread asks for nothing. -/
def atHonour (m : Mach) (w g : Nat) : Bool :=
  let y := m.grp w g
  decide (y.live = 0) || y.held.isSome || y.exiting.isSome || (slotOf m w g).isNone ||
    (match y.run with
     | none => true
     | some r => r.waiting)

/-- Every group with a thread has arrived at a REORDER, which completes before anything else (spec 07 R133). -/
def reorderBegun (m : Mach) (w : Nat) : Bool :=
  let gs := (m.wg w).groupIds.filter fun g => decide ((m.grp w g).live ≠ 0)
  !gs.isEmpty && gs.all fun g => (reorderOf (m.grp w g)).isSome

/-- Every group stands at an honour point. -/
def allStopped (m : Mach) (w : Nat) : Bool := !(reorderBegun m w) && (m.wg w).groupIds.all (atHonour m w)

/-- A halt stops the group where it stands: a run that has passed a held instruction goes on to its next honour point, and a handler to its next boundary of a run
(spec 21 R393, R395, R397). -/
def atHalt (m : Mach) (w g : Nat) : Bool :=
  let y := m.grp w g
  atHonour m w g && (y.trapMode.isNone || y.run.isNone || decide (y.live = 0)) && !((y.run.map (·.goes)).getD false && y.held.isNone)

/-- Every group stands where a halt stops it. -/
def allHalted (m : Mach) (w : Nat) : Bool := !(reorderBegun m w) && (m.wg w).groupIds.all (atHalt m w)

/-- A deferred fault is due at the wait point where the group stands; it is taken first (spec 20 R387). -/
def faultDue (m : Mach) (w g : Nat) : Bool :=
  let y := m.grp w g
  match y.held, y.exiting, y.run with
  | some _, _, _ => false
  | none, some _, _ => (dueFault y 0xFF).isSome
  | none, none, some r => r.waiting && (dueFault y (waitMask m w g r)).isSome
  | none, none, none => (m.wg w).yieldPending && (issuable m w g).isEmpty && (dueFault y 0xFF).isSome

/-- Commands that settle before a save: results on their way, accesses, releases, fences, arrivals (spec 16 R303, 20 R382). -/
def settleK : OutKind → Bool
  | .sfu _ _ _ | .load _ _ _ _ _ _ _ | .loadScratch _ _ _ _ | .storeScratch _ _ | .store _ _ _ _ _ | .rmw _ _ _ _ _ _ _ | .rel _ _ | .fence _ _ _ _ => true
  | .acq _ _ _ _ _ at_ => at_.isNone
  | .qsend _ _ _ bytes _ _ _ _ => bytes.isNone
  | .cmd (.arrive _) _ _ => true
  | _ => false

/-- A command that a save keeps as it stands: it has faulted, it waits for its turn or for another thread, its region is to be decided, or it is a load 300 cycles
after the request (spec 16 R303, 18 R336, 20 R382, log 119). -/
def keptAsIs (m : Mach) (w : Nat) (e : CoreOut) : Bool :=
  e.o.fail.isSome || (e.o.shared && !(holdsTurn m e.w)) || isWaiting e.o.kind ||
    (match e.o.kind with
     | .gcommit _ => true
     | k => isLoadK k && decide (e.w = w) && decide ((m.wg w).askedAt + 300 ≤ m.cycle))

/-- A command that the rules put before another, of its group or of its core. -/
def putBefore (m : Mach) (e f : CoreOut) : Bool :=
  byteFirst m e f || (decide (e.w = f.w) && decide (e.g = f.g) && holdsBack m e.w e.g e.o f.o) ||
    (decide (e.w = f.w) && e.o.shared && f.o.shared && decide (f.o.id < e.o.id) && writesK f.o.kind)

/-- The commands of a core that cannot settle before a workgroup's save: those kept as they stand, and those that wait for one of them. -/
def unsettled (m : Mach) (w : Nat) : List Nat :=
  let es := sortBy (fun a b => decide (a.o.id ≤ b.o.id)) (coreOuts m (m.wg w).core)
  es.foldl (fun acc e => if keptAsIs m w e || es.any (fun f => acc.contains f.o.id && putBefore m e f) then acc ++ [e.o.id] else acc) []

/-- The command settles before the save (spec 16 R303, 20 R382). -/
def settlesFirst (m : Mach) (w : Nat) (o : Out) : Bool := settleK o.kind && !((unsettled m w).contains o.id)

/-- A pass of the workgroup is in the engine (spec 12 R246). -/
def passRuns (m : Mach) (w : Nat) : Bool := (m.cluster (clusterOf m w)).inEngine.any fun p => decide (p.wg = w)

/-! ## What every save does -/

/-- A lane leaves where it stands for an address; a lane outside the trap set of a group in trap mode stands among the entries held aside. -/
def Group.sendTo (l : Nat) (addr : DWord) (pr : Nat) (y : Group) : Group :=
  let k := maskOf [l]
  let off := fun (fr : List Entry) => (fr.map fun e => { e with lanes := e.lanes &&& ~~~k }).filter fun e => decide (e.lanes ≠ 0)
  match (y.trapMode).filter fun t => !(t.lanes.getLsbD l) with
  | some t => { y with trapMode := some { t with aside := joinEntry (off t.aside) addr pr k } }
  | none =>
    let run := (y.run.map fun r => { r with lanes := r.lanes &&& ~~~k, moves := r.moves.map fun e => (e.1, e.2 &&& ~~~k) }).filter fun r => decide (r.lanes ≠ 0)
    { y with
      frontier := joinEntry (off y.frontier) addr pr k
      run := run
      held := if run.isNone then none else y.held
      exiting := (y.exiting.map fun e => (e.1 &&& ~~~k, e.2)).filter fun e => decide (e.1 ≠ 0) }

/-- Open regions abort before a save, with the cause decided or PREEMPT; their lanes stand at the fallbacks (spec 18 R349). -/
def abortOpen (w : Nat) (m : Mach) : Mach :=
  (m.regions.filter fun q => decide (q.wg = w)).foldl (fun acc q =>
    let pr := prioAt acc (wgSite acc w) (acc.wg w).part (acc.wg w).ctx q.fallback
    (abortRegion q (q.aborted.getD (6, 0)).1 (q.aborted.getD (6, 0)).2 acc).modG w q.grp fun y => y.sendTo q.lane q.fallback pr) m

/-- A command as a save keeps it: a copy that stopped at a fault that no handler has taken is stalled there; a WAITW is issued again (spec 11 R219, 18 R336). -/
def keepOut (taken : Option Nat) (o : Out) : Out :=
  match o.kind with
  | .copy _ _ => if (o.fail.map (·.cause)) = some .asyncCopyFault ∧ taken ≠ some o.id then { o with fail := none } else o
  | .waitw n dst sc lanes => { o with kind := .waitw n dst sc (lanes.map fun a => { a with region := none }) }
  | _ => o

/-- Restore lists in which a workgroup's unit may stand (spec 20 R378). -/
def restoreKeyOf (m : Mach) (w : Nat) : Nat := restoreKey (m.block w).priority (m.wg w).ctx

/-- The order of a unit: %wgid, then %stage. -/
def beforeInUnit (m : Mach) (v w : Nat) : Bool :=
  decide ((m.wg v).wgid < (m.wg w).wgid) || (decide ((m.wg v).wgid = (m.wg w).wgid) && decide ((m.wg v).stage ≤ (m.wg w).stage))

/-- A saved workgroup joins its unit, or the end of its list (spec 20 R378). -/
def joinList (m : Mach) (w : Nat) (us : List (List Nat)) : List (List Nat) :=
  if us.any fun u => u.any (sameUnit m w) then us.map fun u => if u.any (sameUnit m w) then placeBy (beforeInUnit m) w u else u else us ++ [[w]]

/-- The other workgroups of the unit are saved too (spec 02 R23, 20 R378). -/
def saveSiblings (w : Nat) (m : Mach) : Mach :=
  (m.wgIds.filter fun v => decide (v ≠ w) && sameUnit m w v).foldl (fun acc v => requestSave .full v acc) m

/-- The slices of copies that a save stalls leave the Rook (spec 11 R201, R219). -/
def lodgeSlices (m : Mach) : Mach :=
  { m with slices := m.slices.map fun e => (e.1,
      if copyStalled m (m.copy e.2.copy) && (match e.2.status with | .queued | .running | .faulted => true | _ => false) then { e.2 with status := .lodged } else e.2) }

/-- The groups of a workgroup that hold issue slots give them up now (spec 06 R97, R98). -/
def leaveSlots (w : Nat) (m : Mach) : Mach :=
  (dropSlots w m).modW w fun x => { x with groups := x.groups.map fun e => (e.1, if (slotOf m w e.1).isSome then { e.2 with gaveUp := m.cycle } else e.2) }

/-- The end of a save: the place is free, the save lies in the cluster's bank, the units to wait for are noted, the unit joins its list, the record is written, a
host command may be complete (spec 20 R378, R383, 21 R401, 23 R416). -/
def leaveCore (w kind : Nat) (v : Word) (wait : Option (Option Nat)) (mi : Mach) : Mach :=
  let p := (mi.wg w).part
  let m0 := leaveSlots w mi
  let m := lodgeSlices ((m0.modCluster (clusterOf m0 w) fun k => { k with bank := k.bank ++ [w] }).modW w fun x =>
    { x with status := .saved, preempt := none, yieldPending := false, yieldWg := false, spilled := false })
  let us := match wait with | some prio => eligibleUnits m p prio | none => []
  let m1 := m.modW w fun x => { x with waitsFor := us }
  let m2 := m1.modP p fun q => { q with restore := Store.upd [] q.restore (restoreKeyOf m1 w) (joinList m1 w) }
  settleAcks p (saveSiblings w (wgRecord w kind v { m2 with cur := if (m2.cur.map (·.1)) = some w then none else m2.cur }))

/-! ## The yield -/

/-- The registers that a yield keeps (spec 20 R377): those of the %contlive range. -/
def contRegs (cl : BitVec 13) (held : Bool) (rs : Store Word) : Store Word :=
  rs.filter fun e => cl.getLsbD 12 && decide (fld cl.toNat 0 6 ≤ e.1 / 32) && decide (e.1 / 32 ≤ fld cl.toNat 6 6) && (decide (e.1 < 1024) || held)

/-- A group as a yield leaves it (spec 20 R377); lanes whose region has aborted stand at their fallbacks (18 R349, log 35). -/
def yieldGroup (cl : BitVec 13) (y0 : Group) : Group :=
  let y := y0.landEvery
  { (default : Group) with
    slot := y.slot
    regs := contRegs cl y.extHeld y.regs
    tid := y.tid
    fpflags := y.fpflags
    fpmode := y.fpmode
    trapmask := y.trapmask
    live := y.live
    extHeld := y.extHeld
    frontier := y.frontier.filter fun e => decide (e.lanes &&& y.live ≠ 0)
    ready := y.ready
    gaveUp := y.gaveUp
    copiesIssued := y.copiesIssued
    lser := y.lser
    endedTurn := y.endedTurn
    locks := y.locks
    retries := y.retries }

/-- A workgroup as a yield leaves it (spec 11 R215, 20 R377). -/
def yieldWg (k : SaveKind) (x : Wg) : Wg :=
  { x with
    groups := x.groups.map fun e => (e.1, yieldGroup x.contlive e.2)
    saveKind := some k
    xacqQ := []
    bars := []
    shadows := []
    oslots := []
    tiles := []
    convs := []
    savedScratch := []
    savedPasses := [] }

/-- Every group is parked and every submitted pass has retired (spec 20 R376). -/
def yieldReady (m : Mach) (w : Nat) : Bool :=
  let x := m.wg w
  wgActive x && !x.haltReq && x.stepEvent.isNone && x.yieldPending && x.preempt.isNone && x.groupIds.all (groupParked m w) &&
    !((openPasses m (clusterOf m w)).any fun p => decide (p.wg = w)) && !(passRuns m w)

/-- The save of a yield (spec 20 R376, R377, R378). -/
def yieldSave (w : Nat) (m : Mach) : Mach :=
  let x := m.wg w
  let k : SaveKind := if x.yieldWg then .voluntary else .exhausted
  let m1 := flushAll x.core (abortOpen w m)
  leaveCore w 3 0 (some (if x.yieldWg then some (m.block w).priority else none)) (m1.modW w (yieldWg k))

/-- Since when a group has stood: at its wait point, since it gave up its slot, or since it was placed again. -/
def stoodSince (y : Group) : Nat := max y.stood y.gaveUp

/-- A group that is not parked and stands in a held instruction, at a resource hold, at its EXIT or at a wait point, %cont's included (spec 20 R376). -/
def standsStill (m : Mach) (w g : Nat) : Bool :=
  let y := m.grp w g
  y.held.isSome || y.exiting.isSome ||
    (match y.run with
     | some r => r.waiting
     | none => (issuable m w g).isEmpty)

/-- The cycle from which the stall rule counts: every live group has been parked or has stood since (spec 20 R376). -/
def stallFrom (m : Mach) (w : Nat) : Nat := (m.wg w).groupIds.foldl (fun acc g => if (m.grp w g).live = 0 then acc else max acc (stoodSince (m.grp w g))) 0

/-- STALL_PREEMPT_TIMEOUT: a yield is pending, and for 1,300 cycles every group that is not parked has stood still; halted cycles do not count (spec 20 R376,
21 R393). -/
def stallTimeout (w : Nat) (m : Mach) : Mach :=
  let x := m.wg w
  let gs := x.groupIds.filter fun g => !(groupParked m w g)
  let t := stallFrom m w
  let skip := if x.stallSkip.1 = t then x.stallSkip.2 else 0
  if wgActive x && x.yieldPending && x.preempt.isNone && !gs.isEmpty && gs.all (standsStill m w) && decide (t + skip + 1300 ≤ m.cycle) then requestSave .full w m
  else m

/-- STALL_PREEMPT_TIMEOUT. -/
def execStallPreemptTimeout (w : Nat) (s : State) : Host.Outcome State Fault Refusal := eventStep (stallTimeout w) s

/-! ## The full pre-emption -/

/-- The declared bytes of the scratchpad, by offset (spec 20 R382). -/
def scratchOf (m : Mach) (w : Nat) : Memory :=
  let lo := scratchAddr (m.wg w) 0
  (m.scratch.filter fun c => decide (lo ≤ c.1) && decide (c.1 < lo + (m.block w).scratch)).map fun c => (c.1 - lo, c.2)

/-- A tile, a slot after the save: the dirty bit is cleared (spec 12 R246). -/
def cleanTile (t : Tile) : Tile := if t.inUse then { t with dirty := false } else t

/-- A slot. -/
def cleanSlot (o : OSlot) : OSlot := if o.inUse then { o with dirty := false } else o

/-- Passes that have not started, with their submitting groups (spec 12 R246). -/
def passesToSave (m : Mach) (w : Nat) : List Pass :=
  ((m.cluster (clusterOf m w)).table.filter fun p => decide (p.wg = w)).map fun p =>
    { p with slot := ((m.wg w).groupIds.find? fun g => decide ((m.grp w g).slot = p.slot)).getD 0 }

/-- Everything of a workgroup goes into its save (spec 12 R246, 20 R382). -/
def saveWg (m : Mach) (w : Nat) (k : SaveKind) (x : Wg) : Wg :=
  { x with
    groups := x.groups.map fun e => (e.1, let y := e.2.landEvery; { y with outs := y.outs.map (keepOut (y.trapMode.bind (·.replay))) })
    tiles := x.tiles.map fun e => (e.1, cleanTile e.2)
    oslots := x.oslots.map fun e => (e.1, cleanSlot e.2)
    savedScratch := scratchOf m w
    savedPasses := x.savedPasses ++ passesToSave m w
    saveKind := some k }

/-- The save may be made: every group stands at an honour point with no fault due, which a halted group does not take; nothing is left to settle, no pass is in the
engine (spec 06 R99, 12 R246, 16 R303, 20 R382, R387, 21 R393). -/
def saveReady (m : Mach) (w : Nat) : Bool :=
  allStopped m w && ((m.wg w).halted || !((m.wg w).groupIds.any (faultDue m w))) && !(passRuns m w) &&
    (m.wg w).groupIds.all fun g => (m.grp w g).outs.all fun o => !(settlesFirst m w o)

/-- ACQs that wait on lock words, of a swapped-out context: the waiters' priority goes to the holders (spec 20 R386). -/
def inheritAll (p c : Nat) (m : Mach) : Mach :=
  (allOuts m).foldl (fun acc e =>
    match arrivalOf e.o with
    | some (_, pa) =>
      let v := leNat (readPa acc pa 8)
      if (m.wg e.w).part = p ∧ fld v 32 4 = c then inherit p pa v (m.block e.w).priority acc else acc
    | none => acc) m

/-- The full save of a pre-emption (spec 20 R378, R382). -/
def fullSave (w : Nat) (m : Mach) : Mach :=
  let x := m.wg w
  let k := x.preempt.getD .full
  let m1 := flushAll x.core (abortOpen w m)
  let m2 := m1.modW w (saveWg m1 w k)
  leaveCore w 4 0 (match k with | .overdraft => some none | _ => none) { m2 with clusters := (dropPasses w m2).clusters }

/-- The workgroup can leave its core now: by its yield, or by a pre-emption requested of it. -/
def leavesNow (m : Mach) (w : Nat) : Bool := yieldReady m w || (decide ((m.wg w).status = .running) && (m.wg w).preempt.isSome && saveReady m w)

/-- The workgroups that are saved together with one: all of a concurrent launch that stand on cores (spec 02 R23). -/
def savedWith (m : Mach) (w : Nat) : List Nat :=
  if (m.block w).progress = 0 then m.wgIds.filter fun v => sameUnit m w v && onCore (m.wg v) else [w]

/-- One save, or the saves of a concurrent launch together, once each of its workgroups can leave; until then the others are asked to (spec 02 R23, 20 R378). -/
def saveUnit (w : Nat) (m : Mach) : Mach :=
  let vs := savedWith m w
  if vs.all (leavesNow m) then (vs.map fun v => (v, yieldReady m v)).foldl (fun acc e => if e.2 then yieldSave e.1 acc else fullSave e.1 acc) m
  else saveSiblings w m

/-- YIELD_TAKEN (spec 20 R376, R377, R378). -/
def yieldTaken (w : Nat) (m : Mach) : Mach := if yieldReady m w then saveUnit w m else m

/-- YIELD_TAKEN. -/
def execYieldTaken (w : Nat) (s : State) : Host.Outcome State Fault Refusal := eventStep (yieldTaken w) s

/-- PREEMPTION_SAVE: a workgroup of a killed launch ends; else the full save (spec 20 R374, R382). -/
def preemptionSave (w : Nat) (m : Mach) : Mach :=
  let x := m.wg w
  if x.preempt.isNone ∨ x.status ≠ .running then m
  else if (m.launch x.launch).killed then (if allStopped m w then endAborted w m else m)
  else if saveReady m w then saveUnit w m
  else m

/-- PREEMPTION_SAVE. -/
def execPreemptionSave (w : Nat) (s : State) : Host.Outcome State Fault Refusal := eventStep (preemptionSave w) s

/-- The bytes of the save area that a spilled save changes (spec 20 R383, 23 R417): what it holds and where is a free value (log 36). -/
def spillImage (d : CtxDesc) (n : Nat) : List (Nat × Byte) :=
  ((Config.saveImage n).filter fun e => decide (e.1 < d.saveSize.toNat)).map fun e => (d.saveBase.toNat + e.1, e.2)

/-- SAVE_SPILL: a landed save is copied from the cluster's save bank to the context's save area, in a format that no program sees (spec 20 R383, log 36). -/
def saveSpill (w : Nat) (m : Mach) : Mach :=
  let x := m.wg w
  if decide (x.status = .saved) && m.clusters.any fun e => e.2.bank.contains w then
    let m1 := (spillImage (m.ctx x.part x.ctx).desc m.freeCtr).foldl (fun acc e => writePa acc none none e.1 [e.2]) m.useFree
    { (m1.modW w fun x => { x with spilled := true }) with clusters := m1.clusters.map fun e => (e.1, { e.2 with bank := e.2.bank.filter fun v => decide (v ≠ w) }) }
  else m

/-- SAVE_SPILL. -/
def execSaveSpill (w : Nat) (s : State) : Host.Outcome State Fault Refusal := eventStep (saveSpill w) s

end Sys2Proof.Machine
end

