-- ==== Sys2Proof/Machine/Retire.lean ====
section
/-! DEFINITION. Retirement (spec 03 R36, R43, 04 R61 to R63, 19 R358, 22 R405 to R413). -/

namespace Sys2Proof.Machine

/-- The successor's block as its parent reads it, where it inherits (spec 04 R61). -/
def inheritBlock (m : Mach) (w : Nat) (name : DWord) : Option Block :=
  match translateNormal m (partSite m (m.wg w).part) (m.wg w).part (m.wg w).ctx name.toNat .read with
  | .error _ => none
  | .ok x =>
    let b := blockOf (readPa m x.pa 128)
    if b.inhEn && decide (b.count = 1) && decide (b.stages = 1) && decide (1 ≤ b.groups) && decide (b.groups ≤ (m.wg w).ngroups) then some b else none

/-- What is parked for an inheriting successor (spec 04 R62, R63). -/
def parkFor (m : Mach) (w : Nat) (b : Block) : Park :=
  let gs := (List.range b.groups).map fun g => (m.grp w g).landEvery
  { core := (m.wg w).core
    xheld := gs.map fun y => y.extHeld && decide (32 ≤ b.inhLast)
    slots := gs.map fun y => y.slot - 1
    regs := gs.map (·.regs) }

/-- The granules of a block are read before it is: a location whose check has failed is read again at once (spec 10 R190, log 7). -/
def retryBlock (p c : Nat) (name : DWord) (m : Mach) : Mach :=
  match translateNormal m (partSite m p) p c name.toNat .read with
  | .ok x => retryRange x.pa 128 m
  | .error _ => m

/-- Successors of one retirement: the machine, how many have become ready, whether one inherits. -/
structure Handed where
  m : Mach
  readied : Nat
  inherited : Bool
  deriving DecidableEq, Repr, Inhabited

/-- One decrement in the order of the list: at zero the block is ready with one of the reserved slots (spec 03 R33 to R35, R43, 04 R61). -/
def handOver (w : Nat) (name : DWord) (h : Handed) : Handed :=
  let x := h.m.wg w
  match decrementCount (partSite h.m x.part) x.part x.ctx name 1 h.m with
  | (.error (_, under), m1) => { h with m := eventRecord x.part name .graphNode 1 under m1 }
  | (.ok cnt, m0) =>
    let m1 := if cnt = 0 then retryBlock x.part x.ctx name m0 else m0
    if cnt = 0 then
      let park := if h.inherited then none else (inheritBlock m1 w name).map (parkFor m1 w)
      { m := makeReady ⟨x.part, x.ctx, name, some (x.tempi, x.tempm), park⟩ (m1.modW w fun z => { z with succSlots := z.succSlots - 1 })
        readied := h.readied + 1
        inherited := h.inherited || park.isSome }
    else { h with m := m1 }

/-- A bounded remainder goes back to a reserve (spec 22 R409). -/
def giveBack (v : Word) (res : DWord) : DWord :=
  if v = unbounded ∨ v.toInt ≤ 0 then res else if 2 ^ 64 ≤ res.toNat + v.toNat then BitVec.allOnes 64 else res + v.zeroExtend 64

/-- Budget settlement (spec 22 R409). -/
def settleBudget (w : Nat) (m : Mach) : Mach :=
  let x := m.wg w
  if (m.block w).topUp then m.modC x.part x.ctx fun c => { c with ireserve := giveBack x.tempi c.ireserve, mreserve := giveBack x.tempm c.mreserve } else m

/-- The retired count rises by one (spec 02 R21, 22 R413). -/
def countRetired (k : Nat) (m : Mach) : Mach :=
  let l := m.launch k
  match hwWrite (partSite m l.part) l.part l.ctx (l.addr.toNat + 0x54) false m with
  | (.ok x, m1) => writePa m1 none none x.pa (leBytes 4 (leNat (readPa m1 x.pa 4) + 1))
  | (.error e, m1) => eventRecord l.part l.addr .launchBlockInvalid 4 (causeCode e) m1

/-- The state becomes 3 when the last workgroup has retired, or 4 where one has not (spec 02 R21, 20 R373, 22 R413). -/
def finishLaunch (k : Nat) (m : Mach) : Mach :=
  let l := m.launch k
  if l.live && !l.killed && !l.cut && !l.inQueue && decide (l.running = 0) && decide (l.block.count ≤ l.nextUnit) then
    (writeBlockField l.part l.ctx l.addr 0x50 3 m).modL k fun l => { l with live := false }
  else settleLaunch k m

/-- A lane as the debug unit names it, with where it stands now (spec 21 R388). -/
def laneAt (m : Mach) (w g l : Nat) : LaneAt :=
  let x := m.wg w
  { ctx := x.ctx
    block := (m.launch x.launch).addr
    wgid := x.wgid
    stage := x.stage
    tid := (Store.get 0 (m.grp w g).tid l).toNat
    die := dieOfCore x.core
    cluster := clusterOfCore x.core % 64
    core := x.core % 4
    group := g
    lane := l }

/-- The live lanes of a workgroup, as a report names them (spec 21 R388, R393). -/
def lanesAt (m : Mach) (w : Nat) : List LaneAt := (m.wg w).groupIds.flatMap fun g => (lanesOf (m.grp w g).live).map fun l => laneAt m w g l

/-- The record of the end of a step (spec 21 R397): the event, and what the host is told. -/
def stepRecord (w ev : Nat) (m : Mach) : Mach := toHost (m.wg w).part (.stepEnd w ev (lanesAt m w)) (wgRecord w 7 (BitVec.ofNat 32 ev) m)

/-- A workgroup in the middle of a step retires (spec 21 R397). -/
def stepRetires (w : Nat) (m : Mach) : Mach := if (m.wg w).stepLeft.isSome then stepRecord w 5 m else m

/-- The retirement record (spec 22 R412). -/
def retireRecord (w : Nat) (h : Handed) : Mach :=
  let x := h.m.wg w
  traceRecord w 0 6 x.exitPc 0 (BitVec.ofNat 32 (256 * h.inherited.toNat + 8 * (x.succ.getD []).length + h.readied)) 0 h.m

/-- Steps 4 to 9 (spec 22 R405). -/
def retireNow (w : Nat) (m : Mach) : Mach :=
  let x := m.wg w
  let m1 := settleBudget w (flushAll x.core (dropPasses w m))
  let m2 := stepRetires w (retireRecord w ((x.succ.getD []).foldl (fun acc n => handOver w n acc) ⟨m1, 0, false⟩))
  settleAcks x.part (finishLaunch x.launch (countRetired x.launch (freeWg w m2)))

/-- WORKGROUP_RETIRE: in deterministic mode the turn is waited for and passed first (spec 19 R358, 22 R405). -/
def workgroupRetire (w : Nat) (m : Mach) : Mach :=
  if (m.wg w).status ≠ .retiring then m
  else if isDet m w && !(turnEnded m w) then (if holdsTurn m w then retireNow w (endTurn w m) else m)
  else retireNow w m

/-- WORKGROUP_RETIRE. -/
def execWorkgroupRetire (w : Nat) (s : State) : Host.Outcome State Fault Refusal := eventStep (workgroupRetire w) s

end Sys2Proof.Machine
end

