-- ==== Sys2Proof/Machine/Debug.lean ====
section
/-! DEFINITION. The debug unit: halts, steps, replay, reads and writes of state, the lane-cycle record, the trace (spec 21 R388 to R404). -/

namespace Sys2Proof.Machine

/-- The workgroups that a host command names (spec 20 R381, 21 R393). -/
def targetWgs (m : Mach) (p : Nat) (t : HostTarget) : List Nat :=
  m.wgIds.filter fun w =>
    let x := m.wg w
    decide (x.part = p) && decide (x.status ≠ .ended) &&
      match t with
      | .wg n => decide (w = n)
      | .launch c b => decide (x.ctx = c) && decide ((m.launch x.launch).addr = b)
      | .ctx c => decide (x.ctx = c)
      | .part => true

/-- A named workgroup does not exist. -/
def targetGone (m : Mach) (p : Nat) (t : HostTarget) : Bool :=
  match t with
  | .wg _ => (targetWgs m p t).isEmpty
  | _ => !((m.part p).made)

/-! ## Halts and steps -/

/-- HALT_REQUEST (spec 21 R393): of a workgroup, a launch or a context; one that retires is not halted (22 R406). -/
def haltRequest (p : Nat) (t : HostTarget) (m : Mach) : Mach :=
  if targetGone m p t || decide (t = .part) then toHost p .invalid m
  else toHost p .ack ((targetWgs m p t).foldl (fun acc w => acc.modW w fun x => { x with haltReq := x.haltReq || !(x.halted || decide (x.status = .retiring)) }) m)

/-- HALT_REQUEST. -/
def execHaltRequest (part : Nat) (tgt : HostTarget) (s : State) : Host.Outcome State Fault Refusal := eventStep (haltRequest part tgt) s

/-- A slice that is in progress writes into a workgroup's allocation (spec 21 R394). -/
def sliceInto (m : Mach) (w : Nat) (s : Slice) : Bool :=
  let c := m.copy s.copy
  let dst := if c.multi.isSome then c.recvs.any fun r => decide (r.wg = w) && !r.stopped else decide (c.wg = w) && decide (c.dstSp = .scr)
  dst && !(copyStalled m c) && (match s.status with
    | .running => true
    | .faulted => !(sliceFails m s)
    | _ => false)

/-- Every scratchpad access and every write into the allocation that is in progress has landed; an access behind a fault that is not answered is not in progress
(spec 21 R394). -/
def scratchQuiet (m : Mach) (w : Nat) : Bool :=
  !(m.slices.any fun e => sliceInto m w e.2) && (m.wg w).groupIds.all fun g => (m.grp w g).outs.all fun o =>
    behindFault m w g o || !(scratchPending o.kind || match o.kind with | .loadScratch _ _ _ _ => true | _ => false)

/-- The workgroup can be reported halted (spec 21 R393, R394). -/
def haltReady (m : Mach) (w : Nat) : Bool := wgActive (m.wg w) && allHalted m w && scratchQuiet m w

/-- The workgroup is halted: results have landed, nothing of the request or of a step is left; slots are kept (log 118). -/
def haltWg (now : Nat) (x : Wg) : Wg :=
  { x with
    halted := true
    haltReq := false
    haltedAt := now
    stepLeft := none
    stepEvent := none
    groups := x.groups.map fun e => (e.1, e.2.landEvery) }

/-- HALT_REPORT: the halt is reported and recorded (spec 21 R393, R394, R401). -/
def haltReport (w : Nat) (m : Mach) : Mach :=
  if haltReady m w && (m.wg w).haltReq && (m.wg w).stepEvent.isNone then
    toHost (m.wg w).part (.halted w (lanesAt m w)) (wgRecord w 2 0 (m.modW w (haltWg m.cycle)))
  else m

/-- HALT_REPORT. -/
def execHaltReport (w : Nat) (s : State) : Host.Outcome State Fault Refusal := eventStep (haltReport w) s

/-- STEP_END: the event has come, and every group has stopped (spec 21 R397). -/
def stepEnd (w : Nat) (m : Mach) : Mach :=
  match (m.wg w).stepEvent with
  | none => m
  | some ev => if haltReady m w then stepRecord w ev (m.modW w (haltWg m.cycle)) else m

/-- STEP_END. -/
def execStepEnd (w : Nat) (s : State) : Host.Outcome State Fault Refusal := eventStep (stepEnd w) s

/-- A halted workgroup goes on; the cycles it was halted do not count for the stall rule (spec 21 R393). -/
def goOn (left : Option Nat) (w : Nat) (m : Mach) : Mach :=
  let t := stallFrom m w
  m.modW w fun x =>
    let old := if x.stallSkip.1 = t then x.stallSkip.2 else 0
    { x with halted := false, haltReq := false, stepLeft := left, stepEvent := none, stallSkip := (t, old + (m.cycle - max t x.haltedAt)) }

/-- RESUME_COMMAND (spec 21 R393). -/
def resumeCommand (w : Nat) (m : Mach) : Mach :=
  if (m.wg w).halted then toHost (m.wg w).part .ack (goOn none w m) else toHost (m.wg w).part .invalid m

/-- RESUME_COMMAND. -/
def execResumeCommand (w : Nat) (s : State) : Host.Outcome State Fault Refusal := eventStep (resumeCommand w) s

/-- STEP_COMMAND: the limit is 1 to 2^20 issues (spec 21 R397). -/
def stepCommand (w limit : Nat) (m : Mach) : Mach :=
  if (m.wg w).halted && decide (1 ≤ limit) && decide (limit ≤ 2 ^ 20) then toHost (m.wg w).part .ack (goOn (some limit) w m)
  else toHost (m.wg w).part .invalid m

/-- STEP_COMMAND. -/
def execStepCommand (w limit : Nat) (s : State) : Host.Outcome State Fault Refusal := eventStep (stepCommand w limit) s

/-- REPLAY_COMMAND: the workgroup of a %wgid and a %stage, of a deterministic launch where there is one (spec 21 R404). -/
def replayCommand (p wgid stage n : Nat) (m : Mach) : Mach :=
  let ws := (targetWgs m p .part).filter fun w => decide ((m.wg w).wgid = wgid) && decide ((m.wg w).stage = stage)
  match (ws.find? fun w => (m.block w).det) <|> ws.head? with
  | none => toHost p .invalid m
  | some w => if n = 0 then toHost p .invalid m else toHost p .ack (m.modW w fun x => { x with replay := some n })

/-- REPLAY_COMMAND. -/
def execReplayCommand (part wgid stage n : Nat) (s : State) : Host.Outcome State Fault Refusal := eventStep (replayCommand part wgid stage n) s

/-! ## State -/

/-- The group and lane exist. -/
def dbgLane (m : Mach) (w g l : Nat) : Bool := (m.wg w).halted && decide ((m.grp w g).slot ≠ 0) && decide (l < 32)

/-- A system register that is held per thread (spec 06 R111). -/
def perThread : SReg → Bool
  | .tid | .lane | .group | .trapmask | .fpflags | .fpmode => true
  | _ => false

/-- The group holds the register (spec 21 R396). -/
def dbgHeld (m : Mach) (w g : Nat) (r : Reg) : Bool := decide (r.toNat < 32) || (m.grp w g).extHeld

/-- The lane's trap depth (spec 21 R389). -/
def trapDepth (y : Group) (l : Nat) : Nat := if (y.trapMode.map fun t => t.lanes.getLsbD l).getD false then 1 else 0

/-- A location whose check fails meets the granule of a byte (spec 10 R190, R191). -/
def locMeets (sp : Space) (key : Nat) : Loc → Bool
  | .hbm a => decide (sp = .glob) && decide (a / 32 = key / 32)
  | .vault c o => decide (sp = .vault) && decide (vaultKey c o / 32 = key / 32)
  | .scratch c a => decide (sp = .scr) && decide (scratchKey c a / 32 = key / 32)

/-- The granule of a byte that the debugger reaches is read: a location whose check has failed is read again at once (spec 10 R190, R191, log 7). -/
def retryLocs (sp : Space) (key : Nat) (m : Mach) : Mach :=
  (m.failing.filter (locMeets sp key)).foldl (fun acc f => memoryReadRetry f (Config.retryPasses acc.freeCtr) acc.useFree) m

/-- Where a byte of memory lies that the debugger names, of a halted workgroup on a core; none for another item (spec 21 R396). -/
def dbgPlace (m : Mach) (w : Nat) (it : DbgItem) (rt : Right) : Option (Except Cause (Space × Nat)) :=
  let x := m.wg w
  match it with
  | .scratch o => if o < (m.block w).scratch then some (.ok (.scr, scratchAddr x o)) else none
  | .mem va => some ((translate m (wgSite m w) x.part x.ctx va rt).map fun t => (.glob, t.pa))
  | .vault a => some (match vaultAddr m x.part a with | none => .error .vaultBounds | some k => (vaultByte m x.part rt k).map fun p => (.vault, p.key))
  | _ => none

/-- The byte's place once its granule has been read: a lasting error, or a write into the ranges of a collection, is an error (spec 10 R190, 13 R253, 21 R396). -/
def dbgByte (w : Nat) (it : DbgItem) (rt : Right) (m : Mach) : Option (Except Cause (Space × Nat)) × Mach :=
  match dbgPlace m w it rt with
  | some (.ok (sp, k)) =>
    let m1 := retryLocs sp k m
    (match dbgPlace m1 w it rt with
      | some (.ok (sp, k)) =>
        if m1.failing.any (locMeets sp k) then some (.error .uncorrectable)
        else if decide (sp = .glob) && decide (rt = .write) && sealedAt m1 k then some (.error .accessTableDeny)
        else some (.ok (sp, k))
      | r => r, m1)
  | r => (r, m)

/-- What the debugger reads of a lane (spec 21 R389, R396); none where the item does not exist. -/
def dbgLaneRead (m : Mach) (w : Nat) (it : DbgItem) : Option (DWord × LaneAt) :=
  match it with
  | .reg g l r => if dbgLane m w g l && dbgHeld m w g r then some (((m.grp w g).reg r.toNat l).zeroExtend 64, laneAt m w g l) else none
  | .pred g l p => if dbgLane m w g l then some (BitVec.ofNat 64 ((m.grp w g).pred p.toNat l).toNat, laneAt m w g l) else none
  | .sys g l r => if dbgLane m w g l && perThread r then some (BitVec.ofNat 64 (sregVal m w g l r), laneAt m w g l) else none
  | .pc g l => if dbgLane m w g l && (m.grp w g).live.getLsbD l then some (lanePc (m.grp w g) l, laneAt m w g l) else none
  | .depth g l => if dbgLane m w g l then some (BitVec.ofNat 64 (trapDepth (m.grp w g) l), laneAt m w g l) else none
  | _ => none

/-- DEBUG_STATE_READ: of a halted workgroup; a saved one's scratchpad lies in its save (spec 21 R388, R396). -/
def debugRead (w : Nat) (it : DbgItem) (m : Mach) : Mach :=
  let x := m.wg w
  let p := x.part
  if x.halted = false then toHost p .invalid m
  else
    match dbgLaneRead m w it, it, decide (x.status = .saved) with
    | some (v, a), _, _ => toHost p (.value v (some a)) m
    | none, .scratch o, true =>
      if o < (m.block w).scratch then toHost p (.value (BitVec.ofNat 64 (Memory.read x.savedScratch o).toNat) none) m else toHost p .invalid m
    | none, _, _ =>
      match dbgByte w it .read m with
      | (none, m1) => toHost p .invalid m1
      | (some (.error _), m1) => toHost p .accessError m1
      | (some (.ok (sp, k)), m1) => toHost p (.value (BitVec.ofNat 64 (leNat (readPlace m1 sp ⟨decide (sp = .vault), k, 0⟩ 1))) none) m1.useFree

/-- DEBUG_STATE_READ. -/
def execDebugStateRead (w : Nat) (item : DbgItem) (s : State) : Host.Outcome State Fault Refusal := eventStep (debugRead w item) s

/-- A variable-latency result is pending for the register or the predicate of the lane (spec 21 R396). -/
def dbgPending (y : Group) (l : Nat) (r : Nat) (pred : Bool) : Bool :=
  y.outs.any fun o => o.fail.isNone && o.irec.lanes.getLsbD l && (if pred then o.dpreds else o.dregs).contains r

/-- A system register of a lane written by the debugger: the registers that a thread keeps of its own (spec 06 R111, 21 R396, log 87, 110). -/
def dbgSys (l : Nat) (r : SReg) (v : Word) (y : Group) : Option Group :=
  match r with
  | .tid => some { y with tid := Store.put y.tid l v }
  | .lane => some { y with laneNo := Store.put y.laneNo l v }
  | .group => some { y with groupNo := Store.put y.groupNo l v }
  | .trapmask | .fpflags | .fpmode => if v &&& sregReserved r = 0 then some (y.setSreg r l v) else none
  | _ => none

/-- A lane's PC written: it stands at the address (spec 21 R396). -/
def dbgSetPc (w g l : Nat) (v : DWord) (m : Mach) : Mach :=
  if lanePc (m.grp w g) l = v then m
  else
    let pr := prioAt m (wgSite m w) (m.wg w).part (m.wg w).ctx v
    m.modG w g fun y => y.sendTo l v pr

/-- Entries without a lane. -/
def withoutLane (l : Nat) (fr : List Entry) : List Entry := (fr.map fun e => { e with lanes := e.lanes &&& ~~~(maskOf [l]) }).filter fun e => decide (e.lanes ≠ 0)

/-- A run without a lane. -/
def Run.without (l : Nat) (r : Option Run) : Option Run :=
  (r.map fun r => { r with lanes := r.lanes &&& ~~~(maskOf [l]), moves := r.moves.map fun e => (e.1, e.2 &&& ~~~(maskOf [l])) }).filter fun r => decide (r.lanes ≠ 0)

/-- A lane leaves the trap set: it stands aside at its PC; with no lane left in the set, trap mode ends (spec 20 R370, 21 R396, log 110). -/
def trapDepth0 (l pr : Nat) (t : TrapMode) (y : Group) : Group :=
  let pc := lanePc y l
  let y1 := y.sendTo l pc pr
  let t1 := { t with lanes := t.lanes &&& ~~~(maskOf [l]), aside := joinEntry (withoutLane l t.aside) pc pr (maskOf [l]), run := Run.without l t.run }
  if t1.lanes &&& y.live = 0 then { y1 with trapMode := none, run := t1.run, frontier := t1.aside } else { y1 with trapMode := some t1, frontier := withoutLane l y1.frontier }

/-- A lane joins the trap set: it stands at its PC in the handler's frontier; in a group that was not in trap mode everything else is held aside (spec 20 R370, 21 R396,
log 110). -/
def trapDepth1 (l pr since : Nat) (frame : DWord) (y : Group) : Group :=
  let pc := lanePc y l
  let k := maskOf [l]
  match y.trapMode with
  | some t => { y with trapMode := some { t with lanes := t.lanes ||| k, aside := withoutLane l t.aside, run := Run.without l t.run }, frontier := joinEntry y.frontier pc pr k }
  | none =>
    { y with trapMode := some ⟨k, withoutLane l y.frontier, Run.without l y.run, y.trapPc, .stand, none, frame, since⟩, frontier := [⟨pc, pr, k⟩], run := none, held := none, exiting := none }

/-- A lane's trap depth written: 0 or 1 (spec 21 R389, R396). -/
def dbgSetDepth (w g l : Nat) (v : DWord) (m : Mach) : Option Mach :=
  let y := m.grp w g
  let pr := prioAt m (wgSite m w) (m.wg w).part (m.wg w).ctx (lanePc y l)
  if 1 < v.toNat then none
  else if v.toNat = trapDepth y l then some m
  else if v = 0 then some (m.modG w g fun y => (y.trapMode.map fun t => trapDepth0 l pr t y).getD y)
  else some (m.modG w g (trapDepth1 l pr m.nextCmd (frameAddr m w g)))

/-- What the debugger writes of a lane (spec 21 R396): the machine after it, or the answer; none for another item. -/
def dbgLaneWrite (m : Mach) (w : Nat) (it : DbgItem) (v : DWord) : Option (Except HostMsg Mach) :=
  let v32 := v.setWidth 32
  match it with
  | .reg g l r =>
    some (if !(dbgLane m w g l && dbgHeld m w g r) then .error .invalid
      else if dbgPending (m.grp w g) l r.toNat false then .error .refused
      else .ok (m.modG w g fun y => y.setReg r.toNat l v32))
  | .pred g l p =>
    some (if !(dbgLane m w g l) then .error .invalid
      else if dbgPending (m.grp w g) l p.toNat true then .error .refused
      else .ok (m.modG w g fun y => y.setPred p.toNat l (v.getLsbD 0)))
  | .sys g l r =>
    some (if !(dbgLane m w g l) then .error .invalid
      else
        match dbgSys l r v32 (m.grp w g) with
        | none => .error .refused
        | some y => .ok (m.modG w g fun _ => y))
  | .pc g l => some (if dbgLane m w g l && (m.grp w g).live.getLsbD l then .ok (dbgSetPc w g l v m) else .error .invalid)
  | .depth g l =>
    some (if dbgLane m w g l && (m.grp w g).live.getLsbD l then
        match dbgSetDepth w g l v m with
        | some m1 => .ok m1
        | none => .error .refused
      else .error .invalid)
  | _ => none

/-- DEBUG_STATE_WRITE: of a halted workgroup; a saved one's scratchpad lies in its save (spec 21 R396). -/
def debugWrite (w : Nat) (it : DbgItem) (v : DWord) (m : Mach) : Mach :=
  let x := m.wg w
  let p := x.part
  if x.halted = false then toHost p .invalid m
  else
    match dbgLaneWrite m w it v, it, decide (x.status = .saved) with
    | some (.error e), _, _ => toHost p e m
    | some (.ok m1), _, _ => toHost p .ack m1
    | none, .scratch o, true =>
      if o < (m.block w).scratch then toHost p .ack (m.modW w fun x => { x with savedScratch := Memory.write x.savedScratch o (v.setWidth 8) })
      else toHost p .invalid m
    | none, _, _ =>
      match dbgByte w it .write m with
      | (none, m1) => toHost p .invalid m1
      | (some (.error _), m1) => toHost p .accessError m1
      | (some (.ok (sp, k)), m1) => toHost p .ack (writePlace none sp ⟨decide (sp = .vault), k, 0⟩ [v.setWidth 8] m1)

/-- DEBUG_STATE_WRITE. -/
def execDebugStateWrite (w : Nat) (item : DbgItem) (v : DWord) (s : State) : Host.Outcome State Fault Refusal := eventStep (debugWrite w item v) s

/-! ## The lane-cycle record -/

/-- The partition of a core. -/
def partOfCore (m : Mach) (core : Nat) : Option Nat := (m.parts.find? fun e => e.2.made && e.2.clusters.contains (clusterOfCore core)).map (·.1)

/-- The idle cycles of a core's slots up to the present one are counted (spec 21 R398, R399). -/
def countIdle (core : Nat) (m : Mach) : Mach := m.modK core fun c => idleUntil m 1 (idleUntil m 0 c)

/-- READ_COUNTERS: the five counters of a bin as one snapshot; bin 16 is the totals (spec 21 R399). -/
def readCounters (core k : Nat) (m : Mach) : Mach :=
  match partOfCore m core with
  | none => m
  | some p =>
    if 16 < k then toHost p .invalid m
    else
      let m1 := countIdle core m
      let b := if k = 16 then (m1.core core).totals else Store.get default (m1.core core).bins k
      toHost p (.counters ((List.range 5).map fun i => b.counts.getD i 0) b.overflow) m1

/-- READ_COUNTERS. -/
def execReadCounters (core bin : Nat) (s : State) : Host.Outcome State Fault Refusal := eventStep (readCounters core bin) s

/-- A bin cleared. -/
def clearBin (b : Bin) : Bin := { b with counts := [], overflow := false }

/-- CLEAR_COUNTERS (spec 21 R399). -/
def clearCounters (core : Nat) (m : Mach) : Mach :=
  match partOfCore m core with
  | none => m
  | some p => toHost p .ack ((countIdle core m).modK core fun c => { c with bins := c.bins.map fun e => (e.1, clearBin e.2), totals := clearBin c.totals })

/-- CLEAR_COUNTERS. -/
def execClearCounters (core : Nat) (s : State) : Host.Outcome State Fault Refusal := eventStep (clearCounters core) s

/-! ## The trace buffer -/

/-- A record is dropped and counted (spec 21 R400). -/
def dropRecord (p c : Nat) (m : Mach) : Mach := m.modC p c fun x => { x with traceDropped := if x.traceDropped = BitVec.allOnes 32 then x.traceDropped else x.traceDropped + 1 }

/-- Records that the buffer holds (spec 21 R400). -/
def traceRoom (d : CtxDesc) : Nat := 2 ^ d.traceSize.toNat / 32

/-- TRACE_RECORD_WRITE: the oldest record of the context goes to its place in the ring, unless it would overwrite one that the host has not consumed
(spec 21 R400, R402). -/
def traceWrite (p c : Nat) (m : Mach) : Mach :=
  let x := m.ctx p c
  match x.records with
  | [] => m
  | r :: rs =>
    let m1 := m.modC p c fun x => { x with records := rs }
    if traceRoom x.desc ≤ x.traceUnread then dropRecord p c m1
    else
      match hwWrite (partSite m p) p c (x.desc.traceBase.toNat + 32 * x.traceIndex.toNat) false m1 with
      | (.error _, m2) => dropRecord p c m2
      | (.ok t, m2) => (writePa m2 none none t.pa r).modC p c fun x =>
          { x with traceIndex := BitVec.ofNat 32 ((x.traceIndex.toNat + 1) % traceRoom x.desc), traceUnread := x.traceUnread + 1 }

/-- TRACE_RECORD_WRITE. -/
def execTraceRecordWrite (part ctx : Nat) (s : State) : Host.Outcome State Fault Refusal := eventStep (traceWrite part ctx) s

/-- TRACE_RECORD_CONSUMED (spec 21 R400). -/
def execTraceRecordConsumed (part ctx n : Nat) (s : State) : Host.Outcome State Fault Refusal :=
  eventStep (fun m => m.modC part ctx fun x => { x with traceUnread := x.traceUnread - n }) s

end Sys2Proof.Machine
end

