-- ==== Sys2Proof/Machine/Context.lean ====
section
/-! DEFINITION. What hosts do to contexts: pre-emption, swaps, quanta, moves, kills, descriptors, reserves (spec 10 R186, 20 R374, R380, R381, R385, R386, 23 R416, R417,
30 R461, R462). -/

namespace Sys2Proof.Machine

/-! ## Pre-emption and swaps -/

/-- Full pre-emptions are requested; the command is acknowledged when every save has landed (spec 20 R381, 23 R416). -/
def saveAll (p : Nat) (ws : List Nat) (ack : Bool) (m : Mach) : Mach :=
  let live := ws.filter fun w => onCore (m.wg w)
  let m1 := live.foldl (fun acc w => requestSave .full w acc) m
  if !ack then m1 else if live.isEmpty then toHost p .ack m1 else m1.modP p fun q => { q with waitAcks := q.waitAcks ++ [live] }

/-- PREEMPT_COMMAND (spec 20 R381): of a workgroup, a launch, a context or the partition. -/
def preemptCommand (p : Nat) (t : HostTarget) (m : Mach) : Mach :=
  if targetGone m p t then toHost p .invalid m else saveAll p (targetWgs m p t) true m

/-- PREEMPT_COMMAND. -/
def execPreemptCommand (part : Nat) (tgt : HostTarget) (s : State) : Host.Outcome State Fault Refusal := eventStep (preemptCommand part tgt) s

/-- The context leaves the cores from a cycle on: its workgroups are saved, and what waits on locks it holds makes it eligible again (spec 20 R385, R386). -/
def putOut (p c : Nat) (ack : Bool) (m : Mach) : Mach :=
  let m1 := m.modC p c fun x => { x with state := 2, outSince := m.cycle, quantum := false, inherits := [] }
  saveAll p (ctxWgs m p c) ack (inheritAll p c m1)

/-- SWAP_OUT (spec 20 R385): of a resident context, or of one that has a quantum. -/
def swapOut (p c : Nat) (m : Mach) : Mach :=
  let x := m.ctx p c
  if (m.part p).made = false ∨ 16 ≤ c ∨ x.state = 0 then toHost p .invalid m
  else if x.state = 2 ∧ x.quantum = false then toHost p .ack m
  else putOut p c true m

/-- SWAP_OUT. -/
def execSwapOut (part ctx : Nat) (s : State) : Host.Outcome State Fault Refusal := eventStep (swapOut part ctx) s

/-- A descriptor keeps the limits of R417, for a partition of `n` clusters. -/
def descOk (d : CtxDesc) (n : Nat) : Bool :=
  decide (d.root.toNat % 4096 = 0) && paLocal d.root.toNat && decide (d.handler.toNat % 4 = 0) && decide (d.trapArea.toNat % 1024 = 0) &&
    decide (d.saveBase.toNat % 65536 = 0) && paLocal d.saveBase.toNat && decide (3136 * 1024 * n ≤ d.saveSize.toNat) && decide (d.traceBase.toNat % 32 = 0) &&
    decide (12 ≤ d.traceSize.toNat) && decide (d.traceSize.toNat ≤ 30) && decide (d.traceEnables.toNat < 256) && decide (d.reserved = 0)

/-- SWAP_IN (spec 23 R417): a context of state 0 only with a descriptor that keeps the limits. -/
def swapIn (p c : Nat) (m : Mach) : Mach :=
  let x := m.ctx p c
  if (m.part p).made = false ∨ 16 ≤ c then toHost p .invalid m
  else if x.state = 0 && !(descOk x.desc (m.part p).clusters.length) then toHost p .refused m
  else if x.state = 1 then toHost p .ack m
  else toHost p .ack (m.modC p c fun x => { x with state := 1, quantum := false, inherits := [] })

/-- SWAP_IN. -/
def execSwapIn (part ctx : Nat) (s : State) : Host.Outcome State Fault Refusal := eventStep (swapIn part ctx) s

/-- A workgroup is runnable: a group of it is ready or holds an issue slot, and no halt holds them (spec 20 R385). -/
def runnable (m : Mach) (w : Nat) : Bool := !((m.wg w).halted) && (m.wg w).groupIds.any fun g => groupReady m w g || (slotOf m w g).isSome

/-- The context is swapped out, without a quantum, and holds saved work. -/
def waitsOut (m : Mach) (p c : Nat) : Bool :=
  decide ((m.ctx p c).state = 2) && !((m.ctx p c).quantum) && (ctxWgs m p c).any fun w => decide ((m.wg w).status = .saved)

/-- QUANTUM_START: no workgroup of another context is runnable, and the context has been swapped out longest (spec 20 R385). -/
def quantumStart (p c : Nat) (m : Mach) : Mach :=
  let others := m.wgIds.filter fun w => decide ((m.wg w).part = p) && decide ((m.wg w).ctx ≠ c)
  let t := (m.ctx p c).outSince
  if waitsOut m p c && !(others.any (runnable m)) && !((List.range 16).any fun d => (m.ctx p d).quantum) &&
      (List.range 16).all fun d => decide (d = c) || !(waitsOut m p d) || decide (t < (m.ctx p d).outSince) || (decide (t = (m.ctx p d).outSince) && decide (c < d)) then
    m.modC p c fun x => { x with quantum := true, outSince := m.cycle }
  else m

/-- QUANTUM_START. -/
def execQuantumStart (part ctx : Nat) (s : State) : Host.Outcome State Fault Refusal := eventStep (quantumStart part ctx) s

/-- QUANTUM_EXPIRY: after 130,000 cycles the context is pre-empted and swapped out again (spec 20 R385). -/
def quantumExpiry (p c : Nat) (m : Mach) : Mach :=
  let x := m.ctx p c
  if decide (x.state = 2) && x.quantum && decide (x.outSince + 130000 ≤ m.cycle) then putOut p c false m else m

/-- QUANTUM_EXPIRY. -/
def execQuantumExpiry (part ctx : Nat) (s : State) : Host.Outcome State Fault Refusal := eventStep (quantumExpiry part ctx) s

/-! ## Moving a context -/

/-- Workgroups of a context that have not ended. -/
def moving (m : Mach) (p c : Nat) : List Nat := (ctxWgs m p c).filter fun w => decide ((m.wg w).status ≠ .ended)

/-- Slots and graph-node entries that saved workgroups hold in reserve (spec 30 R461). -/
def heldSlots (m : Mach) (ws : List Nat) : Nat × Nat := ((ws.map fun w => (m.wg w).succSlots + (m.wg w).nodeSlots).sum, (ws.map fun w => (m.wg w).nodeSlots).sum)

/-- The conditions of a move (spec 30 R461). -/
def moveOk (m : Mach) (p c q d : Nat) : Bool :=
  let a := m.part p
  let b := m.part q
  let ws := moving m p c
  let h := heldSlots m ws
  a.made && b.made && decide (c < 16) && decide (d < 16) && decide (a.owner = b.owner) && decide ((m.ctx p c).state = 2) && decide ((m.ctx q d).state = 0) &&
    !((List.range 64).any fun k => qValid (queueWord m p k) && decide (qCtx (queueWord m p k) = c)) &&
    !(m.launches.any fun e => e.2.live && e.2.inQueue && decide (e.2.part = p) && decide (e.2.ctx = c)) &&
    !(a.nodes.any fun e => e.2.armed && decide (e.2.ctx = c)) && !(a.phasers.any fun e => e.2.live && decide (e.2.ctx = c)) &&
    !(m.elanes.any fun e => e.2.cursors.any fun k => k.2.isOpen && ws.contains k.2.wg) &&
    ws.all (fun w => decide ((m.wg w).status = .saved) && (m.wg w).groupIds.all fun g => (m.grp w g).locks.isEmpty) &&
    decide (3136 * 1024 * b.clusters.length ≤ (m.ctx p c).desc.saveSize.toNat) && decide (h.1 ≤ b.pool) && decide (h.2 ≤ b.nodesFree)

/-- Engine commands and traversals have landed, and every save has been spilled (spec 30 R462, step 1). -/
def moveSettled (m : Mach) (p c : Nat) : Bool :=
  (moving m p c).all fun w => (m.wg w).spilled && (m.wg w).groupIds.all fun g => (m.grp w g).outs.all fun o =>
    o.fail.isSome || match o.kind with | .coll _ _ _ _ _ _ | .ktrav _ _ _ _ _ _ _ _ => false | _ => true

/-- A workgroup of another partition and context; the wait of R378 lapses. -/
def moveWg (q d : Nat) (x : Wg) : Wg := { x with part := q, ctx := d, waitsFor := [] }

/-- Restore lists of one context go to another partition's context, priorities and order kept (spec 30 R462). -/
def moveLists (c d : Nat) (src dst : Store (List (List Nat))) : Store (List (List Nat)) :=
  (List.range 8).foldl (fun acc k => Store.upd [] acc (restoreKey k d) fun us => us ++ Store.get [] src (restoreKey k c)) dst

/-- Steps 2 to 4 of a move (spec 30 R462). -/
def doMove (p c q d : Nat) (m : Mach) : Mach :=
  let ws := moving m p c
  let h := heldSlots m ws
  let x := m.ctx p c
  let a := m.part p
  let owned := a.owned.filter fun o => ws.contains o.wg
  let m1 : Mach := ws.foldl (fun (acc : Mach) w => acc.modW w (moveWg q d)) m
  let m2 : Mach := { tlbDrop (fun e => decide (e.part = p) && decide (e.ctx = c)) m1 with
    launches := m1.launches.map fun e => (e.1, if e.2.live && decide (e.2.part = p) && decide (e.2.ctx = c) then { e.2 with part := q, ctx := d } else e.2)
    copies := m1.copies.map fun e => (e.1, if ws.contains e.2.wg then { e.2 with part := q, ctx := d } else e.2) }
  let m3 := m2.modP p fun z => { z with
    pool := z.pool + h.1
    nodesFree := z.nodesFree + h.2
    restore := (List.range 8).foldl (fun acc k => Store.del acc (restoreKey k c)) z.restore
    owned := z.owned.filter fun o => !(ws.contains o.wg) }
  let m4 := m3.modP q fun z => { z with
    pool := z.pool - h.1
    nodesFree := z.nodesFree - h.2
    restore := moveLists c d a.restore z.restore
    owned := z.owned ++ owned }
  toHost p .ack ((m4.modC p c fun z => { z with state := 0, records := [] }).modC q d fun _ => { x with state := 2, quantum := false, inherits := [] })

/-- MOVE_CONTEXT (spec 30 R461, R462): refused, not yet possible, or done. -/
def moveContext (p c q d : Nat) (m : Mach) : Mach :=
  if !(moveOk m p c q d) then toHost p .invalid m else if moveSettled m p c then doMove p c q d m else m

/-- MOVE_CONTEXT. -/
def execMoveContext (part ctx dest dctx : Nat) (s : State) : Host.Outcome State Fault Refusal := eventStep (moveContext part ctx dest dctx) s

/-! ## Other commands -/

/-- KILL_LAUNCH: the acknowledgement is sent when every workgroup has ended (spec 20 R374). -/
def killCommand (p c : Nat) (block : DWord) (m : Mach) : Mach :=
  match m.launches.find? fun e => e.2.live && decide (e.2.part = p) && decide (e.2.ctx = c) && decide (e.2.addr = block) with
  | none => toHost p .invalid m
  | some e => killLaunch e.1 m

/-- KILL_LAUNCH. -/
def execKillLaunch (part ctx : Nat) (block : DWord) (s : State) : Host.Outcome State Fault Refusal := eventStep (killCommand part ctx block) s

/-- INVALIDATE_TRANSLATION: translations that touch the range are dropped (spec 10 R186). -/
def invalidate (p c va size : Nat) (m : Mach) : Mach :=
  toHost p .ack (tlbDrop (fun e => decide (e.part = p) && decide (e.ctx = c) && decide (e.page * 2 ^ e.size < va + size) && decide (va < (e.page + 1) * 2 ^ e.size)) m)

/-- INVALIDATE_TRANSLATION. -/
def execInvalidateTranslation (part ctx va size : Nat) (s : State) : Host.Outcome State Fault Refusal := eventStep (invalidate part ctx va size) s

/-- A sum that stops at the highest number. -/
def satAdd (a b : DWord) : DWord := if 2 ^ 64 ≤ a.toNat + b.toNat then BitVec.allOnes 64 else a + b

/-- REFILL_RESERVES (spec 20 R380). -/
def refillReserves (p c : Nat) (i k : DWord) (m : Mach) : Mach :=
  if (m.part p).made = false ∨ 16 ≤ c then toHost p .invalid m
  else toHost p .ack (m.modC p c fun x => { x with ireserve := satAdd x.ireserve i, mreserve := satAdd x.mreserve k })

/-- REFILL_RESERVES. -/
def execRefillReserves (part ctx : Nat) (i m : DWord) (s : State) : Host.Outcome State Fault Refusal := eventStep (refillReserves part ctx i m) s

/-- The context holds work (spec 23 R417). -/
def holdsWork (m : Mach) (p c : Nat) : Bool :=
  !((moving m p c).isEmpty) || (m.launches.any fun e => e.2.live && e.2.inQueue && decide (e.2.part = p) && decide (e.2.ctx = c)) ||
    (List.range 64).any fun k => qValid (queueWord m p k) && decide (qCtx (queueWord m p k) = c)

/-- CONTEXT_DESCRIPTOR_WRITE (spec 23 R417). -/
def descriptorWrite (p c : Nat) (d : CtxDesc) (m : Mach) : Mach :=
  if (m.part p).made = false ∨ 16 ≤ c then toHost p .invalid m
  else if holdsWork m p c || !(descOk d (m.part p).clusters.length) then toHost p .refused m
  else toHost p .ack (m.modC p c fun x => { x with desc := d, ireserve := d.ireserve, mreserve := d.mreserve })

/-- CONTEXT_DESCRIPTOR_WRITE. -/
def execContextDescriptorWrite (part ctx : Nat) (desc : CtxDesc) (s : State) : Host.Outcome State Fault Refusal := eventStep (descriptorWrite part ctx desc) s

/-- CONTEXT_END: its armed nodes are freed with their slots, which cancels the copies lodged in them, and what is parked in it is free; a context that
holds no work is empty from then on (spec 03 R42, 04 R62, 11 R207, log 37). -/
def contextEnd (p c : Nat) (m : Mach) : Mach :=
  let ks := ((m.part p).nodes.filter fun e => e.2.armed && decide (e.2.ctx = c)).map (·.1)
  let m1 := ks.foldl (fun acc k => freeSlots p 1 (freeNode p k false acc)) m
  let m2 := m1.modP p fun q => { q with ready := q.ready.map fun r => if r.ctx = c then { r with park := none } else r }
  let m3 := { m2 with launches := m2.launches.map fun e => (e.1, if e.2.part = p ∧ e.2.ctx = c then { e.2 with park := none } else e.2) }
  if holdsWork m3 p c then m3 else m3.modC p c fun x => { x with state := 0 }

/-- CONTEXT_END. -/
def execContextEnd (part ctx : Nat) (s : State) : Host.Outcome State Fault Refusal := eventStep (contextEnd part ctx) s

end Sys2Proof.Machine
end

