-- ==== Sys2Proof/Machine/Flags.lean ====
section
/-! DEFINITION. The floating-point controls and flags of a lane, and how results with conditions are delivered (spec 09 R154 to R159). -/

namespace Sys2Proof.Machine

/-- %fpmode of a lane. -/
def Group.mode (y : Group) (l : Nat) : Nat := (Store.get 0 y.fpmode l).toNat

/-- The rounding mode an instruction uses in a lane (spec 05 R84, 09 R155). -/
def laneRm (y : Group) (l : Nat) (r : Rnd) : RM :=
  match r with
  | .rne => .rne
  | .rz => .rz
  | .ru => .ru
  | .rd => .rd
  | .dyn => RM.ofBits (y.mode l)

/-- The 16-bit format of a lane (spec 09 R155). -/
def laneHalf (y : Group) (l : Nat) : Fmt := if fld (y.mode l) 9 1 = 1 then bf16 else fp16

/-- The conditions of a lane whose traps are enabled (spec 09 R158). -/
def enabledConds (y : Group) (l flags : Nat) : Nat := flags &&& fld (y.mode l) 4 5

/-- What one lane computes: its writes and the conditions it raises. -/
structure LaneFp where
  lane : Nat
  writes : List LaneWrite
  flags : Nat
  deriving DecidableEq, Repr, Inhabited

/-- The writes of a lane with its flag update (spec 09 R159). -/
def LaneFp.all (r : LaneFp) : List LaneWrite := if r.flags = 0 then r.writes else r.writes ++ [.flags r.lane (BitVec.ofNat 32 r.flags)]

/-- The lanes that raise an enabled condition (spec 09 R158). -/
def trapping (y : Group) (rs : List LaneFp) : List LaneFp := rs.filter fun r => decide (enabledConds y r.lane r.flags ≠ 0)

/-- The enabled conditions raised, over all lanes (spec 09 R158). -/
def trappingConds (y : Group) (rs : List LaneFp) : Nat := rs.foldl (fun acc r => acc ||| enabledConds y r.lane r.flags) 0

/-- %trapinfo of FP_EXCEPTION: lanes, and conditions in [36:32] (spec 09 R158). -/
def fpInfo (lanes : Mask) (conds : Nat) : DWord := BitVec.ofNat 64 (lanes.toNat + 2 ^ 32 * conds)

/-- Results of fixed latency with conditions: FP_EXCEPTION is precise and nothing is written, else results and flags are pending (spec 09 R158, R159). -/
def fpDeliver (lat : Nat) (fl : Bool) (x : Iss) (rs : List LaneFp) (m : Mach) : Own :=
  let y := m.grp x.w x.g
  match trapping y rs with
  | [] => .done 0 (laterF lat fl x (rs.flatMap LaneFp.all) m)
  | t :: ts =>
    let k := maskOf ((t :: ts).map (·.lane))
    .trap .fpException (fpInfo k (trappingConds y (t :: ts))) k 0

/-- A fixed-latency instruction of the range 0x40 to 0x67: each lane's writes and conditions (spec 09 R156). -/
def fpLanes (f : Group → Nat → List LaneWrite × Nat) (x : Iss) (m : Mach) : Own :=
  let y := m.grp x.w x.g
  fpDeliver 4 true x ((lanesOf x.eff).map fun l => ⟨l, (f y l).1, (f y l).2⟩) m

/-- A fixed-latency instruction of the range that raises no flag (spec 09 R162, R171, R174). -/
def fpPlain (f : Group → Nat → List LaneWrite) (x : Iss) (m : Mach) : Own :=
  .done 0 (later 4 x ((lanesOf x.eff).flatMap (f (m.grp x.w x.g))) m)

/-- An instruction of the SFU class: results, flags and FP_EXCEPTION wait for the landing (spec 09 R158, R165). -/
def sfuLanes (i : Instr) (f : Group → Nat → List LaneWrite × Nat) (x : Iss) (m : Mach) : Own :=
  let y := m.grp x.w x.g
  let rs := (lanesOf x.eff).map fun l => (⟨l, (f y l).1, (f y l).2⟩ : LaneFp)
  let ts := trapping y rs
  .done 0 (handOn i x 3 (.sfu (rs.flatMap LaneFp.all) (maskOf (ts.map (·.lane))) (trappingConds y ts)) false m)

/-- An FP32 result into vD. -/
def to32 (d : Reg) (l : Nat) (r : FRes) : List LaneWrite × Nat := ([.reg d.toNat l (BitVec.ofNat 32 r.val)], r.flags)

/-- A 64-bit result into the pair at vD. -/
def to64 (d : Reg) (l : Nat) (r : FRes) : List LaneWrite × Nat :=
  ([.reg d.toNat l (BitVec.ofNat 32 r.val), .reg (d.toNat + 1) l (BitVec.ofNat 32 (r.val / 2 ^ 32))], r.flags)

/-- A register's pattern. -/
def Group.f32 (y : Group) (r : Reg) (l : Nat) : Nat := (y.reg r.toNat l).toNat

/-- A pair's pattern. -/
def Group.f64 (y : Group) (r : Reg) (l : Nat) : Nat := (y.pair r.toNat l).toNat

/-- Element `e` of a register of two 16-bit values (spec 08 R139). -/
def half (v e : Nat) : Nat := fld v (16 * e) 16

/-- Two 16-bit results in one register. -/
def toHalves (d : Reg) (l : Nat) (r0 r1 : FRes) : List LaneWrite × Nat :=
  ([.reg d.toNat l (BitVec.ofNat 32 (r0.val + 65536 * r1.val))], r0.flags ||| r1.flags)

end Sys2Proof.Machine
end

