-- ==== Sys2Proof/Machine/Special.lean ====
section
/-! DEFINITION. The special functions (spec 09 R166): exact and special cases as the table gives them; elsewhere the value is open within the table's bound: it is a
free value of opcode and operand where that keeps the bound, else the exact value rounded to nearest (log 5).  The exact value is computed with more than 90 bits to
spare, by integers. -/

namespace Sys2Proof.Machine

/-- The log2 of a positive value that is a power of two. -/
def pow2Of (m : Nat) (e : Int) : Option Int := if m ≠ 0 ∧ m = 2 ^ Nat.log2 m then some (e + Nat.log2 m) else none

/-- The FP32 pattern of 2^k. -/
def fpPow2 (neg : Bool) (k : Int) : Nat := (fp32.roundFin .rne neg 1 k).val

/-- 2^k is an FP32 value. -/
def pow2Fits (k : Int) : Bool := decide (-149 ≤ k) && decide (k ≤ 127)

/-- The free value of a special function as a pattern. -/
def freeSpecial (op : Nat) (a : Nat) : Nat := (Config.special op (BitVec.ofNat 32 a)).toNat

/-- Exact values are integers times 2 to the minus this. -/
def fxBits : Nat := 320

/-- The value of a pattern, scaled; none for infinities and NaNs. -/
def fxValue (c : Nat) : Option Int :=
  match fp32.decode c with
  | .fin n m e => some ((if n then -1 else 1) * (m * 2 ^ (e + fxBits).toNat : Nat))
  | _ => none

/-- One unit in the last place of a scaled value's binade, subnormal results included (spec 09 R166). -/
def fxUlp (v : Int) : Int := 2 ^ (max (Nat.log2 v.natAbs - (fxBits : Int)) (-126) - 23 + fxBits).toNat

/-- A scaled value rounded to nearest, as a pattern. -/
def fxRound (v : Int) : Nat := (fp32.roundFin .rne (decide (v < 0)) v.natAbs (-(fxBits : Int))).val

/-- The free value where it lies within `err` of the scaled exact value `v` and passes a test, else that value rounded; `err` allows for the 90 bits to which `v` is
known. -/
def bounded (op a : Nat) (v err : Int) (ok : Nat → Bool) : Nat :=
  let c := freeSpecial op a
  match fxValue c with
  | some u => if decide ((u - v).natAbs ≤ err.toNat) && ok c then c else fxRound v
  | none => fxRound v

/-- As `bounded`, within one unit in the last place: the exact value is known to the last bit of the scale. -/
def within1 (op a : Nat) (v : Int) : Nat :=
  let c := freeSpecial op a
  match fxValue c with
  | some u => if (u - v).natAbs ≤ (fxUlp v).toNat + 2 then c else fxRound v
  | none => fxRound v

/-- FRCP (spec 09 R166). -/
def fRcp (a : Nat) : FRes :=
  match fp32.nanOf [a] with
  | some r => r
  | none =>
    match fp32.decode a with
    | .fin n m e =>
      if m = 0 then ⟨fp32.sign n + fp32.infBits, flDivZero⟩
      else
        match pow2Of m e with
        | some k => if pow2Fits (-k) then ⟨fpPow2 n (-k), 0⟩ else ⟨within1 0x49 a (rcpRef n m e), 0⟩
        | none => ⟨within1 0x49 a (rcpRef n m e), 0⟩
    | .inf n => ⟨fp32.sign n, 0⟩
    | .nan _ => fp32.invalid
where
  /-- The reciprocal, scaled. -/
  rcpRef (n : Bool) (m : Nat) (e : Int) : Int := (if n then -1 else 1) * (2 ^ (fxBits - e).toNat / m : Nat)

/-- FRSQ (spec 09 R166). -/
def fRsq (a : Nat) : FRes :=
  match fp32.nanOf [a] with
  | some r => r
  | none =>
    match fp32.decode a with
    | .fin n m e =>
      if m = 0 then ⟨fp32.sign n + fp32.infBits, flDivZero⟩
      else if n then fp32.invalid
      else
        match pow2Of m e with
        | some k =>
          if k % 2 = 0 then ⟨fpPow2 false (-(k / 2)), 0⟩ else ⟨within1 0x4A a (rsqRef m e), 0⟩
        | none => ⟨within1 0x4A a (rsqRef m e), 0⟩
    | .inf n => if n then fp32.invalid else ⟨0, 0⟩
    | .nan _ => fp32.invalid
where
  /-- The reciprocal square root, scaled. -/
  rsqRef (m : Nat) (e : Int) : Int := isqrt (2 ^ (2 * fxBits - e).toNat / m)

/-- 2 to a fraction of `n` bits, by the square roots of 2, 2^(1/2), 2^(1/4), …: `s` is the root so far, `acc` the product, both scaled. -/
def exp2Loop : Nat → Nat → Nat → Nat → Nat
  | 0, _, _, acc => acc
  | n + 1, f, s, acc =>
    let s1 := isqrt (s * 2 ^ fxBits)
    exp2Loop n f s1 (if f.testBit n then acc * s1 / 2 ^ fxBits else acc)

/-- The floor of a finite value times 2^`k`. -/
def fxFloor (n : Bool) (m : Nat) (e : Int) (k : Nat) : Int :=
  let u : Int := (if n then -1 else 1) * m
  if 0 ≤ e + k then u * 2 ^ (e + k).toNat else u / 2 ^ (-(e + k)).toNat

/-- 2 to a finite value below 128, scaled. -/
def exp2Ref (n : Bool) (m : Nat) (e : Int) : Int :=
  let v := fxFloor n m e 120
  let f := exp2Loop 120 (v % 2 ^ 120).toNat (2 ^ (fxBits + 1)) (2 ^ fxBits)
  let i := v / 2 ^ 120
  if 0 ≤ i then (f * 2 ^ i.toNat : Nat) else (f / 2 ^ min (-i).toNat 1000 : Nat)

/-- FEX2 (spec 09 R166): integers exactly, overflow from 128 up, underflow below -126 but for the exact subnormals. -/
def fEx2 (a : Nat) : FRes :=
  match fp32.nanOf [a] with
  | some r => r
  | none =>
    match fp32.decode a with
    | .inf n => ⟨if n then 0 else fp32.infBits, 0⟩
    | .fin n m e =>
      let (k, frac) := roundMag .rz n m e
      let i : Int := if n then -(k : Int) else k
      if !n && decide (128 ≤ k) then ⟨fp32.infBits, flOverflow⟩
      else if !frac && pow2Fits i then ⟨fpPow2 false i, 0⟩
      else
        let low := n && decide (126 ≤ k)
        let v := exp2Ref n m e
        ⟨bounded 0x4D a v (2 * fxUlp v + v / 2 ^ 90) fun c => !low || decide (c % 2 ^ 31 < 2 ^ 23), if low then flUnderflow else 0⟩
    | .nan _ => fp32.invalid

/-- The binary logarithm of a scaled value from 1 to 2, to `n` bits, by squaring. -/
def log2Loop : Nat → Nat → Nat → Nat
  | 0, _, acc => acc
  | n + 1, x, acc =>
    let y := x * x / 2 ^ fxBits
    if 2 ^ (fxBits + 1) ≤ y then log2Loop n (y / 2) (2 * acc + 1) else log2Loop n y (2 * acc)

/-- The binary logarithm of a positive finite value, scaled. -/
def log2Ref (m : Nat) (e : Int) : Int :=
  let k := Nat.log2 m
  (e + k) * 2 ^ fxBits + (log2Loop 100 (m * 2 ^ (fxBits - k)) 0 * 2 ^ (fxBits - 100) : Nat)

/-- The bound of FLG2: absolute from 0.5 to 2, else two units in the last place. -/
def log2Bound (v : Int) : Int := if v.natAbs ≤ 2 ^ fxBits then 2 ^ (fxBits - 22) else 2 * fxUlp v

/-- FLG2 (spec 09 R166). -/
def fLg2 (a : Nat) : FRes :=
  match fp32.nanOf [a] with
  | some r => r
  | none =>
    match fp32.decode a with
    | .inf n => if n then fp32.invalid else ⟨fp32.infBits, 0⟩
    | .fin n m e =>
      if m = 0 then ⟨fp32.sign true + fp32.infBits, flDivZero⟩
      else if n then fp32.invalid
      else
        match pow2Of m e with
        | some k => ⟨(fp32.ofInt .rne 64 false (k % 2 ^ 64).toNat).val, 0⟩
        | none => ⟨bounded 0x4E a (log2Ref m e) (log2Bound (log2Ref m e) + 2 ^ (fxBits - 90)) fun _ => true, 0⟩
    | .nan _ => fp32.invalid

/-- Four times a finite value modulo 8, where it is an integer: the quarter turns of π·a that FSIN and FCOS give exactly (spec 09 R166). -/
def halfTurns (n : Bool) (m : Nat) (e : Int) : Option Nat :=
  if m = 0 then some 0
  else
    let e2 := e + 1
    if 0 ≤ e2 then some (if n then (4 - m * 2 ^ e2.toNat % 4) % 4 else m * 2 ^ e2.toNat % 4)
    else if m % 2 ^ (-e2).toNat = 0 then some (if n then (4 - m / 2 ^ (-e2).toNat % 4) % 4 else m / 2 ^ (-e2).toNat % 4)
    else none

/-- Cosine and sine of π times the fraction whose `n` low bits are `u`, on top of those given: `c` and `s` belong to twice the weight of the next bit. -/
def turnLoop : Nat → Nat → Nat → Nat → Int × Int → Int × Int
  | 0, _, _, _, z => z
  | n + 1, u, c, s, z =>
    let z1 := if u.testBit n then ((z.1 * c - z.2 * s) / 2 ^ fxBits, (z.1 * s + z.2 * c) / 2 ^ fxBits) else z
    turnLoop n u (isqrt ((2 ^ fxBits + c) * 2 ^ (fxBits - 1))) (isqrt ((2 ^ fxBits - c) * 2 ^ (fxBits - 1))) z1

/-- Cosine and sine of π·a, scaled; a is reduced modulo 2 exactly, then cut after 100 bits (spec 09 R166). -/
def turnRef (n : Bool) (m : Nat) (e : Int) : Int × Int :=
  let u := (fxFloor n m e 100 % 2 ^ 101).toNat
  let z := turnLoop 100 u 0 (2 ^ fxBits) (2 ^ fxBits, 0)
  if u.testBit 100 then (-z.1, -z.2) else z

/-- FSIN and FCOS (spec 09 R166): `q0` is the quarter turn added, 0 for the sine and 1 for the cosine. -/
def fTrig (op q0 : Nat) (a : Nat) : FRes :=
  match fp32.nanOf [a] with
  | some r => r
  | none =>
    match fp32.decode a with
    | .fin n m e =>
      match halfTurns n m e with
      | some q =>
        match (q + q0) % 4 with
        | 1 => ⟨0x3F800000, 0⟩
        | 3 => ⟨0xBF800000, 0⟩
        | _ => ⟨0, 0⟩
      | none => ⟨bounded op a (if q0 = 0 then (turnRef n m e).2 else (turnRef n m e).1) (2 ^ (fxBits - 22) + 2 ^ (fxBits - 90)) fun _ => true, 0⟩
    | _ => fp32.invalid

end Sys2Proof.Machine
end

