-- ==== Sys2Proof/Machine/Float.lean ====
section
/-! DEFINITION. Floating-point and conversion instructions, opcodes 0x40 to 0x67 (spec 09 R156 to R174). -/

namespace Sys2Proof.Machine

/-- FADD: a + b (spec 09 R160). -/
def execFadd (d : Reg) (a : Reg) (b : Reg) (rm : Rnd) (g : Guard) (s : State) : Host.Outcome State Fault Refusal :=
  execute (.fadd d a b rm g)
    (fpLanes fun y l => to32 d l (fp32.add (laneRm y l rm) (y.f32 a l) (y.f32 b l))) s

/-- FSUB: a - b (spec 09 R160). -/
def execFsub (d : Reg) (a : Reg) (b : Reg) (rm : Rnd) (g : Guard) (s : State) : Host.Outcome State Fault Refusal :=
  execute (.fsub d a b rm g)
    (fpLanes fun y l => to32 d l (fp32.sub (laneRm y l rm) (y.f32 a l) (y.f32 b l))) s

/-- FMUL: a × b (spec 09 R160). -/
def execFmul (d : Reg) (a : Reg) (b : Reg) (rm : Rnd) (g : Guard) (s : State) : Host.Outcome State Fault Refusal :=
  execute (.fmul d a b rm g)
    (fpLanes fun y l => to32 d l (fp32.mul (laneRm y l rm) (y.f32 a l) (y.f32 b l))) s

/-- FFMA: a × b + c, rounded once (spec 09 R160). -/
def execFfma (d : Reg) (a : Reg) (b : Reg) (c : BitVec 6) (rm : Rnd) (g : Guard) (s : State) : Host.Outcome State Fault Refusal :=
  execute (.ffma d a b c rm g)
    (fpLanes fun y l => to32 d l (fp32.fma (laneRm y l rm) (y.f32 a l) (y.f32 b l) (y.f32 c l))) s

/-- FMIN (spec 09 R161). -/
def execFmin (d : Reg) (a : Reg) (b : Reg) (g : Guard) (s : State) : Host.Outcome State Fault Refusal :=
  execute (.fmin d a b g)
    (fpLanes fun y l => to32 d l (fp32.minMax false (y.f32 a l) (y.f32 b l))) s

/-- FMAX (spec 09 R161). -/
def execFmax (d : Reg) (a : Reg) (b : Reg) (g : Guard) (s : State) : Host.Outcome State Fault Refusal :=
  execute (.fmax d a b g)
    (fpLanes fun y l => to32 d l (fp32.minMax true (y.f32 a l) (y.f32 b l))) s

/-- FABS clears bit 31 (spec 09 R162). -/
def execFabs (d : Reg) (a : Reg) (g : Guard) (s : State) : Host.Outcome State Fault Refusal :=
  execute (.fabs d a g)
    (fpPlain fun y l => [.reg d.toNat l (y.reg a.toNat l &&& 0x7FFFFFFF)]) s

/-- FNEG inverts bit 31 (spec 09 R162). -/
def execFneg (d : Reg) (a : Reg) (g : Guard) (s : State) : Host.Outcome State Fault Refusal :=
  execute (.fneg d a g)
    (fpPlain fun y l => [.reg d.toNat l (y.reg a.toNat l ^^^ 0x80000000)]) s

/-- FSET: pD := condition(a, b) (spec 09 R163). -/
def execFset (cc : FCond) (pd : PReg) (a : Reg) (b : Reg) (g : Guard) (s : State) : Host.Outcome State Fault Refusal :=
  execute (.fset cc pd a b g)
    (fpLanes fun y l =>
      let r := fp32.compare cc (y.f32 a l) (y.f32 b l)
      ([.pred pd.toNat l r.1], r.2)) s

/-- FRCP: 1/a (spec 09 R166). -/
def execFrcp (d : Reg) (a : Reg) (g : Guard) (s : State) : Host.Outcome State Fault Refusal :=
  execute (.frcp d a g)
    (sfuLanes (.frcp d a g) fun y l => to32 d l (fRcp (y.f32 a l))) s

/-- FRSQ: 1/√a (spec 09 R166). -/
def execFrsq (d : Reg) (a : Reg) (g : Guard) (s : State) : Host.Outcome State Fault Refusal :=
  execute (.frsq d a g)
    (sfuLanes (.frsq d a g) fun y l => to32 d l (fRsq (y.f32 a l))) s

/-- FSQRT (spec 09 R165). -/
def execFsqrt (d : Reg) (a : Reg) (rm : Rnd) (g : Guard) (s : State) : Host.Outcome State Fault Refusal :=
  execute (.fsqrt d a rm g)
    (sfuLanes (.fsqrt d a rm g) fun y l => to32 d l (fp32.sqrt (laneRm y l rm) (y.f32 a l))) s

/-- FDIV (spec 09 R165). -/
def execFdiv (d : Reg) (a : Reg) (b : Reg) (rm : Rnd) (g : Guard) (s : State) : Host.Outcome State Fault Refusal :=
  execute (.fdiv d a b rm g)
    (sfuLanes (.fdiv d a b rm g) fun y l => to32 d l (fp32.div (laneRm y l rm) (y.f32 a l) (y.f32 b l))) s

/-- FEX2: 2^a (spec 09 R166). -/
def execFex2 (d : Reg) (a : Reg) (g : Guard) (s : State) : Host.Outcome State Fault Refusal :=
  execute (.fex2 d a g)
    (sfuLanes (.fex2 d a g) fun y l => to32 d l (fEx2 (y.f32 a l))) s

/-- FLG2: log₂ a (spec 09 R166). -/
def execFlg2 (d : Reg) (a : Reg) (g : Guard) (s : State) : Host.Outcome State Fault Refusal :=
  execute (.flg2 d a g)
    (sfuLanes (.flg2 d a g) fun y l => to32 d l (fLg2 (y.f32 a l))) s

/-- FSIN: sin(π·a) (spec 09 R166). -/
def execFsin (d : Reg) (a : Reg) (g : Guard) (s : State) : Host.Outcome State Fault Refusal :=
  execute (.fsin d a g)
    (sfuLanes (.fsin d a g) fun y l => to32 d l (fTrig 0x4F 0 (y.f32 a l))) s

/-- FCOS: cos(π·a) (spec 09 R166). -/
def execFcos (d : Reg) (a : Reg) (g : Guard) (s : State) : Host.Outcome State Fault Refusal :=
  execute (.fcos d a g)
    (sfuLanes (.fcos d a g) fun y l => to32 d l (fTrig 0x50 1 (y.f32 a l))) s

/-- FRND: the nearest integral value (spec 09 R164). -/
def execFrnd (d : Reg) (a : Reg) (rm : Rnd) (g : Guard) (s : State) : Host.Outcome State Fault Refusal :=
  execute (.frnd d a rm g)
    (fpLanes fun y l => to32 d l (fp32.integral (laneRm y l rm) (y.f32 a l))) s

/-- DADD: a + b on FP64 (spec 09 R160). -/
def execDadd (d : Reg) (a : Reg) (b : Reg) (rm : Rnd) (g : Guard) (s : State) : Host.Outcome State Fault Refusal :=
  execute (.dadd d a b rm g)
    (fpLanes fun y l => to64 d l (fp64.add (laneRm y l rm) (y.f64 a l) (y.f64 b l))) s

/-- DSUB: a - b on FP64 (spec 09 R160). -/
def execDsub (d : Reg) (a : Reg) (b : Reg) (rm : Rnd) (g : Guard) (s : State) : Host.Outcome State Fault Refusal :=
  execute (.dsub d a b rm g)
    (fpLanes fun y l => to64 d l (fp64.sub (laneRm y l rm) (y.f64 a l) (y.f64 b l))) s

/-- DMUL: a × b on FP64 (spec 09 R160). -/
def execDmul (d : Reg) (a : Reg) (b : Reg) (rm : Rnd) (g : Guard) (s : State) : Host.Outcome State Fault Refusal :=
  execute (.dmul d a b rm g)
    (fpLanes fun y l => to64 d l (fp64.mul (laneRm y l rm) (y.f64 a l) (y.f64 b l))) s

/-- DFMA: a × b + c on FP64, rounded once (spec 09 R160). -/
def execDfma (d : Reg) (a : Reg) (b : Reg) (c : BitVec 6) (rm : Rnd) (g : Guard) (s : State) : Host.Outcome State Fault Refusal :=
  execute (.dfma d a b c rm g)
    (fpLanes fun y l => to64 d l (fp64.fma (laneRm y l rm) (y.f64 a l) (y.f64 b l) (y.f64 c l))) s

/-- DMIN (spec 09 R161). -/
def execDmin (d : Reg) (a : Reg) (b : Reg) (g : Guard) (s : State) : Host.Outcome State Fault Refusal :=
  execute (.dmin d a b g)
    (fpLanes fun y l => to64 d l (fp64.minMax false (y.f64 a l) (y.f64 b l))) s

/-- DMAX (spec 09 R161). -/
def execDmax (d : Reg) (a : Reg) (b : Reg) (g : Guard) (s : State) : Host.Outcome State Fault Refusal :=
  execute (.dmax d a b g)
    (fpLanes fun y l => to64 d l (fp64.minMax true (y.f64 a l) (y.f64 b l))) s

/-- DSET: pD := condition(a, b) (spec 09 R163). -/
def execDset (cc : FCond) (pd : PReg) (a : Reg) (b : Reg) (g : Guard) (s : State) : Host.Outcome State Fault Refusal :=
  execute (.dset cc pd a b g)
    (fpLanes fun y l =>
      let r := fp64.compare cc (y.f64 a l) (y.f64 b l)
      ([.pred pd.toNat l r.1], r.2)) s

/-- DDIV (spec 09 R165). -/
def execDdiv (d : Reg) (a : Reg) (b : Reg) (rm : Rnd) (g : Guard) (s : State) : Host.Outcome State Fault Refusal :=
  execute (.ddiv d a b rm g)
    (sfuLanes (.ddiv d a b rm g) fun y l => to64 d l (fp64.div (laneRm y l rm) (y.f64 a l) (y.f64 b l))) s

/-- DSQRT (spec 09 R165). -/
def execDsqrt (d : Reg) (a : Reg) (rm : Rnd) (g : Guard) (s : State) : Host.Outcome State Fault Refusal :=
  execute (.dsqrt d a rm g)
    (sfuLanes (.dsqrt d a rm g) fun y l => to64 d l (fp64.sqrt (laneRm y l rm) (y.f64 a l))) s

/-- HADD2: per 16-bit element, a + b (spec 09 R160). -/
def execHadd2 (d : Reg) (a : Reg) (b : Reg) (rm : Rnd) (g : Guard) (s : State) : Host.Outcome State Fault Refusal :=
  execute (.hadd2 d a b rm g)
    (fpLanes fun y l =>
      let f := laneHalf y l
      let r := fun e => f.add (laneRm y l rm) (half (y.f32 a l) e) (half (y.f32 b l) e)
      toHalves d l (r 0) (r 1)) s

/-- HMUL2: per 16-bit element, a × b (spec 09 R160). -/
def execHmul2 (d : Reg) (a : Reg) (b : Reg) (rm : Rnd) (g : Guard) (s : State) : Host.Outcome State Fault Refusal :=
  execute (.hmul2 d a b rm g)
    (fpLanes fun y l =>
      let f := laneHalf y l
      let r := fun e => f.mul (laneRm y l rm) (half (y.f32 a l) e) (half (y.f32 b l) e)
      toHalves d l (r 0) (r 1)) s

/-- HFMA2: per 16-bit element, a × b + c, rounded once (spec 09 R160). -/
def execHfma2 (d : Reg) (a : Reg) (b : Reg) (c : BitVec 6) (rm : Rnd) (g : Guard) (s : State) : Host.Outcome State Fault Refusal :=
  execute (.hfma2 d a b c rm g)
    (fpLanes fun y l =>
      let f := laneHalf y l
      let r := fun e => f.fma (laneRm y l rm) (half (y.f32 a l) e) (half (y.f32 b l) e) (half (y.f32 c l) e)
      toHalves d l (r 0) (r 1)) s

/-- CVTFI: FP32 to integer (spec 09 R168). -/
def execCvtfi (d : Reg) (a : Reg) (wide : Bool) (uns : Bool) (rm : Rnd) (g : Guard) (s : State) : Host.Outcome State Fault Refusal :=
  execute (.cvtfi d a wide uns rm g)
    (fpLanes fun y l =>
      let r := fp32.toInt (laneRm y l rm) (if wide then 64 else 32) uns (y.f32 a l)
      if wide then to64 d l r else to32 d l r) s

/-- CVTIF: integer to FP32 (spec 09 R168). -/
def execCvtif (d : Reg) (a : Reg) (wide : Bool) (uns : Bool) (rm : Rnd) (g : Guard) (s : State) : Host.Outcome State Fault Refusal :=
  execute (.cvtif d a wide uns rm g)
    (fpLanes fun y l =>
      to32 d l (if wide then fp32.ofInt (laneRm y l rm) 64 uns (y.f64 a l) else fp32.ofInt (laneRm y l rm) 32 uns (y.f32 a l))) s

/-- CVTFD: FP32 to FP64, exact (spec 09 R169). -/
def execCvtfd (d : Reg) (a : Reg) (g : Guard) (s : State) : Host.Outcome State Fault Refusal :=
  execute (.cvtfd d a g)
    (fpLanes fun y l => to64 d l (fp32.convert fp64 .rne (y.f32 a l))) s

/-- CVTDF: FP64 to FP32 (spec 09 R169). -/
def execCvtdf (d : Reg) (a : Reg) (rm : Rnd) (g : Guard) (s : State) : Host.Outcome State Fault Refusal :=
  execute (.cvtdf d a rm g)
    (fpLanes fun y l => to32 d l (fp64.convert fp32 (laneRm y l rm) (y.f64 a l))) s

/-- CVTFH: two FP32 values to 16-bit elements (spec 09 R170). -/
def execCvtfh (d : Reg) (a : Reg) (b : Reg) (rm : Rnd) (g : Guard) (s : State) : Host.Outcome State Fault Refusal :=
  execute (.cvtfh d a b rm g)
    (fpLanes fun y l =>
      let c := fun v => fp32.convert (laneHalf y l) (laneRm y l rm) v
      toHalves d l (c (y.f32 a l)) (c (y.f32 b l))) s

/-- CVTHF: a 16-bit element to FP32, exact (spec 09 R170). -/
def execCvthf (d : Reg) (a : Reg) (e : BitVec 1) (g : Guard) (s : State) : Host.Outcome State Fault Refusal :=
  execute (.cvthf d a e g)
    (fpLanes fun y l => to32 d l ((laneHalf y l).convert fp32 .rne (half (y.f32 a l) e.toNat))) s

/-- NARROW8: four FP32 values to binary8 with error feedback (spec 08 R148, 09 R172). -/
def execNarrow8 (d : Reg) (a : Reg) (sat : Bool) (inf : Bool) (uns : Bool) (prec : BitVec 3) (c : BitVec 6) (g : Guard) (s : State) : Host.Outcome State Fault Refusal :=
  execute (.narrow8 d a sat inf uns prec c g)
    (fpLanes fun y l =>
      let r := narrow8 ⟨prec.toNat, uns, inf⟩ sat ((List.range 4).map fun k => (y.reg (a.toNat + k) l).toNat) (y.f32 c l)
      ([.reg d.toNat l (BitVec.ofNat 32 r.1.val), .reg c.toNat l (BitVec.ofNat 32 r.2)], r.1.flags)) s

/-- WIDEN8: four binary8 codes to FP32, exact (spec 09 R171). -/
def execWiden8 (d : Reg) (a : Reg) (inf : Bool) (uns : Bool) (prec : BitVec 3) (g : Guard) (s : State) : Host.Outcome State Fault Refusal :=
  execute (.widen8 d a inf uns prec g)
    (fpPlain fun y l =>
      (List.range 4).map fun k => .reg (d.toNat + k) l (BitVec.ofNat 32 (fp32Of ((⟨prec.toNat, uns, inf⟩ : Form8).decode (fld (y.f32 a l) (8 * k) 8))))) s

/-- SCALEX: a × 2^(s0 + s1 - 254) (spec 09 R173). -/
def execScalex (d : Reg) (a : Reg) (b : Reg) (rm : Rnd) (g : Guard) (s : State) : Host.Outcome State Fault Refusal :=
  execute (.scalex d a b rm g)
    (fpLanes fun y l => to32 d l (scalex (laneRm y l rm) (y.f32 a l) (y.f32 b l))) s

/-- FCLASS: the class of the operand as one set bit (spec 09 R174). -/
def execFclass (d : Reg) (a : Reg) (which : FClassSel) (g : Guard) (s : State) : Host.Outcome State Fault Refusal :=
  execute (.fclass d a which g)
    (fpPlain fun y l =>
      let v := y.f32 a l
      let k := match which with
        | .f32 => fp32.classBit v
        | .f64 => fp64.classBit (y.f64 a l)
        | .h0 => fp16.classBit (half v 0)
        | .h1 => fp16.classBit (half v 1)
        | .b0 => bf16.classBit (half v 0)
        | .b1 => bf16.classBit (half v 1)
      [.reg d.toNat l (BitVec.ofNat 32 (2 ^ k))]) s

end Sys2Proof.Machine
end

