-- ==== Sys2Proof/Machine/HostPort.lean ====
section
/-! DEFINITION. What else reaches the device from outside: control-space words, sends and writes of hosts, other devices, the management firmware, attestation,
reset (spec 10 R183, 17 R321 to R323, 21 R390, R399, 23 R414 to R428). -/

namespace Sys2Proof.Machine

/-! ## Control-space words -/

/-- The core is one of the partition's (spec 21 R388). -/
def ownCore (m : Mach) (p core : Nat) : Bool := (m.part p).clusters.contains (clusterOfCore core)

/-- The control word of a breakpoint or watchpoint leaves its reserved fields zero and names a thread from 0 to 511 (spec 21 R390). -/
def dbgCtlOk (watch : Bool) (v : Word) : Bool :=
  decide (bits v 19 13 = 0) && decide (bits v 4 4 = 0) && decide (bits v 17 1 = 0) && (watch || decide (bits v 1 3 = 0))

/-- The address holds a clause header in some context of the partition (spec 21 R390, log 112). -/
def isHeader (m : Mach) (p : Nat) (addr : DWord) : Bool :=
  (List.range 16).any fun c => match headerAt m (partSite m p) p c addr with | .ok _ => true | .error _ => false

/-- A debug unit changed. -/
def modDbg (core : Nat) (f : Core → Core) (m : Mach) : Mach := m.modK core f

/-- The word leaves its reserved fields zero (spec 00 R4, 21 R390, 23 R421). -/
def csReservedOk (v : CsWord) : Bool :=
  match v with
  | .fabric _ _ _ _ flags reserved => decide (bits flags 2 30 = 0) && decide (reserved = 0)
  | .breakCtl _ _ _ w => dbgCtlOk false w
  | .watchCtl _ _ _ w => dbgCtlOk true w
  | _ => true

/-- The write keeps the limits of its word (spec 21 R388, R390, R399, 19 R361, R363, 23 R419, R421). -/
def csOk (m : Mach) (p : Nat) (v : CsWord) : Bool :=
  match v with
  | .channelSize ch n => decide (ch < 256) && decide (1 ≤ n) && decide (n ≤ 4096)
  | .fabric k _ _ _ _ _ => decide (k < 64)
  | .codeBreak core k addr => ownCore m p core && decide (k < 8) && isHeader m p addr
  | .watchRange core k base len => ownCore m p core && decide (k < 4) && decide (base.toNat % 4 = 0) && decide (len.toNat % 4 = 0) && decide (4 ≤ len.toNat)
  | .breakCtl core k _ _ => ownCore m p core && decide (k < 8)
  | .watchCtl core k _ _ => ownCore m p core && decide (k < 4)
  | .haltOnBreak core _ => ownCore m p core
  | .binRange core k base limit => ownCore m p core && decide (k < 16) && decide (base.toNat % 4 = 0) && decide (limit.toNat % 4 = 0)
  | .region k cls vault base size => decide (k < 64) && (decide (cls = .clear) || ((ownRangeTrap m p vault base size).isNone && !(m.part p).regions.any fun r =>
      decide (r.1 ≠ k) && r.2.used && decide (r.2.cls ≠ cls) && overlaps r.2.vault r.2.base r.2.size vault base size))

/-- The word takes its value. -/
def csPut (p : Nat) (v : CsWord) (m : Mach) : Mach :=
  match v with
  | .channelSize ch n => m.modP p fun q => { q with channels := Store.upd default q.channels ch fun c => { c with cap := n } }
  | .fabric k lo hi ridx flags _ => m.modP p fun q => { q with fabric := Store.put q.fabric k ⟨lo, hi, ridx, flags.getLsbD 1, flags.getLsbD 0⟩ }
  | .codeBreak core k addr => modDbg core (fun c => { c with breaks := Store.upd default c.breaks k fun d => { d with addr := addr } }) m
  | .watchRange core k base len => modDbg core (fun c => { c with watches := Store.upd default c.watches k fun d => { d with addr := base, len := len } }) m
  | .breakCtl core k serial w => modDbg core (fun c => { c with breaks := Store.upd default c.breaks k fun d => { d with ctl := w, wg := serial } }) m
  | .watchCtl core k serial w => modDbg core (fun c => { c with watches := Store.upd default c.watches k fun d => { d with ctl := w, wg := serial } }) m
  | .haltOnBreak core on => modDbg core (fun c => { c with haltOnBreak := on }) m
  | .binRange core k base limit => modDbg core (fun c => { c with bins := Store.upd default c.bins k fun b => { b with base := base, limit := limit } }) m
  | .region k cls vault base size => m.modP p fun q => { q with regions := Store.put q.regions k (if cls = .clear then default else ⟨true, cls, vault, base, size⟩) }

/-- CONTROL_SPACE_WRITE: a write that sets a reserved field is ignored (spec 00 R4), one that breaks the limits of its word is refused. -/
def controlWrite (p : Nat) (v : CsWord) (m : Mach) : Mach :=
  if (m.part p).made = false then toHost p .invalid m
  else if !(csReservedOk v) then toHost p .ack m
  else if csOk m p v then toHost p .ack (csPut p v m)
  else toHost p .refused m

/-- CONTROL_SPACE_WRITE. -/
def execControlSpaceWrite (part : Nat) (v : CsWord) (s : State) : Host.Outcome State Fault Refusal := eventStep (controlWrite part v) s

/-! ## Sends and writes of hosts -/

/-- A message has a size that is supported (spec 23 R414). -/
def sendOk (n : Nat) : Bool := decide (16 ≤ n) && decide (n ≤ 4096) && decide (n % 16 = 0)

/-- INBOX_SEND: refused, answered busy, or in channel 0 (spec 23 R414, R415, R419). -/
def inboxSend (p : Nat) (msg : List Byte) (m : Mach) : Mach :=
  if (m.part p).made = false || !(sendOk msg.length) then toHost p .invalid m
  else if channelRoom m p 0 then toHost p .ack (channelPut p 0 ⟨0, 0, msg⟩ m)
  else toHost p .busy m

/-- INBOX_SEND. -/
def execInboxSend (part : Nat) (msg : List Byte) (s : State) : Host.Outcome State Fault Refusal := eventStep (inboxSend part msg) s

/-- The physical addresses of bytes that a host writes, or none where one faults (spec 23 R415, 13 R253). -/
def rmaPlaces (m : Mach) (p c : Nat) : Nat → Nat → Option (List Nat)
  | _, 0 => some []
  | va, n + 1 =>
    match translate m (partSite m p) p c va .write with
    | .error _ => none
    | .ok x => if sealedAt m x.pa then none else (rmaPlaces m p c (va + 1) n).map fun ps => x.pa :: ps

/-- Bytes written at their places. -/
def pokeAll (es : List (Nat × Byte)) (m : Mach) : Mach := es.foldl (fun acc e => writePa acc none none e.1 [e.2]) m

/-- The granules of bytes that are to be written are read: a location whose check has failed is read again at once (spec 10 R190, R191, log 7). -/
def retryAll (ps : List Nat) (m : Mach) : Mach := ps.foldl (fun acc pa => retryHbm pa acc) m

/-- HOST_RMA_WRITE: refused where it breaks R414, answered with an access error where it faults, else performed (spec 17 R323, 23 R414, R415). -/
def rmaWrite (p c va : Nat) (bytes : List Byte) (m : Mach) : Mach :=
  if (m.part p).made = false || decide (bytes.length = 0) || decide (2 ^ 30 < bytes.length) then toHost p .invalid m
  else
    match rmaPlaces m p c va bytes.length with
    | none => toHost p .accessError m
    | some ps0 =>
      let m1 := retryAll ps0 m
      match rmaPlaces m1 p c va bytes.length with
      | none => toHost p .accessError m1
      | some ps => toHost p .ack (pokeAll (ps.zip bytes) m1)

/-- HOST_RMA_WRITE. -/
def execHostRmaWrite (part ctx va : Nat) (bytes : List Byte) (s : State) : Host.Outcome State Fault Refusal := eventStep (rmaWrite part ctx va bytes) s

/-! ## Other devices -/

/-- Why a request of a partition's master for `n` bytes of this device's HBM is refused at its home (spec 10 R183, R190, 13 R253, 17 R322, 23 R426). -/
def arrivalFault (m : Mach) (p pa n : Nat) (write : Bool) : Option Cause :=
  let rt : Right := if write then .write else .read
  if !(paLocal pa) || !(paLocal (pa + n - 1)) then some .accessTableDeny
  else if !(granted m p pa rt) || !(granted m p (pa + n - 1) rt) then some .accessTableDeny
  else if write && (List.range n).any fun k => sealedAt m (pa + k) then some .accessTableDeny
  else if frameBad m pa || frameBad m (pa + n - 1) then some .uncorrectable
  else none

/-- A read-modify-write that another device asks for. -/
def arrivalRmw (dev pa n : Nat) (f : Nat → Option Nat) (m : Mach) : Mach :=
  let old := leNat (readPa m pa n)
  let m1 := match f old with
    | some v => pokeAll ((leBytes n v).zipIdx.map fun e => (pa + e.2, e.1)) m
    | none => m
  toHost 0 (.reply dev (leBytes n old)) m1

/-- REMOTE_ACCESS_ARRIVAL: the request of a partition's master is performed at its home, and the response goes back; a plane that is down carries nothing (spec
17 R321, R322, 18 R331, 23 R425). -/
def remoteArrival (dev p : Nat) (op : RemoteOp) (mi : Mach) : Mach :=
  let range := match op with | .load pa n => (pa, n) | .store pa bs => (pa, bs.length) | .atomic _ sz pa _ => (pa, sizeBytes sz) | .cas sz pa _ _ => (pa, sizeBytes sz)
  let m := if paLocal range.1 then retryRange range.1 range.2 mi else mi
  let guard := fun (pa n : Nat) (w : Bool) (k : Mach) =>
    match arrivalFault m p pa n w with
    | some c => toHost 0 (.replyFault dev c) m
    | none => k
  if planeClosed mi range.1 then mi
  else match op with
  | .load pa n => guard pa n false (toHost 0 (.reply dev (readPa m pa n)) m)
  | .store pa bs => guard pa bs.length true (toHost 0 (.reply dev []) (pokeAll (bs.zipIdx.map fun e => (pa + e.2, e.1)) m))
  | .atomic o sz pa v => guard pa (sizeBytes sz) true (arrivalRmw dev pa (sizeBytes sz) (fun old => some (atomValue o (sizeBytes sz) old (v.toNat % 2 ^ (8 * sizeBytes sz)))) m)
  | .cas sz pa c v => guard pa (sizeBytes sz) true (arrivalRmw dev pa (sizeBytes sz)
      (fun old => if old = c.toNat % 2 ^ (8 * sizeBytes sz) then some (v.toNat % 2 ^ (8 * sizeBytes sz)) else none) m)

/-- REMOTE_ACCESS_ARRIVAL. -/
def execRemoteAccessArrival (dev : Nat) (op : RemoteReq) (s : State) : Host.Outcome State Fault Refusal := eventStep (remoteArrival dev op.part op.op) s

/-- REMOTE_MESSAGE_ARRIVAL: a message of another device enters a channel that has room (spec 23 R419, R422, R425). -/
def remoteMessage (dev p ch : Nat) (msg : List Byte) (m : Mach) : Mach :=
  if linkUp m && (m.part p).made && sendOk msg.length && channelRoom m p ch then channelPut p ch ⟨2, dev, msg⟩ m else m

/-- REMOTE_MESSAGE_ARRIVAL. -/
def execRemoteMessageArrival (dev part ch : Nat) (msg : List Byte) (s : State) : Host.Outcome State Fault Refusal := eventStep (remoteMessage dev part ch msg) s

/-! ## The management firmware -/

/-- ACCESS_TABLE_GRANT (spec 23 R426). -/
def accessGrant (p : Nat) (g : Grant) (m : Mach) : Mach := toHost p .ack { m with grants := m.grants ++ [g] }

/-- ACCESS_TABLE_GRANT. -/
def execAccessTableGrant (part : Nat) (grant : Grant) (s : State) : Host.Outcome State Fault Refusal := eventStep (accessGrant part grant) s

/-- Clusters, engine lanes and HBM ranges are zeroed, with the debug units and the engines of these (spec 23 R427). -/
def zeroOwned (cl : List Nat) (ls : List (Nat × Nat)) (own : List (Nat × Nat)) (m : Mach) : Mach :=
  let gone := fun (pa : Nat) => own.any fun r => decide (r.1 ≤ pa) && decide (pa < r.1 + r.2)
  { m with
    hbm := own.foldl (fun acc r => Memory.dropRange acc r.1 (r.1 + r.2)) m.hbm
    vault := cl.foldl (fun acc c => Memory.dropRange acc (vaultKey c 0) (vaultKey (c + 1) 0)) m.vault
    scratch := cl.foldl (fun acc c => Memory.dropRange acc (scratchKey (4 * c) 0) (scratchKey (4 * (c + 1)) 0)) m.scratch
    cores := m.cores.filter fun e => !(cl.contains (clusterOfCore e.1))
    clusters := m.clusters.filter fun e => !(cl.contains e.1)
    elanes := m.elanes.filter fun e => !(ls.any fun l => decide (16 * l.1 + l.2 = e.1))
    sealed_ := m.sealed_.filter fun s => !(gone s.hdr) }

/-- The ranges of local HBM that a configuration gives (spec 23 R426). -/
def cfgRanges (cfg : PartCfg) : List (Nat × Nat) := (cfg.grants.filter fun g => decide (g.tgt = .hbm)).map fun g => (g.base, g.size)

/-- A configuration that can be created: whole clusters and engine lanes that no partition owns, a lane of an engine of every die with clusters (spec 14 R265, 23
R426). -/
def cfgOk (m : Mach) (p : Nat) (cfg : PartCfg) : Bool :=
  decide (p < 16) && !((m.part p).made) && !cfg.clusters.isEmpty && cfg.clusters.all (fun c => decide (c < 256)) && decide (cfg.clusters.eraseDups = cfg.clusters) &&
    cfg.lanes.all (fun l => decide (l.1 < 16) && decide (l.2 < 16)) && cfg.clusters.all (fun c => cfg.lanes.any fun l => decide (l.1 / 4 = c / 64)) && m.parts.all fun e => !(e.2.made) ||
      (e.2.clusters.all (fun c => !(cfg.clusters.contains c)) && e.2.lanes.all fun l => !(cfg.lanes.contains l))

/-- A partition as it is created (spec 03 R31, R41, 04 R49, 23 R419, R426); the sizes of its channels: log 3. -/
def newPart (cfg : PartCfg) : Part :=
  let cl := sortBy (fun a b => decide (a ≤ b)) cfg.clusters
  { (default : Part) with
    made := true
    owner := cfg.owner
    clusters := cl
    lanes := cfg.lanes
    own := cfgRanges cfg
    shares := cfg.shares
    pool := 4096
    nodesFree := 4096
    corePtr := 4 * cl.getLastD 0 + 3
    clusterPtr := cl.getLastD 0
    channels := (List.range 256).map fun k => (k, ⟨1, []⟩) }

/-- PARTITION_CREATE (spec 23 R426, R427). -/
def partitionCreate (p : Nat) (cfg : PartCfg) (m : Mach) : Mach :=
  if cfgOk m p cfg then
    let m1 := zeroOwned cfg.clusters cfg.lanes (cfgRanges cfg) m
    { m1 with parts := Store.put m1.parts p (newPart cfg), grants := m1.grants ++ cfg.grants.map fun g => { g with part := p } }
  else m

/-- PARTITION_CREATE. -/
def execPartitionCreate (part : Nat) (cfg : PartCfg) (s : State) : Host.Outcome State Fault Refusal := eventStep (partitionCreate part cfg) s

/-- PARTITION_TEARDOWN: nothing of the partition is left, and what it owned is zeroed (spec 23 R427). -/
def partitionTeardown (p : Nat) (m : Mach) : Mach :=
  let q := m.part p
  if q.made = false then m
  else
    let ws := m.wgIds.filter fun w => decide ((m.wg w).part = p)
    let cs := (m.copies.filter fun e => decide (e.2.part = p)).map (·.1)
    let m1 := zeroOwned q.clusters q.lanes q.own (tlbDrop (fun e => decide (e.part = p)) m)
    { m1 with
      parts := Store.del m1.parts p
      wgs := m1.wgs.filter fun e => decide (e.2.part ≠ p)
      launches := m1.launches.filter fun e => decide (e.2.part ≠ p)
      regions := m1.regions.filter fun r => !(ws.contains r.wg)
      copies := m1.copies.filter fun e => !(cs.contains e.1)
      slices := m1.slices.filter fun e => !(cs.contains e.2.copy)
      walks := m1.walks.filter fun e => decide (e.part ≠ p)
      grants := m1.grants.filter fun g => decide (g.part ≠ p)
      cur := match m1.cur with | some (w, g) => if ws.contains w then none else some (w, g) | none => none }

/-- PARTITION_TEARDOWN. -/
def execPartitionTeardown (part : Nat) (s : State) : Host.Outcome State Fault Refusal := eventStep (partitionTeardown part) s

/-! ## Links, firmware, attestation, reset -/

/-- LINK_TRAINING: the switch assigns the domain number, and the planes carry traffic (spec 23 R425). -/
def execLinkTraining (dom : Nat) (s : State) : Host.Outcome State Fault Refusal :=
  if dom < 144 then .next { s with hw := { s.hw with domain := dom }, m := { s.m with planesDown := [] } } else .next s

/-- PLANE_LINK_DOWN (spec 23 R425). -/
def execPlaneLinkDown (plane : Nat) (s : State) : Host.Outcome State Fault Refusal :=
  if plane < 16 ∧ s.m.planesDown.contains plane = false then .next { s with m := { s.m with planesDown := s.m.planesDown ++ [plane] } } else .next s

/-- The boot ROM accepts an image (spec 23 R428). -/
def bootOk (fuse : Nat) (image key sig : List Byte) : Bool := decide (Config.shake256 key = fuse) && Config.verifies key image sig

/-- FIRMWARE_BOOT: a device in recovery runs an image that verifies; else it stays in recovery (spec 23 R428). -/
def execFirmwareBoot (image key sig : List Byte) (s : State) : Host.Outcome State Fault Refusal :=
  if s.hw.running = false ∧ bootOk s.hw.fuse image key sig = true then .next { s with hw := { s.hw with running := true, firmware := image, key := key, sig := sig } }
  else .next s

/-- A partition's configuration as a report hashes it (spec 23 R428; log 9): clusters, HBM ranges, engine lanes, shares. -/
def cfgBytes (q : Part) : List Byte :=
  q.clusters.flatMap (leBytes 2) ++ q.own.flatMap (fun r => leBytes 8 r.1 ++ leBytes 8 r.2) ++ q.lanes.flatMap (fun l => leBytes 1 l.1 ++ leBytes 1 l.2) ++
    q.shares.flatMap (leBytes 4)

/-- The body of an attestation report of a partition (spec 23 R428; log 9). -/
def reportBody (s : State) (p : Nat) (nonce : List Byte) : List Byte :=
  leBytes 32 (Config.shake256 s.hw.firmware) ++ leBytes 32 (Config.shake256 (cfgBytes (s.m.part p))) ++ nonce ++ leBytes 1 s.hw.domain

/-- ATTESTATION_REQUEST: a signed report for a nonce of 32 bytes, through the endpoint of a partition, in recovery too (spec 23 R428; log 9). -/
def execAttestationRequest (nonce : Challenge) (s : State) : Host.Outcome State Fault Refusal :=
  let body := reportBody s nonce.part nonce.nonce
  if nonce.nonce.length = 32 ∧ (s.hw.running = false ∨ (s.m.part nonce.part).made = true) then
    .next { s with hw := { s.hw with reports := s.hw.reports ++ [.report body (Config.sign body)] } }
  else .next s

/-- DEVICE_RESET: everything but the fuses and what lies in the cells' wear is as after reset (spec 06 R111, 10 R190, 23 R428). -/
def execDeviceReset (s : State) : Host.Outcome State Fault Refusal :=
  .next { State.reset with
    hw := { State.reset.hw with fuse := s.hw.fuse, reports := s.hw.reports }
    m := { State.reset.m with badFrames := s.m.badFrames, badBlocks := s.m.badBlocks, failing := s.m.failing, hostOut := s.m.hostOut, freeCtr := s.m.freeCtr }
    schedule := s.schedule
    turn := s.turn }

end Sys2Proof.Machine
end

