-- ==== Sys2Proof/Machine/IntOps.lean ====
section
/-! DEFINITION. Integer arithmetic of one lane, and the forms in which instructions apply it to their lanes (spec 07 R115 to R132, R137). -/

namespace Sys2Proof.Machine

/-- A fixed-latency result: the writes of each lane that takes effect (spec 07 R115). -/
def fixedLanes (lat : Nat) (f : Group → Nat → List LaneWrite) (x : Iss) (m : Mach) : Own :=
  .done 0 (later lat x ((lanesOf x.eff).flatMap (f (m.grp x.w x.g))) m)

/-- One register from the lane (spec 07 R115). -/
def intTo (d : Reg) (f : Group → Nat → Word) : Iss → Mach → Own := fixedLanes 2 fun y l => [.reg d.toNat l (f y l)]

/-- A pair from the lane (spec 07 R125). -/
def intTo64 (d : Reg) (f : Group → Nat → DWord) : Iss → Mach → Own :=
  fixedLanes 2 fun y l => [.reg d.toNat l ((f y l).extractLsb' 0 32), .reg (d.toNat + 1) l ((f y l).extractLsb' 32 32)]

/-- A predicate from the lane (spec 07 R120). -/
def predTo (lat : Nat) (pd : PReg) (f : Group → Nat → Bool) : Iss → Mach → Own := fixedLanes lat fun y l => [.pred pd.toNat l (f y l)]

/-- vD := f a. -/
def int1 (d a : Reg) (f : Word → Word) : Iss → Mach → Own := intTo d fun y l => f (y.reg a.toNat l)

/-- vD := f a b. -/
def int2 (d a b : Reg) (f : Word → Word → Word) : Iss → Mach → Own := intTo d fun y l => f (y.reg a.toNat l) (y.reg b.toNat l)

/-- vD := f d a b. -/
def int3 (d a b : Reg) (f : Word → Word → Word → Word) : Iss → Mach → Own :=
  intTo d fun y l => f (y.reg d.toNat l) (y.reg a.toNat l) (y.reg b.toNat l)

/-- The shifts by a count of 0 to 255 (spec 07 R118). -/
def shlW (a : Word) (n : Nat) : Word := if n < 32 then a <<< n else 0

/-- Logical right shift (spec 07 R118). -/
def shrW (a : Word) (n : Nat) : Word := if n < 32 then a >>> n else 0

/-- Arithmetic right shift (spec 07 R118). -/
def sarW (a : Word) (n : Nat) : Word := if n < 32 then a.sshiftRight n else if a.toInt < 0 then 0xFFFFFFFF else 0

/-- Left rotation (spec 07 R118). -/
def rolW (a : Word) (n : Nat) : Word := a.rotateLeft (n % 32)

/-- The shift count of b: its low byte (spec 07 R118). -/
def countOf (b : Word) : Nat := b.toNat % 256

/-- PLOP's operations (spec 07 R122). -/
def plopVal (op : PlopOp) (a b : Bool) : Bool :=
  match op with
  | .and => a && b
  | .or => a || b
  | .xor => a != b
  | .andn => a && !b
  | .orn => a || !b
  | .nand => !(a && b)
  | .nor => !(a || b)
  | .xnor => a == b

/-- The high word of a signed or unsigned product (spec 07 R117). -/
def mulHiS (a b : Word) : Word := BitVec.ofInt 32 (a.toInt * b.toInt / 2 ^ 32)

/-- The high word of the unsigned product (spec 07 R117). -/
def mulHiU (a b : Word) : Word := BitVec.ofNat 32 (a.toNat * b.toNat / 2 ^ 32)

/-- The number of leading zero bits; 32 for zero (spec 07 R117). -/
def clzW (a : Word) : Word := if a = 0 then 32 else BitVec.ofNat 32 (31 - Nat.log2 a.toNat)

/-- The number of one bits (spec 07 R117). -/
def popW (a : Word) : Word := BitVec.ofNat 32 ((List.range 32).filter fun k => a.getLsbD k).length

/-- A number from bits, the list's head least significant. -/
def ofBits (bs : List Bool) : Nat := bs.foldr (fun b acc => b.toNat + 2 * acc) 0

/-- The bits reversed (spec 07 R117). -/
def brevW (a : Word) : Word := BitVec.ofNat 32 (ofBits ((List.range 32).map fun k => a.getLsbD (31 - k)))

/-- The width of a BFX or BFI field inside the word (spec 07 R126). -/
def fieldWidth (b : Word) : Nat := min (min 32 (fld b.toNat 8 6)) (32 - fld b.toNat 0 5)

/-- BFX (spec 07 R126). -/
def bfxW (a b : Word) : Word :=
  let w := fieldWidth b
  let f := (a.toNat / 2 ^ fld b.toNat 0 5) % 2 ^ w
  if fld b.toNat 16 1 = 1 ∧ 0 < w ∧ 2 ^ (w - 1) ≤ f then BitVec.ofInt 32 ((f : Int) - 2 ^ w) else BitVec.ofNat 32 f

/-- BFI (spec 07 R126). -/
def bfiW (d a b : Word) : Word :=
  let pos := fld b.toNat 0 5
  let msk : Word := BitVec.ofNat 32 ((2 ^ fieldWidth b - 1) * 2 ^ pos)
  (d &&& ~~~msk) ||| ((a <<< pos) &&& msk)

/-- BITIL3: the Morton key of three 21-bit coordinates (spec 07 R127). -/
def morton3 (a b c : Word) : DWord :=
  BitVec.ofNat 64 (ofBits ((List.range 21).flatMap fun i => [a.getLsbD i, b.getLsbD i, c.getLsbD i]))

/-- BITIL2 (spec 07 R127). -/
def morton2 (a b : Word) : Word := BitVec.ofNat 32 (ofBits ((List.range 16).flatMap fun i => [a.getLsbD i, b.getLsbD i]))

/-- BITDI3: coordinate k of a Morton key (spec 07 R127). -/
def unmorton3 (key : DWord) (k : Nat) : Word := BitVec.ofNat 32 (ofBits ((List.range 21).map fun i => key.getLsbD (3 * i + k)))

/-- One round of RNGX (spec 07 R137). -/
def rngRound (rot : Nat) (k0 k1 : Word) (v : Word × Word × Word × Word) : Word × Word × Word × Word :=
  let (x0, x1, x2, x3) := v
  let a := x0 + x1 + k0
  let b := x2 + x3 + k1
  (a, rolW x3 rot ^^^ b, b, rolW x1 rot ^^^ a)

/-- RNGX: 128 bits of a counter and a key (spec 07 R137). -/
def rngx (x0 x1 x2 x3 k0 k1 : Word) : Word × Word × Word × Word :=
  let r := [13, 7, 19, 11, 23, 5].foldl
    (fun (st : (Word × Word × Word × Word) × Word × Word) rot =>
      (rngRound rot st.2.1 st.2.2 st.1, st.2.1 + 0x7A3D9C51, st.2.2 + 0x2B8F06E3))
    ((x0, x1, x2, x3), k0, k1)
  (r.1.1 ^^^ x0, r.1.2.1 ^^^ x1, r.1.2.2.1 ^^^ x2, r.1.2.2.2 ^^^ x3)

end Sys2Proof.Machine
end

