-- ==== Sys2Proof/Machine/Integer.lean ====
section
/-! DEFINITION. Integer, address and lane instructions, opcodes 0x00 to 0x37 and RNGX (spec 07 R115 to R129, R137). -/

namespace Sys2Proof.Machine

/-- NOP has no effect (spec 07 R116). -/
def execNop (g : Guard) (s : State) : Host.Outcome State Fault Refusal :=
  execute (.nop g) (fun _ m => .done 0 m) s

/-- MOV: vD := a (spec 07 R116). -/
def execMov (d : Reg) (a : Reg) (g : Guard) (s : State) : Host.Outcome State Fault Refusal :=
  execute (.mov d a g)
    (int1 d a id) s

/-- LDI: vD := literal (spec 07 R116). -/
def execLdi (d : Reg) (lit : BitVec 32) (g : Guard) (s : State) : Host.Outcome State Fault Refusal :=
  execute (.ldi d lit g)
    (intTo d fun _ _ => lit) s

/-- LDI with the effect of IADDI (spec 05 R80, 07 R119). -/
def execLdiIadd (d : Reg) (a : Reg) (lit : BitVec 32) (g : Guard) (s : State) : Host.Outcome State Fault Refusal :=
  execute (.ldiIadd d a lit g)
    (int1 d a (fun v => v + lit)) s

/-- LDI with the effect of ANDI (spec 05 R80, 07 R119). -/
def execLdiAnd (d : Reg) (a : Reg) (lit : BitVec 32) (g : Guard) (s : State) : Host.Outcome State Fault Refusal :=
  execute (.ldiAnd d a lit g)
    (int1 d a (fun v => v &&& lit)) s

/-- LDI with the effect of ORI (spec 05 R80, 07 R119). -/
def execLdiOr (d : Reg) (a : Reg) (lit : BitVec 32) (g : Guard) (s : State) : Host.Outcome State Fault Refusal :=
  execute (.ldiOr d a lit g)
    (int1 d a (fun v => v ||| lit)) s

/-- LDI with the effect of XORI (spec 05 R80, 07 R119). -/
def execLdiXor (d : Reg) (a : Reg) (lit : BitVec 32) (g : Guard) (s : State) : Host.Outcome State Fault Refusal :=
  execute (.ldiXor d a lit g)
    (int1 d a (fun v => v ^^^ lit)) s

/-- LDI with the effect of SHLI (spec 05 R80, 07 R119). -/
def execLdiShl (d : Reg) (a : Reg) (n : BitVec 5) (g : Guard) (s : State) : Host.Outcome State Fault Refusal :=
  execute (.ldiShl d a n g)
    (int1 d a (fun v => shlW v n.toNat)) s

/-- LDI with the effect of SHRI (spec 05 R80, 07 R119). -/
def execLdiShr (d : Reg) (a : Reg) (n : BitVec 5) (g : Guard) (s : State) : Host.Outcome State Fault Refusal :=
  execute (.ldiShr d a n g)
    (int1 d a (fun v => shrW v n.toNat)) s

/-- LDI with the effect of SARI (spec 05 R80, 07 R119). -/
def execLdiSar (d : Reg) (a : Reg) (n : BitVec 5) (g : Guard) (s : State) : Host.Outcome State Fault Refusal :=
  execute (.ldiSar d a n g)
    (int1 d a (fun v => sarW v n.toNat)) s

/-- LDI with the effect of ISETI (spec 05 R80, 07 R121). -/
def execLdiIset (cc : ICond) (pd : PReg) (a : Reg) (lit : BitVec 32) (g : Guard) (s : State) : Host.Outcome State Fault Refusal :=
  execute (.ldiIset cc pd a lit g)
    (predTo 2 pd fun y l => icond cc (y.reg a.toNat l) lit) s

/-- IADD: vD := a + b (spec 07 R117). -/
def execIadd (d : Reg) (a : Reg) (b : Reg) (g : Guard) (s : State) : Host.Outcome State Fault Refusal :=
  execute (.iadd d a b g)
    (int2 d a b (fun a b => a + b)) s

/-- ISUB: vD := a - b (spec 07 R117). -/
def execIsub (d : Reg) (a : Reg) (b : Reg) (g : Guard) (s : State) : Host.Outcome State Fault Refusal :=
  execute (.isub d a b g)
    (int2 d a b (fun a b => a - b)) s

/-- IMUL: vD := the low word of a × b (spec 07 R117). -/
def execImul (d : Reg) (a : Reg) (b : Reg) (g : Guard) (s : State) : Host.Outcome State Fault Refusal :=
  execute (.imul d a b g)
    (int2 d a b (fun a b => a * b)) s

/-- IMULHS: vD := the high word of the signed product (spec 07 R117). -/
def execImulhs (d : Reg) (a : Reg) (b : Reg) (g : Guard) (s : State) : Host.Outcome State Fault Refusal :=
  execute (.imulhs d a b g)
    (int2 d a b (mulHiS)) s

/-- IMULHZ: vD := the high word of the unsigned product (spec 07 R117). -/
def execImulhz (d : Reg) (a : Reg) (b : Reg) (g : Guard) (s : State) : Host.Outcome State Fault Refusal :=
  execute (.imulhz d a b g)
    (int2 d a b (mulHiU)) s

/-- IMAD: vD := d + the low word of a × b (spec 07 R117). -/
def execImad (d : Reg) (a : Reg) (b : Reg) (g : Guard) (s : State) : Host.Outcome State Fault Refusal :=
  execute (.imad d a b g)
    (int3 d a b (fun d a b => d + a * b)) s

/-- INEG: vD := 0 - a (spec 07 R117). -/
def execIneg (d : Reg) (a : Reg) (g : Guard) (s : State) : Host.Outcome State Fault Refusal :=
  execute (.ineg d a g)
    (int1 d a (fun a => 0 - a)) s

/-- IABS: the absolute value, the lowest number unchanged (spec 07 R117). -/
def execIabs (d : Reg) (a : Reg) (g : Guard) (s : State) : Host.Outcome State Fault Refusal :=
  execute (.iabs d a g)
    (int1 d a (fun a => if a.toInt < 0 then 0 - a else a)) s

/-- IMIN: the signed minimum (spec 07 R117). -/
def execImin (d : Reg) (a : Reg) (b : Reg) (g : Guard) (s : State) : Host.Outcome State Fault Refusal :=
  execute (.imin d a b g)
    (int2 d a b (fun a b => if a.toInt ≤ b.toInt then a else b)) s

/-- IMAX: the signed maximum (spec 07 R117). -/
def execImax (d : Reg) (a : Reg) (b : Reg) (g : Guard) (s : State) : Host.Outcome State Fault Refusal :=
  execute (.imax d a b g)
    (int2 d a b (fun a b => if a.toInt ≤ b.toInt then b else a)) s

/-- IMINZ: the unsigned minimum (spec 07 R117). -/
def execIminz (d : Reg) (a : Reg) (b : Reg) (g : Guard) (s : State) : Host.Outcome State Fault Refusal :=
  execute (.iminz d a b g)
    (int2 d a b (fun a b => if a.toNat ≤ b.toNat then a else b)) s

/-- IMAXZ: the unsigned maximum (spec 07 R117). -/
def execImaxz (d : Reg) (a : Reg) (b : Reg) (g : Guard) (s : State) : Host.Outcome State Fault Refusal :=
  execute (.imaxz d a b g)
    (int2 d a b (fun a b => if a.toNat ≤ b.toNat then b else a)) s

/-- AND: a and b (spec 07 R117). -/
def execAnd (d : Reg) (a : Reg) (b : Reg) (g : Guard) (s : State) : Host.Outcome State Fault Refusal :=
  execute (.and_ d a b g)
    (int2 d a b (fun a b => a &&& b)) s

/-- OR: a or b (spec 07 R117). -/
def execOr (d : Reg) (a : Reg) (b : Reg) (g : Guard) (s : State) : Host.Outcome State Fault Refusal :=
  execute (.or_ d a b g)
    (int2 d a b (fun a b => a ||| b)) s

/-- XOR: a xor b (spec 07 R117). -/
def execXor (d : Reg) (a : Reg) (b : Reg) (g : Guard) (s : State) : Host.Outcome State Fault Refusal :=
  execute (.xor_ d a b g)
    (int2 d a b (fun a b => a ^^^ b)) s

/-- ANDN: a and not b (spec 07 R117). -/
def execAndn (d : Reg) (a : Reg) (b : Reg) (g : Guard) (s : State) : Host.Outcome State Fault Refusal :=
  execute (.andn d a b g)
    (int2 d a b (fun a b => a &&& ~~~b)) s

/-- NOT: vD := not a (spec 07 R117). -/
def execNot (d : Reg) (a : Reg) (g : Guard) (s : State) : Host.Outcome State Fault Refusal :=
  execute (.not_ d a g)
    (int1 d a (fun a => ~~~a)) s

/-- SHL by b[7:0] (spec 07 R118). -/
def execShl (d : Reg) (a : Reg) (b : Reg) (g : Guard) (s : State) : Host.Outcome State Fault Refusal :=
  execute (.shl d a b g)
    (int2 d a b (fun a b => shlW a (countOf b))) s

/-- SHR by b[7:0] (spec 07 R118). -/
def execShr (d : Reg) (a : Reg) (b : Reg) (g : Guard) (s : State) : Host.Outcome State Fault Refusal :=
  execute (.shr d a b g)
    (int2 d a b (fun a b => shrW a (countOf b))) s

/-- SAR by b[7:0] (spec 07 R118). -/
def execSar (d : Reg) (a : Reg) (b : Reg) (g : Guard) (s : State) : Host.Outcome State Fault Refusal :=
  execute (.sar d a b g)
    (int2 d a b (fun a b => sarW a (countOf b))) s

/-- ROL by b[7:0] (spec 07 R118). -/
def execRol (d : Reg) (a : Reg) (b : Reg) (g : Guard) (s : State) : Host.Outcome State Fault Refusal :=
  execute (.rol d a b g)
    (int2 d a b (fun a b => rolW a (countOf b))) s

/-- CLZ: leading zeros (spec 07 R117). -/
def execClz (d : Reg) (a : Reg) (g : Guard) (s : State) : Host.Outcome State Fault Refusal :=
  execute (.clz d a g)
    (int1 d a clzW) s

/-- POPC: one bits (spec 07 R117). -/
def execPopc (d : Reg) (a : Reg) (g : Guard) (s : State) : Host.Outcome State Fault Refusal :=
  execute (.popc d a g)
    (int1 d a popW) s

/-- BREV: bits reversed (spec 07 R117). -/
def execBrev (d : Reg) (a : Reg) (g : Guard) (s : State) : Host.Outcome State Fault Refusal :=
  execute (.brev d a g)
    (int1 d a brevW) s

/-- BITIL3 (spec 07 R127). -/
def execBitil3 (d : Reg) (a : Reg) (g : Guard) (s : State) : Host.Outcome State Fault Refusal :=
  execute (.bitil3 d a g)
    (intTo64 d fun y l => morton3 (y.reg a.toNat l) (y.reg (a.toNat + 1) l) (y.reg (a.toNat + 2) l)) s

/-- BITIL2 (spec 07 R127). -/
def execBitil2 (d : Reg) (a : Reg) (b : Reg) (g : Guard) (s : State) : Host.Outcome State Fault Refusal :=
  execute (.bitil2 d a b g)
    (int2 d a b morton2) s

/-- BITDI3 (spec 07 R127). -/
def execBitdi3 (d : Reg) (a : Reg) (k : BitVec 2) (g : Guard) (s : State) : Host.Outcome State Fault Refusal :=
  execute (.bitdi3 d a k g)
    (intTo d fun y l => unmorton3 (y.pair a.toNat l) k.toNat) s

/-- BFX (spec 07 R126). -/
def execBfx (d : Reg) (a : Reg) (b : Reg) (g : Guard) (s : State) : Host.Outcome State Fault Refusal :=
  execute (.bfx d a b g)
    (int2 d a b bfxW) s

/-- BFI (spec 07 R126). -/
def execBfi (d : Reg) (a : Reg) (b : Reg) (g : Guard) (s : State) : Host.Outcome State Fault Refusal :=
  execute (.bfi d a b g)
    (int3 d a b bfiW) s

/-- ISET: pD := condition(a, b) (spec 07 R121). -/
def execIset (cc : ICond) (pd : PReg) (a : Reg) (b : Reg) (g : Guard) (s : State) : Host.Outcome State Fault Refusal :=
  execute (.iset cc pd a b g)
    (predTo 2 pd fun y l => icond cc (y.reg a.toNat l) (y.reg b.toNat l)) s

/-- PLOP (spec 07 R122). -/
def execPlop (op : PlopOp) (pd : PReg) (pa : BitVec 3) (pb : BitVec 3) (g : Guard) (s : State) : Host.Outcome State Fault Refusal :=
  execute (.plop op pd pa pb g)
    (predTo 2 pd fun y l => plopVal op (y.pred pa.toNat l) (y.pred pb.toNat l)) s

/-- SEL: vD := a where d is not zero, else b (spec 07 R123). -/
def execSel (d : Reg) (a : Reg) (b : Reg) (g : Guard) (s : State) : Host.Outcome State Fault Refusal :=
  execute (.sel d a b g)
    (int3 d a b (fun d a b => if d ≠ 0 then a else b)) s

/-- IADDI: a + i (spec 07 R119). -/
def execIaddi (d : Reg) (a : Reg) (imm : BitVec 10) (st : BitVec 2) (s : State) : Host.Outcome State Fault Refusal :=
  execute (.iaddi d a imm st)
    (int1 d a (fun v => v + immWord imm)) s

/-- ANDI: a and i (spec 07 R119). -/
def execAndi (d : Reg) (a : Reg) (imm : BitVec 10) (st : BitVec 2) (s : State) : Host.Outcome State Fault Refusal :=
  execute (.andi d a imm st)
    (int1 d a (fun v => v &&& immWord imm)) s

/-- ORI: a or i (spec 07 R119). -/
def execOri (d : Reg) (a : Reg) (imm : BitVec 10) (st : BitVec 2) (s : State) : Host.Outcome State Fault Refusal :=
  execute (.ori d a imm st)
    (int1 d a (fun v => v ||| immWord imm)) s

/-- XORI: a xor i (spec 07 R119). -/
def execXori (d : Reg) (a : Reg) (imm : BitVec 10) (st : BitVec 2) (s : State) : Host.Outcome State Fault Refusal :=
  execute (.xori d a imm st)
    (int1 d a (fun v => v ^^^ immWord imm)) s

/-- SHLI: a << n (spec 07 R119). -/
def execShli (d : Reg) (a : Reg) (imm : BitVec 10) (st : BitVec 2) (s : State) : Host.Outcome State Fault Refusal :=
  execute (.shli d a imm st)
    (int1 d a (fun v => shlW v imm.toNat)) s

/-- SHRI: a >> n, zeros in (spec 07 R119). -/
def execShri (d : Reg) (a : Reg) (imm : BitVec 10) (st : BitVec 2) (s : State) : Host.Outcome State Fault Refusal :=
  execute (.shri d a imm st)
    (int1 d a (fun v => shrW v imm.toNat)) s

/-- SARI: a >> n, signs in (spec 07 R119). -/
def execSari (d : Reg) (a : Reg) (imm : BitVec 10) (st : BitVec 2) (s : State) : Host.Outcome State Fault Refusal :=
  execute (.sari d a imm st)
    (int1 d a (fun v => sarW v imm.toNat)) s

/-- ISETI: pD := condition(a, i) (spec 07 R121). -/
def execIseti (cc : ICond) (pd : PReg) (a : Reg) (imm : BitVec 10) (st : BitVec 2) (s : State) : Host.Outcome State Fault Refusal :=
  execute (.iseti cc pd a imm st)
    (predTo 2 pd fun y l => icond cc (y.reg a.toNat l) (immWord imm)) s

/-- IADDC: the 33-bit sum a + b + p6, its top bit to p6 (spec 07 R124). -/
def execIaddc (d : Reg) (a : Reg) (b : Reg) (g : Guard) (s : State) : Host.Outcome State Fault Refusal :=
  execute (.iaddc d a b g)
    (fixedLanes 2 fun y l =>
      let t := (y.reg a.toNat l).toNat + (y.reg b.toNat l).toNat + (y.pred 6 l).toNat
      [.reg d.toNat l (BitVec.ofNat 32 t), .pred 6 l (decide (2 ^ 32 ≤ t))]) s

/-- ADD64: a + b on pairs (spec 07 R125). -/
def execAdd64 (d : Reg) (a : Reg) (b : Reg) (g : Guard) (s : State) : Host.Outcome State Fault Refusal :=
  execute (.add64 d a b g)
    (intTo64 d fun y l => y.pair a.toNat l + y.pair b.toNat l) s

/-- SUB64: a - b on pairs (spec 07 R125). -/
def execSub64 (d : Reg) (a : Reg) (b : Reg) (g : Guard) (s : State) : Host.Outcome State Fault Refusal :=
  execute (.sub64 d a b g)
    (intTo64 d fun y l => y.pair a.toNat l - y.pair b.toNat l) s

/-- ADDW64: a + sext(b) on pairs (spec 07 R125). -/
def execAddw64 (d : Reg) (a : Reg) (b : Reg) (g : Guard) (s : State) : Host.Outcome State Fault Refusal :=
  execute (.addw64 d a b g)
    (intTo64 d fun y l => y.pair a.toNat l + (y.reg b.toNat l).signExtend 64) s

/-- SHL64: a << n, 0 for n ≥ 64 on pairs (spec 07 R125). -/
def execShl64 (d : Reg) (a : Reg) (b : Reg) (g : Guard) (s : State) : Host.Outcome State Fault Refusal :=
  execute (.shl64 d a b g)
    (intTo64 d fun y l => if countOf (y.reg b.toNat l) < 64 then y.pair a.toNat l <<< countOf (y.reg b.toNat l) else 0) s

/-- SHRL64: a >> n, 0 for n ≥ 64 on pairs (spec 07 R125). -/
def execShrl64 (d : Reg) (a : Reg) (b : Reg) (g : Guard) (s : State) : Host.Outcome State Fault Refusal :=
  execute (.shrl64 d a b g)
    (intTo64 d fun y l => if countOf (y.reg b.toNat l) < 64 then y.pair a.toNat l >>> countOf (y.reg b.toNat l) else 0) s

/-- ISET64: the condition on pairs (spec 07 R121). -/
def execIset64 (cc : ICond) (pd : PReg) (a : Reg) (b : Reg) (g : Guard) (s : State) : Host.Outcome State Fault Refusal :=
  execute (.iset64 cc pd a b g)
    (predTo 2 pd fun y l => icond cc (y.pair a.toNat l) (y.pair b.toNat l)) s

/-- SHFL: vA of lane b[4:0] (spec 07 R128). -/
def execShfl (d : Reg) (a : Reg) (b : Reg) (g : Guard) (s : State) : Host.Outcome State Fault Refusal :=
  execute (.shfl d a b g)
    (intTo d fun y l => y.reg a.toNat ((y.reg b.toNat l).toNat % 32)) s

/-- SHFLX: vA of lane l xor d (spec 07 R128). -/
def execShflx (d : Reg) (a : Reg) (k : BitVec 5) (g : Guard) (s : State) : Host.Outcome State Fault Refusal :=
  execute (.shflx d a k g)
    (intTo d fun y l => y.reg a.toNat (l ^^^ k.toNat)) s

/-- SHFLUP: vA of lane l - d, or l (spec 07 R128). -/
def execShflup (d : Reg) (a : Reg) (k : BitVec 5) (g : Guard) (s : State) : Host.Outcome State Fault Refusal :=
  execute (.shflup d a k g)
    (intTo d fun y l => y.reg a.toNat (if l < k.toNat then l else l - k.toNat)) s

/-- SHFLDN: vA of lane l + d, or l (spec 07 R128). -/
def execShfldn (d : Reg) (a : Reg) (k : BitVec 5) (g : Guard) (s : State) : Host.Outcome State Fault Refusal :=
  execute (.shfldn d a k g)
    (intTo d fun y l => y.reg a.toNat (if 31 < l + k.toNat then l else l + k.toNat)) s

/-- VOTE over the lanes that take effect (spec 07 R129). -/
def execVote (mode : VoteMode) (pd : PReg) (pa : BitVec 3) (g : Guard) (s : State) : Host.Outcome State Fault Refusal :=
  execute (.vote mode pd pa g)
    (fun x m =>
      let vs := (lanesOf x.eff).map (m.grp x.w x.g |>.pred pa.toNat)
      predTo 2 pd (fun _ _ => match mode with
        | .any => vs.any id
        | .all => vs.all id
        | .uni => vs.all id || vs.all (! ·)) x m) s

/-- BALLOT: the mask of the lanes that take effect and whose pA is 1 (spec 07 R129). -/
def execBallot (d : Reg) (pa : BitVec 3) (g : Guard) (s : State) : Host.Outcome State Fault Refusal :=
  execute (.ballot d pa g)
    (fun x m =>
      let k := maskOf ((lanesOf x.eff).filter (m.grp x.w x.g |>.pred pa.toNat))
      intTo d (fun _ _ => k) x m) s

/-- RNGX (spec 07 R137). -/
def execRngx (d : Reg) (a : Reg) (b : Reg) (g : Guard) (s : State) : Host.Outcome State Fault Refusal :=
  execute (.rngx d a b g)
    (fixedLanes 2 fun y l =>
      let r := rngx (y.reg a.toNat l) (y.reg (a.toNat + 1) l) (y.reg (a.toNat + 2) l) (y.reg (a.toNat + 3) l)
        (y.reg b.toNat l) (y.reg (b.toNat + 1) l)
      [.reg d.toNat l r.1, .reg (d.toNat + 1) l r.2.1, .reg (d.toNat + 2) l r.2.2.1, .reg (d.toNat + 3) l r.2.2.2]) s

end Sys2Proof.Machine
end

