-- ==== Sys2Proof/Machine/Lane.lean ====
section
/-! DEFINITION. GRED and GSCAN: reductions and scans of a group in the canonical order (spec 07 R130 to R132). -/

namespace Sys2Proof.Machine

/-- The identity of an operation (spec 07 R130). -/
def redIdent (op : RedOp) : Nat :=
  match op with
  | .add | .or | .xor | .umax => 0
  | .and | .umin => 0xFFFFFFFF
  | .smin => 0x7FFFFFFF
  | .smax | .fadd => 0x80000000
  | .fmin => 0x7F800000
  | .fmax => 0xFF800000

/-- One combining step; floating-point steps round to nearest even and raise conditions (spec 07 R130, R131). -/
def redOp (op : RedOp) (a b : Nat) : FRes :=
  let x : Word := BitVec.ofNat 32 a
  let y : Word := BitVec.ofNat 32 b
  match op with
  | .add => ⟨(x + y).toNat, 0⟩
  | .and => ⟨(x &&& y).toNat, 0⟩
  | .or => ⟨(x ||| y).toNat, 0⟩
  | .xor => ⟨(x ^^^ y).toNat, 0⟩
  | .smin => ⟨if x.toInt ≤ y.toInt then a else b, 0⟩
  | .smax => ⟨if x.toInt ≤ y.toInt then b else a, 0⟩
  | .umin => ⟨min a b, 0⟩
  | .umax => ⟨max a b, 0⟩
  | .fadd => fp32.add .rne a b
  | .fmin => fp32.minMax false a b
  | .fmax => fp32.minMax true a b

/-- The canonical reduction of a list of at most 2^fuel values: split at the largest power of two strictly below the length, left operand first;
the flags of every step together (spec 07 R131). -/
def redList (op : RedOp) : Nat → List Nat → FRes
  | _, [] => ⟨redIdent op, 0⟩
  | _, [v] => ⟨v, 0⟩
  | 0, v :: _ => ⟨v, 0⟩
  | fuel + 1, vs =>
    let k := 2 ^ Nat.log2 (vs.length - 1)
    let l := redList op fuel (vs.take k)
    let r := redList op fuel (vs.drop k)
    let c := redOp op l.val r.val
    ⟨c.val, l.flags ||| r.flags ||| c.flags⟩

/-- The lanes' inputs: a lane in which the instruction does not take effect contributes the identity (spec 07 R131). -/
def redInputs (op : RedOp) (y : Group) (a : Reg) (eff : Mask) : List Nat :=
  (List.range 32).map fun l => if eff.getLsbD l then (y.reg a.toNat l).toNat else redIdent op

/-- The operations that update flags (spec 07 R131). -/
def redFp (op : RedOp) : Bool :=
  match op with
  | .fadd | .fmin | .fmax => true
  | _ => false

/-- GRED (spec 07 R131). -/
def execGred (d a : Reg) (op : RedOp) (g : Guard) (s : State) : Host.Outcome State Fault Refusal :=
  execute (.gred d a op g) (fun x m =>
    let r := redList op 6 (redInputs op (m.grp x.w x.g) a x.eff)
    fpDeliver 2 (redFp op) x ((lanesOf x.eff).map fun l => ⟨l, [.reg d.toNat l (BitVec.ofNat 32 r.val)], r.flags⟩) m) s

/-- GSCAN: lane l receives the reduction of its own prefix, inclusive or exclusive (spec 07 R132). -/
def execGscan (d a : Reg) (ex : Bool) (op : RedOp) (g : Guard) (s : State) : Host.Outcome State Fault Refusal :=
  execute (.gscan d a ex op g) (fun x m =>
    let vs := redInputs op (m.grp x.w x.g) a x.eff
    fpDeliver 2 (redFp op) x ((lanesOf x.eff).map fun l =>
      let r := redList op 6 (vs.take (if ex then l else l + 1))
      ⟨l, [.reg d.toNat l (BitVec.ofNat 32 r.val)], r.flags⟩) m) s

end Sys2Proof.Machine
end

