-- ==== Sys2Proof/Machine/Dispatch.lean ====
section
/-! DEFINITION. The dispatch: one arm per constructor of `Instr`. -/

namespace Sys2Proof.Machine

/-- The meaning of an instruction or of a step of the table. -/
def exec (i : Instr) (s : State) : Host.Outcome State Fault Refusal :=
  match i with
  | .nop g => Sys2Proof.Machine.execNop g s
  | .mov d a g => Sys2Proof.Machine.execMov d a g s
  | .ldi d lit g => Sys2Proof.Machine.execLdi d lit g s
  | .ldiIadd d a lit g => Sys2Proof.Machine.execLdiIadd d a lit g s
  | .ldiAnd d a lit g => Sys2Proof.Machine.execLdiAnd d a lit g s
  | .ldiOr d a lit g => Sys2Proof.Machine.execLdiOr d a lit g s
  | .ldiXor d a lit g => Sys2Proof.Machine.execLdiXor d a lit g s
  | .ldiShl d a n g => Sys2Proof.Machine.execLdiShl d a n g s
  | .ldiShr d a n g => Sys2Proof.Machine.execLdiShr d a n g s
  | .ldiSar d a n g => Sys2Proof.Machine.execLdiSar d a n g s
  | .ldiIset cc pd a lit g => Sys2Proof.Machine.execLdiIset cc pd a lit g s
  | .iadd d a b g => Sys2Proof.Machine.execIadd d a b g s
  | .isub d a b g => Sys2Proof.Machine.execIsub d a b g s
  | .imul d a b g => Sys2Proof.Machine.execImul d a b g s
  | .imulhs d a b g => Sys2Proof.Machine.execImulhs d a b g s
  | .imulhz d a b g => Sys2Proof.Machine.execImulhz d a b g s
  | .imad d a b g => Sys2Proof.Machine.execImad d a b g s
  | .ineg d a g => Sys2Proof.Machine.execIneg d a g s
  | .iabs d a g => Sys2Proof.Machine.execIabs d a g s
  | .imin d a b g => Sys2Proof.Machine.execImin d a b g s
  | .imax d a b g => Sys2Proof.Machine.execImax d a b g s
  | .iminz d a b g => Sys2Proof.Machine.execIminz d a b g s
  | .imaxz d a b g => Sys2Proof.Machine.execImaxz d a b g s
  | .and_ d a b g => Sys2Proof.Machine.execAnd d a b g s
  | .or_ d a b g => Sys2Proof.Machine.execOr d a b g s
  | .xor_ d a b g => Sys2Proof.Machine.execXor d a b g s
  | .andn d a b g => Sys2Proof.Machine.execAndn d a b g s
  | .not_ d a g => Sys2Proof.Machine.execNot d a g s
  | .shl d a b g => Sys2Proof.Machine.execShl d a b g s
  | .shr d a b g => Sys2Proof.Machine.execShr d a b g s
  | .sar d a b g => Sys2Proof.Machine.execSar d a b g s
  | .rol d a b g => Sys2Proof.Machine.execRol d a b g s
  | .clz d a g => Sys2Proof.Machine.execClz d a g s
  | .popc d a g => Sys2Proof.Machine.execPopc d a g s
  | .brev d a g => Sys2Proof.Machine.execBrev d a g s
  | .bitil3 d a g => Sys2Proof.Machine.execBitil3 d a g s
  | .bitil2 d a b g => Sys2Proof.Machine.execBitil2 d a b g s
  | .bitdi3 d a k g => Sys2Proof.Machine.execBitdi3 d a k g s
  | .bfx d a b g => Sys2Proof.Machine.execBfx d a b g s
  | .bfi d a b g => Sys2Proof.Machine.execBfi d a b g s
  | .iset cc pd a b g => Sys2Proof.Machine.execIset cc pd a b g s
  | .plop op pd pa pb g => Sys2Proof.Machine.execPlop op pd pa pb g s
  | .sel d a b g => Sys2Proof.Machine.execSel d a b g s
  | .iaddi d a imm st => Sys2Proof.Machine.execIaddi d a imm st s
  | .andi d a imm st => Sys2Proof.Machine.execAndi d a imm st s
  | .ori d a imm st => Sys2Proof.Machine.execOri d a imm st s
  | .xori d a imm st => Sys2Proof.Machine.execXori d a imm st s
  | .shli d a imm st => Sys2Proof.Machine.execShli d a imm st s
  | .shri d a imm st => Sys2Proof.Machine.execShri d a imm st s
  | .sari d a imm st => Sys2Proof.Machine.execSari d a imm st s
  | .iseti cc pd a imm st => Sys2Proof.Machine.execIseti cc pd a imm st s
  | .iaddc d a b g => Sys2Proof.Machine.execIaddc d a b g s
  | .add64 d a b g => Sys2Proof.Machine.execAdd64 d a b g s
  | .sub64 d a b g => Sys2Proof.Machine.execSub64 d a b g s
  | .addw64 d a b g => Sys2Proof.Machine.execAddw64 d a b g s
  | .shl64 d a b g => Sys2Proof.Machine.execShl64 d a b g s
  | .shrl64 d a b g => Sys2Proof.Machine.execShrl64 d a b g s
  | .iset64 cc pd a b g => Sys2Proof.Machine.execIset64 cc pd a b g s
  | .shfl d a b g => Sys2Proof.Machine.execShfl d a b g s
  | .shflx d a k g => Sys2Proof.Machine.execShflx d a k g s
  | .shflup d a k g => Sys2Proof.Machine.execShflup d a k g s
  | .shfldn d a k g => Sys2Proof.Machine.execShfldn d a k g s
  | .vote mode pd pa g => Sys2Proof.Machine.execVote mode pd pa g s
  | .ballot d pa g => Sys2Proof.Machine.execBallot d pa g s
  | .gred d a op g => Sys2Proof.Machine.execGred d a op g s
  | .gscan d a ex op g => Sys2Proof.Machine.execGscan d a ex op g s
  | .reorder w a b st => Sys2Proof.Machine.execReorder w a b st s
  | .lser st => Sys2Proof.Machine.execLser st s
  | .lsend st => Sys2Proof.Machine.execLsend st s
  | .rngx d a b g => Sys2Proof.Machine.execRngx d a b g s
  | .fadd d a b rm g => Sys2Proof.Machine.execFadd d a b rm g s
  | .fsub d a b rm g => Sys2Proof.Machine.execFsub d a b rm g s
  | .fmul d a b rm g => Sys2Proof.Machine.execFmul d a b rm g s
  | .ffma d a b c rm g => Sys2Proof.Machine.execFfma d a b c rm g s
  | .fmin d a b g => Sys2Proof.Machine.execFmin d a b g s
  | .fmax d a b g => Sys2Proof.Machine.execFmax d a b g s
  | .fabs d a g => Sys2Proof.Machine.execFabs d a g s
  | .fneg d a g => Sys2Proof.Machine.execFneg d a g s
  | .fset cc pd a b g => Sys2Proof.Machine.execFset cc pd a b g s
  | .frcp d a g => Sys2Proof.Machine.execFrcp d a g s
  | .frsq d a g => Sys2Proof.Machine.execFrsq d a g s
  | .fsqrt d a rm g => Sys2Proof.Machine.execFsqrt d a rm g s
  | .fdiv d a b rm g => Sys2Proof.Machine.execFdiv d a b rm g s
  | .fex2 d a g => Sys2Proof.Machine.execFex2 d a g s
  | .flg2 d a g => Sys2Proof.Machine.execFlg2 d a g s
  | .fsin d a g => Sys2Proof.Machine.execFsin d a g s
  | .fcos d a g => Sys2Proof.Machine.execFcos d a g s
  | .frnd d a rm g => Sys2Proof.Machine.execFrnd d a rm g s
  | .dadd d a b rm g => Sys2Proof.Machine.execDadd d a b rm g s
  | .dsub d a b rm g => Sys2Proof.Machine.execDsub d a b rm g s
  | .dmul d a b rm g => Sys2Proof.Machine.execDmul d a b rm g s
  | .dfma d a b c rm g => Sys2Proof.Machine.execDfma d a b c rm g s
  | .dmin d a b g => Sys2Proof.Machine.execDmin d a b g s
  | .dmax d a b g => Sys2Proof.Machine.execDmax d a b g s
  | .dset cc pd a b g => Sys2Proof.Machine.execDset cc pd a b g s
  | .ddiv d a b rm g => Sys2Proof.Machine.execDdiv d a b rm g s
  | .dsqrt d a rm g => Sys2Proof.Machine.execDsqrt d a rm g s
  | .hadd2 d a b rm g => Sys2Proof.Machine.execHadd2 d a b rm g s
  | .hmul2 d a b rm g => Sys2Proof.Machine.execHmul2 d a b rm g s
  | .hfma2 d a b c rm g => Sys2Proof.Machine.execHfma2 d a b c rm g s
  | .cvtfi d a wide uns rm g => Sys2Proof.Machine.execCvtfi d a wide uns rm g s
  | .cvtif d a wide uns rm g => Sys2Proof.Machine.execCvtif d a wide uns rm g s
  | .cvtfd d a g => Sys2Proof.Machine.execCvtfd d a g s
  | .cvtdf d a rm g => Sys2Proof.Machine.execCvtdf d a rm g s
  | .cvtfh d a b rm g => Sys2Proof.Machine.execCvtfh d a b rm g s
  | .cvthf d a e g => Sys2Proof.Machine.execCvthf d a e g s
  | .narrow8 d a sat inf uns prec c g => Sys2Proof.Machine.execNarrow8 d a sat inf uns prec c g s
  | .widen8 d a inf uns prec g => Sys2Proof.Machine.execWiden8 d a inf uns prec g s
  | .scalex d a b rm g => Sys2Proof.Machine.execScalex d a b rm g s
  | .fclass d a which g => Sys2Proof.Machine.execFclass d a which g s
  | .ld8s d a ofs g => Sys2Proof.Machine.execLd8s d a ofs g s
  | .ld8z d a ofs g => Sys2Proof.Machine.execLd8z d a ofs g s
  | .ld16s d a ofs g => Sys2Proof.Machine.execLd16s d a ofs g s
  | .ld16z d a ofs g => Sys2Proof.Machine.execLd16z d a ofs g s
  | .ld32 d a ofs g => Sys2Proof.Machine.execLd32 d a ofs g s
  | .ld64 d a ofs g => Sys2Proof.Machine.execLd64 d a ofs g s
  | .ld128 d a ofs g => Sys2Proof.Machine.execLd128 d a ofs g s
  | .st8 d a ofs g => Sys2Proof.Machine.execSt8 d a ofs g s
  | .st16 d a ofs g => Sys2Proof.Machine.execSt16 d a ofs g s
  | .st32 d a ofs g => Sys2Proof.Machine.execSt32 d a ofs g s
  | .st64 d a ofs g => Sys2Proof.Machine.execSt64 d a ofs g s
  | .st128 d a ofs g => Sys2Proof.Machine.execSt128 d a ofs g s
  | .lds32 d a ofs g => Sys2Proof.Machine.execLds32 d a ofs g s
  | .lds64 d a ofs g => Sys2Proof.Machine.execLds64 d a ofs g s
  | .lds128 d a ofs g => Sys2Proof.Machine.execLds128 d a ofs g s
  | .sts32 d a ofs g => Sys2Proof.Machine.execSts32 d a ofs g s
  | .sts64 d a ofs g => Sys2Proof.Machine.execSts64 d a ofs g s
  | .sts128 d a ofs g => Sys2Proof.Machine.execSts128 d a ofs g s
  | .ldv32 d a ofs g => Sys2Proof.Machine.execLdv32 d a ofs g s
  | .ldv128 d a ofs g => Sys2Proof.Machine.execLdv128 d a ofs g s
  | .stv32 d a ofs g => Sys2Proof.Machine.execStv32 d a ofs g s
  | .stv128 d a ofs g => Sys2Proof.Machine.execStv128 d a ofs g s
  | .ldo d a ord sc sz g => Sys2Proof.Machine.execLdo d a ord sc sz g s
  | .sto d a ord sc sz g => Sys2Proof.Machine.execSto d a ord sc sz g s
  | .atom d a b ord sc cm sz op g => Sys2Proof.Machine.execAtom d a b ord sc cm sz op g s
  | .red d a ord sc cm sz op g => Sys2Proof.Machine.execRed d a ord sc cm sz op g s
  | .cas d a b ord sc sz g => Sys2Proof.Machine.execCas d a b ord sc sz g s
  | .fence ord sc g => Sys2Proof.Machine.execFence ord sc g s
  | .bind d a b e all vault kind g => Sys2Proof.Machine.execBind d a b e all vault kind g s
  | .unbind e g => Sys2Proof.Machine.execUnbind e g s
  | .acq d a try_ sc g => Sys2Proof.Machine.execAcq d a try_ sc g s
  | .rel a sc g => Sys2Proof.Machine.execRel a sc g s
  | .gbegin d off g => Sys2Proof.Machine.execGbegin d off g s
  | .gcommit g => Sys2Proof.Machine.execGcommit g s
  | .gabort code g => Sys2Proof.Machine.execGabort code g s
  | .waitw d a b sc sz g => Sys2Proof.Machine.execWaitw d a b sc sz g s
  | .pref a ofs g => Sys2Proof.Machine.execPref a ofs g s
  | .prefTlb a ofs g => Sys2Proof.Machine.execPrefTlb a ofs g s
  | .oclaim n g => Sys2Proof.Machine.execOclaim n g s
  | .orelease n g => Sys2Proof.Machine.execOrelease n g s
  | .oload n a b sp g => Sys2Proof.Machine.execOload n a b sp g s
  | .mconv n a b half sat inf uns prec code g => Sys2Proof.Machine.execMconv n a b half sat inf uns prec code g s
  | .msign k a b st => Sys2Proof.Machine.execMsign k a b st s
  | .tacq d t g => Sys2Proof.Machine.execTacq d t g s
  | .trel t g => Sys2Proof.Machine.execTrel t g s
  | .tld d a t g => Sys2Proof.Machine.execTld d a t g s
  | .tst d a t g => Sys2Proof.Machine.execTst d a t g s
  | .tzero t g => Sys2Proof.Machine.execTzero t g s
  | .tdrain t a b clr add sp g => Sys2Proof.Machine.execTdrain t a b clr add sp g s
  | .mstat d which g => Sys2Proof.Machine.execMstat d which g s
  | .cins d a b g => Sys2Proof.Machine.execCins d a b g s
  | .crem d a b g => Sys2Proof.Machine.execCrem d a b g s
  | .cmove d a b g => Sys2Proof.Machine.execCmove d a b g s
  | .copen d a b g => Sys2Proof.Machine.execCopen d a b g s
  | .cnext d a g => Sys2Proof.Machine.execCnext d a g s
  | .cclose a g => Sys2Proof.Machine.execCclose a g s
  | .ccount d which b g => Sys2Proof.Machine.execCcount d which b g s
  | .cfreeze d b g => Sys2Proof.Machine.execCfreeze d b g s
  | .cthaw d b g => Sys2Proof.Machine.execCthaw d b g s
  | .cnbr d a cnt g => Sys2Proof.Machine.execCnbr d a cnt g s
  | .cmrg d a b i32 keepz g => Sys2Proof.Machine.execCmrg d a b i32 keepz g s
  | .cinit d a eng g => Sys2Proof.Machine.execCinit d a eng g s
  | .cinitRel d a g => Sys2Proof.Machine.execCinitRel d a g s
  | .ktrav d a self g => Sys2Proof.Machine.execKtrav d a self g s
  | .ktravResume d a self g => Sys2Proof.Machine.execKtravResume d a self g s
  | .kstat d which g => Sys2Proof.Machine.execKstat d which g s
  | .bari n imm st => Sys2Proof.Machine.execBari n imm st s
  | .bara n g => Sys2Proof.Machine.execBara n g s
  | .barw n g => Sys2Proof.Machine.execBarw n g s
  | .baraw n g => Sys2Proof.Machine.execBaraw n g s
  | .phregNew d mode g => Sys2Proof.Machine.execPhregNew d mode g s
  | .phreg d a mode g => Sys2Proof.Machine.execPhreg d a mode g s
  | .phdrop a g => Sys2Proof.Machine.execPhdrop a g s
  | .phsig a g => Sys2Proof.Machine.execPhsig a g s
  | .phwait d a g => Sys2Proof.Machine.execPhwait d a g s
  | .phsw d a g => Sys2Proof.Machine.execPhsw d a g s
  | .cpy d a b sect src dst bar bi shadow use solo g => Sys2Proof.Machine.execCpy d a b sect src dst bar bi shadow use solo g s
  | .cpym d a b sect src bar bi shadow solo g => Sys2Proof.Machine.execCpym d a b sect src bar bi shadow solo g s
  | .publishDecl vault k a b g => Sys2Proof.Machine.execPublishDecl vault k a b g s
  | .publish k g => Sys2Proof.Machine.execPublish k g s
  | .publishDrop k g => Sys2Proof.Machine.execPublishDrop k g s
  | .gnodeArm d a g => Sys2Proof.Machine.execGnodeArm d a g s
  | .gnodeSig d a n g => Sys2Proof.Machine.execGnodeSig d a n g s
  | .gnodeTile a t g => Sys2Proof.Machine.execGnodeTile a t g s
  | .gnodeFree a g => Sys2Proof.Machine.execGnodeFree a g s
  | .qsend a len pd nb k g => Sys2Proof.Machine.execQsend a len pd nb k g s
  | .qrecv d a len pd nb k g => Sys2Proof.Machine.execQrecv d a len pd nb k g s
  | .bra off g => Sys2Proof.Machine.execBra off g s
  | .brx a g => Sys2Proof.Machine.execBrx a g s
  | .call off g => Sys2Proof.Machine.execCall off g s
  | .ret a g => Sys2Proof.Machine.execRet a g s
  | .exit a cnt g => Sys2Proof.Machine.execExit a cnt g s
  | .yield_ g => Sys2Proof.Machine.execYield g s
  | .yieldWg g => Sys2Proof.Machine.execYieldWg g s
  | .trap code g => Sys2Proof.Machine.execTrap code g s
  | .trapret st => Sys2Proof.Machine.execTrapret st s
  | .bkpt code g => Sys2Proof.Machine.execBkpt code g s
  | .gets d sr g => Sys2Proof.Machine.execGets d sr g s
  | .sets a sr g => Sys2Proof.Machine.execSets a sr g s
  | .setcont off en last first g => Sys2Proof.Machine.execSetcont off en last first g s
  | .btopup a b g => Sys2Proof.Machine.execBtopup a b g s
  | .xacq g => Sys2Proof.Machine.execXacq g s
  | .xrel g => Sys2Proof.Machine.execXrel g s
  | .serial st => Sys2Proof.Machine.execSerial st s
  | .serialend st => Sys2Proof.Machine.execSerialend st s
  | .ownmarkPriv d a vault g => Sys2Proof.Machine.execOwnmarkPriv d a vault g s
  | .ownmarkShared d a vault g => Sys2Proof.Machine.execOwnmarkShared d a vault g s
  | .ownmarkRegion d a e cls vault g => Sys2Proof.Machine.execOwnmarkRegion d a e cls vault g s
  | .capld d k g => Sys2Proof.Machine.execCapld d k g s
  | .tracemark a mark st => Sys2Proof.Machine.execTracemark a mark st s
  | .cctlOff st => Sys2Proof.Machine.execCctlOff st s
  | .cctlOn st => Sys2Proof.Machine.execCctlOn st s
  | .clauseFetch w g => Sys2Proof.Machine.execClauseFetch w g s
  | .issueSlotGrant core slot => Sys2Proof.Machine.execIssueSlotGrant core slot s
  | .waitPointRelease w g => Sys2Proof.Machine.execWaitPointRelease w g s
  | .resultWriteback w g => Sys2Proof.Machine.execResultWriteback w g s
  | .sfuResultLanding w g id => Sys2Proof.Machine.execSfuResultLanding w g id s
  | .loadLanding w g id => Sys2Proof.Machine.execLoadLanding w g id s
  | .storeAccepted w g id => Sys2Proof.Machine.execStoreAccepted w g id s
  | .scratchLoadLanding w g id => Sys2Proof.Machine.execScratchLoadLanding w g id s
  | .fenceComplete w g id => Sys2Proof.Machine.execFenceComplete w g id s
  | .writeCombineFlush core line => Sys2Proof.Machine.execWriteCombineFlush core line s
  | .pageWalkStart part ctx va => Sys2Proof.Machine.execPageWalkStart part ctx va s
  | .pageWalkComplete k => Sys2Proof.Machine.execPageWalkComplete k s
  | .memoryReadRetry loc pass => Sys2Proof.Machine.execMemoryReadRetry loc pass s
  | .remoteAccessTimeout w g id => Sys2Proof.Machine.execRemoteAccessTimeout w g id s
  | .xacqGrant w => Sys2Proof.Machine.execXacqGrant w s
  | .xregDeadlockDetect w g => Sys2Proof.Machine.execXregDeadlockDetect w g s
  | .reorderComplete w => Sys2Proof.Machine.execReorderComplete w s
  | .waitwReturn w g id => Sys2Proof.Machine.execWaitwReturn w g id s
  | .gcommitGrant w g lane => Sys2Proof.Machine.execGcommitGrant w g lane s
  | .copySliceStart k => Sys2Proof.Machine.execCopySliceStart k s
  | .copySector k => Sys2Proof.Machine.execCopySector k s
  | .copyComplete k => Sys2Proof.Machine.execCopyComplete k s
  | .publishSwap w g id => Sys2Proof.Machine.execPublishSwap w g id s
  | .oloadLanding w g id => Sys2Proof.Machine.execOloadLanding w g id s
  | .mconvLanding w g id => Sys2Proof.Machine.execMconvLanding w g id s
  | .msignSubmit w c => Sys2Proof.Machine.execMsignSubmit w c s
  | .passStart cluster => Sys2Proof.Machine.execPassStart cluster s
  | .passRetire cluster => Sys2Proof.Machine.execPassRetire cluster s
  | .tacqLanding w g id => Sys2Proof.Machine.execTacqLanding w g id s
  | .tldLanding w g id => Sys2Proof.Machine.execTldLanding w g id s
  | .mstatLanding w g id => Sys2Proof.Machine.execMstatLanding w g id s
  | .tdrainComplete w g id => Sys2Proof.Machine.execTdrainComplete w g id s
  | .collectionCommandExecute engine lane => Sys2Proof.Machine.execCollectionCommandExecute engine lane s
  | .cthawComplete engine lane => Sys2Proof.Machine.execCthawComplete engine lane s
  | .knightTraversal cluster => Sys2Proof.Machine.execKnightTraversal cluster s
  | .knightTraversalDone cluster => Sys2Proof.Machine.execKnightTraversalDone cluster s
  | .qsendEnqueue w g id => Sys2Proof.Machine.execQsendEnqueue w g id s
  | .qsendHostAck w g id => Sys2Proof.Machine.execQsendHostAck w g id s
  | .qrecvReceive w g id => Sys2Proof.Machine.execQrecvReceive w g id s
  | .eventBacklogDrain part => Sys2Proof.Machine.execEventBacklogDrain part s
  | .queueEntry part => Sys2Proof.Machine.execQueueEntry part s
  | .admissionDecision part => Sys2Proof.Machine.execAdmissionDecision part s
  | .admissionStop part => Sys2Proof.Machine.execAdmissionStop part s
  | .workgroupStart w => Sys2Proof.Machine.execWorkgroupStart w s
  | .workgroupRetire w => Sys2Proof.Machine.execWorkgroupRetire w s
  | .yieldTaken w => Sys2Proof.Machine.execYieldTaken w s
  | .stallPreemptTimeout w => Sys2Proof.Machine.execStallPreemptTimeout w s
  | .preemptionSave w => Sys2Proof.Machine.execPreemptionSave w s
  | .saveSpill w => Sys2Proof.Machine.execSaveSpill w s
  | .quantumStart part ctx => Sys2Proof.Machine.execQuantumStart part ctx s
  | .quantumExpiry part ctx => Sys2Proof.Machine.execQuantumExpiry part ctx s
  | .haltReport w => Sys2Proof.Machine.execHaltReport w s
  | .stepEnd w => Sys2Proof.Machine.execStepEnd w s
  | .traceRecordWrite part ctx => Sys2Proof.Machine.execTraceRecordWrite part ctx s
  | .rootLaunch part ctx block => Sys2Proof.Machine.execRootLaunch part ctx block s
  | .invalidateTranslation part ctx va size => Sys2Proof.Machine.execInvalidateTranslation part ctx va size s
  | .killLaunch part ctx block => Sys2Proof.Machine.execKillLaunch part ctx block s
  | .preemptCommand part tgt => Sys2Proof.Machine.execPreemptCommand part tgt s
  | .swapOut part ctx => Sys2Proof.Machine.execSwapOut part ctx s
  | .swapIn part ctx => Sys2Proof.Machine.execSwapIn part ctx s
  | .moveContext part ctx dest dctx => Sys2Proof.Machine.execMoveContext part ctx dest dctx s
  | .haltRequest part tgt => Sys2Proof.Machine.execHaltRequest part tgt s
  | .stepCommand w limit => Sys2Proof.Machine.execStepCommand w limit s
  | .resumeCommand w => Sys2Proof.Machine.execResumeCommand w s
  | .replayCommand part wgid stage n => Sys2Proof.Machine.execReplayCommand part wgid stage n s
  | .refillReserves part ctx i1 m => Sys2Proof.Machine.execRefillReserves part ctx i1 m s
  | .readCounters core bin => Sys2Proof.Machine.execReadCounters core bin s
  | .clearCounters core => Sys2Proof.Machine.execClearCounters core s
  | .debugStateRead w item => Sys2Proof.Machine.execDebugStateRead w item s
  | .debugStateWrite w item v => Sys2Proof.Machine.execDebugStateWrite w item v s
  | .queueTableWrite part q v => Sys2Proof.Machine.execQueueTableWrite part q v s
  | .contextDescriptorWrite part ctx desc => Sys2Proof.Machine.execContextDescriptorWrite part ctx desc s
  | .controlSpaceWrite part v => Sys2Proof.Machine.execControlSpaceWrite part v s
  | .inboxSend part msg => Sys2Proof.Machine.execInboxSend part msg s
  | .hostRmaWrite part ctx va bytes => Sys2Proof.Machine.execHostRmaWrite part ctx va bytes s
  | .attestationRequest nonce => Sys2Proof.Machine.execAttestationRequest nonce s
  | .firmwareBoot image key sig => Sys2Proof.Machine.execFirmwareBoot image key sig s
  | .deviceReset => Sys2Proof.Machine.execDeviceReset s
  | .linkTraining dom => Sys2Proof.Machine.execLinkTraining dom s
  | .planeLinkDown plane => Sys2Proof.Machine.execPlaneLinkDown plane s
  | .partitionCreate part cfg => Sys2Proof.Machine.execPartitionCreate part cfg s
  | .partitionTeardown part => Sys2Proof.Machine.execPartitionTeardown part s
  | .softError loc => Sys2Proof.Machine.execSoftError loc s
  | .hostFrameRemap loc => Sys2Proof.Machine.execHostFrameRemap loc s
  | .contextEnd part ctx => Sys2Proof.Machine.execContextEnd part ctx s
  | .remoteAccessArrival dev op => Sys2Proof.Machine.execRemoteAccessArrival dev op s
  | .remoteMessageArrival dev part ch msg => Sys2Proof.Machine.execRemoteMessageArrival dev part ch msg s
  | .accessTableGrant part grant => Sys2Proof.Machine.execAccessTableGrant part grant s
  | .idleSlotCycle core slot => Sys2Proof.Machine.execIdleSlotCycle core slot s
  | .traceRecordConsumed part ctx n => Sys2Proof.Machine.execTraceRecordConsumed part ctx n s

end Sys2Proof.Machine
end

