-- ==== Sys2Proof/Machine/Policy.lean ====
section
/-! DEFINITION. Which agent acts next when the schedule is empty (log 1): the default order, one among those the spec allows. -/

namespace Sys2Proof.Machine

/-- The instruction at the head of a run's words. -/
def nextInstr (r : Run) : Except DecodeErr Instr :=
  let w := r.rest.headD 0
  decodeWord w (if opLiteral (fOp w) then r.rest.getD 1 0 else 0)

/-- A group can issue its next word: it holds a slot, its clause is fetched, nothing holds it (spec 06 R96 to R98). -/
def canIssue (m : Mach) (w g : Nat) : Bool :=
  let y := m.grp w g
  wgActive (m.wg w) && (slotOf m w g).isSome && (match y.held with | none => true | some (.resource _) => true | some _ => false) &&
    (match y.run with
     | some r => r.fetched && !r.waiting && !r.rest.isEmpty
     | none => false)

/-- The groups that hold slots. -/
def seated (m : Mach) : List (Nat × Nat) := m.cores.flatMap fun c => c.2.slots.filterMap (·.2)

/-- The group that issues next: the first that can, from the one after the last on. -/
def nextIssuer (m : Mach) : Option (Nat × Nat) :=
  let gs := seated m
  (((gs.dropWhile fun e => decide (some e ≠ m.cur)).drop 1) ++ gs).find? fun e => canIssue m e.1 e.2

/-- The steps that may end a command. -/
def outAgents (w g id : Nat) : List (Mach → Mach) :=
  [sfuLanding w g id, fun m => settleCmds (loadLanding w g id m), fun m => settleCmds (storeAccepted w g id m), scratchLanding w g id, fenceComplete w g id,
   waitwReturn w g id, publishSwap w g id, oloadLanding w g id, mconvLanding w g id, tacqLanding w g id, tldLanding w g id, mstatLanding w g id, tdrainComplete w g id,
   qsendEnqueue w g id, qsendHostAck w g id, qrecvReceive w g id]

/-- The steps of a group: results, its clause, its wait point. -/
def groupAgents (m : Mach) (w g : Nat) : List (Mach → Mach) :=
  [fun m => m.modG w g fun y => y.landDue m.cycle, clauseFetch w g, fun m => waitPoint w g (settleCmds m), deadlockDetect w g] ++
    (m.grp w g).outs.flatMap fun o => outAgents w g o.id ++
      (match o.kind with
       | .gcommit ls => (lanesOf ls).map fun l => fun m => settleCmds (gcommitGrant w g l m)
       | _ => [])

/-- The steps of a workgroup's life. -/
def wgAgents (m : Mach) (w : Nat) : List (Mach → Mach) :=
  [workgroupStart w, reorderComplete w, fun m => if (m.wg w).status = .running then grantExt w m else m] ++ (m.wg w).groupIds.flatMap (groupAgents m w) ++
    (m.wg w).convs.map (fun c => msignSubmit w c.1) ++ [workgroupRetire w, haltReport w, stepEnd w, yieldTaken w, stallTimeout w, preemptionSave w, saveSpill w]

/-- The steps of copies and engines. -/
def engineAgents (m : Mach) : List (Mach → Mach) :=
  m.slices.map (fun e => copySector e.1) ++ m.slices.map (fun e => copySliceStart e.1) ++ m.copies.map (fun e => copyComplete e.1) ++
    m.clusters.flatMap (fun e => [passRetire e.1, passStart e.1, kDone e.1, kTraverse e.1]) ++
    m.elanes.flatMap (fun e => [thawComplete (e.1 / 16) (e.1 % 16), collExecute (e.1 / 16) (e.1 % 16)]) ++
    (((allOuts m).flatMap (collTargets m)).eraseDups).map fun k => collExecute (k / 16) (k % 16)

/-- A location whose check has failed is read again (spec 10 R190). -/
def readAgain (loc : Loc) (m : Mach) : Mach :=
  if memoryReadRetry loc true m = m then m else settleCmds (memoryReadRetry loc (Config.retryPasses m.freeCtr) m.useFree)

/-- The steps of walks and second reads. -/
def memoryAgents (m : Mach) : List (Mach → Mach) := (List.range m.walks.length).map pageWalkComplete ++ m.failing.map readAgain

/-- The steps of a partition. -/
def partAgents (p : Nat) : List (Mach → Mach) :=
  [backlogDrain p, queueEntry p, admissionDecision p, admissionStop p] ++ (List.range 16).flatMap fun c => [traceWrite p c, quantumExpiry p c, quantumStart p c]

/-- The first of several steps that changes something. -/
def firstChange (m : Mach) : List (Mach → Mach) → Option Mach
  | [] => none
  | f :: fs => if f m = m then firstChange m fs else some (f m)

/-- The default order of the agents other than an issuing group. -/
def allAgents (m : Mach) : List (Mach → Mach) :=
  m.cores.flatMap (fun c => [slotGrant c.1 0, slotGrant c.1 1]) ++ (m.parts.flatMap fun e => (partCores e.2).flatMap fun k => [slotGrant k 0, slotGrant k 1]) ++
    m.wgIds.flatMap (wgAgents m) ++ engineAgents m ++ memoryAgents m ++ m.parts.flatMap fun e => partAgents e.1

/-- What an agent other than an issuing group does next, in the default order; where nothing is to be done, a cycle passes. -/
def defaultAgent (m : Mach) : Mach := (firstChange m (allAgents m)).getD (idleCycle ((m.parts.flatMap fun e => partCores e.2).headD 0) 0 m)

/-- What the default order does next. -/
inductive Turn where
  | issue (w g : Nat)
  | act (m : Mach)
  deriving DecidableEq, Repr, Inhabited

/-- A group that can issue goes before the other agents, but for every eighth word, which waits until they have nothing to do; so every agent comes to act. -/
def nextTurn (turn : Nat) (m : Mach) : Turn :=
  match nextIssuer m with
  | none => .act (defaultAgent m)
  | some (w, g) =>
    if turn % 8 = 7 then
      match firstChange m (allAgents m) with
      | some m1 => .act m1
      | none => .issue w g
    else .issue w g

end Sys2Proof.Machine
end

