-- ==== Sys2Proof/Machine/Step.lean ====
section
/-! DEFINITION. One step of the device: the schedule's next entry, or the default choice (log 1); and the placing of one instruction before the next step. -/

namespace Sys2Proof.Machine

/-- The state with a group issuing next. -/
def State.issuing (s : State) (w g : Nat) : State := { s with m := { s.m with cur := some (w, g) } }

/-- The next word of a group's run issues: decoded, then executed; a word with a reserved field traps (spec 05 R73). -/
def issueWord (w g : Nat) (s : State) : Host.Outcome State Fault Refusal :=
  if canIssue s.m w g then
    match nextInstr ((s.m.grp w g).run.getD default) with
    | .ok i => exec i (s.issuing w g)
    | .error _ => if s.hw.running then .next { s.issuing w g with m := issueReserved w g (s.issuing w g).m } else .next s
  else .next s

/-- A choice is carried out; a choice that names an instruction of the opcode map as a step of the table is no step (log 11). -/
def takeChoice (c : Choice) (s : State) : Host.Outcome State Fault Refusal :=
  match c with
  | .issue w g => issueWord w g s
  | .event i => if instrIsEvent i then exec i s else .next s

/-- What happens next when the schedule is empty (log 1). -/
def defaultStep (s : State) : Host.Outcome State Fault Refusal :=
  match nextTurn s.turn s.m with
  | .issue w g => issueWord w g { s with turn := s.turn + 1 }
  | .act m => eventStep (fun _ => m) s

/-- Write-combining lines that have been held for 1,024 cycles are emptied before anything else happens (spec 10 R187). -/
def State.aged (s : State) : State := { s with m := flushAged s.m }

/-- One step. -/
def step (s : State) : Host.Outcome State Fault Refusal :=
  match s.schedule with
  | c :: rest => takeChoice c { s.aged with schedule := rest }
  | [] => defaultStep s.aged

/-- The words of a table row: the first, and the second where the format has a literal. -/
def rowWords (nbits w : Nat) : List Word :=
  let v := w % 2 ^ nbits
  let w0 : Word := BitVec.ofNat 32 v
  if opLiteral (fOp w0) then [w0, BitVec.ofNat 32 (v / 2 ^ 32)] else [w0]

/-- The header of a clause of these words that ends its run, of the class the first word asks for. -/
def rowHeader (ws : List Word) : Word :=
  BitVec.ofNat 32 (ws.length * 2 ^ 28 + 2 ^ 27 + opClass (fOp (ws.headD 0)) * 2 ^ 24 + 0xA)

/-- A workgroup of one group, all its lanes in a run whose clause holds the words, budgets never charged (log 3). -/
def rowWg (ws : List Word) : Wg :=
  { (default : Wg) with
    status := .running
    ngroups := 1
    tempi := unbounded
    tempm := unbounded
    groups := [(0, { (default : Group) with
      slot := 1
      live := 0xFFFFFFFF
      run := some { lanes := 0xFFFFFFFF, hdrAddr := 0x10000, hdr := rowHeader ws, pc := 0x10004, rest := ws, count := ws.length, fetched := true,
                    waiting := false, moves := [], started := 0, born := 0, noMatch := true, goes := false } })] }

/-- The state with an instruction standing where the next step takes its word: a program is loaded from outside (log 3), so the device runs firmware, a
workgroup's group holds issue slot 0 of core 0, and its fetched clause holds the instruction. -/
def State.withFetchWord (s : State) (nbits w : Nat) : State :=
  { s with
    hw := { s.hw with running := true }
    schedule := [.issue 0 0]
    m := { s.m with
      cur := some (0, 0)
      wgs := Store.put s.m.wgs 0 (rowWg (rowWords nbits w))
      nextWg := max s.m.nextWg 1
      cores := Store.upd default s.m.cores 0 fun c => { c with slots := Store.put c.slots 0 (some (0, 0)) } } }

end Sys2Proof.Machine
end

