-- ==== Sys2Proof/Safety.lean ====
section
/-! DEFINITION. What counts as a safe run, and the words in which the claims speak: when an instruction may issue, what it reads, what it leaves unchanged. -/

namespace Sys2Proof

open Machine

/-- The step of a state answers a next state. -/
def Machine.State.goesOn (s : State) : Bool :=
  match step s with
  | .next _ => true
  | .fault _ => false
  | .refused _ => false

/-- The state after `n` steps, none where one of them ends. -/
def Machine.State.after (s : State) : Nat → Option State
  | 0 => some s
  | n + 1 =>
    match step s with
    | .next t => Machine.State.after t n
    | .fault _ => none
    | .refused _ => none

/-- A run of any length goes on. -/
def Machine.State.safe (s : State) : Prop := ∀ n, (s.after n).isSome = true

/-! ## Issuing -/

/-- Group `g` of workgroup `w` may perform instruction `i` next: the device runs, the group issues, no check of R73 finds anything, and the count of
the instruction's class leaves room. -/
structure Says.Ready (i : Instr) (w g : Nat) (s : State) : Prop where
  running : s.hw.running = true
  cur : s.m.cur = some (w, g)
  checks : issueCheck i w g (settle w g s.m) = none
  room : classFull i ((settle w g s.m).grp w g) = false

/-- The group as the instruction reads it: results that are due have landed. -/
def Says.reads (w g : Nat) (s : State) : Group := (settle w g s.m).grp w g

/-- The lanes in which the instruction takes effect. -/
def Says.eff (i : Instr) (w g : Nat) (s : State) : Mask := (mkIss i w g (settle w g s.m)).eff

/-- The lanes that are active. -/
def Says.act (i : Instr) (w g : Nat) (s : State) : Mask := (mkIss i w g (settle w g s.m)).act

/-- The address of the word that issues. -/
def Says.pc (i : Instr) (w g : Nat) (s : State) : DWord := (mkIss i w g (settle w g s.m)).pc

/-- The machine in which the instruction's own part happens: the issue counted, its pipe entered, its tempo charged. -/
def Says.begun (i : Instr) (w g : Nat) (s : State) : Mach :=
  charge w g (instrTempi i) 0 (enterPipe i w (countIssue (mkIss i w g (settle w g s.m)) (settle w g s.m)))

/-- The state after an issue whose own part ends with machine `m`, having moved `k` sectors. -/
def Says.issued (i : Instr) (w g k : Nat) (m : Mach) (s : State) : State :=
  let x := mkIss i w g (settle w g s.m)
  { s with m := finishIssue i x k (followTags i w g x.eff (Says.reads w g s) m) }

/-! ## What results come to -/

/-- Register `r` of lane `l` once the results that are pending have landed. -/
def Says.reg (w g : Nat) (s : State) (r l : Nat) : Word := (s.m.grp w g).landEvery.reg r l

/-- Predicate `p` of lane `l` once the results that are pending have landed. -/
def Says.pred (w g : Nat) (s : State) (p l : Nat) : Bool := (s.m.grp w g).landEvery.pred p l

/-- %fpflags of lane `l` once the results that are pending have landed. -/
def Says.flags (w g : Nat) (s : State) (l : Nat) : Word := Store.get 0 (s.m.grp w g).landEvery.fpflags l

/-! ## What an issue leaves unchanged -/

/-- A machine without what an issue may change: workgroups, cores, the clock, the tags of open regions, the number of the next command. -/
def Says.restM (m : Mach) : Mach := { m with wgs := [], cores := [], cycle := 0, regions := [], nextCmd := 0 }

/-- An open region without its symbolic tags. -/
def Says.restR (q : Region) : Region := { q with tags := [], constrs := [], plain := false }

/-- A workgroup without its groups, the budgets with what they request, and a debugger's step count. -/
def Says.restW (x : Wg) : Wg :=
  { x with groups := [], tempi := 0, tempm := 0, yieldPending := false, yieldWg := false, preempt := none, askedAt := 0, stepLeft := none, stepEvent := none }

/-- A group without its registers, predicates and flags, the results that are pending, the outstanding commands, and where it stands. -/
def Says.restG (y : Group) : Group :=
  { y with regs := [], preds := [], fpflags := [], pend := [], outs := [], run := none, frontier := [], ready := 0, held := none, gaveUp := 0 }

/-- A core without its slots and when they issued, its pipes and the lane-cycle record. -/
def Says.restC (c : Core) : Core := { c with slots := [], issued := [], pipes := [], bins := [], totals := default }

/-- THE FRAME of an issue of group `g` of workgroup `w`: memories, other workgroups, other groups, other cores, launches, partitions, engines and what
waits in them are as before; of the workgroup, the group and the core only what every issue changes is not. -/
structure Says.KeptM (w g : Nat) (m n : Mach) : Prop where
  rest : Says.restM n = Says.restM m
  regions : n.regions.map Says.restR = m.regions.map Says.restR
  wgs : ∀ v, v ≠ w → n.wg v = m.wg v
  wg : Says.restW (n.wg w) = Says.restW (m.wg w)
  grps : ∀ h, h ≠ g → n.grp w h = m.grp w h
  grp : Says.restG (n.grp w g) = Says.restG (m.grp w g)
  cores : ∀ c, c ≠ (m.wg w).core → n.core c = m.core c
  core : Says.restC (n.core (m.wg w).core) = Says.restC (m.core (m.wg w).core)

/-- The frame of a step of the running device. -/
structure Says.KeptS (w g : Nat) (s t : State) : Prop where
  hw : t.hw = s.hw
  schedule : t.schedule = s.schedule
  turn : t.turn = s.turn
  mach : Says.KeptM w g s.m t.m

/-- The frame of an issue that hands on no command. -/
structure Says.Kept (w g : Nat) (s t : State) : Prop where
  step : Says.KeptS w g s t
  outs : (t.m.grp w g).outs = (s.m.grp w g).outs
  nextCmd : t.m.nextCmd = s.m.nextCmd

/-- Registers, predicates and flags of the group come to what they came to before. -/
structure Says.SameRegs (w g : Nat) (s t : State) : Prop where
  regs : ∀ r l, Says.reg w g t r l = Says.reg w g s r l
  preds : ∀ p l, Says.pred w g t p l = Says.pred w g s p l
  flags : ∀ l, Says.flags w g t l = Says.flags w g s l

/-! ## Forms of results -/

/-- The instruction, where a group may perform it and `ok` holds of the lanes that take effect and of the group as read, answers a next state in which
those lanes' registers, predicates and flags come to the values given (a register or predicate without a value, and every other lane, keeps its own), with
the frame of an issue. -/
def Says.Gives (i : Instr) (ok : Mask → Group → Prop) (regs : Mask → Group → Nat → Nat → Option Word) (preds : Mask → Group → Nat → Nat → Option Bool)
    (fl : Mask → Group → Nat → Word) : Prop :=
  ∀ w g s, Says.Ready i w g s → ok (Says.eff i w g s) (Says.reads w g s) →
    ∃ t, exec i s = .next t ∧ Says.Kept w g s t ∧ ∀ l, l < 32 →
      (∀ r, Says.reg w g t r l =
        if (Says.eff i w g s).getLsbD l then (regs (Says.eff i w g s) (Says.reads w g s) l r).getD (Says.reg w g s r l) else Says.reg w g s r l) ∧
      (∀ p, Says.pred w g t p l =
        if (Says.eff i w g s).getLsbD l ∧ p ≠ 7 then (preds (Says.eff i w g s) (Says.reads w g s) l p).getD (Says.pred w g s p l)
        else Says.pred w g s p l) ∧
      Says.flags w g t l =
        if (Says.eff i w g s).getLsbD l then Says.flags w g s l ||| fl (Says.eff i w g s) (Says.reads w g s) l else Says.flags w g s l

/-- Register `d` comes to `f`, and nothing else changes. -/
def Says.Reg1 (i : Instr) (d : Reg) (f : Group → Nat → Word) : Prop :=
  Says.Gives i (fun _ _ => True) (fun _ y l r => if r = d.toNat then some (f y l) else none) (fun _ _ _ _ => none) (fun _ _ _ => 0)

/-- The pair at `d` comes to `f`: the low word in `d`. -/
def Says.Reg2 (i : Instr) (d : Reg) (f : Group → Nat → DWord) : Prop :=
  Says.Gives i (fun _ _ => True)
    (fun _ y l r => if r = d.toNat + 1 then some (BitVec.ofNat 32 ((f y l).toNat / 2 ^ 32)) else if r = d.toNat then some (BitVec.ofNat 32 (f y l).toNat) else none)
    (fun _ _ _ _ => none) (fun _ _ _ => 0)

/-- Predicate `pd` comes to `f`, and nothing else changes; pt holds. -/
def Says.Pred1 (i : Instr) (pd : PReg) (f : Group → Nat → Bool) : Prop :=
  Says.Gives i (fun _ _ => True) (fun _ _ _ _ => none) (fun _ y l p => if p = pd.toNat then some (f y l) else none) (fun _ _ _ => 0)

/-- No lane of the mask raises a condition whose trap is enabled in it. -/
def Says.Quiet (e : Mask) (y : Group) (f : Group → Nat → FRes) : Prop := ∀ l ∈ lanesOf e, (f y l).flags &&& fld (y.mode l) 4 5 = 0

/-- Register `d` comes to the value of `f` and the flags of `f` are raised, where no lane raises a condition whose trap is enabled. -/
def Says.Fp1 (i : Instr) (d : Reg) (f : Group → Nat → FRes) : Prop :=
  Says.Gives i (fun e y => Says.Quiet e y f) (fun _ y l r => if r = d.toNat then some (BitVec.ofNat 32 (f y l).val) else none) (fun _ _ _ _ => none)
    (fun _ y l => BitVec.ofNat 32 (f y l).flags)

/-- The pair at `d` comes to the value of `f` and the flags of `f` are raised, where no lane raises a condition whose trap is enabled. -/
def Says.Fp2 (i : Instr) (d : Reg) (f : Group → Nat → FRes) : Prop :=
  Says.Gives i (fun e y => Says.Quiet e y f)
    (fun _ y l r => if r = d.toNat + 1 then some (BitVec.ofNat 32 ((f y l).val / 2 ^ 32)) else if r = d.toNat then some (BitVec.ofNat 32 (f y l).val) else none)
    (fun _ _ _ _ => none) (fun _ y l => BitVec.ofNat 32 (f y l).flags)

/-- The command a group hands on at an issue: its number, class, issue record, what it is to do, the registers and predicates it will write, whether it
waits for a turn, the cycle after which its results land, and the interval of a lane-serialised body. -/
def Says.command (i : Instr) (w g cls : Nat) (k : OutKind) (sh : Bool) (s : State) : Out :=
  ⟨s.m.nextCmd, cls, (mkIss i w g (settle w g s.m)).rec_, k, none, regWrites i, predWrites i, sh, (Says.reads w g s).lastDue,
    serialInterval (Says.reads w g s)⟩

/-- The instruction, where a group may perform it and `ok` holds, answers a next state in which one command of the class and of the kind given is
outstanding besides those before, no register has changed, and the frame of an issue is kept. -/
def Says.Hands (i : Instr) (cls : Nat) (ok : Nat → Nat → State → Prop) (kind : Nat → Nat → State → OutKind) (sh : Nat → Nat → State → Bool) : Prop :=
  ∀ w g s, Says.Ready i w g s → ok w g s →
    ∃ t, exec i s = .next t ∧ Says.KeptS w g s t ∧ Says.SameRegs w g s t ∧ t.m.nextCmd = s.m.nextCmd + 1 ∧
      (t.m.grp w g).outs = (s.m.grp w g).outs ++ [Says.command i w g cls (kind w g s) (sh w g s) s]

/-! ## Accesses -/

/-- The lanes that take effect, with the addresses that `ea` gives them. -/
def Says.accesses (i : Instr) (ea : Group → Nat → Nat) (w g : Nat) (s : State) : List (Nat × Nat) :=
  (lanesOf (Says.eff i w g s)).map fun l => (l, ea (Says.reads w g s) l)

/-- Some lane takes effect, no trap of the access applies, no strongly ordered access of the group is outstanding, and a write that waits for its turn
finds room for it. -/
structure Says.Clear (i : Instr) (q : Req) (ea : Group → Nat → Nat) (w g : Nat) (s : State) : Prop where
  some : Says.eff i w g s ≠ 0
  traps : accessTrap (mkIss i w g (settle w g s.m)) (Says.begun i w g s) q (Says.accesses i ea w g s) = none
  strong : strongPending (Says.begun i w g s) w g = false
  room : (sharedAccess (Says.begun i w g s) w q (Says.accesses i ea w g s) &&
    turnFull (Says.begun i w g s) w (sharedCount (Says.begun i w g s) w q (Says.accesses i ea w g s))) = false

/-- A lane's write at the address waits for its workgroup's turn in a deterministic launch (spec 19 R353). -/
def Says.shared (i : Instr) (q : Req) (w g : Nat) (s : State) (a : Nat) : Bool := sharedLane (Says.begun i w g s) w q a

/-- A write of the group waits for its workgroup's turn in a deterministic launch. -/
def Says.turns (i : Instr) (q : Req) (ea : Group → Nat → Nat) (w g : Nat) (s : State) : Bool :=
  sharedAccess (Says.begun i w g s) w q (Says.accesses i ea w g s)

/-- No lane that takes effect stands in an open Gambit region. -/
def Says.NoRegion (i : Instr) (w g : Nat) (s : State) : Prop := ∀ l ∈ lanesOf (Says.eff i w g s), regionOf s.m w g l = none

/-- The instruction takes a trap of its own before it has any effect: the next state is the entry of that trap with %trapinfo, cause lanes and address. -/
def Says.Traps (i : Instr) (w g : Nat) (s : State) (c : Cause) (info : DWord) (ls : Mask) (a : DWord) : Prop :=
  exec i s = .next { s with m := trapAtIssue (mkIss i w g (settle w g s.m)) c info ls a (Says.begun i w g s) }

/-! ## Effects -/

/-- The issue itself: group, address, words, active lanes, lanes that take effect. -/
def Says.iss (i : Instr) (w g : Nat) (s : State) : Iss := mkIss i w g (settle w g s.m)

/-- The command of an issue is handed on: outstanding on its class, of the kind given. -/
def Says.handed (i : Instr) (w g cls : Nat) (k : OutKind) (sh : Bool) (s : State) (m : Mach) : Mach := handOn i (Says.iss i w g s) cls k sh m

/-- The instruction, where a group may perform it and `ok` holds, is placed: what follows its issue has been done by the machine given. -/
def Says.Places (i : Instr) (ok : Nat → Nat → State → Prop) (f : Nat → Nat → State → Mach → Mach) : Prop :=
  ∀ w g s, Says.Ready i w g s → ok w g s → exec i s = .next { s with m := f w g s (Says.begun i w g s) }

/-- Some lane takes effect, and none that does stands in an open Gambit region. -/
def Says.Free (i : Instr) (w g : Nat) (s : State) : Prop := Says.eff i w g s ≠ 0 ∧ Says.NoRegion i w g s

/-- The instruction, where a group may perform it and `ok` holds, answers the state after an issue whose own part moves `k` sectors and does `f` to the
machine, and nothing else: what the issue itself changes states `Obligations.IssueFrame`. -/
def Says.Ends (i : Instr) (ok : Nat → Nat → State → Prop) (k : Nat → Nat → State → Nat) (f : Nat → Nat → State → Mach → Mach) : Prop :=
  ∀ w g s, Says.Ready i w g s → ok w g s → exec i s = .next (Says.issued i w g (k w g s) (f w g s (Says.begun i w g s)) s)

/-- A step of the table that acts on the running device: where `ok` holds of the machine it answers the state with `f` done to the machine. -/
def Says.Acts (i : Instr) (ok : Mach → Prop) (f : Mach → Mach) : Prop :=
  ∀ s : State, s.hw.running = true → ok s.m → exec i s = .next { s with m := f s.m }

end Sys2Proof
end

