-- ==== Sys2Proof/Certificates/Slice0/Obligations.lean ====
section
/-! DEFINITION. The statements for the provers, in the words of Sys2Proof/Safety.lean: rules of the spec, family by family. -/

open Sys2Proof Sys2Proof.Machine

/-! ## Integer, bit, predicate and lane instructions -/

/-- R116, R117, R119: NOP does nothing; moves, sums, differences, products, absolute value, minima and maxima, with register and immediate operands, in every lane
that takes effect; all else as before. -/
def Obligations.IntegerArithmetic : Prop :=
  ∀ (d a b : Reg) (lit : BitVec 32) (imm : BitVec 10) (st : BitVec 2) (g : Guard),
    Says.Gives (.nop g) (fun _ _ => True) (fun _ _ _ _ => none) (fun _ _ _ _ => none) (fun _ _ _ => 0) ∧
    Says.Reg1 (.mov d a g) d (fun y l => y.reg a.toNat l) ∧
    Says.Reg1 (.ldi d lit g) d (fun _ _ => lit) ∧
    Says.Reg1 (.ldiIadd d a lit g) d (fun y l => y.reg a.toNat l + lit) ∧
    Says.Reg1 (.iaddi d a imm st) d (fun y l => y.reg a.toNat l + imm.signExtend 32) ∧
    Says.Reg1 (.iadd d a b g) d (fun y l => y.reg a.toNat l + y.reg b.toNat l) ∧
    Says.Reg1 (.isub d a b g) d (fun y l => y.reg a.toNat l - y.reg b.toNat l) ∧
    Says.Reg1 (.imul d a b g) d (fun y l => y.reg a.toNat l * y.reg b.toNat l) ∧
    Says.Reg1 (.imulhs d a b g) d (fun y l => BitVec.ofInt 32 ((y.reg a.toNat l).toInt * (y.reg b.toNat l).toInt / 2 ^ 32)) ∧
    Says.Reg1 (.imulhz d a b g) d (fun y l => BitVec.ofNat 32 ((y.reg a.toNat l).toNat * (y.reg b.toNat l).toNat / 2 ^ 32)) ∧
    Says.Reg1 (.imad d a b g) d (fun y l => y.reg d.toNat l + y.reg a.toNat l * y.reg b.toNat l) ∧
    Says.Reg1 (.ineg d a g) d (fun y l => 0 - y.reg a.toNat l) ∧
    Says.Reg1 (.iabs d a g) d (fun y l => if (y.reg a.toNat l).toInt < 0 then 0 - y.reg a.toNat l else y.reg a.toNat l) ∧
    Says.Reg1 (.imin d a b g) d (fun y l => if (y.reg a.toNat l).toInt ≤ (y.reg b.toNat l).toInt then y.reg a.toNat l else y.reg b.toNat l) ∧
    Says.Reg1 (.imax d a b g) d (fun y l => if (y.reg a.toNat l).toInt ≤ (y.reg b.toNat l).toInt then y.reg b.toNat l else y.reg a.toNat l) ∧
    Says.Reg1 (.iminz d a b g) d (fun y l => if (y.reg a.toNat l).toNat ≤ (y.reg b.toNat l).toNat then y.reg a.toNat l else y.reg b.toNat l) ∧
    Says.Reg1 (.imaxz d a b g) d (fun y l => if (y.reg a.toNat l).toNat ≤ (y.reg b.toNat l).toNat then y.reg b.toNat l else y.reg a.toNat l)

/-- R117, R118, R119, R123: logic, shifts by a count of 0 to 255 and rotations, SEL, in every form. -/
def Obligations.IntegerLogicShift : Prop :=
  ∀ (d a b : Reg) (lit : BitVec 32) (n : BitVec 5) (imm : BitVec 10) (st : BitVec 2) (g : Guard),
    let sl := fun (v : Word) (n : Nat) => if n < 32 then v <<< n else 0
    let sr := fun (v : Word) (n : Nat) => if n < 32 then v >>> n else 0
    let sa := fun (v : Word) (n : Nat) => if n < 32 then v.sshiftRight n else if v.toInt < 0 then 0xFFFFFFFF else 0
    let c := fun (y : Group) (l : Nat) => (y.reg b.toNat l).toNat % 256
    Says.Reg1 (.and_ d a b g) d (fun y l => y.reg a.toNat l &&& y.reg b.toNat l) ∧
    Says.Reg1 (.or_ d a b g) d (fun y l => y.reg a.toNat l ||| y.reg b.toNat l) ∧
    Says.Reg1 (.xor_ d a b g) d (fun y l => y.reg a.toNat l ^^^ y.reg b.toNat l) ∧
    Says.Reg1 (.andn d a b g) d (fun y l => y.reg a.toNat l &&& ~~~(y.reg b.toNat l)) ∧
    Says.Reg1 (.not_ d a g) d (fun y l => ~~~(y.reg a.toNat l)) ∧
    Says.Reg1 (.andi d a imm st) d (fun y l => y.reg a.toNat l &&& imm.signExtend 32) ∧
    Says.Reg1 (.ori d a imm st) d (fun y l => y.reg a.toNat l ||| imm.signExtend 32) ∧
    Says.Reg1 (.xori d a imm st) d (fun y l => y.reg a.toNat l ^^^ imm.signExtend 32) ∧
    Says.Reg1 (.ldiAnd d a lit g) d (fun y l => y.reg a.toNat l &&& lit) ∧
    Says.Reg1 (.ldiOr d a lit g) d (fun y l => y.reg a.toNat l ||| lit) ∧
    Says.Reg1 (.ldiXor d a lit g) d (fun y l => y.reg a.toNat l ^^^ lit) ∧
    Says.Reg1 (.shl d a b g) d (fun y l => sl (y.reg a.toNat l) (c y l)) ∧
    Says.Reg1 (.shr d a b g) d (fun y l => sr (y.reg a.toNat l) (c y l)) ∧
    Says.Reg1 (.sar d a b g) d (fun y l => sa (y.reg a.toNat l) (c y l)) ∧
    Says.Reg1 (.rol d a b g) d (fun y l => (y.reg a.toNat l).rotateLeft (c y l % 32)) ∧
    Says.Reg1 (.shli d a imm st) d (fun y l => sl (y.reg a.toNat l) imm.toNat) ∧
    Says.Reg1 (.shri d a imm st) d (fun y l => sr (y.reg a.toNat l) imm.toNat) ∧
    Says.Reg1 (.sari d a imm st) d (fun y l => sa (y.reg a.toNat l) imm.toNat) ∧
    Says.Reg1 (.ldiShl d a n g) d (fun y l => y.reg a.toNat l <<< n.toNat) ∧
    Says.Reg1 (.ldiShr d a n g) d (fun y l => y.reg a.toNat l >>> n.toNat) ∧
    Says.Reg1 (.ldiSar d a n g) d (fun y l => (y.reg a.toNat l).sshiftRight n.toNat) ∧
    Says.Reg1 (.sel d a b g) d (fun y l => if y.reg d.toNat l ≠ 0 then y.reg a.toNat l else y.reg b.toNat l)

/-- R117, R126, R127: CLZ, POPC, BREV, the bit fields and the Morton keys write `clzW`, `popW`, `brevW`, `bfxW`, `bfiW`, `morton2`, `morton3` and
`unmorton3` of their operands; what the bit permutations are, bit by bit, states `BitPermutations`. -/
def Obligations.BitResults : Prop :=
  ∀ (d a b : Reg) (k : BitVec 2) (g : Guard),
    Says.Reg1 (.clz d a g) d (fun y l => if y.reg a.toNat l = 0 then 32 else BitVec.ofNat 32 (31 - Nat.log2 (y.reg a.toNat l).toNat)) ∧
    Says.Reg1 (.popc d a g) d (fun y l => BitVec.ofNat 32 ((List.range 32).filter fun k => (y.reg a.toNat l).getLsbD k).length) ∧
    Says.Reg1 (.brev d a g) d (fun y l => brevW (y.reg a.toNat l)) ∧
    Says.Reg1 (.bfx d a b g) d (fun y l => bfxW (y.reg a.toNat l) (y.reg b.toNat l)) ∧
    Says.Reg1 (.bfi d a b g) d (fun y l => bfiW (y.reg d.toNat l) (y.reg a.toNat l) (y.reg b.toNat l)) ∧
    Says.Reg1 (.bitil2 d a b g) d (fun y l => morton2 (y.reg a.toNat l) (y.reg b.toNat l)) ∧
    Says.Reg1 (.bitdi3 d a k g) d (fun y l => unmorton3 (y.pair a.toNat l) k.toNat) ∧
    Says.Reg2 (.bitil3 d a g) d (fun y l => morton3 (y.reg a.toNat l) (y.reg (a.toNat + 1) l) (y.reg (a.toNat + 2) l))

/-- R117, R127, bit by bit: BREV mirrors the word; bit i of coordinate j of BITIL3 is key bit 3i + j, and bit 63 is 0; BITDI3 takes a coordinate's 21 bits
back out; BITIL2 interleaves 16 bits of each source. -/
def Obligations.BitPermutations : Prop :=
  (∀ (a : Word) (i : Nat), i < 32 → (brevW a).getLsbD i = a.getLsbD (31 - i)) ∧
  (∀ (x y z : Word) (i : Nat), i < 21 → (morton3 x y z).getLsbD (3 * i) = x.getLsbD i ∧ (morton3 x y z).getLsbD (3 * i + 1) = y.getLsbD i ∧
    (morton3 x y z).getLsbD (3 * i + 2) = z.getLsbD i) ∧
  (∀ x y z : Word, (morton3 x y z).getLsbD 63 = false) ∧
  (∀ (key : DWord) (k i : Nat), k < 3 → (unmorton3 key k).getLsbD i = (decide (i < 21) && key.getLsbD (3 * i + k))) ∧
  ∀ (a b : Word) (i : Nat), i < 16 → (morton2 a b).getLsbD (2 * i) = a.getLsbD i ∧ (morton2 a b).getLsbD (2 * i + 1) = b.getLsbD i

/-- R120 to R122, R124, R129: comparisons of words and of pairs, predicate logic, votes over the lanes that take effect, and the add with carry in and out of
p6. -/
def Obligations.PredicateResults : Prop :=
  ∀ (cc : ICond) (pd : PReg) (pa pb : BitVec 3) (d a b : Reg) (lit : BitVec 32) (imm : BitVec 10) (st : BitVec 2) (op : PlopOp) (md : VoteMode) (g : Guard),
    let cond := fun {n : Nat} (u v : BitVec n) => match cc with
      | .eq => decide (u = v)
      | .ne => decide (u ≠ v)
      | .lt => decide (u.toInt < v.toInt)
      | .le => decide (u.toInt ≤ v.toInt)
      | .gt => decide (v.toInt < u.toInt)
      | .ge => decide (v.toInt ≤ u.toInt)
      | .ltu => decide (u.toNat < v.toNat)
      | .geu => decide (v.toNat ≤ u.toNat)
    let logic := fun (u v : Bool) => match op with
      | .and => u && v
      | .or => u || v
      | .xor => u != v
      | .andn => u && !v
      | .orn => u || !v
      | .nand => !(u && v)
      | .nor => !(u || v)
      | .xnor => u == v
    Says.Pred1 (.iset cc pd a b g) pd (fun y l => cond (y.reg a.toNat l) (y.reg b.toNat l)) ∧
    Says.Pred1 (.iseti cc pd a imm st) pd (fun y l => cond (y.reg a.toNat l) (imm.signExtend 32)) ∧
    Says.Pred1 (.ldiIset cc pd a lit g) pd (fun y l => cond (y.reg a.toNat l) lit) ∧
    Says.Pred1 (.iset64 cc pd a b g) pd (fun y l => cond (y.pair a.toNat l) (y.pair b.toNat l)) ∧
    Says.Pred1 (.plop op pd pa pb g) pd (fun y l => logic (y.pred pa.toNat l) (y.pred pb.toNat l)) ∧
    Says.Gives (.vote md pd pa g) (fun _ _ => True) (fun _ _ _ _ => none)
      (fun e y _ p => if p = pd.toNat then some (match md with
        | .any => (lanesOf e).any (y.pred pa.toNat)
        | .all => (lanesOf e).all (y.pred pa.toNat)
        | .uni => (lanesOf e).all (y.pred pa.toNat) || (lanesOf e).all fun l => !(y.pred pa.toNat l)) else none) (fun _ _ _ => 0) ∧
    Says.Gives (.iaddc d a b g) (fun _ _ => True)
      (fun _ y l r => if r = d.toNat then some (y.reg a.toNat l + y.reg b.toNat l + BitVec.ofNat 32 (y.pred 6 l).toNat) else none)
      (fun _ y l p => if p = 6 then some (decide (2 ^ 32 ≤ (y.reg a.toNat l).toNat + (y.reg b.toNat l).toNat + (y.pred 6 l).toNat)) else none)
      (fun _ _ _ => 0)

/-- R125, R137: sums, differences and shifts of pairs; RNGX writes the four words of `rngx`, which the spec's worked draw tests. -/
def Obligations.PairResults : Prop :=
  ∀ (d a b : Reg) (g : Guard),
    Says.Reg2 (.add64 d a b g) d (fun y l => y.pair a.toNat l + y.pair b.toNat l) ∧
    Says.Reg2 (.sub64 d a b g) d (fun y l => y.pair a.toNat l - y.pair b.toNat l) ∧
    Says.Reg2 (.addw64 d a b g) d (fun y l => y.pair a.toNat l + (y.reg b.toNat l).signExtend 64) ∧
    Says.Reg2 (.shl64 d a b g) d (fun y l => if (y.reg b.toNat l).toNat % 256 < 64 then y.pair a.toNat l <<< ((y.reg b.toNat l).toNat % 256) else 0) ∧
    Says.Reg2 (.shrl64 d a b g) d (fun y l => if (y.reg b.toNat l).toNat % 256 < 64 then y.pair a.toNat l >>> ((y.reg b.toNat l).toNat % 256) else 0) ∧
    Says.Gives (.rngx d a b g) (fun _ _ => True)
      (fun _ y l r =>
        let v := rngx (y.reg a.toNat l) (y.reg (a.toNat + 1) l) (y.reg (a.toNat + 2) l) (y.reg (a.toNat + 3) l) (y.reg b.toNat l) (y.reg (b.toNat + 1) l)
        if r = d.toNat then some v.1 else if r = d.toNat + 1 then some v.2.1 else if r = d.toNat + 2 then some v.2.2.1
        else if r = d.toNat + 3 then some v.2.2.2 else none)
      (fun _ _ _ _ => none) (fun _ _ _ => 0)

/-- R128, R129, R131, R132: shuffles read another lane as it stands at issue, BALLOT gathers a predicate, GRED and GSCAN combine by `redList` the
lanes' values with the identity for lanes that do not take effect, where no step raises a condition whose trap is enabled. -/
def Obligations.LaneExchange : Prop :=
  ∀ (d a b : Reg) (k : BitVec 5) (pa : BitVec 3) (ex : Bool) (op : RedOp) (g : Guard),
    let xs := fun (e : Mask) (y : Group) => (List.range 32).map fun l => if e.getLsbD l then (y.reg a.toNat l).toNat else redIdent op
    let quiet := fun (f : Nat → FRes) (e : Mask) (y : Group) => ∀ l ∈ lanesOf e, (f l).flags &&& fld (y.mode l) 4 5 = 0
    let scan := fun (e : Mask) (y : Group) (l : Nat) => redList op 6 ((xs e y).take (if ex then l else l + 1))
    Says.Reg1 (.shfl d a b g) d (fun y l => y.reg a.toNat ((y.reg b.toNat l).toNat % 32)) ∧
    Says.Reg1 (.shflx d a k g) d (fun y l => y.reg a.toNat (l ^^^ k.toNat)) ∧
    Says.Reg1 (.shflup d a k g) d (fun y l => y.reg a.toNat (if l < k.toNat then l else l - k.toNat)) ∧
    Says.Reg1 (.shfldn d a k g) d (fun y l => y.reg a.toNat (if 31 < l + k.toNat then l else l + k.toNat)) ∧
    Says.Gives (.ballot d pa g) (fun _ _ => True)
      (fun e y _ r => if r = d.toNat then some (maskOf ((lanesOf e).filter (y.pred pa.toNat))) else none) (fun _ _ _ _ => none) (fun _ _ _ => 0) ∧
    Says.Gives (.gred d a op g) (fun e y => quiet (fun _ => redList op 6 (xs e y)) e y)
      (fun e y _ r => if r = d.toNat then some (BitVec.ofNat 32 (redList op 6 (xs e y)).val) else none) (fun _ _ _ _ => none)
      (fun e y _ => BitVec.ofNat 32 (redList op 6 (xs e y)).flags) ∧
    Says.Gives (.gscan d a ex op g) (fun e y => quiet (scan e y) e y)
      (fun e y l r => if r = d.toNat then some (BitVec.ofNat 32 (scan e y l).val) else none) (fun _ _ _ _ => none)
      (fun e y l => BitVec.ofNat 32 (scan e y l).flags)

/-- R131: the canonical order: of values whose first 2^k are a block and whose rest is no longer than it, the two parts' reductions are combined, left
operand first; of one value it is that value, of none the identity. -/
def Obligations.CanonicalOrder : Prop :=
  ∀ (op : RedOp) (n k : Nat) (us vs : List Nat), us.length = 2 ^ k → vs ≠ [] → vs.length ≤ 2 ^ k →
    redList op n [] = ⟨redIdent op, 0⟩ ∧ (∀ v, redList op n [v] = ⟨v, 0⟩) ∧
    (redList op (n + 1) (us ++ vs)).val = (redOp op (redList op n us).val (redList op n vs).val).val

/-! ## Floating point -/

/-- R160, R161, R163, R164 on FP32 and FP64: each lane that takes effect computes, in the mode that the rounding code or %fpmode selects, the one rounded
result of its operation, and its flags, where no lane raises a condition whose trap is enabled (R158). -/
def Obligations.FloatResults : Prop :=
  ∀ (d a b : Reg) (c : BitVec 6) (rm : Rnd) (cc : FCond) (pd : PReg) (g : Guard),
    let set := fun (f : Group → Nat → Bool × Nat) (i : Instr) =>
      Says.Gives i (fun e y => ∀ l ∈ lanesOf e, (f y l).2 &&& fld (y.mode l) 4 5 = 0) (fun _ _ _ _ => none)
        (fun _ y l p => if p = pd.toNat then some (f y l).1 else none) (fun _ y l => BitVec.ofNat 32 (f y l).2)
    Says.Fp1 (.fadd d a b rm g) d (fun y l => fp32.add (laneRm y l rm) (y.f32 a l) (y.f32 b l)) ∧
    Says.Fp1 (.fsub d a b rm g) d (fun y l => fp32.sub (laneRm y l rm) (y.f32 a l) (y.f32 b l)) ∧
    Says.Fp1 (.fmul d a b rm g) d (fun y l => fp32.mul (laneRm y l rm) (y.f32 a l) (y.f32 b l)) ∧
    Says.Fp1 (.ffma d a b c rm g) d (fun y l => fp32.fma (laneRm y l rm) (y.f32 a l) (y.f32 b l) (y.f32 c l)) ∧
    Says.Fp1 (.fmin d a b g) d (fun y l => fp32.minMax false (y.f32 a l) (y.f32 b l)) ∧
    Says.Fp1 (.fmax d a b g) d (fun y l => fp32.minMax true (y.f32 a l) (y.f32 b l)) ∧
    Says.Fp1 (.frnd d a rm g) d (fun y l => fp32.integral (laneRm y l rm) (y.f32 a l)) ∧
    Says.Fp2 (.dadd d a b rm g) d (fun y l => fp64.add (laneRm y l rm) (y.f64 a l) (y.f64 b l)) ∧
    Says.Fp2 (.dsub d a b rm g) d (fun y l => fp64.sub (laneRm y l rm) (y.f64 a l) (y.f64 b l)) ∧
    Says.Fp2 (.dmul d a b rm g) d (fun y l => fp64.mul (laneRm y l rm) (y.f64 a l) (y.f64 b l)) ∧
    Says.Fp2 (.dfma d a b c rm g) d (fun y l => fp64.fma (laneRm y l rm) (y.f64 a l) (y.f64 b l) (y.f64 c l)) ∧
    Says.Fp2 (.dmin d a b g) d (fun y l => fp64.minMax false (y.f64 a l) (y.f64 b l)) ∧
    Says.Fp2 (.dmax d a b g) d (fun y l => fp64.minMax true (y.f64 a l) (y.f64 b l)) ∧
    set (fun y l => fp32.compare cc (y.f32 a l) (y.f32 b l)) (.fset cc pd a b g) ∧
    set (fun y l => fp64.compare cc (y.f64 a l) (y.f64 b l)) (.dset cc pd a b g)

/-- R160, R162, R168 to R174: the packed 16-bit forms work element by element in the format that %fpmode selects; the conversions; FABS and FNEG touch the
sign bit alone; NARROW8 writes codes and residual; FCLASS writes one set bit; WIDEN8 and FCLASS raise nothing.
Readings and choices of the model used (no rules of the spec): log 22, 114. -/
def Obligations.PackedAndConversions : Prop :=
  ∀ (d a b : Reg) (c : BitVec 6) (rm : Rnd) (wide uns sat inf : Bool) (e : BitVec 1) (prec : BitVec 3) (which : FClassSel) (g : Guard),
    let two := fun (f : Group → Nat → Nat → FRes) (y : Group) (l : Nat) => (⟨(f y l 0).val + 65536 * (f y l 1).val, (f y l 0).flags ||| (f y l 1).flags⟩ : FRes)
    let h := fun (y : Group) (r : Reg) (l k : Nat) => half (y.f32 r l) k
    Says.Fp1 (.hadd2 d a b rm g) d (two fun y l k => (laneHalf y l).add (laneRm y l rm) (h y a l k) (h y b l k)) ∧
    Says.Fp1 (.hmul2 d a b rm g) d (two fun y l k => (laneHalf y l).mul (laneRm y l rm) (h y a l k) (h y b l k)) ∧
    Says.Fp1 (.hfma2 d a b c rm g) d (two fun y l k => (laneHalf y l).fma (laneRm y l rm) (h y a l k) (h y b l k) (h y c l k)) ∧
    Says.Fp1 (.cvtfi d a false uns rm g) d (fun y l => fp32.toInt (laneRm y l rm) 32 uns (y.f32 a l)) ∧
    Says.Fp2 (.cvtfi d a true uns rm g) d (fun y l => fp32.toInt (laneRm y l rm) 64 uns (y.f32 a l)) ∧
    Says.Fp1 (.cvtif d a wide uns rm g) d (fun y l => if wide then fp32.ofInt (laneRm y l rm) 64 uns (y.f64 a l) else fp32.ofInt (laneRm y l rm) 32 uns (y.f32 a l)) ∧
    Says.Fp2 (.cvtfd d a g) d (fun y l => fp32.convert fp64 .rne (y.f32 a l)) ∧
    Says.Fp1 (.cvtdf d a rm g) d (fun y l => fp64.convert fp32 (laneRm y l rm) (y.f64 a l)) ∧
    Says.Fp1 (.cvtfh d a b rm g) d (two fun y l k => fp32.convert (laneHalf y l) (laneRm y l rm) (y.f32 (if k = 0 then a else b) l)) ∧
    Says.Fp1 (.cvthf d a e g) d (fun y l => (laneHalf y l).convert fp32 .rne (h y a l e.toNat)) ∧
    Says.Fp1 (.scalex d a b rm g) d (fun y l => scalex (laneRm y l rm) (y.f32 a l) (y.f32 b l)) ∧
    Says.Reg1 (.fabs d a g) d (fun y l => y.reg a.toNat l &&& 0x7FFFFFFF) ∧
    Says.Reg1 (.fneg d a g) d (fun y l => y.reg a.toNat l ^^^ 0x80000000) ∧
    Says.Reg1 (.fclass d a which g) d (fun y l => BitVec.ofNat 32 (2 ^ match which with
      | .f32 => fp32.classBit (y.f32 a l)
      | .f64 => fp64.classBit (y.f64 a l)
      | .h0 => fp16.classBit (h y a l 0)
      | .h1 => fp16.classBit (h y a l 1)
      | .b0 => bf16.classBit (h y a l 0)
      | .b1 => bf16.classBit (h y a l 1))) ∧
    Says.Gives (.widen8 d a inf uns prec g) (fun _ _ => True)
      (fun _ y l r => if d.toNat ≤ r ∧ r < d.toNat + 4 then
          some (BitVec.ofNat 32 (fp32Of ((⟨prec.toNat, uns, inf⟩ : Form8).decode (fld (y.f32 a l) (8 * (r - d.toNat)) 8)))) else none)
      (fun _ _ _ _ => none) (fun _ _ _ => 0) ∧
    let n8 := fun (y : Group) (l : Nat) => narrow8 ⟨prec.toNat, uns, inf⟩ sat ((List.range 4).map fun k => (y.reg (a.toNat + k) l).toNat) (y.f32 c l)
    Says.Gives (.narrow8 d a sat inf uns prec c g) (fun m y => Says.Quiet m y fun y l => (n8 y l).1)
      (fun _ y l r => if r = c.toNat then some (BitVec.ofNat 32 (n8 y l).2) else if r = d.toNat then some (BitVec.ofNat 32 (n8 y l).1.val) else none)
      (fun _ _ _ _ => none) (fun _ y l => BitVec.ofNat 32 (n8 y l).1.flags)

/-- R158: FP_EXCEPTION of a fixed-latency instruction is precise: where some lane of FADD raises a condition whose trap is enabled, the next state is the
entry of that trap, with the lanes and their enabled conditions in %trapinfo, at an issue that has written nothing. -/
def Obligations.FloatTrapPrecise : Prop :=
  ∀ (d a b : Reg) (rm : Rnd) (gd : Guard) (w g : Nat) (s : State), let i := Instr.fadd d a b rm gd
    let y := Says.reads w g s
    let cond := fun l => (fp32.add (laneRm y l rm) (y.f32 a l) (y.f32 b l)).flags &&& fld (y.mode l) 4 5
    let ls := (lanesOf (Says.eff i w g s)).filter fun l => decide (cond l ≠ 0)
    Says.Ready i w g s → ls ≠ [] →
      let info := BitVec.ofNat 64 ((maskOf ls).toNat + 2 ^ 32 * ls.foldl (fun acc l => acc ||| cond l) 0)
      exec i s = .next { s with m := trapAtIssue (mkIss i w g (settle w g s.m)) .fpException info (maskOf ls) 0 (Says.begun i w g s) }

/-- R165, R166, R158, R159: an instruction of the SFU class is handed on with the writes and flags of its lanes, and with the lanes that raise a condition
whose trap is enabled and those conditions; no register changes until it lands.
Readings and choices of the model used (no rules of the spec): log 5. -/
def Obligations.SpecialFunctionsHandedOn : Prop :=
  ∀ (d a b : Reg) (rm : Rnd) (gd : Guard),
    let hands := fun (i : Instr) (f : Group → Nat → List LaneWrite × Nat) =>
      Says.Hands i 3 (fun _ _ _ => True) (fun w g s =>
        let y := Says.reads w g s
        let rs := (lanesOf (Says.eff i w g s)).map fun l => (⟨l, (f y l).1, (f y l).2⟩ : LaneFp)
        let ts := rs.filter fun r => decide (r.flags &&& fld (y.mode r.lane) 4 5 ≠ 0)
        .sfu (rs.flatMap LaneFp.all) (maskOf (ts.map (·.lane))) (ts.foldl (fun acc r => acc ||| (r.flags &&& fld (y.mode r.lane) 4 5)) 0)) (fun _ _ _ => false)
    hands (.frcp d a gd) (fun y l => to32 d l (fRcp (y.f32 a l))) ∧
    hands (.frsq d a gd) (fun y l => to32 d l (fRsq (y.f32 a l))) ∧
    hands (.fsqrt d a rm gd) (fun y l => to32 d l (fp32.sqrt (laneRm y l rm) (y.f32 a l))) ∧
    hands (.fdiv d a b rm gd) (fun y l => to32 d l (fp32.div (laneRm y l rm) (y.f32 a l) (y.f32 b l))) ∧
    hands (.fex2 d a gd) (fun y l => to32 d l (fEx2 (y.f32 a l))) ∧
    hands (.flg2 d a gd) (fun y l => to32 d l (fLg2 (y.f32 a l))) ∧
    hands (.fsin d a gd) (fun y l => to32 d l (fTrig 0x4F 0 (y.f32 a l))) ∧
    hands (.fcos d a gd) (fun y l => to32 d l (fTrig 0x50 1 (y.f32 a l))) ∧
    hands (.ddiv d a b rm gd) (fun y l => to64 d l (fp64.div (laneRm y l rm) (y.f64 a l) (y.f64 b l))) ∧
    hands (.dsqrt d a rm gd) (fun y l => to64 d l (fp64.sqrt (laneRm y l rm) (y.f64 a l)))

/-- R157, R161 on FP32: with one NaN FMIN and FMAX give the number and with two the canonical NaN, an addition with a NaN gives the first of them made quiet,
and a signalling NaN raises invalid and nothing else. -/
def Obligations.NaNResults : Prop :=
  ∀ (x y : Nat) (big : Bool) (rm : RM), x < 2 ^ 32 → y < 2 ^ 32 →
    let nan := fun (v : Nat) => decide (v / 2 ^ 23 % 2 ^ 8 = 255) && decide (v % 2 ^ 23 ≠ 0)
    let signals := fun (v : Nat) => nan v && decide (v / 2 ^ 22 % 2 = 0)
    let quiet := fun (v : Nat) => if signals v then v + 2 ^ 22 else v
    let invalid := if signals x || signals y then 1 else 0
    (nan x = true → nan y = false → fp32.minMax big x y = ⟨y, invalid⟩) ∧
    (nan x = false → nan y = true → fp32.minMax big x y = ⟨x, invalid⟩) ∧
    (nan x = true → nan y = true → fp32.minMax big x y = ⟨0x7FC00000, invalid⟩) ∧
    (nan x = true → fp32.add rm x y = ⟨quiet x, invalid⟩) ∧
    (nan x = false → nan y = true → fp32.add rm x y = ⟨quiet y, invalid⟩)


/-! ## Memory -/

/-- R175, R179, R182, R195, R198: a load of global memory or of a vault, outside Gambit regions, whose lanes break no condition, is handed on with the address of
each lane, from the address registers and the scaled offset; the group goes on with nothing else changed.
Readings and choices of the model used (no rules of the spec): log 24, 45. -/
def Obligations.LoadsHandedOn : Prop :=
  ∀ (d a : Reg) (ofs : BitVec 6) (g : Guard),
    let load := fun (i : Instr) (sp : MemSpace) (n : Nat) (sext region : Bool) (ea : Group → Nat → Nat) =>
      Says.Hands i 0 (fun w g s => Says.Clear i ⟨sp, n, true, false, region⟩ ea w g s ∧ Says.NoRegion i w g s)
        (fun w g s => .load sp n sext d .rlx .group ((Says.accesses i ea w g s).map fun e => ⟨e.1, e.2, 0, 0, none, false⟩)) (fun _ _ _ => false)
    let far := fun (n : Nat) (y : Group) (l : Nat) => (y.pair a.toNat l + BitVec.ofNat 64 (ofs.toNat * n)).toNat
    let near := fun (n : Nat) (y : Group) (l : Nat) => (y.reg a.toNat l + BitVec.ofNat 32 (ofs.toNat * n)).toNat
    load (.ld8s d a ofs g) .global 1 true false (far 1) ∧ load (.ld8z d a ofs g) .global 1 false false (far 1) ∧
    load (.ld16s d a ofs g) .global 2 true false (far 2) ∧ load (.ld16z d a ofs g) .global 2 false false (far 2) ∧
    load (.ld32 d a ofs g) .global 4 false true (far 4) ∧ load (.ld64 d a ofs g) .global 8 false true (far 8) ∧
    load (.ld128 d a ofs g) .global 16 false false (far 16) ∧
    load (.ldv32 d a ofs g) .vault 4 false false (near 4) ∧ load (.ldv128 d a ofs g) .vault 16 false false (near 16)

/-- R175, R179, R182, R196, R198: a store to global memory or to a vault, outside Gambit regions, whose lanes break no condition, is handed on with each lane's
address and data, the low bytes of its registers as they stand at issue; memory does not change yet.
Readings and choices of the model used (no rules of the spec): log 24, 45, 106. -/
def Obligations.StoresHandedOn : Prop :=
  ∀ (d a : Reg) (ofs : BitVec 6) (g : Guard),
    let store := fun (i : Instr) (sp : MemSpace) (n : Nat) (region : Bool) (ea : Group → Nat → Nat) =>
      Says.Hands i 1 (fun w g s => Says.Clear i ⟨sp, n, false, true, region⟩ ea w g s ∧ Says.NoRegion i w g s)
        (fun w g s => .store sp n .rlx .group ((Says.accesses i ea w g s).map fun e =>
          ⟨e.1, e.2, BitVec.ofNat 128 ((Says.reads w g s).regsVal d.toNat ((n + 3) / 4) e.1 % 2 ^ (8 * n)), 0, none, Says.shared i ⟨sp, n, false, true, region⟩ w g s e.2⟩))
        (fun w g s => Says.turns i ⟨sp, n, false, true, region⟩ ea w g s)
    let far := fun (n : Nat) (y : Group) (l : Nat) => (y.pair a.toNat l + BitVec.ofNat 64 (ofs.toNat * n)).toNat
    let near := fun (n : Nat) (y : Group) (l : Nat) => (y.reg a.toNat l + BitVec.ofNat 32 (ofs.toNat * n)).toNat
    store (.st8 d a ofs g) .global 1 false (far 1) ∧ store (.st16 d a ofs g) .global 2 false (far 2) ∧
    store (.st32 d a ofs g) .global 4 true (far 4) ∧ store (.st64 d a ofs g) .global 8 true (far 8) ∧
    store (.st128 d a ofs g) .global 16 false (far 16) ∧
    store (.stv32 d a ofs g) .vault 4 false (near 4) ∧ store (.stv128 d a ofs g) .vault 16 false (near 16)

/-- R182, R192: an access at an address that its size does not divide takes MISALIGNED_ACCESS before any effect, whatever else holds; %trapinfo names the lanes that
break the rule and the low word of the lowest one's address. -/
def Obligations.MisalignedAccessTraps : Prop :=
  ∀ (d a : Reg) (ofs : BitVec 6) (g : Guard),
    let traps := fun (i : Instr) (n : Nat) (ea : Group → Nat → Nat) => ∀ w g s, Says.Ready i w g s →
      ∀ e es, (Says.accesses i ea w g s).filter (fun e => decide (e.2 % n ≠ 0)) = e :: es →
        let ls := maskOf ((e :: es).map (·.1))
        Says.Traps i w g s .misalignedAccess (BitVec.ofNat 64 (ls.toNat + 2 ^ 32 * (e.2 % 2 ^ 32))) ls (BitVec.ofNat 64 e.2)
    let far := fun (n : Nat) (y : Group) (l : Nat) => (y.pair a.toNat l + BitVec.ofNat 64 (ofs.toNat * n)).toNat
    let near := fun (n : Nat) (y : Group) (l : Nat) => (y.reg a.toNat l + BitVec.ofNat 32 (ofs.toNat * n)).toNat
    traps (.ld16s d a ofs g) 2 (far 2) ∧ traps (.ld16z d a ofs g) 2 (far 2) ∧ traps (.ld32 d a ofs g) 4 (far 4) ∧ traps (.ld64 d a ofs g) 8 (far 8) ∧
    traps (.ld128 d a ofs g) 16 (far 16) ∧ traps (.st16 d a ofs g) 2 (far 2) ∧ traps (.st32 d a ofs g) 4 (far 4) ∧ traps (.st64 d a ofs g) 8 (far 8) ∧
    traps (.st128 d a ofs g) 16 (far 16) ∧ traps (.lds32 d a ofs g) 4 (near 4) ∧ traps (.lds64 d a ofs g) 8 (near 8) ∧ traps (.lds128 d a ofs g) 16 (near 16) ∧
    traps (.sts32 d a ofs g) 4 (near 4) ∧ traps (.sts64 d a ofs g) 8 (near 8) ∧ traps (.sts128 d a ofs g) 16 (near 16) ∧
    traps (.ldv32 d a ofs g) 4 (near 4) ∧ traps (.ldv128 d a ofs g) 16 (near 16) ∧ traps (.stv32 d a ofs g) 4 (near 4) ∧ traps (.stv128 d a ofs g) 16 (near 16)

/-- R177, R178, R197, R305, R308: a scratchpad load whose turn has come at issue is handed on with the words as they stand then; a scratchpad store whose turn has come is performed
at issue, lanes in ascending order: every byte of the scratchpads outside the stored ones reads as before, and a stored byte that no later lane stores holds its lane's data.  Where
an earlier acquire, fence or strongly ordered access, or a location whose check failed, holds an access, it is handed on with its addresses and data, and performed as soon as
nothing holds it.
Readings and choices of the model used (no rules of the spec): log 40, 101. -/
def Obligations.ScratchpadAccesses : Prop :=
  ∀ (d a : Reg) (ofs : BitVec 6) (g : Guard),
    let near := fun (n : Nat) (y : Group) (l : Nat) => (y.reg a.toNat l + BitVec.ofNat 32 (ofs.toNat * n)).toNat
    let ok := fun (i : Instr) (n : Nat) (w g : Nat) (s : State) =>
      Says.eff i w g s ≠ 0 ∧ scratchTrap (mkIss i w g (settle w g s.m)) (Says.begun i w g s) n (Says.accesses i (near n) w g s) = none ∧
        strongPending (Says.begun i w g s) w g = false
    let lanes := fun (i : Instr) (n : Nat) (w g : Nat) (s : State) => (Says.accesses i (near n) w g s).map fun e => (⟨e.1, e.2, 0, 0, none, false⟩ : LaneAcc)
    let stored := fun (i : Instr) (n : Nat) (w g : Nat) (s : State) => OutKind.storeScratch n ((Says.accesses i (near n) w g s).map fun e =>
      ⟨e.1, e.2, BitVec.ofNat 128 ((Says.reads w g s).regsVal d.toNat (n / 4) e.1), 0, none, false⟩)
    let now := fun (i : Instr) (k : Nat → Nat → State → OutKind) (w g : Nat) (s : State) => scratchNow (Says.iss i w g s) (k w g s) (Says.begun i w g s)
    let load := fun (i : Instr) (n : Nat) => let k := fun w g s => OutKind.loadScratch n d none (lanes i n w g s)
      Says.Hands i 2 (fun w g s => ok i n w g s ∧ now i k w g s = true)
        (fun w g s => .loadScratch n d (some (scratchVals (Says.begun i w g s) w n d (Says.accesses i (near n) w g s))) (lanes i n w g s)) (fun _ _ _ => false) ∧
      Says.Ends i (fun w g s => ok i n w g s ∧ now i k w g s = false) (fun _ _ _ => 0)
        (fun w g s m => scratchPass w g s.m.nextCmd (Says.handed i w g 2 (k w g s) false s m))
    let store := fun (i : Instr) (n : Nat) =>
      (∀ w g s, Says.Ready i w g s → ok i n w g s → now i (stored i n) w g s = true →
        let keys := fun (e : Nat × Nat) => scratchAt (Says.begun i w g s) w e.2 n
        ∃ t, exec i s = .next t ∧ Says.KeptS w g s { t with m := { t.m with scratch := s.m.scratch } } ∧ Says.SameRegs w g s t ∧
          (t.m.grp w g).outs = (s.m.grp w g).outs ∧ t.m.nextCmd = s.m.nextCmd ∧
          (Memory.wf s.m.scratch = true → Memory.wf t.m.scratch = true ∧
            (∀ k, (∀ e ∈ Says.accesses i (near n) w g s, k ∉ keys e) → Memory.read t.m.scratch k = Memory.read s.m.scratch k) ∧
            ∀ es e fs j, Says.accesses i (near n) w g s = es ++ e :: fs → (keys e).length = n → (keys e).Nodup → j < n →
              (∀ f ∈ fs, (keys e).getD j 0 ∉ keys f) →
              Memory.read t.m.scratch ((keys e).getD j 0) = BitVec.ofNat 8 ((Says.reads w g s).regsVal d.toNat (n / 4) e.1 / 2 ^ (8 * j)))) ∧
      Says.Ends i (fun w g s => ok i n w g s ∧ now i (stored i n) w g s = false) (fun _ _ _ => 0)
        (fun w g s m => scratchPass w g s.m.nextCmd (Says.handed i w g 8 (stored i n w g s) false s m))
    load (.lds32 d a ofs g) 4 ∧ load (.lds64 d a ofs g) 8 ∧ load (.lds128 d a ofs g) 16 ∧
    store (.sts32 d a ofs g) 4 ∧ store (.sts64 d a ofs g) 8 ∧ store (.sts128 d a ofs g) 16

/-- R200, R353: a prefetch changes no register, no command, and no byte of any memory; it completes at issue whatever its lanes' addresses are, unless a
deterministic launch prefetches a line private to another workgroup.
Readings and choices of the model used (no rules of the spec): log 46, 105. -/
def Obligations.PrefetchChangesNoData : Prop :=
  ∀ (a : Reg) (ofs : BitVec 6) (gd : Guard) (tlb : Bool) (w g : Nat) (s : State),
    let i := if tlb then Instr.prefTlb a ofs gd else Instr.pref a ofs gd
    let lines := Says.accesses i (fun y l => (y.pair a.toNat l + BitVec.ofNat 64 (ofs.toNat * 32)).toNat / 32 * 32) w g s
    Says.Ready i w g s → (isDet (Says.begun i w g s) w && lines.any fun e => ownedByOther (Says.begun i w g s) w false e.2 32) = false →
      Says.NoRegion i w g s → strongPending (Says.begun i w g s) w g = false →
      ∃ t, exec i s = .next t ∧ Says.SameRegs w g s t ∧ (t.m.grp w g).outs = (s.m.grp w g).outs ∧ t.m.hbm = s.m.hbm ∧ t.m.vault = s.m.vault ∧
        t.m.scratch = s.m.scratch ∧ (∀ v, v ≠ w → t.m.wg v = s.m.wg v) ∧ ∀ h, h ≠ g → t.m.grp w h = s.m.grp w h

/-! ## Ordered accesses, atomics, bindings and Gambit regions -/

/-- R304, R328, R329, R331, R335, R336: LDO, STO, atomics, CAS, FENCE, ACQ, REL and WAITW are handed on with each lane's address, data and compare value, the
order, scope and size of their fields; the group goes on with nothing else changed.
Readings and choices of the model used (no rules of the spec): log 44, 54. -/
def Obligations.OrderedAccessesHandedOn : Prop :=
  ∀ (d a b : Reg) (ord : Order) (sc : Scope) (cm : Bool) (sz : MSize) (op : AtomOp) (try_ : BitVec 1) (gd : Guard),
    let n := match sz with | .b8 => 1 | .b16 => 2 | .b32 => 4 | .b64 => 8 | .b128 => 16
    let at_ := fun (y : Group) (l : Nat) => (y.pair a.toNat l).toNat
    let acc := fun (i : Instr) (reads writes : Bool) (mk : Group → LaneAcc → LaneAcc) (w g : Nat) (s : State) =>
      (Says.accesses i at_ w g s).map fun e => mk (Says.reads w g s) ⟨e.1, e.2, 0, 0, none, writes && Says.shared i ⟨.global, n, reads, writes, false⟩ w g s e.2⟩
    let word := fun (y : Group) (r l : Nat) => BitVec.ofNat 128 (y.regsVal r ((n + 3) / 4) l)
    let low := fun (y : Group) (r l : Nat) => BitVec.ofNat 128 (y.regsVal r ((n + 3) / 4) l % 2 ^ (8 * n))
    let hands := fun (i : Instr) (cls : Nat) (reads writes : Bool) (kind : Nat → Nat → State → OutKind) =>
      Says.Hands i cls (fun w g s => Says.Clear i ⟨.global, n, reads, writes, false⟩ at_ w g s ∧ Says.NoRegion i w g s) kind
        (fun w g s => writes && Says.turns i ⟨.global, n, reads, writes, false⟩ at_ w g s)
    let sized := (match op, sz with | .xchg, .b128 => True | _, .b32 | _, .b64 => True | _, _ => False)
    let lock := fun (i : Instr) (cls : Nat) (kind : Nat → Nat → State → Nat → OutKind) =>
      let q : Req := ⟨.global, 8, true, true, false⟩
      let one := fun (w g : Nat) (s : State) => [(lowLaneD (Says.eff i w g s), at_ (Says.reads w g s) (lowLaneD (Says.eff i w g s)))]
      Says.Hands i cls (fun w g s => Says.eff i w g s ≠ 0 ∧ Says.NoRegion i w g s ∧
          accessTrap (mkIss i w g (settle w g s.m)) (Says.begun i w g s) q (one w g s) = none ∧ strongPending (Says.begun i w g s) w g = false ∧
          (sharedAccess (Says.begun i w g s) w q (one w g s) && turnFull (Says.begun i w g s) w 1) = false)
        (fun w g s => kind w g s (at_ (Says.reads w g s) (lowLaneD (Says.eff i w g s)))) (fun w g s => sharedAccess (Says.begun i w g s) w q (one w g s))
    hands (.ldo d a ord sc sz gd) 0 true false (fun w g s => .load .global n false d ord sc (acc (.ldo d a ord sc sz gd) true false (fun _ e => e) w g s)) ∧
    hands (.sto d a ord sc sz gd) 1 false true (fun w g s => .store .global n ord sc (acc (.sto d a ord sc sz gd) false true (fun y e => { e with val := low y d.toNat e.lane }) w g s)) ∧
    (sized → hands (.atom d a b ord sc cm sz op gd) 0 true true (fun w g s =>
      .rmw (.op op) n (some d) ord sc cm (acc (.atom d a b ord sc cm sz op gd) true true (fun y e => { e with val := low y b.toNat e.lane }) w g s))) ∧
    (sized → hands (.red d a ord sc cm sz op gd) 1 true true (fun w g s =>
      .rmw (.op op) n none ord sc cm (acc (.red d a ord sc cm sz op gd) true true (fun y e => { e with val := low y d.toNat e.lane }) w g s))) ∧
    hands (.cas d a b ord sc sz gd) 0 true true (fun w g s =>
      .rmw .cas n (some d) ord sc false (acc (.cas d a b ord sc sz gd) true true
        (fun y e => { e with cmp := word y b.toNat e.lane, val := word y (b.toNat + (n + 3) / 4) e.lane }) w g s)) ∧
    ((sz = .b32 ∨ sz = .b64) → hands (.waitw d a b sc sz gd) 0 true false (fun w g s =>
      .waitw n d sc (acc (.waitw d a b sc sz gd) true false (fun y e => { e with cmp := word y b.toNat e.lane }) w g s))) ∧
    Says.Hands (.fence ord sc gd) 1 (fun w h s => Says.eff (.fence ord sc gd) w h s ≠ 0 ∧ Says.NoRegion (.fence ord sc gd) w h s)
      (fun w h s => .fence ord sc (Says.eff (.fence ord sc gd) w h s) false) (fun _ _ _ => false) ∧
    lock (.acq d a try_ sc gd) 0 (fun w h s ea => .acq d (Says.eff (.acq d a try_ sc gd) w h s) ea (decide (try_ = 1)) sc none) ∧
    lock (.rel a sc gd) 1 (fun _ _ _ ea => .rel ea sc)

/-- R331: what a read-modify-write leaves at its location, by operation, on words of 32 and 64 bits; CAS writes only where the old value is the compare value. -/
def Obligations.AtomicOperations : Prop :=
  ∀ (big : Bool) (old v : Nat) (a : LaneAcc), let n := if big then 8 else 4
    let k := 8 * n
    let int := fun (x : Nat) => (BitVec.ofNat k x).toInt
    let f := if big then fp64 else fp32
    old < 2 ^ k → v < 2 ^ k →
    atomValue .add n old v = (old + v) % 2 ^ k ∧ atomValue .and n old v = old &&& v ∧ atomValue .or n old v = old ||| v ∧
    atomValue .xor n old v = old ^^^ v ∧ atomValue .xchg n old v = v ∧
    (int old ≤ int v → atomValue .smin n old v = old ∧ atomValue .smax n old v = v) ∧ (int v ≤ int old → atomValue .smin n old v = v ∧ atomValue .smax n old v = old) ∧
    (old ≤ v → atomValue .umin n old v = old ∧ atomValue .umax n old v = v) ∧ (v ≤ old → atomValue .umin n old v = v ∧ atomValue .umax n old v = old) ∧
    atomValue .fadd n old v = (f.add .rne old v).val ∧ atomValue .fmin n old v = (f.minMax false old v).val ∧
    atomValue .fmax n old v = (f.minMax true old v).val ∧
    rmwValue .cas n a old = if old = a.cmp.toNat then some a.val.toNat else none

/-- R316, R317, R318: BIND writes its entry of the workgroup's table from the lowest lane's registers, where no condition of R317 holds and a phaser's handle is
live, and UNBIND empties its entry, an empty entry staying empty; each raises the QU count, which falls when the command lands.  A handle that is not live faults PHASER_HANDLE at
the command's wait point, with nothing written.
Readings and choices of the model used (no rules of the spec): log 13. -/
def Obligations.Bindings : Prop :=
  ∀ (d a b : Reg) (e : BitVec 4) (all vault : Bool) (kind : BindKind) (g : Guard),
    let i := Instr.bind d a b e all vault kind g
    let u := Instr.unbind e g
    let entry := fun (w h : Nat) (s : State) =>
      let y := Says.reads w h s
      let l := lowLaneD (Says.eff i w h s)
      let obj : DWord := if kind = .ph then (y.reg d.toNat l).setWidth 64 else y.pair d.toNat l
      if all then (⟨kind, obj, true, false, 0, 0⟩ : Bind)
      else ⟨kind, obj, false, vault, if vault then (y.reg a.toNat l).toNat else (y.pair a.toNat l).toNat, (y.reg b.toNat l).toNat⟩
    let may := fun (w h : Nat) (s : State) => Says.eff i w h s ≠ 0 ∧ Says.NoRegion i w h s ∧
      bindTrap (Says.begun i w h s) (mkIss i w h (settle w h s.m)) e.toNat (entry w h s) = none
    let live := fun (w h : Nat) (s : State) =>
      livePhaser (Says.begun i w h s) ((Says.begun i w h s).wg w).part ((Says.begun i w h s).wg w).ctx ((entry w h s).obj.setWidth 32) ≠ none
    Says.Ends i (fun w h s => may w h s ∧ (kind = .ph → live w h s)) (fun _ _ _ => 0) (fun w h s m =>
      Says.handed i w h 7 (.cmd (.land []) none (Says.eff i w h s)) false s (m.modW w fun z => { z with binds := Store.put z.binds e.toNat (entry w h s) })) ∧
    Says.Ends i (fun w h s => may w h s ∧ kind = .ph ∧ ¬ live w h s) (fun _ _ _ => 0) (fun w h s m =>
      failOut w h s.m.nextCmd ⟨.phaserHandle, Says.eff i w h s, 0, freeInfo m⟩ (Says.handed i w h 7 (.cmd (.bindPh e.toNat (entry w h s)) none (Says.eff i w h s)) false s m)) ∧
    Says.Ends u (fun w h s => Says.eff u w h s ≠ 0 ∧ Says.NoRegion u w h s) (fun _ _ _ => 0) (fun w h s m =>
      Says.handed u w h 7 (.cmd (.land []) none (Says.eff u w h s)) false s (m.modW w fun z => { z with binds := Store.del z.binds e.toNat }))

/-- R341 to R343, R347: GBEGIN opens a region in each lane that takes effect, with the fallback address and the retry record that R343 gives; GABORT
ends the lanes' regions with cause EXPLICIT and its code, and sends the lanes to their fallbacks; GCOMMIT asks for the lanes' commits.
Readings and choices of the model used (no rules of the spec): log 26, 71. -/
def Obligations.GambitRegions : Prop :=
  ∀ (d : Reg) (off : BitVec 19) (code : BitVec 6) (g : Guard),
    let b := Instr.gbegin d off g
    let a := Instr.gabort code g
    let c := Instr.gcommit g
    let tgt := fun (w h : Nat) (s : State) => Says.pc b w h s + (off.signExtend 64 <<< 2)
    let open1 := fun (w h : Nat) (t : DWord) (l : Nat) (m : Mach) =>
      let old := Store.get default (m.grp w h).retries l
      let r : Retry := if old.fallback = t ∧ 0 < old.aborts then old else ⟨t, m.cycle % 2 ^ 64, 0⟩
      let n := m.modG w h fun y => { y with retries := Store.put y.retries l r }
      { n with regions := n.regions ++ [⟨w, h, l, t, d, r.stamp, decide (8 ≤ r.aborts), [], [], [], [], [], false, false, false, none⟩] }
    Says.Ends b (fun w h s => let m := Says.begun b w h s
        Says.eff b w h s ≠ 0 ∧ targetWaits m w (tgt w h s) = false ∧ (targetAt m w false (tgt w h s)).isOk = true ∧
        (∀ l ∈ lanesOf (Says.eff b w h s), anyRegion m w h l = none) ∧ (Says.reads w h s).trapMode = none ∧ (Says.reads w h s).lser = none ∧
        regionSlots m (m.wg w).core + (lanesOf (Says.eff b w h s)).length ≤ 64) (fun _ _ _ => 0)
      (fun w h s m => (lanesOf (Says.eff b w h s)).foldl (fun acc l => open1 w h (tgt w h s) l acc) m) ∧
    Says.Ends a (fun w h s => Says.eff a w h s ≠ 0) (fun _ _ _ => 0) (fun w h s m =>
      ((lanesOf (Says.eff a w h s)).filterMap fun l => regionOf m w h l).foldl (fun acc q =>
        (abortRegion q (q.aborted.getD (4, code.toNat)).1 (q.aborted.getD (4, code.toNat)).2 acc).modG w h fun y =>
          { y with run := y.run.map fun r => { r with moves := addMove r.moves q.fallback (maskOf [q.lane]) } }) m) ∧
    ∀ w h s, Says.Ready c w h s → Says.eff c w h s ≠ 0 →
      let m := Says.begun c w h s
      let qs := (lanesOf (Says.eff c w h s)).filterMap fun l => regionOf m w h l
      let live := qs.filter fun q => q.aborted.isNone
      let turns := isDet m w && live.any fun q => q.stores.any fun e => !(ownedBySelf m w false e.addr e.size)
      let asks := qs.foldl (fun acc q => modRegion w h q.lane (fun q => { q with asked := true }) acc) m
      let cmd : Out := ⟨m.nextCmd, 0, (mkIss c w h (settle w h s.m)).rec_, .gcommit (maskOf (live.map (·.lane))), none, [], [], turns, (Says.reads w h s).lastDue, serialInterval (Says.reads w h s)⟩
      commitTrap live (Says.iss c w h s) m = none → (turns && turnFull m w live.length) = false →
      exec c s = .next (Says.issued c w h ((qs.flatMap fun q => q.stores.map fun e => e.addr / 32).eraseDups.length)
        (if live = [] then asks else { (asks.modG w h fun y => { y with outs := y.outs ++ [cmd] }) with nextCmd := asks.nextCmd + 1 }) s)

/-- R344, R345: LD32, LD64, ST32 and ST64 of lanes that stand in their Gambit region: a store takes an entry of the region's store list, hands nothing on
and leaves memory as it is; a load is handed on with the bytes that the region's own stores give it.
Readings and choices of the model used (no rules of the spec): log 58. -/
def Obligations.RegionAccesses : Prop :=
  ∀ (d a : Reg) (ofs : BitVec 6) (two : Bool) (gd : Guard), let n := if two then 8 else 4
    let st := if two then Instr.st64 d a ofs gd else Instr.st32 d a ofs gd
    let ld := if two then Instr.ld64 d a ofs gd else Instr.ld32 d a ofs gd
    let far := fun (y : Group) (l : Nat) => (y.pair a.toNat l + BitVec.ofNat 64 (ofs.toNat * n)).toNat
    (∀ w g s, Says.Ready st w g s → Says.Clear st ⟨.global, n, false, true, true⟩ far w g s → (∀ l ∈ lanesOf (Says.eff st w g s), regionOf s.m w g l ≠ none) →
      exec st s = .next (Says.issued st w g (sectorCount ((Says.accesses st far w g s).map (·.2)))
        ((Says.accesses st far w g s).foldl (fun acc e => regionStoreAt w g e.1 e.2 n
          (BitVec.ofNat 64 ((Says.reads w g s).regsVal d.toNat (n / 4) e.1)) d.toNat [a.toNat, a.toNat + 1] acc) (Says.begun st w g s)) s)) ∧
    (∀ m w g l addr v dr ar, (regionStoreAt w g l addr n v dr ar m).hbm = m.hbm ∧ (regionStoreAt w g l addr n v dr ar m).wgs = m.wgs) ∧
    (∀ w g s, Says.Ready ld w g s → Says.Clear ld ⟨.global, n, true, false, true⟩ far w g s →
      ∃ t, exec ld s = .next t ∧ t.m.hbm = s.m.hbm ∧ Says.SameRegs w g s t ∧ t.m.nextCmd = s.m.nextCmd + 1 ∧ ∃ lanes,
        (t.m.grp w g).outs = (s.m.grp w g).outs ++ [Says.command ld w g 0 (.load .global n false d .rlx .group lanes) false s] ∧
        lanes.map (fun e => (e.lane, e.addr)) = Says.accesses ld far w g s ∧
        ∀ e ∈ lanes, match regionOf s.m w g e.lane with
          | none => e.region = none
          | some q => ∃ form, e.region = some (form, (List.range n).filterMap fun k =>
              (q.stores.reverse.find? fun x => decide (x.addr ≤ e.addr + k) && decide (e.addr + k < x.addr + x.size)).map fun x =>
                (k, x.val.extractLsb' (8 * (e.addr + k - x.addr)) 8)))

/-! ## Control -/

/-- R72, R104 to R106: BRA, CALL, BRX and RET, where each lane that takes effect has a header at its target: the lanes are moved to their targets at the
end of the run, CALL first writes the address past its word into v30:v31 of those lanes; nothing else.
Readings and choices of the model used (no rules of the spec): log 116, 121. -/
def Obligations.ControlTransfers : Prop :=
  ∀ (off : BitVec 18) (a : Reg) (gd : Guard),
    let goes := fun (i : Instr) (tgt : DWord → Group → Nat → DWord) (links ret : Bool) =>
      let dest := fun (w g : Nat) (s : State) (l : Nat) => tgt (Says.pc i w g s) (Says.reads w g s) l
      Says.Ends i (fun w g s => ∀ l ∈ lanesOf (Says.eff i w g s),
          targetWaits (Says.begun i w g s) w (dest w g s l) = false ∧ (targetAt (Says.begun i w g s) w ret (dest w g s l)).isOk = true) (fun _ _ _ => 0)
        (fun w g s m =>
          let n := if links then writeNow (mkIss i w g (settle w g s.m)) ((lanesOf (Says.eff i w g s)).flatMap fun l =>
            [.reg 30 l ((Says.pc i w g s + 4).extractLsb' 0 32), .reg 31 l ((Says.pc i w g s + 4).extractLsb' 32 32)]) m else m
          n.modG w g fun y => { y with run := y.run.map fun r =>
            { r with moves := (lanesOf (Says.eff i w g s)).foldl (fun ms l => addMove ms (dest w g s l) (maskOf [l])) r.moves } })
    goes (.bra off gd) (fun pc _ _ => pc + (off.signExtend 64 <<< 2)) false false ∧
    goes (.call off gd) (fun pc _ _ => pc + (off.signExtend 64 <<< 2)) true false ∧
    goes (.brx a gd) (fun pc y l => pc + (y.reg a.toNat l).signExtend 64) false false ∧
    goes (.ret a gd) (fun _ y l => y.pair a.toNat l) false true

/-- R67, R101, R102, R104: at the end of a run every lane that moved stands in the frontier entry of its target, and every other active lane in the entry of the
address past the clause, as long as it lives. -/
def Obligations.MovedLanesStand : Prop :=
  ∀ (w g : Nat) (m : Mach) (r : Run), (m.grp w g).run = some r →
    let n := endRun w g m
    (n.grp w g).run = none ∧
    (∀ t k l, (t, k) ∈ r.moves → k.getLsbD l = true → (m.grp w g).live.getLsbD l = true → ∃ e ∈ (n.grp w g).frontier, e.addr = t ∧ e.lanes.getLsbD l = true) ∧
    (∀ l, r.lanes.getLsbD l = true → (m.grp w g).live.getLsbD l = true → (∀ x ∈ r.moves, x.2.getLsbD l = false) →
      ∃ e ∈ (n.grp w g).frontier, e.addr = r.pc ∧ e.lanes.getLsbD l = true) ∧
    (∀ e ∈ (m.grp w g).frontier, ∃ f ∈ (n.grp w g).frontier, f.addr = e.addr ∧ ∀ l, e.lanes.getLsbD l = true → f.lanes.getLsbD l = true)

/-- R72, R104, R106: a lane whose target is no header: the transfer traps before any lane moves, for the lowest such lane's target, with BRANCH_TARGET and the
target's low word, or with the fault of the read and the lanes that would go there; a target that is no multiple of 4, and a target of RET with a bit of [63:52] set, is BRANCH_TARGET. -/
def Obligations.BadTargetTraps : Prop :=
  ∀ (off : BitVec 18) (a : Reg) (gd : Guard),
    let traps := fun (i : Instr) (ret : Bool) (tgt : DWord → Group → Nat → DWord) => ∀ w g s, Says.Ready i w g s →
      let m := Says.begun i w g s
      let dest := fun (l : Nat) => tgt (Says.pc i w g s) (Says.reads w g s) l
      let head := fun (l : Nat) => targetAt m w ret (dest l)
      (∀ l ∈ lanesOf (Says.eff i w g s), targetWaits m w (dest l) = false) →
      ∀ ls l rest c, lanesOf (Says.eff i w g s) = ls ++ l :: rest → (∀ j ∈ ls, (head j).isOk = true) → head l = .error c →
        let k := maskOf ((lanesOf (Says.eff i w g s)).filter fun j => decide (dest j = dest l))
        let low := (dest l).toNat % 2 ^ 32
        if c = .branchTarget then Says.Traps i w g s c (BitVec.ofNat 64 low) k (dest l)
        else Says.Traps i w g s c (BitVec.ofNat 64 (k.toNat + 2 ^ 32 * low)) k (dest l)
    traps (.bra off gd) false (fun pc _ _ => pc + (off.signExtend 64 <<< 2)) ∧ traps (.call off gd) false (fun pc _ _ => pc + (off.signExtend 64 <<< 2)) ∧
    traps (.brx a gd) false (fun pc y l => pc + (y.reg a.toNat l).signExtend 64) ∧ traps (.ret a gd) true (fun _ y l => y.pair a.toNat l) ∧
    ∀ (m : Mach) w (t : DWord), (t.toNat % 4 ≠ 0 → ∀ ret, targetAt m w ret t = .error .branchTarget) ∧ (2 ^ 52 ≤ t.toNat → targetAt m w true t = .error .branchTarget)

/-- R43, R44, R99, R405: EXIT without a trap of its own: the lanes that take effect are no longer live, a successor list is fixed; the group's last lanes end only where no
command of the group is outstanding and nothing is pending that a wait point honours, and stand at the EXIT otherwise.
Readings and choices of the model used (no rules of the spec): log 53, 99. -/
def Obligations.ExitEndsLanes : Prop :=
  ∀ (a : Reg) (cnt : BitVec 3) (gd : Guard), let i := Instr.exit a cnt gd
    let names := fun (w g : Nat) (s : State) => (List.range cnt.toNat).map fun k => (Says.reads w g s).pair (a.toNat + 2 * k) (lowLaneD (Says.eff i w g s))
    let listed := fun (w g : Nat) (s : State) (m : Mach) => if names w g s = [] then m else m.modW w fun z => { z with succ := some (names w g s) }
    let ok := fun (w g : Nat) (s : State) => let m := Says.begun i w g s
      Says.eff i w g s ≠ 0 ∧ Says.NoRegion i w g s ∧ (Says.reads w g s).lser = none ∧
        exitListTrap (m.block w).succReserve (m.wg w).succ (names w g s) = none ∧ exitBlocked m (mkIss i w g (settle w g s.m)) = none
    Says.Ends i (fun w g s => ok w g s ∧ g ∈ (s.m.wg w).groupIds ∧ (Says.reads w g s).live &&& ~~~(Says.eff i w g s) ≠ 0) (fun _ _ _ => 0)
      (fun w g s m => (listed w g s m).modG w g fun y => { y with live := y.live &&& ~~~(Says.eff i w g s), exiting := none }) ∧
    Says.Ends i (fun w g s => ok w g s ∧ (Says.reads w g s).outs = [] ∧ mayPass ((Says.begun i w g s).wg w) (Says.reads w g s) = true) (fun _ _ _ => 0)
      (fun w g s m => endLanes w g (Says.eff i w g s) (Says.pc i w g s) (listed w g s m)) ∧
    ∀ w g s, Says.Ready i w g s → ok w g s → Says.eff i w g s = (Says.reads w g s).live →
      ((Says.reads w g s).outs ≠ [] ∨ mayPass ((Says.begun i w g s).wg w) (Says.reads w g s) = false) →
      exec i s = .next { s with m := dropSlot w g (((listed w g s (Says.begun i w g s)).modG w g fun y =>
        { y with exiting := some (Says.eff i w g s, Says.pc i w g s), gaveUp := (Says.begun i w g s).cycle }).modG w g fun y =>
          { y with run := y.run.map fun r => { r with waiting := true } }) }

/-- R43, R16: where the lanes that end are all the live ones of the workgroup's groups, the workgroup retires. -/
def Obligations.LastExitRetires : Prop :=
  ∀ (w g : Nat) (k : Mask) (pc : DWord) (m : Mach), let n := endLanes w g k pc m
    (n.grp w g).live = (m.grp w g).live &&& ~~~k ∧ (∀ h, h ≠ g → (n.grp w h).live = (m.grp w h).live) ∧
    ((∀ h ∈ (m.wg w).groupIds, (n.grp w h).live = 0) → (n.wg w).status = .retiring ∧ (n.wg w).exitPc = pc) ∧
    ((∃ h ∈ (m.wg w).groupIds, (n.grp w h).live ≠ 0) → (n.wg w).status = (m.wg w).status)

/-- R107, R108, R375, R395: YIELD marks the slot's next choice, YIELD.wg makes the workgroup's yield pending; TRAP and BKPT take their trap with their code in %trapinfo, its
lanes past the clause on return; BKPT with halt-on-breakpoint armed halts the workgroup; TRAPRET returns in trap mode and is PRIVILEGE outside it.
Readings and choices of the model used (no rules of the spec): log 39. -/
def Obligations.YieldsAndTraps : Prop :=
  ∀ (code : BitVec 6) (st : BitVec 2) (gd : Guard),
    let ok := fun (i : Instr) (w g : Nat) (s : State) => Says.eff i w g s ≠ 0 ∧ Says.NoRegion i w g s ∧ (Says.reads w g s).lser = none
    let slot := fun (w g : Nat) (_ : State) (m : Mach) => m.modG w g fun y => { y with slotYield := slotOf m w g }
    let soft := fun (i : Instr) (c : Cause) (w g : Nat) (s : State) =>
      let x := mkIss i w g (settle w g s.m)
      let m := finishIssue i x 0 ((Says.begun i w g s).modG w g fun y => { y with run := y.run.map fun r => { r with lanes := 0 } })
      let t : TrapArgs := ⟨x.rec_, ⟨c, Says.eff i w g s, 0, BitVec.ofNat 64 code.toNat⟩, 0xFF, Says.pc i w g s + 4, Says.act i w g s, .stand, none⟩
      exec i s = .next { s with m := enterTrap w g t m }
    Says.Ends (.yield_ gd) (ok (.yield_ gd)) (fun _ _ _ => 0) slot ∧
    Says.Ends (.yieldWg gd) (fun w g s => ok (.yieldWg gd) w g s ∧ (Says.reads w g s).trapMode ≠ none) (fun _ _ _ => 0) slot ∧
    Says.Ends (.yieldWg gd) (fun w g s => ok (.yieldWg gd) w g s ∧ (Says.reads w g s).trapMode = none) (fun _ _ _ => 0)
      (fun w _ _ m => m.modW w fun z => if z.yieldPending then z else { z with yieldPending := true, yieldWg := true }) ∧
    (∀ w g s, Says.Ready (.trap code gd) w g s → ok (.trap code gd) w g s → soft (.trap code gd) .software w g s) ∧
    (∀ w g s, Says.Ready (.bkpt code gd) w g s → ok (.bkpt code gd) w g s →
      ((Says.begun (.bkpt code gd) w g s).core ((Says.begun (.bkpt code gd) w g s).wg w).core).haltOnBreak = false → soft (.bkpt code gd) .breakpoint w g s) ∧
    Says.Ends (.bkpt code gd) (fun w g s => ok (.bkpt code gd) w g s ∧
        ((Says.begun (.bkpt code gd) w g s).core ((Says.begun (.bkpt code gd) w g s).wg w).core).haltOnBreak = true) (fun _ _ _ => 0)
      (fun w _ _ m => m.modW w fun z => { z with haltReq := true }) ∧
    (∀ w g s, Says.Ready (.trapret st) w g s → Says.NoRegion (.trapret st) w g s → (Says.reads w g s).trapMode ≠ none →
      exec (.trapret st) s = .next { s with m := returnTrap w g st.toNat (Says.begun (.trapret st) w g s) }) ∧
    (∀ w g s, Says.Ready (.trapret st) w g s → Says.NoRegion (.trapret st) w g s → (Says.reads w g s).trapMode = none →
      Says.Traps (.trapret st) w g s .privilege (freeInfo (Says.begun (.trapret st) w g s)) (Says.eff (.trapret st) w g s) 0)

/-- R133 to R136: LSER narrows the run to the lowest active lane and keeps the others for the body; LSEND parks the lane past the clause and sends the next to the
body, or ends the serial section; REORDER without a trap of its own holds the group, arrived, until the threads move.
Readings and choices of the model used (no rules of the spec): log 30, 102, 103, 104, 113. -/
def Obligations.LaneSerialiseAndReorder : Prop :=
  ∀ (st : BitVec 2) (a b : Reg) (two : BitVec 1),
    let i := Instr.lser st
    let e := Instr.lsend st
    let r := Instr.reorder two a b st
    let quiet := fun (i : Instr) (w g : Nat) (s : State) => ∀ l ∈ lanesOf (Says.act i w g s), regionOf s.m w g l = none
    let run := fun (w g : Nat) (f : Run → Run) (m : Mach) => m.modG w g fun y => { y with run := y.run.map f }
    Says.Ends i (fun w g s => (Says.reads w g s).lser = none ∧ quiet i w g s ∧ Says.act i w g s ≠ 0) (fun _ _ _ => 0)
      (fun w g s m => let l := lowLaneD (Says.act i w g s)
        run w g (fun r => { r with lanes := maskOf [l] }) (m.modG w g fun y => { y with lser := some ⟨Says.pc i w g s + 4, l, (lanesOf (Says.act i w g s)).tail, []⟩, serCtr := y.serCtr + 1 })) ∧
    (∀ z : Lser, Says.Ends e (fun w g s => (Says.reads w g s).lser = some z ∧ z.todo = [] ∧ quiet e w g s) (fun _ _ _ => 0)
      (fun w g s m => run w g (fun r => { r with lanes := 0, moves := addMove z.done (Says.pc e w g s + 4) (Says.act e w g s) })
        (m.modG w g fun y => { y with lser := none }))) ∧
    (∀ (z : Lser) (l : Nat) (ls : List Nat), Says.Ends e (fun w g s => (Says.reads w g s).lser = some z ∧ z.todo = l :: ls ∧ quiet e w g s) (fun _ _ _ => 0)
      (fun w g s m => run w g (fun r => { r with lanes := 0, moves := [(z.body, maskOf [l])] })
        (m.modG w g fun y => { y with lser := some { z with cur := l, todo := ls, done := addMove z.done (Says.pc e w g s + 4) (Says.act e w g s) }, serCtr := y.serCtr + 1 }))) ∧
    ∀ w g s, Says.Ready r w g s → quiet r w g s →
      let y := Says.reads w g s
      let keys := (lanesOf (Says.act r w g s)).map fun l => (l, y.regsVal a.toNat (if two = 1 then 2 else 1) l)
      y.lser = none → y.trapMode = none → y.live &&& ~~~(Says.act r w g s) = 0 →
        exec r s = .next { s with m := dropSlot w g ((Says.begun r w g s).modG w g fun y =>
          { y with held := some .reorder, gaveUp := (Says.begun r w g s).cycle, reorder := some ⟨decide (two = 1), y.pair b.toNat (lowLaneD (Says.act r w g s)), Says.pc r w g s, keys⟩ }) }

/-! ## System registers, tempo, turns -/

/-- R111, R112, R113: GETS writes, in each lane that takes effect, the register's value as the table of R111 gives it; a register of more than 32 bits fills the pair, the low word
in the even register; nothing else changes.  %lane and %group read the lane and the group but where a debugger has written them (log 110). -/
def Obligations.SystemRegisterReads : Prop :=
  ∀ (d : Reg) (sr : SReg) (gd : Guard) (w g : Nat) (s : State), let i := Instr.gets d sr gd
    let m := Says.begun i w g s
    let x := m.wg w
    let y := Says.reads w g s
    let b := m.block w
    let val := fun (l : Nat) => match sr with
      | .tid => (Store.get 0 y.tid l).toNat
      | .lane => (Store.get (BitVec.ofNat 32 l) y.laneNo l).toNat
      | .group => (Store.get (BitVec.ofNat 32 g) y.groupNo l).toNat
      | .wgid => x.wgid
      | .wgcount => b.count
      | .stage => x.stage
      | .core => x.core % 4
      | .cluster => x.core / 4 % 64
      | .die => x.core / 256
      | .part => x.part
      | .ctx => x.ctx
      | .tempi => x.tempi.toNat
      | .tempm => x.tempm.toNat
      | .cont => x.cont.toNat
      | .contlive => x.contlive.toNat
      | .xheld => 256 * (b.xmax % 16) + 16 * (((List.range x.ngroups).filter fun h => (m.grp w h).extHeld).length % 16)
          + (if y.extPending then 2 else 0) + (if y.extHeld then 1 else 0)
      | .trapcause => (if y.trapMode.isSome then 64 else 0) + y.trapCause % 64
      | .trappc => y.trapPc.toNat
      | .trapinfo => y.trapInfo.toNat
      | .trapmask => (Store.get 0 y.trapmask l).toNat
      | .fpflags => (Store.get 0 y.fpflags l).toNat
      | .fpmode => (Store.get 0 y.fpmode l).toNat
      | .cycle => m.cycle
    let wide := match sr with | .cont | .trappc | .trapinfo | .cycle => true | _ => false
    Says.Ready i w g s →
      ∃ t, exec i s = .next t ∧ Says.Kept w g s t ∧ (∀ p l, l < 32 → Says.pred w g t p l = Says.pred w g s p l) ∧
        (∀ l, l < 32 → Says.flags w g t l = Says.flags w g s l) ∧ ∀ r l, l < 32 → Says.reg w g t r l =
          if (Says.eff i w g s).getLsbD l = false then Says.reg w g s r l
          else if wide = true ∧ r = d.toNat + 1 then BitVec.ofNat 32 (val l / 2 ^ 32)
          else if r = d.toNat then BitVec.ofNat 32 (val l) else Says.reg w g s r l

/-- R110, R113, R114, R403, R404: SETS writes a per-thread register in each lane that takes effect, or %trappc in trap mode from the lowest, is PRIVILEGE for
every other register and RESERVED_FIELD where a reserved bit is set; SETCONT writes %cont and %contlive; CCTL switches checking; TRACEMARK writes its
record where the context enables marks, and does nothing where it does not; the group stands at the word after it where a replay command asks for a halt there.
Readings and choices of the model used (no rules of the spec): log 61. -/
def Obligations.SystemRegisterWrites : Prop :=
  ∀ (a : Reg) (sr : SReg) (off : BitVec 19) (en : Bool) (last first : BitVec 6) (mark : BitVec 10) (st : BitVec 2) (gd : Guard),
    let i := Instr.sets a sr gd
    let c := Instr.setcont off en last first gd
    let t := Instr.tracemark a mark st
    let ok := fun (i : Instr) (w g : Nat) (s : State) => Says.eff i w g s ≠ 0 ∧ Says.NoRegion i w g s
    let bits := fun (w g : Nat) (s : State) (k : Word) => ∀ l ∈ lanesOf (Says.eff i w g s), (Says.reads w g s).reg a.toNat l &&& k = 0
    let dest := fun (w g : Nat) (s : State) => Says.pc c w g s + (off.signExtend 64 <<< 2)
    let each := fun (w g : Nat) (s : State) (f : Group → Nat → Group) (m : Mach) => m.modG w g fun y => (lanesOf (Says.eff i w g s)).foldl f y
    (sr = .trapmask → Says.Ends i (fun w g s => ok i w g s ∧ bits w g s 0xFFFFFFFE) (fun _ _ _ => 0)
      (fun w g s => each w g s fun y l => { y with trapmask := Store.put y.trapmask l (y.reg a.toNat l) })) ∧
    (sr = .fpflags → Says.Ends i (fun w g s => ok i w g s ∧ bits w g s 0xFFFFFFE0) (fun _ _ _ => 0)
      (fun w g s => each w g s fun y l => { y with fpflags := Store.put y.fpflags l (y.reg a.toNat l) })) ∧
    (sr = .fpmode → Says.Ends i (fun w g s => ok i w g s ∧ bits w g s 0xFFFFFC0C) (fun _ _ _ => 0)
      (fun w g s => each w g s fun y l => { y with fpmode := Store.put y.fpmode l (y.reg a.toNat l) })) ∧
    (sr = .trappc → Says.Ends i (fun w g s => ok i w g s ∧ (Says.reads w g s).trapMode ≠ none) (fun _ _ _ => 0)
      (fun w g s m => m.modG w g fun y => { y with trapPc := y.pair a.toNat (lowLaneD (Says.eff i w g s)) })) ∧
    (sr ≠ .trapmask → sr ≠ .fpflags → sr ≠ .fpmode → ∀ w g s, Says.Ready i w g s → ok i w g s → (sr = .trappc → (Says.reads w g s).trapMode = none) →
      Says.Traps i w g s .privilege (freeInfo (Says.begun i w g s)) (Says.eff i w g s) 0) ∧
    (∀ w g s, Says.Ready i w g s → ok i w g s →
      (sr = .trapmask ∧ ¬ bits w g s 0xFFFFFFFE) ∨ (sr = .fpflags ∧ ¬ bits w g s 0xFFFFFFE0) ∨ (sr = .fpmode ∧ ¬ bits w g s 0xFFFFFC0C) →
      Says.Traps i w g s .reservedField (freeInfo (Says.begun i w g s)) (Says.eff i w g s) 0) ∧
    (∀ h : Word, h.getLsbD 7 = true → Says.Ends c (fun w g s => ok c w g s ∧
        targetWaits (Says.begun c w g s) w (dest w g s) = false ∧ targetAt (Says.begun c w g s) w false (dest w g s) = .ok h) (fun _ _ _ => 0)
      (fun w g s m => m.modW w fun z => { z with cont := dest w g s, contlive := BitVec.ofBool en ++ last ++ first })) ∧
    Says.Ends (.cctlOff st) (Says.NoRegion (.cctlOff st)) (fun _ _ _ => 0) (fun w _ _ m => m.modW w fun z => { z with checking := false }) ∧
    Says.Ends (.cctlOn st) (Says.NoRegion (.cctlOn st)) (fun _ _ _ => 0) (fun w _ _ m => m.modW w fun z => { z with checking := true }) ∧
    Says.Ends t (fun w g s => Says.NoRegion t w g s ∧ marksOn (Says.begun t w g s) w = false) (fun _ _ _ => 0) (fun _ _ _ m => m) ∧
    Says.Ends t (fun w g s => Says.NoRegion t w g s ∧ marksOn (Says.begun t w g s) w = true ∧ markHalts ((Says.begun t w g s).wg w) = false) (fun _ _ _ => 0)
      (fun w g s m => (traceRecord w g 0 (Says.pc t w g s) (Says.act t w g s) ((Says.reads w g s).reg a.toNat (lowLaneD (Says.act t w g s))) mark.toNat m).modW w
        fun z => { z with marks := z.marks + 1 }) ∧
    Says.Places t (fun w g s => Says.NoRegion t w g s ∧ marksOn (Says.begun t w g s) w = true ∧ markHalts ((Says.begun t w g s).wg w) = true)
      (fun w g s m => resourceHold false .none w g (finishIssue t (Says.iss t w g s) 0
        ((traceRecord w g 0 (Says.pc t w g s) (Says.act t w g s) ((Says.reads w g s).reg a.toNat (lowLaneD (Says.act t w g s))) mark.toNat m).modW w
          fun z => { z with marks := z.marks + 1, haltReq := true, replay := none })))

/-- R380, R56, R58, R59: BTOPUP moves the lesser of what is asked, what the reserve holds and what keeps the register below the unbounded value, from each reserve to its budget,
and takes a pending yield back where both budgets are positive and no group is parked; XACQ queues the group's one request; XREL withdraws it or gives the
block up. -/
def Obligations.TempoAndExtendedBlocks : Prop :=
  ∀ (a b : Reg) (gd : Guard),
    let t := Instr.btopup a b gd
    let ok := fun (i : Instr) (w g : Nat) (s : State) => Says.eff i w g s ≠ 0 ∧ Says.NoRegion i w g s
    let moved := fun (v : Word) (res : DWord) (ask : Word) => if v = 0x7FFFFFFF then 0 else min (min ask.toNat res.toNat) (0x7FFFFFFE - v.toInt).toNat
    Says.Ends t (fun w g s => ok t w g s ∧ ((Says.begun t w g s).block w).topUp = true) (fun _ _ _ => 0) (fun w g s m =>
      let x := m.wg w
      let y := Says.reads w g s
      let l := lowLaneD (Says.eff t w g s)
      let c := m.ctx x.part x.ctx
      let i := moved x.tempi c.ireserve (y.reg a.toNat l)
      let k := moved x.tempm c.mreserve (y.reg b.toNat l)
      let back := decide (0 < (x.tempi + BitVec.ofNat 32 i).toInt) && decide (0 < (x.tempm + BitVec.ofNat 32 k).toInt) && !(x.groupIds.any fun h => groupParked m w h)
      (m.modC x.part x.ctx fun c => { c with ireserve := c.ireserve - BitVec.ofNat 64 i, mreserve := c.mreserve - BitVec.ofNat 64 k }).modW w fun z =>
        { z with tempi := x.tempi + BitVec.ofNat 32 i, tempm := x.tempm + BitVec.ofNat 32 k, yieldPending := z.yieldPending && !back, yieldWg := z.yieldWg && !back }) ∧
    (∀ w g s, Says.Ready t w g s → ok t w g s → ((Says.begun t w g s).block w).topUp = false →
      Says.Traps t w g s .privilege (freeInfo (Says.begun t w g s)) (Says.eff t w g s) 0) ∧
    Says.Ends (.xacq gd) (fun w g s => ok (.xacq gd) w g s ∧ ((Says.begun (.xacq gd) w g s).block w).xmax ≠ 0 ∧
        ((Says.reads w g s).extHeld = true ∨ (Says.reads w g s).extPending = true)) (fun _ _ _ => 0) (fun _ _ _ m => m) ∧
    Says.Ends (.xacq gd) (fun w g s => ok (.xacq gd) w g s ∧ ((Says.begun (.xacq gd) w g s).block w).xmax ≠ 0 ∧
        (Says.reads w g s).extHeld = false ∧ (Says.reads w g s).extPending = false) (fun _ _ _ => 0) (fun w g s m =>
      let n := m.modG w g fun y => { y with extPending := true }
      (handOn (.xacq gd) (mkIss (.xacq gd) w g (settle w g s.m)) 7 .xacq false n).modW w fun z => { z with xacqQ := z.xacqQ ++ [g] }) ∧
    Says.Ends (.xrel gd) (fun w g s => ok (.xrel gd) w g s ∧ (Says.reads w g s).extPending = true)
      (fun _ _ _ => 0) (fun w g _ m => (m.modG w g fun y => { y with extPending := false, outs := y.outs.filter fun o => (match o.kind with | .xacq => false | _ => true) }).modW w
        fun z => { z with xacqQ := z.xacqQ.filter fun h => decide (h ≠ g) }) ∧
    Says.Ends (.xrel gd) (fun w g s => ok (.xrel gd) w g s ∧ (Says.reads w g s).extPending = false)
      (fun _ _ _ => 0) (fun w g _ m => m.modG w g fun y =>
        { y with regs := y.regs.filter (fun e => decide (e.1 < 32 * 32)), extHeld := false, pend := y.pend.map fun p => { p with writes := p.writes.filter fun u => (match u with | .reg r _ _ => decide (r < 32) | _ => true) } })

/-- R350, R356, R361, R362: outside deterministic mode SERIAL, SERIALEND and OWNMARK have no effect; in it SERIAL and SERIALEND hold the group, OWNMARK.priv adds an entry
where there is room and no other workgroup owns a part of the range, OWNMARK.shared removes the workgroup's entries inside the range, OWNMARK.region writes
its entry where the workgroup holds its turn.
Readings and choices of the model used (no rules of the spec): log 46, 76, 120. -/
def Obligations.TurnsAndOwnership : Prop :=
  ∀ (st : BitVec 2) (d a : Reg) (e : BitVec 6) (cls : RegionClass) (vault : Bool) (gd : Guard),
    let det := fun (i : Instr) (w g : Nat) (s : State) => isDet (Says.begun i w g s) w
    let calm := fun (i : Instr) (w g : Nat) (s : State) => (∀ l ∈ lanesOf (Says.act i w g s), regionOf s.m w g l = none) ∧
      (Says.reads w g s).lser = none ∧ (Says.reads w g s).trapMode = none
    let ok := fun (i : Instr) (w g : Nat) (s : State) => Says.eff i w g s ≠ 0 ∧ Says.NoRegion i w g s
    let held := fun (i : Instr) (k : Held) (f : Group → Group) => ∀ w g s, Says.Ready i w g s → calm i w g s → det i w g s = true →
      turnEnded (Says.begun i w g s) w = false → (i = .serialend st → (Says.reads w g s).endedTurn = false) →
      exec i s = .next { s with m := dropSlot w g (((Says.begun i w g s).modG w g f).modG w g fun y => { y with held := some k, gaveUp := (Says.begun i w g s).cycle }) }
    let none_ := fun (i : Instr) (c : Nat → Nat → State → Prop) => Says.Ends i (fun w g s => c w g s ∧ det i w g s = false) (fun _ _ _ => 0) (fun _ _ _ m => m)
    let range := fun (i : Instr) (w g : Nat) (s : State) => let y := Says.reads w g s
      let l := lowLaneD (Says.eff i w g s)
      (if vault then (y.reg a.toNat l).toNat else (y.pair a.toNat l).toNat, (y.reg d.toNat l).toNat)
    let good := fun (i : Instr) (w g : Nat) (s : State) => ok i w g s ∧ det i w g s = true ∧
      ownRangeTrap (Says.begun i w g s) ((Says.begun i w g s).wg w).part vault (range i w g s).1 (range i w g s).2 = none
    let p := Instr.ownmarkPriv d a vault gd
    let h := Instr.ownmarkShared d a vault gd
    let r := Instr.ownmarkRegion d a e cls vault gd
    let part := fun (w : Nat) (f : Part → Part) (m : Mach) => m.modP (m.wg w).part f
    none_ (.serial st) (calm (.serial st)) ∧ none_ (.serialend st) (calm (.serialend st)) ∧ none_ p (ok p) ∧ none_ h (ok h) ∧ none_ r (ok r) ∧
    held (.serial st) .serial id ∧ held (.serialend st) .serialend (fun y => { y with endedTurn := true }) ∧
    Says.Ends p (fun w g s => good p w g s ∧ ((Says.begun p w g s).part ((Says.begun p w g s).wg w).part).owned.length < 4096 ∧
        ∀ o ∈ ((Says.begun p w g s).part ((Says.begun p w g s).wg w).part).owned, o.wg ≠ w → overlaps o.vault o.base o.size vault (range p w g s).1 (range p w g s).2 = false)
      (fun _ _ _ => 0) (fun w g s => part w fun q => { q with owned := q.owned ++ [⟨w, vault, (range p w g s).1, (range p w g s).2⟩] }) ∧
    Says.Ends h (good h) (fun _ _ _ => 0) (fun w g s => part w fun q => { q with owned := q.owned.filter fun o =>
      !(decide (o.wg = w) && decide (o.vault = vault) && decide ((range h w g s).1 ≤ o.base) && decide (o.base + o.size ≤ (range h w g s).1 + (range h w g s).2)) }) ∧
    (cls = .clear → Says.Ends r (fun w g s => ok r w g s ∧ det r w g s = true ∧ holdsTurn (Says.begun r w g s) w = true) (fun _ _ _ => 0)
      (fun w _ _ => part w fun q => { q with regions := Store.put q.regions e.toNat default })) ∧
    (cls ≠ .clear → Says.Ends r (fun w g s => good r w g s ∧ holdsTurn (Says.begun r w g s) w = true ∧
        ∀ x ∈ ((Says.begun r w g s).part ((Says.begun r w g s).wg w).part).regions, x.1 ≠ e.toNat → x.2.used = true → x.2.cls ≠ cls →
          overlaps x.2.vault x.2.base x.2.size vault (range r w g s).1 (range r w g s).2 = false) (fun _ _ _ => 0)
      (fun w g s => part w fun q => { q with regions := Store.put q.regions e.toNat ⟨true, cls, vault, (range r w g s).1, (range r w g s).2⟩ }))

/-! ## Traps -/

/-- R368, R369, R370: a trap of a group that is not in trap mode, whose handler is a clause header and whose frame can be written, leaves the cause, %trappc and %trapinfo, names the frame
in v30:v31 of the trap set, stands the trap set alone at the handler with everything else held aside, and writes the issue record, in the layout of R369, at
the start of the frame, with nothing of local memory outside the frame changed; other registers, predicates and groups keep what they held.  Otherwise it is a double
fault.  The handler's header and the frame are read as hardware reads them, a failed check's location once more (R190), which changes no group and no data.
Readings and choices of the model used (no rules of the spec): log 23, 34, 38, 60. -/
def Obligations.TrapEntry : Prop :=
  ∀ (w g : Nat) (t : TrapArgs) (m0 : Mach), let l := dropSlot w g (allLanded w g m0)
    let x := l.wg w
    let y := l.grp w g
    let h := (l.ctx x.part x.ctx).desc.handler
    let f := (l.ctx x.part x.ctx).desc.trapArea + BitVec.ofNat 64 (1024 * (48 * logicalCore l w + (y.slot - 1)))
    let place := frameAt w f .write (retryCode (wgSite l w) x.part x.ctx h.toNat l)
    let m := place.2
    let head := headerAt m (wgSite m w) x.part x.ctx h
    let n := enterTrap w g t m0
    let z := n.grp w g
    let le := fun (k v : Nat) => (List.range k).map fun j => BitVec.ofNat 8 (v / 256 ^ j)
    let r := t.irec
    regionsOf (allLanded w g m0) w g t.lanes = [] →
      m.wgs = (allLanded w g m0).wgs ∧ m.hbm = (allLanded w g m0).hbm ∧ m.vault = (allLanded w g m0).vault ∧ m.scratch = (allLanded w g m0).scratch ∧
      ((y.trapMode ≠ none ∨ h = 0 ∨ (∃ e, head = .error e) ∨ ∃ e, place.1 = .error e) → n = doubleFault w g t.fail.cause t.pc t.fail.info m) ∧
      ∀ hd fr, y.trapMode = none → h ≠ 0 → head = .ok hd → place.1 = .ok fr →
        z.trapCause = causeCode t.fail.cause ∧ z.trapPc = t.pc ∧ z.trapInfo = t.fail.info ∧
        z.trapMode = some ⟨t.lanes, y.frontier, y.run, t.pc, t.resume, t.replay, f, m.nextCmd⟩ ∧
        z.frontier = [⟨h, (bits hd 16 8).toNat, t.lanes⟩] ∧ z.run = none ∧ z.live = y.live ∧ z.preds = y.preds ∧ z.fpflags = y.fpflags ∧
        (∀ l ∈ lanesOf t.lanes, z.pair 30 l = f) ∧
        (∀ q l, q < 64 → l < 32 → (q = 30 ∨ q = 31) → l ∉ lanesOf t.lanes → z.reg q l = y.reg q l) ∧ (∀ q l, l < 32 → q ≠ 30 → q ≠ 31 → z.reg q l = y.reg q l) ∧
        (∀ v k, (v, k) ≠ (w, g) → { n.grp v k with outs := [] } = { m.grp v k with outs := [] }) ∧
        n.vault = m.vault ∧ n.scratch = m.scratch ∧
        (Memory.wf m.hbm = true → (∀ k, k < 512 → paTarget (fr.pa + k) ≠ 2) →
          (∀ a, a < fr.pa ∨ fr.pa + 512 ≤ a → Memory.read n.hbm a = Memory.read m.hbm a) ∧
          Memory.readN n.hbm fr.pa 64 = le 8 r.pc.toNat ++ le 4 t.fail.lanes.toNat ++ le 4 r.lanes.toNat ++ le 4 r.word.toNat ++ le 4 r.lit.toNat ++
            le 1 (causeCode t.fail.cause) ++ le 1 t.wait ++ le 6 0 ++ le 8 t.fail.addr.toNat ++ le 8 r.a.toNat ++ le 8 r.b.toNat ++ le 8 r.d.toNat)

/-- R75, R371, R375: TRAPRET of a group in trap mode, all of whose live trap-set lanes are active, where the frame can be read, ends trap mode and keeps the cause; with %trappc unchanged the
run that trapped goes on, or the lanes stand at %trappc; with %trappc changed to a clause header the lanes stand there; an inactive live lane, an unreadable
frame or a bad new %trappc is a double fault.  The group's next issue comes after the stall of TRAPRET.
Readings and choices of the model used (no rules of the spec): log 34, 57. -/
def Obligations.TrapReturn : Prop :=
  ∀ (w g st : Nat) (t : TrapMode) (r : Run) (m0 : Mach), let l := allLanded w g m0
    let x := l.wg w
    let y := l.grp w g
    let place := frameAt w t.frame .read l
    let m := retryCode (wgSite place.2 w) x.part x.ctx y.trapPc.toNat place.2
    let head := headerAt m (wgSite m w) x.part x.ctx y.trapPc
    let ls := t.lanes &&& y.live
    let n := returnTrap w g st m0
    let z := n.grp w g
    let same := decide (y.trapPc = t.pc)
    let twice := fun c => doubleFault w g c y.trapPc y.trapInfo m
    y.trapMode = some t → y.run = some r →
      m.wgs = l.wgs ∧ m.hbm = l.hbm ∧ m.vault = l.vault ∧ m.scratch = l.scratch ∧
      ((ls &&& ~~~r.lanes ≠ 0 ∨ ∃ e, place.1 = .error e) → n = twice (causeOfCode y.trapCause)) ∧
      ∀ fr, ls &&& ~~~r.lanes = 0 → place.1 = .ok fr →
        (∀ e, same = false → head = .error e → n = twice e) ∧
        ((same = true ∨ head.isOk = true) → t.replay = none →
          z.trapMode = none ∧ z.trapCause = y.trapCause ∧ z.trapPc = y.trapPc ∧ z.trapInfo = y.trapInfo ∧ z.preds = y.preds ∧ z.fpflags = y.fpflags ∧
          z.ready = m0.cycle + st + 1 ∧
          (∀ l ∈ lanesOf ls, z.pair 30 l = BitVec.ofNat 64 (leNat (readOwn m x.core (fr.pa + 0x100 + 8 * l) 8))) ∧
          (∀ q l, l < 32 → q ≠ 30 → q ≠ 31 → z.reg q l = y.reg q l) ∧
          (same = true → t.resume ≠ .stand → ∀ q, t.run = some q → z.run = some { q with lanes := q.lanes &&& y.live }) ∧
          (same = false ∨ t.resume = .stand ∨ t.run = none → z.run = none ∧ ∀ l ∈ lanesOf ls, ∃ e ∈ z.frontier, e.addr = y.trapPc ∧ e.lanes.getLsbD l = true))

/-! ## Barriers, phasers, nodes, copies, messages -/

/-- R211, R212, R213: BARI arms a barrier on which nothing has arrived; BARA arrives once in a phase, at once where the group's earlier accesses and fences are performed and as a pending
command where they are not; BARW waits for the phase of the group's last arrival, or the current one; BARAW does both; a wait whose phase is over passes, another stands held; an arrival
that completes the count ends the phase and clears the arrivals; a BARI on arrivals and an arrival or a wait on a barrier that is not armed are BARRIER_COUNT.
Readings and choices of the model used (no rules of the spec): log 109. -/
def Obligations.NamedBarriers : Prop :=
  ∀ (n : BitVec 4) (imm : BitVec 10) (st : BitVec 2) (gd : Guard),
    let i := Instr.bari n imm st
    let a := Instr.bara n gd
    let b := Instr.barw n gd
    let c := Instr.baraw n gd
    let bar := fun (i : Instr) (w g : Nat) (s : State) => (Says.begun i w g s).bar w n.toNat
    let once := fun (i : Instr) (w g : Nat) (s : State) => Store.get 0 (Says.reads w g s).arrived n.toNat ≠ (bar i w g s).phase + 1 ∧ arrivePending (Says.reads w g s) n.toNat = false
    let arrive := fun (i : Instr) (w g : Nat) (s : State) (m : Mach) =>
      if arriveReady m w g s.m.nextCmd then groupArrive w g n.toNat m else Says.handed i w g 8 (.cmd (.arrive n.toNat) none (Says.eff i w g s)) false s m
    let armed := fun (i : Instr) (w g : Nat) (s : State) => Says.Free i w g s ∧ (bar i w g s).armed = true
    let calm := fun (w g : Nat) (s : State) => (Says.reads w g s).lser = none ∧ (Says.reads w g s).trapMode = none
    let mine := fun (w g : Nat) (s : State) => let k := Store.get 0 (Says.reads w g s).arrived n.toNat
      if k = 0 then (bar b w g s).phase else k - 1
    let past := fun (ph w g : Nat) (m : Mach) => ph < (m.bar w n.toNat).phase ∧ arrivePending (m.grp w g) n.toNat = false
    let stands := fun (w g ph : Nat) (m : Mach) => dropSlot w g (m.modG w g fun y => { y with held := some (.barrier n.toNat ph), gaveUp := m.cycle })
    Says.Ends i (fun w g s => Says.NoRegion i w g s ∧ (bar i w g s).arrivals = 0) (fun _ _ _ => 0)
      (fun w _ _ m => m.modBar w n.toNat fun x => { x with armed := true, count := imm.toNat }) ∧
    (∀ w g s, Says.Ready i w g s → Says.NoRegion i w g s → (bar i w g s).arrivals ≠ 0 →
      Says.Traps i w g s .barrierCount (freeInfo (Says.begun i w g s)) (Says.eff i w g s) 0) ∧
    Says.Ends a (fun w g s => armed a w g s ∧ once a w g s) (fun _ _ _ => 0) (fun w g s => arrive a w g s) ∧
    Says.Ends b (fun w g s => armed b w g s ∧ calm w g s ∧ past (mine w g s) w g (Says.begun b w g s)) (fun _ _ _ => 0) (fun w g s m => passAcquire w n.toNat (mine w g s) m) ∧
    Says.Places b (fun w g s => armed b w g s ∧ calm w g s ∧ ¬ past (mine w g s) w g (Says.begun b w g s)) (fun w g s m => stands w g (mine w g s) m) ∧
    Says.Ends c (fun w g s => armed c w g s ∧ calm w g s ∧ once c w g s ∧ past (bar c w g s).phase w g (arrive c w g s (Says.begun c w g s))) (fun _ _ _ => 0)
      (fun w g s m => passAcquire w n.toNat (bar c w g s).phase (arrive c w g s m)) ∧
    Says.Places c (fun w g s => armed c w g s ∧ calm w g s ∧ once c w g s ∧ ¬ past (bar c w g s).phase w g (arrive c w g s (Says.begun c w g s)))
      (fun w g s m => stands w g (bar c w g s).phase (arrive c w g s m)) ∧
    (∀ i ∈ [a, b, c], ∀ w g s, Says.Ready i w g s → Says.eff i w g s ≠ 0 → (bar i w g s).armed = false →
      Says.Traps i w g s .barrierCount (freeInfo (Says.begun i w g s)) (Says.eff i w g s) 0) ∧
    (∀ i ∈ [a, c], ∀ w g s, Says.Ready i w g s → Says.eff i w g s ≠ 0 → ¬ once i w g s →
      Says.Traps i w g s .barrierCount (freeInfo (Says.begun i w g s)) (Says.eff i w g s) 0) ∧
    (∀ w g m, let b := m.bar w n.toNat
      let c := (groupArrive w g n.toNat m).bar w n.toNat
      (b.armed = false → c = b) ∧
      (b.armed = true → b.arrivals + 1 < b.count → c.armed = true ∧ c.count = b.count ∧ c.arrivals = b.arrivals + 1 ∧ c.phase = b.phase) ∧
      (b.armed = true → b.count ≤ b.arrivals + 1 → c.armed = true ∧ c.count = b.count ∧ c.arrivals = 0 ∧ c.phase = b.phase + 1))

/-- R339, R45, R423: a phaser instruction, GNODE.arm, GNODE.sig and CAPLD hand on their command, which is outstanding on its class until it is performed; it is tried at once, as is every
command that may wait for it (log 13).
Readings and choices of the model used (no rules of the spec): log 13, 100. -/
def Obligations.TriedCommands : Prop :=
  ∀ (d a : Reg) (mode : PhMode) (n : BitVec 8) (k : BitVec 6) (gd : Guard),
    let one := fun (w g : Nat) (s : State) (i : Instr) => (Says.reads w g s).reg a.toNat (lowLaneD (Says.eff i w g s))
    let block := fun (w g : Nat) (s : State) => (Says.reads w g s).pair a.toNat (lowLaneD (Says.eff (.gnodeArm d a gd) w g s))
    let tries := fun (i : Instr) (ok : Nat → Nat → State → Prop) (c : Nat → Nat → State → Cmd) (dst : Option Reg) =>
      Says.Ends i (fun w g s => Says.Free i w g s ∧ ok w g s) (fun _ _ _ => 0)
        (fun w g s m => settleCmds (Says.handed i w g 7 (.cmd (c w g s) dst (Says.eff i w g s)) false s m))
    let always := fun (_ _ : Nat) (_ : State) => True
    tries (.phregNew d mode gd) always (fun _ _ _ => .phNew mode) (some d) ∧
    tries (.phreg d a mode gd) always (fun w g s => .phReg (one w g s (.phreg d a mode gd)) mode) (some d) ∧
    tries (.phdrop a gd) always (fun w g s => .phDrop (one w g s (.phdrop a gd))) none ∧
    tries (.phsig a gd) always (fun w g s => .phSig (one w g s (.phsig a gd))) none ∧
    tries (.phwait d a gd) always (fun w g s => .phWait (one w g s (.phwait d a gd))) (some d) ∧
    tries (.phsw d a gd) always (fun w g s => .phSw (one w g s (.phsw d a gd)) false) (some d) ∧
    tries (.gnodeArm d a gd) (fun w g s => ((Says.begun (.gnodeArm d a gd) w g s).wg w).nodeSlots ≠ 0 ∧ (block w g s).toNat % 128 = 0)
      (fun w g s => .gnodeArm (block w g s)) (some d) ∧
    tries (.gnodeSig d a n gd) (fun w g s => let m := Says.begun (.gnodeSig d a n gd) w g s
        liveNode m (m.wg w).part (m.wg w).ctx (one w g s (.gnodeSig d a n gd)) ≠ none) (fun w g s => .gnodeSig (one w g s (.gnodeSig d a n gd)) n.toNat) (some d) ∧
    tries (.capld d k gd) (fun w g s => ((Says.begun (.capld d k gd) w g s).block w).capTable ≠ 0) (fun _ _ _ => .capld k.toNat) (some d)

/-- R45, R215, R216, R217: GNODE.tile binds a live node to a tile that has none; GNODE.free frees a live node and gives its slot back; PUBLISH.decl declares a slot with its lower half in
front where no rule of declaration is broken; each is outstanding on the QU class until it lands; a declared range of a vault that another workgroup has declared is a deferred PUBLISH_STATE; PUBLISH and PUBLISH.drop of a declared slot are outstanding until the halves swap; a slot that is not
declared is PUBLISH_STATE.
Readings and choices of the model used (no rules of the spec): log 13. -/
def Obligations.NodesAndShadows : Prop :=
  ∀ (a b : Reg) (t : BitVec 4) (k : BitVec 2) (vault : Bool) (gd : Guard),
    let i := Instr.gnodeTile a t gd
    let f := Instr.gnodeFree a gd
    let d := Instr.publishDecl vault k a b gd
    let p := Instr.publish k gd
    let q := Instr.publishDrop k gd
    let handle := fun (i : Instr) (w g : Nat) (s : State) => (Says.reads w g s).reg a.toNat (lowLaneD (Says.eff i w g s))
    let live := fun (i : Instr) (w g : Nat) (s : State) => let m := Says.begun i w g s
      liveNode m (m.wg w).part (m.wg w).ctx (handle i w g s)
    let lands := fun (i : Instr) (w g : Nat) (s : State) => Says.handed i w g 7 (.cmd (.land []) none (Says.eff i w g s)) false s
    let buf := fun (w g : Nat) (s : State) => (⟨vault, (handle d w g s).toNat, ((Says.reads w g s).reg b.toNat (lowLaneD (Says.eff d w g s))).toNat, false⟩ : Shadow)
    Says.Ends i (fun w g s => Says.Free i w g s ∧ live i w g s ≠ none ∧ ((Says.begun i w g s).tile w t.toNat).bound = none ∧ t.toNat < ((Says.begun i w g s).block w).tiles)
      (fun _ _ _ => 0) (fun w g s m => lands i w g s (m.modTile w t.toNat fun e => { e with bound := some (handle i w g s).toNat })) ∧
    Says.Ends f (fun w g s => Says.Free f w g s ∧ live f w g s ≠ none) (fun _ _ _ => 0)
      (fun w g s m => lands f w g s (freeSlots (m.wg w).part 1 (freeNode (m.wg w).part ((live f w g s).getD 0) false m))) ∧
    Says.Ends d (fun w g s => Says.Free d w g s ∧ declBroken (Says.begun d w g s) w k.toNat (buf w g s) = false ∧ vaultTaken (Says.begun d w g s) w (buf w g s) = false)
      (fun _ _ _ => 0) (fun w g s m => lands d w g s (m.modW w fun z => { z with shadows := Store.put z.shadows k.toNat (buf w g s) })) ∧
    Says.Ends d (fun w g s => Says.Free d w g s ∧ declBroken (Says.begun d w g s) w k.toNat (buf w g s) = false ∧ vaultTaken (Says.begun d w g s) w (buf w g s) = true)
      (fun _ _ _ => 0) (fun w g s m => failOut w g s.m.nextCmd ⟨.publishState, Says.eff d w g s, 0, freeInfo m⟩
        (Says.handed d w g 7 (.cmd (.decl k.toNat (buf w g s)) none (Says.eff d w g s)) false s m)) ∧
    Says.Hands p 7 (fun w g s => Says.Free p w g s ∧ shadowSlot (Says.begun p w g s) w k.toNat ≠ none) (fun _ _ _ => .publish k.toNat false) (fun _ _ _ => false) ∧
    Says.Hands q 7 (fun w g s => Says.Free q w g s ∧ ∃ x, shadowSlot (Says.begun q w g s) w k.toNat = some x ∧ x.upper = false) (fun _ _ _ => .publish k.toNat true) (fun _ _ _ => false) ∧
    (∀ i ∈ [p, q], ∀ w g s, Says.Ready i w g s → Says.Free i w g s → shadowSlot (Says.begun i w g s) w k.toNat = none →
      Says.Traps i w g s .publishState (freeInfo (Says.begun i w g s)) (Says.eff i w g s) 0)

/-- R202 to R206, R219: a copy with no trap of R205, in no region, before the turn has ended, with room at the Rook and, where it waits for the turn, in its buffer, joins its collective, or is a copy of its own, with the length,
spaces and addresses of its operands, and moves its sectors in the tempo charge; without a lane that takes effect its slice is empty.
Readings and choices of the model used (no rules of the spec): log 47, 48, 49, 121. -/
def Obligations.CopiesJoin : Prop :=
  ∀ (d a b : Reg) (sect : BitVec 12) (src dst : Space) (bar : Bool) (bi : BitVec 4) (shadow : Bool) (use : NodeUse) (solo : Bool) (gd : Guard),
    let i := Instr.cpy d a b sect src dst bar bi shadow use solo gd
    let j := Instr.cpym d a b sect src bar bi shadow solo gd
    let len := 32 * (sect.toNat + 1)
    let at_ := if bar then some bi.toNat else none
    let adr := fun (i : Instr) (w g : Nat) (s : State) (r : Reg) (sp : Space) => let y := Says.reads w g s
      let l := lowLaneD (Says.eff i w g s)
      if sp = .glob then (y.pair r.toNat l).toNat else (y.reg r.toNat l).toNat
    let joins := fun (i : Instr) (c : CopySpec) (word : Nat → Nat → State → Word) =>
      Says.Ends i (fun w g s => let m := Says.begun i w g s
          let x := Says.iss i w g s
          let from_ := adr i w g s a c.srcSp
          let at_ := adr i w g s d c.dstSp
          Says.Free i w g s ∧ copyTrap m x c from_ at_ (word w g s) = none ∧ (c.dstSp = .scr ∨ engineLate m w (decide (c.dstSp = .vault)) at_ len = false) ∧
            (c.use = .gate ∨ rookHeld m (clusterOfCore (m.wg w).core) < 256) ∧ (copyShared m w c at_ = true → turnFull m w 1 = false))
        (fun _ _ _ => if c.srcSp = .scr ∧ c.dstSp = .scr then 0 else sect.toNat + 1)
        (fun w g s => joinCopy i (Says.iss i w g s) c (some (adr i w g s a c.srcSp, adr i w g s d c.dstSp, word w g s))) ∧
      Says.Ends i (fun w g s => Says.eff i w g s = 0) (fun _ _ _ => if c.srcSp = .scr ∧ c.dstSp = .scr then 0 else sect.toNat + 1)
        (fun w g s => joinCopy i (Says.iss i w g s) c none)
    joins i ⟨len, src, dst, at_, shadow, use, solo, false⟩ (fun w g s => if use = .none then 0 else (Says.reads w g s).reg b.toNat (lowLaneD (Says.eff i w g s))) ∧
    joins j ⟨len, src, .scr, at_, shadow, .none, solo, true⟩ (fun w g s => (Says.reads w g s).reg b.toNat (lowLaneD (Says.eff j w g s)))

/-- R422, R424: QSEND hands on its message, read in the scratchpad at issue or, where the read may not yet be performed, left to be read after it; QRECV hands on its buffer; both check the range's alignment and bounds and the capability
table's address first, in that order.
Readings and choices of the model used (no rules of the spec): log 50. -/
def Obligations.MessagesHandedOn : Prop :=
  ∀ (d a : Reg) (len : BitVec 8) (pd : BitVec 3) (nb : Bool) (k : BitVec 6) (gd : Guard),
    let i := Instr.qsend a len pd nb k gd
    let j := Instr.qrecv d a len pd nb k gd
    let n := 16 * (len.toNat + 1)
    let off := fun (i : Instr) (w g : Nat) (s : State) => ((Says.reads w g s).reg a.toNat (lowLaneD (Says.eff i w g s))).toNat
    let ok := fun (i : Instr) (w g : Nat) (s : State) => Says.Free i w g s ∧ off i w g s % 16 = 0 ∧ off i w g s + n ≤ ((Says.begun i w g s).block w).scratch ∧
      scratchKeys (Says.begun i w g s) w (off i w g s) n ≠ none ∧ ((Says.begun i w g s).block w).capTable ≠ 0
    let sends := fun (w g : Nat) (s : State) (bytes : Option (List Byte)) => OutKind.qsend k.toNat (off i w g s) n bytes nb pd.toNat (Says.eff i w g s) false
    let now := fun (w g : Nat) (s : State) => scratchNow (Says.iss i w g s) (sends w g s none) (Says.begun i w g s)
    let read := fun (w g : Nat) (s : State) => (scratchAt (Says.begun i w g s) w (off i w g s) n).map (Memory.read s.m.scratch)
    Says.Hands i 7 (fun w g s => ok i w g s ∧ now w g s = true) (fun w g s => sends w g s (some (read w g s))) (fun _ _ _ => false) ∧
    Says.Ends i (fun w g s => ok i w g s ∧ now w g s = false) (fun _ _ _ => n / 32 + n % 32 / 16)
      (fun w g s m => scratchPass w g s.m.nextCmd (Says.handed i w g 7 (sends w g s none) false s m)) ∧
    Says.Hands j 7 (ok j) (fun w g s => .qrecv k.toNat (off j w g s) n nb pd.toNat d (Says.eff j w g s)) (fun _ _ _ => false) ∧
    (∀ x ∈ [i, j], ∀ w g s, Says.Ready x w g s → Says.eff x w g s ≠ 0 →
      let t := fun c => Says.Traps x w g s c (freeInfo (Says.begun x w g s)) (Says.eff x w g s) 0
      (off x w g s % 16 ≠ 0 → t .misalignedAccess) ∧
      (off x w g s % 16 = 0 → ((Says.begun x w g s).block w).scratch < off x w g s + n → t .scratchBounds) ∧
      (off x w g s % 16 = 0 → off x w g s + n ≤ ((Says.begun x w g s).block w).scratch → scratchKeys (Says.begun x w g s) w (off x w g s) n ≠ none →
        ((Says.begun x w g s).block w).capTable = 0 → t .capabilityInvalid))

/-! ## Matrix engine, collection engines, Knight -/

/-- R222 to R228, R245: OCLAIM claims a slot within the declared count and ORELEASE releases a claimed one, at its contents of that moment; a fill of a claimed slot is handed on with its
base, its stride and the claim it is for; MSTAT is handed on for a selector within the declared counts. -/
def Obligations.OperandSlots : Prop :=
  ∀ (n : BitVec 5) (f which : BitVec 6) (d a b : Reg) (sp : Space) (half sat inf uns : Bool) (prec : BitVec 3) (code : BitVec 4) (gd : Guard),
    let i := Instr.oclaim n gd
    let r := Instr.orelease n gd
    let o := Instr.oload f a b sp gd
    let c := Instr.mconv f a b half sat inf uns prec code gd
    let t := Instr.mstat d which gd
    let slots := fun (i : Instr) (w g : Nat) (s : State) => ((Says.begun i w g s).block w).slots
    let base := fun (i : Instr) (sp : Space) (w g : Nat) (s : State) => let y := Says.reads w g s
      let l := lowLaneD (Says.eff i w g s)
      if sp = .glob then (y.pair a.toNat l).toNat else (y.reg a.toNat l).toNat
    let stride := fun (i : Instr) (w g : Nat) (s : State) => ((Says.reads w g s).reg b.toNat (lowLaneD (Says.eff i w g s))).toNat
    let fills := fun (i : Instr) (sp : Space) (slot align len : Nat) (bad : Bool) (w g : Nat) (s : State) => Says.Free i w g s ∧ bad = false ∧ slot < slots i w g s ∧
      ((Says.begun i w g s).oslot w slot).claimed = true ∧ base i sp w g s % align = 0 ∧ stride i w g s % align = 0 ∧
      rowsTrap (Says.begun i w g s) w sp (base i sp w g s) (stride i w g s) len = none
    let half_ := f.toNat + half.toNat
    let claim := fun (i : Instr) (slot w g : Nat) (s : State) => ((Says.begun i w g s).oslot w slot).claimId
    Says.Ends i (fun w g s => Says.Free i w g s ∧ n.toNat < slots i w g s) (fun _ _ _ => 0)
      (fun w _ _ m => m.modSlot w n.toNat fun x => if x.claimed then x else { x with claimed := true, claimId := m.nextCmd }) ∧
    Says.Ends r (fun w g s => Says.Free r w g s ∧ n.toNat < slots r w g s ∧ ((Says.begun r w g s).oslot w n.toNat).claimed = true) (fun _ _ _ => 0)
      (fun w _ _ m => m.modSlot w n.toNat fun x => { x with claimed := false, rel := x.bytes, relId := m.nextCmd }) ∧
    Says.Hands o 4 (fills o sp f.toNat 32 128 false) (fun w g s => .oload f.toNat sp (base o sp w g s) (stride o w g s) (claim o f.toNat w g s)) (fun _ _ _ => false) ∧
    Says.Hands c 4 (fills c .scr half_ 4 (if 3 ≤ code.toNat then 256 else 512) (badOperand code.toNat ⟨prec.toNat, uns, inf⟩))
      (fun w g s => .mconv f.toNat half sat inf uns prec.toNat code.toNat (base c .scr w g s) (stride c w g s) (claim c half_ w g s)) (fun _ _ _ => false) ∧
    Says.Hands t 4 (fun w g s => Says.Free t w g s ∧ (which.toNat < 16 → which.toNat < ((Says.begun t w g s).block w).tiles) ∧
      (32 ≤ which.toNat → which.toNat - 32 < slots t w g s)) (fun w g s => .mstat d which.toNat (Says.eff t w g s)) (fun _ _ _ => false)

/-- R231, R233: a group whose lanes agree signs once: its group joins the register's signers with the fills it has pending; the last signer submits the pass where the
cluster's table has room, and stands held where it has none.
Readings and choices of the model used (no rules of the spec): log 62. -/
def Obligations.Signatures : Prop :=
  ∀ (k : BitVec 3) (a b : Reg) (st : BitVec 2), let i := Instr.msign k a b st
    let word := fun (w g : Nat) (s : State) => (Says.reads w g s).reg b.toNat (lowLaneD (Says.act i w g s))
    let conv := fun (w g : Nat) (s : State) => convOf (Says.begun i w g s) w k.toNat
    let fmt := fun (w g : Nat) (s : State) => match conv w g s with | some e => e.fmt | none => (Says.reads w g s).reg a.toNat (lowLaneD (Says.act i w g s))
    let after := fun (w g : Nat) (s : State) => let e := (conv w g s).getD ⟨word w g s, fmt w g s, [], []⟩
      ({ e with signed := e.signed ++ [g], waits := e.waits ++ signWaits (Says.begun i w g s) (Says.iss i w g s) (word w g s) (fmt w g s) } : Conv)
    let ok := fun (w g : Nat) (s : State) => bits (word w g s) 14 2 = 0 ∧ signSet (Says.begun i w g s) (Says.iss i w g s) (word w g s) (conv w g s) = none ∧
      (∀ l, l < 32 → (Says.act i w g s).getLsbD l = true → (Says.reads w g s).reg a.toNat l = fmt w g s) ∧ formatInvalid (fmt w g s) = false ∧
      mapTrap (Says.begun i w g s) (Says.iss i w g s) (word w g s) (fmt w g s) (conv w g s).isNone = none ∧
      (∀ l ∈ lanesOf (Says.act i w g s), regionOf s.m w g l = none) ∧ (Says.reads w g s).trapMode = none
    let last := fun (w g : Nat) (s : State) => ∀ h ∈ signersOf (word w g s), h ∈ (after w g s).signed
    let signs := fun (w g : Nat) (s : State) (m : Mach) => flushAll (m.wg w).core (m.modW w fun z => { z with convs := Store.put z.convs k.toNat (after w g s) })
    let room := fun (w g : Nat) (s : State) => tableRoom (Says.begun i w g s) w
    Says.Ends i (fun w g s => ok w g s ∧ ¬ last w g s) (fun _ _ _ => 0) signs ∧
    Says.Ends i (fun w g s => ok w g s ∧ last w g s ∧ room w g s = true) (fun _ _ _ => 0) (fun w g s m => submitPass w g k.toNat (signs w g s m)) ∧
    Says.Places i (fun w g s => ok w g s ∧ last w g s ∧ room w g s = false)
      (fun w g s m => dropSlot w g ((signs w g s m).modG w g fun y => { y with held := some (.msign k.toNat), gaveUp := m.cycle }))

/-- R236, R239, R240: with the token, TZERO leaves a tile's elements zero and its status clear but for the count, TREL drops the binding besides, TST writes the elements its lanes name, the
highest lane last, and TLD hands on the elements read; TACQ needs no token; without it the others are TOKEN_ABSENT, and beyond the declared count all are
TILE_INDEX.
Readings and choices of the model used (no rules of the spec): log 65. -/
def Obligations.Tiles : Prop :=
  ∀ (d a : Reg) (t : BitVec 4) (gd : Guard),
    let q := Instr.tacq d t gd
    let r := Instr.trel t gd
    let z := Instr.tzero t gd
    let l := Instr.tld d a t gd
    let p := Instr.tst d a t gd
    let inside := fun (i : Instr) (w g : Nat) (s : State) => t.toNat < ((Says.begun i w g s).block w).tiles
    let own := fun (i : Instr) (w g : Nat) (s : State) => Says.Free i w g s ∧ inside i w g s ∧ ((Says.begun i w g s).tile w t.toNat).atEngine = false
    let elem := fun (w g : Nat) (s : State) (l : Nat) => ((Says.reads w g s).reg a.toNat l).toNat % 4096
    Says.Hands q 4 (fun w g s => Says.Free q w g s ∧ inside q w g s) (fun w g s => .tacq d t.toNat (Says.eff q w g s)) (fun _ _ _ => false) ∧
    Says.Ends r (own r) (fun _ _ _ => 0) (fun w _ _ m => m.modTile w t.toNat fun e =>
      { e with elems := [], inUse := false, dirty := false, int := false, overflow := false, invalid := false, bound := none }) ∧
    Says.Ends z (own z) (fun _ _ _ => 0) (fun w _ _ m => m.modTile w t.toNat fun e =>
      { e with elems := [], inUse := false, dirty := false, int := false, overflow := false, invalid := false }) ∧
    Says.Hands l 4 (own l) (fun w g s => .tld ((lanesOf (Says.eff l w g s)).map fun x =>
      .reg d.toNat x (Store.get 0 ((Says.begun l w g s).tile w t.toNat).elems (elem w g s x)))) (fun _ _ _ => false) ∧
    Says.Ends p (own p) (fun _ _ _ => 0) (fun w g s m => m.modTile w t.toNat fun e => { e with
      elems := (lanesOf (Says.eff p w g s)).foldl (fun acc x => Store.set 0 acc (elem w g s x) ((Says.reads w g s).reg d.toNat x)) e.elems, inUse := true, dirty := true }) ∧
    (∀ i ∈ [r, z, l, p], ∀ w g s, Says.Ready i w g s → Says.eff i w g s ≠ 0 → inside i w g s → ((Says.begun i w g s).tile w t.toNat).atEngine = true →
      Says.Traps i w g s .tokenAbsent (freeInfo (Says.begun i w g s)) (Says.eff i w g s) 0) ∧
    (∀ i ∈ [q, r, z, l, p], ∀ w g s, Says.Ready i w g s → Says.eff i w g s ≠ 0 → ¬ inside i w g s →
      Says.Traps i w g s .tileIndex (freeInfo (Says.begun i w g s)) (Says.eff i w g s) 0)

/-- R242 to R244: TDRAIN of a tile within the declared count, to rows that are aligned and inside their space, is handed on with its base and stride and moves 512 sectors where they are
not in scratchpad; it reads its tile as soon as no earlier pass is to retire on it; a bad base, stride or tile traps.
Readings and choices of the model used (no rules of the spec): log 71. -/
def Obligations.Drains : Prop :=
  ∀ (t : BitVec 6) (a b : Reg) (clr add : Bool) (sp : Space) (gd : Guard), let i := Instr.tdrain t a b clr add sp gd
    let dst := fun (w g : Nat) (s : State) => let y := Says.reads w g s
      let l := lowLaneD (Says.eff i w g s)
      if sp = .glob then (y.pair a.toNat l).toNat else (y.reg a.toNat l).toNat
    let stride := fun (w g : Nat) (s : State) => ((Says.reads w g s).reg b.toNat (lowLaneD (Says.eff i w g s))).toNat
    let inside := fun (w g : Nat) (s : State) => t.toNat < 16 ∧ t.toNat < ((Says.begun i w g s).block w).tiles
    let shaped := fun (w g : Nat) (s : State) => dst w g s % 32 = 0 ∧ stride w g s % 32 = 0 ∧ 256 ≤ stride w g s
    let sh := fun (w g : Nat) (s : State) => drainShared (Says.begun i w g s) w sp (dst w g s) (stride w g s)
    let traps := fun (w g : Nat) (s : State) (c : Cause) => Says.Traps i w g s c (freeInfo (Says.begun i w g s)) (Says.eff i w g s) 0
    Says.Ends i (fun w g s => Says.Free i w g s ∧ inside w g s ∧ shaped w g s ∧ rowsTrap (Says.begun i w g s) w sp (dst w g s) (stride w g s) 256 = none ∧
        (sp = .scr → ∀ k, k < 64 → meetsHidden ((Says.begun i w g s).wg w).shadows false (dst w g s + k * stride w g s) 256 = false) ∧
        (sh w g s = true → turnEnded (Says.begun i w g s) w = false ∧ turnFull (Says.begun i w g s) w 1 = false) ∧
        drainRefusal (Says.begun i w g s) w sp (dst w g s) (stride w g s) = none)
      (fun _ _ _ => if sp = .scr then 0 else 512)
      (fun w g s m => captureDrains w t.toNat (Says.handed i w g 4 (.tdrain t.toNat clr add sp (dst w g s) (stride w g s) none 0) (sh w g s) s m)) ∧
    (∀ w g s, Says.Ready i w g s → Says.eff i w g s ≠ 0 → (¬ inside w g s → traps w g s .tileIndex) ∧ (inside w g s → ¬ shaped w g s → traps w g s .drainTarget))

/-- R266, R268: a collection instruction with no trap of R268 and room in the queues of its engine lanes hands on one command, and one of each lane that takes effect enters the
queue of the engine lane that R266 names, with the operands of its lane; a lane whose engine is not yet known, or whose turn has not come, waits outside the queues (log 107).
Readings and choices of the model used (no rules of the spec): log 69, 71, 107. -/
def Obligations.CollectionCommands : Prop :=
  ∀ (d a b : Reg) (which : BitVec 2) (cnt : BitVec 5) (eng : BitVec 4) (i32 keepz : Bool) (gd : Guard),
    let lane := fun (i : Instr) (op : CollOp) (arg : Group → Nat → DWord × BitVec 128 × BitVec 128) (w g : Nat) (s : State) (sh : Bool) (l : Nat) =>
      let m := Says.begun i w g s
      let r := arg (Says.reads w g s) l
      let route := if sh = true ∧ holdsTurn m w = false then unrouted else (routeNow m w g s.m.nextCmd op r.1).getD unrouted
      (⟨l, r.1, r.2.1, r.2.2, route, if isDet m w then spansDenied m w (collSpans m w op r.1) else none, false⟩ : CollLane)
    let sh := fun (i : Instr) (op : CollOp) (arg : Group → Nat → DWord × BitVec 128 × BitVec 128) (w g : Nat) (s : State) => let m := Says.begun i w g s
      isDet m w && ((lanesOf (Says.eff i w g s)).map fun l => (arg (Says.reads w g s) l).1).any fun hdr => (collSpans m w op hdr).any fun r => !(ownedBySelf m w false r.1 r.2)
    let args := fun (i : Instr) (op : CollOp) (arg : Group → Nat → DWord × BitVec 128 × BitVec 128) (w g : Nat) (s : State) =>
      (lanesOf (Says.eff i w g s)).map (lane i op arg w g s (sh i op arg w g s))
    let hands := fun (i : Instr) (op : CollOp) (d a : Reg) (arg : Group → Nat → DWord × BitVec 128 × BitVec 128) (cost : List CollLane → Nat) =>
      Says.Ends i (fun w g s => let as := args i op arg w g s
          Says.Free i w g s ∧ collTraps op as (Says.iss i w g s) (Says.begun i w g s) = none ∧ lanesRoom (Says.begun i w g s) (collNeeds as) = true ∧
            (sh i op arg w g s = true → turnFull (Says.begun i w g s) w as.length = false))
        (fun w g s => cost (args i op arg w g s))
        (fun w g s m => let as := args i op arg w g s
          queueColl w g ⟨m.nextCmd, 5, (Says.iss i w g s).rec_, .none, none, [], [], sh i op arg w g s, 0, serialInterval (Says.reads w g s)⟩ op
            (as.filter fun e => decide (e.route ≠ unrouted)) (Says.handed i w g 5 (.coll op d a as (as.map (·.lane)) []) (sh i op arg w g s) s m))
    let elem := fun (y : Group) (l : Nat) => (y.pair b.toNat l, y.quad a.toNat l, (0 : BitVec 128))
    let head := fun (r : Reg) (y : Group) (l : Nat) => (y.pair r.toNat l, (0 : BitVec 128), (0 : BitVec 128))
    let word := fun (y : Group) (l : Nat) => ((y.reg a.toNat l).setWidth 64, (0 : BitVec 128), (0 : BitVec 128))
    hands (.cins d a b gd) .ins d a elem (fun _ => 1) ∧
    hands (.crem d a b gd) .rem d a elem (fun _ => 1) ∧
    hands (.cmove d a b gd) .move d a (fun y l => (y.pair b.toNat l, y.quad a.toNat l, y.quad d.toNat l)) (fun _ => 2) ∧
    hands (.copen d a b gd) .open_ d a elem (fun _ => 1) ∧
    hands (.cnext d a gd) .next d a word (fun _ => 1) ∧
    hands (.cclose a gd) .close a a word (fun _ => 0) ∧
    hands (.ccount d which b gd) (.count which.toNat) d b (head b) (fun _ => 1) ∧
    hands (.cfreeze d b gd) .freeze d b (head b) (fun _ => 8) ∧
    hands (.cthaw d b gd) .thaw d b (head b) (fun _ => 8) ∧
    hands (.cnbr d a cnt gd) (.nbr cnt.toNat) d a (head a) (fun _ => 16) ∧
    hands (.cmrg d a b i32 keepz gd) (.mrg i32 keepz) d a (fun y l => (y.pair a.toNat l, 0, (y.pair b.toNat l).setWidth 128)) mergeCost ∧
    hands (.cinit d a eng gd) (.init eng.toNat) d a (head a) (fun _ => 8) ∧
    hands (.cinitRel d a gd) .release d a (head a) (fun _ => 8)

/-- R295, R296, R297: KTRAV and KTRAV.resume hand their traversal to the Knight of the cluster, with the descriptor in the lowest lane and the block's record queue, for 16 sectors; a
descriptor that is not aligned or a block without a record queue is KNIGHT_NODE; KSTAT's result, what waits and runs, is of the KT class.
Readings and choices of the model used (no rules of the spec): log 13, 74. -/
def Obligations.KnightCommands : Prop :=
  ∀ (d a : Reg) (self : Bool) (which : BitVec 1) (gd : Guard),
    let desc := fun (i : Instr) (w g : Nat) (s : State) => (Says.reads w g s).pair a.toNat (lowLaneD (Says.eff i w g s))
    let queue := fun (i : Instr) (w g : Nat) (s : State) => ((Says.begun i w g s).block w).recordQueue
    let good := fun (i : Instr) (w g : Nat) (s : State) => (desc i w g s).toNat % 128 = 0 ∧ (desc i w g s).toNat < 2 ^ 52 ∧ queue i w g s ≠ 0
    let hands := fun (i : Instr) (resume : Bool) =>
      let spans := fun (w g : Nat) (s : State) => let m := Says.begun i w g s
        kSpans m w (desc i w g s) (queue i w g s)
      let sh := fun (w g : Nat) (s : State) => isDet (Says.begun i w g s) w && (spans w g s).any fun r => !(ownedBySelf (Says.begun i w g s) w false r.1 r.2)
      Says.Ends i (fun w g s => let m := Says.begun i w g s
          Says.Free i w g s ∧ good i w g s ∧ (∀ r ∈ spans w g s, engineLate m w false r.1 r.2 = false) ∧
            ((sh w g s = true ∧ holdsTurn m w = false) ∨ kWaiting m (clusterOfCore (m.wg w).core) < 16) ∧ (sh w g s = true → turnFull m w 1 = false))
        (fun _ _ _ => 16)
        (fun w g s m => queueKnight ⟨w, g, m.nextCmd, (m.wg w).part, (m.wg w).ctx, desc i w g s, queue i w g s, self, resume, sh w g s,
            if isDet m w then spansDenied m w (spans w g s) else none, false, 0⟩ (m.wg w).core
          (Says.handed i w g 6 (.ktrav d (Says.eff i w g s) (desc i w g s) (queue i w g s) self resume 0 []) (sh w g s) s m))
    hands (.ktrav d a self gd) false ∧ hands (.ktravResume d a self gd) true ∧
    (∀ i ∈ [Instr.ktrav d a self gd, Instr.ktravResume d a self gd], ∀ w g s, Says.Ready i w g s → Says.eff i w g s ≠ 0 → ¬ good i w g s →
      Says.Traps i w g s .knightNode (infoLow (Says.begun i w g s) 0xFFFFFFFF) (Says.eff i w g s) 0) ∧
    let k := Instr.kstat d which gd
    Says.Hands k 6 (Says.Free k) (fun w g s => .cmd (.land ((lanesOf (Says.eff k w g s)).map fun l => .reg d.toNat l (kStatus (Says.begun k w g s) w g which))) (some d) (Says.eff k w g s))
      (fun _ _ _ => false)

/-! ## The steps of the table -/

/-- R190, R193, R195, R196, R300, R307, R331: THE FRAME OF ACCESSES.  A command whose step comes is performed when nothing must come before it, lanes in ascending order, or found faulting and
then held with no effect.  A lane's store writes exactly its bytes at the place its address is translated to, and every other byte of memory reads as before; a lane's load changes no
byte, and returns for each byte the youngest older store the group may see, else its write-combining line, else its home; an atomic writes what its operation gives and returns the
old value; a scratchpad load lands the words read when the scratchpad pass performed it, or is found faulting then and held with no effect.
Readings and choices of the model used (no rules of the spec): log 6, 7, 12, 15, 38, 40, 43, 97, 98, 101, 117. -/
def Obligations.AccessesPerformed : Prop :=
  ∀ (w g id : Nat) (o : Out),
    let found := fun (m : Mach) => (m.wg w).status ≠ .saved ∧ findOut m w g id = some o ∧ (o.shared = true → holdsTurn m w = true)
    let now := fun (m : Mach) => found m ∧ accFault m w o = none ∧ mayPerform m ⟨w, g, o⟩ = true
    let core := fun (m : Mach) => (m.wg w).core
    let place := fun (m : Mach) (a : LaneAcc) => accPlace m w o.kind a
    let ready := fun (m : Mach) => let t := touchLanes w o m
      if hasRel (actsOrder t ⟨w, g, o⟩).1 then flushAll (core t) t else t
    let lands := fun (r : List LaneWrite × Mach) (m : Mach) => settleCmds (orderDone (core m) (actsOrder m ⟨w, g, o⟩) (landOut w g id r.1 r.2))
    let fails := fun (i : Instr) => ∀ f, Says.Acts i (fun m => found m ∧ accFault m w o = some f) (fun m => settleCmds (failOut w g id f m))
    (∀ sp n ord sc lanes, o.kind = .store sp n ord sc lanes →
      Says.Acts (.storeAccepted w g id) now (fun m => lands ([], lanes.foldl (fun acc a => storeLane w g o n a acc) (ready m)) m) ∧
      fails (.storeAccepted w g id) ∧
      ∀ m a pl, place m a = .ok pl → let t := storeLane w g o n a m
        let holds := fun (old new : Memory) => Memory.wf old = true →
          Memory.wf new = true ∧ ∀ k, Memory.read new k = if pl.key ≤ k ∧ k < pl.key + n then BitVec.ofNat 8 (a.val.toNat / 2 ^ (8 * (k - pl.key))) else Memory.read old k
        t.scratch = m.scratch ∧ t.wgs = m.wgs ∧
        (pl.vault = true → t.hbm = m.hbm ∧ holds m.vault t.vault) ∧
        (pl.vault = false → t.vault = m.vault) ∧
        (pl.vault = false → pl.typ ≠ 1 → paTarget pl.key ≠ 2 → holds m.hbm t.hbm) ∧
        (pl.vault = false → pl.typ ≠ 1 → paTarget pl.key = 2 → t.hbm = m.hbm ∧ t.hostOut = m.hostOut ++ [(0, .window (fld pl.key 0 50) (leBytes n a.val.toNat))]) ∧
        (pl.vault = false → pl.typ = 1 → (∀ k, k < n → (Store.get [] (m.core (core m)).combine ((pl.key + k) / 128)).length + n < 128) → t.hbm = m.hbm ∧
          ∀ k, combined t (core m) k = if pl.key ≤ k ∧ k < pl.key + n then some (BitVec.ofNat 8 (a.val.toNat / 2 ^ (8 * (k - pl.key)))) else combined m (core m) k)) ∧
    (∀ sp n sext dst ord sc lanes, o.kind = .load sp n sext dst ord sc lanes →
      Says.Acts (.loadLanding w g id) now (fun m => lands (lanes.foldl (fun r a => loadLane w g o n sext dst (decide (ord = .rlx)) a r) ([], ready m)) m) ∧
      fails (.loadLanding w g id) ∧
      ∀ (m : Mach) (a : LaneAcc) (cached : Bool) ws pl, place m a = .ok pl → let t := loadLane w g o n sext dst cached a (ws, m)
        t.2.hbm = m.hbm ∧ t.2.vault = m.vault ∧ t.2.scratch = m.scratch ∧ t.2.wgs = m.wgs ∧
        (a.region = none → paTarget pl.key ≠ 2 → (pl.vault = true ∨ cached = false ∨ pl.typ ≠ 0 ∨ Store.get [] (m.core (core m)).cache (pl.key / 32) = []) →
          t.1 = ws ++ loadWrites n sext dst a.lane ((List.range n).map fun k =>
            match forwarded m (visibleOuts m (core m) w g) o.id pl.vault (pl.key + k), pl.vault with
            | some b, _ => b
            | none, true => Memory.read m.vault (pl.key + k)
            | none, false => (combined m (core m) (pl.key + k)).getD (Memory.read m.hbm (pl.key + k))))) ∧
    (∀ op n dst ord sc cm lanes, o.kind = .rmw op n dst ord sc cm lanes →
      let i : Instr := match dst with | some _ => .loadLanding w g id | none => .storeAccepted w g id
      Says.Acts i now (fun m => lands (lanes.foldl (fun r a => rmwLane w g o op n dst a r) ([], ready m)) m) ∧
      fails i ∧
      ∀ (m : Mach) (a : LaneAcc) ws pl, place m a = .ok pl → paTarget pl.key ≠ 2 → let t := rmwLane w g o op n dst a (ws, m)
        let old := leNat (Memory.readN m.hbm pl.key n)
        t.1 = ws ++ (match dst with | some d => regWritesOf d.toNat (n / 4) a.lane old | none => []) ∧ t.2.vault = m.vault ∧ t.2.scratch = m.scratch ∧
        (Memory.wf m.hbm = true → Memory.wf t.2.hbm = true ∧ ∀ k, Memory.read t.2.hbm k =
          match rmwValue op n a old with
          | some v => if pl.key ≤ k ∧ k < pl.key + n then BitVec.ofNat 8 (v / 2 ^ (8 * (k - pl.key))) else Memory.read m.hbm k
          | none => Memory.read m.hbm k)) ∧
    (∀ n dst ws lanes, o.kind = .loadScratch n dst (some ws) lanes → Says.Acts (.scratchLoadLanding w g id) (fun m => findOut m w g id = some o) (landOut w g id ws)) ∧
    (∀ n dst lanes, o.kind = .loadScratch n dst none lanes →
      let pass := fun (m : Mach) => (m.wg w).status ≠ .saved ∧ findOut m w g id = some o ∧ scratchMay m w g o = true
      let ws := fun (m : Mach) => scratchVals m w n dst (lanes.map fun a => (a.lane, a.addr))
      Says.Acts (.scratchLoadLanding w g id) (fun m => pass m ∧ scratchFaulty m w o.kind = [])
        (fun m => landOut w g id (ws m) (setOut w g id (.loadScratch n dst (some (ws m)) lanes) m)) ∧
      ∀ f fs, Says.Acts (.scratchLoadLanding w g id) (fun m => pass m ∧ scratchFaulty m w o.kind = f :: fs)
        (fun m => failOut w g id ⟨.uncorrectable, maskOf ((f :: fs).map (·.lane)), BitVec.ofNat 64 f.addr, freeInfo m⟩ m)) ∧
    (∀ (ws : List LaneWrite) (m : Mach), let t := landOut w g id ws m
      t.hbm = m.hbm ∧ t.vault = m.vault ∧ t.scratch = m.scratch ∧ (t.grp w g).outs = (m.grp w g).outs.filter fun e => decide (e.id ≠ id))

/-- R65 to R67, R71, R75, R76, R97, R98, R100, R133, R158, R185, R187, R190, R304, R322, R336, R346, R371: the steps of a core where each has its effect.  A group's next clause is fetched,
passes its checks in their order or traps; a free slot takes a ready group that no other ready group is ranked before, which goes on with its run or starts one at its best
entry; a group at its wait point takes the deferred fault that is due, or goes on; results that are due land and change no value that is to come; special functions, fences, word
waits, commits, page walks, retries, grants, and what ends them.
Readings and choices of the model used (no rules of the spec): log 2, 6, 7, 11, 14, 16, 26, 29, 30, 40, 77, 98, 102, 103, 104, 108, 118. -/
def Obligations.CoreSteps : Prop :=
  ∀ (w g : Nat),
    (∀ (r : Run) (ws : List Word),
      let n := clauseTouch w r
      let here := fun (m : Mach) => (m.grp w g).run = some r ∧ wgActive (m.wg w) = true ∧ r.fetched = false ∧ (slotOf m w g).isSome = true ∧ clauseWaits m w r = false
      let word := fun (m : Mach) => fetchWord (n m) (wgSite (n m) w) ((n m).wg w).part ((n m).wg w).ctx r.hdrAddr.toNat
      let words := fun (h : Word) (m : Mach) => fetchWords (n m) (wgSite (n m) w) ((n m).wg w).part ((n m).wg w).ctx (r.hdrAddr.toNat + 4) (bits h 28 4).toNat
      let a := r.hdrAddr
      let ls := fun (m : Mach) (va : DWord) => BitVec.ofNat 64 ((r.lanes &&& (m.grp w g).live).toNat + 2 ^ 32 * (va.toNat % 2 ^ 32))
      let ready := fun (h : Word) (m : Mach) => here m ∧ word m = .ok h ∧ (bits h 0 4).toNat = 0xA ∧ (bits h 28 4).toNat ≠ 0 ∧ (bits h 24 3).toNat < 6 ∧ bits h 4 3 = 0 ∧
        r.count + (bits h 28 4).toNat ≤ 24
      let stands := fun (h : Word) => ({ r with hdr := h, pc := a + 4, rest := ws, count := r.count + (bits h 28 4).toNat, fetched := true, waiting := false } : Run)
      let waits := fun (h : Word) (m : Mach) => waitMask (n m) w g (stands h)
      let passes := fun (h : Word) (m : Mach) => ready h m ∧ words h m = .ok ws ∧ wordsCheck h ws = none
      (∀ e, Says.Acts (.clauseFetch w g) (fun m => here m ∧ word m = .error e) (fun m => fetchTrap w g e a 0 0 a (ls (n m) a) (n m))) ∧
      (∀ h, (bits h 0 4).toNat ≠ 0xA ∨ bits h 28 4 = 0 ∨ 6 ≤ (bits h 24 3).toNat →
        Says.Acts (.clauseFetch w g) (fun m => here m ∧ word m = .ok h) (fun m => fetchTrap w g .illegalHeader a h 0 0 (infoLow (n m) h) (n m))) ∧
      (∀ h e va, Says.Acts (.clauseFetch w g) (fun m => ready h m ∧ words h m = .error (e, va))
        (fun m => fetchTrap w g e a 0 0 (BitVec.ofNat 64 va) (ls (n m) (BitVec.ofNat 64 va)) (n m))) ∧
      (∀ h j v c, Says.Acts (.clauseFetch w g) (fun m => ready h m ∧ words h m = .ok ws ∧ wordsCheck h ws = some (j, v, c))
        (fun m => fetchTrap w g c (a + BitVec.ofNat 64 (4 + 4 * j)) v (if opLiteral (fOp v) then ws.getD (j + 1) 0 else 0) 0 (infoLow (n m) v) (n m))) ∧
      (∀ h, Says.Acts (.clauseFetch w g) (fun m => passes h m ∧ waits h m = 0) (fun m => (n m).modG w g fun y => { y with run := some (stands h) })) ∧
      (∀ h, Says.Acts (.clauseFetch w g) (fun m => passes h m ∧ waits h m ≠ 0 ∧ ∀ o ∈ ((n m).grp w g).outs, (waits h m).getLsbD o.cls = false)
        (fun m => (n m).modG w g fun y => { y with run := some { stands h with waiting := true }, stood := (n m).cycle })) ∧
      (∀ h, Says.Acts (.clauseFetch w g) (fun m => passes h m ∧ waits h m ≠ 0 ∧ countsZero (n m) w g (waits h m) = false)
        (fun m => dropSlot w g (((n m).modG w g fun y => { y with run := some { stands h with waiting := true }, stood := (n m).cycle }).modG w g fun y =>
          { y with gaveUp := (n m).cycle })))) ∧
    (∀ core slot, slot < 2 → let free := fun (m : Mach) => (Store.get none (m.core core).slots slot : Option (Nat × Nat)) = none ∧ bestGroup m slot (readyGroups m core) = some (w, g)
      let seat := fun (m : Mach) => clearYields core slot { (m.modK core fun c => { idleUntil m slot c with slots := Store.put c.slots slot (some (w, g)) }) with cur := some (w, g) }
      let starts := fun (e : Entry) (m : Mach) => ({ (m.modG w g fun y => { y with
          frontier := leaveEntry y.frontier e.addr e.lanes
          run := some { lanes := e.lanes, hdrAddr := e.addr, hdr := 0, pc := e.addr, rest := [], count := 0, fetched := false, waiting := false, moves := [], started := 0,
                        born := m.nextCmd, noMatch := false, goes := false } }) with nextCmd := m.nextCmd + 1 } : Mach)
      let best := fun (e : Entry) (m : Mach) => free m ∧ (m.grp w g).run = none ∧ bestEntry (issuable m w g) = some e
      (∀ m e es, bestGroup m slot es = some e → e ∈ es ∧ ∀ f ∈ es, rankBefore (slotRank m slot f.1 f.2) (slotRank m slot e.1 e.2) = false) ∧
      Says.Acts (.issueSlotGrant core slot) (fun m => free m ∧ (m.grp w g).run ≠ none) seat ∧
      (∀ e, Says.Acts (.issueSlotGrant core slot) (fun m => best e m ∧ breakMatches m w (m.grp w g) e = false) (fun m => seat (starts e m)) ∧
        Says.Acts (.issueSlotGrant core slot) (fun m => best e m ∧ breakMatches m w (m.grp w g) e = true) (fun m => clearYields core slot (haltAtBreak w (starts e m))))) ∧
    (∀ r, let at_ := fun (m : Mach) => wgActive ((settleCmds m).wg w) = true ∧ ((settleCmds m).grp w g).held = none ∧ ((settleCmds m).grp w g).exiting = none ∧
        ((settleCmds m).grp w g).run = some r ∧ r.waiting = true
      let k := fun (m : Mach) => waitMask (settleCmds m) w g r
      (∀ d, Says.Acts (.waitPointRelease w g) (fun m => at_ m ∧ dueFault ((settleCmds m).grp w g) (k m) = some d)
        (fun m => let n := settleCmds m
          enterTrap w g ⟨d.1.irec, d.2, d.1.cls, r.hdrAddr, r.lanes &&& (n.grp w g).live, .wait, some d.1.id⟩ n)) ∧
      Says.Acts (.waitPointRelease w g) (fun m => at_ m ∧ dueFault ((settleCmds m).grp w g) (k m) = none ∧ mayPass ((settleCmds m).wg w) ((settleCmds m).grp w g) = true ∧
          (∀ o ∈ ((settleCmds m).grp w g).outs, (k m).getLsbD o.cls = false) ∧ abortedOf (settleCmds m) w g r.lanes = [] ∧ r.lanes &&& ((settleCmds m).grp w g).live ≠ 0)
        (fun m => (settleCmds m).modG w g fun y => { y with run := some { r with waiting := false } })) ∧
    (Says.Acts (.resultWriteback w g) (fun _ => True) (fun m => m.modG w g fun y => y.landDue m.cycle) ∧
      ∀ (y : Group) n, (∀ p ∈ (y.landDue n).pend, n < p.due) ∧ (∀ r l, (y.landDue n).landEvery.reg r l = y.landEvery.reg r l) ∧ (∀ p l, (y.landDue n).landEvery.pred p l = y.landEvery.pred p l) ∧
        ∀ l, Store.get 0 (y.landDue n).landEvery.fpflags l = Store.get 0 y.landEvery.fpflags l) ∧
    (∀ id o, let found := fun (m : Mach) => findOut m w g id = some o
      let now := fun (m : Mach) => found m ∧ (m.wg w).status ≠ .saved ∧ (o.shared = true → holdsTurn m w = true) ∧ accFault m w o = none ∧ mayPerform m ⟨w, g, o⟩ = true
      (∀ ws conds, o.kind = .sfu ws 0 conds → Says.Acts (.sfuResultLanding w g id) found (landOut w g id ws)) ∧
      (∀ ws exc conds, o.kind = .sfu ws exc conds → exc ≠ 0 → Says.Acts (.sfuResultLanding w g id) found
        (failOut w g id ⟨.fpException, exc, 0, BitVec.ofNat 64 (exc.toNat + 2 ^ 32 * conds)⟩)) ∧
      (∀ ord sc ls acqd, o.kind = .fence ord sc ls acqd →
        let waits := fun (k : Order) (m : Mach) => (m.grp w g).outs.any (fenceWaits m w g o k sc)
        let acquired := fun (m : Mach) => if hasAcq ord = true ∧ acqd = false ∧ waits .acq m = false then acquireAt (m.wg w).core sc (setOut w g id (.fence ord sc ls true) m) else m
        Says.Acts (.fenceComplete w g id) (fun m => found m ∧ waits ord m = false) (fun m => settleCmds (landOut w g id [] (flushAll (m.wg w).core (acquired m)))) ∧
        Says.Acts (.fenceComplete w g id) (fun m => found m ∧ waits ord m = true) (fun m => settleCmds (acquired m))) ∧
      (∀ n dst sc lanes, o.kind = .waitw n dst sc lanes →
        let seen := fun (m : Mach) => lanes.foldl (fun acc a => match placeOf acc ⟨w, g, o⟩ a with | some pl => refreshCache (acc.wg w).core pl acc | none => acc) (touchLanes w o m)
        let reads := fun (m : Mach) => lanes.map (waitwLane m ⟨w, g, o⟩ n)
        Says.Acts (.waitwReturn w g id) (fun m => now m ∧ ∀ a ∈ reads m, a.region.isSome = true)
          (fun m => settleCmds (landOut w g id ((reads m).flatMap fun a => loadWrites n false dst a.lane (match a.region with | some (_, es) => es.map (·.2) | none => [])) (seen m))) ∧
        Says.Acts (.waitwReturn w g id) (fun m => now m ∧ ∃ a ∈ reads m, a.region = none) (fun m => settleCmds (setOut w g id (.waitw n dst sc (reads m)) (seen m)))) ∧
      (∀ m a pl, a.region = none → placeOf m ⟨w, g, o⟩ a = some pl →
        let n := kindBytes o.kind
        let seen := (List.range n).map fun k => (combined m (m.wg w).core (pl.key + k)).getD ((readPa m pl.key n).getD k 0)
        waitwLane m ⟨w, g, o⟩ n a = if leNat seen = a.cmp.toNat then a else { a with region := some (.plain, (List.range n).map fun k => (k, seen.getD k 0)) }) ∧
      (∀ l q, let asked := fun (m : Mach) => anyRegion m w g l = some q ∧
          ((m.grp w g).outs.find? fun o => o.fail.isNone && match o.kind with | .gcommit ls => ls.getLsbD l | _ => false) = some o
        let settled := fun (m : Mach) => m.modG w g fun y => { y with outs := y.outs.filterMap (dropLane l) }
        let won := fun (m : Mach) => (regionLines m q).foldl (fun acc k => (lockers acc q k).foldl (fun acc r => abortYounger q r acc) acc) m
        let next := fun (m : Mach) => asked m ∧ q.aborted = none ∧ commitPending m q = true ∧ olderCommit m q = false ∧ commitWaits m q = false
        let decided := fun (p : Region) (m : Mach) => next m ∧ anyRegion (won m) w g l = some p ∧ p.aborted = none
        let kept := fun (p : Region) (m : Mach) => p.changed = true → p.plain = false ∧ ∀ c ∈ p.constrs, constrKept (won m) w c = true
        let stored := fun (p : Region) (m : Mach) => p.stores.foldl (fun acc e =>
          let v := match e.sym with | some (a, s, k) => if p.changed then freshInput m w a s k else e.val | none => e.val
          match regionPlace acc w e.addr .write with | .ok pa => writePa acc (some (m.wg w).core) (laneAgent w g l) pa (leBytes e.size v.toNat) | .error _ => acc) (flushAll (m.wg w).core m)
        Says.Acts (.gcommitGrant w g l) (fun m => asked m ∧ q.aborted.isSome = true) (fun m => settleCmds (settled m)) ∧
        ∀ p, Says.Acts (.gcommitGrant w g l) (fun m => decided p m ∧ kept p m ∧ commitFault (won m) p = none) (fun m =>
            let n := stored p (won m)
            settleCmds (orderDone ((won m).wg w).core (.ar, .device) (settled (({ n with regions := n.regions.filter fun r => !(r.isOf w g l) } : Mach).modG w g fun y =>
              { y with retries := Store.del y.retries l })))) ∧
          Says.Acts (.gcommitGrant w g l) (fun m => decided p m ∧ p.changed = true ∧ p.plain = true) (fun m => settleCmds (settled (markAbort w g l 1 0 (won m)))) ∧
          Says.Acts (.gcommitGrant w g l) (fun m => decided p m ∧ p.changed = true ∧ p.plain = false ∧ commitFault (won m) p = none ∧ ∃ c ∈ p.constrs, constrKept (won m) w c = false)
            (fun m => settleCmds (settled (markAbort w g l 2 0 (won m))))) ∧
      (∀ s : State, s.hw.running = true → (s.m.wg w).status ≠ .saved → found s.m → isRemote s.m ⟨w, g, o⟩ = true → mayPerform s.m ⟨w, g, o⟩ = true →
        ∃ f : Fail, f.cause = .uncorrectable ∧ exec (.remoteAccessTimeout w g id) s = .next { s with m := failOut w g id f s.m })) ∧
    (∀ core line, Says.Acts (.writeCombineFlush core line) (fun _ => True) (fun m =>
      (Store.get [] (m.core core).combine line).foldl (fun acc e => writePa acc (some core) none (line * 128 + e.1) [e.2])
        (m.modK core fun c => { c with combine := Store.del c.combine line, combineAt := Store.del c.combineAt line }))) ∧
    (∀ p c va k x, let cores := fun (m : Mach) => pageAskers m p c va
      Says.Acts (.pageWalkStart p c va) (fun m => va < 2 ^ 52 ∧ (m.part p).made = true) (fun m =>
        ((pageDies m p (cores m)).filter fun d => !((cores m).isEmpty && (tlbFind m (.die d) p c va).isSome)).foldl (fun acc d => askWalk p c va (cores m) d acc) m) ∧
      (∀ d m cs, let mine := cs.filter fun k => decide (dieOfCore k = d)
        ((walksOn m d).any fun k => k.isFor p c va) = false → (askWalk p c va cs d m).walks = m.walks ++ [⟨d, mine, p, c, va⟩]) ∧
      (∀ t, let served := fun (m : Mach) => m.walks[k]? = some x ∧ ((m.walks.take k).filter fun y => decide (y.die = x.die)).length < 96 ∧
          walkFailing m x.va 3 (m.ctx x.part x.ctx).desc.root.toNat = false
        let left := fun (m : Mach) => ({ m with walks := m.walks.eraseIdx k } : Mach)
        Says.Acts (.pageWalkComplete k) (fun m => served m ∧ walk m x.part x.ctx x.va = .ok t ∧ x.cores ≠ []) (fun m =>
          x.cores.foldl (fun acc c => tlbFill (.core c) x.part x.ctx x.va t acc) (left m)) ∧
        Says.Acts (.pageWalkComplete k) (fun m => served m ∧ walk m x.part x.ctx x.va = .ok t ∧ x.cores = []) (fun m => tlbFill (.die x.die) x.part x.ctx x.va t (left m)) ∧
        ∀ e, Says.Acts (.pageWalkComplete k) (fun m => served m ∧ walk m x.part x.ctx x.va = .error e) left) ∧
      ∀ (t : Xlat) cap pick es, let e : TlbEntry := ⟨p, c, va / 2 ^ t.size, t.size, t.pa - va % 2 ^ t.size, t.r, t.w, t.x, t.typ⟩
        es.any (TlbEntry.covers p c va) = false → e ∈ tlbPut cap pick p c va t es ∧ (es.length < cap → tlbPut cap pick p c va t es = es ++ [e]) ∧
          (0 < cap → es.length ≤ cap → (tlbPut cap pick p c va t es).length ≤ cap)) ∧
    (∀ loc, let meets := fun (m : Mach) => m.failing.contains loc = true ∧ match loc with | .scratch c a => m.badRows.contains (rowOf (scratchKey c a)) = false | _ => True
      Says.Acts (.memoryReadRetry loc true) meets (fun m => settleCmds { m with
        failing := m.failing.filter fun f => decide (f ≠ loc), transients := Store.upd 0 m.transients (dieOf loc) (· + 1) }) ∧
      Says.Acts (.memoryReadRetry loc false) meets (fun m => settleCmds (retireLoc loc m)) ∧
      (∀ pa m, (retireLoc (.hbm pa) m).hbm = m.hbm ∧ frameBad (retireLoc (.hbm pa) m) pa = true) ∧
      (∀ c off m, (retireLoc (.vault c off) m).vault = m.vault ∧ blockBad (retireLoc (.vault c off) m) (vaultKey c off) = true)) ∧
    (∀ rest, Says.Acts (.xacqGrant w) (fun m => (m.wg w).status = .running ∧ (m.wg w).xacqQ = g :: rest ∧ (m.wg w).xcount < (m.block w).xmax)
      (fun m => (m.modG w g fun y => { y.dropExt with extHeld := true, extPending := false, outs := y.outs.filter fun o => !(isXacq o) }).modW w fun z => { z with xacqQ := rest })) ∧
    (∀ o r n, Says.Acts (.xregDeadlockDetect w g) (fun m => waitsForExt (m.grp w g) = some o ∧ standsAtQu (m.grp w g) = some r ∧ deadlockAt m w g = some n ∧
        wgActive (m.wg w) = true)
      (fun m => enterTrap w g ⟨o.irec, ⟨.xregDeadlock, o.irec.lanes, 0, BitVec.ofNat 64 (n % 16 + 2 ^ 16 * ((extHolders m w).foldl (fun a j => a + 2 ^ j) 0))⟩, 0xFF,
        r.hdrAddr, r.lanes &&& (m.grp w g).live, .wait, none⟩ m)) ∧
    (∀ g0 gs q, let arrived := fun (m : Mach) => ((m.wg w).groupIds.filter fun j => decide ((m.grp w j).live ≠ 0)) = g0 :: gs ∧ wgActive (m.wg w) = true ∧
        (∀ j ∈ g0 :: gs, (reorderOf (m.grp w j)).isSome = true ∧ accessesLeft m w j = false) ∧ reorderOf (m.grp w g0) = some q
      let same := fun (m : Mach) => ∀ j ∈ g0 :: gs, (reorderOf (m.grp w j)).map (fun e => (e.wide, e.mask)) = some (q.wide, q.mask)
      (∀ ms : List Mover, let ts := sortBy (fun a b => decide (a.key ≤ b.key)) ms
        ts.Perm ms ∧ ts.Pairwise fun a b => a.key ≤ b.key) ∧
      Says.Acts (.reorderComplete w) (fun m => arrived m ∧ same m) (fun m =>
        let ms := sortBy (fun a b => decide (a.key ≤ b.key)) (movers m w (g0 :: gs))
        (m.wg w).groupIds.foldl (fun acc j => standAt w j (pastReorder m w j (pastReorder m w g0 0)) (reordered m w q.mask ms j).live (acc.modG w j fun _ => reordered m w q.mask ms j)) m) ∧
      Says.Acts (.reorderComplete w) (fun m => arrived m ∧ ¬ same m) (fun m => (g0 :: gs).foldl (fun acc j => reorderTrap w j acc) m))

/-- R201, R209, R210, R216, R220, R222, R225, R227, R231, R233 to R239, R243, R245, R265, R266, R269, R280, R289, R290, R293, R295, R418, R419, R422, R424: the steps of the engines where each
has its effect.  The Rook starts its oldest slice, moves a slice sector by sector, and completes a copy; PUBLISH swaps; operand slots are filled; passes are submitted, started by
priority and retired on their tiles, element by element; tokens and tiles are read and drained; collection commands are performed in the order of their lane; the Knight takes
one pair from its stack at a time; messages leave and arrive.
Readings and choices of the model used (no rules of the spec): log 7, 11, 12, 13, 28, 47, 63, 64, 66, 69, 70, 73, 107, 111. -/
def Obligations.EngineSteps : Prop :=
  ∀ (w g id : Nat) (o : Out),
    let found := fun (m : Mach) => findOut m w g id = some o
    let awake := fun (m : Mach) => (m.wg w).status ≠ .saved
    (∀ k s c, let at_ := fun (m : Mach) => m.slice k = s ∧ m.copy s.copy = c
      let site := Site.cluster c.cluster
      let others := fun (m : Mach) => rookSlices m c.cluster
      let goes := fun (m : Mach) => at_ m ∧ sectorMoves m k s = true ∧ ((others m).any fun e => rookBefore e.2 s && sectorMoves m e.1 e.2) = false
      Says.Acts (.copySliceStart k) (fun m => at_ m ∧ sliceArrives m s = true ∧ ∀ e ∈ m.slices, (m.copy e.2.copy).cluster = c.cluster → sliceArrives m e.2 = true → s.id ≤ e.2.id) (queueSlice k) ∧
      Says.Acts (.copySliceStart k) (fun m => at_ m ∧ s.status = .queued ∧ sliceInOrder m s = true ∧ groupBusy m s.wg s.grp s.id = false ∧
          ((others m).filter fun e => decide (e.2.status ≠ .queued)).length < 64 ∧ ∀ e ∈ others m, e.2.status = .queued → sliceInOrder m e.2 = true → s.order ≤ e.2.order)
        (fun m => m.modSlice k fun s => { s with status := .running, round := rookTurn m c.cluster }) ∧
      (∀ m, at_ m → sectorMoves m k s = true → (s.status = .running ∨ s.status = .faulted) ∧ sliceFails m s = false ∧ copyStalled m c = false ∧
        ∀ p, sectorPlan m s = .ok p → earlierSlice m k c s p.2 = false) ∧
      (∀ src ps, Says.Acts (.copySector k) (fun m => goes m ∧ sectorPlan m s = .ok (src, ps)) (fun m =>
        let n := (sliceDsts c s).foldl (fun acc e => spaceTouch site c.part c.ctx c.dstSp (e.2.1 + 32 * s.pos) acc) (spaceTouch site c.part c.ctx c.srcSp (s.src + 32 * s.pos) m)
        (ps.foldl (fun acc d => writePlace none c.dstSp d (readPlace m c.srcSp src 32) acc) n).modSlice k fun s =>
          { s with pos := s.pos + 1, round := rookTurn m c.cluster, status := if s.len ≤ 32 * (s.pos + 1) then .landed else .running })) ∧
      (∀ e side i a f, Says.Acts (.copySector k) (fun m => goes m ∧ sectorPlan m s = .error (e, side, i, a) ∧ findOut m s.wg s.grp s.id = some f)
        (fun m => failSlice .asyncCopyFault (causeCode e + 64 * side + 256 * i + 2 ^ 32 * s.pos) a s (m.modSlice k fun s => { s with status := .faulted }))) ∧
      Says.Acts (.copyComplete k) (fun m => m.copy k = c ∧ (∃ e ∈ m.copies, e.1 = k) ∧ copyFaulted m c = false ∧ (∀ j ∈ c.slices, (m.slice j).status = .landed) ∧ c.refused = none ∧
          allJoined m c = true ∧ copyStalled m c = false)
        (fun m => dropCopy k (copyOuts c (copySignal c (copyArrivals c m))))) ∧
    (∀ k drop s, o.kind = .publish k drop → Says.Acts (.publishSwap w g id)
      (fun m => found m ∧ awake m ∧ shadowSlot m w k = some s ∧ shadowCopiesLeft m w s id = false ∧ earlierPublish m w k id = false ∧ groupBusy m w g id = false ∧ (drop = true → s.upper = false))
      (fun m => landOut w g id [] (dropCache (m.wg w).core (flushAll (m.wg w).core (m.modW w fun z =>
        { z with shadows := if drop then Store.del z.shadows k else Store.put z.shadows k { s with upper := !s.upper } }))))) ∧
    (∀ n sp src stride claim, o.kind = .oload n sp src stride claim → let may := fun (m : Mach) => found m ∧ mayFill m w g o n claim = true
      let seen := engineTouch w sp ((List.range 64).map fun r => src + r * stride)
      (∀ rows, Says.Acts (.oloadLanding w g id) (fun m => may m ∧ readRows m w sp src stride 4 64 = .ok rows) (fun m => landOut w g o.id [] (fillBytes w n o.id rows (seen m)))) ∧
      (∀ c a, Says.Acts (.oloadLanding w g id) (fun m => may m ∧ readRows m w sp src stride 4 64 = .error (some (c, a))) (fun m => rangeFail w g o c a (seen m)))) ∧
    (∀ n half sat inf uns prec code src stride claim rows, o.kind = .mconv n half sat inf uns prec code src stride claim → Says.Acts (.mconvLanding w g id)
      (fun m => found m ∧ mayFill m w g o (n + half.toNat) claim = true ∧ convRows m w src stride (convRow code) 64 = .ok rows)
      (fun m => landOut w g o.id [] (fillBytes w (n + half.toNat) o.id (rows.map fun bs => (rowWordsOf bs).flatMap (convElem sat inf uns prec code)) m))) ∧
    (∀ n rows (m : Mach), Memory.wf (m.oslot w n).bytes = true → let q := (fillBytes w n id rows m).oslot w n
      q.inUse = true ∧ q.dirty = true ∧ q.claimed = (m.oslot w n).claimed ∧
        ∀ k, Memory.read q.bytes k = if k < rows.flatten.length then rows.flatten.getD k 0 else Memory.read (m.oslot w n).bytes k) ∧
    (∀ c e, Says.Acts (.msignSubmit w c) (fun m => ((m.wg w).groupIds.find? fun g => decide ((m.grp w g).held = some (.msign c))) = some g ∧ wgActive (m.wg w) = true ∧ tableRoom m w = true ∧
        convOf m w c = some e)
      (fun m => let t := (bits e.word 10 4).toNat
        let n := (m.modTile w t fun q => { q with atEngine := true }).modW w fun z => { z with convs := Store.del z.convs c }
        let r := passOps m w (operandSlots (bits e.word 0 5).toNat (codeA e.fmt) ++ operandSlots (bits e.word 5 5).toNat (codeB e.fmt))
        finishHeld w g { n.modCluster (clusterOf m w) fun k => { k with table := k.table ++ [
          { id := m.nextCmd, wg := w, tile := t, a := (bits e.word 0 5).toNat, b := (bits e.word 5 5).toNat, fmt := e.fmt, waits := e.waits, base := (m.block w).priority, at_ := m.cycle
            core := (m.wg w).core, slot := (m.grp w g).slot, ops := r.1, rels := r.2, opA := [], opB := [] }] } with nextCmd := n.nextCmd + 1 })) ∧
    (∀ c p ps, Says.Acts (.passStart c) (fun m => let n := admitPasses c m
          sortBy (passBefore n.cycle) ((n.cluster c).table.filter (passReady n c)) = p :: ps ∧ (n.cluster c).inEngine.length < 2)
        (fun m => admitPasses c ((admitPasses c m).modCluster c fun k => { k with
          table := k.table.filter fun q => decide (q.id ≠ p.id)
          inEngine := k.inEngine ++ [{ p with opA := p.operand p.a (codeA p.fmt), opB := p.operand p.b (codeB p.fmt) }] })) ∧
      (∀ now xs, sortBy (passBefore now) xs = p :: ps → p ∈ xs ∧ ∀ q ∈ xs, min 7 (q.base + (now - q.at_) / 256) ≤ min 7 (p.base + (now - p.at_) / 256) ∧
        (min 7 (q.base + (now - q.at_) / 256) = min 7 (p.base + (now - p.at_) / 256) → p.at_ ≤ q.at_)) ∧
      Says.Acts (.passRetire c) (fun m => (m.cluster c).inEngine = p :: ps ∧ (m.wg p.wg).status ≠ .absent ∧ (m.wg p.wg).status ≠ .ended)
        (fun m => let n := (landTacqs p m).modCluster c fun k => { k with inEngine := ps }
          captureDrains p.wg p.tile (tileSignal p.wg (n.tile p.wg p.tile).bound (n.modTile p.wg p.tile (passTile p.fmt p.opA p.opB)))) ∧
      ∀ (f : Word) (a b : Memory) (t : Tile), let u := passTile f a b t
        (∀ i, i < 4096 → Store.get 0 u.elems i = BitVec.ofNat 32 (passElem f a b t.elems i).val) ∧ u.retired = (t.retired + 1) % 65536 ∧ u.int = intPass f ∧ u.inUse = true ∧ u.dirty = true ∧
          u.bound = none ∧ u.atEngine = t.atEngine) ∧
    (∀ d t ls, o.kind = .tacq d t ls → Says.Acts (.tacqLanding w g id)
      (fun m => found m ∧ awake m ∧ (∀ p ∈ passesOn m w t, id ≤ p.id) ∧ ∀ e ∈ wgOuts m w, e.2.id < id → ∀ clr add sp dst stride el done, e.2.kind ≠ .tdrain t clr add sp dst stride el done)
      (fun m => let n := if passesOn m w t = [] then m.modTile w t fun q => { q with atEngine := false } else m
        landOut w g id (laneResults (some d) ls (tileStatus n w t true)) n)) ∧
    (∀ ws, o.kind = .tld ws → Says.Acts (.tldLanding w g id) found (landOut w g id ws)) ∧
    (∀ d sel ls, o.kind = .mstat d sel ls → Says.Acts (.mstatLanding w g id) (fun m => found m ∧ awake m) (fun m => landOut w g id (laneResults (some d) ls (mstatVal m w sel)) m)) ∧
    (∀ t clr add sp dst stride elems int done, o.kind = .tdrain t clr add sp dst stride (some (elems, int)) done →
      let from_ := if done = refusedDrain then 0 else done
      let left := (drainSectors dst stride).filter fun e => decide (from_ ≤ e.1)
      let refused := fun (m : Mach) => if done = refusedDrain then drainRefusal m w sp dst stride else none
      let may := fun (m : Mach) => found m ∧ drainWaits m w o t sp = false
      let goes := fun (m : Mach) ps => may m ∧ refused m = none ∧ drainPlaces m w sp add left = .ok ps ∧ (∀ e ∈ left, engineWaits m w sp e.2 = false) ∧
        (add = true → ∀ e ∈ ps, ∀ pl, e.2 = some pl → (placeErrors m sp pl 32).1 = false)
      let drained := fun (m : Mach) ps => drainAll add int elems sp ps (engineTouch w sp (left.map (·.2)) m)
      (∀ ps n, Says.Acts (.tdrainComplete w g id) (fun m => goes m ps ∧ drained m ps = (n, none)) (fun _ => landOut w g id [] (dropCache (n.wg w).core n))) ∧
      (∀ ps n i, Says.Acts (.tdrainComplete w g id) (fun m => goes m ps ∧ drained m ps = (n, some i)) (fun _ =>
        rangeFail w g o .uncorrectable (dst + i / 64 * stride + 4 * (i % 64)) (dropCache (n.wg w).core (setOut w g o.id (.tdrain t clr add sp dst stride (some (elems, int)) i) n)))) ∧
      (∀ c a, Says.Acts (.tdrainComplete w g id) (fun m => may m ∧ refused m = none ∧ drainPlaces m w sp add left = .error (c, a)) (rangeFail w g o c a)) ∧
      ∀ c, Says.Acts (.tdrainComplete w g id) (fun m => may m ∧ refused m = some c) (cmdFail w g o c 0)) ∧
    (∀ c a m, rangeFail w g o c a m = failOut w g o.id ⟨c, o.irec.lanes, BitVec.ofNat 64 a, groupInfo o.irec.lanes a⟩ m) ∧
    (∀ e l c (n : Mach), let k := 16 * e + l
      Says.Acts (.collectionCommandExecute e l) (fun m => let q := collAdmit k m
          (q.elane k).busy = none ∧ (q.elane k).queue.findSome? (collTry k q) = some n) (fun _ => n) ∧
      (∀ d, Says.Acts (.collectionCommandExecute e l) (fun m => ((collAdmit k m).elane k).busy = some c ∧ (∃ j, c.op = .nbr j) ∧ collPerform (collAdmit k m) c = .ok d)
        (fun _ => collLand c d.dn d.dv d.av [] (d.m.modLane k fun e => { e with busy := none }))) ∧
      (∀ d, Says.Acts (.cthawComplete e l) (fun m => (m.elane k).busy = some c ∧ c.op = .thaw ∧ thawWaits m c = false ∧ collPerform (m.modLane k fun e => { e with busy := none }) c = .ok d)
        (fun _ => collLand c d.dn d.dv d.av [] d.m)) ∧
      (∀ (m : Mach) d, collReady m c = true → (∀ j, c.op ≠ .nbr j) → c.op ≠ .thaw → collPerform (m.modLane k (ELane.take c)) c = .ok d → collTry k m c = some (collLand c d.dn d.dv d.av [] d.m)) ∧
      (∀ (m : Mach) cause a info, collReady m c = true → (∀ j, c.op ≠ .nbr j) → c.op ≠ .thaw → collPerform (m.modLane k (ELane.take c)) c = .error (.fault cause a info) →
        collTry k m c = some (collLand c 0 0 none [⟨c.arg.lane, cause, BitVec.ofNat 64 a, info⟩] (touchTlb c.site c.part c.ctx c.arg.hdr.toNat (m.modLane k (ELane.take c))))) ∧
      (∀ (m : Mach) s x, collDenied m c = none → collAt m c c.arg.hdr.toNat = .ok (s, x) → c.op = .ins ∨ c.op = .rem ∨ c.op = .move → x.h.frozen = true →
        collPerform m c = .error (.fault .collectionFrozen 0 0)) ∧
      (∀ (m : Mach) s x el, collDenied m c = none → collAt m c c.arg.hdr.toNat = .ok (s, x) → x.h.frozen = false → c.op = .ins → newElem x.h c.arg.a = some el →
        let r := x.insert (c.det || x.h.evicts) el
        collPerform m c = .ok ⟨writeColl s r.c m, 1, statusWord r.st r.num, if 0 < r.num then r.first.map evictForm else none⟩) ∧
      (∀ (m : Mach) s x, collDenied m c = none → collAt m c c.arg.hdr.toNat = .ok (s, x) → x.h.frozen = false → c.op = .rem →
        let r := x.delete (quadElem c.arg.a)
        collPerform m c = .ok ⟨writeColl s r.1 m, 1, statusWord r.2 0, none⟩)) ∧
    (∀ cl r a b rest d, let runs := fun (m : Mach) => (m.cluster cl).krun = some r ∧ r.ends = none
      let takes := fun (m : Mach) => runs m ∧ r.stack = (a, b) :: rest ∧ kDesc m r.cmd = .ok d
      let put := fun (q : KRun) (m : Mach) => m.modCluster cl fun x => { x with krun := some q }
      (∀ c n, Says.Acts (.knightTraversal cl) (fun m => (m.cluster cl).krun = none ∧ (m.cluster cl).waiting.find? (kInOrder m) = some c ∧ kTry cl m c = some n) (fun _ => n)) ∧
      Says.Acts (.knightTraversal cl) (fun m => runs m ∧ r.stack = []) (put { r with ends := some .done }) ∧
      (∀ ps, Says.Acts (.knightTraversal cl) (fun m => takes m ∧ kPair m r.cmd d a b = .ok (.push ps) ∧ rest.length + ps.length ≤ 64) (put { r with stack := ps.reverse ++ rest })) ∧
      (∀ ps, Says.Acts (.knightTraversal cl) (fun m => takes m ∧ kPair m r.cmd d a b = .ok (.push ps) ∧ 64 < rest.length + ps.length)
        (fun m => put { r with ends := some (.fault (kFail m r.cmd .knightStack 0 a)) } m)) ∧
      (∀ x y r1 m1, Says.Acts (.knightTraversal cl) (fun m => takes m ∧ kPair m r.cmd d a b = .ok (.emit x y) ∧ kEmit m r (fieldAt d 0x18 4) x y = .ok (.done r1 m1)) (fun _ => put r1 m1)) ∧
      (∀ x y, Says.Acts (.knightTraversal cl) (fun m => takes m ∧ kPair m r.cmd d a b = .ok (.emit x y) ∧ kEmit m r (fieldAt d 0x18 4) x y = .ok .full) (put { r with ends := some .full })) ∧
      (∀ (m : Mach) (c : KCmd) ra rb, kRef m c d false a = .ok ra → kRef m c d (!c.self) b = .ok rb →
        (kOverlap ra rb = false → kPair m c d a b = .ok (.push [])) ∧
        (kOverlap ra rb = true → ra.leaf = true → rb.leaf = true → ¬ (c.self = true ∧ a = b) → kPair m c d a b = .ok (.emit ra.idx rb.idx))) ∧
      (∀ r1 (m1 : Mach), let ends := fun (e : KEnd) (m : Mach) => (m.cluster cl).krun = some r ∧ r.ends = some e ∧ kWrites e r m = ((r1, m1), none)
        let after := m1.modCluster cl fun x => { x with krun := none }
        Says.Acts (.knightTraversalDone cl) (ends .done) (fun _ => kReturn 0 r1 after) ∧
        Says.Acts (.knightTraversalDone cl) (ends .full) (fun _ => kReturn 1 r1 after) ∧
        Says.Acts (.knightTraversalDone cl) (ends .again) (fun _ => m1.modCluster cl fun x => { x with krun := some { r1 with ends := none } }) ∧
        ∀ f, Says.Acts (.knightTraversalDone cl) (ends (.fault f)) (fun _ => failOut r.cmd.wg r.cmd.grp r.cmd.id f (kHeld true r.emitted [] r.cmd after)))) ∧
    (∀ k off n bs nb pd ls, o.kind = .qsend k off n (some bs) nb pd ls false → let may := fun (m : Mach) => found m ∧ groupBusy m w g id = false
      let seen := fun (m : Mach) => (readCap w k m).2
      let use := fun (m : Mach) => useCap w k (fun e => e.send && decide (n ≤ e.allow)) (seen m)
      let part := fun (m : Mach) => (m.wg w).part
      let goes := fun e (m : Mach) => may m ∧ use m = .ok e ∧ earlierMessage (seen m) w g o.id e.tgt = false
      let spent := fun (e : CapEnt) (m : Mach) => spendAllowance w k n e.allow (flushAll ((seen m).wg w).core (seen m).useFree)
      (∀ e n1, Says.Acts (.qsendEnqueue w g id) (fun m => goes e m ∧ targetRoom (seen m) (part m) e.tgt = true ∧ spent e m = (.ok (), n1))
        (fun m => let n2 := putMessage (part m) e.tgt bs n1
          match e.tgt with
          | .host _ => setOut w g o.id (.qsend k off n (some bs) nb pd ls true) n2
          | _ => landOut w g o.id (nbWrites nb pd ls true) n2)) ∧
      (∀ e f n1, Says.Acts (.qsendEnqueue w g id) (fun m => goes e m ∧ targetRoom (seen m) (part m) e.tgt = true ∧ spent e m = (.error f, n1)) (fun _ => capFail w g o f n1)) ∧
      (∀ e, Says.Acts (.qsendEnqueue w g id) (fun m => may m ∧ use m = .error e) (fun m => capFail w g o e (seen m))) ∧
      (∀ e, Says.Acts (.qsendEnqueue w g id) (fun m => goes e m ∧ targetRoom (seen m) (part m) e.tgt = false)
        (fun m => if nb then landOut w g o.id ((lanesOf ls).map fun l => .pred pd l false) (seen m).useFree else (seen m).useFree))) ∧
    (∀ k off n bs nb pd ls, o.kind = .qsend k off n bs nb pd ls true → Says.Acts (.qsendHostAck w g id) found (landOut w g id (nbWrites nb pd ls true))) ∧
    (∀ k off cap nb pd dst ls, o.kind = .qrecv k off cap nb pd dst ls →
      let may := fun (m : Mach) => found m ∧ frozen (m.wg w) = false ∧ earlierReceive m w g id k = false
      let seen := fun (m : Mach) => (readCap w k m).2
      let use := fun (m : Mach) => useCap w k mayReceive (seen m)
      let queue := fun c (m : Mach) => (channelOf (seen m) ((seen m).wg w).part c).msgs
      (∀ e c x xs, e.tgt = .channel c → Says.Acts (.qrecvReceive w g id) (fun m => may m ∧ use m = .ok e ∧ queue c m = x :: xs ∧ x.bytes.length ≤ cap ∧
          (scratchKeys (seen m) w off x.bytes.length).isSome = true)
        (fun m => landOut w g o.id ((lanesOf ls).map (fun l => .reg dst.toNat l (BitVec.ofNat 32 (x.bytes.length + 2 ^ 16 * x.src + 2 ^ 20 * (x.dev % 256)))) ++ nbWrites nb pd ls true)
          (dropCache ((seen m).wg w).core (scratchWrite w off x.bytes (channelTake ((seen m).wg w).part c (seen m)))))) ∧
      (∀ e c, e.tgt = .channel c → Says.Acts (.qrecvReceive w g id) (fun m => may m ∧ use m = .ok e ∧ queue c m = [])
        (fun m => if nb then landOut w g o.id (nbWrites nb pd ls false) (seen m) else seen m)) ∧
      ∀ e, Says.Acts (.qrecvReceive w g id) (fun m => may m ∧ use m = .error e) (fun m => capFail w g o e (seen m))) ∧
    (∀ p r rs, Says.Acts (.eventBacklogDrain p) (fun m => (m.part p).backlog = r :: rs ∧ (channelOf m p 0).msgs.length < (channelOf m p 0).cap)
      (fun m => channelPut p 0 ⟨3, 0, r⟩ (m.modP p fun q => { q with backlog := rs })))

/-- R21, R22, R28 to R40, R43, R51, R54, R61 to R64, R99, R186, R190, R219, R246, R303, R317 to R323, R358, R374 to R386, R388 to R404, R405 to R413, R414 to R428, R461, R462: the life of
launches, workgroups and contexts, and what hosts, other devices and the firmware do, where each step has its effect.  A command that cannot be performed is answered invalid,
busy or refused and changes nothing else.
Readings and choices of the model used (no rules of the spec): log 7, 9, 11, 17, 18, 19, 20, 36, 37, 52, 78, 81, 83, 85, 86, 87, 88, 90, 91, 92, 93, 95, 112, 118, 119. -/
def Obligations.HostSteps : Prop :=
  ∀ (p c w : Nat),
    let tell := fun (x : HostMsg) (m : Mach) => ({ m with hostOut := m.hostOut ++ [(p, x)] } : Mach)
    let made := fun (m : Mach) => (m.part p).made = true
    (∀ r rs q b, let n := fun (m : Mach) => m.modP p fun z => { z with ready := rs }
      let reads := fun (v : BlockRead) (m : Mach) => (m.part p).ready = r :: rs ∧ readBlock (n m) r.part r.ctx r.addr false = v
      let no := fun (e : Cause) (src under : Nat) (m : Mach) => freeOthers r.part r.ctx r.addr (refuseLaunch r.part r.ctx r.addr e src under (n m))
      Says.Acts (.queueEntry p) (fun m => reads (.ok b) m ∧ queueFor (n m) r.part r.ctx b.priority = some q)
        (fun m => enterQueue r q b false (touchTlb (partSite (n m) r.part) r.part r.ctx r.addr.toNat (n m))) ∧
      Says.Acts (.queueEntry p) (reads .wait) (fun m => (n m).modP r.part fun z => { z with ready := r :: z.ready }) ∧
      Says.Acts (.queueEntry p) (fun m => reads (.ok b) m ∧ queueFor (n m) r.part r.ctx b.priority = none) (no .launchBlockInvalid 3 0) ∧
      (∀ e, Says.Acts (.queueEntry p) (fun m => reads (.bad e b) m ∧ queueFor (n m) r.part r.ctx b.priority = some q) (no e 0 0)) ∧
      ∀ e, Says.Acts (.queueEntry p) (reads (.fault e)) (no .launchBlockInvalid 0 (causeCode e))) ∧
    (∀ a b q, let stands := fun (m : Mach) => made m ∧ (m.ctx p c).state = 1
      Says.Acts (.rootLaunch p c a) (fun m => stands m ∧ readBlock m p c a true = .ok b ∧ queueFor m p c b.priority = some q ∧ (m.part p).pool ≠ 0)
        (fun m => tell .ack (enterQueue ⟨p, c, a, none, none⟩ q b true (m.modP p fun z => { z with pool := z.pool - 1 }))) ∧
      Says.Acts (.rootLaunch p c a) (fun m => stands m ∧ readBlock m p c a true = .ok b ∧ (queueFor m p c b.priority = none ∨ (m.part p).pool = 0)) (tell .busy) ∧
      (∀ e, Says.Acts (.rootLaunch p c a) (fun m => stands m ∧ (readBlock m p c a true = .fault e ∨ readBlock m p c a true = .bad e b)) (tell .invalid)) ∧
      Says.Acts (.rootLaunch p c a) (fun m => stands m ∧ readBlock m p c a true = .wait) id ∧
      Says.Acts (.rootLaunch p c a) (fun m => (m.part p).made = false ∨ (m.ctx p c).state ≠ 1) (tell .invalid)) ∧
    (∀ k, let n := fun (m : Mach) => admissionStop p (countLack p m)
      let served := fun (m : Mach) => k < 8 ∧ ∀ j, k < j → j < 8 → restoreCands (n m) p j = [] ∧ queueCands (n m) p j = []
      Says.Acts (.admissionDecision p) (fun m => served m ∧ restoreCands (n m) p k ≠ []) (fun m => decideRestore p k (restoreCands (n m) p k) (n m)) ∧
      Says.Acts (.admissionDecision p) (fun m => served m ∧ restoreCands (n m) p k = [] ∧ queueCands (n m) p k ≠ []) (fun m => decideQueue p k (queueCands (n m) p k) (n m)) ∧
      (∀ m qs l r ps, let q := rotate (Store.get 63 (m.part p).qptr k) qs
        (∀ x ∈ qs, ∀ j, queueHead m p x = some j → (m.launch j).block.det = false) → queueHead m p q = some l → launchPlan m l = some (r, ps) →
        decideQueue p k qs m = admitUnit l r ps (m.modP p fun z => { z with qptr := Store.put z.qptr k q })) ∧
      (∀ m q, q ∈ queueCands m p k ↔ q < 64 ∧ queueOpen m p q = true ∧ (bits (queueWord m p q) 1 3).toNat = k ∧ queueStopped m p q = false ∧
        ∃ l e, queueHead m p q = some l ∧ launchPlan m l = some e)) ∧
    (∀ q, Says.Acts (.admissionStop p) (fun m => q < 64 ∧ headStarved m p q = true ∧ (∀ s, (m.part p).stopped = some s → stopLasts m p s = false) ∧
        ∀ j, j < 64 → headStarved m p j = true → qPrio (queueWord m p j) < qPrio (queueWord m p q) ∨ (qPrio (queueWord m p j) = qPrio (queueWord m p q) ∧ q ≤ j))
      (fun m => m.modP p fun z => { z with stopped := (queueHead m p q).map fun j => (q, j) })) ∧
    (Says.Acts (.workgroupStart w) (fun m => (m.wg w).status = .admitted ∧ startsLater m w = false) (fun m =>
        let x := m.wg w
        let l := m.launch x.launch
        let n : Mach := { m with scratch := placeScratch x.core x.base l.block.scratch (startWords l.block l.addr) m.scratch }
        x.groupIds.foldl (fun acc g => standAt w g l.block.entry 0xFFFFFFFF acc)
          (dropCache x.core (n.modW w fun x => { x with status := .running, yieldPending := spent x.tempi || spent x.tempm }))) ∧
      Says.Acts (.workgroupRetire w) (fun m => (m.wg w).status = .retiring ∧ (isDet m w = false ∨ turnEnded m w = true)) (retireNow w) ∧
      Says.Acts (.workgroupRetire w) (fun m => (m.wg w).status = .retiring ∧ isDet m w = true ∧ turnEnded m w = false ∧ holdsTurn m w = true) (fun m => retireNow w (endTurn w m)) ∧
      (∀ m, let x := m.wg w
        let h := (x.succ.getD []).foldl (fun acc n => handOver w n acc) ⟨settleBudget w (flushAll x.core (dropPasses w m)), 0, false⟩
        retireNow w m = settleAcks x.part (finishLaunch x.launch (countRetired x.launch (freeWg w (stepRetires w (retireRecord w h))))))) ∧
    ((let together := fun (m : Mach) => (savedWith m w).foldl (fun acc v => if yieldReady m v then yieldSave v acc else fullSave v acc) m
        let leave := fun (m : Mach) => ∀ v ∈ savedWith m w, leavesNow m v = true
        Says.Acts (.yieldTaken w) (fun m => yieldReady m w = true ∧ leave m) together ∧
        Says.Acts (.yieldTaken w) (fun m => yieldReady m w = true ∧ ¬ leave m) (saveSiblings w) ∧
        (∀ k, let due := fun (m : Mach) => (m.wg w).preempt = some k ∧ (m.wg w).status = .running
          Says.Acts (.preemptionSave w) (fun m => due m ∧ (m.launch (m.wg w).launch).killed = false ∧ saveReady m w = true ∧ leave m) together ∧
          Says.Acts (.preemptionSave w) (fun m => due m ∧ (m.launch (m.wg w).launch).killed = false ∧ saveReady m w = true ∧ ¬ leave m) (saveSiblings w) ∧
          Says.Acts (.preemptionSave w) (fun m => due m ∧ (m.launch (m.wg w).launch).killed = true ∧ allStopped m w = true) (endAborted w)) ∧
        ∀ m : Mach, let x := m.wg w
          ((m.block w).progress ≠ 0 → savedWith m w = [w]) ∧
          (yieldSave w m = leaveCore w 3 0 (some (if x.yieldWg then some (m.block w).priority else none))
            ((flushAll x.core (abortOpen w m)).modW w (yieldWg (if x.yieldWg then .voluntary else .exhausted)))) ∧
          let k := x.preempt.getD .full
          let n := flushAll x.core (abortOpen w m)
          let t := n.modW w (saveWg n w k)
          fullSave w m = leaveCore w 4 0 (match k with | .overdraft => some none | _ => none) { t with clusters := (dropPasses w t).clusters }) ∧
      Says.Acts (.stallPreemptTimeout w) (fun m =>
          let x := m.wg w
          let skip := if x.stallSkip.1 = stallFrom m w then x.stallSkip.2 else 0
          wgActive x = true ∧ x.yieldPending = true ∧ x.preempt = none ∧ (∃ g ∈ x.groupIds, groupParked m w g = false) ∧
          (∀ g ∈ x.groupIds, groupParked m w g = false → standsStill m w g = true) ∧ stallFrom m w + skip + 1300 ≤ m.cycle)
        (requestSave .full w) ∧
      Says.Acts (.saveSpill w) (fun m => (m.wg w).status = .saved ∧ ∃ e ∈ m.clusters, w ∈ e.2.bank) (fun m =>
        let x := m.wg w
        let n := ((spillImage (m.ctx x.part x.ctx).desc m.freeCtr).foldl (fun acc e => writePa acc none none e.1 [e.2]) m.useFree).modW w fun x => { x with spilled := true }
        { n with clusters := n.clusters.map fun e => (e.1, { e.2 with bank := e.2.bank.filter fun v => decide (v ≠ w) }) })) ∧
    (Says.Acts (.quantumStart p c) (fun m => waitsOut m p c = true ∧ (∀ v ∈ m.wgIds, (m.wg v).part = p → (m.wg v).ctx ≠ c → runnable m v = false) ∧
          (∀ d, d < 16 → (m.ctx p d).quantum = false) ∧ ∀ d, d < 16 → d ≠ c → waitsOut m p d = true →
            (m.ctx p c).outSince < (m.ctx p d).outSince ∨ ((m.ctx p c).outSince = (m.ctx p d).outSince ∧ c < d))
        (fun m => m.modC p c fun x => { x with quantum := true, outSince := m.cycle }) ∧
      Says.Acts (.quantumExpiry p c) (fun m => (m.ctx p c).state = 2 ∧ (m.ctx p c).quantum = true ∧ (m.ctx p c).outSince + 130000 ≤ m.cycle) (putOut p c false) ∧
      Says.Acts (.swapOut p c) (fun m => made m ∧ c < 16 ∧ (m.ctx p c).state ≠ 0 ∧ ((m.ctx p c).state ≠ 2 ∨ (m.ctx p c).quantum = true)) (putOut p c true) ∧
      Says.Acts (.swapOut p c) (fun m => made m ∧ c < 16 ∧ (m.ctx p c).state = 2 ∧ (m.ctx p c).quantum = false) (tell .ack) ∧
      Says.Acts (.swapIn p c) (fun m => made m ∧ c < 16 ∧ ((m.ctx p c).state ≠ 0 ∨ descOk (m.ctx p c).desc (m.part p).clusters.length = true) ∧ (m.ctx p c).state ≠ 1)
        (fun m => tell .ack (m.modC p c fun x => { x with state := 1, quantum := false, inherits := [] })) ∧
      (∀ t, Says.Acts (.preemptCommand p t) (fun m => targetGone m p t = false ∧ ∀ v ∈ targetWgs m p t, onCore (m.wg v) = false) (tell .ack)) ∧
      (∀ t, Says.Acts (.preemptCommand p t) (fun m => targetGone m p t = false ∧ ∃ v ∈ targetWgs m p t, onCore (m.wg v) = true) (fun m =>
        let live := (targetWgs m p t).filter fun v => onCore (m.wg v)
        (live.foldl (fun acc v => requestSave .full v acc) m).modP p fun q => { q with waitAcks := q.waitAcks ++ [live] })) ∧
      (∀ q d, Says.Acts (.moveContext p c q d) (fun m => moveOk m p c q d = true ∧ moveSettled m p c = true) (doMove p c q d)) ∧
      (∀ q d, Says.Acts (.moveContext p c q d) (fun m => moveOk m p c q d = false) (tell .invalid)) ∧
      (∀ i k, Says.Acts (.refillReserves p c i k) (fun m => made m ∧ c < 16) (fun m => tell .ack (m.modC p c fun x => { x with
        ireserve := if 2 ^ 64 ≤ x.ireserve.toNat + i.toNat then BitVec.allOnes 64 else x.ireserve + i
        mreserve := if 2 ^ 64 ≤ x.mreserve.toNat + k.toNat then BitVec.allOnes 64 else x.mreserve + k }))) ∧
      (∀ d, Says.Acts (.contextDescriptorWrite p c d) (fun m => made m ∧ c < 16 ∧ holdsWork m p c = false ∧ descOk d (m.part p).clusters.length = true)
        (fun m => tell .ack (m.modC p c fun x => { x with desc := d, ireserve := d.ireserve, mreserve := d.mreserve }))) ∧
      (∀ d, Says.Acts (.contextDescriptorWrite p c d) (fun m => made m ∧ c < 16 ∧ (holdsWork m p c = true ∨ descOk d (m.part p).clusters.length = false)) (tell .refused)) ∧
      (let freed := fun (m : Mach) => (((m.part p).nodes.filter fun e => e.2.armed && decide (e.2.ctx = c)).map (·.1)).foldl (fun acc k => freeSlots p 1 (freeNode p k false acc)) m
        let ended := fun (m : Mach) =>
          let n := (freed m).modP p fun q => { q with ready := q.ready.map fun r => if r.ctx = c then { r with park := none } else r }
          ({ n with launches := n.launches.map fun e => (e.1, if e.2.part = p ∧ e.2.ctx = c then { e.2 with park := none } else e.2) } : Mach)
        Says.Acts (.contextEnd p c) (fun m => holdsWork (ended m) p c = true) ended ∧
        Says.Acts (.contextEnd p c) (fun m => holdsWork (ended m) p c = false) (fun m => (ended m).modC p c fun x => { x with state := 0 }))) ∧
    (∀ k e a, Says.Acts (.killLaunch p c a) (fun m => (m.launches.find? fun e => e.2.live && decide (e.2.part = p) && decide (e.2.ctx = c) && decide (e.2.addr = a)) = some (k, e)) (killLaunch k) ∧
      (Says.Acts (.killLaunch p c a) (fun m => ∀ e ∈ m.launches, e.2.live = true → e.2.part = p → e.2.ctx = c → e.2.addr ≠ a) (tell .invalid)) ∧
      ∀ va n, Says.Acts (.invalidateTranslation p c va n) (fun _ => True) (fun m => tell .ack (tlbDrop (fun e =>
        decide (e.part = p) && decide (e.ctx = c) && decide (e.page * 2 ^ e.size < va + n) && decide (va < (e.page + 1) * 2 ^ e.size)) m))) ∧
    (let mine := fun (m : Mach) => (m.wg w).part = p;
      (∀ t, Says.Acts (.haltRequest p t) (fun m => targetGone m p t = false ∧ t ≠ .part)
        (fun m => tell .ack ((targetWgs m p t).foldl (fun acc v => acc.modW v fun x => { x with haltReq := x.haltReq || !(x.halted || decide (x.status = .retiring)) }) m))) ∧
      Says.Acts (.haltReport w) (fun m => mine m ∧ haltReady m w = true ∧ (m.wg w).haltReq = true ∧ (m.wg w).stepEvent = none)
        (fun m => tell (.halted w (lanesAt m w)) (wgRecord w 2 0 (m.modW w (haltWg m.cycle)))) ∧
      (∀ e, Says.Acts (.stepEnd w) (fun m => (m.wg w).stepEvent = some e ∧ haltReady m w = true) (fun m => stepRecord w e (m.modW w (haltWg m.cycle)))) ∧
      Says.Acts (.resumeCommand w) (fun m => mine m ∧ (m.wg w).halted = true) (fun m => tell .ack (goOn none w m)) ∧
      Says.Acts (.resumeCommand w) (fun m => mine m ∧ (m.wg w).halted = false) (tell .invalid) ∧
      (∀ n, Says.Acts (.stepCommand w n) (fun m => mine m ∧ (m.wg w).halted = true ∧ 1 ≤ n ∧ n ≤ 2 ^ 20) (fun m => tell .ack (goOn (some n) w m))) ∧
      (∀ n, Says.Acts (.stepCommand w n) (fun m => mine m ∧ ((m.wg w).halted = false ∨ n = 0 ∨ 2 ^ 20 < n)) (tell .invalid)) ∧
      (∀ (m : Mach) left, ((goOn left w m).wg w).halted = false ∧ ((goOn left w m).wg w).haltReq = false ∧ ((goOn left w m).wg w).stepLeft = left) ∧
      (∀ i st n, Says.Acts (.replayCommand p i st n) (fun m => n ≠ 0 ∧ w ∈ targetWgs m p .part ∧ (m.wg w).wgid = i ∧ (m.wg w).stage = st ∧
          ∀ v ∈ targetWgs m p .part, (m.wg v).wgid = i → (m.wg v).stage = st → v = w)
        (fun m => tell .ack (m.modW w fun x => { x with replay := some n }))) ∧
      (let still := fun (m : Mach) => mine m ∧ (m.wg w).halted = true
        let byte := fun (it : DbgItem) (m : Mach) => still m ∧ dbgLaneRead m w it = none ∧ ∀ o, it = .scratch o → (m.wg w).status ≠ .saved
        (∀ it v a, Says.Acts (.debugStateRead w it) (fun m => still m ∧ dbgLaneRead m w it = some (v, a)) (tell (.value v (some a)))) ∧
        (∀ o, Says.Acts (.debugStateRead w (.scratch o)) (fun m => still m ∧ (m.wg w).status = .saved ∧ o < (m.block w).scratch)
          (fun m => tell (.value (BitVec.ofNat 64 (Memory.read (m.wg w).savedScratch o).toNat) none) m)) ∧
        (∀ it sp k n, Says.Acts (.debugStateRead w it) (fun m => byte it m ∧ dbgByte w it .read m = (some (.ok (sp, k)), n))
          (fun _ => tell (.value (BitVec.ofNat 64 (leNat (readPlace n sp ⟨decide (sp = .vault), k, 0⟩ 1))) none) n.useFree)) ∧
        (∀ it e n, Says.Acts (.debugStateRead w it) (fun m => byte it m ∧ dbgByte w it .read m = (some (.error e), n)) (fun _ => tell .accessError n)) ∧
        (∀ it n, Says.Acts (.debugStateRead w it) (fun m => byte it m ∧ dbgByte w it .read m = (none, n)) (fun _ => tell .invalid n)) ∧
        (∀ it, Says.Acts (.debugStateRead w it) (fun m => mine m ∧ (m.wg w).halted = false) (tell .invalid)) ∧
        (∀ it v n, Says.Acts (.debugStateWrite w it v) (fun m => still m ∧ dbgLaneWrite m w it v = some (.ok n)) (fun _ => tell .ack n)) ∧
        (∀ it v e, Says.Acts (.debugStateWrite w it v) (fun m => still m ∧ dbgLaneWrite m w it v = some (.error e)) (tell e)) ∧
        (∀ o v, Says.Acts (.debugStateWrite w (.scratch o) v) (fun m => still m ∧ (m.wg w).status = .saved ∧ o < (m.block w).scratch)
          (fun m => tell .ack (m.modW w fun x => { x with savedScratch := Memory.write x.savedScratch o (v.setWidth 8) }))) ∧
        (∀ it v sp k n, Says.Acts (.debugStateWrite w it v) (fun m => byte it m ∧ dbgLaneWrite m w it v = none ∧ dbgByte w it .write m = (some (.ok (sp, k)), n))
          (fun _ => tell .ack (writePlace none sp ⟨decide (sp = .vault), k, 0⟩ [v.setWidth 8] n))) ∧
        (∀ it v e n, Says.Acts (.debugStateWrite w it v) (fun m => byte it m ∧ dbgLaneWrite m w it v = none ∧ dbgByte w it .write m = (some (.error e), n)) (fun _ => tell .accessError n)) ∧
        ∀ it v, Says.Acts (.debugStateWrite w it v) (fun m => mine m ∧ (m.wg w).halted = false) (tell .invalid)) ∧
      ∀ (m : Mach) g l (r : Reg), (m.wg w).halted = true → (m.grp w g).slot ≠ 0 → l < 32 → (r.toNat < 32 ∨ (m.grp w g).extHeld = true) →
        dbgLaneRead m w (.reg g l r) = some (((m.grp w g).reg r.toNat l).zeroExtend 64, laneAt m w g l) ∧
        ∀ v, dbgPending (m.grp w g) l r.toNat false = false → dbgLaneWrite m w (.reg g l r) v = some (.ok (m.modG w g fun y => y.setReg r.toNat l (v.setWidth 32)))) ∧
    (∀ core k, (Says.Acts (.readCounters core k) (fun m => partOfCore m core = some p ∧ k ≤ 16) (fun m =>
          let n := countIdle core m
          let b : Bin := if k = 16 then (n.core core).totals else Store.get default (n.core core).bins k
          tell (.counters ((List.range 5).map fun i => b.counts.getD i 0) b.overflow) n)) ∧
      Says.Acts (.clearCounters core) (fun m => partOfCore m core = some p) (fun m => tell .ack ((countIdle core m).modK core fun x => { x with
        bins := x.bins.map fun e => (e.1, { e.2 with counts := [], overflow := false }), totals := { x.totals with counts := [], overflow := false } })) ∧
      (∀ slot, Says.Acts (.idleSlotCycle core slot) (fun _ => True) (fun m =>
        let n : Mach := { m with cycle := m.cycle + 1 }
        n.modK core fun x =>
          let q := Store.get (0, 0) x.issued slot
          let y := countCycle (slotAddr n (Store.get none x.slots slot)) [(4, 32 * (n.cycle - q.1))] x
          { y with issued := Store.put x.issued slot (max q.1 n.cycle, q.2) })) ∧
      (∀ r rs, let n := fun (m : Mach) => m.modC p c fun x => { x with records := rs }
        let place := fun (m : Mach) => (m.ctx p c).desc.traceBase.toNat + 32 * (m.ctx p c).traceIndex.toNat
        let room := fun (m : Mach) => 2 ^ (m.ctx p c).desc.traceSize.toNat / 32
        let dropped := fun (m : Mach) => m.modC p c fun x => { x with traceDropped := if x.traceDropped = BitVec.allOnes 32 then x.traceDropped else x.traceDropped + 1 }
        (∀ t u, Says.Acts (.traceRecordWrite p c)
          (fun m => (m.ctx p c).records = r :: rs ∧ (m.ctx p c).traceUnread < room m ∧ hwWrite (partSite m p) p c (place m) false (n m) = (.ok t, u))
          (fun _ => (writePa u none none t.pa r).modC p c fun x =>
            { x with traceIndex := BitVec.ofNat 32 ((x.traceIndex.toNat + 1) % (2 ^ x.desc.traceSize.toNat / 32)), traceUnread := x.traceUnread + 1 })) ∧
        (∀ e u, Says.Acts (.traceRecordWrite p c)
          (fun m => (m.ctx p c).records = r :: rs ∧ (m.ctx p c).traceUnread < room m ∧ hwWrite (partSite m p) p c (place m) false (n m) = (.error e, u)) (fun _ => dropped u)) ∧
        Says.Acts (.traceRecordWrite p c) (fun m => (m.ctx p c).records = r :: rs ∧ room m ≤ (m.ctx p c).traceUnread) (fun m => dropped (n m))) ∧
      ∀ n, Says.Acts (.traceRecordConsumed p c n) (fun _ => True) (fun m => m.modC p c fun x => { x with traceUnread := x.traceUnread - n })) ∧
    (∀ q v, Says.Acts (.queueTableWrite p q v) (fun m => made m ∧ q < 64 ∧ queueWordBad m p q v = true) (tell .ack) ∧
      Says.Acts (.queueTableWrite p q v) (fun m => made m ∧ q < 64 ∧ queueWordBad m p q v = false ∧ (qValid (queueWord m p q) = false ∨
          (qValid v = true ∧ qCtx v = qCtx (queueWord m p q) ∧ qPrio v = qPrio (queueWord m p q))))
        (fun m => tell .ack (m.modP p fun z => { z with queueWords := Store.put z.queueWords q v })) ∧
      Says.Acts (.queueTableWrite p q v) (fun m => made m ∧ q < 64 ∧ queueWordBad m p q v = false ∧ qValid (queueWord m p q) = true ∧
          (qValid v = false ∨ qCtx v ≠ qCtx (queueWord m p q) ∨ qPrio v ≠ qPrio (queueWord m p q)))
        (fun m => tell .ack ((Store.get [] (m.part p).queues q).foldl (fun acc k => unqueue k acc) (m.modP p fun z => { z with queueWords := Store.put z.queueWords q v })))) ∧
    (∀ v, Says.Acts (.controlSpaceWrite p v) (fun m => made m ∧ csReservedOk v = false) (tell .ack) ∧
      Says.Acts (.controlSpaceWrite p v) (fun m => made m ∧ csReservedOk v = true ∧ csOk m p v = true) (fun m => tell .ack (csPut p v m)) ∧
      Says.Acts (.controlSpaceWrite p v) (fun m => made m ∧ csReservedOk v = true ∧ csOk m p v = false) (tell .refused)) ∧
    (∀ (bs : List Byte), let fits := 16 ≤ bs.length ∧ bs.length ≤ 4096 ∧ bs.length % 16 = 0
      let room := fun (m : Mach) k => (channelOf m p k).msgs.length < (channelOf m p k).cap
      Says.Acts (.inboxSend p bs) (fun m => made m ∧ fits ∧ room m 0) (fun m => tell .ack (channelPut p 0 ⟨0, 0, bs⟩ m)) ∧
      Says.Acts (.inboxSend p bs) (fun m => made m ∧ fits ∧ ¬ room m 0) (tell .busy) ∧
      Says.Acts (.inboxSend p bs) (fun m => (m.part p).made = false ∨ ¬ fits) (tell .invalid) ∧
      (∀ dev ch, Says.Acts (.remoteMessageArrival dev p ch bs) (fun m => linkUp m = true ∧ made m ∧ fits ∧ room m ch) (channelPut p ch ⟨2, dev, bs⟩)) ∧
      (∀ va ps qs, let stands := fun (m : Mach) => made m ∧ 1 ≤ bs.length ∧ bs.length ≤ 2 ^ 30
        Says.Acts (.hostRmaWrite p c va bs) (fun m => stands m ∧ rmaPlaces m p c va bs.length = some qs ∧ rmaPlaces (retryAll qs m) p c va bs.length = some ps)
          (fun m => tell .ack ((ps.zip bs).foldl (fun acc e => writePa acc none none e.1 [e.2]) (retryAll qs m))) ∧
        Says.Acts (.hostRmaWrite p c va bs) (fun m => stands m ∧ rmaPlaces m p c va bs.length = some qs ∧ rmaPlaces (retryAll qs m) p c va bs.length = none)
          (fun m => tell .accessError (retryAll qs m)) ∧
        Says.Acts (.hostRmaWrite p c va bs) (fun m => stands m ∧ rmaPlaces m p c va bs.length = none) (tell .accessError))) ∧
    (∀ dev pa n, let answer := fun (x : HostMsg) (m : Mach) => ({ m with hostOut := m.hostOut ++ [(0, x)] } : Mach)
      let again := fun (k : Nat) (m : Mach) => if paLocal pa then retryRange pa k m else m
      let up := fun (m : Mach) => m.planesDown.contains (pa / 256 % 16) = false
      let sound := fun (k : Nat) (wr : Bool) (m : Mach) => up m ∧ arrivalFault (again k m) p pa k wr = none
      let put := fun (bs : List Byte) (m : Mach) => (bs.zipIdx.map fun e => (pa + e.2, e.1)).foldl (fun acc e => writePa acc none none e.1 [e.2]) m
      Says.Acts (.remoteAccessArrival dev ⟨p, .load pa n⟩) (sound n false) (fun m => answer (.reply dev (readPa (again n m) pa n)) (again n m)) ∧
      (∀ bs, Says.Acts (.remoteAccessArrival dev ⟨p, .store pa bs⟩) (sound bs.length true) (fun m => answer (.reply dev []) (put bs (again bs.length m)))) ∧
      (∀ e, Says.Acts (.remoteAccessArrival dev ⟨p, .load pa n⟩) (fun m => up m ∧ arrivalFault (again n m) p pa n false = some e) (fun m => answer (.replyFault dev e) (again n m))) ∧
      (∀ e bs, Says.Acts (.remoteAccessArrival dev ⟨p, .store pa bs⟩) (fun m => up m ∧ arrivalFault (again bs.length m) p pa bs.length true = some e)
        (fun m => answer (.replyFault dev e) (again bs.length m))) ∧
      Says.Acts (.remoteAccessArrival dev ⟨p, .load pa n⟩) (fun m => ¬ up m) (fun m => m) ∧
      (∀ (m : Mach) k, paLocal pa = true → paLocal (pa + k - 1) = true → granted m p pa .write = false → arrivalFault m p pa k true = some .accessTableDeny) ∧
      ∀ sz v, let k := sizeBytes sz
        let old := fun (m : Mach) => leNat (readPa (again k m) pa k)
        (∀ o, Says.Acts (.remoteAccessArrival dev ⟨p, .atomic o sz pa v⟩) (sound k true) (fun m =>
          answer (.reply dev (leBytes k (old m))) (put (leBytes k (atomValue o k (old m) (v.toNat % 2 ^ (8 * k)))) (again k m)))) ∧
        ∀ x, Says.Acts (.remoteAccessArrival dev ⟨p, .cas sz pa v x⟩) (fun m => sound k true m ∧ old m = v.toNat % 2 ^ (8 * k)) (fun m =>
            answer (.reply dev (leBytes k (old m))) (put (leBytes k (x.toNat % 2 ^ (8 * k))) (again k m))) ∧
          Says.Acts (.remoteAccessArrival dev ⟨p, .cas sz pa v x⟩) (fun m => sound k true m ∧ old m ≠ v.toNat % 2 ^ (8 * k)) (fun m => answer (.reply dev (leBytes k (old m))) (again k m))) ∧
    (∀ g, Says.Acts (.accessTableGrant p g) (fun _ => True) (fun m => tell .ack { m with grants := m.grants ++ [g] })) ∧
    (∀ cfg, Says.Acts (.partitionCreate p cfg) (fun m => cfgOk m p cfg = true) (fun m =>
        let n := zeroOwned cfg.clusters cfg.lanes ((cfg.grants.filter fun g => decide (g.tgt = .hbm)).map fun g => (g.base, g.size)) m
        { n with parts := Store.put n.parts p (newPart cfg), grants := n.grants ++ cfg.grants.map fun g => { g with part := p } }) ∧
      (∀ m, Memory.wf m.hbm = true → (∀ g ∈ cfg.grants, g.tgt = .hbm → ∀ pa, g.base ≤ pa → pa < g.base + g.size →
        Memory.read (zeroOwned cfg.clusters cfg.lanes ((cfg.grants.filter fun g => decide (g.tgt = .hbm)).map fun g => (g.base, g.size)) m).hbm pa = 0))) ∧
    (Says.Acts (.partitionTeardown p) made (partitionTeardown p) ∧ ∀ m, made m → ((partitionTeardown p m).part p).made = false ∧
      (∀ e ∈ (partitionTeardown p m).wgs, e.2.part ≠ p) ∧ (∀ e ∈ (partitionTeardown p m).cores, ∀ x ∈ e.2.tlb, x.part ≠ p) ∧
      (∀ e ∈ (partitionTeardown p m).clusters, ∀ x ∈ e.2.tlb, x.part ≠ p) ∧ (∀ e ∈ (partitionTeardown p m).dieTlbs, ∀ x ∈ e.2, x.part ≠ p) ∧ ∀ g ∈ (partitionTeardown p m).grants, g.part ≠ p) ∧
    (∀ loc, Says.Acts (.softError loc) (fun m => m.failing.contains loc = false) (fun m => { m with failing := m.failing ++ [loc] }) ∧
      (∀ pa, Says.Acts (.hostFrameRemap (.hbm pa)) (fun _ => True) (fun m => { m with badFrames := m.badFrames.filter fun f => decide (f ≠ pa / 65536) })) ∧
      (∀ k o, Says.Acts (.hostFrameRemap (.vault k o)) (fun _ => True) (fun m => { m with badBlocks := m.badBlocks.filter fun f => decide (f ≠ vaultKey k o / 4096) }))) ∧
    (∀ (s : State) (bs : List Byte),
      (∀ d, d < 144 → exec (.linkTraining d) s = .next { s with hw := { s.hw with domain := d }, m := { s.m with planesDown := [] } }) ∧
      (∀ k, k < 16 → s.m.planesDown.contains k = false → exec (.planeLinkDown k) s = .next { s with m := { s.m with planesDown := s.m.planesDown ++ [k] } }) ∧
      (∀ key sig, s.hw.running = false → Config.shake256 key = s.hw.fuse → Config.verifies key bs sig = true →
        exec (.firmwareBoot bs key sig) s = .next { s with hw := { s.hw with running := true, firmware := bs, key := key, sig := sig } }) ∧
      (∀ key sig, Config.shake256 key ≠ s.hw.fuse ∨ Config.verifies key bs sig = false → exec (.firmwareBoot bs key sig) s = .next s) ∧
      (∀ p, bs.length = 32 → s.hw.running = false ∨ (s.m.part p).made = true → exec (.attestationRequest ⟨p, bs⟩) s =
        .next { s with hw := { s.hw with reports := s.hw.reports ++ [.report (reportBody s p bs) (Config.sign (reportBody s p bs))] } }) ∧
      ∃ t, exec .deviceReset s = .next t ∧ t.hw.running = false ∧ t.m.parts = [] ∧ t.m.wgs = [] ∧ t.m.hbm = [] ∧ t.m.vault = [] ∧ t.m.scratch = [] ∧ t.m.grants = [] ∧
        t.hw.fuse = s.hw.fuse ∧ t.m.badFrames = s.m.badFrames)

/-! ## Issues, steps, words -/

/-- R74, R75, R87: what an issue changes besides the instruction's own part.  Up to it: nothing but what every issue changes, and the group stands as it is read.  After it: registers,
predicates, flags, pending results and outstanding commands stand, no command number is used, and a run that holds more words goes on at the next one, S + 1 cycles
later. -/
def Obligations.IssueFrame : Prop :=
  ∀ (i : Instr) (w g k : Nat) (m : Mach) (s : State), let b := Says.begun i w g s
    let t := Says.issued i w g k m s
    let u := t.m.grp w g
    let v := m.grp w g
    let n := instrWords i
    Says.KeptM w g s.m b ∧ b.grp w g = Says.reads w g s ∧ b.nextCmd = s.m.nextCmd ∧ b.regions = s.m.regions ∧ (Says.reads w g s).outs = (s.m.grp w g).outs ∧
    Says.KeptM w g m t.m ∧ t.hw = s.hw ∧ t.schedule = s.schedule ∧ t.turn = s.turn ∧ t.m.nextCmd = m.nextCmd ∧
    u.regs = v.regs ∧ u.preds = v.preds ∧ u.fpflags = v.fpflags ∧ u.pend = v.pend ∧ u.outs = v.outs ∧
    ∀ r, v.run = some r → r.rest.drop n ≠ [] →
      u.run = some { r with pc := r.pc + BitVec.ofNat 64 (4 * n), rest := r.rest.drop n, started := r.started + n, noMatch := false, goes := false } ∧
        u.frontier = v.frontier ∧ u.ready = m.cycle + (instrGuard i).s.toNat + 1

/-- R73, R74, R76, R77: the checks of issue come first, in their order, and a trap of theirs is charged, counted and taken with the lanes that take effect as its cause lanes: a pair, quad
or octet off its alignment; a use of the extended block, the registers that a REORDER moves among them, that is not held; with checking on, a fixed-latency result read too early;
with checking on, a variable-latency result outstanding on a register named, and always on those that an XREL gives back or a REORDER moves (R57, R134); with none of these, a class
count of 63 holds the instruction.
Readings and choices of the model used (no rules of the spec): log 23, 56. -/
def Obligations.IssueChecks : Prop :=
  ∀ (i : Instr) (w g : Nat) (s : State), let n := settle w g s.m
    let y := n.grp w g
    let x := mkIss i w g n
    let traps := fun c info => exec i s = .next { s with m := trapAtIssue x c info x.eff 0 (charge w g (instrTempi i) 0 (countIssue x n)) }
    let off := ∃ o ∈ instrOpnds i, o.n ≠ 0 ∧ o.r % o.al ≠ 0
    let ext := (∃ o ∈ instrOpnds i, o.n ≠ 0 ∧ 32 ≤ o.r + (o.n - 1)) ∨ ∃ r ∈ movedRegs i y, 32 ≤ r
    let early := if (n.wg w).checking = true then stallProducer i y else none
    let late := if (n.wg w).checking = true then (waitProducer i y) <|> (alwaysProducer i y) else alwaysProducer i y
    instrIsEvent i = false → s.hw.running = true → s.m.cur = some (w, g) →
      (off → traps .misalignedPair (freeInfo n)) ∧
      (¬ off → ext → y.extHeld = false → traps .extNotHeld (freeInfo n)) ∧
      (¬ off → (ext → y.extHeld = true) → ∀ pc, early = some pc → traps .stallUndersized pc) ∧
      (¬ off → (ext → y.extHeld = true) → early = none → ∀ pc, late = some pc → traps .waitMissing pc) ∧
      (¬ off → (ext → y.extHeld = true) → early = none → late = none → ∀ c, instrWaitClass i = some c → 63 ≤ (y.outs.filter fun o => decide (o.cls = c)).length →
        exec i s = .next { s with m := resourceHold (atResource (s.m.grp w g)) (.cls c) w g n })

/-- R10, R79: where no lane takes effect these instructions issue and have no effect: memory accesses, barriers, commands of engines, system-register writes.
Readings and choices of the model used (no rules of the spec): log 54. -/
def Obligations.PredicatedOff : Prop :=
  ∀ (d a b : Reg) (ofs : BitVec 6) (n4 : BitVec 4) (n5 : BitVec 5) (n6 : BitVec 6) (k2 : BitVec 2) (pd : BitVec 3) (k8 : BitVec 8) (b1 : Bool) (w1 : BitVec 1) (ord : Order) (sc : Scope)
    (sz : MSize) (op : AtomOp) (cm nb : Bool) (mode : PhMode) (sr : SReg) (gd : Guard),
    let off := fun (i : Instr) => Says.Ends i (fun w g s => Says.eff i w g s = 0) (fun _ _ _ => 0) (fun _ _ _ m => m)
    (∀ i ∈ [Instr.ld8s d a ofs gd, .ld8z d a ofs gd, .ld16s d a ofs gd, .ld16z d a ofs gd, .ld32 d a ofs gd, .ld64 d a ofs gd, .ld128 d a ofs gd, .st8 d a ofs gd, .st16 d a ofs gd,
      .st32 d a ofs gd, .st64 d a ofs gd, .st128 d a ofs gd, .lds32 d a ofs gd, .lds64 d a ofs gd, .lds128 d a ofs gd, .sts32 d a ofs gd, .sts64 d a ofs gd, .sts128 d a ofs gd,
      .ldv32 d a ofs gd, .ldv128 d a ofs gd, .stv32 d a ofs gd, .stv128 d a ofs gd, .ldo d a ord sc sz gd, .sto d a ord sc sz gd, .red d a ord sc cm sz op gd, .cas d a b ord sc sz gd, .bara n4 gd, .barw n4 gd, .baraw n4 gd, .phregNew d mode gd,
      .phreg d a mode gd, .phdrop a gd, .phsig a gd, .phwait d a gd, .phsw d a gd, .gnodeArm d a gd, .gnodeSig d a k8 gd, .gnodeTile a n4 gd, .gnodeFree a gd,
      .publishDecl b1 k2 a b gd, .publish k2 gd, .publishDrop k2 gd, .qrecv d a k8 pd nb n6 gd, .capld d n6 gd, .oclaim n5 gd, .orelease n5 gd, .tacq d n4 gd, .trel n4 gd,
      .tzero n4 gd, .tld d a n4 gd, .tst d a n4 gd, .mstat d n6 gd, .kstat d w1 gd, .sets a sr gd, .btopup a b gd, .xacq gd, .xrel gd, .ownmarkPriv d a b1 gd,
      .ownmarkShared d a b1 gd], off i)

/-- R71, R78: the decoder reads the words written out from the encodings of the spec: D in bits 23:18, A in 17:12, B in 11:6, P in 5:3, N in 2, S in 1:0, the
ten-bit immediate of format I in 11:2, the offset of format B in 19:2 with P in 23:21 and N in 20. -/
def Obligations.DecodeWords : Prop :=
  decodeTableWord 32 0b00000011000001000010000011111000 = some (.iadd 1 2 3 ⟨7, 0, 0⟩) ∧
  decodeTableWord 64 0x0208_0038 = some (.ldi 2 0 ⟨7, 0, 0⟩) ∧
  decodeTableWord 32 0b00101010010001000000000000010000 = some (.iseti .lt 1 0 4 0) ∧
  decodeTableWord 64 (0b01000011000100000001000001111000 + 0x200 * 2 ^ 32) = some (.ffma 4 1 1 2 .rne ⟨7, 0, 0⟩) ∧
  decodeTableWord 32 0b11100000111000000000000000001100 = some (.bra 3 ⟨7, 0, 0⟩) ∧
  decodeTableWord 32 0xFF000000 = none

/-- R71, R78: DECODE AND ENCODE AGREE.  For every well-formed instruction with an encoding, the decoder reads its words, laid out as the machine stores them, back as that instruction and
leaves the bytes after them; and whatever the decoder accepts is a well-formed instruction whose encoding is exactly the bytes it took. -/
def Obligations.EncodeDecode : Prop :=
  let bytes := fun (ws : List Word) => ws.flatMap fun w => leBytes 4 w.toNat
  (∀ (i : Instr) (ws : List Word) (rest : List Byte), i.wf = true → encode i = some ws → decodeBytes (bytes ws ++ rest) = .ok (i, rest)) ∧
  ∀ (bs rest : List Byte) (i : Instr), decodeBytes bs = .ok (i, rest) → i.wf = true ∧ ∃ ws, encode i = some ws ∧ bs = bytes ws ++ rest

/-- R73, R75, R96, R187: A STEP RUNS THE DECODED INSTRUCTION.  Once the write-combining lines that have been held for 1,024 cycles are emptied, which changes nothing where there is none:
where the group that issues next can issue and the bytes of its run's words decode to an instruction, the step is the instruction's meaning with that group issuing, and the schedule's
or the default order's own count moved on (log 1); a word with a reserved field is RESERVED_FIELD; a step of the table that the schedule names is its meaning.
Readings and choices of the model used (no rules of the spec): log 1. -/
def Obligations.StepRunsDecoded : Prop :=
  ∀ (w g : Nat) (i : Instr) (cs : List Choice) (s : State),
    let a := s.aged
    let r := (a.m.grp w g).run.getD default
    let bytes := r.rest.flatMap fun v => leBytes 4 v.toNat
    let on := fun (t : State) => { t with m := { t.m with cur := some (w, g) } }
    ((∀ e ∈ s.m.cores, agedLines s.m.cycle e.2 = []) → a = s) ∧
    (canIssue a.m w g = true → ∀ tail, decodeBytes bytes = .ok (i, tail) →
      (s.schedule = .issue w g :: cs → step s = exec i (on { a with schedule := cs })) ∧
      (s.schedule = [] → nextTurn s.turn a.m = .issue w g → step s = exec i (on { a with turn := s.turn + 1 }))) ∧
    (canIssue a.m w g = true → s.hw.running = true → s.schedule = .issue w g :: cs → (∃ e, nextInstr r = .error e) →
      step s = .next { on { a with schedule := cs } with m := issueReserved w g (on a).m }) ∧
    (s.schedule = .event i :: cs → instrIsEvent i = true → step s = exec i { a with schedule := cs })

/-- R428: a device in recovery executes nothing: every instruction, and every step of the table but the boot of a firmware image, an attestation request, a reset and the training and loss of
links, changes nothing.
Readings and choices of the model used (no rules of the spec): log 9, 90. -/
def Obligations.RecoveryExecutesNothing : Prop :=
  ∀ (i : Instr) (s : State), s.hw.running = false →
    (match i with | .firmwareBoot _ _ _ | .attestationRequest _ | .deviceReset | .linkTraining _ | .planeLinkDown _ => false | _ => true) = true → exec i s = .next s

/-- R428: AN INVARIANT THAT EVERY STEP KEEPS: while the device runs, the firmware it runs is one that the boot ROM accepted: its signature verifies against a key whose SHAKE256 hash is the fused
one.
Readings and choices of the model used (no rules of the spec): log 9. -/
def Obligations.BootInvariantStep : Prop :=
  let inv := fun (s : State) => s.hw.running = true → Config.shake256 s.hw.key = s.hw.fuse ∧ Config.verifies s.hw.key s.hw.firmware s.hw.sig = true
  ∀ s t : State, inv s → step s = .next t → inv t

/-- R111, R427, R428: right after reset the device is in recovery, so that the boot invariant holds, the clock is zero, no partition, workgroup or launch exists, and, as the model chooses (log 4),
every byte of local memory, vaults and scratchpads reads zero, in memories that are in canonical form.
Readings and choices of the model used (no rules of the spec): log 3, 4. -/
def Obligations.ResetState : Prop :=
  let s := State.reset
  s.hw.running = false ∧ s.m.cycle = 0 ∧ s.m.parts = [] ∧ s.m.wgs = [] ∧ s.m.launches = [] ∧ s.m.cur = none ∧
    (∀ a, Memory.read s.m.hbm a = 0 ∧ Memory.read s.m.vault a = 0 ∧ Memory.read s.m.scratch a = 0) ∧
    Memory.wf s.m.hbm = true ∧ Memory.wf s.m.vault = true ∧ Memory.wf s.m.scratch = true ∧
    (s.hw.running = true → Config.shake256 s.hw.key = s.hw.fuse ∧ Config.verifies s.hw.key s.hw.firmware s.hw.sig = true)
end

