-- ==== Sys2Proof/Laws/Store.lean ====
section
/-! SUPPORT. Tables and memories: a read after a write, other keys, the canonical form. -/

namespace Sys2Proof.Laws

open Sys2Proof.Machine

section Tables

variable {α : Type}

/-- A read after a write to the same key gives the value written. -/
@[simp] theorem Store_get_put_same (d : α) (s : Store α) (k : Nat) (v : α) : Store.get d (Store.put s k v) k = v := by
  induction s with
  | nil => simp [Store.put, Store.get]
  | cons e r ih =>
    obtain ⟨k', u⟩ := e
    simp only [Store.put]
    split
    · simp [Store.get]
    · split
      · simp [Store.get]
      · simp only [Store.get]
        rw [if_neg (by assumption), if_neg (by assumption), ih]

/-- A write leaves every other key alone. -/
theorem Store_get_put_other (d : α) (s : Store α) (k j : Nat) (v : α) (h : j ≠ k) : Store.get d (Store.put s k v) j = Store.get d s j := by
  induction s with
  | nil => simp [Store.put, Store.get, h]
  | cons e r ih =>
    obtain ⟨k', u⟩ := e
    simp only [Store.put]
    split
    · subst_vars; simp [Store.get, h]
    · split
      · simp only [Store.get]
        rw [if_neg h]
        by_cases h1 : j < k
        · rw [if_pos h1, if_neg (by omega), if_pos (by omega)]
        · rw [if_neg h1]
      · simp only [Store.get, ih]

@[simp] theorem Store_get_upd_same (d : α) (s : Store α) (k : Nat) (f : α → α) : Store.get d (Store.upd d s k f) k = f (Store.get d s k) := by
  simp [Store.upd]

theorem Store_get_upd_other (d : α) (s : Store α) (k j : Nat) (f : α → α) (h : j ≠ k) : Store.get d (Store.upd d s k f) j = Store.get d s j :=
  Store_get_put_other d s k j _ h

end Tables

section Canonical

variable {α : Type} [DecidableEq α]

theorem Store_get_below (d : α) (s : Store α) (b k : Nat) (h : Store.wfFrom d b s = true) (hk : k < b) : Store.get d s k = d := by
  cases s with
  | nil => rfl
  | cons e r =>
    obtain ⟨k', v⟩ := e
    simp only [Store.wfFrom, Bool.and_eq_true, decide_eq_true_eq] at h
    simp only [Store.get]
    rw [if_neg (by omega), if_pos (by omega)]

theorem Store_wfFrom_mono (d : α) (s : Store α) (b c : Nat) (h : Store.wfFrom d c s = true) (hb : b ≤ c) : Store.wfFrom d b s = true := by
  cases s with
  | nil => rfl
  | cons e r =>
    obtain ⟨k', v⟩ := e
    simp only [Store.wfFrom, Bool.and_eq_true, decide_eq_true_eq] at h ⊢
    exact ⟨⟨by omega, h.1.2⟩, h.2⟩

/-- Every write keeps the canonical form. -/
theorem Store_set_wfFrom (d : α) (s : Store α) (b k : Nat) (v : α) (h : Store.wfFrom d b s = true) (hk : b ≤ k) :
    Store.wfFrom d b (Store.set d s k v) = true := by
  induction s generalizing b with
  | nil =>
    simp only [Store.set]
    split <;> simp_all [Store.wfFrom]
  | cons e r ih =>
    obtain ⟨k', u⟩ := e
    simp only [Store.wfFrom, Bool.and_eq_true, decide_eq_true_eq] at h
    obtain ⟨⟨h1, h2⟩, h3⟩ := h
    simp only [Store.set]
    split
    · subst_vars
      split
      · exact Store_wfFrom_mono d r b (k' + 1) h3 (by omega)
      · simp_all [Store.wfFrom]
    · split
      · split
        · simp_all [Store.wfFrom]
        · simp only [Store.wfFrom, Bool.and_eq_true, decide_eq_true_eq]
          exact ⟨⟨hk, by assumption⟩, ⟨⟨by omega, h2⟩, h3⟩⟩
      · simp only [Store.wfFrom, Bool.and_eq_true, decide_eq_true_eq]
        exact ⟨⟨h1, h2⟩, ih (k' + 1) h3 (by omega)⟩

theorem Store_set_wf (d : α) (s : Store α) (k : Nat) (v : α) (h : Store.wf d s = true) : Store.wf d (Store.set d s k v) = true :=
  Store_set_wfFrom d s 0 k v h (Nat.zero_le k)

/-- A read after a write to the same key gives the value written (in a canonical table, where the default is written by removal). -/
theorem Store_get_set_same (d : α) (s : Store α) (k : Nat) (v : α) (h : Store.wf d s = true) : Store.get d (Store.set d s k v) k = v := by
  suffices H : ∀ b, Store.wfFrom d b s = true → Store.get d (Store.set d s k v) k = v from H 0 h
  clear h
  induction s with
  | nil =>
    intro b _
    simp only [Store.set]
    split <;> simp_all [Store.get]
  | cons e r ih =>
    intro b h
    obtain ⟨k', u⟩ := e
    simp only [Store.wfFrom, Bool.and_eq_true, decide_eq_true_eq] at h
    simp only [Store.set]
    split
    · subst_vars
      split
      · subst_vars; exact Store_get_below v r (k' + 1) k' h.2 (by omega)
      · simp [Store.get]
    · split
      · split
        · subst_vars; simp only [Store.get]; rw [if_neg (by assumption), if_pos (by assumption)]
        · simp [Store.get]
      · simp only [Store.get]
        rw [if_neg (by assumption), if_neg (by assumption)]
        exact ih _ h.2

/-- A write leaves every other key alone. -/
theorem Store_get_set_other (d : α) (s : Store α) (k j : Nat) (v : α) (hw : Store.wf d s = true) (hj : j ≠ k) :
    Store.get d (Store.set d s k v) j = Store.get d s j := by
  suffices H : ∀ b, Store.wfFrom d b s = true → Store.get d (Store.set d s k v) j = Store.get d s j from H 0 hw
  clear hw
  induction s with
  | nil =>
    intro b _
    simp only [Store.set]
    split <;> simp_all [Store.get]
  | cons e r ih =>
    intro b h
    obtain ⟨k', u⟩ := e
    simp only [Store.wfFrom, Bool.and_eq_true, decide_eq_true_eq] at h
    simp only [Store.set]
    split
    · subst_vars
      split
      · simp only [Store.get]
        by_cases h1 : j < k'
        · rw [if_neg hj, if_pos h1]; exact Store_get_below d r (k' + 1) j h.2 (by omega)
        · rw [if_neg hj, if_neg h1]
      · simp [Store.get, hj]
    · split
      · split
        · rfl
        · simp only [Store.get]
          rw [if_neg hj]
          by_cases h1 : j < k
          · rw [if_pos h1, if_neg (by omega), if_pos (by omega)]
          · rw [if_neg h1]
      · simp only [Store.get]
        split
        · rfl
        · split
          · rfl
          · exact ih _ h.2

/-- A memory keeps its canonical form under a write. -/
theorem Memory_write_wf (mem : Memory) (a : Nat) (b : Byte) (h : Memory.wf mem = true) : Memory.wf (Memory.write mem a b) = true :=
  Store_set_wf 0 mem a b h

theorem Memory_writeN_wf (bs : List Byte) (mem : Memory) (a : Nat) (h : Memory.wf mem = true) : Memory.wf (Memory.writeN mem a bs) = true := by
  induction bs generalizing mem a with
  | nil => exact h
  | cons b bs ih => exact ih _ _ (Memory_write_wf mem a b h)

theorem Memory_read_write_same (mem : Memory) (a : Nat) (b : Byte) (h : Memory.wf mem = true) : Memory.read (Memory.write mem a b) a = b :=
  Store_get_set_same 0 mem a b h

theorem Memory_read_write_other (mem : Memory) (a c : Nat) (b : Byte) (hw : Memory.wf mem = true) (h : c ≠ a) : Memory.read (Memory.write mem a b) c = Memory.read mem c :=
  Store_get_set_other 0 mem a c b hw h

/-- Bytes written leave every address outside them alone. -/
theorem Memory_read_writeN_outside (bs : List Byte) (mem : Memory) (a c : Nat) (hw : Memory.wf mem = true) (h : c < a ∨ a + bs.length ≤ c) :
    Memory.read (Memory.writeN mem a bs) c = Memory.read mem c := by
  induction bs generalizing mem a with
  | nil => rfl
  | cons b bs ih =>
    simp only [List.length_cons] at h
    rw [Memory.writeN, ih _ _ (Memory_write_wf mem a b hw) (by omega), Memory_read_write_other _ _ _ _ hw (by omega)]

theorem Store_wfFrom_filter (d : α) (p : Nat × α → Bool) (s : Store α) (b : Nat) (h : Store.wfFrom d b s = true) :
    Store.wfFrom d b (s.filter p) = true := by
  induction s generalizing b with
  | nil => exact h
  | cons e r ih =>
    obtain ⟨k, v⟩ := e
    simp only [Store.wfFrom, Bool.and_eq_true, decide_eq_true_eq] at h
    simp only [List.filter]
    split
    · simp only [Store.wfFrom, Bool.and_eq_true, decide_eq_true_eq]
      exact ⟨h.1, ih (k + 1) h.2⟩
    · exact Store_wfFrom_mono d _ b (k + 1) (ih (k + 1) h.2) (by omega)

theorem Memory_dropRange_wf (mem : Memory) (lo hi : Nat) (h : Memory.wf mem = true) : Memory.wf (Memory.dropRange mem lo hi) = true :=
  Store_wfFrom_filter 0 _ mem 0 h

end Canonical

end Sys2Proof.Laws
end

