-- ==== Sys2Proof/Laws/State.lean ====
section
/-! SUPPORT. State laws: what each named change of the machine, of a workgroup and of a group leaves as it was, one lemma per field; and reads after changes. -/

namespace Sys2Proof.Laws

open Sys2Proof.Machine


section

variable (m : Mach) (w : Nat) (f : Wg → Wg)

@[simp] theorem modW_cycle : (m.modW w f).cycle = m.cycle := rfl
@[simp] theorem modW_freeCtr : (m.modW w f).freeCtr = m.freeCtr := rfl
@[simp] theorem modW_cur : (m.modW w f).cur = m.cur := rfl
@[simp] theorem modW_nextCmd : (m.modW w f).nextCmd = m.nextCmd := rfl
@[simp] theorem modW_nextWg : (m.modW w f).nextWg = m.nextWg := rfl
@[simp] theorem modW_launches : (m.modW w f).launches = m.launches := rfl
@[simp] theorem modW_nextLaunch : (m.modW w f).nextLaunch = m.nextLaunch := rfl
@[simp] theorem modW_parts : (m.modW w f).parts = m.parts := rfl
@[simp] theorem modW_cores : (m.modW w f).cores = m.cores := rfl
@[simp] theorem modW_hbm : (m.modW w f).hbm = m.hbm := rfl
@[simp] theorem modW_vault : (m.modW w f).vault = m.vault := rfl
@[simp] theorem modW_scratch : (m.modW w f).scratch = m.scratch := rfl
@[simp] theorem modW_dieTlbs : (m.modW w f).dieTlbs = m.dieTlbs := rfl
@[simp] theorem modW_walks : (m.modW w f).walks = m.walks := rfl
@[simp] theorem modW_badFrames : (m.modW w f).badFrames = m.badFrames := rfl
@[simp] theorem modW_badBlocks : (m.modW w f).badBlocks = m.badBlocks := rfl
@[simp] theorem modW_badRows : (m.modW w f).badRows = m.badRows := rfl
@[simp] theorem modW_failing : (m.modW w f).failing = m.failing := rfl
@[simp] theorem modW_transients : (m.modW w f).transients = m.transients := rfl
@[simp] theorem modW_regions : (m.modW w f).regions = m.regions := rfl
@[simp] theorem modW_copies : (m.modW w f).copies = m.copies := rfl
@[simp] theorem modW_nextCopy : (m.modW w f).nextCopy = m.nextCopy := rfl
@[simp] theorem modW_slices : (m.modW w f).slices = m.slices := rfl
@[simp] theorem modW_nextSlice : (m.modW w f).nextSlice = m.nextSlice := rfl
@[simp] theorem modW_clusters : (m.modW w f).clusters = m.clusters := rfl
@[simp] theorem modW_elanes : (m.modW w f).elanes = m.elanes := rfl
@[simp] theorem modW_sealed_ : (m.modW w f).sealed_ = m.sealed_ := rfl
@[simp] theorem modW_grants : (m.modW w f).grants = m.grants := rfl
@[simp] theorem modW_planesDown : (m.modW w f).planesDown = m.planesDown := rfl
@[simp] theorem modW_hostOut : (m.modW w f).hostOut = m.hostOut := rfl

end


section

variable (m : Mach) (w g : Nat) (f : Group → Group)

@[simp] theorem modG_cycle : (m.modG w g f).cycle = m.cycle := rfl
@[simp] theorem modG_freeCtr : (m.modG w g f).freeCtr = m.freeCtr := rfl
@[simp] theorem modG_cur : (m.modG w g f).cur = m.cur := rfl
@[simp] theorem modG_nextCmd : (m.modG w g f).nextCmd = m.nextCmd := rfl
@[simp] theorem modG_nextWg : (m.modG w g f).nextWg = m.nextWg := rfl
@[simp] theorem modG_launches : (m.modG w g f).launches = m.launches := rfl
@[simp] theorem modG_nextLaunch : (m.modG w g f).nextLaunch = m.nextLaunch := rfl
@[simp] theorem modG_parts : (m.modG w g f).parts = m.parts := rfl
@[simp] theorem modG_cores : (m.modG w g f).cores = m.cores := rfl
@[simp] theorem modG_hbm : (m.modG w g f).hbm = m.hbm := rfl
@[simp] theorem modG_vault : (m.modG w g f).vault = m.vault := rfl
@[simp] theorem modG_scratch : (m.modG w g f).scratch = m.scratch := rfl
@[simp] theorem modG_dieTlbs : (m.modG w g f).dieTlbs = m.dieTlbs := rfl
@[simp] theorem modG_walks : (m.modG w g f).walks = m.walks := rfl
@[simp] theorem modG_badFrames : (m.modG w g f).badFrames = m.badFrames := rfl
@[simp] theorem modG_badBlocks : (m.modG w g f).badBlocks = m.badBlocks := rfl
@[simp] theorem modG_badRows : (m.modG w g f).badRows = m.badRows := rfl
@[simp] theorem modG_failing : (m.modG w g f).failing = m.failing := rfl
@[simp] theorem modG_transients : (m.modG w g f).transients = m.transients := rfl
@[simp] theorem modG_regions : (m.modG w g f).regions = m.regions := rfl
@[simp] theorem modG_copies : (m.modG w g f).copies = m.copies := rfl
@[simp] theorem modG_nextCopy : (m.modG w g f).nextCopy = m.nextCopy := rfl
@[simp] theorem modG_slices : (m.modG w g f).slices = m.slices := rfl
@[simp] theorem modG_nextSlice : (m.modG w g f).nextSlice = m.nextSlice := rfl
@[simp] theorem modG_clusters : (m.modG w g f).clusters = m.clusters := rfl
@[simp] theorem modG_elanes : (m.modG w g f).elanes = m.elanes := rfl
@[simp] theorem modG_sealed_ : (m.modG w g f).sealed_ = m.sealed_ := rfl
@[simp] theorem modG_grants : (m.modG w g f).grants = m.grants := rfl
@[simp] theorem modG_planesDown : (m.modG w g f).planesDown = m.planesDown := rfl
@[simp] theorem modG_hostOut : (m.modG w g f).hostOut = m.hostOut := rfl

end


section

variable (m : Mach) (k : Nat) (f : Launch → Launch)

@[simp] theorem modL_cycle : (m.modL k f).cycle = m.cycle := rfl
@[simp] theorem modL_freeCtr : (m.modL k f).freeCtr = m.freeCtr := rfl
@[simp] theorem modL_cur : (m.modL k f).cur = m.cur := rfl
@[simp] theorem modL_nextCmd : (m.modL k f).nextCmd = m.nextCmd := rfl
@[simp] theorem modL_wgs : (m.modL k f).wgs = m.wgs := rfl
@[simp] theorem modL_nextWg : (m.modL k f).nextWg = m.nextWg := rfl
@[simp] theorem modL_nextLaunch : (m.modL k f).nextLaunch = m.nextLaunch := rfl
@[simp] theorem modL_parts : (m.modL k f).parts = m.parts := rfl
@[simp] theorem modL_cores : (m.modL k f).cores = m.cores := rfl
@[simp] theorem modL_hbm : (m.modL k f).hbm = m.hbm := rfl
@[simp] theorem modL_vault : (m.modL k f).vault = m.vault := rfl
@[simp] theorem modL_scratch : (m.modL k f).scratch = m.scratch := rfl
@[simp] theorem modL_dieTlbs : (m.modL k f).dieTlbs = m.dieTlbs := rfl
@[simp] theorem modL_walks : (m.modL k f).walks = m.walks := rfl
@[simp] theorem modL_badFrames : (m.modL k f).badFrames = m.badFrames := rfl
@[simp] theorem modL_badBlocks : (m.modL k f).badBlocks = m.badBlocks := rfl
@[simp] theorem modL_badRows : (m.modL k f).badRows = m.badRows := rfl
@[simp] theorem modL_failing : (m.modL k f).failing = m.failing := rfl
@[simp] theorem modL_transients : (m.modL k f).transients = m.transients := rfl
@[simp] theorem modL_regions : (m.modL k f).regions = m.regions := rfl
@[simp] theorem modL_copies : (m.modL k f).copies = m.copies := rfl
@[simp] theorem modL_nextCopy : (m.modL k f).nextCopy = m.nextCopy := rfl
@[simp] theorem modL_slices : (m.modL k f).slices = m.slices := rfl
@[simp] theorem modL_nextSlice : (m.modL k f).nextSlice = m.nextSlice := rfl
@[simp] theorem modL_clusters : (m.modL k f).clusters = m.clusters := rfl
@[simp] theorem modL_elanes : (m.modL k f).elanes = m.elanes := rfl
@[simp] theorem modL_sealed_ : (m.modL k f).sealed_ = m.sealed_ := rfl
@[simp] theorem modL_grants : (m.modL k f).grants = m.grants := rfl
@[simp] theorem modL_planesDown : (m.modL k f).planesDown = m.planesDown := rfl
@[simp] theorem modL_hostOut : (m.modL k f).hostOut = m.hostOut := rfl

end


section

variable (m : Mach) (p : Nat) (f : Part → Part)

@[simp] theorem modP_cycle : (m.modP p f).cycle = m.cycle := rfl
@[simp] theorem modP_freeCtr : (m.modP p f).freeCtr = m.freeCtr := rfl
@[simp] theorem modP_cur : (m.modP p f).cur = m.cur := rfl
@[simp] theorem modP_nextCmd : (m.modP p f).nextCmd = m.nextCmd := rfl
@[simp] theorem modP_wgs : (m.modP p f).wgs = m.wgs := rfl
@[simp] theorem modP_nextWg : (m.modP p f).nextWg = m.nextWg := rfl
@[simp] theorem modP_launches : (m.modP p f).launches = m.launches := rfl
@[simp] theorem modP_nextLaunch : (m.modP p f).nextLaunch = m.nextLaunch := rfl
@[simp] theorem modP_cores : (m.modP p f).cores = m.cores := rfl
@[simp] theorem modP_hbm : (m.modP p f).hbm = m.hbm := rfl
@[simp] theorem modP_vault : (m.modP p f).vault = m.vault := rfl
@[simp] theorem modP_scratch : (m.modP p f).scratch = m.scratch := rfl
@[simp] theorem modP_dieTlbs : (m.modP p f).dieTlbs = m.dieTlbs := rfl
@[simp] theorem modP_walks : (m.modP p f).walks = m.walks := rfl
@[simp] theorem modP_badFrames : (m.modP p f).badFrames = m.badFrames := rfl
@[simp] theorem modP_badBlocks : (m.modP p f).badBlocks = m.badBlocks := rfl
@[simp] theorem modP_badRows : (m.modP p f).badRows = m.badRows := rfl
@[simp] theorem modP_failing : (m.modP p f).failing = m.failing := rfl
@[simp] theorem modP_transients : (m.modP p f).transients = m.transients := rfl
@[simp] theorem modP_regions : (m.modP p f).regions = m.regions := rfl
@[simp] theorem modP_copies : (m.modP p f).copies = m.copies := rfl
@[simp] theorem modP_nextCopy : (m.modP p f).nextCopy = m.nextCopy := rfl
@[simp] theorem modP_slices : (m.modP p f).slices = m.slices := rfl
@[simp] theorem modP_nextSlice : (m.modP p f).nextSlice = m.nextSlice := rfl
@[simp] theorem modP_clusters : (m.modP p f).clusters = m.clusters := rfl
@[simp] theorem modP_elanes : (m.modP p f).elanes = m.elanes := rfl
@[simp] theorem modP_sealed_ : (m.modP p f).sealed_ = m.sealed_ := rfl
@[simp] theorem modP_grants : (m.modP p f).grants = m.grants := rfl
@[simp] theorem modP_planesDown : (m.modP p f).planesDown = m.planesDown := rfl
@[simp] theorem modP_hostOut : (m.modP p f).hostOut = m.hostOut := rfl

end


section

variable (m : Mach) (p c : Nat) (f : Ctx → Ctx)

@[simp] theorem modC_cycle : (m.modC p c f).cycle = m.cycle := rfl
@[simp] theorem modC_freeCtr : (m.modC p c f).freeCtr = m.freeCtr := rfl
@[simp] theorem modC_cur : (m.modC p c f).cur = m.cur := rfl
@[simp] theorem modC_nextCmd : (m.modC p c f).nextCmd = m.nextCmd := rfl
@[simp] theorem modC_wgs : (m.modC p c f).wgs = m.wgs := rfl
@[simp] theorem modC_nextWg : (m.modC p c f).nextWg = m.nextWg := rfl
@[simp] theorem modC_launches : (m.modC p c f).launches = m.launches := rfl
@[simp] theorem modC_nextLaunch : (m.modC p c f).nextLaunch = m.nextLaunch := rfl
@[simp] theorem modC_cores : (m.modC p c f).cores = m.cores := rfl
@[simp] theorem modC_hbm : (m.modC p c f).hbm = m.hbm := rfl
@[simp] theorem modC_vault : (m.modC p c f).vault = m.vault := rfl
@[simp] theorem modC_scratch : (m.modC p c f).scratch = m.scratch := rfl
@[simp] theorem modC_dieTlbs : (m.modC p c f).dieTlbs = m.dieTlbs := rfl
@[simp] theorem modC_walks : (m.modC p c f).walks = m.walks := rfl
@[simp] theorem modC_badFrames : (m.modC p c f).badFrames = m.badFrames := rfl
@[simp] theorem modC_badBlocks : (m.modC p c f).badBlocks = m.badBlocks := rfl
@[simp] theorem modC_badRows : (m.modC p c f).badRows = m.badRows := rfl
@[simp] theorem modC_failing : (m.modC p c f).failing = m.failing := rfl
@[simp] theorem modC_transients : (m.modC p c f).transients = m.transients := rfl
@[simp] theorem modC_regions : (m.modC p c f).regions = m.regions := rfl
@[simp] theorem modC_copies : (m.modC p c f).copies = m.copies := rfl
@[simp] theorem modC_nextCopy : (m.modC p c f).nextCopy = m.nextCopy := rfl
@[simp] theorem modC_slices : (m.modC p c f).slices = m.slices := rfl
@[simp] theorem modC_nextSlice : (m.modC p c f).nextSlice = m.nextSlice := rfl
@[simp] theorem modC_clusters : (m.modC p c f).clusters = m.clusters := rfl
@[simp] theorem modC_elanes : (m.modC p c f).elanes = m.elanes := rfl
@[simp] theorem modC_sealed_ : (m.modC p c f).sealed_ = m.sealed_ := rfl
@[simp] theorem modC_grants : (m.modC p c f).grants = m.grants := rfl
@[simp] theorem modC_planesDown : (m.modC p c f).planesDown = m.planesDown := rfl
@[simp] theorem modC_hostOut : (m.modC p c f).hostOut = m.hostOut := rfl

end


section

variable (m : Mach) (k : Nat) (f : Core → Core)

@[simp] theorem modK_cycle : (m.modK k f).cycle = m.cycle := rfl
@[simp] theorem modK_freeCtr : (m.modK k f).freeCtr = m.freeCtr := rfl
@[simp] theorem modK_cur : (m.modK k f).cur = m.cur := rfl
@[simp] theorem modK_nextCmd : (m.modK k f).nextCmd = m.nextCmd := rfl
@[simp] theorem modK_wgs : (m.modK k f).wgs = m.wgs := rfl
@[simp] theorem modK_nextWg : (m.modK k f).nextWg = m.nextWg := rfl
@[simp] theorem modK_launches : (m.modK k f).launches = m.launches := rfl
@[simp] theorem modK_nextLaunch : (m.modK k f).nextLaunch = m.nextLaunch := rfl
@[simp] theorem modK_parts : (m.modK k f).parts = m.parts := rfl
@[simp] theorem modK_hbm : (m.modK k f).hbm = m.hbm := rfl
@[simp] theorem modK_vault : (m.modK k f).vault = m.vault := rfl
@[simp] theorem modK_scratch : (m.modK k f).scratch = m.scratch := rfl
@[simp] theorem modK_dieTlbs : (m.modK k f).dieTlbs = m.dieTlbs := rfl
@[simp] theorem modK_walks : (m.modK k f).walks = m.walks := rfl
@[simp] theorem modK_badFrames : (m.modK k f).badFrames = m.badFrames := rfl
@[simp] theorem modK_badBlocks : (m.modK k f).badBlocks = m.badBlocks := rfl
@[simp] theorem modK_badRows : (m.modK k f).badRows = m.badRows := rfl
@[simp] theorem modK_failing : (m.modK k f).failing = m.failing := rfl
@[simp] theorem modK_transients : (m.modK k f).transients = m.transients := rfl
@[simp] theorem modK_regions : (m.modK k f).regions = m.regions := rfl
@[simp] theorem modK_copies : (m.modK k f).copies = m.copies := rfl
@[simp] theorem modK_nextCopy : (m.modK k f).nextCopy = m.nextCopy := rfl
@[simp] theorem modK_slices : (m.modK k f).slices = m.slices := rfl
@[simp] theorem modK_nextSlice : (m.modK k f).nextSlice = m.nextSlice := rfl
@[simp] theorem modK_clusters : (m.modK k f).clusters = m.clusters := rfl
@[simp] theorem modK_elanes : (m.modK k f).elanes = m.elanes := rfl
@[simp] theorem modK_sealed_ : (m.modK k f).sealed_ = m.sealed_ := rfl
@[simp] theorem modK_grants : (m.modK k f).grants = m.grants := rfl
@[simp] theorem modK_planesDown : (m.modK k f).planesDown = m.planesDown := rfl
@[simp] theorem modK_hostOut : (m.modK k f).hostOut = m.hostOut := rfl

end


section

variable (m : Mach) (k : Nat) (f : Copy → Copy)

@[simp] theorem modCopy_cycle : (m.modCopy k f).cycle = m.cycle := rfl
@[simp] theorem modCopy_freeCtr : (m.modCopy k f).freeCtr = m.freeCtr := rfl
@[simp] theorem modCopy_cur : (m.modCopy k f).cur = m.cur := rfl
@[simp] theorem modCopy_nextCmd : (m.modCopy k f).nextCmd = m.nextCmd := rfl
@[simp] theorem modCopy_wgs : (m.modCopy k f).wgs = m.wgs := rfl
@[simp] theorem modCopy_nextWg : (m.modCopy k f).nextWg = m.nextWg := rfl
@[simp] theorem modCopy_launches : (m.modCopy k f).launches = m.launches := rfl
@[simp] theorem modCopy_nextLaunch : (m.modCopy k f).nextLaunch = m.nextLaunch := rfl
@[simp] theorem modCopy_parts : (m.modCopy k f).parts = m.parts := rfl
@[simp] theorem modCopy_cores : (m.modCopy k f).cores = m.cores := rfl
@[simp] theorem modCopy_hbm : (m.modCopy k f).hbm = m.hbm := rfl
@[simp] theorem modCopy_vault : (m.modCopy k f).vault = m.vault := rfl
@[simp] theorem modCopy_scratch : (m.modCopy k f).scratch = m.scratch := rfl
@[simp] theorem modCopy_dieTlbs : (m.modCopy k f).dieTlbs = m.dieTlbs := rfl
@[simp] theorem modCopy_walks : (m.modCopy k f).walks = m.walks := rfl
@[simp] theorem modCopy_badFrames : (m.modCopy k f).badFrames = m.badFrames := rfl
@[simp] theorem modCopy_badBlocks : (m.modCopy k f).badBlocks = m.badBlocks := rfl
@[simp] theorem modCopy_badRows : (m.modCopy k f).badRows = m.badRows := rfl
@[simp] theorem modCopy_failing : (m.modCopy k f).failing = m.failing := rfl
@[simp] theorem modCopy_transients : (m.modCopy k f).transients = m.transients := rfl
@[simp] theorem modCopy_regions : (m.modCopy k f).regions = m.regions := rfl
@[simp] theorem modCopy_nextCopy : (m.modCopy k f).nextCopy = m.nextCopy := rfl
@[simp] theorem modCopy_slices : (m.modCopy k f).slices = m.slices := rfl
@[simp] theorem modCopy_nextSlice : (m.modCopy k f).nextSlice = m.nextSlice := rfl
@[simp] theorem modCopy_clusters : (m.modCopy k f).clusters = m.clusters := rfl
@[simp] theorem modCopy_elanes : (m.modCopy k f).elanes = m.elanes := rfl
@[simp] theorem modCopy_sealed_ : (m.modCopy k f).sealed_ = m.sealed_ := rfl
@[simp] theorem modCopy_grants : (m.modCopy k f).grants = m.grants := rfl
@[simp] theorem modCopy_planesDown : (m.modCopy k f).planesDown = m.planesDown := rfl
@[simp] theorem modCopy_hostOut : (m.modCopy k f).hostOut = m.hostOut := rfl

end


section

variable (m : Mach) (k : Nat) (f : Slice → Slice)

@[simp] theorem modSlice_cycle : (m.modSlice k f).cycle = m.cycle := rfl
@[simp] theorem modSlice_freeCtr : (m.modSlice k f).freeCtr = m.freeCtr := rfl
@[simp] theorem modSlice_cur : (m.modSlice k f).cur = m.cur := rfl
@[simp] theorem modSlice_nextCmd : (m.modSlice k f).nextCmd = m.nextCmd := rfl
@[simp] theorem modSlice_wgs : (m.modSlice k f).wgs = m.wgs := rfl
@[simp] theorem modSlice_nextWg : (m.modSlice k f).nextWg = m.nextWg := rfl
@[simp] theorem modSlice_launches : (m.modSlice k f).launches = m.launches := rfl
@[simp] theorem modSlice_nextLaunch : (m.modSlice k f).nextLaunch = m.nextLaunch := rfl
@[simp] theorem modSlice_parts : (m.modSlice k f).parts = m.parts := rfl
@[simp] theorem modSlice_cores : (m.modSlice k f).cores = m.cores := rfl
@[simp] theorem modSlice_hbm : (m.modSlice k f).hbm = m.hbm := rfl
@[simp] theorem modSlice_vault : (m.modSlice k f).vault = m.vault := rfl
@[simp] theorem modSlice_scratch : (m.modSlice k f).scratch = m.scratch := rfl
@[simp] theorem modSlice_dieTlbs : (m.modSlice k f).dieTlbs = m.dieTlbs := rfl
@[simp] theorem modSlice_walks : (m.modSlice k f).walks = m.walks := rfl
@[simp] theorem modSlice_badFrames : (m.modSlice k f).badFrames = m.badFrames := rfl
@[simp] theorem modSlice_badBlocks : (m.modSlice k f).badBlocks = m.badBlocks := rfl
@[simp] theorem modSlice_badRows : (m.modSlice k f).badRows = m.badRows := rfl
@[simp] theorem modSlice_failing : (m.modSlice k f).failing = m.failing := rfl
@[simp] theorem modSlice_transients : (m.modSlice k f).transients = m.transients := rfl
@[simp] theorem modSlice_regions : (m.modSlice k f).regions = m.regions := rfl
@[simp] theorem modSlice_copies : (m.modSlice k f).copies = m.copies := rfl
@[simp] theorem modSlice_nextCopy : (m.modSlice k f).nextCopy = m.nextCopy := rfl
@[simp] theorem modSlice_nextSlice : (m.modSlice k f).nextSlice = m.nextSlice := rfl
@[simp] theorem modSlice_clusters : (m.modSlice k f).clusters = m.clusters := rfl
@[simp] theorem modSlice_elanes : (m.modSlice k f).elanes = m.elanes := rfl
@[simp] theorem modSlice_sealed_ : (m.modSlice k f).sealed_ = m.sealed_ := rfl
@[simp] theorem modSlice_grants : (m.modSlice k f).grants = m.grants := rfl
@[simp] theorem modSlice_planesDown : (m.modSlice k f).planesDown = m.planesDown := rfl
@[simp] theorem modSlice_hostOut : (m.modSlice k f).hostOut = m.hostOut := rfl

end


section

variable (m : Mach)

@[simp] theorem useFree_cycle : (m.useFree).cycle = m.cycle := rfl
@[simp] theorem useFree_cur : (m.useFree).cur = m.cur := rfl
@[simp] theorem useFree_nextCmd : (m.useFree).nextCmd = m.nextCmd := rfl
@[simp] theorem useFree_wgs : (m.useFree).wgs = m.wgs := rfl
@[simp] theorem useFree_nextWg : (m.useFree).nextWg = m.nextWg := rfl
@[simp] theorem useFree_launches : (m.useFree).launches = m.launches := rfl
@[simp] theorem useFree_nextLaunch : (m.useFree).nextLaunch = m.nextLaunch := rfl
@[simp] theorem useFree_parts : (m.useFree).parts = m.parts := rfl
@[simp] theorem useFree_cores : (m.useFree).cores = m.cores := rfl
@[simp] theorem useFree_hbm : (m.useFree).hbm = m.hbm := rfl
@[simp] theorem useFree_vault : (m.useFree).vault = m.vault := rfl
@[simp] theorem useFree_scratch : (m.useFree).scratch = m.scratch := rfl
@[simp] theorem useFree_dieTlbs : (m.useFree).dieTlbs = m.dieTlbs := rfl
@[simp] theorem useFree_walks : (m.useFree).walks = m.walks := rfl
@[simp] theorem useFree_badFrames : (m.useFree).badFrames = m.badFrames := rfl
@[simp] theorem useFree_badBlocks : (m.useFree).badBlocks = m.badBlocks := rfl
@[simp] theorem useFree_badRows : (m.useFree).badRows = m.badRows := rfl
@[simp] theorem useFree_failing : (m.useFree).failing = m.failing := rfl
@[simp] theorem useFree_transients : (m.useFree).transients = m.transients := rfl
@[simp] theorem useFree_regions : (m.useFree).regions = m.regions := rfl
@[simp] theorem useFree_copies : (m.useFree).copies = m.copies := rfl
@[simp] theorem useFree_nextCopy : (m.useFree).nextCopy = m.nextCopy := rfl
@[simp] theorem useFree_slices : (m.useFree).slices = m.slices := rfl
@[simp] theorem useFree_nextSlice : (m.useFree).nextSlice = m.nextSlice := rfl
@[simp] theorem useFree_clusters : (m.useFree).clusters = m.clusters := rfl
@[simp] theorem useFree_elanes : (m.useFree).elanes = m.elanes := rfl
@[simp] theorem useFree_sealed_ : (m.useFree).sealed_ = m.sealed_ := rfl
@[simp] theorem useFree_grants : (m.useFree).grants = m.grants := rfl
@[simp] theorem useFree_planesDown : (m.useFree).planesDown = m.planesDown := rfl
@[simp] theorem useFree_hostOut : (m.useFree).hostOut = m.hostOut := rfl

end


section

variable (w g : Nat) (m : Mach)

@[simp] theorem dropSlot_cycle : (dropSlot w g m).cycle = m.cycle := rfl
@[simp] theorem dropSlot_freeCtr : (dropSlot w g m).freeCtr = m.freeCtr := rfl
@[simp] theorem dropSlot_cur : (dropSlot w g m).cur = m.cur := rfl
@[simp] theorem dropSlot_nextCmd : (dropSlot w g m).nextCmd = m.nextCmd := rfl
@[simp] theorem dropSlot_wgs : (dropSlot w g m).wgs = m.wgs := rfl
@[simp] theorem dropSlot_nextWg : (dropSlot w g m).nextWg = m.nextWg := rfl
@[simp] theorem dropSlot_launches : (dropSlot w g m).launches = m.launches := rfl
@[simp] theorem dropSlot_nextLaunch : (dropSlot w g m).nextLaunch = m.nextLaunch := rfl
@[simp] theorem dropSlot_parts : (dropSlot w g m).parts = m.parts := rfl
@[simp] theorem dropSlot_hbm : (dropSlot w g m).hbm = m.hbm := rfl
@[simp] theorem dropSlot_vault : (dropSlot w g m).vault = m.vault := rfl
@[simp] theorem dropSlot_scratch : (dropSlot w g m).scratch = m.scratch := rfl
@[simp] theorem dropSlot_dieTlbs : (dropSlot w g m).dieTlbs = m.dieTlbs := rfl
@[simp] theorem dropSlot_walks : (dropSlot w g m).walks = m.walks := rfl
@[simp] theorem dropSlot_badFrames : (dropSlot w g m).badFrames = m.badFrames := rfl
@[simp] theorem dropSlot_badBlocks : (dropSlot w g m).badBlocks = m.badBlocks := rfl
@[simp] theorem dropSlot_badRows : (dropSlot w g m).badRows = m.badRows := rfl
@[simp] theorem dropSlot_failing : (dropSlot w g m).failing = m.failing := rfl
@[simp] theorem dropSlot_transients : (dropSlot w g m).transients = m.transients := rfl
@[simp] theorem dropSlot_regions : (dropSlot w g m).regions = m.regions := rfl
@[simp] theorem dropSlot_copies : (dropSlot w g m).copies = m.copies := rfl
@[simp] theorem dropSlot_nextCopy : (dropSlot w g m).nextCopy = m.nextCopy := rfl
@[simp] theorem dropSlot_slices : (dropSlot w g m).slices = m.slices := rfl
@[simp] theorem dropSlot_nextSlice : (dropSlot w g m).nextSlice = m.nextSlice := rfl
@[simp] theorem dropSlot_clusters : (dropSlot w g m).clusters = m.clusters := rfl
@[simp] theorem dropSlot_elanes : (dropSlot w g m).elanes = m.elanes := rfl
@[simp] theorem dropSlot_sealed_ : (dropSlot w g m).sealed_ = m.sealed_ := rfl
@[simp] theorem dropSlot_grants : (dropSlot w g m).grants = m.grants := rfl
@[simp] theorem dropSlot_planesDown : (dropSlot w g m).planesDown = m.planesDown := rfl
@[simp] theorem dropSlot_hostOut : (dropSlot w g m).hostOut = m.hostOut := rfl

end


section

variable (w g id : Nat) (m : Mach)

@[simp] theorem dropOut_cycle : (dropOut w g id m).cycle = m.cycle := rfl
@[simp] theorem dropOut_freeCtr : (dropOut w g id m).freeCtr = m.freeCtr := rfl
@[simp] theorem dropOut_cur : (dropOut w g id m).cur = m.cur := rfl
@[simp] theorem dropOut_nextCmd : (dropOut w g id m).nextCmd = m.nextCmd := rfl
@[simp] theorem dropOut_nextWg : (dropOut w g id m).nextWg = m.nextWg := rfl
@[simp] theorem dropOut_launches : (dropOut w g id m).launches = m.launches := rfl
@[simp] theorem dropOut_nextLaunch : (dropOut w g id m).nextLaunch = m.nextLaunch := rfl
@[simp] theorem dropOut_parts : (dropOut w g id m).parts = m.parts := rfl
@[simp] theorem dropOut_cores : (dropOut w g id m).cores = m.cores := rfl
@[simp] theorem dropOut_hbm : (dropOut w g id m).hbm = m.hbm := rfl
@[simp] theorem dropOut_vault : (dropOut w g id m).vault = m.vault := rfl
@[simp] theorem dropOut_scratch : (dropOut w g id m).scratch = m.scratch := rfl
@[simp] theorem dropOut_dieTlbs : (dropOut w g id m).dieTlbs = m.dieTlbs := rfl
@[simp] theorem dropOut_walks : (dropOut w g id m).walks = m.walks := rfl
@[simp] theorem dropOut_badFrames : (dropOut w g id m).badFrames = m.badFrames := rfl
@[simp] theorem dropOut_badBlocks : (dropOut w g id m).badBlocks = m.badBlocks := rfl
@[simp] theorem dropOut_badRows : (dropOut w g id m).badRows = m.badRows := rfl
@[simp] theorem dropOut_failing : (dropOut w g id m).failing = m.failing := rfl
@[simp] theorem dropOut_transients : (dropOut w g id m).transients = m.transients := rfl
@[simp] theorem dropOut_regions : (dropOut w g id m).regions = m.regions := rfl
@[simp] theorem dropOut_copies : (dropOut w g id m).copies = m.copies := rfl
@[simp] theorem dropOut_nextCopy : (dropOut w g id m).nextCopy = m.nextCopy := rfl
@[simp] theorem dropOut_slices : (dropOut w g id m).slices = m.slices := rfl
@[simp] theorem dropOut_nextSlice : (dropOut w g id m).nextSlice = m.nextSlice := rfl
@[simp] theorem dropOut_clusters : (dropOut w g id m).clusters = m.clusters := rfl
@[simp] theorem dropOut_elanes : (dropOut w g id m).elanes = m.elanes := rfl
@[simp] theorem dropOut_sealed_ : (dropOut w g id m).sealed_ = m.sealed_ := rfl
@[simp] theorem dropOut_grants : (dropOut w g id m).grants = m.grants := rfl
@[simp] theorem dropOut_planesDown : (dropOut w g id m).planesDown = m.planesDown := rfl
@[simp] theorem dropOut_hostOut : (dropOut w g id m).hostOut = m.hostOut := rfl

end


section

variable (y : Group) (r l : Nat) (v : Word)

@[simp] theorem setReg_slot : (y.setReg r l v).slot = y.slot := rfl
@[simp] theorem setReg_preds : (y.setReg r l v).preds = y.preds := rfl
@[simp] theorem setReg_tid : (y.setReg r l v).tid = y.tid := rfl
@[simp] theorem setReg_fpflags : (y.setReg r l v).fpflags = y.fpflags := rfl
@[simp] theorem setReg_fpmode : (y.setReg r l v).fpmode = y.fpmode := rfl
@[simp] theorem setReg_trapmask : (y.setReg r l v).trapmask = y.trapmask := rfl
@[simp] theorem setReg_live : (y.setReg r l v).live = y.live := rfl
@[simp] theorem setReg_extHeld : (y.setReg r l v).extHeld = y.extHeld := rfl
@[simp] theorem setReg_extPending : (y.setReg r l v).extPending = y.extPending := rfl
@[simp] theorem setReg_trapCause : (y.setReg r l v).trapCause = y.trapCause := rfl
@[simp] theorem setReg_trapPc : (y.setReg r l v).trapPc = y.trapPc := rfl
@[simp] theorem setReg_trapInfo : (y.setReg r l v).trapInfo = y.trapInfo := rfl
@[simp] theorem setReg_trapMode : (y.setReg r l v).trapMode = y.trapMode := rfl
@[simp] theorem setReg_frontier : (y.setReg r l v).frontier = y.frontier := rfl
@[simp] theorem setReg_run : (y.setReg r l v).run = y.run := rfl
@[simp] theorem setReg_held : (y.setReg r l v).held = y.held := rfl
@[simp] theorem setReg_ready : (y.setReg r l v).ready = y.ready := rfl
@[simp] theorem setReg_gaveUp : (y.setReg r l v).gaveUp = y.gaveUp := rfl
@[simp] theorem setReg_stood : (y.setReg r l v).stood = y.stood := rfl
@[simp] theorem setReg_slotYield : (y.setReg r l v).slotYield = y.slotYield := rfl
@[simp] theorem setReg_pend : (y.setReg r l v).pend = y.pend := rfl
@[simp] theorem setReg_outs : (y.setReg r l v).outs = y.outs := rfl
@[simp] theorem setReg_copiesIssued : (y.setReg r l v).copiesIssued = y.copiesIssued := rfl
@[simp] theorem setReg_lser : (y.setReg r l v).lser = y.lser := rfl
@[simp] theorem setReg_reorder : (y.setReg r l v).reorder = y.reorder := rfl
@[simp] theorem setReg_arrived : (y.setReg r l v).arrived = y.arrived := rfl
@[simp] theorem setReg_endedTurn : (y.setReg r l v).endedTurn = y.endedTurn := rfl
@[simp] theorem setReg_locks : (y.setReg r l v).locks = y.locks := rfl
@[simp] theorem setReg_retries : (y.setReg r l v).retries = y.retries := rfl
@[simp] theorem setReg_exiting : (y.setReg r l v).exiting = y.exiting := rfl

end


/-! ## Reads after changes -/

@[simp] theorem wg_modW_same (m : Mach) (w : Nat) (f : Wg → Wg) : (m.modW w f).wg w = f (m.wg w) := by
  simp [Mach.wg, Mach.modW]

theorem wg_modW_other (m : Mach) (w v : Nat) (f : Wg → Wg) (h : v ≠ w) : (m.modW w f).wg v = m.wg v :=
  Store_get_upd_other _ _ _ _ _ h

@[simp] theorem grp_modG_same (m : Mach) (w g : Nat) (f : Group → Group) : (m.modG w g f).grp w g = f (m.grp w g) := by
  simp [Mach.grp, Mach.modG]

theorem grp_modG_other (m : Mach) (w g h : Nat) (f : Group → Group) (hg : h ≠ g) : (m.modG w g f).grp w h = m.grp w h := by
  simp [Mach.grp, Mach.modG, Store_get_upd_other _ _ _ _ _ hg]

theorem wg_modG_other (m : Mach) (w v g : Nat) (f : Group → Group) (h : v ≠ w) : (m.modG w g f).wg v = m.wg v :=
  wg_modW_other m w v _ h

theorem wg_modG_same (m : Mach) (w g : Nat) (f : Group → Group) :
    (m.modG w g f).wg w = { m.wg w with groups := Store.upd default (m.wg w).groups g f } := by
  simp [Mach.modG]

@[simp] theorem core_modK_same (m : Mach) (k : Nat) (f : Core → Core) : (m.modK k f).core k = f (m.core k) := by
  simp [Mach.core, Mach.modK]

theorem core_modK_other (m : Mach) (k j : Nat) (f : Core → Core) (h : j ≠ k) : (m.modK k f).core j = m.core j :=
  Store_get_upd_other _ _ _ _ _ h

@[simp] theorem part_modP_same (m : Mach) (p : Nat) (f : Part → Part) : (m.modP p f).part p = f (m.part p) := by
  simp [Mach.part, Mach.modP]

@[simp] theorem ctx_modC_same (m : Mach) (p c : Nat) (f : Ctx → Ctx) : (m.modC p c f).ctx p c = f (m.ctx p c) := by
  simp [Mach.ctx, Mach.modC]

@[simp] theorem launch_modL_same (m : Mach) (k : Nat) (f : Launch → Launch) : (m.modL k f).launch k = f (m.launch k) := by
  simp [Mach.launch, Mach.modL]

@[simp] theorem wg_modK (m : Mach) (k w : Nat) (f : Core → Core) : (m.modK k f).wg w = m.wg w := rfl

@[simp] theorem grp_modK (m : Mach) (k w g : Nat) (f : Core → Core) : (m.modK k f).grp w g = m.grp w g := rfl

@[simp] theorem wg_dropSlot (m : Mach) (w g v : Nat) : (dropSlot w g m).wg v = m.wg v := rfl

@[simp] theorem grp_dropSlot (m : Mach) (w g v h : Nat) : (dropSlot w g m).grp v h = m.grp v h := rfl

/-- A register reads what was written to it. -/
@[simp] theorem reg_setReg_same (y : Group) (r l : Nat) (v : Word) : (y.setReg r l v).reg r l = v := by
  simp [Group.reg, Group.setReg]

/-- A write leaves every other register of every lane alone. -/
theorem reg_setReg_other (y : Group) (r l r' l' : Nat) (v : Word) (hl : l < 32) (hl' : l' < 32) (h : r' ≠ r ∨ l' ≠ l) :
    (y.setReg r l v).reg r' l' = y.reg r' l' :=
  Store_get_put_other _ _ _ _ _ (by omega)

/-- A predicate other than pt reads what was written to it; pt reads true whatever was written (spec 05 R79). -/
theorem pred_setPred_same (y : Group) (p l : Nat) (v : Bool) : (y.setPred p l v).pred p l = (decide (p = 7) || v) := by
  by_cases h : p = 7 <;> simp [Group.pred, Group.setPred, h]

theorem pred_setPred_other (y : Group) (p l p' l' : Nat) (v : Bool) (hl : l < 32) (hl' : l' < 32) (h : p' ≠ p ∨ l' ≠ l) :
    (y.setPred p l v).pred p' l' = y.pred p' l' := by
  by_cases h7 : p' = 7
  · simp [Group.pred, h7]
  · by_cases hp : p = 7
    · simp [Group.setPred, hp]
    · simp only [Group.pred, Group.setPred, h7, hp, if_false]
      exact Store_get_put_other _ _ _ _ _ (by omega)

end Sys2Proof.Laws
end

