-- ==== Sys2Proof/Laws/Issue.lean ====
section
/-! SUPPORT. Laws of the shared operations of issue: what each can change, and what an instruction whose own part ends well answers. -/

namespace Sys2Proof

open Machine Laws

/-! ## The frame composes -/

theorem Says.KeptM.refl (w g : Nat) (m : Mach) : Says.KeptM w g m m :=
  ⟨rfl, rfl, fun _ _ => rfl, rfl, fun _ _ => rfl, rfl, fun _ _ => rfl, rfl⟩

/-- The core of the workgroup is not changed by an issue. -/
theorem Says.KeptM.sameCore {w g : Nat} {m n : Mach} (h : Says.KeptM w g m n) : (n.wg w).core = (m.wg w).core := by
  have := congrArg Wg.core h.wg
  simpa [Says.restW] using this

theorem Says.KeptM.trans {w g : Nat} {a b c : Mach} (h : Says.KeptM w g a b) (k : Says.KeptM w g b c) : Says.KeptM w g a c where
  rest := k.rest.trans h.rest
  regions := k.regions.trans h.regions
  wgs v hv := (k.wgs v hv).trans (h.wgs v hv)
  wg := k.wg.trans h.wg
  grps v hv := (k.grps v hv).trans (h.grps v hv)
  grp := k.grp.trans h.grp
  cores v hv := by rw [k.cores v (by rw [h.sameCore]; exact hv), h.cores v hv]
  core := by rw [← h.core, ← h.sameCore, k.core]

/-- A change of what a group keeps no account of. -/
theorem Says.KeptM.modG {w g : Nat} {m : Mach} {f : Group → Group} (h : Says.restG (f (m.grp w g)) = Says.restG (m.grp w g)) :
    Says.KeptM w g m (m.modG w g f) where
  rest := rfl
  regions := rfl
  wgs v hv := wg_modG_other m w v g f hv
  wg := by rw [wg_modG_same]; rfl
  grps v hv := grp_modG_other m w g v f hv
  grp := by rw [grp_modG_same]; exact h
  cores _ _ := rfl
  core := rfl

/-- A change of what a workgroup keeps no account of. -/
theorem Says.KeptM.modW {w g : Nat} {m : Mach} {f : Wg → Wg} (h : Says.restW (f (m.wg w)) = Says.restW (m.wg w))
    (hg : (f (m.wg w)).groups = (m.wg w).groups) : Says.KeptM w g m (m.modW w f) where
  rest := rfl
  regions := rfl
  wgs v hv := wg_modW_other m w v f hv
  wg := by rw [wg_modW_same]; exact h
  grps v _ := by simp [Mach.grp, hg]
  grp := by simp [Mach.grp, hg]
  cores _ _ := rfl
  core := rfl

/-- A change of what a core keeps no account of. -/
theorem Says.KeptM.modK {w g : Nat} {m : Mach} {f : Core → Core} (h : Says.restC (f (m.core (m.wg w).core)) = Says.restC (m.core (m.wg w).core)) :
    Says.KeptM w g m (m.modK (m.wg w).core f) where
  rest := rfl
  regions := rfl
  wgs _ _ := rfl
  wg := rfl
  grps _ _ := rfl
  grp := rfl
  cores _ hc := core_modK_other _ _ _ _ hc
  core := by rw [core_modK_same]; exact h

theorem Says.KeptM.cycle {w g : Nat} (m : Mach) (n : Nat) : Says.KeptM w g m { m with cycle := n } :=
  ⟨rfl, rfl, fun _ _ => rfl, rfl, fun _ _ => rfl, rfl, fun _ _ => rfl, rfl⟩

end Sys2Proof

namespace Sys2Proof.Laws

open Sys2Proof Sys2Proof.Machine Sys2Proof.Says

/-! ## Registers of a group -/

@[simp] theorem restG_setReg (y : Group) (r l : Nat) (v : Word) : Says.restG (y.setReg r l v) = Says.restG y := rfl

@[simp] theorem restG_setPred (y : Group) (p l : Nat) (v : Bool) : Says.restG (y.setPred p l v) = Says.restG y := by
  unfold Group.setPred; split <;> rfl

@[simp] theorem restG_land1 (y : Group) (u : LaneWrite) : Says.restG (y.land1 u) = Says.restG y := by
  cases u <;> simp [Group.land1]; rfl

@[simp] theorem outs_land1 (y : Group) (u : LaneWrite) : (y.land1 u).outs = y.outs := by
  cases u <;> simp [Group.land1, Group.setPred]; split <;> rfl

@[simp] theorem restG_landAll (ws : List LaneWrite) (y : Group) : Says.restG (y.landAll ws) = Says.restG y := by
  induction ws generalizing y with
  | nil => rfl
  | cons u us ih => exact (ih _).trans (restG_land1 y u)

@[simp] theorem outs_landAll (ws : List LaneWrite) (y : Group) : (y.landAll ws).outs = y.outs := by
  induction ws generalizing y with
  | nil => rfl
  | cons u us ih => exact (ih _).trans (outs_land1 y u)

theorem landPend_rest (now : Nat) (ps kept : List Pend) (y : Group) :
    Says.restG (landPend now kept y ps).1 = Says.restG y ∧ (landPend now kept y ps).1.outs = y.outs := by
  induction ps generalizing kept y with
  | nil => exact ⟨rfl, rfl⟩
  | cons p ps ih =>
    simp only [landPend]
    split
    · exact ⟨(ih _ _).1.trans (restG_landAll _ _), (ih _ _).2.trans (outs_landAll _ _)⟩
    · exact ih _ _

theorem restG_landDue (y : Group) (n : Nat) : Says.restG (y.landDue n) = Says.restG y := (landPend_rest n y.pend [] y).1

theorem outs_landDue (y : Group) (n : Nat) : (y.landDue n).outs = y.outs := (landPend_rest n y.pend [] y).2

/-! ## The parts of an issue -/

theorem settle_kept (w g : Nat) (m : Mach) : Says.KeptM w g m (settle w g m) :=
  (KeptM.cycle m (issueCycle w g m)).trans (KeptM.modG (f := fun y => { y.landDue (issueCycle w g m) with held := none }) (restG_landDue _ _))

theorem settle_outs (w g : Nat) (m : Mach) : ((settle w g m).grp w g).outs = (m.grp w g).outs := by
  simp only [settle, grp_modG_same]
  exact outs_landDue _ _

theorem afterCharge_rest (n : Nat) (lim : Word) (x : Wg) : Says.restW (afterCharge n lim x) = Says.restW x ∧ (afterCharge n lim x).groups = x.groups := by
  unfold afterCharge
  split <;> split <;> exact ⟨rfl, rfl⟩

theorem charge_kept (w g h i s : Nat) (m : Mach) : Says.KeptM w g m (charge w h i s m) := by
  unfold charge
  split
  · exact KeptM.refl _ _ _
  · exact KeptM.modW ((afterCharge_rest _ _ _).1.trans rfl) (afterCharge_rest _ _ _).2

/-- A charge changes no group. -/
@[simp] theorem charge_grp (w h i s v k : Nat) (m : Mach) : (charge w h i s m).grp v k = m.grp v k := by
  unfold charge
  split
  · rfl
  · by_cases hv : v = w
    · subst hv; simp [Mach.grp, (afterCharge_rest _ _ _).2]
    · simp [Mach.grp, wg_modW_other _ _ _ _ hv]

theorem countCycle_rest (a : Option DWord) (ns : List (Nat × Nat)) (k : Core) : Says.restC (countCycle a ns k) = Says.restC k := by
  unfold countCycle; simp only; split <;> rfl

theorem idleUntil_rest (m : Mach) (j : Nat) (k : Core) : Says.restC (idleUntil m j k) = Says.restC k := (countCycle_rest _ _ k)

theorem countCore_rest (x : Iss) (m : Mach) (k : Core) : Says.restC (countCore x m k) = Says.restC k := by
  unfold countCore
  refine (countCycle_rest _ _ _).trans ?_
  split
  · rfl
  · exact idleUntil_rest _ _ _

theorem countIssue_kept (x : Iss) (m : Mach) (g : Nat) : Says.KeptM x.w g m (countIssue x m) := by
  refine (KeptM.modK (f := countCore x m) (countCore_rest _ _ _)).trans (KeptM.modW ?_ ?_) <;> split <;> rfl

@[simp] theorem countIssue_grp (x : Iss) (m : Mach) (v k : Nat) : (countIssue x m).grp v k = m.grp v k := by
  unfold countIssue
  by_cases hv : v = x.w
  · subst hv; simp only [Mach.grp, wg_modW_same]; split <;> rfl
  · simp only [Mach.grp, wg_modW_other _ _ _ _ hv]; rfl

theorem enterPipe_kept (i : Instr) (w g : Nat) (m : Mach) : Says.KeptM w g m (enterPipe i w m) :=
  (KeptM.cycle m _).trans (KeptM.modK rfl)

@[simp] theorem enterPipe_grp (i : Instr) (w v k : Nat) (m : Mach) : (enterPipe i w m).grp v k = m.grp v k := rfl

/-- The group whose instruction issues stands, in its own part, as the instruction reads it. -/
@[simp] theorem begun_grp (i : Instr) (w g : Nat) (s : State) (v k : Nat) : (Says.begun i w g s).grp v k = (settle w g s.m).grp v k := by
  simp [Says.begun]

theorem begun_kept (i : Instr) (w g : Nat) (s : State) : Says.KeptM w g s.m (Says.begun i w g s) :=
  (settle_kept w g s.m).trans ((countIssue_kept (mkIss i w g (settle w g s.m)) _ g).trans ((enterPipe_kept i w g _).trans (charge_kept w g g _ _ _)))

/-! ## The end of a word -/

theorem standAt_kept (w g : Nat) (a : DWord) (k : Mask) (m : Mach) : Says.KeptM w g m (standAt w g a k m) := KeptM.modG rfl

theorem dropSlot_kept (w g : Nat) (m : Mach) : Says.KeptM w g m (dropSlot w g m) := by
  refine KeptM.modK ?_
  split
  · rfl
  · exact idleUntil_rest _ _ _

theorem foldl_kept {α : Type} (w g : Nat) (f : Mach → α → Mach) (h : ∀ m a, Says.KeptM w g m (f m a)) (as : List α) (m : Mach) :
    Says.KeptM w g m (as.foldl f m) := by
  induction as generalizing m with
  | nil => exact KeptM.refl _ _ _
  | cons a as ih => exact (h m a).trans (ih _)

theorem endRun_kept (w g : Nat) (m : Mach) : Says.KeptM w g m (endRun w g m) := by
  unfold endRun
  split
  · exact KeptM.refl _ _ _
  · exact (standAt_kept _ _ _ _ _).trans
      ((foldl_kept w g _ (fun _ _ => standAt_kept _ _ _ _ _) _ _).trans ((dropSlot_kept _ _ _).trans (KeptM.modG rfl)))

theorem finishWord_kept (w g n st : Nat) (m : Mach) : Says.KeptM w g m (finishWord w g n st m) := by
  unfold finishWord
  split
  · exact KeptM.refl _ _ _
  · dsimp only
    split
    · exact KeptM.modG rfl
    · split
      · exact (KeptM.modG rfl).trans (endRun_kept _ _ _)
      · exact (KeptM.modG rfl).trans (KeptM.modG rfl)

/-- A group's registers, predicates, flags, pending results and commands. -/
def vals (y : Group) : Store Word × Store Bool × Store Word × List Pend × List Out := (y.regs, y.preds, y.fpflags, y.pend, y.outs)

theorem standAt_vals (w g : Nat) (a : DWord) (k : Mask) (m : Mach) : vals ((standAt w g a k m).grp w g) = vals (m.grp w g) := by
  simp [standAt, vals]

theorem foldl_vals {α : Type} (w g : Nat) (f : Mach → α → Mach) (h : ∀ m a, vals ((f m a).grp w g) = vals (m.grp w g)) (as : List α) (m : Mach) :
    vals ((as.foldl f m).grp w g) = vals (m.grp w g) := by
  induction as generalizing m with
  | nil => rfl
  | cons a as ih => exact (ih _).trans (h m a)

theorem endRun_vals (w g : Nat) (m : Mach) : vals ((endRun w g m).grp w g) = vals (m.grp w g) := by
  unfold endRun
  split
  · rfl
  · rename_i r _
    simp only [grp_dropSlot, grp_modG_same]
    rw [← standAt_vals w g r.pc (r.lanes &&& (m.grp w g).live &&& ~~~r.moved) m,
      ← foldl_vals w g (fun acc (x : DWord × Mask) => standAt w g x.1 (x.2 &&& (m.grp w g).live) acc) (fun _ _ => standAt_vals _ _ _ _ _) r.moves]
    rfl

/-- The end of a word leaves registers, predicates, flags, pending results and commands alone. -/
theorem finishWord_vals (w g n st : Nat) (m : Mach) : vals ((finishWord w g n st m).grp w g) = vals (m.grp w g) := by
  unfold finishWord
  split
  · rfl
  · dsimp only
    split
    · simp [vals]
    · split
      · rw [endRun_vals]; simp [vals]
      · simp [vals]

theorem finishIssue_kept (i : Instr) (x : Iss) (k : Nat) (m : Mach) : Says.KeptM x.w x.g m (finishIssue i x k m) :=
  (charge_kept x.w x.g x.g 0 k m).trans (finishWord_kept _ _ _ _ _)

theorem finishIssue_vals (i : Instr) (x : Iss) (k : Nat) (m : Mach) : vals ((finishIssue i x k m).grp x.w x.g) = vals (m.grp x.w x.g) := by
  simp only [finishIssue, finishWord_vals, charge_grp]

@[simp] theorem restR_clearTags (q : Region) (rs : List Nat) : restR (q.clearTags rs) = restR q := rfl

@[simp] theorem restR_plain (q : Region) (b : Bool) : restR { q with plain := b } = restR q := rfl

@[simp] theorem restR_setTag (q : Region) (t : Tag) : restR (q.setTag t) = restR q := by
  unfold Region.setTag; dsimp only; split <;> split <;> rfl

@[simp] theorem restR_addConstr (q : Region) (c : Constr) : restR (q.addConstr c) = restR q := by
  unfold Region.addConstr; split <;> rfl

@[simp] theorem restR_compare (q : Region) (cc : ICond) (two : Bool) (t : Tag) (f : Bool) (va vb : DWord) :
    restR (q.compare cc two t f va vb) = restR q := restR_addConstr _ _

/-- Following an instruction changes nothing of a region but its tags. -/
theorem follow_restR (q : Region) (y : Group) (l : Nat) (i : Instr) : restR (q.follow y l i) = restR q := by
  unfold Region.follow
  have hp : restR ((if q.tagged (regReads i) then { q with plain := true } else q).clearTags (regWrites i)) = restR q := by
    rw [restR_clearTags]; split <;> rfl
  generalize ((if q.tagged (regReads i) then { q with plain := true } else q).clearTags (regWrites i)) = p at hp ⊢
  cases tagForm y l i <;> dsimp only <;> repeat' split
  all_goals first | exact hp | exact restR_setTag _ _ | exact restR_compare _ _ _ _ _ _ _ | exact restR_plain _ _

theorem followTags_kept (i : Instr) (w g : Nat) (k : Mask) (y : Group) (m : Mach) : Says.KeptM w g m (followTags i w g k y m) where
  rest := rfl
  regions := by
    simp only [followTags, List.map_map]
    congr 1; funext q; simp only [Function.comp]; split
    · exact follow_restR _ _ _ _
    · rfl
  wgs _ _ := rfl
  wg := rfl
  grps _ _ := rfl
  grp := rfl
  cores _ _ := rfl
  core := rfl

/-! ## What an issue answers -/

@[simp] theorem mkIss_w (i : Instr) (w g : Nat) (m : Mach) : (mkIss i w g m).w = w := rfl

@[simp] theorem mkIss_g (i : Instr) (w g : Nat) (m : Mach) : (mkIss i w g m).g = g := rfl

/-- An issue that passes its checks is performed. -/
theorem issue_ready {i : Instr} {w g : Nat} {s : State} {own : Iss → Mach → Own} (hr : Says.Ready i w g s) :
    issue i own w g s.m = perform (atResource (s.m.grp w g)) i (mkIss i w g (settle w g s.m)) own (settle w g s.m) := by
  have h1 := hr.checks
  have h2 := hr.room
  unfold issue
  generalize settle w g s.m = n at h1 h2 ⊢
  dsimp only
  rw [h1]
  dsimp only
  rw [h2]
  rfl

/-- An instruction whose own part ends well answers the state after its issue. -/
theorem execute_done {i : Instr} {w g : Nat} {s : State} {own : Iss → Mach → Own} {k : Nat} {m : Mach} (hr : Says.Ready i w g s)
    (ho : own (mkIss i w g (settle w g s.m)) (Says.begun i w g s) = .done k m) : execute i own s = .next (Says.issued i w g k m s) := by
  unfold execute
  rw [if_pos hr.running, hr.cur]
  dsimp only
  rw [issue_ready hr]
  unfold Says.issued Says.reads Says.begun perform at *
  generalize settle w g s.m = n at ho ⊢
  dsimp only [mkIss_w, mkIss_g] at ho ⊢
  rw [ho]

/-- An instruction whose own part places the group itself answers that placing. -/
theorem execute_placed {i : Instr} {w g : Nat} {s : State} {own : Iss → Mach → Own} {m : Mach} (hr : Says.Ready i w g s)
    (ho : own (mkIss i w g (settle w g s.m)) (Says.begun i w g s) = .placed m) : execute i own s = .next { s with m := m } := by
  unfold execute
  rw [if_pos hr.running, hr.cur]
  dsimp only
  rw [issue_ready hr]
  unfold Says.begun perform at *
  generalize settle w g s.m = n at ho ⊢
  dsimp only [mkIss_w, mkIss_g] at ho ⊢
  rw [ho]

/-- An instruction whose own part traps answers the entry of that trap, its tempo charged (spec 20 R370). -/
theorem execute_trap {i : Instr} {w g : Nat} {s : State} {own : Iss → Mach → Own} {c : Cause} {info : DWord} {ls : Mask} {a : DWord}
    (hr : Says.Ready i w g s) (ho : own (mkIss i w g (settle w g s.m)) (Says.begun i w g s) = .trap c info ls a) :
    execute i own s = .next { s with m := trapAtIssue (mkIss i w g (settle w g s.m)) c info ls a (Says.begun i w g s) } := by
  unfold execute
  rw [if_pos hr.running, hr.cur]
  dsimp only
  rw [issue_ready hr]
  unfold Says.begun perform at *
  generalize settle w g s.m = n at ho ⊢
  dsimp only [mkIss_w, mkIss_g] at ho ⊢
  rw [ho]

/-- A device in recovery executes no instruction (spec 23 R428). -/
theorem execute_recovery {i : Instr} {s : State} {own : Iss → Mach → Own} (h : s.hw.running = false) : execute i own s = .next s := by
  simp [execute, h]

/-- Every instruction of the opcode map leaves the management hardware alone. -/
theorem execute_hw {i : Instr} {s t : State} {own : Iss → Mach → Own} (h : execute i own s = .next t) : t.hw = s.hw := by
  unfold execute at h
  split at h
  · split at h
    · cases h
    · cases h; rfl
  · cases h; rfl

theorem eventStep_hw {f : Mach → Mach} {s t : State} (h : eventStep f s = .next t) : t.hw = s.hw := by
  unfold eventStep at h
  split at h <;> cases h <;> rfl

/-- The state after an issue keeps the frame of a machine that kept it. -/
theorem issued_kept {i : Instr} {w g k : Nat} {m : Mach} {s : State} (h : Says.KeptM w g (Says.begun i w g s) m) :
    Says.KeptM w g s.m (Says.issued i w g k m s).m :=
  (begun_kept i w g s).trans (h.trans ((followTags_kept i w g _ _ m).trans (finishIssue_kept i (mkIss i w g (settle w g s.m)) k _)))

/-- The values of a group after an issue are those that the own part left. -/
theorem issued_vals (i : Instr) (w g k : Nat) (m : Mach) (s : State) :
    vals ((Says.issued i w g k m s).m.grp w g) = vals (m.grp w g) :=
  finishIssue_vals i (mkIss i w g (settle w g s.m)) k _

/-! ## The number of the next command -/

@[simp] theorem charge_nextCmd (w h i s : Nat) (m : Mach) : (charge w h i s m).nextCmd = m.nextCmd := by
  unfold charge; split <;> rfl

@[simp] theorem countIssue_nextCmd (x : Iss) (m : Mach) : (countIssue x m).nextCmd = m.nextCmd := rfl

@[simp] theorem enterPipe_nextCmd (i : Instr) (w : Nat) (m : Mach) : (enterPipe i w m).nextCmd = m.nextCmd := rfl

@[simp] theorem settle_nextCmd (w g : Nat) (m : Mach) : (settle w g m).nextCmd = m.nextCmd := rfl

@[simp] theorem begun_nextCmd (i : Instr) (w g : Nat) (s : State) : (Says.begun i w g s).nextCmd = s.m.nextCmd := by
  simp [Says.begun]

@[simp] theorem standAt_nextCmd (w g : Nat) (a : DWord) (k : Mask) (m : Mach) : (standAt w g a k m).nextCmd = m.nextCmd := rfl

theorem endRun_nextCmd (w g : Nat) (m : Mach) : (endRun w g m).nextCmd = m.nextCmd := by
  unfold endRun
  split
  · rfl
  · simp only [dropSlot_nextCmd, modG_nextCmd]
    have : ∀ (l : List (DWord × Mask)) (n : Mach) (f : Mask → Mask),
        (l.foldl (fun acc x => standAt w g x.1 (f x.2) acc) n).nextCmd = n.nextCmd := by
      intro l
      induction l with
      | nil => intro n f; rfl
      | cons a l ih => intro n f; exact (ih _ f).trans rfl
    exact (this _ _ (fun k => k &&& _)).trans rfl

theorem finishWord_nextCmd (w g n st : Nat) (m : Mach) : (finishWord w g n st m).nextCmd = m.nextCmd := by
  unfold finishWord
  split
  · rfl
  · dsimp only
    split
    · rfl
    · split
      · rw [endRun_nextCmd]; rfl
      · rfl

/-- An issue hands on no command of itself. -/
theorem issued_nextCmd (i : Instr) (w g k : Nat) (m : Mach) (s : State) : (Says.issued i w g k m s).m.nextCmd = m.nextCmd := by
  simp only [Says.issued, finishIssue, finishWord_nextCmd, charge_nextCmd]
  rfl

end Sys2Proof.Laws
end

