-- ==== Sys2Proof/Laws/Landing.lean ====
section
/-! SUPPORT. Laws of landing: what a register, a predicate and the flags hold once pending results have landed does not depend on which of them have
landed already (spec 05 R75). -/

namespace Sys2Proof.Laws

open Sys2Proof.Machine

/-- The value that lane writes leave at a register's key, from the value before them. -/
def regAfter (k : Nat) (ws : List LaneWrite) (v : Word) : Word :=
  ws.foldl (fun acc u => match u with
    | .reg r l x => if 32 * r + l = k then x else acc
    | _ => acc) v

/-- The value that lane writes leave at a predicate's key. -/
def predAfter (k : Nat) (ws : List LaneWrite) (v : Bool) : Bool :=
  ws.foldl (fun acc u => match u with
    | .pred p l x => if p ≠ 7 ∧ 32 * p + l = k then x else acc
    | _ => acc) v

/-- The flags that lane writes leave in a lane. -/
def flagsAfter (k : Nat) (ws : List LaneWrite) (v : Word) : Word :=
  ws.foldl (fun acc u => match u with
    | .flags l x => if l = k then acc ||| x else acc
    | _ => acc) v

theorem regAfter_cons (k : Nat) (u : LaneWrite) (us : List LaneWrite) (v : Word) : regAfter k (u :: us) v = regAfter k us (regAfter k [u] v) := rfl

theorem predAfter_cons (k : Nat) (u : LaneWrite) (us : List LaneWrite) (v : Bool) : predAfter k (u :: us) v = predAfter k us (predAfter k [u] v) := rfl

theorem flagsAfter_cons (k : Nat) (u : LaneWrite) (us : List LaneWrite) (v : Word) : flagsAfter k (u :: us) v = flagsAfter k us (flagsAfter k [u] v) := rfl

theorem regAfter_append (k : Nat) (us ws : List LaneWrite) (v : Word) : regAfter k (us ++ ws) v = regAfter k ws (regAfter k us v) :=
  List.foldl_append ..

theorem predAfter_append (k : Nat) (us ws : List LaneWrite) (v : Bool) : predAfter k (us ++ ws) v = predAfter k ws (predAfter k us v) :=
  List.foldl_append ..

theorem flagsAfter_append (k : Nat) (us ws : List LaneWrite) (v : Word) : flagsAfter k (us ++ ws) v = flagsAfter k ws (flagsAfter k us v) :=
  List.foldl_append ..

theorem get_put (d : Word) (s : Store Word) (k j : Nat) (v : Word) : Store.get d (Store.put s k v) j = if k = j then v else Store.get d s j := by
  split
  · subst_vars; simp
  · exact Store_get_put_other _ _ _ _ _ (by omega)

theorem get_putB (d : Bool) (s : Store Bool) (k j : Nat) (v : Bool) : Store.get d (Store.put s k v) j = if k = j then v else Store.get d s j := by
  split
  · subst_vars; simp
  · exact Store_get_put_other _ _ _ _ _ (by omega)

/-- Registers after lane writes. -/
theorem landAll_regs (ws : List LaneWrite) (y : Group) (k : Nat) :
    Store.get 0 (y.landAll ws).regs k = regAfter k ws (Store.get 0 y.regs k) := by
  induction ws generalizing y with
  | nil => rfl
  | cons u us ih =>
    rw [regAfter_cons]
    refine (ih (y.land1 u)).trans (congrArg _ ?_)
    cases u with
    | reg r l v => exact get_put 0 y.regs _ _ v
    | pred p l v => simp only [Group.land1, Group.setPred]; split <;> rfl
    | flags l v => rfl

/-- Predicates after lane writes. -/
theorem landAll_preds (ws : List LaneWrite) (y : Group) (k : Nat) :
    Store.get false (y.landAll ws).preds k = predAfter k ws (Store.get false y.preds k) := by
  induction ws generalizing y with
  | nil => rfl
  | cons u us ih =>
    rw [predAfter_cons]
    refine (ih (y.land1 u)).trans (congrArg _ ?_)
    cases u with
    | reg r l v => rfl
    | pred p l v =>
      show Store.get false (Group.setPred y p l v).preds k = if p ≠ 7 ∧ 32 * p + l = k then v else Store.get false y.preds k
      simp only [Group.setPred]
      split
      · rw [if_neg (by omega)]
      · rw [get_putB]; split
        · rw [if_pos ⟨by assumption, by assumption⟩]
        · rw [if_neg (by omega)]
    | flags l v => rfl

/-- Flags after lane writes. -/
theorem landAll_flags (ws : List LaneWrite) (y : Group) (k : Nat) :
    Store.get 0 (y.landAll ws).fpflags k = flagsAfter k ws (Store.get 0 y.fpflags k) := by
  induction ws generalizing y with
  | nil => rfl
  | cons u us ih =>
    rw [flagsAfter_cons]
    refine (ih (y.land1 u)).trans (congrArg _ ?_)
    cases u with
    | reg r l v => rfl
    | pred p l v => simp only [Group.land1, Group.setPred]; split <;> rfl
    | flags l v =>
      show Store.get 0 (Store.put y.fpflags l (Store.get 0 y.fpflags l ||| v)) k =
        if l = k then Store.get 0 y.fpflags k ||| v else Store.get 0 y.fpflags k
      rw [get_put]; split
      · subst_vars; rfl
      · rfl

/-- Writes that are none of a register's leave it. -/
theorem regAfter_none (k : Nat) (ws : List LaneWrite) (v : Word) (h : ∀ r l x, .reg r l x ∈ ws → 32 * r + l ≠ k) : regAfter k ws v = v := by
  induction ws generalizing v with
  | nil => rfl
  | cons u us ih =>
    refine (ih _ fun r l x hx => h r l x (List.mem_cons_of_mem _ hx)).trans ?_
    cases u with
    | reg r l x => exact if_neg (h r l x List.mem_cons_self)
    | _ => rfl

theorem predAfter_none (k : Nat) (ws : List LaneWrite) (v : Bool) (h : ∀ p l x, .pred p l x ∈ ws → p ≠ 7 → 32 * p + l ≠ k) : predAfter k ws v = v := by
  induction ws generalizing v with
  | nil => rfl
  | cons u us ih =>
    refine (ih _ fun r l x hx => h r l x (List.mem_cons_of_mem _ hx)).trans ?_
    cases u with
    | pred p l x => exact if_neg fun hp => h p l x List.mem_cons_self hp.1 hp.2
    | _ => rfl

/-- A write of a register's makes the value before it irrelevant. -/
theorem regAfter_some (k : Nat) (ws : List LaneWrite) (v u : Word) (h : ∃ r l x, .reg r l x ∈ ws ∧ 32 * r + l = k) : regAfter k ws v = regAfter k ws u := by
  induction ws generalizing v u with
  | nil => obtain ⟨_, _, _, h, _⟩ := h; cases h
  | cons q us ih =>
    obtain ⟨r, l, x, hm, hk⟩ := h
    cases hm with
    | head => exact congrArg (regAfter k us) ((if_pos hk).trans (if_pos hk).symm)
    | tail _ hm => exact ih _ _ ⟨r, l, x, hm, hk⟩

theorem predAfter_some (k : Nat) (ws : List LaneWrite) (v u : Bool) (h : ∃ p l x, .pred p l x ∈ ws ∧ p ≠ 7 ∧ 32 * p + l = k) :
    predAfter k ws v = predAfter k ws u := by
  induction ws generalizing v u with
  | nil => obtain ⟨_, _, _, h, _⟩ := h; cases h
  | cons q us ih =>
    obtain ⟨r, l, x, hm, hk⟩ := h
    cases hm with
    | head => exact congrArg (predAfter k us) ((if_pos hk).trans (if_pos hk).symm)
    | tail _ hm => exact ih _ _ ⟨r, l, x, hm, hk⟩

theorem flagsAfter_or (k : Nat) (ws : List LaneWrite) (v u : Word) : flagsAfter k ws (v ||| u) = flagsAfter k ws v ||| u := by
  induction ws generalizing v with
  | nil => rfl
  | cons q us ih =>
    cases q with
    | flags l x =>
      simp only [flagsAfter, List.foldl_cons] at ih ⊢
      split
      · rw [show v ||| u ||| x = v ||| x ||| u by rw [BitVec.or_assoc, BitVec.or_comm u x, ← BitVec.or_assoc]]; exact ih _
      · exact ih _
    | _ => exact ih _

theorem flagsAfter_eq (k : Nat) (ws : List LaneWrite) (v : Word) : flagsAfter k ws v = v ||| flagsAfter k ws 0 := by
  have := flagsAfter_or k ws 0#32 v
  rw [BitVec.zero_or] at this
  rw [this, BitVec.or_comm]; rfl

theorem flagsAfter_swap (k : Nat) (us ws : List LaneWrite) (v : Word) : flagsAfter k us (flagsAfter k ws v) = flagsAfter k ws (flagsAfter k us v) := by
  rw [flagsAfter_eq k us, flagsAfter_eq k ws v, flagsAfter_eq k ws (flagsAfter k us v), flagsAfter_eq k us v, BitVec.or_assoc, BitVec.or_assoc,
    BitVec.or_comm (flagsAfter k ws 0)]

/-- Results without the writes that `ws` supersedes. -/
def dropSame (ws : List LaneWrite) (ps : List Pend) : List Pend :=
  ps.map fun q => { q with writes := q.writes.filter fun u => !(ws.any (sameDest u)) }

theorem dropSame_mem {ws : List LaneWrite} {ps : List Pend} {u : LaneWrite} (h : u ∈ (dropSame ws ps).flatMap (·.writes)) :
    u ∈ ps.flatMap (·.writes) ∧ ∀ v ∈ ws, sameDest u v = false := by
  simp only [dropSame, List.mem_flatMap, List.mem_map] at h ⊢
  obtain ⟨_, ⟨q, hq, rfl⟩, hu⟩ := h
  simp only [List.mem_filter, Bool.not_eq_true', List.any_eq_false] at hu
  exact ⟨⟨q, hq, hu.1⟩, fun v hv => by simpa using hu.2 v hv⟩

/-- Dropping superseded writes changes nothing at a key that the later writes do not write. -/
theorem regAfter_dropSame (k : Nat) (ws : List LaneWrite) (ps : List Pend) (v : Word) (h : ∀ r l x, .reg r l x ∈ ws → 32 * r + l ≠ k) :
    regAfter k ((dropSame ws ps).flatMap (·.writes)) v = regAfter k (ps.flatMap (·.writes)) v := by
  have filt : ∀ (us : List LaneWrite) (v : Word), regAfter k (us.filter fun u => !(ws.any (sameDest u))) v = regAfter k us v := by
    intro us
    induction us with
    | nil => intro v; rfl
    | cons u us ih =>
      intro v
      simp only [List.filter_cons]
      split
      · exact ih _
      · rename_i hd
        refine (ih _).trans (congrArg (regAfter k us) ?_)
        cases u with
        | reg r l x =>
          refine (if_neg fun hk => ?_).symm
          simp only [Bool.not_eq_true', Bool.not_eq_false, List.any_eq_true] at hd
          obtain ⟨q, hq, hs⟩ := hd
          cases q with
          | reg r' l' x' => exact h r' l' x' hq (by simp only [sameDest, decide_eq_true_eq] at hs; omega)
          | _ => simp [sameDest] at hs
        | _ => rfl
  induction ps generalizing v with
  | nil => rfl
  | cons p ps ih =>
    simp only [dropSame, List.map_cons, List.flatMap_cons, regAfter_append]
    rw [filt]
    exact ih _

theorem predAfter_dropSame (k : Nat) (ws : List LaneWrite) (ps : List Pend) (v : Bool) (h : ∀ p l x, .pred p l x ∈ ws → p ≠ 7 → 32 * p + l ≠ k) :
    predAfter k ((dropSame ws ps).flatMap (·.writes)) v = predAfter k (ps.flatMap (·.writes)) v := by
  have filt : ∀ (us : List LaneWrite) (v : Bool), predAfter k (us.filter fun u => !(ws.any (sameDest u))) v = predAfter k us v := by
    intro us
    induction us with
    | nil => intro v; rfl
    | cons u us ih =>
      intro v
      simp only [List.filter_cons]
      split
      · exact ih _
      · rename_i hd
        refine (ih _).trans (congrArg (predAfter k us) ?_)
        cases u with
        | pred r l x =>
          refine (if_neg fun hk => ?_).symm
          simp only [Bool.not_eq_true', Bool.not_eq_false, List.any_eq_true] at hd
          obtain ⟨q, hq, hs⟩ := hd
          cases q with
          | pred r' l' x' =>
            simp only [sameDest, Bool.and_eq_true, decide_eq_true_eq] at hs
            exact h r' l' x' hq hs.1.2 (by omega)
          | _ => simp [sameDest] at hs
        | _ => rfl
  induction ps generalizing v with
  | nil => rfl
  | cons p ps ih =>
    simp only [dropSame, List.map_cons, List.flatMap_cons, predAfter_append]
    rw [filt]
    exact ih _

theorem flagsAfter_dropSame (k : Nat) (ws : List LaneWrite) (ps : List Pend) (v : Word) :
    flagsAfter k ((dropSame ws ps).flatMap (·.writes)) v = flagsAfter k (ps.flatMap (·.writes)) v := by
  have filt : ∀ (us : List LaneWrite) (v : Word), flagsAfter k (us.filter fun u => !(ws.any (sameDest u))) v = flagsAfter k us v := by
    intro us
    induction us with
    | nil => intro v; rfl
    | cons u us ih =>
      intro v
      simp only [List.filter_cons]
      split
      · exact ih _
      · rename_i hd
        refine (ih _).trans (congrArg (flagsAfter k us) ?_)
        cases u with
        | flags l x =>
          simp only [Bool.not_eq_true', Bool.not_eq_false, List.any_eq_true] at hd
          obtain ⟨q, _, hs⟩ := hd
          cases q <;> simp [sameDest] at hs
        | _ => rfl
  induction ps generalizing v with
  | nil => rfl
  | cons p ps ih =>
    simp only [dropSame, List.map_cons, List.flatMap_cons, flagsAfter_append]
    rw [filt]
    exact ih _

/-- A result that lands before earlier ones, which lose what it supersedes, leaves what landing in issue order leaves. -/
theorem regAfter_early (k : Nat) (ws : List LaneWrite) (ps : List Pend) (v : Word) :
    regAfter k ((dropSame ws ps).flatMap (·.writes)) (regAfter k ws v) = regAfter k ws (regAfter k (ps.flatMap (·.writes)) v) := by
  by_cases h : ∃ r l x, .reg r l x ∈ ws ∧ 32 * r + l = k
  · rw [regAfter_none, regAfter_some k ws v _ h]
    intro r l x hm hk
    obtain ⟨r', l', x', hw, hk'⟩ := h
    have := (dropSame_mem hm).2 _ hw
    simp only [sameDest, decide_eq_false_iff_not] at this
    omega
  · have hn : ∀ r l x, .reg r l x ∈ ws → 32 * r + l ≠ k := fun r l x hm hk => h ⟨r, l, x, hm, hk⟩
    rw [regAfter_dropSame k ws ps _ hn, regAfter_none k ws v hn, regAfter_none k ws _ hn]

theorem predAfter_early (k : Nat) (ws : List LaneWrite) (ps : List Pend) (v : Bool) :
    predAfter k ((dropSame ws ps).flatMap (·.writes)) (predAfter k ws v) = predAfter k ws (predAfter k (ps.flatMap (·.writes)) v) := by
  by_cases h : ∃ p l x, .pred p l x ∈ ws ∧ p ≠ 7 ∧ 32 * p + l = k
  · rw [predAfter_none, predAfter_some k ws v _ h]
    intro r l x hm h7 hk
    obtain ⟨r', l', x', hw, h7', hk'⟩ := h
    have := (dropSame_mem hm).2 _ hw
    simp [sameDest, h7, h7'] at this
    omega
  · have hn : ∀ p l x, .pred p l x ∈ ws → p ≠ 7 → 32 * p + l ≠ k := fun r l x hm h7 hk => h ⟨r, l, x, hm, h7, hk⟩
    rw [predAfter_dropSame k ws ps _ hn, predAfter_none k ws v hn, predAfter_none k ws _ hn]

theorem flagsAfter_early (k : Nat) (ws : List LaneWrite) (ps : List Pend) (v : Word) :
    flagsAfter k ((dropSame ws ps).flatMap (·.writes)) (flagsAfter k ws v) = flagsAfter k ws (flagsAfter k (ps.flatMap (·.writes)) v) := by
  rw [flagsAfter_dropSame, flagsAfter_swap]

theorem landPend_after (now : Nat) (ps kept : List Pend) (y : Group) (k : Nat) :
    let r := landPend now kept y ps
    regAfter k (r.2.flatMap (·.writes)) (Store.get 0 r.1.regs k) = regAfter k ((kept ++ ps).flatMap (·.writes)) (Store.get 0 y.regs k) ∧
    predAfter k (r.2.flatMap (·.writes)) (Store.get false r.1.preds k) = predAfter k ((kept ++ ps).flatMap (·.writes)) (Store.get false y.preds k) ∧
    flagsAfter k (r.2.flatMap (·.writes)) (Store.get 0 r.1.fpflags k) = flagsAfter k ((kept ++ ps).flatMap (·.writes)) (Store.get 0 y.fpflags k) := by
  induction ps generalizing kept y with
  | nil => simp [landPend]
  | cons p ps ih =>
    dsimp only
    simp only [landPend]
    split
    · have := ih (dropSame p.writes kept) (y.landAll p.writes)
      dsimp only at this
      simp only [List.flatMap_append, List.flatMap_cons, regAfter_append, predAfter_append, flagsAfter_append, landAll_regs, landAll_preds, landAll_flags,
        regAfter_early, predAfter_early, flagsAfter_early] at this ⊢
      exact this
    · have := ih (kept ++ [p]) y
      dsimp only at this
      rw [List.append_assoc, List.singleton_append] at this
      exact this

theorem landEvery_regs (y : Group) (k : Nat) : Store.get 0 y.landEvery.regs k = regAfter k (y.pend.flatMap (·.writes)) (Store.get 0 y.regs k) :=
  landAll_regs _ _ _

theorem landEvery_preds (y : Group) (k : Nat) : Store.get false y.landEvery.preds k = predAfter k (y.pend.flatMap (·.writes)) (Store.get false y.preds k) :=
  landAll_preds _ _ _

theorem landEvery_flags (y : Group) (k : Nat) : Store.get 0 y.landEvery.fpflags k = flagsAfter k (y.pend.flatMap (·.writes)) (Store.get 0 y.fpflags k) :=
  landAll_flags _ _ _

/-- Results that are due land without changing what a register comes to. -/
theorem landDue_regs (y : Group) (n k : Nat) : Store.get 0 (y.landDue n).landEvery.regs k = Store.get 0 y.landEvery.regs k := by
  rw [landEvery_regs, landEvery_regs]; exact (landPend_after n y.pend [] y k).1

theorem landDue_preds (y : Group) (n k : Nat) : Store.get false (y.landDue n).landEvery.preds k = Store.get false y.landEvery.preds k := by
  rw [landEvery_preds, landEvery_preds]; exact (landPend_after n y.pend [] y k).2.1

theorem landDue_flags (y : Group) (n k : Nat) : Store.get 0 (y.landDue n).landEvery.fpflags k = Store.get 0 y.landEvery.fpflags k := by
  rw [landEvery_flags, landEvery_flags]; exact (landPend_after n y.pend [] y k).2.2

end Sys2Proof.Laws
end

