-- ==== Sys2Proof/Laws/Results.lean ====
section
/-! SUPPORT. Laws of fixed-latency results: what an instruction whose own part is a list of lane writes leaves in registers, predicates and flags. -/

namespace Sys2Proof.Laws

open Sys2Proof Sys2Proof.Machine Sys2Proof.Says

/-- The lane of a write. -/
def laneOf : LaneWrite → Nat
  | .reg _ l _ => l
  | .pred _ l _ => l
  | .flags l _ => l

theorem lanesOf_lt {k : Mask} {l : Nat} (h : l ∈ lanesOf k) : l < 32 := by
  simp only [lanesOf, List.mem_filter, List.mem_range] at h; exact h.1

theorem mem_lanesOf {k : Mask} {l : Nat} (h : l < 32) : l ∈ lanesOf k ↔ k.getLsbD l = true := by
  simp [lanesOf, h]

theorem lanesOf_nodup (k : Mask) : (lanesOf k).Nodup := List.Nodup.filter _ List.nodup_range

/-- Of writes lane by lane, one lane's registers see that lane's only. -/
theorem regAfter_lanes (f : Nat → List LaneWrite) (hf : ∀ l u, u ∈ f l → laneOf u = l) (ls : List Nat) (hn : ls.Nodup) (hl : ∀ l ∈ ls, l < 32)
    (r l : Nat) (h : l < 32) (v : Word) :
    regAfter (32 * r + l) (ls.flatMap f) v = if l ∈ ls then regAfter (32 * r + l) (f l) v else v := by
  have other : ∀ j, j ≠ l → j < 32 → ∀ v, regAfter (32 * r + l) (f j) v = v := by
    intro j hj hj32 v
    refine regAfter_none _ _ _ fun r' l' x hx => ?_
    have := hf j _ hx
    simp only [laneOf] at this
    omega
  induction ls generalizing v with
  | nil => rfl
  | cons j js ih =>
    simp only [List.flatMap_cons, regAfter_append]
    rw [ih (List.nodup_cons.1 hn).2 (fun a ha => hl a (List.mem_cons_of_mem _ ha))]
    by_cases hj : j = l
    · subst hj
      rw [if_neg (List.nodup_cons.1 hn).1, if_pos List.mem_cons_self]
    · rw [other j hj (hl j List.mem_cons_self)]
      have : (l ∈ j :: js) ↔ l ∈ js := by simp [Ne.symm hj]
      simp only [this]

theorem predAfter_lanes (f : Nat → List LaneWrite) (hf : ∀ l u, u ∈ f l → laneOf u = l) (ls : List Nat) (hn : ls.Nodup) (hl : ∀ l ∈ ls, l < 32)
    (r l : Nat) (h : l < 32) (v : Bool) :
    predAfter (32 * r + l) (ls.flatMap f) v = if l ∈ ls then predAfter (32 * r + l) (f l) v else v := by
  have other : ∀ j, j ≠ l → j < 32 → ∀ v, predAfter (32 * r + l) (f j) v = v := by
    intro j hj hj32 v
    refine predAfter_none _ _ _ fun r' l' x hx _ => ?_
    have := hf j _ hx
    simp only [laneOf] at this
    omega
  induction ls generalizing v with
  | nil => rfl
  | cons j js ih =>
    simp only [List.flatMap_cons, predAfter_append]
    rw [ih (List.nodup_cons.1 hn).2 (fun a ha => hl a (List.mem_cons_of_mem _ ha))]
    by_cases hj : j = l
    · subst hj
      rw [if_neg (List.nodup_cons.1 hn).1, if_pos List.mem_cons_self]
    · rw [other j hj (hl j List.mem_cons_self)]
      have : (l ∈ j :: js) ↔ l ∈ js := by simp [Ne.symm hj]
      simp only [this]

theorem flagsAfter_none (k : Nat) (ws : List LaneWrite) (v : Word) (h : ∀ l x, .flags l x ∈ ws → l ≠ k) : flagsAfter k ws v = v := by
  induction ws generalizing v with
  | nil => rfl
  | cons u us ih =>
    refine (ih _ fun l x hx => h l x (List.mem_cons_of_mem _ hx)).trans ?_
    cases u with
    | flags l x => exact if_neg (h l x List.mem_cons_self)
    | _ => rfl

theorem flagsAfter_lanes (f : Nat → List LaneWrite) (hf : ∀ l u, u ∈ f l → laneOf u = l) (ls : List Nat) (hn : ls.Nodup) (l : Nat) (v : Word) :
    flagsAfter l (ls.flatMap f) v = if l ∈ ls then flagsAfter l (f l) v else v := by
  have other : ∀ j, j ≠ l → ∀ v, flagsAfter l (f j) v = v := by
    intro j hj v
    exact flagsAfter_none _ _ _ fun l' x hx e => hj ((hf j _ hx).symm.trans e)
  induction ls generalizing v with
  | nil => rfl
  | cons j js ih =>
    simp only [List.flatMap_cons, flagsAfter_append]
    rw [ih (List.nodup_cons.1 hn).2]
    by_cases hj : j = l
    · subst hj
      rw [if_neg (List.nodup_cons.1 hn).1, if_pos List.mem_cons_self]
    · rw [other j hj]
      have : (l ∈ j :: js) ↔ l ∈ js := by simp [Ne.symm hj]
      simp only [this]

theorem vals_regs {y z : Group} (h : vals y = vals z) : y.regs = z.regs := congrArg (·.1) h
theorem vals_preds {y z : Group} (h : vals y = vals z) : y.preds = z.preds := congrArg (·.2.1) h
theorem vals_flags {y z : Group} (h : vals y = vals z) : y.fpflags = z.fpflags := congrArg (·.2.2.1) h
theorem vals_pend {y z : Group} (h : vals y = vals z) : y.pend = z.pend := congrArg (·.2.2.2.1) h
theorem vals_outs {y z : Group} (h : vals y = vals z) : y.outs = z.outs := congrArg (·.2.2.2.2) h

theorem reg_eq (w g : Nat) (s : State) (r l : Nat) :
    Says.reg w g s r l = regAfter (32 * r + l) ((s.m.grp w g).pend.flatMap (·.writes)) (Store.get 0 (s.m.grp w g).regs (32 * r + l)) :=
  landEvery_regs _ _

theorem flags_eq (w g : Nat) (s : State) (l : Nat) :
    Says.flags w g s l = flagsAfter l ((s.m.grp w g).pend.flatMap (·.writes)) (Store.get 0 (s.m.grp w g).fpflags l) :=
  landEvery_flags _ _

/-- Registers as read come to what they came to before. -/
theorem settle_reg (w g : Nat) (s : State) (k : Nat) :
    regAfter k ((Says.reads w g s).pend.flatMap (·.writes)) (Store.get 0 (Says.reads w g s).regs k) =
      regAfter k ((s.m.grp w g).pend.flatMap (·.writes)) (Store.get 0 (s.m.grp w g).regs k) := by
  simp only [Says.reads, settle, grp_modG_same]
  exact (landPend_after _ _ [] _ k).1

theorem settle_pred (w g : Nat) (s : State) (k : Nat) :
    predAfter k ((Says.reads w g s).pend.flatMap (·.writes)) (Store.get false (Says.reads w g s).preds k) =
      predAfter k ((s.m.grp w g).pend.flatMap (·.writes)) (Store.get false (s.m.grp w g).preds k) := by
  simp only [Says.reads, settle, grp_modG_same]
  exact (landPend_after _ _ [] _ k).2.1

theorem settle_flags (w g : Nat) (s : State) (k : Nat) :
    flagsAfter k ((Says.reads w g s).pend.flatMap (·.writes)) (Store.get 0 (Says.reads w g s).fpflags k) =
      flagsAfter k ((s.m.grp w g).pend.flatMap (·.writes)) (Store.get 0 (s.m.grp w g).fpflags k) := by
  simp only [Says.reads, settle, grp_modG_same]
  exact (landPend_after _ _ [] _ k).2.2

theorem laterF_grp (n : Nat) (fl : Bool) (x : Iss) (ws : List LaneWrite) (m : Mach) :
    (laterF n fl x ws m).grp x.w x.g = { m.grp x.w x.g with pend := (m.grp x.w x.g).pend ++ [⟨x.pc, m.cycle + n, fl, ws⟩] } := by
  simp [laterF]

@[simp] theorem issued_hw (i : Instr) (w g k : Nat) (m : Mach) (s : State) : (Says.issued i w g k m s).hw = s.hw := by simp only [Says.issued]

@[simp] theorem issued_schedule (i : Instr) (w g k : Nat) (m : Mach) (s : State) : (Says.issued i w g k m s).schedule = s.schedule := by
  simp only [Says.issued]

@[simp] theorem issued_turn (i : Instr) (w g k : Nat) (m : Mach) (s : State) : (Says.issued i w g k m s).turn = s.turn := by simp only [Says.issued]

/-- The state after an issue keeps the frame of a step whose machine kept it. -/
theorem issued_keptS {i : Instr} {w g k : Nat} {m : Mach} {s : State} (h : Says.KeptM w g (Says.begun i w g s) m) :
    Says.KeptS w g s (Says.issued i w g k m s) :=
  ⟨issued_hw .., issued_schedule .., issued_turn .., issued_kept h⟩

theorem kept_issued {i : Instr} {w g k : Nat} {m : Mach} {s : State} (h : Says.KeptM w g (Says.begun i w g s) m)
    (ho : (m.grp w g).outs = (Says.reads w g s).outs) (hc : m.nextCmd = s.m.nextCmd) :
    Says.Kept w g s (Says.issued i w g k m s) where
  step := issued_keptS h
  outs := by rw [vals_outs (issued_vals i w g k m s), ho]; exact settle_outs w g s.m
  nextCmd := (issued_nextCmd i w g k m s).trans hc

theorem begun_reads (i : Instr) (w g : Nat) (s : State) : (Says.begun i w g s).grp w g = Says.reads w g s := begun_grp i w g s w g

/-- THE RESULT OF A FIXED-LATENCY INSTRUCTION whose own part is a list of writes lane by lane. -/
theorem later_gives {i : Instr} {own : Iss → Mach → Own} {w g n : Nat} {fl : Bool} {s : State} {ws : Nat → List LaneWrite} (hr : Says.Ready i w g s)
    (hw : ∀ l u, u ∈ ws l → laneOf u = l)
    (ho : own (mkIss i w g (settle w g s.m)) (Says.begun i w g s) =
      .done 0 (laterF n fl (mkIss i w g (settle w g s.m)) ((lanesOf (Says.eff i w g s)).flatMap ws) (Says.begun i w g s))) :
    ∃ t, execute i own s = .next t ∧ Says.Kept w g s t ∧ ∀ l, l < 32 →
      (∀ r, Says.reg w g t r l = if (Says.eff i w g s).getLsbD l then regAfter (32 * r + l) (ws l) (Says.reg w g s r l) else Says.reg w g s r l) ∧
      (∀ p, Says.pred w g t p l =
        if (Says.eff i w g s).getLsbD l ∧ p ≠ 7 then predAfter (32 * p + l) (ws l) (Says.pred w g s p l) else Says.pred w g s p l) ∧
      Says.flags w g t l = if (Says.eff i w g s).getLsbD l then flagsAfter l (ws l) (Says.flags w g s l) else Says.flags w g s l := by
  refine ⟨_, execute_done hr ho, kept_issued ?_ ?_ ?_, fun l hl => ?_⟩
  · exact KeptM.modG rfl
  · have := laterF_grp n fl (mkIss i w g (settle w g s.m)) ((lanesOf (Says.eff i w g s)).flatMap ws) (Says.begun i w g s)
    simp only [mkIss_w, mkIss_g] at this
    rw [this, begun_reads]
  · exact begun_nextCmd i w g s
  · have hg := laterF_grp n fl (mkIss i w g (settle w g s.m)) ((lanesOf (Says.eff i w g s)).flatMap ws) (Says.begun i w g s)
    simp only [mkIss_w, mkIss_g, begun_reads] at hg
    have hv := issued_vals i w g 0 (laterF n fl (mkIss i w g (settle w g s.m)) ((lanesOf (Says.eff i w g s)).flatMap ws) (Says.begun i w g s)) s
    rw [hg] at hv
    have hm := mem_lanesOf (k := Says.eff i w g s) hl
    have hn := lanesOf_nodup (Says.eff i w g s)
    have h32 : ∀ j ∈ lanesOf (Says.eff i w g s), j < 32 := fun j hj => lanesOf_lt hj
    refine ⟨fun r => ?_, fun p => ?_, ?_⟩
    · rw [reg_eq, reg_eq, vals_regs hv, vals_pend hv]
      simp only [List.flatMap_append, List.flatMap_cons, List.flatMap_nil, List.append_nil, regAfter_append]
      rw [settle_reg, regAfter_lanes ws hw _ hn h32 r l hl]
      simp only [hm]
    · simp only [Says.pred, Group.pred]
      by_cases h7 : p = 7
      · simp [h7]
      · simp only [h7, if_false, landEvery_preds, vals_preds hv, vals_pend hv, ne_eq, not_false_eq_true, and_true]
        simp only [List.flatMap_append, List.flatMap_cons, List.flatMap_nil, List.append_nil, predAfter_append]
        rw [settle_pred, predAfter_lanes ws hw _ hn h32 p l hl]
        simp only [hm]
    · rw [flags_eq, flags_eq, vals_flags hv, vals_pend hv]
      simp only [List.flatMap_append, List.flatMap_cons, List.flatMap_nil, List.append_nil, flagsAfter_append]
      rw [settle_flags, flagsAfter_lanes ws hw _ hn l]
      simp only [hm]

/-- An instruction whose own part delivers writes lane by lane, where `ok` holds, gives what those writes come to. -/
theorem gives {i : Instr} {ok : Mask → Group → Prop} {regs : Mask → Group → Nat → Nat → Option Word} {preds : Mask → Group → Nat → Nat → Option Bool}
    {fl : Mask → Group → Nat → Word} (own : Iss → Mach → Own) (n : Nat) (b : Bool) (ws : Mask → Group → Nat → List LaneWrite)
    (he : ∀ s, exec i s = execute i own s)
    (ho : ∀ x m, ok x.eff (m.grp x.w x.g) → own x m = .done 0 (laterF n b x ((lanesOf x.eff).flatMap (ws x.eff (m.grp x.w x.g))) m))
    (hl : ∀ e y l u, u ∈ ws e y l → laneOf u = l)
    (h1 : ∀ e y l r v, regAfter (32 * r + l) (ws e y l) v = (regs e y l r).getD v)
    (h2 : ∀ e y l p v, p ≠ 7 → predAfter (32 * p + l) (ws e y l) v = (preds e y l p).getD v)
    (h3 : ∀ e y l v, flagsAfter l (ws e y l) v = v ||| fl e y l) : Says.Gives i ok regs preds fl := by
  intro w g s hr hok
  have hb := begun_reads i w g s
  have hown := ho (mkIss i w g (settle w g s.m)) (Says.begun i w g s) (by
    simp only [mkIss_w, mkIss_g, hb]; exact hok)
  simp only [mkIss_w, mkIss_g, hb] at hown
  obtain ⟨t, e1, e2, e3⟩ := later_gives (ws := ws (Says.eff i w g s) (Says.reads w g s)) hr (hl _ _) hown
  refine ⟨t, (he s).trans e1, e2, fun l hl => ⟨fun r => ?_, fun p => ?_, ?_⟩⟩
  · rw [(e3 l hl).1 r, h1]
  · rw [(e3 l hl).2.1 p]
    by_cases h7 : p = 7
    · simp [h7]
    · rw [h2 _ _ _ _ _ h7]
  · rw [(e3 l hl).2.2, h3]

/-- Register writes of one lane, at one register's key. -/
theorem regAfter_reg (r d l : Nat) (x v : Word) (us : List LaneWrite) :
    regAfter (32 * r + l) (.reg d l x :: us) v = regAfter (32 * r + l) us (if r = d then x else v) := by
  rw [regAfter_cons]
  congr 1
  by_cases h : r = d
  · simp [regAfter, h]
  · have : ¬ d = r := fun e => h e.symm
    simp [regAfter, h, this]

theorem predAfter_pred (r d l : Nat) (x v : Bool) (us : List LaneWrite) (h7 : r ≠ 7) :
    predAfter (32 * r + l) (.pred d l x :: us) v = predAfter (32 * r + l) us (if r = d then x else v) := by
  rw [predAfter_cons]
  congr 1
  by_cases h : r = d
  · subst h; simp [predAfter, h7]
  · have : ¬ d = r := fun e => h e.symm
    simp [predAfter, h, this]

@[simp] theorem regAfter_nil (k : Nat) (v : Word) : regAfter k [] v = v := rfl

@[simp] theorem predAfter_nil (k : Nat) (v : Bool) : predAfter k [] v = v := rfl

@[simp] theorem flagsAfter_nil (k : Nat) (v : Word) : flagsAfter k [] v = v := rfl

@[simp] theorem regAfter_skipP (k p l : Nat) (x : Bool) (us : List LaneWrite) (v : Word) : regAfter k (.pred p l x :: us) v = regAfter k us v := rfl

@[simp] theorem regAfter_skipF (k l : Nat) (x : Word) (us : List LaneWrite) (v : Word) : regAfter k (.flags l x :: us) v = regAfter k us v := rfl

@[simp] theorem predAfter_skipR (k r l : Nat) (x : Word) (us : List LaneWrite) (v : Bool) : predAfter k (.reg r l x :: us) v = predAfter k us v := rfl

@[simp] theorem predAfter_skipF (k l : Nat) (x : Word) (us : List LaneWrite) (v : Bool) : predAfter k (.flags l x :: us) v = predAfter k us v := rfl

@[simp] theorem flagsAfter_skipR (k r l : Nat) (x : Word) (us : List LaneWrite) (v : Word) : flagsAfter k (.reg r l x :: us) v = flagsAfter k us v := rfl

@[simp] theorem flagsAfter_skipP (k p l : Nat) (x : Bool) (us : List LaneWrite) (v : Word) : flagsAfter k (.pred p l x :: us) v = flagsAfter k us v := rfl

theorem flagsAfter_flags (l : Nat) (x v : Word) (us : List LaneWrite) : flagsAfter l (.flags l x :: us) v = flagsAfter l us (v ||| x) := by
  rw [flagsAfter_cons]; simp [flagsAfter]

/-- One register. -/
theorem gives_reg1 {i : Instr} {d : Reg} {f : Group → Nat → Word} (own : Iss → Mach → Own) (n : Nat) (b : Bool) (he : ∀ s, exec i s = execute i own s)
    (ho : ∀ x m, own x m = .done 0 (laterF n b x ((lanesOf x.eff).flatMap fun l => [.reg d.toNat l (f (m.grp x.w x.g) l)]) m)) : Says.Reg1 i d f :=
  gives own n b (fun _ y l => [.reg d.toNat l (f y l)]) he (fun x m _ => ho x m) (by simp [laneOf])
    (by intro e y l r v; rw [regAfter_reg, regAfter_nil]; split <;> rfl) (by simp) (by simp)

/-- A pair. -/
theorem gives_reg2 {i : Instr} {d : Reg} {f : Group → Nat → DWord} (own : Iss → Mach → Own) (n : Nat) (b : Bool) (he : ∀ s, exec i s = execute i own s)
    (ho : ∀ x m, own x m = .done 0 (laterF n b x ((lanesOf x.eff).flatMap fun l =>
      [.reg d.toNat l (BitVec.ofNat 32 (f (m.grp x.w x.g) l).toNat), .reg (d.toNat + 1) l (BitVec.ofNat 32 ((f (m.grp x.w x.g) l).toNat / 2 ^ 32))]) m)) :
    Says.Reg2 i d f :=
  gives own n b (fun _ y l => [.reg d.toNat l (BitVec.ofNat 32 (f y l).toNat), .reg (d.toNat + 1) l (BitVec.ofNat 32 ((f y l).toNat / 2 ^ 32))]) he
    (fun x m _ => ho x m) (by simp [laneOf])
    (by intro e y l r v; rw [regAfter_reg, regAfter_reg, regAfter_nil]; split <;> [rfl; (split <;> rfl)]) (by simp) (by simp)

/-- A predicate. -/
theorem gives_pred1 {i : Instr} {d : PReg} {f : Group → Nat → Bool} (own : Iss → Mach → Own) (n : Nat) (b : Bool) (he : ∀ s, exec i s = execute i own s)
    (ho : ∀ x m, own x m = .done 0 (laterF n b x ((lanesOf x.eff).flatMap fun l => [.pred d.toNat l (f (m.grp x.w x.g) l)]) m)) : Says.Pred1 i d f :=
  gives own n b (fun _ y l => [.pred d.toNat l (f y l)]) he (fun x m _ => ho x m) (by simp [laneOf]) (by simp)
    (by intro e y l p v h7; rw [predAfter_pred _ _ _ _ _ _ h7, predAfter_nil]; split <;> rfl) (by simp)

/-- Registers come to the same after an issue that leaves a group's values alone. -/
theorem issued_same {i : Instr} {w g k : Nat} {m : Mach} {s : State} (h : (m.grp w g).regs = (Says.reads w g s).regs)
    (hp : (m.grp w g).preds = (Says.reads w g s).preds) (hf : (m.grp w g).fpflags = (Says.reads w g s).fpflags)
    (hq : (m.grp w g).pend = (Says.reads w g s).pend) : Says.SameRegs w g s (Says.issued i w g k m s) := by
  have hv := issued_vals i w g k m s
  refine ⟨fun r l => ?_, fun p l => ?_, fun l => ?_⟩
  · rw [reg_eq, reg_eq, vals_regs hv, vals_pend hv, h, hq, settle_reg]
  · simp only [Says.pred, Group.pred]
    split
    · rfl
    · rw [landEvery_preds, landEvery_preds, vals_preds hv, vals_pend hv, hp, hq, settle_pred]
  · rw [flags_eq, flags_eq, vals_flags hv, vals_pend hv, hf, hq, settle_flags]

/-- An instruction whose own part does nothing. -/
theorem gives_none {i : Instr} (own : Iss → Mach → Own) (he : ∀ s, exec i s = execute i own s) (ho : ∀ x m, own x m = .done 0 m) :
    Says.Gives i (fun _ _ => True) (fun _ _ _ _ => none) (fun _ _ _ _ => none) (fun _ _ _ => 0) := by
  intro w g s hr _
  have hb := begun_reads i w g s
  have hs : Says.SameRegs w g s (Says.issued i w g 0 (Says.begun i w g s) s) := issued_same (by rw [hb]) (by rw [hb]) (by rw [hb]) (by rw [hb])
  refine ⟨_, (he s).trans (execute_done hr (ho _ _)), kept_issued (KeptM.refl _ _ _) (by rw [hb]) (by simp), fun l _ => ⟨fun r => ?_, fun p => ?_, ?_⟩⟩
  · simp [hs.regs]
  · simp [hs.preds]
  · simp [hs.flags]

/-- Lanes none of which raises an enabled condition do not trap (spec 09 R158). -/
theorem quiet_none (y : Group) (rs : List LaneFp) (h : ∀ r ∈ rs, r.flags &&& fld (y.mode r.lane) 4 5 = 0) : trapping y rs = [] := by
  simp only [trapping, List.filter_eq_nil_iff, enabledConds]
  intro r hr; simp [h r hr]

/-- Results with conditions, where no lane raises one whose trap is enabled (spec 09 R158, R159). -/
theorem gives_fp {i : Instr} (lat : Nat) (b : Bool) (ok : Mask → Group → Prop) (f : Mask → Group → Nat → List LaneWrite × Nat)
    {regs : Mask → Group → Nat → Nat → Option Word} {preds : Mask → Group → Nat → Nat → Option Bool}
    (he : ∀ s, exec i s = execute i (fun x m => fpDeliver lat b x ((lanesOf x.eff).map fun l => ⟨l, (f x.eff (m.grp x.w x.g) l).1, (f x.eff (m.grp x.w x.g) l).2⟩) m) s)
    (hok : ∀ e y, ok e y → ∀ l ∈ lanesOf e, (f e y l).2 &&& fld (y.mode l) 4 5 = 0)
    (hl : ∀ e y l u, u ∈ (f e y l).1 → laneOf u = l) (hn : ∀ e y l u x, .flags u x ∉ (f e y l).1)
    (h1 : ∀ e y l r v, regAfter (32 * r + l) (f e y l).1 v = (regs e y l r).getD v)
    (h2 : ∀ e y l p v, p ≠ 7 → predAfter (32 * p + l) (f e y l).1 v = (preds e y l p).getD v) :
    Says.Gives i ok regs preds (fun e y l => BitVec.ofNat 32 (f e y l).2) := by
  refine gives _ lat b (fun e y l => LaneFp.all ⟨l, (f e y l).1, (f e y l).2⟩) he ?_ ?_ ?_ ?_ ?_
  · intro x m hx
    have := quiet_none (m.grp x.w x.g) ((lanesOf x.eff).map fun l => ⟨l, (f x.eff (m.grp x.w x.g) l).1, (f x.eff (m.grp x.w x.g) l).2⟩) (by
      intro r hr
      simp only [List.mem_map] at hr
      obtain ⟨l, hm, rfl⟩ := hr
      exact hok _ _ hx l hm)
    simp only [fpDeliver, this, List.flatMap_map]
  · intro e y l u hu
    unfold LaneFp.all at hu
    split at hu
    · exact hl _ _ _ _ hu
    · simp only [List.mem_append, List.mem_singleton] at hu
      rcases hu with hu | rfl
      · exact hl _ _ _ _ hu
      · rfl
  · intro e y l r v
    unfold LaneFp.all
    split
    · exact h1 _ _ _ _ _
    · rw [regAfter_append]; exact h1 _ _ _ _ _
  · intro e y l p v h7
    unfold LaneFp.all
    split
    · exact h2 _ _ _ _ _ h7
    · rw [predAfter_append]; exact h2 _ _ _ _ _ h7
  · intro e y l v
    have h0 : flagsAfter l (f e y l).1 v = v := flagsAfter_none _ _ _ fun l' x hx => absurd hx (hn _ _ _ _ _)
    unfold LaneFp.all
    split
    · rename_i hz; simp only at hz; rw [hz, h0]; simp
    · rw [flagsAfter_append, h0, flagsAfter_flags]; rfl

/-- FP_EXCEPTION names the lanes that raise an enabled condition and the enabled conditions they raise (spec 09 R158). -/
theorem fpDeliver_trap (lat : Nat) (b : Bool) (x : Iss) (f : Nat → List LaneWrite × Nat) (m : Mach) (ls : List Nat)
    (h : (lanesOf x.eff).filter (fun l => decide (enabledConds (m.grp x.w x.g) l (f l).2 ≠ 0)) = ls) (hn : ls ≠ []) :
    fpDeliver lat b x ((lanesOf x.eff).map fun l => ⟨l, (f l).1, (f l).2⟩) m =
      .trap .fpException (fpInfo (maskOf ls) (ls.foldl (fun acc l => acc ||| enabledConds (m.grp x.w x.g) l (f l).2) 0)) (maskOf ls) 0 := by
  have e : trapping (m.grp x.w x.g) ((lanesOf x.eff).map fun l => (⟨l, (f l).1, (f l).2⟩ : LaneFp)) = ls.map fun l => ⟨l, (f l).1, (f l).2⟩ := by
    rw [← h, trapping, List.filter_map]; rfl
  obtain ⟨a, as, rfl⟩ := List.exists_cons_of_ne_nil hn
  simp only [fpDeliver, e, List.map_cons, trappingConds, List.foldl_cons, List.foldl_map, List.map_map, Function.comp_def, List.map_id']

theorem handOn_grp (i : Instr) (x : Iss) (cls : Nat) (k : OutKind) (sh : Bool) (m : Mach) :
    (handOn i x cls k sh m).grp x.w x.g =
      { m.grp x.w x.g with outs := (m.grp x.w x.g).outs ++ [⟨m.nextCmd, cls, x.rec_, k, none, regWrites i, predWrites i, sh, (m.grp x.w x.g).lastDue, serialInterval (m.grp x.w x.g)⟩] } :=
  grp_modG_same _ _ _ _

theorem handOn_kept (i : Instr) (x : Iss) (cls : Nat) (k : OutKind) (sh : Bool) (m : Mach) : Says.KeptM x.w x.g m (handOn i x cls k sh m) := by
  have h : Says.KeptM x.w x.g m (m.modG x.w x.g fun y => { y with outs := y.outs ++ [⟨m.nextCmd, cls, x.rec_, k, none, regWrites i, predWrites i, sh, y.lastDue, serialInterval y⟩] }) :=
    KeptM.modG rfl
  exact ⟨h.rest, h.regions, h.wgs, h.wg, h.grps, h.grp, h.cores, h.core⟩

/-- AN INSTRUCTION THAT HANDS ON A COMMAND and does nothing else. -/
theorem hands {i : Instr} {cls : Nat} {ok : Nat → Nat → State → Prop} {kind : Nat → Nat → State → OutKind} {sh : Nat → Nat → State → Bool}
    (own : Iss → Mach → Own) (he : ∀ s, exec i s = execute i own s)
    (ho : ∀ w g s, ok w g s → ∃ k, own (mkIss i w g (settle w g s.m)) (Says.begun i w g s) =
      .done k (handOn i (mkIss i w g (settle w g s.m)) cls (kind w g s) (sh w g s) (Says.begun i w g s))) : Says.Hands i cls ok kind sh := by
  intro w g s hr hok
  obtain ⟨k, hk⟩ := ho w g s hok
  have hb := begun_reads i w g s
  have hg := handOn_grp i (mkIss i w g (settle w g s.m)) cls (kind w g s) (sh w g s) (Says.begun i w g s)
  have hc := handOn_kept i (mkIss i w g (settle w g s.m)) cls (kind w g s) (sh w g s) (Says.begun i w g s)
  simp only [mkIss_w, mkIss_g, hb] at hg hc
  refine ⟨_, (he s).trans (execute_done hr hk), issued_keptS hc,
    issued_same (by rw [hg]) (by rw [hg]) (by rw [hg]) (by rw [hg]), ?_, ?_⟩
  · rw [issued_nextCmd]
    show (Says.begun i w g s).nextCmd + 1 = _
    rw [begun_nextCmd]
  · rw [vals_outs (issued_vals i w g k _ s), hg]
    simp only [Says.command, begun_nextCmd]
    congr 1
    exact settle_outs w g s.m

end Sys2Proof.Laws
end

