-- ==== Sys2Proof/Laws/Access.lean ====
section
/-! SUPPORT. Laws of accesses at issue: loads and stores handed on, misaligned accesses, the scratchpad, prefetches; what the machine at the start of an
instruction's own part shares with the state. -/

namespace Sys2Proof.Laws

open Sys2Proof Sys2Proof.Machine

theorem charge_regions (w h i k : Nat) (m : Mach) : (charge w h i k m).regions = m.regions := by unfold charge; split <;> rfl
theorem begun_regions (i : Instr) (w g : Nat) (s : State) : (Says.begun i w g s).regions = s.m.regions := by
  simp only [Says.begun, charge_regions]; rfl

theorem regionOf_begun (i : Instr) (w g l : Nat) (s : State) : regionOf (Says.begun i w g s) w g l = regionOf s.m w g l := by
  simp only [regionOf, begun_regions]

theorem loadFold (w g n : Nat) (areg : List Nat) (acc : Nat × Nat → LaneAcc) (hacc : ∀ e, (acc e).region = none) (m : Mach) : ∀ (ls : List (Nat × Nat)) (st : List LaneAcc),
   (∀ e ∈ ls, regionOf m w g e.1 = none) →
   ls.foldl (fun (st : List LaneAcc × Mach) e => let f := regionLoadAt w g e.1 e.2 n areg st.2; (st.1 ++ [{ acc e with region := f.1 }], f.2)) (st, m) = (st ++ ls.map acc, m) := by
  intro ls
  induction ls with
  | nil => intro st _; simp
  | cons e es ih =>
    intro st h
    have h1 : regionLoadAt w g e.1 e.2 n areg m = (none, m) := by simp [regionLoadAt, h e List.mem_cons_self]
    simp only [List.foldl_cons]
    rw [h1]
    dsimp only
    rw [ih _ (fun e' he' => h e' (List.mem_cons_of_mem _ he'))]
    have : ({ acc e with region := none } : LaneAcc) = acc e := by
      have := hacc e
      cases hh : acc e
      rw [hh] at this; simp at this; simp [this]
    simp [this]

theorem access_handed {i : Instr} {q : Req} {ea : Group → Nat → Nat} {mk kind dreg areg} {w g : Nat} {s : State} (hc : Says.Clear i q ea w g s) (hn : Says.NoRegion i w g s)
   (hmk : ∀ y l a v b, (mk y l ⟨l, a, v, 0, none, b⟩ : LaneAcc).region = none) :
   guarded (accessOwn i q ea mk kind dreg areg) (mkIss i w g (settle w g s.m)) (Says.begun i w g s) =
    .done (sectorCount ((Says.accesses i ea w g s).map (·.2))) (handOn i (mkIss i w g (settle w g s.m)) (waitClass i)
      (kind ((Says.accesses i ea w g s).map fun e => mk (Says.reads w g s) e.1 ⟨e.1, e.2, 0, 0, none, Says.shared i q w g s e.2⟩)) (Says.turns i q ea w g s) (Says.begun i w g s)) := by
  obtain ⟨h1, h2, h3, h4⟩ := hc
  unfold guarded
  rw [if_neg (show ¬ (mkIss i w g (settle w g s.m)).eff = 0 from h1)]
  have hb := begun_reads i w g s
  unfold accessOwn
  have e0 : (lanesOf (mkIss i w g (settle w g s.m)).eff).map (fun l => (l, ea (Says.reads w g s) l)) = Says.accesses i ea w g s := rfl
  have hh : accessHold (Says.begun i w g s) w g (sharedCount (Says.begun i w g s) w q (Says.accesses i ea w g s))
      (sharedAccess (Says.begun i w g s) w q (Says.accesses i ea w g s)) = none := by
    simp only [accessHold, h3, h4, Bool.false_eq_true, if_false]
  simp only [mkIss_w, mkIss_g, hb, e0, h2, hh]
  have hne : Says.accesses i ea w g s ≠ [] := by
    unfold Says.accesses
    intro hh
    rw [List.map_eq_nil_iff] at hh
    apply h1
    have : ∀ l, l < 32 → (Says.eff i w g s).getLsbD l = false := by
      intro l hl
      have := mem_lanesOf (k := Says.eff i w g s) hl
      rw [hh] at this
      simpa using this
    apply BitVec.eq_of_getLsbD_eq
    intro l hl
    simpa using this l hl
  have hr : ∀ e ∈ Says.accesses i ea w g s, regionOf (Says.begun i w g s) w g e.1 = none := by
    intro e he
    simp only [Says.accesses, List.mem_map] at he
    obtain ⟨l, hl, rfl⟩ := he
    rw [regionOf_begun]; exact hn l hl
  have ha : (Says.accesses i ea w g s).filter (fun e => (regionOf (Says.begun i w g s) w g e.1).isNone) = Says.accesses i ea w g s :=
    List.filter_eq_self.2 (fun e he => by rw [hr e he]; rfl)
  have hz : (Says.accesses i ea w g s).filter (fun e => (regionOf (Says.begun i w g s) w g e.1).isSome) = [] := by
    rw [List.filter_eq_nil_iff]; intro e he; rw [hr e he]; simp
  have hf := loadFold w g q.n areg (fun e => mk (Says.reads w g s) e.1 ⟨e.1, e.2, 0, 0, none, Says.shared i q w g s e.2⟩) (fun e => hmk _ _ _ _ _) (Says.begun i w g s) (Says.accesses i ea w g s) [] hr
  dsimp only [Says.shared] at hf
  simp only [ha, hz, List.foldl_nil, if_neg hne]
  rw [hf]
  split <;> rfl

theorem access_hands {i : Instr} {q : Req} {ea : Group → Nat → Nat} {mk kind dreg areg} {cls : Nat} (hcls : waitClass i = cls)
   (he : ∀ s, exec i s = execute i (guarded (accessOwn i q ea mk kind dreg areg)) s)
   (hmk : ∀ y l a v b, (mk y l ⟨l, a, v, 0, none, b⟩ : LaneAcc).region = none) :
   Says.Hands i cls (fun w g s => Says.Clear i q ea w g s ∧ Says.NoRegion i w g s)
     (fun w g s => kind ((Says.accesses i ea w g s).map fun e => mk (Says.reads w g s) e.1 ⟨e.1, e.2, 0, 0, none, Says.shared i q w g s e.2⟩)) (fun w g s => Says.turns i q ea w g s) :=
  hands _ he fun w g s ⟨hc, hn⟩ => ⟨_, by rw [← hcls]; exact access_handed hc hn hmk⟩

theorem load_hands {i : Instr} {q : Req} {ea : Group → Nat → Nat} {mk kind dreg areg} {cls : Nat} (hcls : waitClass i = cls) (hq : q.writes = false)
   (he : ∀ s, exec i s = execute i (guarded (accessOwn i q ea mk kind dreg areg)) s)
   (hmk : ∀ y l a v b, (mk y l ⟨l, a, v, 0, none, b⟩ : LaneAcc).region = none) :
   Says.Hands i cls (fun w g s => Says.Clear i q ea w g s ∧ Says.NoRegion i w g s)
     (fun w g s => kind ((Says.accesses i ea w g s).map fun e => mk (Says.reads w g s) e.1 ⟨e.1, e.2, 0, 0, none, false⟩)) (fun _ _ _ => false) :=
  hands _ he fun w g s ⟨hc, hn⟩ => ⟨sectorCount ((Says.accesses i ea w g s).map (·.2)), by
    rw [← hcls, access_handed hc hn hmk]
    have h : ∀ a, Says.shared i q w g s a = false := fun a => by simp [Says.shared, sharedLane, hq]
    have : Says.turns i q ea w g s = false := by
      rw [Says.turns, sharedAccess, List.any_eq_false]
      exact fun e _ => by rw [show sharedLane _ w q e.2 = false from h e.2]; exact Bool.false_ne_true
    simp only [this, h]⟩

theorem trap_guarded {i : Instr} {own : Iss → Mach → Own} {ea : Group → Nat → Nat} {n : Nat} (he : ∀ s, exec i s = execute i own s)
   (ho : ∀ w g s e es, (Says.accesses i ea w g s).filter (fun e => decide (e.2 % n ≠ 0)) = e :: es →
      own (mkIss i w g (settle w g s.m)) (Says.begun i w g s) = trapLanes .misalignedAccess (e :: es)) :
   ∀ w g s, Says.Ready i w g s →
      ∀ e es, (Says.accesses i ea w g s).filter (fun e => decide (e.2 % n ≠ 0)) = e :: es →
        let ls := maskOf ((e :: es).map (·.1))
        Says.Traps i w g s .misalignedAccess (BitVec.ofNat 64 (ls.toNat + 2 ^ 32 * (e.2 % 2 ^ 32))) ls (BitVec.ofNat 64 e.2) := by
  intro w g s hr e es hh ls
  unfold Says.Traps
  rw [he]
  exact execute_trap hr (ho w g s e es hh)

theorem eff_ne {i : Instr} {ea} {n : Nat} {w g s e es} (h : (Says.accesses i ea w g s).filter (fun e => decide (e.2 % n ≠ 0)) = e :: es) : ¬ (mkIss i w g (settle w g s.m)).eff = 0 := by
  intro h0
  have h0 : Says.eff i w g s = 0 := h0
  simp [Says.accesses, h0, lanesOf] at h

theorem mis_access {i : Instr} {q : Req} {ea : Group → Nat → Nat} {mk kind dreg areg} (he : ∀ s, exec i s = execute i (guarded (accessOwn i q ea mk kind dreg areg)) s) :
   ∀ w g s, Says.Ready i w g s →
      ∀ e es, (Says.accesses i ea w g s).filter (fun e => decide (e.2 % q.n ≠ 0)) = e :: es →
        let ls := maskOf ((e :: es).map (·.1))
        Says.Traps i w g s .misalignedAccess (BitVec.ofNat 64 (ls.toNat + 2 ^ 32 * (e.2 % 2 ^ 32))) ls (BitVec.ofNat 64 e.2) := by
  refine trap_guarded he fun w g s e es hh => ?_
  unfold guarded
  rw [if_neg (eff_ne hh)]
  unfold accessOwn
  simp only [mkIss_w, mkIss_g, begun_reads i w g s]
  change (match accessTrap (mkIss i w g (settle w g s.m)) (Says.begun i w g s) q (Says.accesses i ea w g s) with | some t => t | none => _) = _
  unfold accessTrap addrTrap
  rw [hh]
  rfl

theorem mis_scratch {i : Instr} {n : Nat} {a : Reg} {ofs : BitVec 6} {act} (he : ∀ s, exec i s = execute i (scratchOwn n a ofs act) s) :
   ∀ w g s, Says.Ready i w g s →
      ∀ e es, (Says.accesses i (fun y l => (y.reg a.toNat l + BitVec.ofNat 32 (ofs.toNat * n)).toNat) w g s).filter (fun e => decide (e.2 % n ≠ 0)) = e :: es →
        let ls := maskOf ((e :: es).map (·.1))
        Says.Traps i w g s .misalignedAccess (BitVec.ofNat 64 (ls.toNat + 2 ^ 32 * (e.2 % 2 ^ 32))) ls (BitVec.ofNat 64 e.2) := by
  refine trap_guarded he fun w g s e es hh => ?_
  unfold scratchOwn guarded
  rw [if_neg (eff_ne hh)]
  simp only [mkIss_w, mkIss_g, begun_reads i w g s]
  change (match scratchTrap (mkIss i w g (settle w g s.m)) (Says.begun i w g s) n (Says.accesses i (fun y l => (y.reg a.toNat l + BitVec.ofNat 32 (ofs.toNat * n)).toNat) w g s) with | some t => t | none => _) = _
  unfold scratchTrap
  rw [hh]
  rfl

theorem scratchAt_congr (m k : Mach) (w a n : Nat) (h : k.wgs = m.wgs) : scratchAt k w a n = scratchAt m w a n := by
  simp only [scratchAt, scratchKeys, scratchPlace, Mach.wg, h]

/-- Bytes written at keys one after another. -/
def putAll (ks : List Nat) (bs : List Byte) (mem : Memory) : Memory := (ks.zip bs).foldl (fun acc e => Memory.write acc e.1 e.2) mem

theorem putAll_wf (ks : List Nat) (bs : List Byte) (mem : Memory) (h : Memory.wf mem = true) : Memory.wf (putAll ks bs mem) = true := by
  unfold putAll
  induction ks.zip bs generalizing mem with
  | nil => exact h
  | cons e es ih => exact ih _ (Memory_write_wf _ _ _ h)

theorem putAll_other (ks : List Nat) (bs : List Byte) (mem : Memory) (h : Memory.wf mem = true) (k : Nat) (hk : k ∉ ks) : Memory.read (putAll ks bs mem) k = Memory.read mem k := by
  unfold putAll
  have : ∀ e ∈ ks.zip bs, e.1 ≠ k := by
    intro e he hh; exact hk (hh ▸ (List.of_mem_zip he).1)
  generalize ks.zip bs = zs at this
  induction zs generalizing mem with
  | nil => rfl
  | cons e es ih =>
    simp only [List.foldl_cons]
    rw [ih _ (Memory_write_wf _ _ _ h) (fun e' he' => this e' (List.mem_cons_of_mem _ he')),
      Memory_read_write_other _ _ _ _ h (fun hh => this e List.mem_cons_self hh.symm)]

theorem putAll_at (ks : List Nat) (bs : List Byte) (mem : Memory) (h : Memory.wf mem = true) (hl : bs.length = ks.length) (hn : ks.Nodup) (j : Nat) (hj : j < ks.length) :
    Memory.read (putAll ks bs mem) (ks.getD j 0) = bs.getD j 0 := by
  induction ks generalizing bs mem j with
  | nil => simp at hj
  | cons k ks ih =>
    cases bs with
    | nil => simp at hl
    | cons b bs =>
      have hn' := List.nodup_cons.1 hn
      change Memory.read (putAll ks bs (Memory.write mem k b)) _ = _
      cases j with
      | zero =>
        simp only [List.getD_cons_zero]
        rw [putAll_other _ _ _ (Memory_write_wf _ _ _ h) _ hn'.1, Memory_read_write_same _ _ _ h]
      | succ j =>
        simp only [List.getD_cons_succ]
        exact ih bs _ (Memory_write_wf _ _ _ h) (by simpa using hl) hn'.2 j (by simpa using hj)

theorem foldKeys_wf (f : Nat × Nat → List Nat) (b : Nat × Nat → List Byte) (ls : List (Nat × Nat)) (mem : Memory) (h : Memory.wf mem = true) :
    Memory.wf (ls.foldl (fun acc e => putAll (f e) (b e) acc) mem) = true := by
  induction ls generalizing mem with
  | nil => exact h
  | cons e es ih => exact ih _ (putAll_wf _ _ _ h)

theorem foldKeys_other (f : Nat × Nat → List Nat) (b : Nat × Nat → List Byte) (ls : List (Nat × Nat)) (mem : Memory) (h : Memory.wf mem = true) (k : Nat)
    (hk : ∀ e ∈ ls, k ∉ f e) : Memory.read (ls.foldl (fun acc e => putAll (f e) (b e) acc) mem) k = Memory.read mem k := by
  induction ls generalizing mem with
  | nil => rfl
  | cons e es ih =>
    simp only [List.foldl_cons]
    rw [ih _ (putAll_wf _ _ _ h) (fun e' he' => hk e' (List.mem_cons_of_mem _ he')), putAll_other _ _ _ h _ (hk e List.mem_cons_self)]

theorem foldKeys_at (f : Nat × Nat → List Nat) (b : Nat × Nat → List Byte) (es fs : List (Nat × Nat)) (e : Nat × Nat) (mem : Memory) (h : Memory.wf mem = true)
    (hl : (b e).length = (f e).length) (hn : (f e).Nodup) (j : Nat) (hj : j < (f e).length) (hf : ∀ x ∈ fs, (f e).getD j 0 ∉ f x) :
    Memory.read ((es ++ e :: fs).foldl (fun acc e => putAll (f e) (b e) acc) mem) ((f e).getD j 0) = (b e).getD j 0 := by
  rw [List.foldl_append, List.foldl_cons, foldKeys_other _ _ _ _ (putAll_wf _ _ _ (foldKeys_wf _ _ _ _ h)) _ hf]
  exact putAll_at _ _ _ (foldKeys_wf _ _ _ _ h) hl hn j hj

theorem leBytes_getD (n v j : Nat) (h : j < n) : (leBytes n v).getD j 0 = BitVec.ofNat 8 (v / 2 ^ (8 * j)) := by
  induction n generalizing v j with
  | zero => omega
  | succ n ih =>
    cases j with
    | zero => simp [leBytes]
    | succ j =>
      simp only [leBytes, List.getD_cons_succ]
      rw [ih (v / 256) j (by omega), Nat.div_div_eq_div_mul]
      have : 256 * 2 ^ (8 * j) = 2 ^ (8 * (j + 1)) := by rw [Nat.mul_add, Nat.pow_add, Nat.mul_comm]
      rw [this]

theorem sts_fold (w : Nat) (b : Nat × Nat → List Byte) (n : Nat) (hb : ∀ e, (b e).length = n) (ls : List (Nat × Nat)) (m : Mach) :
   ls.foldl (fun acc e => scratchWrite w e.2 (b e) acc) m =
     { m with scratch := ls.foldl (fun acc e => putAll (scratchAt m w e.2 n) (b e) acc) m.scratch } := by
  induction ls generalizing m with
  | nil => rfl
  | cons e es ih =>
    simp only [List.foldl_cons]
    rw [ih]
    have : scratchWrite w e.2 (b e) m = { m with scratch := putAll (scratchAt m w e.2 n) (b e) m.scratch } := by
      unfold scratchWrite
      rw [hb]
      rfl
    rw [this]
    rfl

theorem leBytes_length (n v : Nat) : (leBytes n v).length = n := by
  induction n generalizing v with
  | zero => rfl
  | succ n ih => simp [leBytes, ih]

theorem scratch_own {i : Instr} {n : Nat} {a : Reg} {ofs : BitVec 6} {act} {w g : Nat} {s : State}
   (h1 : Says.eff i w g s ≠ 0) (h2 : scratchTrap (mkIss i w g (settle w g s.m)) (Says.begun i w g s) n (Says.accesses i (fun y l => (y.reg a.toNat l + BitVec.ofNat 32 (ofs.toNat * n)).toNat) w g s) = none)
   (h3 : strongPending (Says.begun i w g s) w g = false) :
   scratchOwn n a ofs act (mkIss i w g (settle w g s.m)) (Says.begun i w g s) =
     act (Says.accesses i (fun y l => (y.reg a.toNat l + BitVec.ofNat 32 (ofs.toNat * n)).toNat) w g s) (mkIss i w g (settle w g s.m)) (Says.begun i w g s) := by
  unfold scratchOwn guarded
  rw [if_neg (show ¬ (mkIss i w g (settle w g s.m)).eff = 0 from h1)]
  have e0 : (lanesOf (mkIss i w g (settle w g s.m)).eff).map (fun l => (l, eaWord (Says.reads w g s) a (ofs.toNat * n) l)) =
    Says.accesses i (fun y l => (y.reg a.toNat l + BitVec.ofNat 32 (ofs.toNat * n)).toNat) w g s := rfl
  simp only [mkIss_w, mkIss_g, begun_reads i w g s, e0, h2, h3, Bool.false_eq_true, if_false]

theorem charge_scratch (w h i k : Nat) (m : Mach) : (charge w h i k m).scratch = m.scratch := by unfold charge; split <;> rfl
theorem begun_scratch (i : Instr) (w g : Nat) (s : State) : (Says.begun i w g s).scratch = s.m.scratch := by
  simp only [Says.begun, charge_scratch]; rfl

theorem standAt_scratch (w g : Nat) (a : DWord) (k : Mask) (m : Mach) : (standAt w g a k m).scratch = m.scratch := rfl

theorem endRun_scratch (w g : Nat) (m : Mach) : (endRun w g m).scratch = m.scratch := by
  unfold endRun
  split
  · rfl
  · simp only [dropSlot_scratch, modG_scratch]
    have : ∀ (l : List (DWord × Mask)) (n : Mach) (f : Mask → Mask),
        (l.foldl (fun acc x => standAt w g x.1 (f x.2) acc) n).scratch = n.scratch := by
      intro l
      induction l with
      | nil => intro n f; rfl
      | cons a l ih => intro n f; exact (ih _ f).trans rfl
    exact (this _ _ (fun k => k &&& _)).trans rfl

theorem KeptM_scratchEq {w g : Nat} {a b : Mach} (h : Says.KeptM w g a b) : b.scratch = a.scratch := by
  have := congrArg Mach.scratch h.rest
  exact this

theorem KeptM_scratch {w g : Nat} {a b c : Mach} {x : Memory} (h : Says.KeptM w g a b) (k : Says.KeptM w g { b with scratch := x } c) :
    Says.KeptM w g a { c with scratch := a.scratch } := by
  have hb : b.scratch = a.scratch := KeptM_scratchEq h
  refine ⟨?_, k.regions.trans h.regions, fun v hv => (k.wgs v hv).trans (h.wgs v hv), k.wg.trans h.wg, fun v hv => (k.grps v hv).trans (h.grps v hv), k.grp.trans h.grp,
    fun v hv => ?_, ?_⟩
  · have := congrArg (fun m : Mach => { m with scratch := a.scratch }) k.rest
    refine Eq.trans this (Eq.trans ?_ h.rest)
    show { Says.restM b with scratch := a.scratch } = Says.restM b
    rw [← hb]; rfl
  · have e : ({ b with scratch := x } : Mach).wg w = b.wg w := rfl
    exact (k.cores v (by rw [e, h.sameCore]; exact hv)).trans (h.cores v hv)
  · have := k.core
    have e : ({ b with scratch := x } : Mach).wg w = b.wg w := rfl
    rw [e, h.sameCore] at this
    exact this.trans h.core

theorem issued_after (i : Instr) (w g k : Nat) (m : Mach) (s : State) : Says.KeptM w g m (Says.issued i w g k m s).m :=
  (followTags_kept i w g _ _ m).trans (finishIssue_kept i (mkIss i w g (settle w g s.m)) k _)

theorem grp_scratch (m : Mach) (x : Memory) (w g : Nat) : ({ m with scratch := x } : Mach).grp w g = m.grp w g := rfl

theorem KeptS_scratch {w g : Nat} {s t : State} {b : Mach} {x : Memory} (h1 : t.hw = s.hw) (h2 : t.schedule = s.schedule) (h3 : t.turn = s.turn)
    (h : Says.KeptM w g s.m b) (k : Says.KeptM w g { b with scratch := x } t.m) : Says.KeptS w g s { t with m := { t.m with scratch := s.m.scratch } } :=
  ⟨h1, h2, h3, KeptM_scratch h k⟩

theorem store_issue {i : Instr} {n : Nat} {d a : Reg} {ofs : BitVec 6} (he : ∀ s, exec i s = execute i (stsOwn i n d a ofs) s) : ∀ w g s, Says.Ready i w g s →
  (Says.eff i w g s ≠ 0 ∧ scratchTrap (mkIss i w g (settle w g s.m)) (Says.begun i w g s) n (Says.accesses i (fun y l => (y.reg a.toNat l + BitVec.ofNat 32 (ofs.toNat * n)).toNat) w g s) = none ∧
        strongPending (Says.begun i w g s) w g = false) →
      scratchNow (Says.iss i w g s) (.storeScratch n ((Says.accesses i (fun y l => (y.reg a.toNat l + BitVec.ofNat 32 (ofs.toNat * n)).toNat) w g s).map fun e =>
        ⟨e.1, e.2, BitVec.ofNat 128 ((Says.reads w g s).regsVal d.toNat (n / 4) e.1), 0, none, false⟩)) (Says.begun i w g s) = true →
      let ls := Says.accesses i (fun y l => (y.reg a.toNat l + BitVec.ofNat 32 (ofs.toNat * n)).toNat) w g s
      let keys := fun (e : Nat × Nat) => scratchAt (Says.begun i w g s) w e.2 n
      ∃ t, exec i s = .next t ∧ Says.KeptS w g s { t with m := { t.m with scratch := s.m.scratch } } ∧ Says.SameRegs w g s t ∧
        (t.m.grp w g).outs = (s.m.grp w g).outs ∧ t.m.nextCmd = s.m.nextCmd ∧
        (Memory.wf s.m.scratch = true → Memory.wf t.m.scratch = true ∧
          (∀ k, (∀ e ∈ ls, k ∉ keys e) → Memory.read t.m.scratch k = Memory.read s.m.scratch k) ∧
          ∀ es e fs j, ls = es ++ e :: fs → (keys e).length = n → (keys e).Nodup → j < n →
            (∀ f ∈ fs, (keys e).getD j 0 ∉ keys f) →
            Memory.read t.m.scratch ((keys e).getD j 0) = BitVec.ofNat 8 ((Says.reads w g s).regsVal d.toNat (n / 4) e.1 / 2 ^ (8 * j))) := by
  intro w g s hr ⟨h1, h2, h3⟩ hnow ls keys
  have ho := scratch_own (act := fun ls x m =>
    let y := m.grp x.w x.g
    let k := OutKind.storeScratch n (ls.map fun e => ⟨e.1, e.2, BitVec.ofNat 128 (y.regsVal d.toNat (n / 4) e.1), 0, none, false⟩)
    if scratchNow x k m then .done 0 (ls.foldl (fun acc e => scratchWrite x.w e.2 (leBytes n (y.regsVal d.toNat (n / 4) e.1)) acc) m)
    else .done 0 (scratchPass x.w x.g m.nextCmd (handOn i x 8 k false m))) h1 h2 h3
  simp only [mkIss_w, mkIss_g, begun_reads] at ho
  have hnow' := hnow
  unfold Says.iss at hnow'
  rw [hnow', if_pos rfl] at ho
  have hf := sts_fold w (fun e => leBytes n ((Says.reads w g s).regsVal d.toNat (n / 4) e.1)) n (fun e => leBytes_length _ _) ls (Says.begun i w g s)
  rw [hf] at ho
  generalize hm : ls.foldl (fun acc e => putAll (keys e) (leBytes n ((Says.reads w g s).regsVal d.toNat (n / 4) e.1)) acc) (Says.begun i w g s).scratch = mem at ho
  have kk : Says.KeptM w g { Says.begun i w g s with scratch := mem } (Says.issued i w g 0 { Says.begun i w g s with scratch := mem } s).m :=
    issued_after ..
  have hs : (Says.issued i w g 0 { Says.begun i w g s with scratch := mem } s).m.scratch = mem := KeptM_scratchEq kk
  have hg : ({ Says.begun i w g s with scratch := mem } : Mach).grp w g = Says.reads w g s := (grp_scratch ..).trans (begun_reads i w g s)
  refine ⟨_, (he s).trans (execute_done hr ho), KeptS_scratch (issued_hw ..) (issued_schedule ..) (issued_turn ..) (begun_kept i w g s) kk, 
    issued_same (by rw [hg]) (by rw [hg]) (by rw [hg]) (by rw [hg]), ?_, ?_, fun hw => ?_⟩
  · rw [vals_outs (issued_vals i w g 0 _ s), hg]; exact settle_outs w g s.m
  · exact (issued_nextCmd i w g 0 _ s).trans (begun_nextCmd i w g s)
  · rw [hs]
    subst hm
    rw [begun_scratch]
    refine ⟨foldKeys_wf _ _ _ _ hw, fun k hk => foldKeys_other _ _ _ _ hw k hk, fun es e fs j hls hkl hkn hj hd => ?_⟩
    rw [hls, foldKeys_at keys _ es fs e _ hw (by rw [leBytes_length, hkl]) hkn j (by omega) hd, leBytes_getD _ _ _ hj]

/-- A scratchpad access that waits for its passes is handed on. -/
theorem scratch_later {i : Instr} {own : Iss → Mach → Own} {k : Nat → Nat → State → OutKind} {cls : Nat}
    {ok : Nat → Nat → State → Prop} (he : ∀ s, exec i s = execute i own s)
    (ho : ∀ w g s, ok w g s → own (Says.iss i w g s) (Says.begun i w g s) =
      .done 0 (scratchPass w g s.m.nextCmd (Says.handed i w g cls (k w g s) false s (Says.begun i w g s)))) :
    Says.Ends i ok (fun _ _ _ => 0) (fun w g s m => scratchPass w g s.m.nextCmd (Says.handed i w g cls (k w g s) false s m)) :=
  fun w g s hr hok => (he s).trans (execute_done hr (ho w g s hok))

/-- Memories and workgroups are the same. -/
def sameData (m n : Mach) : Prop := n.wgs = m.wgs ∧ n.hbm = m.hbm ∧ n.vault = m.vault ∧ n.scratch = m.scratch

theorem sameData.trans {a b c : Mach} (h : sameData a b) (k : sameData b c) : sameData a c :=
  ⟨k.1.trans h.1, k.2.1.trans h.2.1, k.2.2.1.trans h.2.2.1, k.2.2.2.trans h.2.2.2⟩

theorem sameData_fold {α : Type} (f : Mach → α → Mach) (hf : ∀ m a, sameData m (f m a)) (l : List α) (m : Mach) : sameData m (l.foldl f m) := by
  induction l generalizing m with
  | nil => exact ⟨rfl, rfl, rfl, rfl⟩
  | cons a l ih => exact (hf m a).trans (ih _)

theorem sameData_ite {c : Prop} [Decidable c] {m a b : Mach} (h : sameData m a) (k : sameData m b) : sameData m (if c then a else b) := by
  split
  · exact h
  · exact k

theorem retireLoc_data (loc : Loc) (m : Mach) : sameData m (retireLoc loc m) := by
  cases loc with
  | scratch c a => exact ⟨rfl, rfl, rfl, rfl⟩
  | hbm pa => exact sameData.trans ⟨rfl, rfl, rfl, rfl⟩ (sameData_fold (fun acc p => toHost p (.retired (.hbm pa)) acc) (fun _ _ => ⟨rfl, rfl, rfl, rfl⟩) _ _)
  | vault c off => exact sameData.trans ⟨rfl, rfl, rfl, rfl⟩ (sameData_fold (fun acc p => toHost p (.retired (.vault c off)) acc) (fun _ _ => ⟨rfl, rfl, rfl, rfl⟩) _ _)

theorem memoryReadRetry_data (loc : Loc) (b : Bool) (m : Mach) : sameData m (memoryReadRetry loc b m) :=
  sameData_ite ⟨rfl, rfl, rfl, rfl⟩ (sameData_ite ⟨rfl, rfl, rfl, rfl⟩ (retireLoc_data loc m))

/-- A second read changes no byte. -/
theorem retryHbm_data (pa : Nat) (m : Mach) : sameData m (retryHbm pa m) :=
  sameData_fold _ (fun m f => sameData.trans (b := m.useFree) ⟨rfl, rfl, rfl, rfl⟩ (memoryReadRetry_data f _ _)) _ _

theorem touchTlb_data (k : Site) (p c va : Nat) (m : Mach) : sameData m (touchTlb k p c va m) := by
  unfold touchTlb
  split <;> exact ⟨rfl, rfl, rfl, rfl⟩

theorem prefLane_data (w : Nat) (b : Bool) (ea : Nat) (m : Mach) : sameData m (prefLane w b ea m) := by
  unfold prefLane
  dsimp only
  split
  · have h := touchTlb_data (wgSite m w) (m.wg w).part (m.wg w).ctx ea m
    split
    · exact h
    · split
      · split
        · exact h.trans (retryHbm_data _ _)
        · exact h.trans ((retryHbm_data _ _).trans ⟨rfl, rfl, rfl, rfl⟩)
      · exact h
  · exact ⟨rfl, rfl, rfl, rfl⟩

theorem prefFold_data (w : Nat) (b : Bool) (ls : List (Nat × Nat)) (m : Mach) : sameData m (ls.foldl (fun acc e => prefLane w b e.2 acc) m) :=
  sameData_fold _ (fun m e => prefLane_data w b e.2 m) ls m

theorem KeptM_data {w g : Nat} {a b : Mach} (h : Says.KeptM w g a b) : b.hbm = a.hbm ∧ b.vault = a.vault ∧ b.scratch = a.scratch := by
  have h1 := congrArg Mach.hbm h.rest
  have h2 := congrArg Mach.vault h.rest
  have h3 := congrArg Mach.scratch h.rest
  exact ⟨h1, h2, h3⟩

theorem begun_isDet (i : Instr) (w g : Nat) (s : State) (h : isDet s.m w = false) : isDet (Says.begun i w g s) w = false := by
  have k := begun_kept i w g s
  have h1 : (Says.begun i w g s).launches = s.m.launches := by
    have := congrArg Mach.launches k.rest
    exact this
  have h2 : ((Says.begun i w g s).wg w).launch = (s.m.wg w).launch := by
    have := congrArg Wg.launch k.wg
    exact this
  rw [← h]
  simp only [isDet, Mach.block, Mach.launch, h1, h2]

theorem pref_next {i : Instr} {b : Bool} {a : Reg} {ofs : BitVec 6} (he : ∀ s, exec i s = execute i (prefOwn b a ofs) s) (w g : Nat) (s : State)
    (hr : Says.Ready i w g s)
    (hd : (isDet (Says.begun i w g s) w && (Says.accesses i (fun y l => (y.pair a.toNat l + BitVec.ofNat 64 (ofs.toNat * 32)).toNat / 32 * 32) w g s).any fun e => ownedByOther (Says.begun i w g s) w false e.2 32) = false) (hn : Says.NoRegion i w g s) (hs : strongPending (Says.begun i w g s) w g = false) :
      ∃ t, exec i s = .next t ∧ Says.SameRegs w g s t ∧ (t.m.grp w g).outs = (s.m.grp w g).outs ∧ t.m.hbm = s.m.hbm ∧ t.m.vault = s.m.vault ∧
        t.m.scratch = s.m.scratch ∧ (∀ v, v ≠ w → t.m.wg v = s.m.wg v) ∧ ∀ h, h ≠ g → t.m.grp w h = s.m.grp w h := by
  obtain ⟨k, m, ho, hm⟩ : ∃ k m, prefOwn b a ofs (mkIss i w g (settle w g s.m)) (Says.begun i w g s) = .done k m ∧ sameData (Says.begun i w g s) m := by
    unfold prefOwn guarded
    split
    · exact ⟨_, _, rfl, rfl, rfl, rfl, rfl⟩
    · simp only [mkIss_w, mkIss_g, hs]
      have hl : Says.accesses i (fun y l => (y.pair a.toNat l + BitVec.ofNat 64 (ofs.toNat * 32)).toNat / 32 * 32) w g s =
          (lanesOf (mkIss i w g (settle w g s.m)).eff).map (fun l => (l, eaPair ((Says.begun i w g s).grp w g) a (ofs.toNat * 32) l / 32 * 32)) := by
        rw [begun_reads]; rfl
      rw [hl] at hd
      generalize (lanesOf (mkIss i w g (settle w g s.m)).eff).map (fun l => (l, eaPair ((Says.begun i w g s).grp w g) a (ofs.toNat * 32) l / 32 * 32)) = ls at hl hd
      have hz : ls.filter (fun e => (regionOf (Says.begun i w g s) w g e.1).isSome) = [] := by
        rw [List.filter_eq_nil_iff]
        intro e he
        rw [← hl] at he
        unfold Says.accesses at he
        simp only [List.mem_map] at he
        obtain ⟨l, hl, rfl⟩ := he
        rw [regionOf_begun, hn l hl]; simp
      rw [hz]
      refine ⟨sectorCount (ls.map (·.2)), _, ?_, prefFold_data w b ls _⟩
      by_cases hdet : isDet (Says.begun i w g s) w = true
      · rw [hdet, Bool.true_and, List.any_eq_false] at hd
        rw [List.filter_eq_nil_iff.2 (fun e he => hd e he)]
        simp only [hdet]; rfl
      · simp only [hdet]; rfl
  have hgg : ∀ v h, m.grp v h = (Says.begun i w g s).grp v h := by intro v h; simp only [Mach.grp, Mach.wg, hm.1]
  have hww : ∀ v, m.wg v = (Says.begun i w g s).wg v := by intro v; simp only [Mach.wg, hm.1]
  have hg : m.grp w g = Says.reads w g s := (hgg w g).trans (begun_reads i w g s)
  have ka := issued_after i w g k m s
  have kb := begun_kept i w g s
  have da := KeptM_data ka
  have db := KeptM_data kb
  refine ⟨_, (he s).trans (execute_done hr ho), issued_same (by rw [hg]) (by rw [hg]) (by rw [hg]) (by rw [hg]), ?_, ?_, ?_, ?_, ?_, ?_⟩
  · rw [vals_outs (issued_vals i w g k _ s), hg]; exact settle_outs w g s.m
  · rw [da.1, hm.2.1, db.1]
  · rw [da.2.1, hm.2.2.1, db.2.1]
  · rw [da.2.2, hm.2.2.2, db.2.2]
  · intro v hv
    rw [ka.wgs v hv]
    exact (hww v).trans (kb.wgs v hv)
  · intro h hh
    rw [ka.grps h hh]
    exact (hgg w h).trans (kb.grps h hh)

end Sys2Proof.Laws
end

