-- ==== Sys2Proof/Laws/Ordered.lean ====
section
/-! SUPPORT. Laws of ordered accesses and regions at issue: what LDO, STO, atomics, WAITW and lock words hand on, GCOMMIT, loads and stores of a Gambit region. -/

namespace Sys2Proof.Laws

open Sys2Proof Sys2Proof.Machine

theorem ends {i : Instr} {ok k f} (own : Iss → Mach → Own) (he : ∀ s, exec i s = execute i own s)
    (ho : ∀ w g s, ok w g s → own (mkIss i w g (settle w g s.m)) (Says.begun i w g s) = .done (k w g s) (f w g s (Says.begun i w g s))) : Says.Ends i ok k f :=
  fun w g s hr hok => (he s).trans (execute_done hr (ho w g s hok))

theorem inRegion_none {i : Instr} {w g : Nat} {s : State} (hn : Says.NoRegion i w g s) :
    inRegion (mkIss i w g (settle w g s.m)) (mkIss i w g (settle w g s.m)).eff (Says.begun i w g s) = false := by
  unfold inRegion regionsOf
  rw [List.any_eq_false]
  intro r hr
  rw [List.mem_filter, begun_regions] at hr
  obtain ⟨hm, hc⟩ := hr
  simp only [mkIss_w, mkIss_g, Bool.and_eq_true] at hc
  obtain ⟨⟨h1, h2⟩, h3⟩ := hc
  have h32 : r.lane < 32 := by
    rcases Nat.lt_or_ge r.lane 32 with h | h
    · exact h
    · have := BitVec.getLsbD_of_ge (mkIss i w g (settle w g s.m)).eff r.lane h
      rw [this] at h3; cases h3
  have := hn r.lane ((mem_lanesOf h32).2 h3)
  unfold regionOf at this
  rw [List.find?_eq_none] at this
  have h4 : r.wg = w := of_decide_eq_true h1
  have h5 : r.grp = g := of_decide_eq_true h2
  have := this r hm
  simpa [Region.isOf, h4, h5] using this

theorem ea0 (a : Reg) : (fun y l => eaPair y a 0 l) = fun (y : Group) (l : Nat) => (y.pair a.toNat l).toNat := by
  funext y l; simp [eaPair]

theorem accessOrd_hands {i : Instr} {q : Req} {a : Reg} {mk kind dreg areg} {cls : Nat} (hcls : waitClass i = cls)
   (he : ∀ s, exec i s = execute i (guarded (accessOwn i q (fun y l => eaPair y a 0 l) mk kind dreg areg)) s)
   (hmk : ∀ y l a v b, (mk y l ⟨l, a, v, 0, none, b⟩ : LaneAcc).region = none) :
   Says.Hands i cls (fun w g s => Says.Clear i q (fun y l => (y.pair a.toNat l).toNat) w g s ∧ Says.NoRegion i w g s)
     (fun w g s => kind ((Says.accesses i (fun y l => (y.pair a.toNat l).toNat) w g s).map fun e => mk (Says.reads w g s) e.1 ⟨e.1, e.2, 0, 0, none, Says.shared i q w g s e.2⟩))
     (fun w g s => Says.turns i q (fun y l => (y.pair a.toNat l).toNat) w g s) := by
  rw [ea0] at he
  exact access_hands hcls he hmk

theorem loadOrd_hands {i : Instr} {q : Req} {a : Reg} {mk kind dreg areg} {cls : Nat} (hcls : waitClass i = cls) (hq : q.writes = false)
   (he : ∀ s, exec i s = execute i (guarded (accessOwn i q (fun y l => eaPair y a 0 l) mk kind dreg areg)) s)
   (hmk : ∀ y l a v b, (mk y l ⟨l, a, v, 0, none, b⟩ : LaneAcc).region = none) :
   Says.Hands i cls (fun w g s => Says.Clear i q (fun y l => (y.pair a.toNat l).toNat) w g s ∧ Says.NoRegion i w g s)
     (fun w g s => kind ((Says.accesses i (fun y l => (y.pair a.toNat l).toNat) w g s).map fun e => mk (Says.reads w g s) e.1 ⟨e.1, e.2, 0, 0, none, false⟩))
     (fun _ _ _ => false) := by
  rw [ea0] at he
  exact load_hands hcls hq he hmk

theorem one_guarded {i : Instr} {ok cls kind sh} (own : Iss → Mach → Own) (he : ∀ s, exec i s = execute i (guarded own) s)
    (h0 : ∀ w g s, ok w g s → Says.eff i w g s ≠ 0)
    (ho : ∀ w g s, ok w g s → ∃ k, own (mkIss i w g (settle w g s.m)) (Says.begun i w g s) =
      .done k (handOn i (mkIss i w g (settle w g s.m)) cls (kind w g s) (sh w g s) (Says.begun i w g s))) : Says.Hands i cls ok kind sh := by
  refine hands _ he fun w g s h => ?_
  unfold guarded
  rw [if_neg (show ¬ (mkIss i w g (settle w g s.m)).eff = 0 from h0 w g s h)]
  exact ho w g s h

theorem waitw_hands {i : Instr} {d a b : Reg} {sc : Scope} {sz : MSize} {cls : Nat} (hcls : waitClass i = cls)
   (he : ∀ s, exec i s = execute i (waitwOwn i d a b sc sz) s) :
   Says.Hands i cls (fun w g s => Says.Clear i ⟨.global, sizeBytes sz, true, false, false⟩ (fun y l => (y.pair a.toNat l).toNat) w g s ∧ Says.NoRegion i w g s)
     (fun w g s => .waitw (sizeBytes sz) d sc ((Says.accesses i (fun y l => (y.pair a.toNat l).toNat) w g s).map fun e => ⟨e.1, e.2, 0, BitVec.ofNat 128 ((Says.reads w g s).regsVal b.toNat (sizeBytes sz / 4) e.1), none, false⟩))
     (fun _ _ _ => false) := by
  refine hands _ he fun w g s ⟨⟨h1, h2, h3, _⟩, _⟩ => ⟨1, ?_⟩
  unfold waitwOwn
  rw [if_neg (show ¬ (mkIss i w g (settle w g s.m)).eff = 0 from h1)]
  have e0 : (lanesOf (mkIss i w g (settle w g s.m)).eff).map (fun l => (l, eaPair (Says.reads w g s) a 0 l)) = Says.accesses i (fun y l => (y.pair a.toNat l).toNat) w g s := by
    unfold Says.accesses; rw [← ea0]; rfl
  simp only [mkIss_w, mkIss_g, begun_reads, e0, h2, h3, Bool.false_eq_true, if_false, hcls]

theorem orElse_none {α : Type} {a b : Option α} (h : (a <|> b) = none) : a = none ∧ b = none := by
  cases a
  · exact ⟨rfl, h⟩
  · cases h

theorem accessHold_none {m : Mach} {w g n : Nat} {sh : Bool} (h : strongPending m w g = false) (k : (sh && turnFull m w n) = false) :
    accessHold m w g n sh = none := by simp only [accessHold, h, k, Bool.false_eq_true, if_false]

theorem lock_hands {i : Instr} {a : Reg} {kind : Mask → Nat → OutKind} {cls : Nat} (hcls : waitClass i = cls)
   (he : ∀ s, exec i s = execute i (fun x m => lockOwn i a (kind x.eff) x m) s) :
   Says.Hands i cls (fun w g s => Says.eff i w g s ≠ 0 ∧ Says.NoRegion i w g s ∧
          accessTrap (mkIss i w g (settle w g s.m)) (Says.begun i w g s) ⟨.global, 8, true, true, false⟩ [(lowLaneD (Says.eff i w g s), ((Says.reads w g s).pair a.toNat (lowLaneD (Says.eff i w g s))).toNat)] = none ∧ strongPending (Says.begun i w g s) w g = false ∧
          (sharedAccess (Says.begun i w g s) w ⟨.global, 8, true, true, false⟩ [(lowLaneD (Says.eff i w g s), ((Says.reads w g s).pair a.toNat (lowLaneD (Says.eff i w g s))).toNat)] && turnFull (Says.begun i w g s) w 1) = false)
        (fun w g s => kind (Says.eff i w g s) ((Says.reads w g s).pair a.toNat (lowLaneD (Says.eff i w g s))).toNat) (fun w g s => sharedAccess (Says.begun i w g s) w ⟨.global, 8, true, true, false⟩ [(lowLaneD (Says.eff i w g s), ((Says.reads w g s).pair a.toNat (lowLaneD (Says.eff i w g s))).toNat)]) := by
  refine hands _ he fun w g s ⟨h0, hn, h1, h2, h3⟩ => ⟨1, ?_⟩
  unfold lockOwn
  rw [if_neg (show ¬ (mkIss i w g (settle w g s.m)).eff = 0 from h0)]
  have e0 : eaPair (Says.reads w g s) a 0 (lowLaneD (mkIss i w g (settle w g s.m)).eff) = ((Says.reads w g s).pair a.toNat (lowLaneD (Says.eff i w g s))).toNat := by
    have := congrFun (congrFun (ea0 a) (Says.reads w g s)) (lowLaneD (Says.eff i w g s)); exact this
  obtain ⟨t1, t⟩ := orElse_none h1
  obtain ⟨_, t⟩ := orElse_none t
  obtain ⟨t2, t3⟩ := orElse_none t
  have hh := accessHold_none h2 h3
  simp only [mkIss_w, mkIss_g, begun_reads, inRegion_none hn, e0]
  rw [show (mkIss i w g (settle w g s.m)).eff = Says.eff i w g s from rfl]
  simp only [t1, t2, t3, hh, hcls]
  rfl

theorem ends_guarded {i : Instr} {ok k f} (own : Iss → Mach → Own) (he : ∀ s, exec i s = execute i (guarded own) s) (h0 : ∀ w g s, ok w g s → Says.eff i w g s ≠ 0)
    (ho : ∀ w g s, ok w g s → own (mkIss i w g (settle w g s.m)) (Says.begun i w g s) = .done (k w g s) (f w g s (Says.begun i w g s))) : Says.Ends i ok k f :=
  ends _ he fun w g s h => by
    unfold guarded
    rw [if_neg (show ¬ (mkIss i w g (settle w g s.m)).eff = 0 from h0 w g s h)]
    exact ho w g s h

theorem askFold (w h : Nat) (l : List Region) : ∀ n : Mach, (l.foldl (fun acc q => modRegion w h q.lane (fun q => { q with asked := true }) acc) n).nextCmd = n.nextCmd ∧
     (l.foldl (fun acc q => modRegion w h q.lane (fun q => { q with asked := true }) acc) n).grp w h = n.grp w h := by
  induction l with
  | nil => intro n; exact ⟨rfl, rfl⟩
  | cons q l ih => intro n; exact ⟨(ih _).1.trans rfl, (ih _).2.trans rfl⟩

theorem gcommit_own (c : Instr) (x : Iss) (m : Mach) (hr : regWrites c = []) (hp : predWrites c = []) (hc : waitClass c = 0) :
  let qs := (lanesOf x.eff).filterMap fun l => regionOf m x.w x.g l
  let live := qs.filter fun q => q.aborted.isNone
  let turns := isDet m x.w && live.any fun q => q.stores.any fun e => !(ownedBySelf m x.w false e.addr e.size)
  let asks := qs.foldl (fun acc q => modRegion x.w x.g q.lane (fun q => { q with asked := true }) acc) m
  let cmd : Out := ⟨m.nextCmd, 0, x.rec_, .gcommit (maskOf (live.map (·.lane))), none, [], [], turns, (m.grp x.w x.g).lastDue, serialInterval (m.grp x.w x.g)⟩
  commitTrap live x m = none → (turns && turnFull m x.w live.length) = false →
  gcommitOwn c x m = .done ((qs.flatMap fun q => q.stores.map fun e => e.addr / 32).eraseDups.length)
        (if live = [] then asks else { (asks.modG x.w x.g fun y => { y with outs := y.outs ++ [cmd] }) with nextCmd := asks.nextCmd + 1 }) := by
  intro qs live turns asks cmd hcT ht
  have hs : sectorCount (qs.flatMap fun q => (regionStores q).map (·.1)) = (qs.flatMap fun q => q.stores.map fun e => e.addr / 32).eraseDups.length := by
    unfold sectorCount
    congr 2
    rw [List.map_flatMap]
    congr 1
    funext q
    simp [regionStores]
  have hg := askFold x.w x.g qs m
  unfold gcommitOwn
  dsimp only
  change (match commitTrap live x m, turns && turnFull m x.w live.length with | some t, _ => t | none, true => _ | none, false => _) = _
  rw [hcT, ht]
  change Own.done (sectorCount (qs.flatMap fun q => (regionStores q).map (·.1))) (if live = [] then asks else handOn c x (waitClass c) (.gcommit (maskOf (live.map (·.lane)))) turns asks) = _
  rw [hs]
  congr 1
  by_cases h0 : live = []
  · rw [if_pos h0, if_pos h0]
  · rw [if_neg h0, if_neg h0, hc]
    unfold handOn
    rw [hr, hp]
    have e : ∀ (f k : Group → Group), f (asks.grp x.w x.g) = k (asks.grp x.w x.g) → asks.modG x.w x.g f = asks.modG x.w x.g k := by
      intro f k hfk
      have : ∀ z : Wg, z = asks.wg x.w → ({ z with groups := Store.upd default z.groups x.g f } : Wg) = { z with groups := Store.upd default z.groups x.g k } := by
        rintro z rfl
        unfold Store.upd
        unfold Mach.grp at hfk
        rw [hfk]
      unfold Mach.modG Mach.modW Store.upd
      exact congrArg (fun v => { asks with wgs := Store.put asks.wgs x.w v }) (this _ rfl)
    rw [e (fun y => { y with outs := y.outs ++ [⟨asks.nextCmd, 0, x.rec_, .gcommit (maskOf (live.map (·.lane))), none, [], [], turns, y.lastDue, serialInterval y⟩] }) (fun y => { y with outs := y.outs ++ [cmd] })]
    show ({ asks.grp x.w x.g with outs := (asks.grp x.w x.g).outs ++ [(⟨asks.nextCmd, 0, x.rec_, .gcommit (maskOf (live.map (·.lane))), none, [], [], turns, (asks.grp x.w x.g).lastDue, serialInterval (asks.grp x.w x.g)⟩ : Out)] } : Group) = { asks.grp x.w x.g with outs := (asks.grp x.w x.g).outs ++ [cmd] }
    rw [hg.1, hg.2]

theorem regsVal_lt (y : Group) (r n l : Nat) : y.regsVal r n l < 2 ^ (32 * n) := by
  induction n generalizing r with
  | zero => simp [Group.regsVal]
  | succ n ih =>
    unfold Group.regsVal
    have h1 := (y.reg r l).isLt
    have h2 := ih (r + 1)
    have : 2 ^ (32 * (n + 1)) = 2 ^ 32 * 2 ^ (32 * n) := by rw [← Nat.pow_add]; congr 1; omega
    rw [this]
    calc _ < 2 ^ 32 + 2 ^ 32 * y.regsVal (r + 1) n l := by omega
      _ = 2 ^ 32 * (y.regsVal (r + 1) n l + 1) := by omega
      _ ≤ _ := Nat.mul_le_mul_left _ h2

theorem touchLine_data (w g l line : Nat) (m : Mach) : (touchLine w g l line m).hbm = m.hbm ∧ (touchLine w g l line m).wgs = m.wgs := by
  unfold touchLine
  split
  · exact ⟨rfl, rfl⟩
  · rename_i q _
    · have : ∀ (rs : List Region) (n : Mach), (rs.foldl (fun acc r => abortYounger q r acc) n).hbm = n.hbm ∧ (rs.foldl (fun acc r => abortYounger q r acc) n).wgs = n.wgs := by
        intro rs
        induction rs with
        | nil => intro n; exact ⟨rfl, rfl⟩
        | cons r rs ih =>
          intro n
          have h1 : (abortYounger q r n).hbm = n.hbm ∧ (abortYounger q r n).wgs = n.wgs := by unfold abortYounger; split <;> exact ⟨rfl, rfl⟩
          exact ⟨(ih _).1.trans h1.1, (ih _).2.trans h1.2⟩
      exact this (lockers m q line) m

theorem regionStoreAt_data (m w g l addr n v dr ar) : (regionStoreAt w g l addr n v dr ar m).hbm = m.hbm ∧ (regionStoreAt w g l addr n v dr ar m).wgs = m.wgs := by
  unfold regionStoreAt
  dsimp only
  split
  · have := touchLine_data w g l ‹Nat› (modRegion w g l (fun q => if q.open_ then q.store addr n v dr ar else q) m)
    exact this
  · exact ⟨rfl, rfl⟩

/-- An open region but for what a load of it may change. -/
def bare (q : Region) : Region := { q with plain := false }

theorem regionOf_bare {m k : Mach} (h : k.regions.map bare = m.regions.map bare) (w g l : Nat) :
    (regionOf k w g l).map bare = (regionOf m w g l).map bare := by
  have hf : ∀ rs : List Region, (rs.find? fun q => q.isOf w g l && !q.asked).map bare = (rs.map bare).find? fun q => q.isOf w g l && !q.asked := by
    intro rs
    induction rs with
    | nil => rfl
    | cons r rs ih =>
      have e : ((bare r).isOf w g l && !(bare r).asked) = (r.isOf w g l && !r.asked) := rfl
      simp only [List.find?_cons, List.map_cons, e]
      split <;> simp_all
  unfold regionOf
  rw [hf, hf, h]

theorem loadAt_bare (w g l a n : Nat) (areg : List Nat) (m : Mach) :
    (regionLoadAt w g l a n areg m).2.regions.map bare = m.regions.map bare ∧ (regionLoadAt w g l a n areg m).2.wgs = m.wgs ∧
    Says.KeptM w g m (regionLoadAt w g l a n areg m).2 ∧ (regionLoadAt w g l a n areg m).2.nextCmd = m.nextCmd := by
  have key : ∀ f : Region → Region, (∀ q, bare (f q) = bare q) → (modRegion w g l f m).regions.map bare = m.regions.map bare := by
    intro f hf
    unfold modRegion
    rw [List.map_map]
    congr 1
    funext q
    simp only [Function.comp]
    split
    · exact hf q
    · rfl
  unfold regionLoadAt
  split
  · exact ⟨rfl, rfl, Says.KeptM.refl _ _ _, rfl⟩
  · dsimp only
    split
    · refine ⟨key _ (fun q => rfl), rfl, ⟨rfl, ?_, fun _ _ => rfl, rfl, fun _ _ => rfl, rfl, fun _ _ => rfl, rfl⟩, rfl⟩
      unfold modRegion
      rw [List.map_map]
      congr 1
      funext q
      simp only [Function.comp]
      split <;> rfl
    · exact ⟨rfl, rfl, Says.KeptM.refl _ _ _, rfl⟩

theorem loadFold_bare (w g n : Nat) (areg : List Nat) (sh : Nat → Bool) (m0 : Mach) : ∀ (ls : List (Nat × Nat)) (st : List LaneAcc × Mach),
   st.2.regions.map bare = m0.regions.map bare → 
   let r := ls.foldl (fun (st : List LaneAcc × Mach) e => let f := regionLoadAt w g e.1 e.2 n areg st.2; (st.1 ++ [(⟨e.1, e.2, 0, 0, f.1, sh e.2⟩ : LaneAcc)], f.2)) st
   r.2.regions.map bare = m0.regions.map bare ∧ r.2.wgs = st.2.wgs ∧ Says.KeptM w g st.2 r.2 ∧ r.2.nextCmd = st.2.nextCmd ∧
   ∃ lanes, r.1 = st.1 ++ lanes ∧ lanes.map (fun e => (e.lane, e.addr)) = ls ∧
     ∀ e ∈ lanes, match regionOf m0 w g e.lane with
          | none => e.region = none
          | some q => ∃ form, e.region = some (form, (List.range n).filterMap fun k =>
              (q.stores.reverse.find? fun x => decide (x.addr ≤ e.addr + k) && decide (e.addr + k < x.addr + x.size)).map fun x =>
                (k, x.val.extractLsb' (8 * (e.addr + k - x.addr)) 8)) := by
  intro ls
  induction ls with
  | nil => intro st h; exact ⟨h, rfl, Says.KeptM.refl _ _ _, rfl, [], by simp, rfl, by simp⟩
  | cons e es ih =>
    intro st h
    have hb := loadAt_bare w g e.1 e.2 n areg st.2
    have := ih (st.1 ++ [(⟨e.1, e.2, 0, 0, (regionLoadAt w g e.1 e.2 n areg st.2).1, sh e.2⟩ : LaneAcc)], (regionLoadAt w g e.1 e.2 n areg st.2).2) (hb.1.trans h)
    obtain ⟨h1, h2, h3, h4, lanes, h5, h6, h7⟩ := this
    refine ⟨h1, h2.trans hb.2.1, hb.2.2.1.trans h3, h4.trans hb.2.2.2, ⟨e.1, e.2, 0, 0, (regionLoadAt w g e.1 e.2 n areg st.2).1, sh e.2⟩ :: lanes, ?_, ?_, ?_⟩
    · rw [List.foldl_cons]; rw [h5]; simp
    · rw [List.map_cons, h6]
    · intro x hx
      rcases List.mem_cons.1 hx with rfl | hx
      · have hr := regionOf_bare h w g e.1
        show match regionOf m0 w g e.1 with | none => _ | some q => _
        unfold regionLoadAt
        cases h0 : regionOf m0 w g e.1 with
        | none =>
          rw [h0] at hr
          cases h8 : regionOf st.2 w g e.1 with
          | none => rfl
          | some q => rw [h8] at hr; simp at hr
        | some q =>
          rw [h0] at hr
          cases h8 : regionOf st.2 w g e.1 with
          | none => rw [h8] at hr; simp at hr
          | some q' =>
            rw [h8] at hr
            have hq : bare q' = bare q := Option.some.inj hr
            have hs' : (bare q').stores = (bare q).stores := congrArg Region.stores hq
            have hs : q'.stores = q.stores := hs'
            refine ⟨if q'.tagged areg then .plain else regionForm q' e.2 n, ?_⟩
            show some (_, bufferedBytes q'.stores e.2 n) = some (_, bufferedBytes q.stores e.2 n)
            rw [hs]
      · exact h7 x hx

theorem storeIn {i : Instr} {n : Nat} {ea : Group → Nat → Nat} {mk kind dreg areg} (he : ∀ s, exec i s = execute i (guarded (accessOwn i ⟨.global, n, false, true, true⟩ ea mk kind dreg areg)) s)
   (w g : Nat) (s : State) (hr : Says.Ready i w g s) (hc : Says.Clear i ⟨.global, n, false, true, true⟩ ea w g s) (hn : ∀ l ∈ lanesOf (Says.eff i w g s), regionOf s.m w g l ≠ none) :
   exec i s = .next (Says.issued i w g (sectorCount ((Says.accesses i ea w g s).map (·.2)))
        ((Says.accesses i ea w g s).foldl (fun acc e => regionStoreAt w g e.1 e.2 n
          ((mk (Says.reads w g s) e.1 ⟨e.1, e.2, 0, 0, none, Says.shared i ⟨.global, n, false, true, true⟩ w g s e.2⟩).val.setWidth 64) dreg areg acc) (Says.begun i w g s)) s) := by
  obtain ⟨h1, h2, h3, h4⟩ := hc
  rw [he]
  refine execute_done hr ?_
  unfold guarded
  rw [if_neg (show ¬ (mkIss i w g (settle w g s.m)).eff = 0 from h1)]
  have hb := begun_reads i w g s
  unfold accessOwn
  have e0 : (lanesOf (mkIss i w g (settle w g s.m)).eff).map (fun l => (l, ea (Says.reads w g s) l)) = Says.accesses i ea w g s := rfl
  simp only [mkIss_w, mkIss_g, hb, e0, h2, accessHold_none h3 h4]
  have hr : ∀ e ∈ Says.accesses i ea w g s, regionOf (Says.begun i w g s) w g e.1 ≠ none := by
    intro e he
    simp only [Says.accesses, List.mem_map] at he
    obtain ⟨l, hl, rfl⟩ := he
    rw [regionOf_begun]; exact hn l hl
  have hz : (Says.accesses i ea w g s).filter (fun e => (regionOf (Says.begun i w g s) w g e.1).isSome) = Says.accesses i ea w g s :=
    List.filter_eq_self.2 (fun e he => by rw [Option.isSome_iff_ne_none]; exact hr e he)
  have ha : (Says.accesses i ea w g s).filter (fun e => (regionOf (Says.begun i w g s) w g e.1).isNone) = [] := by
    rw [List.filter_eq_nil_iff]; intro e he; have := hr e he; simpa using this
  simp only [ha, hz, Bool.and_self, if_true, Says.shared]

theorem loadIn {i : Instr} {n : Nat} {ea : Group → Nat → Nat} {kind : List LaneAcc → OutKind} {dreg areg} (hcls : waitClass i = 0) (he : ∀ s, exec i s = execute i (guarded (accessOwn i ⟨.global, n, true, false, true⟩ ea (fun _ _ e => e) kind dreg areg)) s)
   (w g : Nat) (s : State) (hr : Says.Ready i w g s) (hc : Says.Clear i ⟨.global, n, true, false, true⟩ ea w g s) :
      ∃ t, exec i s = .next t ∧ t.m.hbm = s.m.hbm ∧ Says.SameRegs w g s t ∧ t.m.nextCmd = s.m.nextCmd + 1 ∧ ∃ lanes,
        (t.m.grp w g).outs = (s.m.grp w g).outs ++ [Says.command i w g 0 (kind lanes) false s] ∧
        lanes.map (fun e => (e.lane, e.addr)) = Says.accesses i ea w g s ∧
        ∀ e ∈ lanes, match regionOf s.m w g e.lane with
          | none => e.region = none
          | some q => ∃ form, e.region = some (form, (List.range n).filterMap fun k =>
              (q.stores.reverse.find? fun x => decide (x.addr ≤ e.addr + k) && decide (e.addr + k < x.addr + x.size)).map fun x =>
                (k, x.val.extractLsb' (8 * (e.addr + k - x.addr)) 8)) := by
  obtain ⟨h1, h2, h3, h4⟩ := hc
  have hb := begun_reads i w g s
  have hs : sharedAccess (Says.begun i w g s) w ⟨.global, n, true, false, true⟩ (Says.accesses i ea w g s) = false := by simp [sharedAccess, sharedLane]
  obtain ⟨b1, b2, b3, b4, lanes, b5, b6, b7⟩ := loadFold_bare w g n areg (fun a => sharedLane (Says.begun i w g s) w ⟨.global, n, true, false, true⟩ a) (Says.begun i w g s) (Says.accesses i ea w g s) ([], Says.begun i w g s) rfl
  generalize hR : (Says.accesses i ea w g s).foldl (fun (st : List LaneAcc × Mach) e => let f := regionLoadAt w g e.1 e.2 n areg st.2; (st.1 ++ [(⟨e.1, e.2, 0, 0, f.1, sharedLane (Says.begun i w g s) w ⟨.global, n, true, false, true⟩ e.2⟩ : LaneAcc)], f.2)) ([], Says.begun i w g s) = R at *
  have hown : guarded (accessOwn i ⟨.global, n, true, false, true⟩ ea (fun _ _ e => e) kind dreg areg) (mkIss i w g (settle w g s.m)) (Says.begun i w g s) =
     .done (sectorCount ((Says.accesses i ea w g s).map (·.2))) (handOn i (mkIss i w g (settle w g s.m)) 0 (kind lanes) false R.2) := by
    unfold guarded
    rw [if_neg (show ¬ (mkIss i w g (settle w g s.m)).eff = 0 from h1)]
    unfold accessOwn
    have e0 : (lanesOf (mkIss i w g (settle w g s.m)).eff).map (fun l => (l, ea (Says.reads w g s) l)) = Says.accesses i ea w g s := rfl
    have hh := accessHold_none h3 h4
    rw [hs] at hh
    simp only [mkIss_w, mkIss_g, hb, e0, h2, hs, hh, Bool.false_eq_true, if_false, Bool.false_and]
    dsimp only at hR
    rw [hR, hcls, b5]
    rfl
  have hg : R.2.grp w g = Says.reads w g s := by
    have : R.2.grp w g = (Says.begun i w g s).grp w g := by simp only [Mach.grp, Mach.wg, b2]
    rw [this, hb]
  have hgo := handOn_grp i (mkIss i w g (settle w g s.m)) 0 (kind lanes) false R.2
  simp only [mkIss_w, mkIss_g, hg] at hgo
  have kc := handOn_kept i (mkIss i w g (settle w g s.m)) 0 (kind lanes) false R.2
  simp only [mkIss_w, mkIss_g] at kc
  have ki := issued_kept (i := i) (k := sectorCount ((Says.accesses i ea w g s).map (·.2))) (b3.trans kc)
  refine ⟨_, (he s).trans (execute_done hr hown), (KeptM_data ki).1, issued_same (by rw [hgo]) (by rw [hgo]) (by rw [hgo]) (by rw [hgo]), ?_, lanes, ?_, b6, ?_⟩
  · rw [issued_nextCmd]
    show R.2.nextCmd + 1 = _
    rw [b4, begun_nextCmd]
  · rw [vals_outs (issued_vals i w g _ _ s), hgo]
    simp only [Says.command, b4, begun_nextCmd]
    congr 1
    exact settle_outs w g s.m
  · intro e hm
    have := b7 e hm
    rwa [regionOf_begun] at this

end Sys2Proof.Laws
end

