-- ==== Sys2Proof/Laws/Control.lean ====
section
/-! SUPPORT. Laws of control transfers, EXIT and REORDER: targets, the frontier at the end of a run, what stands where. -/

namespace Sys2Proof.Laws

open Sys2Proof Sys2Proof.Machine

theorem badTarget_none (m : Mach) (w : Nat) (ret : Bool) (ts : List (Nat × DWord)) (h : ∀ e ∈ ts, (targetAt m w ret e.2).isOk = true) :
    badTarget m w ret ts = none := by
  induction ts with
  | nil => rfl
  | cons e es ih =>
    obtain ⟨l, t⟩ := e
    unfold badTarget
    have h1 := h (l, t) List.mem_cons_self
    cases hh : targetAt m w ret t with
    | error x => rw [hh] at h1; cases h1
    | ok v => exact ih fun e he => h e (List.mem_cons_of_mem _ he)

theorem badTarget_some (m : Mach) (w : Nat) (ret : Bool) (xs : List (Nat × DWord)) (l : Nat) (t : DWord) (ys : List (Nat × DWord)) (e : Cause)
    (h : ∀ e ∈ xs, (targetAt m w ret e.2).isOk = true) (he : targetAt m w ret t = .error e) : badTarget m w ret (xs ++ (l, t) :: ys) = some (e, t) := by
  induction xs with
  | nil => simp [badTarget, he]
  | cons x xs ih =>
    obtain ⟨l', t'⟩ := x
    rw [List.cons_append]
    unfold badTarget
    have h1 := h (l', t') List.mem_cons_self
    cases hh : targetAt m w ret t' with
    | error x => rw [hh] at h1; cases h1
    | ok v => exact ih fun e he => h e (List.mem_cons_of_mem _ he)

theorem noWait {m : Mach} {w : Nat} {dest : Nat → DWord} {ls : List Nat} (h : ∀ l ∈ ls, targetWaits m w (dest l) = false) :
    (ls.map fun l => (l, dest l)).find? (fun e => targetWaits m w e.2) = none := by
  rw [List.find?_eq_none]
  intro e he
  rw [List.mem_map] at he
  obtain ⟨l, hl, rfl⟩ := he
  simp [h l hl]

theorem transfer_done {i : Instr} {ret : Bool} {tgt : Group → Nat → DWord} {also : Mach → Mach} {w g : Nat} {s : State}
   (h : ∀ l ∈ lanesOf (Says.eff i w g s), targetWaits (Says.begun i w g s) w (tgt (Says.reads w g s) l) = false ∧
          (targetAt (Says.begun i w g s) w ret (tgt (Says.reads w g s) l)).isOk = true) :
   transfer ret tgt also (mkIss i w g (settle w g s.m)) (Says.begun i w g s) = .done 0 ((also (Says.begun i w g s)).modG w g fun y => { y with run := y.run.map fun r =>
            { r with moves := (lanesOf (Says.eff i w g s)).foldl (fun ms l => addMove ms (tgt (Says.reads w g s) l) (maskOf [l])) r.moves } }) := by
  unfold transfer
  simp only [mkIss_w, mkIss_g, begun_reads]
  have he : (mkIss i w g (settle w g s.m)).eff = Says.eff i w g s := rfl
  rw [he, noWait (fun l hl => (h l hl).1)]
  dsimp only
  rw [badTarget_none]
  · dsimp only [modRun, mkIss_w, mkIss_g]
    simp only [List.foldl_map]
  · intro e he
    rw [List.mem_map] at he
    obtain ⟨l, hl, rfl⟩ := he
    exact (h l hl).2

theorem transfer_trap {i : Instr} {ret : Bool} {tgt : DWord → Group → Nat → DWord} {also : Iss → Mach → Mach} (he : ∀ s, exec i s = execute i (fun x m => transfer ret (tgt x.pc) (also x) x m) s) :
   ∀ w g s, Says.Ready i w g s →
      let m := Says.begun i w g s
      let dest := fun (l : Nat) => tgt (Says.pc i w g s) (Says.reads w g s) l
      let head := fun (l : Nat) => targetAt m w ret (dest l)
      (∀ l ∈ lanesOf (Says.eff i w g s), targetWaits m w (dest l) = false) →
      ∀ ls l rest c, lanesOf (Says.eff i w g s) = ls ++ l :: rest → (∀ j ∈ ls, (head j).isOk = true) → head l = .error c →
        let k := maskOf ((lanesOf (Says.eff i w g s)).filter fun j => decide (dest j = dest l))
        let low := (dest l).toNat % 2 ^ 32
        if c = .branchTarget then Says.Traps i w g s c (BitVec.ofNat 64 low) k (dest l)
        else Says.Traps i w g s c (BitVec.ofNat 64 (k.toNat + 2 ^ 32 * low)) k (dest l) := by
  intro w g s hr m dest head hw ls l rest c hl ho hc k low
  have hk : maskOf ((((lanesOf (Says.eff i w g s)).map fun l => (l, dest l)).filter fun e => decide (e.2 = dest l)).map (·.1)) = k := by
    rw [List.filter_map, List.map_map]
    simp only [Function.comp_def, List.map_id']
    rfl
  have hown : transfer ret (tgt (Says.pc i w g s)) (also (mkIss i w g (settle w g s.m))) (mkIss i w g (settle w g s.m)) (Says.begun i w g s) = targetTrap c (dest l) k := by
    unfold transfer
    simp only [mkIss_w, mkIss_g, begun_reads]
    have hn := noWait hw
    have := badTarget_some m w ret (ls.map fun l => (l, dest l)) l (dest l) (rest.map fun l => (l, dest l)) c (by
      intro e he
      rw [List.mem_map] at he
      obtain ⟨j, hj, rfl⟩ := he
      exact ho j hj) hc
    rw [show (ls.map fun l => (l, dest l)) ++ (l, dest l) :: (rest.map fun l => (l, dest l)) = (lanesOf (Says.eff i w g s)).map fun l => (l, dest l) by rw [hl]; simp] at this
    change (match ((lanesOf (Says.eff i w g s)).map fun l => (l, dest l)).find? (fun e => targetWaits m w e.2) with
      | some e => Own.hold (.code e.2)
      | none => match badTarget m w ret ((lanesOf (Says.eff i w g s)).map fun l => (l, dest l)) with
      | some (c, t) => targetTrap c t (maskOf ((((lanesOf (Says.eff i w g s)).map fun l => (l, dest l)).filter fun (e : Nat × DWord) => decide (e.2 = t)).map fun (e : Nat × DWord) => e.1))
      | none => _) = _
    rw [hn, this]
    dsimp only
    rw [hk]
  have : ∀ info, targetTrap c (dest l) k = .trap c info k (dest l) → Says.Traps i w g s c info k (dest l) := by
    intro info hi
    exact (he s).trans (execute_trap (own := fun x m => transfer ret (tgt x.pc) (also x) x m) hr (hown.trans hi))
  split
  · rename_i hb
    refine this _ ?_
    unfold targetTrap
    rw [if_pos hb]
  · rename_i hb
    refine this _ ?_
    unfold targetTrap
    rw [if_neg hb]

theorem joinEntry_has (fr : List Entry) (a : DWord) (p : Nat) (k : Mask) (l : Nat) (hl : k.getLsbD l = true) :
    ∃ e ∈ joinEntry fr a p k, e.addr = a ∧ e.lanes.getLsbD l = true := by
  have hk : k ≠ 0 := by rintro rfl; simp at hl
  unfold joinEntry
  rw [if_neg hk]
  split
  · rename_i h
    rw [List.any_eq_true] at h
    obtain ⟨e, he, hd⟩ := h
    have hd := of_decide_eq_true hd
    refine ⟨{ e with lanes := e.lanes ||| k }, ?_, hd, by simp [hl]⟩
    rw [List.mem_map]
    exact ⟨e, he, if_pos hd⟩
  · exact ⟨⟨a, p, k⟩, by simp, rfl, hl⟩

theorem joinEntry_keeps (fr : List Entry) (a : DWord) (p : Nat) (k : Mask) (e : Entry) (he : e ∈ fr) :
    ∃ f ∈ joinEntry fr a p k, f.addr = e.addr ∧ ∀ l, e.lanes.getLsbD l = true → f.lanes.getLsbD l = true := by
  unfold joinEntry
  split
  · exact ⟨e, he, rfl, fun _ h => h⟩
  · split
    · by_cases h : e.addr = a
      · refine ⟨{ e with lanes := e.lanes ||| k }, ?_, rfl, fun l hl => by simp [hl]⟩
        rw [List.mem_map]
        exact ⟨e, he, if_pos h⟩
      · refine ⟨e, ?_, rfl, fun _ h => h⟩
        rw [List.mem_map]
        exact ⟨e, he, if_neg h⟩
    · exact ⟨e, by simp [he], rfl, fun _ h => h⟩

theorem standAt_frontier (w g : Nat) (a : DWord) (k : Mask) (m : Mach) :
    ∃ p, ((standAt w g a k m).grp w g).frontier = joinEntry (m.grp w g).frontier a p k := by
  refine ⟨prioAt m (wgSite m w) (m.wg w).part (m.wg w).ctx a, ?_⟩
  simp [standAt]

/-- The frontier has lane `l` at address `a`. -/
def hasAt (m : Mach) (w g : Nat) (a : DWord) (l : Nat) : Prop := ∃ e ∈ (m.grp w g).frontier, e.addr = a ∧ e.lanes.getLsbD l = true

theorem stand_has (w g : Nat) (a : DWord) (k : Mask) (m : Mach) (l : Nat) (h : k.getLsbD l = true) : hasAt (standAt w g a k m) w g a l := by
  obtain ⟨p, hp⟩ := standAt_frontier w g a k m
  unfold hasAt
  rw [hp]
  exact joinEntry_has _ _ _ _ _ h

theorem stand_keeps (w g : Nat) (a b : DWord) (k : Mask) (m : Mach) (l : Nat) (h : hasAt m w g b l) : hasAt (standAt w g a k m) w g b l := by
  obtain ⟨p, hp⟩ := standAt_frontier w g a k m
  obtain ⟨e, he, ha, hl⟩ := h
  obtain ⟨f, hf, h1, h2⟩ := joinEntry_keeps (m.grp w g).frontier a p k e he
  unfold hasAt
  rw [hp]
  exact ⟨f, hf, h1.trans ha, h2 l hl⟩

theorem standFold_keeps (w g : Nat) (live : Mask) (ms : List (DWord × Mask)) (m : Mach) (b : DWord) (l : Nat) (h : hasAt m w g b l) :
    hasAt (ms.foldl (fun acc x => standAt w g x.1 (x.2 &&& live) acc) m) w g b l := by
  induction ms generalizing m with
  | nil => exact h
  | cons x xs ih => exact ih _ (stand_keeps _ _ _ _ _ _ _ h)

theorem standFold_has (w g : Nat) (live : Mask) (ms : List (DWord × Mask)) (m : Mach) (t : DWord) (k : Mask) (l : Nat) (hm : (t, k) ∈ ms)
    (hk : k.getLsbD l = true) (hl : live.getLsbD l = true) : hasAt (ms.foldl (fun acc x => standAt w g x.1 (x.2 &&& live) acc) m) w g t l := by
  induction ms generalizing m with
  | nil => cases hm
  | cons x xs ih =>
    rcases List.mem_cons.1 hm with rfl | hm
    · rw [List.foldl_cons]
      exact standFold_keeps _ _ _ _ _ _ _ (stand_has _ _ _ _ _ _ (by rw [BitVec.getLsbD_and, hk, hl]; rfl))
    · exact ih _ hm

theorem moved_false (ms : List (DWord × Mask)) (l : Nat) (h : ∀ x ∈ ms, x.2.getLsbD l = false) : ∀ acc : Mask, acc.getLsbD l = false →
    (ms.foldl (fun acc x => acc ||| x.2) acc).getLsbD l = false := by
  induction ms with
  | nil => intro acc h; exact h
  | cons x xs ih =>
    intro acc ha
    exact ih (fun y hy => h y (List.mem_cons_of_mem _ hy)) _ (by rw [BitVec.getLsbD_or, ha, h x List.mem_cons_self]; rfl)

theorem endRun_hasAt (w g : Nat) (m : Mach) (r : Run) (hr : (m.grp w g).run = some r) (a : DWord) (l : Nat)
    (h : hasAt (r.moves.foldl (fun acc x => standAt w g x.1 (x.2 &&& (m.grp w g).live) acc) (standAt w g r.pc (r.lanes &&& (m.grp w g).live &&& ~~~r.moved) m)) w g a l) :
    hasAt (endRun w g m) w g a l := by
  unfold endRun
  rw [hr]
  dsimp only
  unfold hasAt at h ⊢
  simp only [grp_dropSlot, grp_modG_same]
  exact h

theorem inRegion_act {i : Instr} {w g : Nat} {s : State} (hn : ∀ l ∈ lanesOf (Says.act i w g s), regionOf s.m w g l = none) :
    inRegion (mkIss i w g (settle w g s.m)) (mkIss i w g (settle w g s.m)).act (Says.begun i w g s) = false := by
  unfold inRegion regionsOf
  rw [List.any_eq_false]
  intro r hr
  rw [List.mem_filter, begun_regions] at hr
  obtain ⟨hm, hc⟩ := hr
  simp only [mkIss_w, mkIss_g, Bool.and_eq_true] at hc
  obtain ⟨⟨h1, h2⟩, h3⟩ := hc
  have h32 : r.lane < 32 := by
    rcases Nat.lt_or_ge r.lane 32 with h | h
    · exact h
    · have := BitVec.getLsbD_of_ge (mkIss i w g (settle w g s.m)).act r.lane h
      rw [this] at h3; cases h3
  have := hn r.lane ((mem_lanesOf h32).2 h3)
  unfold regionOf at this
  rw [List.find?_eq_none] at this
  have h4 : r.wg = w := of_decide_eq_true h1
  have h5 : r.grp = g := of_decide_eq_true h2
  have := this r hm
  simpa [Region.isOf, h4, h5] using this

theorem inSerial_none {i : Instr} {w g : Nat} {s : State} (h : (Says.reads w g s).lser = none) :
    inSerial (mkIss i w g (settle w g s.m)) (Says.begun i w g s) = false := by
  unfold inSerial; simp only [mkIss_w, mkIss_g, begun_reads, h]; rfl

theorem lanesOf_ne {k : Mask} (h : k ≠ 0) : lanesOf k ≠ [] := by
  intro hh
  apply h
  have : ∀ l, l < 32 → k.getLsbD l = false := by
    intro l hl
    have := mem_lanesOf (k := k) hl
    rw [hh] at this
    simpa using this
  apply BitVec.eq_of_getLsbD_eq
  intro l hl
  simpa using this l hl

theorem reorder_own {wide : Bool} {a b : Reg} {x : Iss} {m : Mach} (hq : inRegion x x.act m = false) (h1 : inSerial x m = false)
    (h2 : (m.grp x.w x.g).trapMode = none) (h3 : (m.grp x.w x.g).live &&& ~~~x.act = 0) :
    reorderOwn wide a b x m = .placed (dropSlot x.w x.g (m.modG x.w x.g fun y =>
      { y with held := some .reorder, gaveUp := m.cycle, reorder := some ⟨wide, y.pair b.toNat (lowLaneD x.act), x.pc, reorderKeys wide a x.act y⟩ })) := by
  unfold reorderOwn
  simp only [h3, hq, h1, h2, ne_eq, not_true_eq_false, if_false, Bool.false_eq_true, Option.isSome_none]

end Sys2Proof.Laws
end

