-- ==== Sys2Proof/Laws/System.lean ====
section
/-! SUPPORT. Laws of system instructions: outside regions an own part runs, and what BTOPUP moves. -/

namespace Sys2Proof.Laws

open Sys2Proof Sys2Proof.Machine

theorem guarded_noRegion {i : Instr} {w g : Nat} {s : State} (own : Iss → Mach → Own) (h0 : Says.eff i w g s ≠ 0) (hn : Says.NoRegion i w g s) :
    guarded (noRegion own) (mkIss i w g (settle w g s.m)) (Says.begun i w g s) = own (mkIss i w g (settle w g s.m)) (Says.begun i w g s) := by
  unfold guarded noRegion
  rw [if_neg (show ¬ (mkIss i w g (settle w g s.m)).eff = 0 from h0), inRegion_none hn, if_neg (by decide)]

theorem topUp_eq (v : Word) (res : DWord) (ask : Word) :
    let k := if v = 0x7FFFFFFF then 0 else min (min ask.toNat res.toNat) (0x7FFFFFFE - v.toInt).toNat
    topUp v res ask.toNat = (v + BitVec.ofNat 32 k, res - BitVec.ofNat 64 k) := by
  intro k
  show (if v = 0x7FFFFFFF then (v, res) else _) = (v + BitVec.ofNat 32 (if v = 0x7FFFFFFF then 0 else _), res - BitVec.ofNat 64 (if v = 0x7FFFFFFF then 0 else _))
  split
  · simp
  · rfl

end Sys2Proof.Laws
end

