-- ==== Sys2Proof/Laws/Engines.lean ====
section
/-! SUPPORT. Laws of the engines' instructions: barriers, tried commands, copies, slots, tiles, signatures, collection commands. -/

namespace Sys2Proof.Laws

open Sys2Proof Sys2Proof.Machine

theorem places {i : Instr} {ok f} (own : Iss → Mach → Own) (he : ∀ s, exec i s = execute i own s)
    (ho : ∀ w g s, ok w g s → own (mkIss i w g (settle w g s.m)) (Says.begun i w g s) = .placed (f w g s (Says.begun i w g s))) : Says.Places i ok f :=
  fun w g s hr hok => (he s).trans (execute_placed hr (ho w g s hok))

theorem traps {i : Instr} {w g : Nat} {s : State} {c info ls a} (own : Iss → Mach → Own) (he : ∀ s, exec i s = execute i own s) (hr : Says.Ready i w g s)
    (ho : own (mkIss i w g (settle w g s.m)) (Says.begun i w g s) = .trap c info ls a) : Says.Traps i w g s c info ls a :=
  (he s).trans (execute_trap hr ho)

theorem guarded_eff {i : Instr} {w g : Nat} {s : State} (own : Iss → Mach → Own) (h0 : Says.eff i w g s ≠ 0) :
    guarded own (mkIss i w g (settle w g s.m)) (Says.begun i w g s) = own (mkIss i w g (settle w g s.m)) (Says.begun i w g s) := by
  unfold guarded
  rw [if_neg (show ¬ (mkIss i w g (settle w g s.m)).eff = 0 from h0)]

theorem barTrap_none {i : Instr} {w g : Nat} {s : State} {n : Nat} {arr wt : Bool} (hn : Says.NoRegion i w g s)
    (ha : ((Says.begun i w g s).bar w n).armed = true) (ho : arr = true → Store.get 0 (Says.reads w g s).arrived n ≠ ((Says.begun i w g s).bar w n).phase + 1 ∧ arrivePending (Says.reads w g s) n = false)
    (hc : wt = true → (Says.reads w g s).lser = none ∧ (Says.reads w g s).trapMode = none) :
    barTrap n arr wt (mkIss i w g (settle w g s.m)) (Says.begun i w g s) = none := by
  unfold barTrap
  simp only [mkIss_w, mkIss_g, begun_reads, ha, Bool.not_true, Bool.false_or]
  rw [if_neg (by cases arr; · simp
                 · simpa using ho rfl), inRegion_none hn, if_neg (by simp)]
  cases wt
  · simp
  · rw [inSerial_none (hc rfl).1, (hc rfl).2]; simp

theorem barTrap_some {i : Instr} {w g : Nat} {s : State} {n : Nat} {arr wt : Bool}
    (h : ((Says.begun i w g s).bar w n).armed = false ∨ (arr = true ∧ (Store.get 0 (Says.reads w g s).arrived n = ((Says.begun i w g s).bar w n).phase + 1 ∨ arrivePending (Says.reads w g s) n = true))) :
    barTrap n arr wt (mkIss i w g (settle w g s.m)) (Says.begun i w g s) = some (trapEff (mkIss i w g (settle w g s.m)) .barrierCount (Says.begun i w g s)) := by
  unfold barTrap
  refine if_pos ?_
  simp only [mkIss_w, mkIss_g, begun_reads]
  rcases h with h | ⟨h1, h2 | h2⟩
  · simp [h]
  · simp [h1, h2]
  · simp [h1, h2]

theorem tries {i : Instr} {ok : Nat → Nat → State → Prop} {c : Nat → Nat → State → Cmd} {dst : Option Reg} (own : Iss → Mach → Own)
    (he : ∀ s, exec i s = execute i (guarded (noRegion own)) s) (hc : waitClass i = 7)
    (ho : ∀ w g s, ok w g s → own (mkIss i w g (settle w g s.m)) (Says.begun i w g s) = handCmd i (mkIss i w g (settle w g s.m)) (c w g s) dst (Says.begun i w g s)) :
    Says.Ends i (fun w g s => Says.Free i w g s ∧ ok w g s) (fun _ _ _ => 0)
        (fun w g s m => settleCmds (Says.handed i w g 7 (.cmd (c w g s) dst (Says.eff i w g s)) false s m)) := by
  refine ends _ he fun w g s ⟨⟨h0, hn⟩, h⟩ => ?_
  rw [guarded_noRegion _ h0 hn, ho w g s h]
  unfold handCmd Says.handed Says.iss
  rw [hc]
  rfl

theorem bar_congr {m n : Mach} {w k : Nat} (h : (n.wg w).bars = (m.wg w).bars) : n.bar w k = m.bar w k := by unfold Mach.bar; rw [h]

theorem kept_bars {w g : Nat} {m n : Mach} (h : Says.KeptM w g m n) : (n.wg w).bars = (m.wg w).bars := (by
  have := congrArg Wg.bars h.wg
  exact this)

theorem finishHeld_bars (w g : Nat) (m : Mach) : ((finishHeld w g m).wg w).bars = (m.wg w).bars := by
  unfold finishHeld
  rw [kept_bars (finishWord_kept w g _ _ _)]
  simp [Mach.modG]

theorem runGoes_bars (w g : Nat) (m : Mach) : ((runGoes w g m).wg w).bars = (m.wg w).bars := by simp [runGoes, Mach.modG]

theorem tryBarrier_bars (w g : Nat) (m : Mach) : ((tryBarrier w g m).wg w).bars = (m.wg w).bars := by
  unfold tryBarrier
  split
  · split
    · rw [runGoes_bars, finishHeld_bars]
      unfold passAcquire
      split
      · simp [dropCache]
      · rfl
    · rfl
  · rfl

theorem passWaiters_bars (w : Nat) (m : Mach) : ((passWaiters w m).wg w).bars = (m.wg w).bars := by
  unfold passWaiters
  have : ∀ (gs : List Nat) (m : Mach), ((gs.foldl (fun acc g => tryBarrier w g acc) m).wg w).bars = (m.wg w).bars := by
    intro gs
    induction gs with
    | nil => intro _; rfl
    | cons g gs ih => intro m; exact (ih _).trans (tryBarrier_bars _ _ _)
  exact this _ _

theorem modBar_bar (m : Mach) (w n : Nat) (f : Bar → Bar) : (m.modBar w n f).bar w n = f (m.bar w n) := by
  simp [Mach.modBar, Mach.bar]

theorem barArrive_bar (w n : Nat) (m : Mach) : (barArrive w n false m).bar w n = if (m.bar w n).armed then (m.bar w n).arrive false else m.bar w n := by
  unfold barArrive
  split
  · have h := (bar_congr (k := n) (passWaiters_bars w (m.modBar w n fun b => b.arrive false))).trans (modBar_bar _ _ _ _)
    dsimp only
    split
    · have : ∀ k : Mach, (phaseStep w k).bar w n = k.bar w n := fun k => bar_congr (by simp [phaseStep])
      rw [this, h]
    · exact h
  · rfl

theorem writePa_wgs (m : Mach) (core : Option Nat) (who : Agent) (pa : Nat) (bs : List Byte) : (writePa m core who pa bs).wgs = m.wgs := by
  unfold writePa
  split
  · rfl
  · cases core <;> rfl

@[simp] theorem flushLine_wgs (c l : Nat) (m : Mach) : (flushLine c l m).wgs = m.wgs := by
  unfold flushLine
  generalize Store.get [] (m.core c).combine l = es
  have : ∀ n : Mach, (es.foldl (fun acc e => writePa acc (some c) none (l * 128 + e.1) [e.2]) n).wgs = n.wgs := by
    induction es with
    | nil => intro _; rfl
    | cons e es ih => intro n; exact (ih _).trans (writePa_wgs _ _ _ _ _)
  exact this _

@[simp] theorem flushAll_wgs (c : Nat) (m : Mach) : (flushAll c m).wgs = m.wgs := by
  unfold flushAll
  generalize Store.keys (m.core c).combine = ls
  induction ls generalizing m with
  | nil => rfl
  | cons l ls ih => exact (ih _).trans (flushLine_wgs c l m)

theorem flushAll_wg (c w : Nat) (m : Mach) : (flushAll c m).wg w = m.wg w := by unfold Mach.wg; rw [flushAll_wgs]

/-- What an arrival comes to: it counts, and the one that completes the count ends the phase and clears the arrivals. -/
theorem groupArrive_bar (w g n : Nat) (m : Mach) : let b := m.bar w n
      let c := (groupArrive w g n m).bar w n
      (b.armed = false → c = b) ∧
      (b.armed = true → b.arrivals + 1 < b.count → c.armed = true ∧ c.count = b.count ∧ c.arrivals = b.arrivals + 1 ∧ c.phase = b.phase) ∧
      (b.armed = true → b.count ≤ b.arrivals + 1 → c.armed = true ∧ c.count = b.count ∧ c.arrivals = 0 ∧ c.phase = b.phase + 1) := by
  intro b c
  have hb : (m.modG w g fun y => { y with arrived := Store.put y.arrived n ((m.bar w n).phase + 1) }).bar w n = b := bar_congr (by simp [Mach.modG])
  have hf : (flushAll (m.wg w).core (m.modG w g fun y => { y with arrived := Store.put y.arrived n ((m.bar w n).phase + 1) })).bar w n = b :=
    (bar_congr (congrArg Wg.bars (flushAll_wg _ _ _))).trans hb
  have hc : c = if b.armed then b.arrive false else b := by
    have := barArrive_bar w n (flushAll (m.wg w).core (m.modG w g fun y => { y with arrived := Store.put y.arrived n ((m.bar w n).phase + 1) }))
    rw [hf] at this
    exact this
  refine ⟨fun h => by rw [hc, h]; rfl, fun h h2 => ?_, fun h h2 => ?_⟩
  · rw [hc, h, if_pos rfl]; unfold Bar.arrive
    simp only [Bool.false_eq_true, if_false]
    rw [if_neg (by omega)]
    exact ⟨h, rfl, rfl, rfl⟩
  · rw [hc, h, if_pos rfl]; unfold Bar.arrive
    simp only [Bool.false_eq_true, if_false]
    rw [if_pos (by omega)]
    exact ⟨h, rfl, rfl, rfl⟩

theorem guarded_noRegion' {i : Instr} {w g : Nat} {s : State} (own : Iss → Mach → Own) (h : Says.Free i w g s) :
    guarded (noRegion own) (mkIss i w g (settle w g s.m)) (Says.begun i w g s) = own (mkIss i w g (settle w g s.m)) (Says.begun i w g s) :=
  guarded_noRegion own h.1 h.2

theorem copyAddr_eq (y : Group) (r : Reg) (sp : Space) (l : Nat) : copyAddr y r sp l = if sp = .glob then (y.pair r.toNat l).toNat else (y.reg r.toNat l).toNat := by
  cases sp <;> rfl

theorem copy_cost (sect : Nat) : 32 * (sect + 1) / 32 = sect + 1 := by omega

/-- What QSEND comes to without a trap: a message read now, or one that the scratchpad pass reads later. -/
theorem send_own (i : Instr) (a : Reg) (len : BitVec 8) (pd : BitVec 3) (nb : Bool) (k : BitVec 6) (x : Iss) (m : Mach) (off : Nat) (h0 : x.eff ≠ 0)
    (ho : off = ((m.grp x.w x.g).reg a.toNat (lowLaneD x.eff)).toNat) (ht : msgTrap off (msgBytes len) x m = none) :
    let n := msgBytes len
    let cmd := fun bs => OutKind.qsend k.toNat off n bs nb pd.toNat x.eff false
    qsendOwn i a len pd nb k x m = if scratchNow x (cmd none) m
      then .done (n / 32 + n % 32 / 16) (handOn i x (waitClass i) (cmd (some ((scratchAt m x.w off n).map (Memory.read m.scratch)))) false m)
      else .done (n / 32 + n % 32 / 16) (scratchPass x.w x.g m.nextCmd (handOn i x (waitClass i) (cmd none) false m)) := by
  subst ho
  unfold qsendOwn
  simp only
  rw [if_neg h0, ht]

theorem tile_own {i : Instr} {w g : Nat} {s : State} {t : Nat} {token : Bool} (own : Iss → Mach → Own) (h : Says.Free i w g s)
    (h1 : t < ((Says.begun i w g s).block w).tiles) (h2 : token = true → ((Says.begun i w g s).tile w t).atEngine = false) :
    tileOwn t token own (mkIss i w g (settle w g s.m)) (Says.begun i w g s) = own (mkIss i w g (settle w g s.m)) (Says.begun i w g s) := by
  unfold tileOwn
  rw [guarded_eff _ h.1]
  refine (if_neg (Nat.not_le.2 h1)).trans ((if_neg ?_).trans ?_)
  · cases token
    · simp
    · simpa using h2 rfl
  · unfold noRegion
    rw [inRegion_none h.2, if_neg (by decide)]

theorem fill_own {i : Instr} {w g : Nat} {s : State} {slot align len : Nat} {bad : Bool} {sp : Space} {a b : Reg} {kind : Nat → Nat → Nat → OutKind} (hc : waitClass i = 4) (hf : Says.Free i w g s) (h1 : bad = false)
    (h2 : slot < ((Says.begun i w g s).block w).slots) (h3 : ((Says.begun i w g s).oslot w slot).claimed = true)
    (h4 : copyAddr (Says.reads w g s) a sp (lowLaneD (Says.eff i w g s)) % align = 0) (h5 : ((Says.reads w g s).reg b.toNat (lowLaneD (Says.eff i w g s))).toNat % align = 0)
    (h6 : rowsTrap (Says.begun i w g s) w sp (copyAddr (Says.reads w g s) a sp (lowLaneD (Says.eff i w g s))) (((Says.reads w g s).reg b.toNat (lowLaneD (Says.eff i w g s))).toNat) len = none) :
    ∃ k, fillOwn i slot bad sp a b align len kind (mkIss i w g (settle w g s.m)) (Says.begun i w g s) =
      .done k (handOn i (mkIss i w g (settle w g s.m)) 4 (kind (copyAddr (Says.reads w g s) a sp (lowLaneD (Says.eff i w g s))) (((Says.reads w g s).reg b.toNat (lowLaneD (Says.eff i w g s))).toNat) ((Says.begun i w g s).oslot w slot).claimId) false (Says.begun i w g s)) := by
  refine ⟨if sp = .scr then 0 else 256, ?_⟩
  unfold fillOwn
  refine (if_neg (show ¬ (mkIss i w g (settle w g s.m)).eff = 0 from hf.1)).trans ?_
  have ht : fillTrap (Says.begun i w g s) (mkIss i w g (settle w g s.m)) slot bad sp (copyAddr (Says.reads w g s) a sp (lowLaneD (Says.eff i w g s))) (((Says.reads w g s).reg b.toNat (lowLaneD (Says.eff i w g s))).toNat) align len = none := by
    unfold fillTrap
    refine (if_neg (by simp [h1])).trans ((if_neg (Nat.not_le.2 h2)).trans ((if_neg ?_).trans ((if_neg ?_).trans h6)))
    · rw [mkIss_w, h3]; simp
    · simp [h4, h5]
  simp only [mkIss_w, mkIss_g, begun_reads, hc]
  rw [show fillTrap (Says.begun i w g s) (mkIss i w g (settle w g s.m)) slot bad sp (copyAddr (Says.reads w g s) a sp (lowLaneD (mkIss i w g (settle w g s.m)).eff)) (((Says.reads w g s).reg b.toNat (lowLaneD (mkIss i w g (settle w g s.m)).eff)).toNat) align len = none from ht, inRegion_none hf.2]
  rfl

theorem coll_own (i : Instr) (op : CollOp) (d a : Reg) (arg : Group → Nat → DWord × BitVec 128 × BitVec 128) (cost : List CollLane → Nat) (x : Iss) (m : Mach)
    (as : List CollLane) (sh : Bool)
    (hs : sh = (isDet m x.w && ((lanesOf x.eff).map fun l => (arg (m.grp x.w x.g) l).1).any fun hdr =>
      (collSpans m x.w op hdr).any fun r => !(ownedBySelf m x.w false r.1 r.2)))
    (ha : as = (lanesOf x.eff).map fun l => let r := arg (m.grp x.w x.g) l
      ⟨l, r.1, r.2.1, r.2.2, if sh && !(holdsTurn m x.w) then unrouted else (routeNow m x.w x.g m.nextCmd op r.1).getD unrouted,
        if isDet m x.w then spansDenied m x.w (collSpans m x.w op r.1) else none, false⟩)
    (h0 : as ≠ []) (h1 : collTraps op as x m = none) (h2 : lanesRoom m (collNeeds as) = true) (h3 : sh = true → turnFull m x.w as.length = false) (hc : waitClass i = 5) :
    collOwn i op d a arg cost x m = .done (cost as)
      (queueColl x.w x.g ⟨m.nextCmd, 5, x.rec_, .none, none, [], [], sh, 0, serialInterval (m.grp x.w x.g)⟩ op (as.filter fun e => decide (e.route ≠ unrouted))
        (handOn i x 5 (.coll op d a as (as.map (·.lane)) []) sh m)) := by
  unfold collOwn
  simp only [← hs]
  simp only [← ha, hc]
  refine (if_neg h0).trans ?_
  rw [h1]
  dsimp only
  refine (if_neg ?_).trans ((if_neg (by rw [h2]; simp)).trans rfl)
  cases hh : sh
  · simp
  · rw [h3 hh]; simp

theorem maskIf_none (f : Nat → Bool) (h : ∀ l, l < 32 → f l = false) : maskIf f = 0 := by
  unfold maskIf
  rw [List.filter_eq_nil_iff.2 (by intro l hl; rw [h l (by simpa using hl)]; simp)]
  rfl

theorem msign_own (c : Nat) (a b : Reg) (x : Iss) (m : Mach) (word fmt : Word) (e1 : Conv) (hw : word = (m.grp x.w x.g).reg b.toNat (lowLaneD x.act))
    (hf : fmt = match convOf m x.w c with | some e => e.fmt | none => (m.grp x.w x.g).reg a.toNat (lowLaneD x.act)) (h1 : bits word 14 2 = 0)
    (h2 : signSet m x word (convOf m x.w c) = none) (h3 : ∀ l, l < 32 → x.act.getLsbD l = true → (m.grp x.w x.g).reg a.toNat l = fmt) (h4 : formatInvalid fmt = false)
    (h5 : mapTrap m x word fmt (convOf m x.w c).isNone = none) (h6 : inRegion x x.act m = false) (h7 : (m.grp x.w x.g).trapMode = none)
    (h8 : e1 = { (convOf m x.w c).getD ⟨word, fmt, [], []⟩ with signed := ((convOf m x.w c).getD ⟨word, fmt, [], []⟩).signed ++ [x.g], waits := ((convOf m x.w c).getD ⟨word, fmt, [], []⟩).waits ++ signWaits m x word fmt }) :
    let m1 := flushAll (m.wg x.w).core (m.modW x.w fun z => { z with convs := Store.put z.convs c e1 })
    msignOwn c a b x m = if (signersOf word).any fun g => !(e1.signed.contains g) then .done 0 m1
            else if tableRoom m x.w then .done 0 (submitPass x.w x.g c m1)
            else .placed (dropSlot x.w x.g (m1.modG x.w x.g fun y => { y with held := some (.msign c), gaveUp := m.cycle })) := by
  subst h8
  unfold msignOwn
  simp only [← hw]
  refine (if_neg (by rw [not_not]; exact h1)).trans ?_
  rw [h2]
  dsimp only
  have e : (match convOf m x.w c with | some e => e.fmt | none => (m.grp x.w x.g).reg a.toNat (lowLaneD x.act)) = fmt := hf.symm
  have h3' : (maskIf fun l => x.act.getLsbD l && decide ((m.grp x.w x.g).reg a.toNat l ≠ fmt)) = 0 := by
    refine maskIf_none _ fun l hl => ?_
    cases hh : x.act.getLsbD l
    · simp
    · simp [h3 l hl hh]
  cases hk : convOf m x.w c with
  | none =>
    rw [hk] at e h5
    dsimp only at e h5 ⊢
    rw [e]
    refine (if_neg (not_not.2 h3')).trans ((if_neg (by rw [h4]; simp)).trans ?_)
    rw [h5]
    dsimp only
    rw [h6, h7]; rfl
  | some q =>
    rw [hk] at e h5
    dsimp only at e h5 ⊢
    subst e
    refine (if_neg (not_not.2 h3')).trans ((if_neg (by rw [h4]; simp)).trans ?_)
    rw [h5]
    dsimp only
    rw [h6, h7]; rfl

end Sys2Proof.Laws
end

