-- ==== Sys2Proof/Laws/Traps.lean ====
section
/-! SUPPORT. Laws of taking a trap and returning: the frame's bytes, the links, what hardware writes leave as it was. -/

namespace Sys2Proof.Laws

open Sys2Proof Sys2Proof.Machine

theorem key_ne {q l q' l' : Nat} (h : l < 32) (h' : l' < 32) (hn : ¬ (q = q' ∧ l = l')) : 32 * q + l ≠ 32 * q' + l' := by omega

theorem reg_setReg (y : Group) (r l : Nat) (v : Word) (q k : Nat) (hl : l < 32) (hk : k < 32) :
    (y.setReg r l v).reg q k = if q = r ∧ k = l then v else y.reg q k := by
  unfold Group.setReg Group.reg
  split
  · rename_i h; obtain ⟨rfl, rfl⟩ := h; simp
  · rename_i h; rw [Store_get_put_other _ _ _ _ _ (key_ne hk hl h)]

theorem links_reg (f : Nat → DWord) (ls : List Nat) (hls : ∀ l ∈ ls, l < 32) : ∀ (y : Group) (q k : Nat), k < 32 →
    (ls.foldl (fun a l => a.setRegs 30 2 l (f l).toNat) y).reg q k =
      if k ∈ ls ∧ q = 31 then BitVec.ofNat 32 ((f k).toNat / 2 ^ 32) else if k ∈ ls ∧ q = 30 then BitVec.ofNat 32 (f k).toNat else y.reg q k := by
  induction ls with
  | nil => intro y q k _; simp
  | cons l ls ih =>
    intro y q k hk
    have hl : l < 32 := hls l (List.mem_cons_self ..)
    rw [List.foldl_cons, ih (fun x hx => hls x (List.mem_cons_of_mem _ hx)) _ _ _ hk]
    have e : (y.setRegs 30 2 l (f l).toNat) = ((y.setReg 30 l (BitVec.ofNat 32 (f l).toNat)).setReg 31 l (BitVec.ofNat 32 ((f l).toNat / 2 ^ 32))) := rfl
    rw [e, reg_setReg _ _ _ _ _ _ hl hk, reg_setReg _ _ _ _ _ _ hl hk]
    by_cases hm : k ∈ ls
    · simp only [hm, true_and, List.mem_cons, or_true]
      by_cases h31 : q = 31
      · simp [h31]
      · by_cases h30 : q = 30
        · simp [h30]
        · simp [h30, h31]
    · simp only [hm, false_and, if_false, List.mem_cons, or_false]
      by_cases hkl : k = l
      · subst hkl
        simp [and_comm]
      · simp [hkl]

theorem pair_split (v : DWord) : (BitVec.ofNat 32 (v.toNat / 2 ^ 32) ++ BitVec.ofNat 32 v.toNat : DWord) = v := by
  apply BitVec.eq_of_toNat_eq
  rw [BitVec.toNat_append, BitVec.toNat_ofNat, BitVec.toNat_ofNat]
  have := v.isLt
  rw [Nat.mod_eq_of_lt (by omega : v.toNat / 2 ^ 32 < 2 ^ 32), ← Nat.shiftLeft_add_eq_or_of_lt (Nat.mod_lt _ (by decide)), Nat.shiftLeft_eq]
  omega

theorem get_proj {α β : Type} (d : α) (p : α → β) (f : Nat × α → Nat × α) (s : Store α) (k : Nat) (h1 : ∀ e, (f e).1 = e.1) (h2 : ∀ e, p (f e).2 = p e.2) :
    p (Store.get d (s.map f) k) = p (Store.get d s k) := by
  induction s with
  | nil => rfl
  | cons e s ih =>
    have e1 : f e = (e.1, (f e).2) := by rw [← h1 e]
    rw [List.map_cons, e1]
    obtain ⟨a, x⟩ := e
    unfold Store.get
    dsimp only
    split
    · exact h2 (a, x)
    · split
      · rfl
      · exact ih

theorem get_map {α β : Type} (d : α) (p : α → β) (s : Store α) (k : Nat) : Store.get (p d) (s.map fun e => (e.1, p e.2)) k = p (Store.get d s k) := by
  induction s with
  | nil => rfl
  | cons e s ih =>
    obtain ⟨a, x⟩ := e
    rw [List.map_cons]
    unfold Store.get
    dsimp only
    split
    · rfl
    · split
      · rfl
      · exact ih

/-- A group without its outstanding commands. -/
def bareG (y : Group) : Group := { y with outs := [] }

/-- A workgroup with its groups without their outstanding commands. -/
def bareW (x : Wg) : Wg := { x with groups := x.groups.map fun e => (e.1, bareG e.2) }

theorem bareW_grp {x y : Wg} (h : bareW x = bareW y) (k : Nat) : bareG (Store.get default x.groups k) = bareG (Store.get default y.groups k) := by
  have h2 : (bareW x).groups = (bareW y).groups := congrArg Wg.groups h
  rw [← get_map default bareG x.groups k, ← get_map default bareG y.groups k]
  show Store.get (bareG default) (bareW x).groups k = Store.get (bareG default) (bareW y).groups k
  rw [h2]

theorem writeOwn_wg (m : Mach) (core pa : Nat) (bs : List Byte) (v : Nat) : bareW ((writeOwn m core pa bs).wg v) = bareW (m.wg v) := by
  have hw : (writeOwn m core pa bs).wgs = m.wgs.map fun e =>
    if e.2.core = core ∧ e.2.status ≠ .saved then
      (e.1, { e.2 with groups := e.2.groups.map fun f => (f.1, { f.2 with outs := f.2.outs.map (overwriteOut m e.1 f.1 pa bs) }) })
    else e := by
    unfold writeOwn writePa
    dsimp only
    split <;> rfl
  unfold Mach.wg
  rw [hw]
  refine get_proj default bareW _ _ _ (fun e => ?_) fun e => ?_
  · split <;> rfl
  · split
    · unfold bareW
      simp only [List.map_map]
      rfl
    · rfl

theorem writeOwn_grp (m : Mach) (core pa : Nat) (bs : List Byte) (v k : Nat) : bareG ((writeOwn m core pa bs).grp v k) = bareG (m.grp v k) :=
  bareW_grp (writeOwn_wg m core pa bs v) k

theorem writeOwn_data (m : Mach) (core pa : Nat) (bs : List Byte) : (writeOwn m core pa bs).vault = m.vault ∧ (writeOwn m core pa bs).scratch = m.scratch ∧
    (paTarget pa ≠ 2 → (writeOwn m core pa bs).hbm = Memory.writeN m.hbm pa bs) ∧ (writeOwn m core pa bs).parts = m.parts ∧ (writeOwn m core pa bs).nextCmd = m.nextCmd := by
  unfold writeOwn writePa
  dsimp only
  split
  · rename_i h; exact ⟨rfl, rfl, fun h' => absurd h h', rfl, rfl⟩
  · exact ⟨rfl, rfl, fun _ => rfl, rfl, rfl⟩

theorem writes_grp (core : Nat) (f : Nat → Nat) (b : Nat → List Byte) (v k : Nat) (ls : List Nat) : ∀ m : Mach,
    bareG ((ls.foldl (fun acc l => writeOwn acc core (f l) (b l)) m).grp v k) = bareG (m.grp v k) := by
  induction ls with
  | nil => intro m; rfl
  | cons l ls ih => intro m; exact (ih _).trans (writeOwn_grp _ _ _ _ _ _)

theorem writes_wg (core : Nat) (f : Nat → Nat) (b : Nat → List Byte) (v : Nat) (ls : List Nat) : ∀ m : Mach,
    bareW ((ls.foldl (fun acc l => writeOwn acc core (f l) (b l)) m).wg v) = bareW (m.wg v) := by
  induction ls with
  | nil => intro m; rfl
  | cons l ls ih => intro m; exact (ih _).trans (writeOwn_wg _ _ _ _ _)

theorem writes_data (core : Nat) (f : Nat → Nat) (b : Nat → List Byte) (ls : List Nat) : ∀ m : Mach, let n := ls.foldl (fun acc l => writeOwn acc core (f l) (b l)) m
    n.vault = m.vault ∧ n.scratch = m.scratch ∧ n.parts = m.parts ∧ n.nextCmd = m.nextCmd := by
  induction ls with
  | nil => intro m; exact ⟨rfl, rfl, rfl, rfl⟩
  | cons l ls ih =>
    intro m
    have h1 := ih (writeOwn m core (f l) (b l))
    have h2 := writeOwn_data m core (f l) (b l)
    exact ⟨h1.1.trans h2.1, h1.2.1.trans h2.2.1, h1.2.2.1.trans h2.2.2.2.1, h1.2.2.2.trans h2.2.2.2.2⟩

theorem writes_hbm (core : Nat) (f : Nat → Nat) (b : Nat → List Byte) (lo hi : Nat) (ls : List Nat) : ∀ m : Mach, Memory.wf m.hbm = true →
    (∀ l ∈ ls, paTarget (f l) ≠ 2 ∧ lo ≤ f l ∧ f l + (b l).length ≤ hi) →
    Memory.wf (ls.foldl (fun acc l => writeOwn acc core (f l) (b l)) m).hbm = true ∧
    ∀ a, a < lo ∨ hi ≤ a → Memory.read (ls.foldl (fun acc l => writeOwn acc core (f l) (b l)) m).hbm a = Memory.read m.hbm a := by
  induction ls with
  | nil => intro m h _; exact ⟨h, fun _ _ => rfl⟩
  | cons l ls ih =>
    intro m h hh
    obtain ⟨p1, p2, p3⟩ := hh l (List.mem_cons_self ..)
    have e := (writeOwn_data m core (f l) (b l)).2.2.1 p1
    have hw : Memory.wf (writeOwn m core (f l) (b l)).hbm = true := by rw [e]; exact Memory_writeN_wf _ _ _ h
    obtain ⟨q1, q2⟩ := ih (writeOwn m core (f l) (b l)) hw fun x hx => hh x (List.mem_cons_of_mem _ hx)
    refine ⟨q1, fun a ha => (q2 a ha).trans ?_⟩
    rw [e]
    exact Memory_read_writeN_outside _ _ _ _ h (by omega)

theorem readN_congr (mem nem : Memory) (n : Nat) : ∀ a, (∀ k, k < n → Memory.read mem (a + k) = Memory.read nem (a + k)) → Memory.readN mem a n = Memory.readN nem a n := by
  induction n with
  | zero => intro a _; rfl
  | succ n ih =>
    intro a h
    unfold Memory.readN
    rw [show Memory.read mem a = Memory.read nem a from h 0 (Nat.succ_pos n)]
    rw [ih (a + 1) fun k hk => by have := h (k + 1) (by omega); rwa [show a + (k + 1) = a + 1 + k by omega] at this]

theorem readN_writeN (bs cs : List Byte) : ∀ (mem : Memory) (a : Nat), Memory.wf mem = true → Memory.readN (Memory.writeN mem a (bs ++ cs)) a bs.length = bs := by
  induction bs with
  | nil => intro mem a _; rfl
  | cons b bs ih =>
    intro mem a h
    have hw := Memory_write_wf mem a b h
    rw [List.cons_append, List.length_cons]
    unfold Memory.readN Memory.writeN
    rw [ih _ _ hw]
    rw [Memory_read_writeN_outside _ _ _ _ hw (by omega), Memory_read_write_same _ _ _ h]

theorem leBytes_eq (k : Nat) : ∀ v, leBytes k v = (List.range k).map fun j => BitVec.ofNat 8 (v / 256 ^ j) := by
  induction k with
  | zero => intro v; rfl
  | succ k ih =>
    intro v
    unfold leBytes
    rw [ih, List.range_succ_eq_map, List.map_cons, List.map_map]
    refine congrArg₂ _ (by simp) (List.map_congr_left fun j _ => ?_)
    simp only [Function.comp]
    rw [Nat.div_div_eq_div_mul, Nat.pow_succ, Nat.mul_comm]


theorem dropSlot_grp (w g v k : Nat) (m : Mach) : (dropSlot w g m).grp v k = m.grp v k := rfl

theorem traceRecord_same (w g kind : Nat) (pc : DWord) (lanes : Mask) (v : Word) (mark : Nat) (m : Mach) :
    (traceRecord w g kind pc lanes v mark m).wgs = m.wgs ∧ (traceRecord w g kind pc lanes v mark m).hbm = m.hbm ∧
    (traceRecord w g kind pc lanes v mark m).vault = m.vault ∧ (traceRecord w g kind pc lanes v mark m).scratch = m.scratch := by
  unfold traceRecord
  dsimp only
  split <;> exact ⟨rfl, rfl, rfl, rfl⟩

theorem foldl_setRegs_other (f : Nat → DWord) (ls : List Nat) : ∀ y : Group,
    let z := ls.foldl (fun a l => a.setRegs 30 2 l (f l).toNat) y
    z.live = y.live ∧ z.preds = y.preds ∧ z.fpflags = y.fpflags ∧ z = { y with regs := z.regs } := by
  induction ls with
  | nil => intro y; exact ⟨rfl, rfl, rfl, rfl⟩
  | cons l ls ih =>
    intro y
    obtain ⟨h1, h2, h3, h4⟩ := ih (y.setRegs 30 2 l (f l).toNat)
    refine ⟨h1, h2, h3, ?_⟩
    rw [List.foldl_cons, h4]
    rfl

theorem retryRange_data (pa n : Nat) (m : Mach) : sameData m (retryRange pa n m) := sameData_fold _ (fun m _ => retryHbm_data _ m) _ _

theorem retryCode_data (k : Site) (p c va : Nat) (m : Mach) : sameData m (retryCode k p c va m) := by
  unfold retryCode
  split
  · exact retryHbm_data _ _
  · exact ⟨rfl, rfl, rfl, rfl⟩

theorem frameAt_data (w : Nat) (f : DWord) (rt : Right) (m : Mach) : sameData m (frameAt w f rt m).2 := by
  unfold frameAt
  dsimp only
  split
  · exact ⟨rfl, rfl, rfl, rfl⟩
  · rename_i fr _
    have h := retryRange_data fr.pa 512 m
    generalize retryRange fr.pa 512 m = n at h ⊢
    split <;> exact h

/-- Where no lane of the trap set stands in a region, the machine that a trap is entered from. -/
theorem enterTrap_eq (w g : Nat) (t : TrapArgs) (m0 : Mach) (h : regionsOf (allLanded w g m0) w g t.lanes = []) :
    enterTrap w g t m0 =
      let l := dropSlot w g (allLanded w g m0)
      let h := (l.ctx (l.wg w).part (l.wg w).ctx).desc.handler
      let f := frameAddr l w g
      let r := frameAt w f .write (retryCode (wgSite l w) (l.wg w).part (l.wg w).ctx h.toNat l)
      enterAt w g t t h f r.1 r.2 := by
  have : trapRegions w g t (dropSlot w g (allLanded w g m0)) = (t, dropSlot w g (allLanded w g m0)) := by
    unfold trapRegions
    have e : regionsOf (dropSlot w g (allLanded w g m0)) w g t.lanes = regionsOf (allLanded w g m0) w g t.lanes := by
      unfold regionsOf; rw [dropSlot_regions]
    rw [e, h]
  unfold enterTrap
  rw [this]

theorem leNat_lt' (bs : List Byte) : leNat bs < 256 ^ bs.length := by
  induction bs with
  | nil => simp [leNat]
  | cons b bs ih =>
    unfold leNat
    have := b.isLt
    rw [List.length_cons, Nat.pow_succ]
    omega

theorem readOwn_lt (m : Mach) (core pa : Nat) : leNat (readOwn m core pa 8) < 2 ^ 64 := by
  have h := leNat_lt' (readOwn m core pa 8)
  have hl : (readOwn m core pa 8).length = 8 := by unfold readOwn; simp
  rw [hl] at h
  exact h

theorem standAt_regs (w g : Nat) (a : DWord) (k : Mask) (m : Mach) :
    (standAt w g a k m).grp w g = { m.grp w g with frontier := ((standAt w g a k m).grp w g).frontier } := by
  unfold standAt
  simp

/-- A trap that cannot be entered is a double fault. -/
theorem enterAt_twice {w g : Nat} {t t0 : TrapArgs} {h f : DWord} {place : Except Cause Xlat} {m : Mach}
    (hc : (m.grp w g).trapMode ≠ none ∨ h = 0 ∨ (∃ e, headerAt m (wgSite m w) (m.wg w).part (m.wg w).ctx h = .error e) ∨ ∃ e, place = .error e) :
    enterAt w g t t0 h f place m = doubleFault w g t.fail.cause t.pc t.fail.info m := by
  unfold enterAt
  dsimp only
  split
  · rename_i _ a1 a2
    exfalso
    rw [decide_eq_false_iff_not, not_or] at a1
    rcases hc with hc | hc | ⟨e, hc⟩ | ⟨e, hc⟩
    · exact a1.1 (Option.isSome_iff_ne_none.2 hc)
    · exact a1.2 hc
    · rw [hc] at a2; cases a2
    · cases hc
  · rfl

/-- What entering a trap does. -/
theorem enterAt_law {w g : Nat} {t t0 : TrapArgs} {h f : DWord} {m : Mach} {hd : Word} {fr : Xlat} (h1 : (m.grp w g).trapMode = none) (h2 : h ≠ 0)
    (h3 : headerAt m (wgSite m w) (m.wg w).part (m.wg w).ctx h = .ok hd) : let y := m.grp w g
    let n := enterAt w g t t0 h f (.ok fr) m
    let z := n.grp w g
    let le := fun (k v : Nat) => (List.range k).map fun j => BitVec.ofNat 8 (v / 256 ^ j)
    let r := t.irec
    z.trapCause = causeCode t.fail.cause ∧ z.trapPc = t.pc ∧ z.trapInfo = t.fail.info ∧
        z.trapMode = some ⟨t.lanes, y.frontier, y.run, t.pc, t.resume, t.replay, f, m.nextCmd⟩ ∧
        z.frontier = [⟨h, (bits hd 16 8).toNat, t.lanes⟩] ∧ z.run = none ∧ z.live = y.live ∧ z.preds = y.preds ∧ z.fpflags = y.fpflags ∧
        (∀ l ∈ lanesOf t.lanes, z.pair 30 l = f) ∧
        (∀ q l, q < 64 → l < 32 → (q = 30 ∨ q = 31) → l ∉ lanesOf t.lanes → z.reg q l = y.reg q l) ∧ (∀ q l, l < 32 → q ≠ 30 → q ≠ 31 → z.reg q l = y.reg q l) ∧
        (∀ v k, (v, k) ≠ (w, g) → { n.grp v k with outs := [] } = { m.grp v k with outs := [] }) ∧
        n.vault = m.vault ∧ n.scratch = m.scratch ∧
        (Memory.wf m.hbm = true → (∀ k, k < 512 → paTarget (fr.pa + k) ≠ 2) →
          (∀ a, a < fr.pa ∨ fr.pa + 512 ≤ a → Memory.read n.hbm a = Memory.read m.hbm a) ∧
          Memory.readN n.hbm fr.pa 64 = le 8 r.pc.toNat ++ le 4 t.fail.lanes.toNat ++ le 4 r.lanes.toNat ++ le 4 r.word.toNat ++ le 4 r.lit.toNat ++
            le 1 (causeCode t.fail.cause) ++ le 1 t.wait ++ le 6 0 ++ le 8 t.fail.addr.toNat ++ le 8 r.a.toNat ++ le 8 r.b.toNat ++ le 8 r.d.toNat) := by
  intro y n z le r
  have hn : n = _ := (rfl : enterAt w g t t0 h f (.ok fr) m = _)
  unfold enterAt at hn
  have a1 : decide ((y.trapMode.isSome = true) ∨ h = 0) = false := by
    rw [decide_eq_false_iff_not, not_or, h1]; exact ⟨by simp, h2⟩
  dsimp only at hn
  rw [show decide ((m.grp w g).trapMode.isSome = true ∨ h = 0) = false from a1, h3] at hn
  dsimp only at hn
  set m1 := writeOwn m (m.wg w).core fr.pa (recordBytes t.irec t.fail t.wait ++ List.replicate 192 0) with hm1
  set m2 := (lanesOf t.lanes).foldl (fun acc l => writeOwn acc (m.wg w).core (fr.pa + 0x100 + 8 * l) (leBytes 8 (y.pair 30 l).toNat)) m1 with hm2
  have hg : ∀ v k, bareG (m2.grp v k) = bareG (m.grp v k) := fun v k =>
    (writes_grp _ (fun l => fr.pa + 0x100 + 8 * l) (fun l => leBytes 8 (y.pair 30 l).toNat) v k _ _).trans (writeOwn_grp _ _ _ _ _ _)
  have hgrp : ∀ v k, n.grp v k = (m2.modG w g fun z =>
        let z1 := (lanesOf t.lanes).foldl (fun a l => a.setRegs 30 2 l f.toNat) z
        { z1 with
          trapCause := causeCode t.fail.cause
          trapPc := t.pc
          trapInfo := t.fail.info
          trapMode := some ⟨t.lanes, y.frontier, y.run, t.pc, t.resume, t.replay, f, m.nextCmd⟩
          frontier := [⟨h, (bits hd 16 8).toNat, t.lanes⟩]
          run := none
          held := none
          gaveUp := m.cycle }).grp v k := by
    intro v k
    rw [hn]
    unfold Mach.grp Mach.wg
    rw [(traceRecord_same ..).1]
    show (Mach.wg (Mach.modW _ w _) v).groups.get default k = _
    by_cases hv : v = w
    · subst hv
      simp only [Mach.modW, Mach.wg, Store_get_upd_same]
      rfl
    · simp only [Mach.modW, Mach.wg]
      rw [Store_get_upd_other _ _ _ _ _ hv]
      rfl
  have hm : ∀ v k, (v, k) ≠ (w, g) → n.grp v k = m2.grp v k := by
    intro v k hv
    rw [hgrp]
    simp only [Mach.modG, Mach.modW, Mach.grp, Mach.wg]
    by_cases hw : v = w
    · subst hw
      have hk : k ≠ g := fun h => hv (by rw [h])
      rw [Store_get_upd_same]
      dsimp only
      rw [Store_get_upd_other _ _ _ _ _ hk]
    · rw [Store_get_upd_other _ _ _ _ _ hw]
  have hz : z = (let z1 := (lanesOf t.lanes).foldl (fun a l => a.setRegs 30 2 l f.toNat) (m2.grp w g)
        { z1 with
          trapCause := causeCode t.fail.cause
          trapPc := t.pc
          trapInfo := t.fail.info
          trapMode := some ⟨t.lanes, y.frontier, y.run, t.pc, t.resume, t.replay, f, m.nextCmd⟩
          frontier := [⟨h, (bits hd 16 8).toNat, t.lanes⟩]
          run := none
          held := none
          gaveUp := m.cycle }) := by
    show n.grp w g = _
    rw [hgrp]
    simp only [Mach.modG, Mach.modW, Mach.grp, Mach.wg, Store_get_upd_same]
  obtain ⟨o1, o2, o3, o4⟩ := foldl_setRegs_other (fun _ => f) (lanesOf t.lanes) (m2.grp w g)
  have hb := hg w g
  have hreg' : ∀ q l, z.reg q l = ((lanesOf t.lanes).foldl (fun a l => a.setRegs 30 2 l f.toNat) (m2.grp w g)).reg q l := fun q l => by rw [hz]; rfl
  have hr : ∀ q l, (m2.grp w g).reg q l = y.reg q l := by
    intro q l
    have : (m2.grp w g).regs = (m.grp w g).regs := by
      have := congrArg Group.regs hb
      exact this
    unfold Group.reg; rw [this]
  have hl := fun (l : Nat) (h : l ∈ lanesOf t.lanes) => lanesOf_lt h
  have hlr := fun q k hk => links_reg (fun _ => f) (lanesOf t.lanes) hl (m2.grp w g) q k hk
  refine ⟨by rw [hz], by rw [hz], by rw [hz], by rw [hz], by rw [hz], by rw [hz], ?_, ?_, ?_, ?_, ?_, ?_, ?_, ?_, ?_, ?_⟩
  · rw [hz]; exact o1.trans (by have := congrArg Group.live hb; exact this)
  · rw [hz]; exact o2.trans (by have := congrArg Group.preds hb; exact this)
  · rw [hz]; exact o3.trans (by have := congrArg Group.fpflags hb; exact this)
  · intro l hm
    unfold Group.pair
    rw [hreg', hreg', hlr _ _ (hl l hm), hlr _ _ (hl l hm)]
    simp [hm]
    exact pair_split f
  · intro q l _ hl32 _ hm
    rw [hreg', hlr _ _ hl32]
    simp [hm, hr]
  · intro q l hl32 h30 h31
    rw [hreg', hlr _ _ hl32]
    simp [h30, h31, hr]
  · intro v k hv
    rw [hm v k hv]
    exact hg v k
  · rw [hn]
    rw [(traceRecord_same ..).2.2.1]
    exact (writes_data _ _ _ _ _).1.trans (writeOwn_data ..).1
  · rw [hn]
    rw [(traceRecord_same ..).2.2.2]
    exact (writes_data _ _ _ _ _).2.1.trans (writeOwn_data ..).2.1
  · intro hwf hpa
    have h0 : paTarget fr.pa ≠ 2 := hpa 0 (by decide)
    have e1 : m1.hbm = Memory.writeN m.hbm fr.pa (recordBytes t.irec t.fail t.wait ++ List.replicate 192 0) := (writeOwn_data ..).2.2.1 h0
    have w1 : Memory.wf m1.hbm = true := by rw [e1]; exact Memory_writeN_wf _ _ _ hwf
    have hlen : (recordBytes t.irec t.fail t.wait).length = 64 := by simp [recordBytes, leBytes_length]
    have e2 : n.hbm = m2.hbm := by
      rw [hn]
      exact (traceRecord_same ..).2.1
    obtain ⟨w2, e3⟩ := writes_hbm (m.wg w).core (fun l => fr.pa + 0x100 + 8 * l) (fun l => leBytes 8 (y.pair 30 l).toNat) (fr.pa + 0x100) (fr.pa + 512) (lanesOf t.lanes) m1 w1 (by
      intro l hm
      have := hl l hm
      refine ⟨?_, by omega, by rw [leBytes_length]; omega⟩
      have := hpa (0x100 + 8 * l) (by omega)
      rwa [← Nat.add_assoc] at this)
    refine ⟨fun a ha => ?_, ?_⟩
    · rw [e2]
      refine (e3 a (by omega)).trans ?_
      rw [e1]
      refine Memory_read_writeN_outside _ _ _ _ hwf ?_
      rw [List.length_append, hlen, List.length_replicate]
      omega
    · rw [e2]
      rw [readN_congr m2.hbm m1.hbm 64 fr.pa fun k hk => e3 _ (by omega)]
      rw [e1]
      have := readN_writeN (recordBytes t.irec t.fail t.wait) (List.replicate 192 0) m.hbm fr.pa hwf
      rw [hlen] at this
      rw [this]
      have e4 : ∀ v, le 1 v = [BitVec.ofNat 8 v] := by intro v; simp [le]
      have e5 : le 6 0 = [0, 0, 0, 0, 0, 0] := by decide
      rw [e4, e4, e5]
      simp only [recordBytes, leBytes_eq, List.append_assoc]
      rfl

end Sys2Proof.Laws
end

