-- ==== Sys2Proof/Laws/Performed.lean ====
section
/-! SUPPORT. Laws of accesses as they are performed: bytes at a place, write-combining lines, a lane's load, store, read-modify-write. -/

namespace Sys2Proof.Laws

open Sys2Proof Sys2Proof.Machine

theorem acts {i : Instr} {ok : Mach → Prop} {f h : Mach → Mach} (he : ∀ s, exec i s = eventStep h s) (hf : ∀ m, ok m → h m = f m) : Says.Acts i ok f := by
  intro s hr ho
  rw [he]; unfold eventStep; rw [if_pos hr, hf _ ho]

theorem findOut_id {m : Mach} {w g id : Nat} {o : Out} (h : findOut m w g id = some o) : o.id = id := by
  have := List.find?_some h
  simp only [Bool.and_eq_true, decide_eq_true_eq] at this
  exact this.1

theorem turn_now {m : Mach} {w : Nat} {o : Out} (ht : o.shared = true → holdsTurn m w = true) : (o.shared && !(holdsTurn m w)) = false := by
  cases hsh : o.shared with
  | false => rfl
  | true => rw [ht hsh]; rfl

theorem performed_now {k : OutKind → Bool} {w g id : Nat} {act : Out → Mach → Mach} {m : Mach} {o : Out} (hs : (m.wg w).status ≠ .saved) (hf : findOut m w g id = some o)
    (ht : o.shared = true → holdsTurn m w = true) (hk : k o.kind = true) (ha : accFault m w o = none) (hp : mayPerform m ⟨w, g, o⟩ = true) :
    whenPerformed k w g id act m = act o m := by
  unfold whenPerformed
  rw [if_neg hs, hf]
  dsimp only
  rw [hk, turn_now ht, ha]
  exact if_pos hp

theorem findOut_setOut (w g id : Nat) (k : OutKind) (m : Mach) : findOut (setOut w g id k m) w g id = (findOut m w g id).map fun o => { o with kind := k } := by
  simp only [findOut, setOut, grp_modG_same]
  induction (m.grp w g).outs with
  | nil => rfl
  | cons o os ih =>
    by_cases h : o.id = id
    · cases hf : o.fail.isNone <;> simp [h, hf, ih]
    · simp [h, ih]

theorem findOut_failOut (w g id : Nat) (f : Fail) (m : Mach) : findOut (failOut w g id f m) w g id = none := by
  unfold failOut
  split
  · simp only [findOut, dropOut, grp_modG_same, List.find?_eq_none, List.mem_filter]
    rintro o ⟨_, ho⟩
    simp [of_decide_eq_true ho]
  · simp only [findOut, grp_modG_same]
    rw [List.find?_eq_none]
    intro o ho
    obtain ⟨p, _, rfl⟩ := List.mem_map.1 ho
    by_cases h : p.id = id <;> simp [h]

/-- The step of a scratchpad load whose words have been read. -/
theorem scratchLanding_read {w g id n : Nat} {d : Reg} {ws : List LaneWrite} {lanes : List LaneAcc} {o : Out} {m : Mach} (h : findOut m w g id = some o)
    (hk : o.kind = .loadScratch n d (some ws) lanes) : scratchLanding w g id m = landOut w g id ws m := by
  have hp : scratchPass w g id m = m := by
    unfold scratchPass
    split
    · rename_i o' ho
      have : o' = o := by
        revert ho
        split
        · intro ho; cases ho
        · intro ho; rw [h] at ho; exact (Option.some.inj ho).symm
      rw [this, hk]; rfl
    · rfl
  unfold scratchLanding
  rw [hp]
  dsimp only
  rw [h]
  dsimp only
  rw [hk]

/-- The step of a scratchpad load whose words have not been read: they are read, or it is found faulting. -/
theorem scratchLanding_reads {w g id n : Nat} {d : Reg} {lanes : List LaneAcc} {o : Out} {m : Mach} (hs : (m.wg w).status ≠ .saved) (h : findOut m w g id = some o)
    (hm : scratchMay m w g o = true) (hk : o.kind = .loadScratch n d none lanes) :
    scratchLanding w g id m =
      match scratchFaulty m w o.kind with
      | [] => let ws := scratchVals m w n d (lanes.map fun a => (a.lane, a.addr))
        landOut w g id ws (setOut w g id (.loadScratch n d (some ws) lanes) m)
      | f :: fs => failOut w g id ⟨.uncorrectable, maskOf ((f :: fs).map (·.lane)), BitVec.ofNat 64 f.addr, freeInfo m⟩ m := by
  have hid := findOut_id h
  have hp : scratchPass w g id m = scratchAct w g o m := by
    unfold scratchPass
    rw [if_neg hs, h]
    dsimp only
    rw [hk, hm]; rfl
  unfold scratchLanding
  rw [hp]
  unfold scratchAct
  cases scratchFaulty m w o.kind with
  | nil =>
    dsimp only
    rw [hk, hid]
    dsimp only
    rw [findOut_setOut, h]
    rfl
  | cons f fs =>
    dsimp only
    rw [hid, findOut_failOut]

theorem performed_fault {k : OutKind → Bool} {w g id : Nat} {act : Out → Mach → Mach} {m : Mach} {o : Out} {f : Fail} (hs : (m.wg w).status ≠ .saved) (hf : findOut m w g id = some o)
    (ht : o.shared = true → holdsTurn m w = true) (hk : k o.kind = true) (ha : accFault m w o = some f) :
    whenPerformed k w g id act m = failOut w g id f m := by
  unfold whenPerformed
  rw [if_neg hs, hf]
  dsimp only
  rw [hk, turn_now ht, ha]

theorem read_writeN (n : Nat) : ∀ (v : Nat) (mem : Memory) (a k : Nat), Memory.wf mem = true → Memory.read (Memory.writeN mem a (leBytes n v)) k =
    if a ≤ k ∧ k < a + n then BitVec.ofNat 8 (v / 2 ^ (8 * (k - a))) else Memory.read mem k := by
  induction n with
  | zero => intro v mem a k _; rw [if_neg (by omega)]; rfl
  | succ n ih =>
    intro v mem a k hw
    show Memory.read (Memory.writeN (Memory.write mem a (BitVec.ofNat 8 v)) (a + 1) (leBytes n (v / 256))) k = _
    rw [ih _ _ _ _ (Memory_write_wf _ _ _ hw)]
    by_cases hk : k = a
    · subst hk
      rw [if_neg (by omega), if_pos (by omega), Memory_read_write_same _ _ _ hw]
      simp
    · rw [Memory_read_write_other _ _ _ _ hw hk]
      by_cases hr : a + 1 ≤ k ∧ k < a + 1 + n
      · rw [if_pos hr, if_pos (by omega)]
        congr 1
        rw [show k - a = (k - (a + 1)) + 1 by omega, Nat.mul_add, Nat.add_comm (8 * _), Nat.pow_add, ← Nat.div_div_eq_div_mul]
      · rw [if_neg hr, if_neg (by omega)]

theorem holds_writeN (n : Nat) (v : Nat) (mem : Memory) (a : Nat) (hw : Memory.wf mem = true) :
    Memory.wf (Memory.writeN mem a (leBytes n v)) = true ∧ ∀ k, Memory.read (Memory.writeN mem a (leBytes n v)) k =
      if a ≤ k ∧ k < a + n then BitVec.ofNat 8 (v / 2 ^ (8 * (k - a))) else Memory.read mem k :=
  ⟨Memory_writeN_wf _ _ _ hw, fun k => read_writeN n v mem a k hw⟩

theorem writePa_hbm (m : Mach) (core : Option Nat) (who : Agent) (pa : Nat) (bs : List Byte) (h : paTarget pa ≠ 2) :
    (writePa m core who pa bs).hbm = Memory.writeN m.hbm pa bs ∧ (writePa m core who pa bs).vault = m.vault ∧ (writePa m core who pa bs).scratch = m.scratch ∧
      (writePa m core who pa bs).wgs = m.wgs := by
  unfold writePa
  rw [if_neg h]
  cases core <;> exact ⟨rfl, rfl, rfl, rfl⟩

theorem writePa_out (m : Mach) (core : Option Nat) (who : Agent) (pa : Nat) (bs : List Byte) (h : paTarget pa = 2) :
    writePa m core who pa bs = { m with hostOut := m.hostOut ++ [(0, .window (fld pa 0 50) bs)] } := if_pos h

theorem writePa_same (m : Mach) (core : Option Nat) (who : Agent) (pa : Nat) (bs : List Byte) :
    (writePa m core who pa bs).vault = m.vault ∧ (writePa m core who pa bs).scratch = m.scratch ∧ (writePa m core who pa bs).wgs = m.wgs := by
  by_cases h : paTarget pa = 2
  · rw [writePa_out _ _ _ _ _ h]; exact ⟨rfl, rfl, rfl⟩
  · exact (writePa_hbm m core who pa bs h).2

/-! combining -/

theorem writePa_core (m : Mach) (core : Nat) (who : Agent) (pa : Nat) (bs : List Byte) (k : Nat) :
    ((writePa m (some core) who pa bs).core k).combine = (m.core k).combine := by
  unfold writePa
  split
  · rfl
  · by_cases h : k = core
    · subst h; simp only [core_modK_same]; rfl
    · simp only [core_modK_other _ _ _ _ h]; rfl

theorem foldl_writePa_same (core : Nat) (f : Nat × Byte → Nat) (es : List (Nat × Byte)) : ∀ m : Mach,
    let t := es.foldl (fun acc e => writePa acc (some core) none (f e) [e.2]) m
    t.vault = m.vault ∧ t.scratch = m.scratch ∧ t.wgs = m.wgs := by
  induction es with
  | nil => intro m; exact ⟨rfl, rfl, rfl⟩
  | cons e es ih =>
    intro m
    obtain ⟨a, b, c⟩ := ih (writePa m (some core) none (f e) [e.2])
    obtain ⟨a', b', c'⟩ := writePa_same m (some core) none (f e) [e.2]
    exact ⟨a.trans a', b.trans b', c.trans c'⟩

theorem flushLine_same (core line : Nat) (m : Mach) : (flushLine core line m).vault = m.vault ∧ (flushLine core line m).scratch = m.scratch ∧
    (flushLine core line m).wgs = m.wgs := by
  unfold flushLine
  exact foldl_writePa_same core (fun e => line * 128 + e.1) _ _

theorem combineByte_same (core pa : Nat) (b : Byte) (m : Mach) : (combineByte core pa b m).vault = m.vault ∧ (combineByte core pa b m).scratch = m.scratch ∧
    (combineByte core pa b m).wgs = m.wgs := by
  unfold combineByte
  dsimp only
  split
  · exact flushLine_same core _ _
  · exact ⟨rfl, rfl, rfl⟩

theorem combineFold_same (core : Nat) (f : Nat → Nat) (b : Nat → Byte) (ks : List Nat) : ∀ m : Mach,
    let t := ks.foldl (fun acc k => combineByte core (f k) (b k) acc) m
    t.vault = m.vault ∧ t.scratch = m.scratch ∧ t.wgs = m.wgs := by
  induction ks with
  | nil => intro m; exact ⟨rfl, rfl, rfl⟩
  | cons e es ih =>
    intro m
    obtain ⟨a, b', c⟩ := ih (combineByte core (f e) (b e) m)
    obtain ⟨a2, b2, c2⟩ := combineByte_same core (f e) (b e) m
    exact ⟨a.trans a2, b'.trans b2, c.trans c2⟩

/-- The line of a byte as entering a byte leaves it. -/
theorem combineByte_line (core pa : Nat) (b : Byte) (m : Mach) (h : (Store.get [] (m.core core).combine (pa / 128)).length + 1 < 128) :
    (combineByte core pa b m).hbm = m.hbm ∧
    (∀ ln, Store.get [] ((combineByte core pa b m).core core).combine ln =
      if ln = pa / 128 then ((Store.get [] (m.core core).combine ln).filter fun e => decide (e.1 ≠ pa % 128)) ++ [(pa % 128, b)] else Store.get [] (m.core core).combine ln) := by
  let f : List (Nat × Byte) → List (Nat × Byte) := fun es => (es.filter fun e => decide (e.1 ≠ pa % 128)) ++ [(pa % 128, b)]
  let m1 : Mach := m.modK core fun c =>
    { c with
      combine := Store.upd [] c.combine (pa / 128) f
      combineAt := if (Store.get [] c.combine (pa / 128)).isEmpty then Store.put c.combineAt (pa / 128) m.cycle else c.combineAt }
  have hc : (m1.core core).combine = Store.upd [] (m.core core).combine (pa / 128) f := by rw [core_modK_same]
  have hlen : (Store.get [] (m1.core core).combine (pa / 128)).length ≠ 128 := by
    rw [hc, Store_get_upd_same]
    show (List.filter _ _ ++ [_]).length ≠ 128
    rw [List.length_append, List.length_singleton]
    have := List.length_filter_le (fun e : Nat × Byte => decide (e.1 ≠ pa % 128)) (Store.get [] (m.core core).combine (pa / 128))
    omega
  have he : combineByte core pa b m = m1 := by
    unfold combineByte
    dsimp only
    exact if_neg hlen
  rw [he, hc]
  refine ⟨rfl, fun ln => ?_⟩
  by_cases hn : ln = pa / 128
  · subst hn; rw [if_pos rfl, Store_get_upd_same]
  · rw [if_neg hn, Store_get_upd_other _ _ _ _ _ hn]

theorem find_filter_ne (es : List (Nat × Byte)) (x y : Nat) (h : x ≠ y) : (es.filter fun e => decide (e.1 ≠ y)).find? (fun e => decide (e.1 = x)) = es.find? fun e => decide (e.1 = x) := by
  induction es with
  | nil => rfl
  | cons e es ih =>
    rw [List.filter_cons]
    split
    · rw [List.find?_cons, List.find?_cons, ih]
    · rename_i hn
      have : e.1 = y := by simpa using hn
      rw [ih, List.find?_cons, show decide (e.1 = x) = false by simp [this]; exact fun h' => h h'.symm]

theorem find_filter_eq (es : List (Nat × Byte)) (y : Nat) (b : Byte) : ((es.filter fun e => decide (e.1 ≠ y)) ++ [(y, b)]).find? (fun e => decide (e.1 = y)) = some (y, b) := by
  rw [List.find?_append, List.find?_eq_none.2 (by intro e he; simpa using (List.mem_filter.1 he).2)]
  simp

theorem combineByte_combined (core pa : Nat) (b : Byte) (m : Mach) (h : (Store.get [] (m.core core).combine (pa / 128)).length + 1 < 128) (k : Nat) :
    combined (combineByte core pa b m) core k = if k = pa then some b else combined m core k := by
  unfold combined
  rw [(combineByte_line core pa b m h).2]
  by_cases hl : k / 128 = pa / 128
  · rw [if_pos hl]
    by_cases hk : k = pa
    · subst hk; rw [if_pos rfl, find_filter_eq]; rfl
    · have hm : k % 128 ≠ pa % 128 := fun h' => hk (by omega)
      rw [if_neg hk, List.find?_append, find_filter_ne _ _ _ hm]
      cases hf : (Store.get [] (m.core core).combine (k / 128)).find? fun e => decide (e.1 = k % 128) with
      | some e => rfl
      | none => simp [hm.symm]
  · rw [if_neg hl, if_neg (fun h' => hl (by rw [h']))]

theorem combineFold (core pa n : Nat) (b : Nat → Byte) : ∀ (j : Nat) (m : Mach), j ≤ n → (∀ k, k < n → (Store.get [] (m.core core).combine ((pa + k) / 128)).length + n < 128) →
    let t := (List.range j).foldl (fun acc k => combineByte core (pa + k) (b k) acc) m
    t.hbm = m.hbm ∧ (∀ k, combined t core k = if pa ≤ k ∧ k < pa + j then some (b (k - pa)) else combined m core k) ∧
      ∀ k, k < n → (Store.get [] (t.core core).combine ((pa + k) / 128)).length ≤ (Store.get [] (m.core core).combine ((pa + k) / 128)).length + j := by
  intro j
  induction j with
  | zero =>
    intro m _ _
    refine ⟨rfl, fun k => ?_, fun k _ => Nat.le_refl _⟩
    rw [if_neg (by omega)]; rfl
  | succ j ih =>
    intro m hj hm
    obtain ⟨h1, h2, h3⟩ := ih m (by omega) hm
    rw [List.range_succ, List.foldl_append]
    dsimp only [List.foldl_cons, List.foldl_nil]
    have hlt := hm j (by omega)
    have hle := h3 j (by omega)
    have hl : (Store.get [] (((List.range j).foldl (fun acc k => combineByte core (pa + k) (b k) acc) m).core core).combine ((pa + j) / 128)).length + 1 < 128 := by omega
    refine ⟨(combineByte_line core (pa + j) (b j) _ hl).1.trans h1, fun k => ?_, fun k hk => ?_⟩
    · rw [combineByte_combined _ _ _ _ hl, h2]
      by_cases hk : k = pa + j
      · subst hk; rw [if_pos rfl, if_pos (by omega)]; congr 2; omega
      · rw [if_neg hk]
        by_cases hr : pa ≤ k ∧ k < pa + j
        · rw [if_pos hr, if_pos (by omega)]
        · rw [if_neg hr, if_neg (by omega)]
    · rw [(combineByte_line core (pa + j) (b j) _ hl).2]
      have := h3 k hk
      split
      · rw [List.length_append, List.length_singleton]
        have := List.length_filter_le (fun e : Nat × Byte => decide (e.1 ≠ (pa + j) % 128)) (Store.get [] (((List.range j).foldl (fun acc k => combineByte core (pa + k) (b k) acc) m).core core).combine ((pa + k) / 128))
        omega
      · omega

theorem leBytes_at (n v j : Nat) (h : j < n) : (leBytes n v).getD j 0 = BitVec.ofNat 8 (v / 2 ^ (8 * j)) := leBytes_getD n v j h

theorem store_law (w g n : Nat) (o : Out) (m : Mach) (a : LaneAcc) (pl : Place) (hp : accPlace m w o.kind a = .ok pl) : let t := storeLane w g o n a m
    let holds := fun (old new : Memory) => Memory.wf old = true →
      Memory.wf new = true ∧ ∀ k, Memory.read new k = if pl.key ≤ k ∧ k < pl.key + n then BitVec.ofNat 8 (a.val.toNat / 2 ^ (8 * (k - pl.key))) else Memory.read old k
    t.scratch = m.scratch ∧ t.wgs = m.wgs ∧
    (pl.vault = true → t.hbm = m.hbm ∧ holds m.vault t.vault) ∧
    (pl.vault = false → t.vault = m.vault) ∧
    (pl.vault = false → pl.typ ≠ 1 → paTarget pl.key ≠ 2 → holds m.hbm t.hbm) ∧
    (pl.vault = false → pl.typ ≠ 1 → paTarget pl.key = 2 → t.hbm = m.hbm ∧ t.hostOut = m.hostOut ++ [(0, .window (fld pl.key 0 50) (leBytes n a.val.toNat))]) ∧
    (pl.vault = false → pl.typ = 1 → (∀ k, k < n → (Store.get [] (m.core (m.wg w).core).combine ((pl.key + k) / 128)).length + n < 128) → t.hbm = m.hbm ∧
      ∀ k, combined t (m.wg w).core k = if pl.key ≤ k ∧ k < pl.key + n then some (BitVec.ofNat 8 (a.val.toNat / 2 ^ (8 * (k - pl.key)))) else combined m (m.wg w).core k) := by
  intro t holds
  have ht : t = storeBytes (m.wg w).core (laneAgent w g a.lane) pl (leBytes n a.val.toNat) m := by
    show storeLane w g o n a m = _
    unfold storeLane
    dsimp only
    rw [hp]; rfl
  rw [ht]
  unfold storeBytes
  cases hv : pl.vault with
  | true =>
    rw [if_pos rfl]
    exact ⟨rfl, rfl, fun _ => ⟨rfl, fun hw => holds_writeN n _ _ _ hw⟩, (by intro h; cases h), (by intro h; cases h), (by intro h; cases h), (by intro h; cases h)⟩
  | false =>
    rw [if_neg (by decide)]
    by_cases ht1 : pl.typ = 1
    · rw [if_pos ht1]
      obtain ⟨s1, s2, s3⟩ := combineFold_same (m.wg w).core (fun k => pl.key + k) (fun k => (leBytes n a.val.toNat).getD k 0) (List.range (leBytes n a.val.toNat).length) m
      refine ⟨s2, s3, (by intro h; cases h), fun _ => s1, fun _ h => absurd ht1 h, fun _ h => absurd ht1 h, fun _ _ hc => ?_⟩
      rw [leBytes_length]
      obtain ⟨c1, c2, -⟩ := combineFold (m.wg w).core pl.key n (fun k => (leBytes n a.val.toNat).getD k 0) n m (Nat.le_refl _) hc
      refine ⟨c1, fun k => (c2 k).trans ?_⟩
      by_cases hr : pl.key ≤ k ∧ k < pl.key + n
      · rw [if_pos hr, if_pos hr]; congr 1; exact leBytes_at _ _ _ (by omega)
      · rw [if_neg hr, if_neg hr]
    · rw [if_neg ht1]
      obtain ⟨s1, s2, s3⟩ := writePa_same m (some (m.wg w).core) (laneAgent w g a.lane) pl.key (leBytes n a.val.toNat)
      refine ⟨s2, s3, (by intro h; cases h), fun _ => s1, fun _ _ h2 hw => ?_, fun _ _ h2 => ?_, fun _ h => absurd h ht1⟩
      · rw [(writePa_hbm m _ _ _ _ h2).1]; exact holds_writeN n _ _ _ hw
      · rw [writePa_out _ _ _ _ _ h2]; exact ⟨rfl, rfl⟩

theorem abortFold_data (q : Region) (rs : List Region) : ∀ m : Mach, sameData m (rs.foldl (fun acc r => abortYounger q r acc) m) := by
  induction rs with
  | nil => intro m; exact ⟨rfl, rfl, rfl, rfl⟩
  | cons r rs ih =>
    intro m
    refine sameData.trans ?_ (ih _)
    dsimp only [abortYounger]
    split <;> exact ⟨rfl, rfl, rfl, rfl⟩

theorem touchLine_keeps (w g l line : Nat) (m : Mach) : sameData m (touchLine w g l line m) := by
  unfold touchLine
  split
  · exact ⟨rfl, rfl, rfl, rfl⟩
  · exact sameData.trans (abortFold_data _ _ _) ⟨rfl, rfl, rfl, rfl⟩

theorem readLine_keeps (w g l a line : Nat) (m : Mach) : sameData m (readLine w g l a line m) := by
  unfold readLine
  split
  · exact ⟨rfl, rfl, rfl, rfl⟩
  · split
    · exact touchLine_keeps _ _ _ _ _
    · split
      · exact sameData.trans (b := modRegion w g l _ m) ⟨rfl, rfl, rfl, rfl⟩ (touchLine_keeps _ _ _ _ _)
      · exact ⟨rfl, rfl, rfl, rfl⟩

theorem regionLanded_keeps (w g dst n : Nat) (a : LaneAcc) (pa : Nat) (m : Mach) : sameData m (regionLanded w g dst n a pa m) := by
  unfold regionLanded
  split
  · exact ⟨rfl, rfl, rfl, rfl⟩
  · dsimp only
    split
    · exact ⟨rfl, rfl, rfl, rfl⟩
    · exact sameData.trans (b := modRegion w g a.lane _ m) ⟨rfl, rfl, rfl, rfl⟩ (readLine_keeps _ _ _ _ _ _)

theorem refreshCache_data (core : Nat) (pl : Place) (m : Mach) : sameData m (refreshCache core pl m) :=
  sameData_ite ⟨rfl, rfl, rfl, rfl⟩ ⟨rfl, rfl, rfl, rfl⟩

theorem homeBytes_keeps (m : Mach) (core : Nat) (pl : Place) (n : Nat) (cached : Bool) : sameData m (homeBytes m core pl n cached).2 := by
  unfold homeBytes
  split
  · exact ⟨rfl, rfl, rfl, rfl⟩
  · split
    · dsimp only; split <;> exact ⟨rfl, rfl, rfl, rfl⟩
    · exact refreshCache_data _ _ _

theorem readN_map (mem : Memory) (n : Nat) : ∀ a, Memory.readN mem a n = (List.range n).map fun k => Memory.read mem (a + k) := by
  induction n with
  | zero => intro a; rfl
  | succ n ih =>
    intro a
    show Memory.read mem a :: Memory.readN mem (a + 1) n = _
    rw [ih, List.range_succ_eq_map, List.map_cons, List.map_map]
    congr 1
    refine List.map_congr_left fun k _ => ?_
    show Memory.read mem (a + 1 + k) = Memory.read mem (a + (k + 1))
    congr 1; omega

theorem range_getD {α : Type} (f : Nat → α) (d : α) (n k : Nat) (h : k < n) : ((List.range n).map f).getD k d = f k := by
  rw [List.getD_eq_getElem?_getD, List.getElem?_map, List.getElem?_range h]; rfl

theorem homeBytes_at (m : Mach) (core : Nat) (pl : Place) (n k : Nat) (cached : Bool) (hk : k < n) (hp : paTarget pl.key ≠ 2)
    (hc : pl.vault = true ∨ cached = false ∨ pl.typ ≠ 0 ∨ Store.get [] (m.core core).cache (pl.key / 32) = []) :
    (homeBytes m core pl n cached).1.getD k 0 = if pl.vault then Memory.read m.vault (pl.key + k) else Memory.read m.hbm (pl.key + k) := by
  have hr : (readPa m pl.key n).getD k 0 = Memory.read m.hbm (pl.key + k) := by
    unfold readPa; rw [if_neg hp, readN_map]; exact range_getD _ _ _ _ hk
  unfold homeBytes
  cases hv : pl.vault with
  | true => rw [if_pos rfl]; dsimp only; rw [readN_map]; exact range_getD _ _ _ _ hk
  | false =>
    rw [if_neg (by decide)]
    split
    · rename_i hh
      rw [Bool.and_eq_true, decide_eq_true_eq] at hh
      have he : Store.get [] (m.core core).cache (pl.key / 32) = [] := by
        rcases hc with h | h | h | h
        · rw [hv] at h; cases h
        · rw [h] at hh; cases hh.1
        · exact absurd hh.2 h
        · exact h
      dsimp only
      rw [he]
      exact hr
    · exact hr

theorem load_law (w g n : Nat) (o : Out) (sext : Bool) (dst : Reg) (m : Mach) (a : LaneAcc) (cached : Bool) (ws : List LaneWrite) (pl : Place)
    (hp : accPlace m w o.kind a = .ok pl) : let t := loadLane w g o n sext dst cached a (ws, m)
    t.2.hbm = m.hbm ∧ t.2.vault = m.vault ∧ t.2.scratch = m.scratch ∧ t.2.wgs = m.wgs ∧
    (a.region = none → paTarget pl.key ≠ 2 → (pl.vault = true ∨ cached = false ∨ pl.typ ≠ 0 ∨ Store.get [] (m.core (m.wg w).core).cache (pl.key / 32) = []) →
      t.1 = ws ++ loadWrites n sext dst a.lane ((List.range n).map fun k =>
        match forwarded m (visibleOuts m (m.wg w).core w g) o.id pl.vault (pl.key + k), pl.vault with
        | some b, _ => b
        | none, true => Memory.read m.vault (pl.key + k)
        | none, false => (combined m (m.wg w).core (pl.key + k)).getD (Memory.read m.hbm (pl.key + k)))) := by
  intro t
  have ht : t = (let b := loadBytes m w g o.id pl n (cached && a.region.isNone)
    let buf := match a.region with | some (_, es) => es | none => []
    let bs := (List.range n).map fun k => ((buf.find? fun e => decide (e.1 = k)).map (·.2)).getD (b.1.getD k 0)
    (ws ++ loadWrites n sext dst a.lane bs, regionLanded w g dst.toNat n a pl.key b.2)) := by
    show loadLane w g o n sext dst cached a (ws, m) = _
    unfold loadLane
    dsimp only
    rw [hp]
    all_goals rfl
  have hd : sameData m t.2 := by
    rw [ht]
    exact sameData.trans (homeBytes_keeps m (m.wg w).core pl n (cached && a.region.isNone)) (regionLanded_keeps _ _ _ _ _ _ _)
  refine ⟨hd.2.1, hd.2.2.1, hd.2.2.2, hd.1, fun hr h2 hc => ?_⟩
  rw [ht]
  dsimp only
  congr 2
  refine List.map_congr_left fun k hk => ?_
  rw [hr]
  dsimp only [List.find?_nil, Option.map_none, Option.getD_none]
  unfold loadBytes
  dsimp only
  rw [range_getD _ _ _ _ (List.mem_range.1 hk)]
  cases forwarded m (visibleOuts m (m.wg w).core w g) o.id pl.vault (pl.key + k) with
  | some b => rfl
  | none =>
    dsimp only
    have hh := homeBytes_at m (m.wg w).core pl n k (cached && (none : Option (RForm × List (Nat × Byte))).isNone) (List.mem_range.1 hk) h2
      (by simpa using hc)
    rw [hh]
    cases hv : pl.vault with
    | true => rfl
    | false =>
      simp only [Bool.false_eq_true, if_false]
      cases combined m (m.wg w).core (pl.key + k) <;> rfl

theorem rmw_law (w g n : Nat) (o : Out) (op : RmwOp) (dst : Option Reg) (m : Mach) (a : LaneAcc) (ws : List LaneWrite) (pl : Place)
    (hp : accPlace m w o.kind a = .ok pl) (h2 : paTarget pl.key ≠ 2) : let t := rmwLane w g o op n dst a (ws, m)
    let old := leNat (Memory.readN m.hbm pl.key n)
    t.1 = ws ++ (match dst with | some d => regWritesOf d.toNat (n / 4) a.lane old | none => []) ∧ t.2.vault = m.vault ∧ t.2.scratch = m.scratch ∧
    (Memory.wf m.hbm = true → Memory.wf t.2.hbm = true ∧ ∀ k, Memory.read t.2.hbm k =
      match rmwValue op n a old with
      | some v => if pl.key ≤ k ∧ k < pl.key + n then BitVec.ofNat 8 (v / 2 ^ (8 * (k - pl.key))) else Memory.read m.hbm k
      | none => Memory.read m.hbm k) := by
  intro t old
  have ho : leNat (readPa m pl.key n) = old := by show _ = leNat _; unfold readPa; rw [if_neg h2]
  have ht : t = (match dst with | some d => ws ++ regWritesOf d.toNat (n / 4) a.lane old | none => ws,
      match rmwValue op n a old with | some v => writePa m (some (m.wg w).core) (laneAgent w g a.lane) pl.key (leBytes n v) | none => refreshCache (m.wg w).core pl m) := by
    show rmwLane w g o op n dst a (ws, m) = _
    unfold rmwLane
    dsimp only
    rw [hp]
    dsimp only
    rw [ho]
    all_goals rfl
  rw [ht]
  dsimp only
  refine ⟨by cases dst <;> simp, ?_, ?_, fun hw => ?_⟩
  · cases rmwValue op n a old with
    | none => exact (refreshCache_data _ _ _).2.2.1
    | some v => exact (writePa_same _ _ _ _ _).1
  · cases rmwValue op n a old with
    | none => exact (refreshCache_data _ _ _).2.2.2
    | some v => exact (writePa_same _ _ _ _ _).2.1
  · cases rmwValue op n a old with
    | none => dsimp only; rw [(refreshCache_data _ _ _).2.1]; exact ⟨hw, fun _ => rfl⟩
    | some v =>
      dsimp only
      rw [(writePa_hbm m _ _ _ _ h2).1]
      exact holds_writeN n v m.hbm pl.key hw

theorem land_law (w g id : Nat) (ws : List LaneWrite) (m : Mach) : let t := landOut w g id ws m
    t.hbm = m.hbm ∧ t.vault = m.vault ∧ t.scratch = m.scratch ∧ (t.grp w g).outs = (m.grp w g).outs.filter fun e => decide (e.id ≠ id) := by
  refine ⟨rfl, rfl, rfl, ?_⟩
  simp only [landOut, dropOut, landWrites, landedBy, grp_modG_same, outs_landAll, outs_landDue]
  rfl

end Sys2Proof.Laws
end

