-- ==== Sys2Proof/Laws/CoreSteps.lean ====
section
/-! SUPPORT. Laws of the steps of a core: fetching, granting a slot, waiting, landing. -/

namespace Sys2Proof.Laws

open Sys2Proof Sys2Proof.Machine

theorem charge_cycle (w h i s : Nat) (m : Mach) : (charge w h i s m).cycle = m.cycle := by
  unfold charge; split <;> rfl

theorem put_put {α : Type} (s : Store α) (k : Nat) (a b : α) : Store.put (Store.put s k a) k b = Store.put s k b := by
  induction s with
  | nil => simp [Store.put]
  | cons e r ih =>
    obtain ⟨j, u⟩ := e
    simp only [Store.put]
    split
    · simp [Store.put]
    · split
      · simp [Store.put]
      · rename_i h1 h2; simp only [Store.put, h1, h2, if_false, ih]

theorem modW_modW (m : Mach) (w : Nat) (f h : Wg → Wg) : (m.modW w f).modW w h = m.modW w fun x => h (f x) := by
  simp only [Mach.modW, Store.upd, put_put, Store_get_put_same]

theorem modG_modG (m : Mach) (w g : Nat) (f h : Machine.Group → Machine.Group) : (m.modG w g f).modG w g h = m.modG w g fun y => h (f y) := by
  simp only [Mach.modG, modW_modW, Store.upd, put_put, Store_get_put_same]

theorem modG_congr (m : Mach) (w g : Nat) (f h : Machine.Group → Machine.Group) (he : f (m.grp w g) = h (m.grp w g)) : m.modG w g f = m.modG w g h := by
  have : Store.upd default (m.wg w).groups g f = Store.upd default (m.wg w).groups g h := by
    unfold Store.upd; exact congrArg _ he
  show m.modW w _ = m.modW w _
  unfold Mach.modW
  congr 1
  unfold Store.upd
  congr 1
  show ({ m.wg w with groups := Store.upd default (m.wg w).groups g f } : Wg) = { m.wg w with groups := Store.upd default (m.wg w).groups g h }
  rw [this]

theorem best_min (m : Mach) (slot : Nat) : ∀ (es : List (Nat × Nat)) (e : Nat × Nat), bestGroup m slot es = some e →
    e ∈ es ∧ ∀ f ∈ es, rankBefore (slotRank m slot f.1 f.2) (slotRank m slot e.1 e.2) = false := by
  have irr : ∀ a, rankBefore a a = false := by intro a; simp [rankBefore]
  have asym : ∀ a b, rankBefore a b = true → rankBefore b a = false := by
    intro a b h; simp [rankBefore] at *; omega
  have neg : ∀ a b c, rankBefore a b = false → rankBefore b c = false → rankBefore a c = false := by
    intro a b c h k; simp [rankBefore] at *; omega
  intro es
  induction es with
  | nil => intro e h; cases h
  | cons x xs ih =>
    intro e h
    unfold bestGroup at h
    cases hb : bestGroup m slot xs with
    | none =>
      rw [hb] at h; cases h
      refine ⟨List.mem_cons_self, fun f hf => ?_⟩
      cases xs with
      | nil => rw [List.mem_singleton] at hf; subst hf; exact irr _
      | cons z zs => unfold bestGroup at hb; split at hb <;> [cases hb; (split at hb <;> cases hb)]
    | some f0 =>
      rw [hb] at h
      obtain ⟨h1, h2⟩ := ih f0 hb
      dsimp only at h
      by_cases hr : rankBefore (slotRank m slot f0.1 f0.2) (slotRank m slot x.1 x.2) = true
      · rw [if_pos hr] at h; cases h
        refine ⟨List.mem_cons_of_mem _ h1, fun f hf => ?_⟩
        rcases List.mem_cons.1 hf with rfl | hf
        · exact asym _ _ hr
        · exact h2 f hf
      · rw [if_neg hr] at h; cases h
        refine ⟨List.mem_cons_self, fun f hf => ?_⟩
        rcases List.mem_cons.1 hf with rfl | hf
        · exact irr _
        · exact neg _ _ _ (h2 f hf) (by simpa using hr)

theorem sort_perm {α : Type} (le : α → α → Bool) (xs : List α) : (sortBy le xs).Perm xs := by
  have hp : ∀ x (ys : List α), (placeBy le x ys).Perm (x :: ys) := by
    intro x ys
    induction ys with
    | nil => exact List.Perm.refl _
    | cons y ys ih =>
      unfold placeBy
      split
      · exact List.Perm.refl _
      · exact (List.Perm.cons y ih).trans (List.Perm.swap x y ys)
  induction xs with
  | nil => exact List.Perm.refl _
  | cons x xs ih => exact (hp x _).trans (List.Perm.cons x ih)

theorem sort_sorted (xs : List Mover) : (sortBy (fun a b => decide (a.key ≤ b.key)) xs).Pairwise fun a b => a.key ≤ b.key := by
  have hp : ∀ (x : Mover) (ys : List Mover), ys.Pairwise (fun a b => a.key ≤ b.key) → (placeBy (fun a b => decide (a.key ≤ b.key)) x ys).Pairwise (fun a b => a.key ≤ b.key) ∧
      ∀ z ∈ placeBy (fun a b => decide (a.key ≤ b.key)) x ys, z = x ∨ z ∈ ys := by
    intro x ys
    induction ys with
    | nil => intro _; exact ⟨List.pairwise_singleton _ _, fun z hz => .inl (List.mem_singleton.1 hz)⟩
    | cons y ys ih =>
      intro h
      obtain ⟨h1, h2⟩ := List.pairwise_cons.1 h
      obtain ⟨i1, i2⟩ := ih h2
      unfold placeBy
      split
      · rename_i hle
        have hle := of_decide_eq_true hle
        refine ⟨List.pairwise_cons.2 ⟨fun z hz => ?_, h⟩, fun z hz => List.mem_cons.1 hz⟩
        rcases List.mem_cons.1 hz with rfl | hz
        · exact hle
        · exact Nat.le_trans hle (h1 z hz)
      · rename_i hle
        have hle : y.key ≤ x.key := by have : ¬ x.key ≤ y.key := by simpa using hle
                                       omega
        refine ⟨List.pairwise_cons.2 ⟨fun z hz => ?_, i1⟩, fun z hz => ?_⟩
        · rcases i2 z hz with rfl | hz
          · exact hle
          · exact h1 z hz
        · rcases List.mem_cons.1 hz with rfl | hz
          · exact .inr List.mem_cons_self
          · rcases i2 z hz with rfl | hz
            · exact .inl rfl
            · exact .inr (List.mem_cons_of_mem _ hz)
  induction xs with
  | nil => exact List.Pairwise.nil
  | cons x xs ih => exact (hp x _ ih).1

theorem landPend_due (now : Nat) (ps kept : List Pend) (y : Machine.Group) (h : ∀ p ∈ kept, now < p.due) : ∀ p ∈ (landPend now kept y ps).2, now < p.due := by
  induction ps generalizing kept y with
  | nil => exact h
  | cons q qs ih =>
    simp only [landPend]
    split
    · refine ih _ _ fun p hp => ?_
      obtain ⟨q', hq, rfl⟩ := List.mem_map.1 hp
      exact h q' hq
    · rename_i hn
      refine ih _ _ fun p hp => ?_
      rcases List.mem_append.1 hp with hp | hp
      · exact h p hp
      · rw [List.mem_singleton.1 hp]; omega

theorem landDue_laws (y : Machine.Group) (n : Nat) : (∀ p ∈ (y.landDue n).pend, n < p.due) ∧ (∀ r l, (y.landDue n).landEvery.reg r l = y.landEvery.reg r l) ∧
    (∀ p l, (y.landDue n).landEvery.pred p l = y.landEvery.pred p l) ∧ ∀ l, Store.get 0 (y.landDue n).landEvery.fpflags l = Store.get 0 y.landEvery.fpflags l := by
  refine ⟨landPend_due n y.pend [] y (by simp), fun r l => ?_, fun p l => ?_, fun l => landDue_flags y n l⟩
  · unfold Group.reg; exact landDue_regs y n _
  · unfold Group.pred; rw [landDue_preds]

/-- What a new TLB entry comes to: it is there, and the capacity is kept. -/
theorem tlbPut_law (p c va : Nat) (t : Xlat) (cap pick : Nat) (es : List TlbEntry) (h : es.any (TlbEntry.covers p c va) = false) :
    let e : TlbEntry := ⟨p, c, va / 2 ^ t.size, t.size, t.pa - va % 2 ^ t.size, t.r, t.w, t.x, t.typ⟩
    e ∈ tlbPut cap pick p c va t es ∧ (es.length < cap → tlbPut cap pick p c va t es = es ++ [e]) ∧
      (0 < cap → es.length ≤ cap → (tlbPut cap pick p c va t es).length ≤ cap) := by
  intro e
  unfold tlbPut
  rw [if_neg (by rw [h]; decide)]
  refine ⟨List.mem_append_right _ List.mem_cons_self, fun hl => by rw [if_neg (Nat.not_le.2 hl)], fun h0 hl => ?_⟩
  rw [List.length_append, List.length_singleton]
  split
  · rename_i hf
    rw [List.length_eraseIdx]
    have := Nat.mod_lt pick h0
    split <;> omega
  · omega

theorem clear_counts {m : Mach} {w g : Nat} {k : BitVec 8} (h : ∀ o ∈ (m.grp w g).outs, k.getLsbD o.cls = false) : countsZero m w g k = true := by
  unfold countsZero
  rw [List.all_eq_true]
  intro o ho
  rw [h o ho]; rfl

theorem header_ok {h : Word} {n : Nat} (h1 : (bits h 0 4).toNat = 0xA) (h2 : (bits h 28 4).toNat ≠ 0) (h3 : (bits h 24 3).toNat < 6) (h4 : bits h 4 3 = 0)
    (h5 : n + (bits h 28 4).toNat ≤ 24) : headerCheck h n = none := by
  unfold headerCheck
  dsimp only
  rw [if_neg (by omega), if_neg (by simpa using h4), if_neg (by omega)]

theorem header_bad {h : Word} {n : Nat} (hb : (bits h 0 4).toNat ≠ 0xA ∨ bits h 28 4 = 0 ∨ 6 ≤ (bits h 24 3).toNat) : headerCheck h n = some .illegalHeader := by
  unfold headerCheck
  refine if_pos ?_
  rcases hb with hb | hb | hb
  · exact .inl hb
  · exact .inr (.inl (by rw [hb]; rfl))
  · exact .inr (.inr hb)

theorem clauseFetch_now {w g : Nat} {m : Mach} {r : Run} (h1 : (m.grp w g).run = some r) (h2 : wgActive (m.wg w) = true) (h3 : r.fetched = false) (h4 : (slotOf m w g).isSome = true)
    (h5 : clauseWaits m w r = false) : clauseFetch w g m = fetchClause w g r (clauseTouch w r m) := by
  unfold clauseFetch
  rw [h1]
  exact if_pos (by rw [h2, h3, h4, h5]; rfl)

theorem waitPoint_now {w g : Nat} {n : Mach} {r : Run} (h1 : wgActive (n.wg w) = true) (h2 : (n.grp w g).held = none) (h3 : (n.grp w g).exiting = none)
    (h4 : (n.grp w g).run = some r) (h5 : r.waiting = true) : waitPoint w g n = waitInRun w g r n := by
  unfold waitPoint
  dsimp only
  rw [if_neg (by rw [h1]; decide), h2, h3, h4]
  exact if_pos h5

theorem lane_fault (fs : List (Nat × Nat × Cause)) (c : Cause) (hc : ∀ e ∈ fs, e.2.2 = c) (hn : fs ≠ []) : ∃ f, laneFault fs = some f ∧ f.cause = causeOfCode (causeCode c) := by
  cases fs with
  | nil => exact absurd rfl hn
  | cons f fs =>
    refine ⟨_, rfl, ?_⟩
    dsimp only
    congr 1
    rw [hc f List.mem_cons_self]
    have : ∀ (xs : List (Nat × Nat × Cause)), (∀ e ∈ xs, e.2.2 = c) → xs.foldl (fun acc e => min acc (causeCode e.2.2)) (causeCode c) = causeCode c := by
      intro xs
      induction xs with
      | nil => intro _; rfl
      | cons x xs ih =>
        intro hx
        rw [List.foldl_cons, hx x List.mem_cons_self, Nat.min_self]
        exact ih fun e he => hx e (List.mem_cons_of_mem _ he)
    exact this _ hc

end Sys2Proof.Laws
end

