-- ==== Sys2Proof/Laws/EngineSteps.lean ====
section
/-! SUPPORT. Laws of the steps of engines: sectors, fills, passes, collection commands. -/

namespace Sys2Proof.Laws

open Sys2Proof Sys2Proof.Machine

theorem fold_set {α : Type} (f : α → Word) (xs : List α) : ∀ (n : Nat) (s : Store Word), Store.wf 0 s = true →
    (∀ k, k < n ∨ n + xs.length ≤ k → Store.get 0 ((xs.zipIdx n).foldl (fun acc e => Store.set 0 acc e.2 (f e.1)) s) k = Store.get 0 s k) ∧
    ∀ j x, xs[j]? = some x → Store.get 0 ((xs.zipIdx n).foldl (fun acc e => Store.set 0 acc e.2 (f e.1)) s) (n + j) = f x := by
  induction xs with
  | nil => intro n s _; exact ⟨fun _ _ => rfl, fun j x h => by simp at h⟩
  | cons y ys ih =>
    intro n s hw
    have hw' := Store_set_wf (0 : Word) s n (f y) hw
    obtain ⟨h1, h2⟩ := ih (n + 1) _ hw'
    rw [List.zipIdx_cons, List.foldl_cons]
    refine ⟨fun k hk => ?_, fun j x hx => ?_⟩
    · rw [h1 k (by simp at hk; omega)]
      exact Store_get_set_other (0 : Word) s n k _ hw (by simp at hk; omega)
    · cases j with
      | zero =>
        simp at hx; subst hx
        rw [h1 (n + 0) (by omega)]
        exact Store_get_set_same (0 : Word) s n _ hw
      | succ j =>
        have := h2 j x (by simpa using hx)
        rw [show n + (j + 1) = n + 1 + j by omega]; exact this

theorem passTile_elems (f : Word) (a b : Memory) (t : Tile) (n i : Nat) (h : i < n) :
    Store.get 0 ((((List.range n).map (passElem f a b t.elems)).zipIdx).foldl (fun acc e => Store.set 0 acc e.2 (BitVec.ofNat 32 e.1.val)) ([] : Store Word)) i =
      BitVec.ofNat 32 (passElem f a b t.elems i).val := by
  have := (fold_set (fun e : Acc => BitVec.ofNat 32 e.val) ((List.range n).map (passElem f a b t.elems)) 0 [] rfl).2 i (passElem f a b t.elems i) (by simp [h])
  rw [Nat.zero_add] at this
  exact this

theorem read_bytes : ∀ (bs : List Byte) (mem : Memory) (a k : Nat), Memory.wf mem = true →
    Memory.read (Memory.writeN mem a bs) k = if a ≤ k ∧ k < a + bs.length then bs.getD (k - a) 0 else Memory.read mem k := by
  intro bs
  induction bs with
  | nil => intro mem a k _; rw [if_neg (by simp)]; rfl
  | cons b bs ih =>
    intro mem a k hw
    show Memory.read (Memory.writeN (Memory.write mem a b) (a + 1) bs) k = _
    rw [ih _ _ _ (Memory_write_wf _ _ _ hw)]
    by_cases hk : k = a
    · subst hk
      rw [if_neg (by omega), if_pos (by simp), Memory_read_write_same _ _ _ hw]
      simp
    · rw [Memory_read_write_other _ _ _ _ hw hk]
      by_cases h2 : a + 1 ≤ k ∧ k < a + 1 + bs.length
      · rw [if_pos h2, if_pos (by simp; omega), show k - a = (k - (a + 1)) + 1 by omega]; rfl
      · rw [if_neg h2, if_neg (by simp; omega)]

theorem place_head {α : Type} (le : α → α → Bool) (tot : ∀ a b, le a b = true ∨ le b a = true) (tr : ∀ a b c, le a b = true → le b c = true → le a c = true) (xs : List α) :
    ∀ p ps, sortBy le xs = p :: ps → p ∈ xs ∧ ∀ q ∈ xs, le p q = true := by
  induction xs with
  | nil => intro p ps h; cases h
  | cons x xs ih =>
    intro p ps h
    have h' : placeBy le x (sortBy le xs) = p :: ps := h
    have selfLe : le x x = true := by rcases tot x x with h | h <;> exact h
    cases hs : sortBy le xs with
    | nil =>
      rw [hs] at h'; cases h'
      have hx : xs = [] := by
        cases xs with
        | nil => rfl
        | cons y ys =>
          have hs' : placeBy le y (sortBy le ys) = [] := hs
          cases hy : sortBy le ys with
          | nil => rw [hy] at hs'; cases hs'
          | cons z zs => rw [hy] at hs'; unfold placeBy at hs'; split at hs' <;> cases hs'
      subst hx
      exact ⟨List.mem_cons_self, fun q hq => by rw [List.mem_singleton.1 hq]; exact selfLe⟩
    | cons y ys =>
      rw [hs] at h'
      obtain ⟨i1, i2⟩ := ih y ys hs
      unfold placeBy at h'
      split at h'
      · rename_i hle
        cases h'
        refine ⟨List.mem_cons_self, fun q hq => ?_⟩
        rcases List.mem_cons.1 hq with rfl | hq
        · exact selfLe
        · exact tr _ _ _ hle (i2 q hq)
      · rename_i hle
        cases h'
        refine ⟨List.mem_cons_of_mem _ i1, fun q hq => ?_⟩
        rcases List.mem_cons.1 hq with rfl | hq
        · rcases tot q p with h | h
          · exact absurd h hle
          · exact h
        · exact i2 q hq

theorem passBefore_total (now : Nat) (a b : Pass) : passBefore now a b = true ∨ passBefore now b a = true := by
  simp only [passBefore, Bool.or_eq_true, Bool.and_eq_true, decide_eq_true_eq]; omega

theorem passBefore_trans (now : Nat) (a b c : Pass) (h : passBefore now a b = true) (k : passBefore now b c = true) : passBefore now a c = true := by
  simp only [passBefore, Bool.or_eq_true, Bool.and_eq_true, decide_eq_true_eq] at *; omega

theorem pass_first (now : Nat) (xs : List Pass) (p : Pass) (ps : List Pass) (h : sortBy (passBefore now) xs = p :: ps) : p ∈ xs ∧ ∀ q ∈ xs,
    min 7 (q.base + (now - q.at_) / 256) ≤ min 7 (p.base + (now - p.at_) / 256) ∧ (min 7 (q.base + (now - q.at_) / 256) = min 7 (p.base + (now - p.at_) / 256) → p.at_ ≤ q.at_) := by
  obtain ⟨h1, h2⟩ := place_head (passBefore now) (passBefore_total now) (passBefore_trans now) xs p ps h
  refine ⟨h1, fun q hq => ?_⟩
  have := h2 q hq
  show passPrio now q ≤ passPrio now p ∧ (passPrio now q = passPrio now p → p.at_ ≤ q.at_)
  simp only [passBefore, Bool.or_eq_true, Bool.and_eq_true, decide_eq_true_eq] at this; omega

theorem passTile_elem (f : Word) (a b : Memory) (t : Tile) (i : Nat) (h : i < 4096) : Store.get 0 (passTile f a b t).elems i = BitVec.ofNat 32 (passElem f a b t.elems i).val := by
  unfold passTile
  generalize 4096 = n at *
  exact passTile_elems f a b t n i h

theorem passTile_law (f : Word) (a b : Memory) (t : Tile) : let u := passTile f a b t
    (∀ i, i < 4096 → Store.get 0 u.elems i = BitVec.ofNat 32 (passElem f a b t.elems i).val) ∧ u.retired = (t.retired + 1) % 65536 ∧ u.int = intPass f ∧ u.inUse = true ∧ u.dirty = true ∧
      u.bound = none ∧ u.atEngine = t.atEngine := by
  intro u
  refine ⟨fun i h => passTile_elem f a b t i h, ?_⟩
  show (passTile f a b t).retired = _ ∧ (passTile f a b t).int = _ ∧ (passTile f a b t).inUse = _ ∧ (passTile f a b t).dirty = _ ∧ (passTile f a b t).bound = _ ∧ (passTile f a b t).atEngine = _
  unfold passTile
  generalize 4096 = n
  exact ⟨rfl, rfl, rfl, rfl, rfl, rfl⟩

theorem fill_law (w n id : Nat) (rows : List (List Byte)) (m : Mach) (hw : Memory.wf (m.oslot w n).bytes = true) : let q := (fillBytes w n id rows m).oslot w n
    q.inUse = true ∧ q.dirty = true ∧ q.claimed = (m.oslot w n).claimed ∧
      ∀ k, Memory.read q.bytes k = if k < rows.flatten.length then rows.flatten.getD k 0 else Memory.read (m.oslot w n).bytes k := by
  have h : (fillBytes w n id rows m).oslot w n = { m.oslot w n with bytes := Memory.writeN (m.oslot w n).bytes 0 rows.flatten, rel := if id < (m.oslot w n).relId then Memory.writeN (m.oslot w n).rel 0 rows.flatten else (m.oslot w n).rel, inUse := true, dirty := true } := by
    show Store.get default ((Mach.modW _ w _).wg w).oslots n = _
    rw [wg_modW_same]
    show Store.get default ((Mach.modSlot m w n _).wg w).oslots n = _
    unfold Mach.modSlot
    rw [wg_modW_same]
    dsimp only
    rw [Store_get_upd_same]
    rfl
  rw [h]
  refine ⟨rfl, rfl, rfl, fun k => ?_⟩
  show Memory.read (Memory.writeN (m.oslot w n).bytes 0 rows.flatten) k = _
  rw [read_bytes _ _ _ _ hw]
  simp

theorem collTry_now {k : Nat} {m : Mach} {c : CollCmd} (h1 : collReady m c = true) (h2 : ∀ j, c.op ≠ .nbr j) (h3 : c.op ≠ .thaw) :
    collTry k m c = match collPerform (m.modLane k (ELane.take c)) c with | .error .wait => none | r => some (collFinish c r (touchTlb c.site c.part c.ctx c.arg.hdr.toNat (m.modLane k (ELane.take c)))) := by
  unfold collTry
  rw [if_neg (by rw [h1]; decide)]; dsimp only
  split
  · rename_i h _; exact absurd h (h2 _)
  · rw [if_neg (by simp [h3])]; all_goals rfl

theorem collPerform_elem {m : Mach} {c : CollCmd} {s : Sealed} {x : Coll} (h1 : collDenied m c = none) (h2 : collAt m c c.arg.hdr.toNat = .ok (s, x)) (h3 : c.op = .ins ∨ c.op = .rem ∨ c.op = .move) :
    collPerform m c = match elemCmd c x with | .error e => .error e | .ok (y, dn, dv, av) => .ok ⟨writeColl s y m, dn, dv, av⟩ := by
  unfold collPerform
  rw [h1]; dsimp only
  have : onColl m c (elemCmd c) = match elemCmd c x with | .error e => .error e | .ok (y, dn, dv, av) => .ok ⟨writeColl s y m, dn, dv, av⟩ := by
    unfold onColl; rw [h2]; all_goals rfl
  rcases h3 with h3 | h3 | h3 <;> rw [h3] <;> exact this

end Sys2Proof.Laws
end

