-- ==== Sys2Proof/Laws/HostSteps.lean ====
section
/-! SUPPORT. Laws of launches, of workgroups' lives and of host commands. -/

namespace Sys2Proof.Laws

open Sys2Proof Sys2Proof.Machine

theorem find_down (n : Nat) (f : Nat → Bool) (k : Nat) (hk : k < n) (h1 : f k = true) (h2 : ∀ j, k < j → j < n → f j = false) : (List.range n).reverse.find? f = some k := by
  induction n with
  | zero => omega
  | succ n ih =>
    rw [List.range_succ, List.reverse_append]
    show (n :: (List.range n).reverse).find? f = some k
    by_cases h : k = n
    · subst h; rw [List.find?_cons, h1]
    · rw [List.find?_cons, h2 n (by omega) (by omega)]
      exact ih (by omega) fun j a b => h2 j a (by omega)

theorem find_up (n : Nat) (f : Nat → Bool) (k : Nat) (hk : k < n) (h1 : f k = true) (h2 : ∀ j, j < k → f j = false) : (List.range n).find? f = some k := by
  induction n with
  | zero => omega
  | succ n ih =>
    rw [List.range_succ, List.find?_append]
    by_cases h : k = n
    · subst h
      have : (List.range k).find? f = none := by
        rw [List.find?_eq_none]; intro j hj; rw [h2 j (List.mem_range.1 hj)]; decide
      rw [this]; simp [h1]
    · rw [ih (by omega)]; rfl

theorem findSome_down {α : Type} (n : Nat) (f : Nat → Option α) (k : Nat) (v : α) (hk : k < n) (h1 : f k = some v) (h2 : ∀ j, k < j → j < n → f j = none) :
    (List.range n).reverse.findSome? f = some v := by
  induction n with
  | zero => omega
  | succ n ih =>
    rw [List.range_succ, List.reverse_append]
    show (n :: (List.range n).reverse).findSome? f = some v
    by_cases h : k = n
    · subst h; rw [List.findSome?_cons, h1]
    · rw [List.findSome?_cons, h2 n (by omega) (by omega)]
      exact ih (by omega) fun j a b => h2 j a (by omega)

theorem read_drop (mem : Memory) (lo hi a : Nat) : ∀ b, Store.wfFrom (0 : Byte) b mem = true → Memory.read (Memory.dropRange mem lo hi) a = if lo ≤ a ∧ a < hi then 0 else Memory.read mem a := by
  unfold Memory.read Memory.dropRange
  induction mem with
  | nil => intro b _; show (0 : Byte) = if lo ≤ a ∧ a < hi then 0 else 0; split <;> rfl
  | cons e es ih =>
    intro b hw
    obtain ⟨k, v⟩ := e
    simp only [Store.wfFrom, Bool.and_eq_true] at hw
    have hes := ih (k + 1) hw.2
    have hget : ∀ (xs : Store Byte), Store.get (0 : Byte) ((k, v) :: xs) a = if a = k then v else if a < k then 0 else Store.get 0 xs a := fun _ => rfl
    by_cases hb : (decide (k < lo) || decide (hi ≤ k)) = true
    · rw [List.filter_cons_of_pos (by exact hb), hget, hget, hes]
      simp only [Bool.or_eq_true, decide_eq_true_eq] at hb
      by_cases ha : a = k
      · subst ha; rw [if_pos rfl, if_pos rfl, if_neg (by omega)]
      · rw [if_neg ha, if_neg ha]
        by_cases hl : a < k
        · rw [if_pos hl, if_pos hl]; split <;> rfl
        · rw [if_neg hl, if_neg hl]
    · rw [List.filter_cons_of_neg (by exact hb), hget, hes]
      simp only [Bool.or_eq_true, decide_eq_true_eq] at hb
      by_cases hr : lo ≤ a ∧ a < hi
      · rw [if_pos hr, if_pos hr]
      · rw [if_neg hr, if_neg hr, if_neg (by omega)]
        by_cases hl : a < k
        · rw [if_pos hl]; exact Store_get_below (0 : Byte) es (k + 1) a hw.2 (by omega)
        · rw [if_neg hl]

theorem read_drops (rs : List (Nat × Nat)) (a : Nat) : ∀ mem : Memory, Memory.wf mem = true → Memory.read mem a = 0 ∨ (∃ r ∈ rs, r.1 ≤ a ∧ a < r.1 + r.2) →
    Memory.read (rs.foldl (fun acc r => Memory.dropRange acc r.1 (r.1 + r.2)) mem) a = 0 := by
  induction rs with
  | nil => intro mem _ h; rcases h with h | ⟨r, hr, _⟩; exact h; cases hr
  | cons r rs ih =>
    intro mem hw h
    rw [List.foldl_cons]
    refine ih _ (Memory_dropRange_wf _ _ _ hw) ?_
    rw [read_drop mem _ _ a 0 hw]
    rcases h with h | ⟨q, hq, h⟩
    · left; rw [h]; split <;> rfl
    · rcases List.mem_cons.1 hq with rfl | hq
      · left; rw [if_pos h]
      · right; exact ⟨q, hq, h⟩

theorem get_del {α : Type} (d : α) (s : Store α) (k : Nat) : Store.get d (Store.del s k) k = d := by
  unfold Store.del
  induction s with
  | nil => rfl
  | cons e es ih =>
    obtain ⟨b, v⟩ := e
    by_cases h : b = k
    · subst h; rw [List.filter_cons_of_neg (by simp)]; exact ih
    · rw [List.filter_cons_of_pos (by simp [h])]
      show (if k = b then v else if k < b then d else Store.get d (es.filter fun e => decide (e.1 ≠ k)) k) = d
      rw [if_neg (fun e => h e.symm), ih]; split <;> rfl

theorem queueCands_iff (m : Mach) (p k q : Nat) : q ∈ queueCands m p k ↔ q < 64 ∧ queueOpen m p q = true ∧ (bits (queueWord m p q) 1 3).toNat = k ∧ queueStopped m p q = false ∧
    ∃ l e, queueHead m p q = some l ∧ launchPlan m l = some e := by
  unfold queueCands
  rw [List.mem_filter, List.mem_range]
  have : ((queueHead m p q).bind (launchPlan m)).isSome = true ↔ ∃ l e, queueHead m p q = some l ∧ launchPlan m l = some e := by
    cases h : queueHead m p q with
    | none => simp
    | some l =>
      cases h2 : launchPlan m l with
      | none => simp [h2]
      | some e => exact ⟨fun _ => ⟨l, e, rfl, h2⟩, fun _ => by simp [h2]⟩
  simp only [Bool.and_eq_true, decide_eq_true_eq, Bool.not_eq_true', this]
  constructor
  · rintro ⟨a, ⟨⟨⟨b, c⟩, d⟩, e⟩⟩; exact ⟨a, b, c, d, e⟩
  · rintro ⟨a, b, c, d, e⟩; exact ⟨a, ⟨⟨b, c⟩, d⟩, e⟩

theorem send_ok {n : Nat} (h : 16 ≤ n ∧ n ≤ 4096 ∧ n % 16 = 0) : sendOk n = true := by simp [sendOk, h.1, h.2.1, h.2.2]
theorem send_bad {n : Nat} (h : ¬ (16 ≤ n ∧ n ≤ 4096 ∧ n % 16 = 0)) : sendOk n = false := by
  rw [← Bool.not_eq_true]; intro hh; apply h; simp [sendOk] at hh; exact ⟨hh.1.1, hh.1.2, hh.2⟩

theorem rootLaunch_now {p c : Nat} {a : DWord} {m : Mach} {v : BlockRead} (h1 : (m.part p).made = true) (h2 : (m.ctx p c).state = 1) (h3 : readBlock m p c a true = v) :
    rootLaunch p c a m = (match (generalizing := false) v with
      | .wait => m
      | .fault _ => toHost p .invalid m
      | .bad _ _ => toHost p .invalid m
      | .ok b => (match (generalizing := false) queueFor m p c b.priority with
        | none => toHost p .busy m
        | some q => if (m.part p).pool = 0 then toHost p .busy m else toHost p .ack (enterQueue ⟨p, c, a, none, none⟩ q b true (m.modP p fun z => { z with pool := z.pool - 1 })))) := by
  unfold rootLaunch
  rw [if_neg (by rw [h1, h2]; simp), h3]; all_goals rfl

theorem admissionStop_now {m : Mach} {p q : Nat} (h1 : q < 64) (h2 : headStarved m p q = true) (h3 : ∀ s, (m.part p).stopped = some s → stopLasts m p s = false)
    (h4 : ∀ j, j < 64 → headStarved m p j = true → qPrio (queueWord m p j) < qPrio (queueWord m p q) ∨ (qPrio (queueWord m p j) = qPrio (queueWord m p q) ∧ q ≤ j)) :
    admissionStop p m = m.modP p fun z => { z with stopped := (queueHead m p q).map fun k => (q, k) } := by
  unfold admissionStop
  extract_lets beats
  have hb : ∀ x, beats x = true := by
    intro x
    show (match (generalizing := false) (m.part p).stopped with | none => true | some s => _) = true
    cases hs : (m.part p).stopped with
    | none => rfl
    | some s => simp [h3 s hs]
  simp only [hb, Bool.and_true]
  have hlt : qPrio (queueWord m p q) < 8 := by
    unfold qPrio bits; exact BitVec.isLt _
  rw [findSome_down 8 _ (qPrio (queueWord m p q)) q hlt]
  · refine find_up 64 _ q h1 (by simp [h2]) fun j hj => ?_
    cases hs : headStarved m p j with
    | false => simp
    | true =>
      rcases h4 j (by omega) hs with h | ⟨h, h'⟩
      · simp; omega
      · omega
  · intro j hj hj8
    rw [List.find?_eq_none]
    intro x hx
    rw [List.mem_range] at hx
    cases hs : headStarved m p x with
    | false => simp
    | true =>
      rcases h4 x hx hs with h | ⟨h, h'⟩
      · simp; omega
      · simp; omega

theorem stallTimeout_now {m : Mach} {w : Nat} (h1 : wgActive (m.wg w) = true) (h2 : (m.wg w).yieldPending = true) (h3 : (m.wg w).preempt = none) (h4 : ∃ g ∈ (m.wg w).groupIds, groupParked m w g = false)
    (h5 : ∀ g ∈ (m.wg w).groupIds, groupParked m w g = false → standsStill m w g = true)
    (h6 : stallFrom m w + (if (m.wg w).stallSkip.1 = stallFrom m w then (m.wg w).stallSkip.2 else 0) + 1300 ≤ m.cycle) : stallTimeout w m = requestSave .full w m := by
  unfold stallTimeout; dsimp only
  refine if_pos ?_
  rw [h1, h2, h3, decide_eq_true h6]
  obtain ⟨g, hg, hp⟩ := h4
  have ha : (((m.wg w).groupIds.filter fun g => !(groupParked m w g)).isEmpty) = false := by
    rw [← Bool.not_eq_true, List.isEmpty_iff]; intro he
    have : g ∈ (m.wg w).groupIds.filter fun g => !(groupParked m w g) := List.mem_filter.2 ⟨hg, by rw [hp]; rfl⟩
    rw [he] at this; cases this
  have hb : ((m.wg w).groupIds.filter fun g => !(groupParked m w g)).all (standsStill m w) = true := by
    rw [List.all_eq_true]; intro x hx
    obtain ⟨hx, hy⟩ := List.mem_filter.1 hx
    exact h5 x hx (by simpa using hy)
  rw [ha, hb]; rfl

theorem quantumStart_now {m : Mach} {p c : Nat} (h1 : waitsOut m p c = true) (h2 : ∀ v ∈ m.wgIds, (m.wg v).part = p → (m.wg v).ctx ≠ c → runnable m v = false)
    (h3 : ∀ d, d < 16 → (m.ctx p d).quantum = false) (h4 : ∀ d, d < 16 → d ≠ c → waitsOut m p d = true →
      (m.ctx p c).outSince < (m.ctx p d).outSince ∨ ((m.ctx p c).outSince = (m.ctx p d).outSince ∧ c < d)) :
    quantumStart p c m = m.modC p c fun x => { x with quantum := true, outSince := m.cycle } := by
  unfold quantumStart; dsimp only
  refine if_pos ?_
  rw [h1]
  have ha : ((m.wgIds.filter fun w => decide ((m.wg w).part = p) && decide ((m.wg w).ctx ≠ c)).any (runnable m)) = false := by
    rw [List.any_eq_false]; intro v hv
    obtain ⟨hv, hx⟩ := List.mem_filter.1 hv
    rw [Bool.and_eq_true] at hx
    rw [h2 v hv (of_decide_eq_true hx.1) (of_decide_eq_true hx.2)]; decide
  have hb : ((List.range 16).any fun d => (m.ctx p d).quantum) = false := by
    rw [List.any_eq_false]; intro d hd; rw [h3 d (List.mem_range.1 hd)]; decide
  rw [ha, hb]
  show (true && true && true && _) = true
  rw [Bool.and_self, Bool.and_self, Bool.true_and, List.all_eq_true]
  intro d hd
  by_cases hdc : d = c
  · simp [hdc]
  · cases hw : waitsOut m p d with
    | false => simp
    | true =>
      rcases h4 d (List.mem_range.1 hd) hdc hw with h | ⟨h, h'⟩
      · simp [h]
      · simp [h, h']

theorem wg_modW (m : Mach) (w : Nat) (f : Wg → Wg) : (m.modW w f).wg w = f (m.wg w) := by
  unfold Mach.modW Mach.wg; exact Store_get_upd_same _ _ _ _

theorem replayCommand_one {m : Mach} {p i st n w : Nat} (h1 : n ≠ 0) (h2 : w ∈ targetWgs m p .part) (h3 : (m.wg w).wgid = i) (h4 : (m.wg w).stage = st)
    (h5 : ∀ v ∈ targetWgs m p .part, (m.wg v).wgid = i → (m.wg v).stage = st → v = w) : replayCommand p i st n m = toHost p .ack (m.modW w fun x => { x with replay := some n }) := by
  unfold replayCommand; dsimp only
  have hm : ∀ v ∈ (targetWgs m p .part).filter fun w => decide ((m.wg w).wgid = i) && decide ((m.wg w).stage = st), v = w := by
    intro v hv
    obtain ⟨hv, hx⟩ := List.mem_filter.1 hv
    rw [Bool.and_eq_true] at hx
    exact h5 v hv (of_decide_eq_true hx.1) (of_decide_eq_true hx.2)
  have hw : w ∈ (targetWgs m p .part).filter fun w => decide ((m.wg w).wgid = i) && decide ((m.wg w).stage = st) := List.mem_filter.2 ⟨h2, by simp [h3, h4]⟩
  generalize (targetWgs m p .part).filter (fun w => decide ((m.wg w).wgid = i) && decide ((m.wg w).stage = st)) = ws at hm hw
  have : ((ws.find? fun w => (m.block w).det) <|> ws.head?) = some w := by
    cases hf : ws.find? fun w => (m.block w).det with
    | some v => rw [hm v (List.mem_of_find?_eq_some hf)]; rfl
    | none =>
      cases ws with
      | nil => cases hw
      | cons y ys => rw [hm y List.mem_cons_self]; rfl
  rw [this]; dsimp only; rw [if_neg h1]

theorem saveUnit_all {m : Mach} {w : Nat} (h : ∀ v ∈ savedWith m w, leavesNow m v = true) :
    saveUnit w m = (savedWith m w).foldl (fun acc v => if yieldReady m v then yieldSave v acc else fullSave v acc) m := by
  unfold saveUnit; dsimp only; rw [if_pos (List.all_eq_true.2 h), List.foldl_map]

theorem saveUnit_not {m : Mach} {w : Nat} (h : ¬ ∀ v ∈ savedWith m w, leavesNow m v = true) : saveUnit w m = saveSiblings w m := by
  unfold saveUnit; dsimp only; rw [if_neg (fun e => h (List.all_eq_true.1 e))]

theorem preemptionSave_now {m : Mach} {w : Nat} {k : SaveKind} (h1 : (m.wg w).preempt = some k) (h2 : (m.wg w).status = .running) :
    preemptionSave w m = if (m.launch (m.wg w).launch).killed = true then (if allStopped m w then endAborted w m else m) else if saveReady m w then saveUnit w m else m := by
  unfold preemptionSave; dsimp only; rw [if_neg (by simp [h1, h2])]

theorem debugRead_still {m : Mach} {w : Nat} {it : DbgItem} (h : (m.wg w).halted = true) : debugRead w it m =
    (match (generalizing := false) dbgLaneRead m w it, it, decide ((m.wg w).status = .saved) with
    | some (v, a), _, _ => toHost (m.wg w).part (.value v (some a)) m
    | none, .scratch o, true =>
      if o < (m.block w).scratch then toHost (m.wg w).part (.value (BitVec.ofNat 64 (Memory.read (m.wg w).savedScratch o).toNat) none) m else toHost (m.wg w).part .invalid m
    | none, _, _ =>
      match (generalizing := false) dbgByte w it .read m with
      | (none, m1) => toHost (m.wg w).part .invalid m1
      | (some (.error _), m1) => toHost (m.wg w).part .accessError m1
      | (some (.ok (sp, k)), m1) => toHost (m.wg w).part (.value (BitVec.ofNat 64 (leNat (readPlace m1 sp ⟨decide (sp = .vault), k, 0⟩ 1))) none) m1.useFree) := by
  unfold debugRead; dsimp only; rw [if_neg (by rw [h]; decide)]; all_goals rfl

theorem debugRead_byte {m : Mach} {w : Nat} {it : DbgItem} (h : (m.wg w).halted = true) (h2 : dbgLaneRead m w it = none) (h3 : ∀ o, it = .scratch o → (m.wg w).status ≠ .saved) :
    debugRead w it m = (match (generalizing := false) dbgByte w it .read m with
      | (none, m1) => toHost (m.wg w).part .invalid m1
      | (some (.error _), m1) => toHost (m.wg w).part .accessError m1
      | (some (.ok (sp, k)), m1) => toHost (m.wg w).part (.value (BitVec.ofNat 64 (leNat (readPlace m1 sp ⟨decide (sp = .vault), k, 0⟩ 1))) none) m1.useFree) := by
  rw [debugRead_still h, h2]
  cases it with
  | scratch o => rw [decide_eq_false (h3 o rfl)]
  | _ => rfl

theorem debugWrite_still {m : Mach} {w : Nat} {it : DbgItem} {v : DWord} (h : (m.wg w).halted = true) : debugWrite w it v m =
    (match (generalizing := false) dbgLaneWrite m w it v, it, decide ((m.wg w).status = .saved) with
    | some (.error e), _, _ => toHost (m.wg w).part e m
    | some (.ok m1), _, _ => toHost (m.wg w).part .ack m1
    | none, .scratch o, true =>
      if o < (m.block w).scratch then toHost (m.wg w).part .ack (m.modW w fun x => { x with savedScratch := Memory.write x.savedScratch o (v.setWidth 8) })
      else toHost (m.wg w).part .invalid m
    | none, _, _ =>
      match (generalizing := false) dbgByte w it .write m with
      | (none, m1) => toHost (m.wg w).part .invalid m1
      | (some (.error _), m1) => toHost (m.wg w).part .accessError m1
      | (some (.ok (sp, k)), m1) => toHost (m.wg w).part .ack (writePlace none sp ⟨decide (sp = .vault), k, 0⟩ [v.setWidth 8] m1)) := by
  unfold debugWrite; dsimp only; rw [if_neg (by rw [h]; decide)]; all_goals rfl

theorem debugWrite_byte {m : Mach} {w : Nat} {it : DbgItem} {v : DWord} (h : (m.wg w).halted = true) (h2 : dbgLaneWrite m w it v = none) (h3 : ∀ o, it = .scratch o → (m.wg w).status ≠ .saved) :
    debugWrite w it v m = (match (generalizing := false) dbgByte w it .write m with
      | (none, m1) => toHost (m.wg w).part .invalid m1
      | (some (.error _), m1) => toHost (m.wg w).part .accessError m1
      | (some (.ok (sp, k)), m1) => toHost (m.wg w).part .ack (writePlace none sp ⟨decide (sp = .vault), k, 0⟩ [v.setWidth 8] m1)) := by
  rw [debugWrite_still h, h2]
  cases it with
  | scratch o => rw [decide_eq_false (h3 o rfl)]
  | _ => rfl

theorem tlbDrop_gone {α : Type} (p : Nat) (s : Store α) (f : α → List TlbEntry) (put : α → List TlbEntry → α) (hp : ∀ a ts, f (put a ts) = ts) :
    ∀ e ∈ s.map (fun e => (e.1, put e.2 ((f e.2).filter fun t => !(decide (t.part = p))))), ∀ x ∈ f e.2, x.part ≠ p := by
  intro e he x hx
  obtain ⟨a, _, rfl⟩ := List.mem_map.1 he
  rw [hp] at hx
  have := (List.mem_filter.1 hx).2
  intro h; rw [decide_eq_true h] at this; cases this

end Sys2Proof.Laws
end

