-- ==== Sys2Proof/Laws/Step.lean ====
section
/-! SUPPORT. Laws of the whole step: what it keeps, what it runs. -/

namespace Sys2Proof.Laws

open Sys2Proof Sys2Proof.Machine

theorem off_guarded {i : Instr} (own : Iss → Mach → Own) (he : ∀ s, exec i s = execute i (guarded own) s) :
    Says.Ends i (fun w g s => Says.eff i w g s = 0) (fun _ _ _ => 0) (fun _ _ _ m => m) :=
  ends _ he fun _ _ _ h => if_pos h

def inv (s : State) : Prop := s.hw.running = true → Config.shake256 s.hw.key = s.hw.fuse ∧ Config.verifies s.hw.key s.hw.firmware s.hw.sig = true

theorem inv_same {s t : State} (h : t.hw = s.hw) (hs : inv s) : inv t := by unfold inv; rw [h]; exact hs

/-- The steps that touch what boots. -/
def touches : Instr → Bool
  | .firmwareBoot _ _ _ | .attestationRequest _ | .deviceReset | .linkTraining _ => true
  | _ => false

theorem exec_hw (i : Instr) (hi : touches i = false) (s t : State) (h : exec i s = .next t) : t.hw = s.hw := by
  have he : ∀ (i : Instr) own, execute i own s = .next t → t.hw = s.hw := by
    intro i own h
    unfold execute at h
    split at h
    · split at h
      · cases h
      · cases h; rfl
    · cases h; rfl
  have hv : ∀ f, eventStep f s = .next t → t.hw = s.hw := by
    intro f h
    unfold eventStep at h
    split at h <;> cases h <;> rfl
  cases i with
  | waitPointRelease w g => exact hv (fun m => waitPoint w g (settleCmds m)) h
  | resultWriteback w g => exact hv (fun m => m.modG w g fun y => y.landDue m.cycle) h
  | loadLanding w g id => exact hv (fun m => settleCmds (loadLanding w g id m)) h
  | storeAccepted w g id => exact hv (fun m => settleCmds (storeAccepted w g id m)) h
  | gcommitGrant w g l => exact hv (fun m => settleCmds (gcommitGrant w g l m)) h
  | fenceComplete w g id => exact hv (fun m => settleCmds (fenceComplete w g id m)) h
  | waitwReturn w g id => exact hv (fun m => settleCmds (waitwReturn w g id m)) h
  | memoryReadRetry loc p => exact hv (fun m => settleCmds (memoryReadRetry loc p m)) h
  | traceRecordConsumed part ctx n => exact hv (fun m => m.modC part ctx fun x => { x with traceUnread := x.traceUnread - n }) h
  | planeLinkDown p =>
    have : execPlaneLinkDown p s = .next t := h
    unfold execPlaneLinkDown at this
    split at this <;> cases this <;> rfl
  | _ => first | exact he _ _ h | exact hv _ h | cases hi

theorem takeWord_le (w : Word) (rest : List Byte) : takeWord (leBytes 4 w.toNat ++ rest) = some (w, rest) := by
  simp only [leBytes, List.cons_append, List.nil_append, takeWord]
  congr 2
  apply BitVec.eq_of_toNat_eq
  have := w.isLt
  simp only [BitVec.toNat_append, BitVec.toNat_ofNat]
  rw [← Nat.shiftLeft_add_eq_or_of_lt (by omega), ← Nat.shiftLeft_add_eq_or_of_lt (by omega), ← Nat.shiftLeft_add_eq_or_of_lt (by omega)]
  simp only [Nat.shiftLeft_eq]
  omega

theorem aged_none {s : State} (h : ∀ e ∈ s.m.cores, agedLines s.m.cycle e.2 = []) : s.aged = s := by
  unfold State.aged flushAged
  suffices hf : ∀ (cs : Store Core) (m : Mach), (∀ e ∈ cs, agedLines s.m.cycle e.2 = []) →
      cs.foldl (fun acc e => (agedLines s.m.cycle e.2).foldl (fun a l => flushLine e.1 l a) acc) m = m by
    rw [hf _ _ h]
  intro cs
  induction cs with
  | nil => intro m _; rfl
  | cons e es ih => intro m hc; rw [List.foldl_cons, hc e List.mem_cons_self]; exact ih m fun x hx => hc x (List.mem_cons_of_mem _ hx)

end Sys2Proof.Laws
end

