-- ==== Sys2Proof/Tests/Slice0.lean ====
section
/-! SUPPORT. Tests: words of the spec and what they decode to, ill-formed terms, worked examples, and for every statement a state that meets its hypotheses. -/

namespace Sys2Proof.Tests

open Sys2Proof Sys2Proof.Machine

set_option Elab.async false

/-- Guard pt, S = 0. -/
def g0 : Guard := ⟨7, 0, 0⟩

/-! ## Words of every instruction, from the layouts of spec 05 and each entry; those given in hexadecimal are the spec's own -/

/-- Format T and M, guard pt, S = 0 (spec 05 R78). -/
def wT (op d a b : Nat) : Nat := op * 2 ^ 24 + d * 2 ^ 18 + a * 2 ^ 12 + b * 2 ^ 6 + 7 * 2 ^ 3

/-- Format I (spec 05 R78). -/
def wI (op d a imm : Nat) : Nat := op * 2 ^ 24 + d * 2 ^ 18 + a * 2 ^ 12 + imm * 2 ^ 2

/-- Format L with its literal word (spec 05 R78). -/
def wL (op d a m lit : Nat) : Nat := wT op d a m + 2 ^ 32 * lit

def intWords : List (Nat × Nat × Instr) := [
  (32, 0x00000038, .nop g0), (32, 0x011C3038, .mov 7 3 g0), (64, 0x02080038 + 2 ^ 32 * 0x7A3D9C51, .ldi 2 0x7A3D9C51 g0),
  (64, 0x02080048 + 2 ^ 32 * 0xA, .ldiIadd 2 0 10 ⟨1, 0, 0⟩), (64, wL 2 1 5 2 9, .ldiAnd 1 5 9 g0), (64, wL 2 1 5 3 9, .ldiOr 1 5 9 g0),
  (64, wL 2 1 5 4 9, .ldiXor 1 5 9 g0), (64, wL 2 1 5 5 9, .ldiShl 1 5 9 g0), (64, wL 2 1 5 6 9, .ldiShr 1 5 9 g0), (64, wL 2 1 5 7 9, .ldiSar 1 5 9 g0),
  (64, wL 2 (2 * 8 + 1) 5 8 9, .ldiIset .lt 1 5 9 g0),
  (32, wT 0x03 1 2 3, .iadd 1 2 3 g0), (32, wT 0x04 1 2 3, .isub 1 2 3 g0), (32, 0x051020F8, .imul 4 2 3 g0), (32, wT 0x06 1 2 3, .imulhs 1 2 3 g0),
  (32, wT 0x07 1 2 3, .imulhz 1 2 3 g0), (32, wT 0x08 1 2 3, .imad 1 2 3 g0), (32, wT 0x09 1 2 0, .ineg 1 2 g0), (32, wT 0x0A 1 2 0, .iabs 1 2 g0),
  (32, wT 0x0B 1 2 3, .imin 1 2 3 g0), (32, wT 0x0C 1 2 3, .imax 1 2 3 g0), (32, wT 0x0D 1 2 3, .iminz 1 2 3 g0), (32, wT 0x0E 1 2 3, .imaxz 1 2 3 g0),
  (32, wT 0x0F 1 2 3, .and_ 1 2 3 g0), (32, wT 0x10 1 2 3, .or_ 1 2 3 g0), (32, wT 0x11 1 2 3, .xor_ 1 2 3 g0), (32, wT 0x12 1 2 3, .andn 1 2 3 g0),
  (32, wT 0x13 1 2 0, .not_ 1 2 g0), (32, wT 0x14 1 2 3, .shl 1 2 3 g0), (32, wT 0x15 1 2 3, .shr 1 2 3 g0), (32, wT 0x16 1 2 3, .sar 1 2 3 g0),
  (32, wT 0x17 1 2 3, .rol 1 2 3 g0), (32, wT 0x18 1 2 0, .clz 1 2 g0), (32, wT 0x19 1 2 0, .popc 1 2 g0), (32, wT 0x1A 1 2 0, .brev 1 2 g0),
  (32, 0x1B284038, .bitil3 10 4 g0), (32, wT 0x1C 1 2 3, .bitil2 1 2 3 g0), (32, wT 0x1D 1 2 2, .bitdi3 1 2 2 g0), (32, wT 0x1E 1 2 3, .bfx 1 2 3 g0),
  (32, wT 0x1F 1 2 3, .bfi 1 2 3 g0), (32, wT 0x20 (5 * 8 + 2) 3 4, .iset .ge 2 3 4 g0), (32, 0x215871F8, .plop .xor 6 7 7 g0), (32, wT 0x22 1 2 3, .sel 1 2 3 g0)]

def intWords2 : List (Nat × Nat × Instr) := [
  (32, wI 0x23 1 2 0x3FF, .iaddi 1 2 (-1) 0), (32, wI 0x24 1 2 3, .andi 1 2 3 0), (32, wI 0x25 1 2 3, .ori 1 2 3 0), (32, wI 0x26 1 2 3, .xori 1 2 3 0),
  (32, 0x27100008, .shli 4 0 2 0), (32, wI 0x28 1 2 3, .shri 1 2 3 0), (32, wI 0x29 1 2 3, .sari 1 2 3 0), (32, 0x2A440010, .iseti .lt 1 0 4 0),
  (32, wT 0x2B 1 2 3, .iaddc 1 2 3 g0), (32, wT 0x2C 2 4 6, .add64 2 4 6 g0), (32, wT 0x2D 2 4 6, .sub64 2 4 6 g0), (32, wT 0x2E 2 4 5, .addw64 2 4 5 g0),
  (32, wT 0x2F 2 4 5, .shl64 2 4 5 g0), (32, wT 0x30 2 4 5, .shrl64 2 4 5 g0), (32, 0x31EC4238, .iset64 .geu 3 4 8 g0), (32, wT 0x32 1 2 3, .shfl 1 2 3 g0),
  (32, 0x33081138, .shflx 2 1 4 g0), (32, wT 0x34 1 2 3, .shflup 1 2 3 g0), (32, wT 0x35 1 2 3, .shfldn 1 2 3 g0), (32, 0x36281038, .vote .all 2 1 g0),
  (32, wT 0x37 1 2 0, .ballot 1 2 g0), (32, 0x38143238, .gred 5 3 .fadd g0), (32, wT 0x39 1 2 (16 + 4), .gscan 1 2 true .smin g0), (32, 0x3A046338, .reorder 1 6 12 0),
  (32, 0x3B000038, .lser 0), (32, 0x3C000038, .lsend 0), (32, 0x3D208338, .rngx 8 8 12 g0)]

def fpWords : List (Nat × Nat × Instr) := [
  (64, wL 0x40 1 2 3 4, .fadd 1 2 3 .dyn g0), (64, wL 0x41 1 2 3 1, .fsub 1 2 3 .rz g0), (64, wL 0x42 1 2 3 0, .fmul 1 2 3 .rne g0), (64, wL 0x43 1 2 3 0x502, .ffma 1 2 3 5 .ru g0),
  (32, wT 0x44 1 2 3, .fmin 1 2 3 g0), (32, wT 0x45 1 2 3, .fmax 1 2 3 g0), (32, wT 0x46 1 2 0, .fabs 1 2 g0), (32, wT 0x47 1 2 0, .fneg 1 2 g0), (32, 0x484810F8, .fset .lt 2 1 3 g0),
  (32, wT 0x49 1 2 0, .frcp 1 2 g0), (32, wT 0x4A 1 2 0, .frsq 1 2 g0), (64, wL 0x4B 1 2 0 3, .fsqrt 1 2 .rd g0), (64, wL 0x4C 1 2 3 3, .fdiv 1 2 3 .rd g0), (32, wT 0x4D 1 2 0, .fex2 1 2 g0),
  (32, wT 0x4E 1 2 0, .flg2 1 2 g0), (32, wT 0x4F 1 2 0, .fsin 1 2 g0), (32, wT 0x50 1 2 0, .fcos 1 2 g0), (64, wL 0x51 1 2 0 1, .frnd 1 2 .rz g0),
  (64, wL 0x52 2 4 6 4, .dadd 2 4 6 .dyn g0), (64, wL 0x53 2 4 6 4, .dsub 2 4 6 .dyn g0), (64, wL 0x54 2 4 6 4, .dmul 2 4 6 .dyn g0), (64, wL 0x55 2 4 6 0x804, .dfma 2 4 6 8 .dyn g0),
  (32, wT 0x56 2 4 6, .dmin 2 4 6 g0), (32, wT 0x57 2 4 6, .dmax 2 4 6 g0), (32, wT 0x58 (7 * 8 + 3) 4 6, .dset .nan 3 4 6 g0), (64, wL 0x59 2 4 6 0, .ddiv 2 4 6 .rne g0),
  (64, wL 0x5A 2 4 0 0, .dsqrt 2 4 .rne g0), (64, wL 0x5B 1 2 3 0, .hadd2 1 2 3 .rne g0), (64, wL 0x5C 1 2 3 0, .hmul2 1 2 3 .rne g0), (64, wL 0x5D 1 2 3 0x400, .hfma2 1 2 3 4 .rne g0),
  (64, 0x5E0C2038 + 2 ^ 32, .cvtfi 3 2 false false .rz g0), (64, wL 0x5F 1 2 0 0xC000, .cvtif 1 2 true true .rne g0), (32, wT 0x60 2 3 0, .cvtfd 2 3 g0), (64, wL 0x61 1 2 0 2, .cvtdf 1 2 .ru g0),
  (64, wL 0x62 1 2 3 0, .cvtfh 1 2 3 .rne g0), (32, wT 0x63 1 2 1, .cvthf 1 2 1 g0), (64, 0x64508038 + 2 ^ 32 * 0x518, .narrow8 20 8 false true false 4 24 g0),
  (64, wL 0x65 4 2 0 0x240, .widen8 4 2 false true 1 g0), (64, 0x661C51B8 + 2 ^ 32 * 4, .scalex 7 5 6 .dyn g0), (32, 0x67244038, .fclass 9 4 .f32 g0)]

def memWords : List (Nat × Nat × Instr) := [
  (32, wT 0x80 1 2 3, .ld8s 1 2 3 g0), (32, wT 0x81 1 2 3, .ld8z 1 2 3 g0), (32, wT 0x82 1 2 3, .ld16s 1 2 3 g0), (32, wT 0x83 1 2 3, .ld16z 1 2 3 g0), (32, 0x84184438, .ld32 6 4 16 g0),
  (32, wT 0x85 2 4 3, .ld64 2 4 3 g0), (32, wT 0x86 4 2 3, .ld128 4 2 3 g0), (32, wT 0x87 1 2 3, .st8 1 2 3 g0), (32, wT 0x88 1 2 3, .st16 1 2 3 g0), (32, wT 0x89 1 2 3, .st32 1 2 3 g0),
  (32, 0x8A284078, .st64 10 4 1 g0), (32, wT 0x8B 4 2 3, .st128 4 2 3 g0), (32, 0x8C185038, .lds32 6 5 0 g0), (32, wT 0x8D 2 3 4, .lds64 2 3 4 g0), (32, wT 0x8E 4 3 5, .lds128 4 3 5 g0),
  (32, wT 0x8F 1 2 3, .sts32 1 2 3 g0), (32, wT 0x90 2 3 4, .sts64 2 3 4 g0), (32, wT 0x91 4 3 5, .sts128 4 3 5 g0), (32, wT 0x92 1 2 3, .ldv32 1 2 3 g0), (32, 0x934030B8, .ldv128 16 3 2 g0),
  (32, wT 0x94 1 2 3, .stv32 1 2 3 g0), (32, wT 0x95 4 2 3, .stv128 4 2 3 g0), (64, wL 0x96 1 2 0 0x16200000, .ldo 1 2 .acq .die .b32 g0)]

def ordWords : List (Nat × Nat × Instr) := [
  (64, wL 0x97 2 4 0 0x28300000, .sto 2 4 .rel .device .b64 g0), (64, 0x982841B8 + 2 ^ 32 * 0x04200000, .atom 10 4 6 .rlx .cluster false .b32 .add g0),
  (64, 0x99184038 + 2 ^ 32 * 0x07290000, .red 6 4 .rlx .die true .b32 .fadd g0), (64, 0x9A284338 + 2 ^ 32 * 0x38200000, .cas 10 4 12 .ar .device .b32 g0),
  (64, wL 0x9B 0 0 0 0x4C000000, .fence .sc .system g0), (64, 0x9C2041B8, .bind 8 4 6 0 false false .at g0), (64, 0x9C200038 + 2 ^ 32 * 0x39, .bind 8 0 0 3 true false .lock g0),
  (64, 0x9D000038 + 2 ^ 32 * 0x30, .unbind 3 g0), (64, 0x9E0C8078 + 2 ^ 32 * 0x08000000, .acq 3 8 1 .device g0), (64, 0x9F008038 + 2 ^ 32 * 0x08000000, .rel 8 .device g0),
  (64, 0xA0240038 + 2 ^ 32 * 0xFFFFE000, .gbegin 9 (-1) g0), (32, wT 0xA1 0 0 0, .gcommit g0), (32, 0xA2000178, .gabort 5 g0),
  (64, 0xA30840F8 + 2 ^ 32 * 0x04200000, .waitw 2 4 3 .cluster .b32 g0), (32, 0xA4004038, .pref 4 0 g0), (32, wT 0xA4 1 4 2, .prefTlb 4 2 g0)]

def engineWords : List (Nat × Nat × Instr) := [
  (32, 0xB00000F8, .oclaim 3 g0), (32, 0xB10000F8, .orelease 3 g0), (64, 0xB20841F8, .oload 2 4 7 .glob g0), (64, 0xB30861F8 + 2 ^ 32 * 0x140, .mconv 2 6 7 false false true false 4 0 g0),
  (32, 0xB40420F8, .msign 1 2 3 0), (32, 0xB51400B8, .tacq 5 2 g0), (32, 0xB60000F8, .trel 3 g0), (32, 0xB724A038, .tld 9 10 0 g0), (32, 0xB824A038, .tst 9 10 0 g0),
  (32, 0xB90000F8, .tzero 3 g0), (64, 0xBA004378 + 2 ^ 32 * 0xC, .tdrain 0 4 13 true true .glob g0), (32, 0xBB100438, .mstat 4 16 g0),
  (32, 0xC020C138, .cins 8 12 4 g0), (32, 0xC120C138, .crem 8 12 4 g0), (32, 0xC240C138, .cmove 16 12 4 g0), (32, 0xC308C138, .copen 2 12 4 g0), (32, 0xC4402038, .cnext 16 2 g0),
  (32, 0xC5002038, .cclose 2 g0), (32, 0xC6401138, .ccount 16 1 4 g0), (32, 0xC7200138, .cfreeze 8 4 g0), (32, 0xC8200138, .cthaw 8 4 g0), (64, 0xC9204038 + 2 ^ 32 * 2, .cnbr 8 4 2 g0),
  (64, wL 0xCA 8 4 6 2, .cmrg 8 4 6 true false g0), (64, 0xCB204038 + 2 ^ 32 * 5, .cinit 8 4 5 g0), (64, wL 0xCB 8 4 0 0x10, .cinitRel 8 4 g0),
  (64, 0xCC204038 + 2 ^ 32, .ktrav 8 4 true g0), (64, 0xCC204038 + 2 ^ 32 * 2, .ktravResume 8 4 false g0), (32, 0xCD0C0078, .kstat 3 1 g0)]

def syncWords : List (Nat × Nat × Instr) := [
  (32, 0xD0040008, .bari 1 2 0), (32, wT 0xD1 1 0 0, .bara 1 g0), (32, wT 0xD2 1 0 0, .barw 1 g0), (32, 0xD3040038, .baraw 1 g0), (64, 0xD4080038 + 2 ^ 32 * 6, .phregNew 2 .sw g0),
  (64, wL 0xD4 2 3 0 1, .phreg 2 3 .w g0), (32, wT 0xD5 0 2 0, .phdrop 2 g0), (32, wT 0xD6 0 2 0, .phsig 2 g0), (32, wT 0xD7 3 2 0, .phwait 3 2 g0), (32, wT 0xD8 3 2 0, .phsw 3 2 g0),
  (64, 0xD928C038 + 2 ^ 32 * 0xF18800, .cpy 10 12 0 15 .glob .scr true 1 false .none false g0), (64, 0xDA28C438 + 2 ^ 32 * 0xF19400, .cpym 10 12 16 15 .glob true 2 true false g0),
  (32, 0xDB014578, .publishDecl false 0 20 21 g0), (32, 0xDB200038, .publish 0 g0), (32, wT 0xDB (2 * 8 + 1) 0 0, .publishDrop 1 g0),
  (64, 0xDC084038, .gnodeArm 2 4 g0), (64, 0xDC203078 + 2 ^ 32, .gnodeSig 8 3 1 g0), (64, wL 0xDC 0 3 2 5, .gnodeTile 3 5 g0), (64, wL 0xDC 0 3 3 0, .gnodeFree 3 g0),
  (64, wL 0xDD 0 4 0 (2 * 2 ^ 12 + 3 * 2 ^ 8 + 2 ^ 7 + 9), .qsend 4 2 3 true 9 g0), (64, 0xDE08A038 + 2 ^ 32 * 0xF000, .qrecv 2 10 15 0 false 0 g0)]

def controlWords : List (Nat × Nat × Instr) := [
  (32, 0xE0E0000C, .bra 3 g0), (32, 0xE1005038, .brx 5 g0), (32, 0xE2E00040, .call 16 g0), (32, 0xE301E038, .ret 30 g0), (32, 0xE400E078, .exit 14 1 g0), (32, 0xE5000038, .yield_ g0),
  (32, 0xE5000078, .yieldWg g0), (32, 0xE6000338, .trap 12 g0), (32, 0xE7000038, .trapret 0), (32, 0xE8000038, .bkpt 0 g0), (32, 0xF0000078, .gets 0 .lane g0), (32, 0xF1003578, .sets 3 .fpmode g0),
  (64, 0xF2000038 + 2 ^ 32 * 0x21140, .setcont 16 true 5 0 g0), (32, 0xF3004178, .btopup 4 5 g0), (32, 0xF4000038, .xacq g0), (32, 0xF5000038, .xrel g0), (32, 0xF6000038, .serial 0),
  (32, 0xF7000038, .serialend 0), (64, 0xF8184038, .ownmarkPriv 6 4 false g0), (64, wL 0xF8 6 4 1 1, .ownmarkShared 6 4 true g0), (64, 0xF81840B8 + 2 ^ 32 * 0x54, .ownmarkRegion 6 4 5 .drain false g0),
  (64, 0xF9400038 + 2 ^ 32, .capld 16 1 g0), (32, 0xFA003014, .tracemark 3 5 0), (32, wI 0xFB 0 0 0, .cctlOff 0), (32, 0xFB000004, .cctlOn 0)]

/-- Every entry decodes to the instruction beside it. -/
def reads (l : List (Nat × Nat × Instr)) : Bool := l.all fun e => decide (decodeTableWord e.1 e.2.1 = some e.2.2)

theorem test_words_integer : reads intWords = true := by decide +kernel
theorem test_words_integer_immediate_lane : reads intWords2 = true := by decide +kernel
theorem test_words_float : reads fpWords = true := by decide +kernel
theorem test_words_memory : reads memWords = true := by decide +kernel
theorem test_words_order : reads ordWords = true := by decide +kernel
theorem test_words_engines : reads engineWords = true := by decide +kernel
theorem test_words_synchronisation : reads syncWords = true := by decide +kernel
theorem test_words_control_system : reads controlWords = true := by decide +kernel

/-- Unassigned opcodes, reserved fields and reserved values are refused (spec 05 R71, R73, R78, R83, R95). -/
theorem test_words_refused : [(32, 0x3E000038), (32, 0xFF000000), (32, wT 0x01 1 2 3), (64, wL 0x02 1 0 9 0), (64, wL 0x40 1 2 3 5), (64, wL 0x96 1 2 0 0x20200000), (64, wL 0xD9 1 2 0 0x000C0000),
    (32, wT 0xF0 0 0 23), (32, 0xE7000030)].all (fun e => decide (decodeTableWord e.1 e.2 = none)) = true := by decide +kernel

/-! ## What is not well formed (spec 05 R78, R83 to R85 and each entry) -/

/-- One ill-formed term for each check; a predicate destination of pt, a selector, a count, an order, a size, a mode or a register out of its range. -/
def illFormed : List Instr := [
  .ldiIset .eq 7 1 0 g0, .bitdi3 1 2 3 g0, .iset .eq 7 1 2 g0, .plop .and 7 1 2 g0, .shli 1 2 32 0, .shri 1 2 (-1) 0, .sari 1 2 40 0, .iseti .eq 7 1 0 0, .iset64 .eq 7 2 4 g0, .vote .any 7 1 g0,
  .fset .eq 7 1 2 g0, .dset .eq 7 2 4 g0, .narrow8 1 4 false false false 0 2 g0, .narrow8 1 4 false false false 4 1 g0, .widen8 4 1 false false 0 g0, .ldo 1 2 .rel .group .b32 g0,
  .sto 1 2 .acq .group .b32 g0, .atom 1 2 3 .rlx .group false .b16 .add g0, .atom 1 2 3 .rlx .group true .b32 .xchg g0, .red 1 2 .ar .group false .b32 .add g0, .red 1 2 .rlx .group false .b8 .add g0,
  .red 1 2 .rlx .group true .b32 .xchg g0, .cas 1 2 3 .rlx .group .b8 g0, .fence .rlx .group g0, .bind 8 4 0 0 true false .at g0, .bind 8 0 4 0 true false .at g0, .bind 8 0 0 0 true true .at g0,
  .waitw 1 2 3 .group .b8 g0]

def illFormed2 : List Instr := [
  .mconv 1 2 3 true false false false 4 2 g0, .mstat 1 17 g0, .cins 13 12 4 g0, .crem 15 12 4 g0, .cmove 12 12 4 g0, .ccount 16 3 4 g0, .cnbr 8 4 0 g0, .cnbr 8 4 28 g0, .bari 1 0 0, .bari 1 512 0,
  .cpy 10 12 0 15 .glob .scr false 1 false .none false g0, .cpy 10 12 4 15 .glob .scr true 1 false .none false g0, .cpym 10 12 16 15 .glob false 1 false false g0, .gnodeSig 8 3 0 g0,
  .qsend 4 2 3 false 9 g0, .qsend 4 2 7 true 9 g0, .qrecv 2 10 15 1 false 0 g0, .qrecv 2 10 15 7 true 0 g0, .exit 14 5 g0, .exit 14 0 g0, .exit 60 3 g0, .setcont 16 true 0 5 g0,
  .setcont 16 false 1 0 g0, .ownmarkRegion 6 0 5 .clear false g0, .ownmarkRegion 0 4 5 .clear false g0, .ownmarkRegion 0 0 5 .clear true g0]

theorem test_ill_formed_refused : illFormed.all (fun i => !i.wf) = true := by decide +kernel
theorem test_ill_formed_refused_engines : illFormed2.all (fun i => !i.wf) = true := by decide +kernel

/-! ## States that meet hypotheses -/

/-- Words as one number, the first lowest. -/
def wordsNat (ws : List Word) : Nat := ws.foldr (fun v n => v.toNat + 2 ^ 32 * n) 0

/-- The machine that is about to run one instruction in all lanes of group 0 of workgroup 0. -/
def bench (i : Instr) : State := State.reset.withFetchWord 64 (wordsNat ((encode i).getD []))

/-- A state with its machine changed. -/
def tune (f : Mach → Mach) (s : State) : State := { s with m := f s.m }

/-- Registers of lane 0 set. -/
def seed (rs : List (Nat × Word)) (s : State) : State := tune (fun m => m.modG 0 0 fun y => rs.foldl (fun y e => y.setReg e.1 0 e.2) y) s

/-- A group changed. -/
def withG (f : Group → Group) (s : State) : State := tune (fun m => m.modG 0 0 f) s

/-- A block that declares a little of everything. -/
def labBlock : Block := { (default : Block) with
  count := 1, groups := 1, stages := 1, scratch := 0x4000, slots := 4, tiles := 2, xmax := 2, capTable := 0x20000, recordQueue := 0x10040, succReserve := 4, topUp := true, entry := 0x10000 }

/-- The translations that core 0, cluster 0 and die 0 hold are these. -/
def pages (es : List TlbEntry) (m : Mach) : Mach := { m with cores := Store.upd default m.cores 0 fun c => { c with tlb := es }, clusters := Store.upd default m.clusters 0 fun c => { c with tlb := es }, dieTlbs := [(0, es)] }

/-- A partition with one mapped page, code and data at 0x10000, with headers at 0x10000 and 0x10008, and a launch that declares a little of everything. -/
def lab (m : Mach) : Mach := pages [⟨0, 0, 1, 16, 0x10000, true, true, true, 0⟩] { m with
  nextLaunch := 1
  launches := [(0, { (default : Launch) with live := true, block := labBlock, running := 1 })]
  parts := [(0, { (default : Part) with made := true, clusters := [0] })]
  grants := [⟨0, 0, 2 ^ 20, true, true, .hbm⟩]
  hbm := Memory.writeN (Memory.writeN m.hbm 0x10000 (leBytes 4 0x1800000A)) 0x10008 (leBytes 4 0x1800008A)
  wgs := Store.upd default m.wgs 0 fun x => { x with nodeSlots := 2 } }

def labOf (i : Instr) : State := tune lab (bench i)

def ready (i : Instr) (s : State) : Bool :=
  s.hw.running && decide (s.m.cur = some (0, 0)) && (issueCheck i 0 0 (settle 0 0 s.m)).isNone && !(classFull i ((settle 0 0 s.m).grp 0 0))

theorem ready_of {i : Instr} {s : State} (h : ready i s = true) : Says.Ready i 0 0 s := by
  simp only [ready, Bool.and_eq_true, decide_eq_true_eq, Option.isNone_iff_eq_none, Bool.not_eq_true'] at h
  exact ⟨h.1.1.1, h.1.1.2, h.1.2, h.2⟩

def calmIn (i : Instr) (s : State) : Bool := (lanesOf (Says.eff i 0 0 s)).all fun l => (regionOf s.m 0 0 l).isNone

theorem noRegion_of {i : Instr} {s : State} (h : calmIn i s = true) : Says.NoRegion i 0 0 s := fun l hl => by
  simpa using (List.all_eq_true.1 h) l hl

def free (i : Instr) (s : State) : Bool := decide (Says.eff i 0 0 s ≠ 0) && calmIn i s

theorem free_of {i : Instr} {s : State} (h : free i s = true) : Says.Free i 0 0 s := by
  simp only [free, Bool.and_eq_true, decide_eq_true_eq] at h
  exact ⟨h.1, noRegion_of h.2⟩

def clear (q : Req) (ea : Group → Nat → Nat) (i : Instr) (s : State) : Bool :=
  decide (Says.eff i 0 0 s ≠ 0) && (accessTrap (mkIss i 0 0 (settle 0 0 s.m)) (Says.begun i 0 0 s) q (Says.accesses i ea 0 0 s)).isNone &&
    !(strongPending (Says.begun i 0 0 s) 0 0) &&
    !(sharedAccess (Says.begun i 0 0 s) 0 q (Says.accesses i ea 0 0 s) && turnFull (Says.begun i 0 0 s) 0 (sharedCount (Says.begun i 0 0 s) 0 q (Says.accesses i ea 0 0 s)))

theorem clear_of {q : Req} {ea : Group → Nat → Nat} {i : Instr} {s : State} (h : clear q ea i s = true) : Says.Clear i q ea 0 0 s := by
  simp only [clear, Bool.and_eq_true, decide_eq_true_eq, Option.isNone_iff_eq_none, Bool.not_eq_true'] at h
  exact ⟨h.1.1.1, h.1.1.2, h.1.2, h.2⟩

/-- Every instruction of a list may issue on its own bench. -/
theorem ready_all {l : List Instr} {f : Instr → State} (h : (l.all fun i => ready i (f i)) = true) : ∀ i ∈ l, Says.Ready i 0 0 (f i) := fun i hi =>
  ready_of (List.all_eq_true.1 h i hi)

/-- With no trap enabled nothing that an instruction raises traps. -/
theorem quiet_of {e : Mask} {y : Group} {f : Group → Nat → FRes} (h : ((lanesOf e).all fun l => decide (fld (y.mode l) 4 5 = 0)) = true) : Says.Quiet e y f := fun l hl => by
  have := List.all_eq_true.1 h l hl
  simp only [decide_eq_true_eq] at this
  simp [this]

theorem witness_IntegerArithmetic : ∀ i ∈ [Instr.nop g0, .mov 1 2 g0, .ldi 1 5 g0, .ldiIadd 1 2 5 g0, .iaddi 1 2 5 0, .iadd 1 2 3 g0, .isub 1 2 3 g0, .imul 1 2 3 g0, .imulhs 1 2 3 g0, .imulhz 1 2 3 g0,
    .imad 1 2 3 g0, .ineg 1 2 g0, .iabs 1 2 g0, .imin 1 2 3 g0, .imax 1 2 3 g0, .iminz 1 2 3 g0, .imaxz 1 2 3 g0], Says.Ready i 0 0 (bench i) := ready_all (by decide +kernel)

theorem witness_IntegerLogicShift : ∀ i ∈ [Instr.and_ 1 2 3 g0, .or_ 1 2 3 g0, .xor_ 1 2 3 g0, .andn 1 2 3 g0, .not_ 1 2 g0, .andi 1 2 5 0, .ori 1 2 5 0, .xori 1 2 5 0, .ldiAnd 1 2 5 g0, .ldiOr 1 2 5 g0,
    .ldiXor 1 2 5 g0, .shl 1 2 3 g0, .shr 1 2 3 g0, .sar 1 2 3 g0, .rol 1 2 3 g0, .shli 1 2 31 0, .shri 1 2 31 0, .sari 1 2 31 0, .ldiShl 1 2 31 g0, .ldiShr 1 2 31 g0, .ldiSar 1 2 31 g0, .sel 1 2 3 g0],
    Says.Ready i 0 0 (bench i) := ready_all (by decide +kernel)

theorem witness_BitResults : ∀ i ∈ [Instr.clz 1 2 g0, .popc 1 2 g0, .brev 1 2 g0, .bfx 1 2 3 g0, .bfi 1 2 3 g0, .bitil2 1 2 3 g0, .bitdi3 1 2 2 g0, .bitil3 2 4 g0], Says.Ready i 0 0 (bench i) :=
  ready_all (by decide +kernel)

theorem witness_PredicateResults : ∀ i ∈ [Instr.iset .geu 6 2 3 g0, .iseti .lt 0 2 5 0, .ldiIset .eq 1 2 5 g0, .iset64 .le 1 2 4 g0, .plop .xnor 1 7 2 g0, .vote .uni 1 7 g0, .iaddc 1 2 3 g0],
    Says.Ready i 0 0 (bench i) := ready_all (by decide +kernel)

theorem witness_PairResults : ∀ i ∈ [Instr.add64 2 4 6 g0, .sub64 2 4 6 g0, .addw64 2 4 7 g0, .shl64 2 4 7 g0, .shrl64 2 4 7 g0, .rngx 4 8 2 g0], Says.Ready i 0 0 (bench i) := ready_all (by decide +kernel)

theorem witness_LaneExchange : (∀ i ∈ [Instr.shfl 1 2 3 g0, .shflx 1 2 31 g0, .shflup 1 2 31 g0, .shfldn 1 2 31 g0, .ballot 1 7 g0, .gred 1 2 .fadd g0, .gscan 1 2 true .add g0], Says.Ready i 0 0 (bench i)) ∧
    (∀ l ∈ lanesOf (Says.eff (.gred 1 2 .fadd g0) 0 0 (bench (.gred 1 2 .fadd g0))), fld ((Says.reads 0 0 (bench (.gred 1 2 .fadd g0))).mode l) 4 5 = 0) := ⟨ready_all (by decide +kernel), by decide +kernel⟩

theorem witness_CanonicalOrder : ([1, 2] : List Nat).length = 2 ^ 1 ∧ ([3] : List Nat) ≠ [] ∧ ([3] : List Nat).length ≤ 2 ^ 1 := by decide

def floats : List Instr := [.fadd 1 2 3 .dyn g0, .fsub 1 2 3 .rd g0, .fmul 1 2 3 .rz g0, .ffma 1 2 3 4 .ru g0, .fmin 1 2 3 g0, .fmax 1 2 3 g0, .frnd 1 2 .dyn g0, .dadd 2 4 6 .dyn g0, .dsub 2 4 6 .dyn g0,
  .dmul 2 4 6 .dyn g0, .dfma 2 4 6 8 .dyn g0, .dmin 2 4 6 g0, .dmax 2 4 6 g0, .fset .nan 1 2 3 g0, .dset .eq 6 2 4 g0]

theorem witness_FloatResults : ∀ i ∈ floats, Says.Ready i 0 0 (bench i) ∧ ∀ f, Says.Quiet (Says.eff i 0 0 (bench i)) (Says.reads 0 0 (bench i)) f := fun i hi =>
  ⟨ready_all (by decide +kernel) i hi, fun _ => quiet_of (List.all_eq_true.1 (by decide +kernel : (floats.all fun i => (lanesOf (Says.eff i 0 0 (bench i))).all fun l =>
    decide (fld ((Says.reads 0 0 (bench i)).mode l) 4 5 = 0)) = true) i hi)⟩

def converts : List Instr := [.hadd2 1 2 3 .rne g0, .hmul2 1 2 3 .rne g0, .hfma2 1 2 3 4 .rne g0, .cvtfi 1 2 false true .rz g0, .cvtfi 2 3 true false .rz g0, .cvtif 1 2 true true .dyn g0, .cvtif 1 2 false false .dyn g0,
  .cvtfd 2 3 g0, .cvtdf 1 2 .dyn g0, .cvtfh 1 2 3 .dyn g0, .cvthf 1 2 1 g0, .scalex 1 2 3 .rne g0, .fabs 1 2 g0, .fneg 1 2 g0, .fclass 1 2 .b1 g0, .widen8 4 2 true true 7 g0, .narrow8 1 4 true false false 1 2 g0]

theorem witness_PackedAndConversions : ∀ i ∈ converts, Says.Ready i 0 0 (bench i) ∧ ∀ f, Says.Quiet (Says.eff i 0 0 (bench i)) (Says.reads 0 0 (bench i)) f := fun i hi =>
  ⟨ready_all (by decide +kernel) i hi, fun _ => quiet_of (List.all_eq_true.1 (by decide +kernel : (converts.all fun i => (lanesOf (Says.eff i 0 0 (bench i))).all fun l =>
    decide (fld ((Says.reads 0 0 (bench i)).mode l) 4 5 = 0)) = true) i hi)⟩

/-- 1 + 2^-30 is inexact, and its trap is enabled in lane 0. -/
def inexact : State := withG (fun y => { y with fpmode := [(0, 0x1F0)] }) (seed [(2, 0x3F800000), (3, 0x30800000)] (bench (.fadd 1 2 3 .rne g0)))

theorem witness_FloatTrapPrecise : Says.Ready (.fadd 1 2 3 .rne g0) 0 0 inexact ∧
    ((lanesOf (Says.eff (.fadd 1 2 3 .rne g0) 0 0 inexact)).filter fun l => decide ((fp32.add (laneRm (Says.reads 0 0 inexact) l .rne) ((Says.reads 0 0 inexact).f32 2 l)
      ((Says.reads 0 0 inexact).f32 3 l)).flags &&& fld ((Says.reads 0 0 inexact).mode l) 4 5 ≠ 0)) = [0] := ⟨ready_of (by decide +kernel), by decide +kernel⟩

theorem witness_SpecialFunctionsHandedOn : ∀ i ∈ [Instr.frcp 1 2 g0, .frsq 1 2 g0, .fsqrt 1 2 .rne g0, .fdiv 1 2 3 .rne g0, .fex2 1 2 g0, .flg2 1 2 g0, .fsin 1 2 g0, .fcos 1 2 g0, .ddiv 2 4 6 .rne g0,
    .dsqrt 2 4 .rne g0], Says.Ready i 0 0 (bench i) := ready_all (by decide +kernel)

/-- A quiet and a signalling NaN, and numbers. -/
theorem witness_NaNResults : let nan := fun (v : Nat) => decide (v / 2 ^ 23 % 2 ^ 8 = 255) && decide (v % 2 ^ 23 ≠ 0)
    nan 0x7FC00000 = true ∧ nan 0x7F800001 = true ∧ nan 0x7F800000 = false ∧ nan 0x3F800000 = false := by decide +kernel

/-! ### Memory -/

def far (a n : Nat) (ofs : Nat) (y : Group) (l : Nat) : Nat := (y.pair a l + BitVec.ofNat 64 (ofs * n)).toNat
def near (a n : Nat) (ofs : Nat) (y : Group) (l : Nat) : Nat := (y.reg a l + BitVec.ofNat 32 (ofs * n)).toNat

/-- Loads and stores with their request and address. -/
def loads : List (Instr × Req × (Group → Nat → Nat)) := [(.ld8s 4 2 1 g0, ⟨.global, 1, true, false, false⟩, far 2 1 1), (.ld8z 4 2 1 g0, ⟨.global, 1, true, false, false⟩, far 2 1 1),
  (.ld16s 4 2 1 g0, ⟨.global, 2, true, false, false⟩, far 2 2 1), (.ld16z 4 2 1 g0, ⟨.global, 2, true, false, false⟩, far 2 2 1), (.ld32 4 2 1 g0, ⟨.global, 4, true, false, true⟩, far 2 4 1),
  (.ld64 4 2 1 g0, ⟨.global, 8, true, false, true⟩, far 2 8 1), (.ld128 4 2 63 g0, ⟨.global, 16, true, false, false⟩, far 2 16 63), (.ldv32 4 2 1 g0, ⟨.vault, 4, true, false, false⟩, near 2 4 1),
  (.ldv128 4 2 63 g0, ⟨.vault, 16, true, false, false⟩, near 2 16 63)]

def stores : List (Instr × Req × (Group → Nat → Nat)) := [(.st8 4 2 1 g0, ⟨.global, 1, false, true, false⟩, far 2 1 1), (.st16 4 2 1 g0, ⟨.global, 2, false, true, false⟩, far 2 2 1),
  (.st32 4 2 1 g0, ⟨.global, 4, false, true, true⟩, far 2 4 1), (.st64 4 2 1 g0, ⟨.global, 8, false, true, true⟩, far 2 8 1), (.st128 4 2 63 g0, ⟨.global, 16, false, true, false⟩, far 2 16 63),
  (.stv32 4 2 1 g0, ⟨.vault, 4, false, true, false⟩, near 2 4 1), (.stv128 4 2 63 g0, ⟨.vault, 16, false, true, false⟩, near 2 16 63)]

theorem clear_all {l : List (Instr × Req × (Group → Nat → Nat))} {f : Instr → State} (h : (l.all fun e => ready e.1 (f e.1) && clear e.2.1 e.2.2 e.1 (f e.1) && calmIn e.1 (f e.1)) = true) :
    ∀ e ∈ l, Says.Ready e.1 0 0 (f e.1) ∧ Says.Clear e.1 e.2.1 e.2.2 0 0 (f e.1) ∧ Says.NoRegion e.1 0 0 (f e.1) := fun e he => by
  have := List.all_eq_true.1 h e he
  simp only [Bool.and_eq_true] at this
  exact ⟨ready_of this.1.1, clear_of this.1.2, noRegion_of this.2⟩

theorem witness_LoadsHandedOn : ∀ e ∈ loads, Says.Ready e.1 0 0 (labOf e.1) ∧ Says.Clear e.1 e.2.1 e.2.2 0 0 (labOf e.1) ∧ Says.NoRegion e.1 0 0 (labOf e.1) := clear_all (by decide +kernel)

theorem witness_StoresHandedOn : ∀ e ∈ stores, Says.Ready e.1 0 0 (labOf e.1) ∧ Says.Clear e.1 e.2.1 e.2.2 0 0 (labOf e.1) ∧ Says.NoRegion e.1 0 0 (labOf e.1) := clear_all (by decide +kernel)

/-- Lane 0 has an odd address. -/
def odd (i : Instr) : State := seed [(2, 1)] (labOf i)

theorem witness_MisalignedAccessTraps : ∀ e ∈ (loads.drop 2 ++ stores.drop 1 ++ [(.lds32 4 2 0 g0, ⟨.global, 4, true, false, false⟩, near 2 4 0), (.lds64 4 2 0 g0, ⟨.global, 8, true, false, false⟩, near 2 8 0),
    (.lds128 4 2 0 g0, ⟨.global, 16, true, false, false⟩, near 2 16 0), (.sts32 4 2 0 g0, ⟨.global, 4, true, false, false⟩, near 2 4 0), (.sts64 4 2 0 g0, ⟨.global, 8, true, false, false⟩, near 2 8 0),
    (.sts128 4 2 0 g0, ⟨.global, 16, true, false, false⟩, near 2 16 0)] : List (Instr × Req × (Group → Nat → Nat))),
    (ready e.1 (odd e.1) && decide (((Says.accesses e.1 e.2.2 0 0 (odd e.1)).filter fun a => decide (a.2 % e.2.1.n ≠ 0)).map (·.1) = [0])) = true := by decide +kernel

def scrKind (store : Bool) (n : Nat) (as : List (Nat × Nat)) : OutKind := let ls := as.map fun e => (⟨e.1, e.2, 0, 0, none, false⟩ : LaneAcc)
  if store then .storeScratch n ls else .loadScratch n 4 none ls

/-- Addresses up to the last byte that the block declares: nothing holds the access; a fence that acquires holds it; a location of its own has failed. -/
theorem witness_ScratchpadAccesses : ∀ e ∈ ([(.lds32 4 2 0 g0, 4, false), (.lds64 4 2 0 g0, 8, false), (.lds128 4 2 0 g0, 16, false), (.sts32 4 2 0 g0, 4, true), (.sts64 4 2 0 g0, 8, true), (.sts128 4 2 0 g0, 16, true)] :
    List (Instr × Nat × Bool)),
    (let s := seed [(2, BitVec.ofNat 32 (0x4000 - e.2.1))] (labOf e.1);
      let fenced := tune (fun m => { m with nextCmd := 5 }) (withG (fun y => { y with outs := [{ (default : Out) with cls := 1, kind := .fence .acq .group 0xFFFFFFFF false, irec := { (default : IssueRec) with lanes := 0xFFFFFFFF } }] }) s);
      let failed := tune (fun m => { m with failing := [.scratch 0 (0x4000 - e.2.1)] }) s;
      [(s, true), (fenced, false), (failed, false)].all fun t => ready e.1 t.1 && decide (Says.eff e.1 0 0 t.1 ≠ 0) &&
        (scratchTrap (mkIss e.1 0 0 (settle 0 0 t.1.m)) (Says.begun e.1 0 0 t.1) e.2.1 (Says.accesses e.1 (near 2 e.2.1 0) 0 0 t.1)).isNone && !(strongPending (Says.begun e.1 0 0 t.1) 0 0) &&
        decide (scratchNow (Says.iss e.1 0 0 t.1) (scrKind e.2.2 e.2.1 (Says.accesses e.1 (near 2 e.2.1 0) 0 0 t.1)) (Says.begun e.1 0 0 t.1) = t.2)) = true := by decide +kernel

theorem witness_PrefetchChangesNoData : ∀ i ∈ [Instr.pref 2 1 g0, .prefTlb 2 1 g0], Says.Ready i 0 0 (labOf i) ∧
    (isDet (Says.begun i 0 0 (labOf i)) 0 = false ∧ Says.NoRegion i 0 0 (labOf i) ∧ strongPending (Says.begun i 0 0 (labOf i)) 0 0 = false) := by
  intro i hi
  simp only [List.mem_cons, List.not_mem_nil, or_false] at hi
  rcases hi with rfl | rfl
  all_goals exact ⟨ready_of (by decide +kernel), by decide +kernel, noRegion_of (by decide +kernel), by decide +kernel⟩
/-! ### Ordered accesses, bindings, regions -/

def at_ (a : Nat) (y : Group) (l : Nat) : Nat := (y.pair a l).toNat

def ordered : List (Instr × Req × (Group → Nat → Nat)) := [(.ldo 4 2 .acq .device .b128 g0, ⟨.global, 16, true, false, false⟩, at_ 2), (.sto 4 2 .rel .device .b8 g0, ⟨.global, 1, false, true, false⟩, at_ 2),
  (.atom 4 2 8 .ar .device false .b128 .xchg g0, ⟨.global, 16, true, true, false⟩, at_ 2), (.atom 4 2 8 .rlx .cluster true .b32 .fadd g0, ⟨.global, 4, true, true, false⟩, at_ 2),
  (.red 4 2 .rlx .die true .b64 .add g0, ⟨.global, 8, true, true, false⟩, at_ 2), (.cas 4 2 8 .sc .system .b128 g0, ⟨.global, 16, true, true, false⟩, at_ 2),
  (.waitw 4 2 8 .device .b64 g0, ⟨.global, 8, true, false, false⟩, at_ 2)]

theorem witness_OrderedAccessesHandedOn : (∀ e ∈ ordered, Says.Ready e.1 0 0 (labOf e.1) ∧ Says.Clear e.1 e.2.1 e.2.2 0 0 (labOf e.1) ∧ Says.NoRegion e.1 0 0 (labOf e.1)) ∧
    (∀ i ∈ [Instr.fence .sc .system g0, .acq 4 2 1 .device g0, .rel 2 .device g0], (ready i (labOf i) && decide (Says.eff i 0 0 (labOf i) ≠ 0) && calmIn i (labOf i) &&
      (accessTrap (mkIss i 0 0 (settle 0 0 (labOf i).m)) (Says.begun i 0 0 (labOf i)) ⟨.global, 8, true, true, true⟩ [(lowLaneD (Says.eff i 0 0 (labOf i)), at_ 2 (Says.reads 0 0 (labOf i)) 0)]).isNone &&
      !(strongPending (Says.begun i 0 0 (labOf i)) 0 0) && !(isDet (Says.begun i 0 0 (labOf i)) 0)) = true) := ⟨clear_all (by decide +kernel), by decide +kernel⟩

theorem witness_AtomicOperations : (7 : Nat) < 2 ^ 32 ∧ (2 ^ 31 : Nat) < 2 ^ 32 ∧ (BitVec.ofNat 32 (2 ^ 31)).toInt ≤ (BitVec.ofNat 32 7).toInt := by decide

/-- BIND of an address, of all memory and, with a phaser that lives, of that. -/
def phaser (s : State) : State := tune (fun m => m.modP 0 fun q => { q with phasers := [(0, ⟨true, 1, 0, 0, false, []⟩)] }) s

theorem witness_Bindings : ∀ e ∈ ([(.bind 8 4 6 15 false false .at g0, (⟨.at, 0, false, false, 0, 32⟩ : Bind)), (.bind 8 0 0 3 true false .lock g0, ⟨.lock, 0, true, false, 0, 0⟩),
    (.bind 8 4 6 0 false true .ph g0, ⟨.ph, 0x1000, false, true, 0, 32⟩)] : List (Instr × Bind)),
    let s := phaser (seed [(6, 32), (8, if e.2.kind = .ph then 0x1000 else 0)] (labOf e.1));
    (ready e.1 s && free e.1 s && (bindTrap (Says.begun e.1 0 0 s) (mkIss e.1 0 0 (settle 0 0 s.m)) 15 e.2).isNone &&
      (livePhaser (Says.begun e.1 0 0 s) 0 0 0x1000).isSome && decide ((Says.reads 0 0 s).reg 6 0 = 32)) = true := by decide +kernel

theorem witness_Unbind : (ready (.unbind 15 g0) (labOf (.unbind 15 g0)) && free (.unbind 15 g0) (labOf (.unbind 15 g0))) = true := by decide +kernel

/-- A region open in lane 0, which its GCOMMIT may ask for. -/
def region0 : Region := ⟨0, 0, 0, 0x10000, 9, 0, false, [], [], [], [], [], false, false, false, none⟩
def inRegion0 (s : State) : State := tune (fun m => { m with regions := [region0] }) s

theorem witness_GambitRegions : (let i := Instr.gbegin 9 (-1) g0;
      let s := withG (fun y => { y with live := 1 }) (labOf i);
      let m := Says.begun i 0 0 s;
      (ready i s && decide (Says.eff i 0 0 s = 1) && !(targetWaits m 0 (Says.pc i 0 0 s + ((-1 : BitVec 19).signExtend 64 <<< 2))) && (targetAt m 0 false (Says.pc i 0 0 s + ((-1 : BitVec 19).signExtend 64 <<< 2))).isOk && (anyRegion m 0 0 0).isNone &&
        (Says.reads 0 0 s).trapMode.isNone && (Says.reads 0 0 s).lser.isNone && decide (regionSlots m 0 + 1 ≤ 64)) = true) ∧
    (ready (.gabort 63 g0) (inRegion0 (labOf (.gabort 63 g0))) && decide (Says.eff (.gabort 63 g0) 0 0 (inRegion0 (labOf (.gabort 63 g0))) ≠ 0)) = true ∧
    (ready (.gcommit g0) (inRegion0 (labOf (.gcommit g0))) && decide (Says.eff (.gcommit g0) 0 0 (inRegion0 (labOf (.gcommit g0))) ≠ 0) &&
      !(isDet (Says.begun (.gcommit g0) 0 0 (inRegion0 (labOf (.gcommit g0)))) 0) &&
      (commitTrap [region0] (Says.iss (.gcommit g0) 0 0 (inRegion0 (labOf (.gcommit g0)))) (Says.begun (.gcommit g0) 0 0 (inRegion0 (labOf (.gcommit g0))))).isNone) = true := by decide +kernel

/-- Lane 0, alone, stands in its region. -/
theorem witness_RegionAccesses : ∀ e ∈ ([(.st32 4 2 1 g0, ⟨.global, 4, false, true, true⟩, far 2 4 1), (.st64 4 2 63 g0, ⟨.global, 8, false, true, true⟩, far 2 8 63), (.ld32 4 2 1 g0, ⟨.global, 4, true, false, true⟩, far 2 4 1),
    (.ld64 4 2 63 g0, ⟨.global, 8, true, false, true⟩, far 2 8 63)] : List (Instr × Req × (Group → Nat → Nat))),
    let s := withG (fun y => { y with live := 1 }) (inRegion0 (labOf e.1));
    (ready e.1 s && clear e.2.1 e.2.2 e.1 s && decide (lanesOf (Says.eff e.1 0 0 s) = [0]) && (regionOf s.m 0 0 0).isSome) = true := by decide +kernel

/-! ### Control -/

/-- Each transfer goes to the header at 0x10000. -/
theorem witness_ControlTransfers : ∀ e ∈ ([(.bra (-1) g0, fun y _ => 0x10000 + (y.reg 0 0).signExtend 64 - (y.reg 0 0).signExtend 64), (.call (-1) g0, fun _ _ => 0x10000), (.brx 2 g0, fun y l => 0x10004 + (y.reg 2 l).signExtend 64),
    (.ret 4 g0, fun y l => y.pair 4 l)] : List (Instr × (Group → Nat → DWord))),
    let s := seed [(2, -4), (4, 0x10000)] (withG (fun y => { y with live := 1 }) (labOf e.1));
    (ready e.1 s && decide (Says.pc e.1 0 0 s = 0x10004) && (lanesOf (Says.eff e.1 0 0 s)).all fun l => decide (e.2 (Says.reads 0 0 s) l = 0x10000) &&
      !(targetWaits (Says.begun e.1 0 0 s) 0 0x10000) && (targetAt (Says.begun e.1 0 0 s) 0 true 0x10000).isOk && (targetAt (Says.begun e.1 0 0 s) 0 false 0x10000).isOk) = true := by
  decide +kernel

theorem witness_MovedLanesStand : ((labOf (.nop g0)).m.grp 0 0).run.isSome = true := by decide +kernel

/-- No header stands at 0x10004. -/
theorem witness_BadTargetTraps : ∀ e ∈ ([(.bra 0 g0, fun _ _ => 0x10004), (.call 0 g0, fun _ _ => 0x10004), (.brx 2 g0, fun y l => 0x10004 + (y.reg 2 l).signExtend 64), (.ret 4 g0, fun y l => y.pair 4 l)] :
      List (Instr × (Group → Nat → DWord))),
    let s := seed [(4, 0x10004)] (withG (fun y => { y with live := 1 }) (labOf e.1));
    (ready e.1 s && decide (lanesOf (Says.eff e.1 0 0 s) = [0]) && !(targetWaits (Says.begun e.1 0 0 s) 0 0x10004) && match targetAt (Says.begun e.1 0 0 s) 0 false (e.2 (Says.reads 0 0 s) 0) with | .error .branchTarget => true | _ => false) = true := by decide +kernel

/-- A fault of the read, where nothing is mapped. -/
theorem witness_BadTargetTraps_read : (let s := seed [(5, 1)] (withG (fun y => { y with live := 1 }) (labOf (.ret 4 g0)));
    ready (.ret 4 g0) s && !(targetWaits (Says.begun (.ret 4 g0) 0 0 s) 0 ((Says.reads 0 0 s).pair 4 0)) && match targetAt (Says.begun (.ret 4 g0) 0 0 s) 0 true ((Says.reads 0 0 s).pair 4 0) with | .error .pageNotPresent => true | _ => false) = true := by decide +kernel

def exitOk (i : Instr) (names : List DWord) (s : State) : Bool := let m := Says.begun i 0 0 s;
  ready i s && free i s && (Says.reads 0 0 s).lser.isNone && (exitListTrap (m.block 0).succReserve (m.wg 0).succ names).isNone && (exitBlocked m (mkIss i 0 0 (settle 0 0 s.m))).isNone

def aLoad : Out := { (default : Out) with id := 3, cls := 0, kind := .load .global 4 false 9 .rlx .group [⟨0, 0x10020, 0, 0, none, false⟩] }

theorem witness_ExitEndsLanes : (let i := Instr.exit 14 4 ⟨1, 1, 0⟩;
      let s := withG (fun y => { y with preds := [(32 * 1 + 5, true)] }) (labOf i);
      exitOk i [0, 0, 0, 0] s && (s.m.wg 0).groupIds.contains 0 && decide ((Says.reads 0 0 s).live &&& ~~~(Says.eff i 0 0 s) ≠ 0)) = true ∧
    (let i := Instr.exit 0 0 g0;
      exitOk i [] (labOf i) && decide ((Says.reads 0 0 (labOf i)).outs = []) && mayPass ((Says.begun i 0 0 (labOf i)).wg 0) (Says.reads 0 0 (labOf i))) = true ∧
    (let i := Instr.exit 0 0 g0;
      let s := tune (fun m => m.modW 0 fun x => { x with haltReq := true }) (labOf i);
      exitOk i [] s && decide (Says.eff i 0 0 s = (Says.reads 0 0 s).live) && !(mayPass ((Says.begun i 0 0 s).wg 0) (Says.reads 0 0 s))) = true ∧
    (let i := Instr.exit 0 0 g0;
      let s := withG (fun y => { y with outs := [aLoad] }) (labOf i);
      exitOk i [] s && decide (Says.eff i 0 0 s = (Says.reads 0 0 s).live) && decide ((Says.reads 0 0 s).outs ≠ [])) = true := by decide +kernel

theorem witness_LastExitRetires : (let n := (endLanes 0 0 0xFFFFFFFF 0x10004 (labOf (.nop g0)).m);
    (((labOf (.nop g0)).m.wg 0).groupIds.all fun h => decide ((n.grp 0 h).live = 0))) = true ∧
    (let n := (endLanes 0 0 1 0x10004 (labOf (.nop g0)).m);
    (((labOf (.nop g0)).m.wg 0).groupIds.any fun h => decide ((n.grp 0 h).live ≠ 0))) = true := by decide +kernel

/-- A group in trap mode. -/
def trapped (s : State) : State := withG (fun y => { y with trapMode := some ⟨0xFFFFFFFF, [], none, 0x10004, .run, none, 0x10400, 0⟩, trapPc := 0x10004 }) s
def breaks (s : State) : State := tune (fun m => m.modK 0 fun c => { c with haltOnBreak := true }) s

theorem witness_YieldsAndTraps : (∀ i ∈ [Instr.yield_ g0, .yieldWg g0, .trap 63 g0, .bkpt 0 g0, .trapret 0], (ready i (labOf i) && free i (labOf i) && (Says.reads 0 0 (labOf i)).lser.isNone &&
      (Says.reads 0 0 (labOf i)).trapMode.isNone && !((Says.begun i 0 0 (labOf i)).core 0).haltOnBreak) = true) ∧
    (∀ i ∈ [Instr.yieldWg g0, .trapret 0], (ready i (trapped (labOf i)) && free i (trapped (labOf i)) && (Says.reads 0 0 (trapped (labOf i))).lser.isNone && (Says.reads 0 0 (trapped (labOf i))).trapMode.isSome) = true) ∧
    (ready (.bkpt 63 g0) (breaks (labOf (.bkpt 63 g0))) && free (.bkpt 63 g0) (breaks (labOf (.bkpt 63 g0))) && ((Says.begun (.bkpt 63 g0) 0 0 (breaks (labOf (.bkpt 63 g0)))).core 0).haltOnBreak) = true := by
  decide +kernel

/-- A serial section in lane 0: with no other lane to go, and with one. -/
def serial0 (todo : List Nat) (s : State) : State := withG (fun y => { y with lser := some ⟨0x10004, 0, todo, []⟩ }) s

theorem witness_LaneSerialiseAndReorder : (let i := Instr.lser 0;
      ready i (labOf i) && (Says.reads 0 0 (labOf i)).lser.isNone && free i (labOf i)) = true ∧
    (∀ todo ∈ [[], [1]], (let i := Instr.lsend 0;
      ready i (serial0 todo (labOf i)) && decide ((Says.reads 0 0 (serial0 todo (labOf i))).lser = some ⟨0x10004, 0, todo, []⟩) && free i (serial0 todo (labOf i))) = true) ∧
    (let i := Instr.reorder 1 6 12 0;
      let s := seed [(12, -1)] (labOf i);
      let y := Says.reads 0 0 s;
      ready i s && free i s && y.lser.isNone && y.trapMode.isNone && decide (y.live &&& ~~~(Says.act i 0 0 s) = 0) && decide (y.pair 12 0 = 0xFFFFFFFF) && decide (y.outs = [])) = true := by decide +kernel

/-! ### System registers -/

theorem witness_SystemRegisterReads : ∀ sr ∈ [SReg.tid, .lane, .group, .wgid, .wgcount, .stage, .core, .cluster, .die, .part, .ctx, .tempi, .tempm, .cont, .contlive, .xheld, .trapcause, .trappc, .trapinfo, .trapmask,
    .fpflags, .fpmode, .cycle], ready (.gets 2 sr g0) (labOf (.gets 2 sr g0)) = true := by decide +kernel

def marking (s : State) : State := tune (fun m => m.modC 0 0 fun c => { c with desc := { (default : CtxDesc) with traceEnables := 1, traceSize := 12, traceBase := 0x11000 } }) s

theorem witness_SystemRegisterWrites : (∀ sr ∈ [SReg.trapmask, .fpflags, .fpmode, .trappc, .cycle], let i := Instr.sets 2 sr g0;
      (ready i (trapped (labOf i)) && free i (trapped (labOf i)) && decide ((Says.reads 0 0 (trapped (labOf i))).reg 2 0 = 0) && (Says.reads 0 0 (trapped (labOf i))).trapMode.isSome) = true) ∧
    (∀ sr ∈ [SReg.trapmask, .fpflags, .fpmode, .trappc], let i := Instr.sets 2 sr g0;
      let s := seed [(2, -1)] (labOf i);
      (ready i s && free i s && decide ((Says.reads 0 0 s).reg 2 0 &&& 0xFFFFFC0C ≠ 0) && (Says.reads 0 0 s).trapMode.isNone) = true) ∧
    (let c := Instr.setcont 1 true 63 0 g0;
      ready c (labOf c) && free c (labOf c) && decide (Says.pc c 0 0 (labOf c) = 0x10004) && !(targetWaits (Says.begun c 0 0 (labOf c)) 0 0x10008) && match targetAt (Says.begun c 0 0 (labOf c)) 0 false 0x10008 with | .ok h => h.getLsbD 7 | _ => false) = true ∧
    (∀ i ∈ [Instr.cctlOff 0, .cctlOn 0, .tracemark 2 1023 0], (ready i (labOf i) && calmIn i (labOf i) && !(marksOn (Says.begun i 0 0 (labOf i)) 0)) = true) ∧
    (let t := Instr.tracemark 2 0 0;
      ready t (marking (labOf t)) && calmIn t (marking (labOf t)) && marksOn (Says.begun t 0 0 (marking (labOf t))) 0 && !(markHalts ((Says.begun t 0 0 (marking (labOf t))).wg 0))) = true ∧
    (let t := Instr.tracemark 2 0 0;
      let s := tune (fun m => m.modW 0 fun x => { x with replay := some 1 }) (marking (labOf t));
      ready t s && calmIn t s && marksOn (Says.begun t 0 0 s) 0 && markHalts ((Says.begun t 0 0 s).wg 0)) = true := by decide +kernel

theorem witness_TempoAndExtendedBlocks : (let t := Instr.btopup 4 5 g0;
      ready t (labOf t) && free t (labOf t) && ((Says.begun t 0 0 (labOf t)).block 0).topUp && ready t (bench t) && free t (bench t) && !((Says.begun t 0 0 (bench t)).block 0).topUp) = true ∧
    (∀ y ∈ [(false, false), (true, false), (false, true)], ∀ i ∈ [Instr.xacq g0, .xrel g0], let s := withG (fun z => { z with extHeld := y.1, extPending := y.2 }) (labOf i);
      (ready i s && free i s && decide (((Says.begun i 0 0 s).block 0).xmax ≠ 0) && decide ((Says.reads 0 0 s).extHeld = y.1) && decide ((Says.reads 0 0 s).extPending = y.2) &&
        decide ((Says.reads 0 0 s).outs = [])) = true) := by decide +kernel

/-- A deterministic launch, whose turn is the workgroup's. -/
def det (s : State) : State := tune (fun m => m.modL 0 fun l => { l with block := { l.block with det := true } }) s

theorem witness_TurnsAndOwnership : (∀ i ∈ [Instr.serial 0, .serialend 0, .ownmarkPriv 4 2 false g0, .ownmarkShared 4 2 true g0, .ownmarkRegion 4 2 63 .drain false g0],
      (ready i (labOf i) && free i (labOf i) && (Says.reads 0 0 (labOf i)).lser.isNone && (Says.reads 0 0 (labOf i)).trapMode.isNone && !(isDet (Says.begun i 0 0 (labOf i)) 0)) = true) ∧
    (∀ i ∈ [Instr.serial 0, .serialend 0], (ready i (det (labOf i)) && free i (det (labOf i)) && (Says.reads 0 0 (det (labOf i))).lser.isNone && (Says.reads 0 0 (det (labOf i))).trapMode.isNone &&
      isDet (Says.begun i 0 0 (det (labOf i))) 0 && !(turnEnded (Says.begun i 0 0 (det (labOf i))) 0) && !(Says.reads 0 0 (det (labOf i))).endedTurn) = true) ∧
    (∀ i ∈ [Instr.ownmarkPriv 4 2 false g0, .ownmarkShared 4 2 false g0, .ownmarkRegion 4 2 63 .drain false g0, .ownmarkRegion 0 0 63 .clear false g0], let s := seed [(4, 256)] (det (labOf i));
      (ready i s && free i s && isDet (Says.begun i 0 0 s) 0 && holdsTurn (Says.begun i 0 0 s) 0 && decide ((Says.reads 0 0 s).reg 4 0 = 256) && decide ((Says.reads 0 0 s).pair 2 0 = 0) &&
        (ownRangeTrap (Says.begun i 0 0 s) 0 false 0 256).isNone && decide (((Says.begun i 0 0 s).part 0).owned = []) && decide (((Says.begun i 0 0 s).part 0).regions = [])) = true) := by decide +kernel

/-! ### Traps -/

/-- A handler at 0x10000 and a frame in the mapped page: the trap is entered, and returned from. -/
def handled (s : State) : State := tune (fun m => m.modC 0 0 fun c => { c with desc := { (default : CtxDesc) with handler := 0x10000, trapArea := 0x10400 } }) s

theorem witness_TrapEntry : (let l := dropSlot 0 0 (allLanded 0 0 (handled (labOf (.nop g0))).m);
      let y := l.grp 0 0;
      let place := frameAt 0 (frameAddr l 0 0) .write (retryCode (wgSite l 0) 0 0 0x10000 l);
      let m := place.2;
      decide (regionsOf (allLanded 0 0 (handled (labOf (.nop g0))).m) 0 0 0xFFFFFFFF = []) && y.trapMode.isNone && decide ((l.ctx 0 0).desc.handler = 0x10000) && (headerAt m (wgSite m 0) 0 0 0x10000).isOk && Memory.wf m.hbm &&
        match place.1 with | .ok fr => (List.range 512).all fun k => decide (paTarget (fr.pa + k) ≠ 2) | .error _ => false) = true ∧
    (let m := allLanded 0 0 (labOf (.nop g0)).m;
      decide (regionsOf m 0 0 0xFFFFFFFF = []) && decide ((m.ctx 0 0).desc.handler = 0)) = true := by decide +kernel

theorem witness_TrapReturn : ([0x10004, 0x10000, 0x20000].all fun pc : DWord => let l := allLanded 0 0 (withG (fun y => { y with trapPc := pc }) (trapped (labOf (.trapret 0)))).m;
      let y := l.grp 0 0;
      let place := frameAt 0 0x10400 .read l;
      let m := retryCode (wgSite place.2 0) 0 0 pc.toNat place.2;
      (y.trapMode.isSome && y.run.isSome && decide (y.live &&& ~~~((y.run.getD default).lanes) = 0) && place.1.isOk && decide (y.trapPc = pc) &&
        decide ((headerAt m (wgSite m 0) 0 0 pc).isOk = decide (pc = 0x10000)))) = true ∧
    (let y := (allLanded 0 0 (withG (fun y => { y with run := y.run.map fun r => { r with lanes := 1 } }) (trapped (labOf (.trapret 0)))).m).grp 0 0;
      y.trapMode.isSome && y.run.isSome && decide (y.live &&& ~~~((y.run.getD default).lanes) ≠ 0)) = true := by decide +kernel
/-! ### Barriers, nodes, copies, messages -/

/-- Barrier 15 with a count, arrivals and a phase. -/
def barred (b : Bar) (arrived : Nat) (s : State) : State := tune (fun m => (m.modBar 0 15 fun _ => b).modG 0 0 fun y => { y with arrived := Store.set 0 y.arrived 15 arrived }) s

theorem witness_NamedBarriers : (∀ n ∈ [0, 1], let i := Instr.bari 15 511 0;
      let s := barred ⟨true, 2, n, 0, 0⟩ 0 (labOf i);
      (ready i s && calmIn i s && decide (((Says.begun i 0 0 s).bar 0 15).arrivals = n)) = true) ∧
    (∀ i ∈ [Instr.bara 15 g0, .barw 15 g0, .baraw 15 g0], let s := barred ⟨true, 2, 0, 5, 0⟩ 0 (labOf i);
      (ready i s && free i s && ((Says.begun i 0 0 s).bar 0 15).armed && decide (Store.get 0 (Says.reads 0 0 s).arrived 15 ≠ 6) && (Says.reads 0 0 s).lser.isNone && (Says.reads 0 0 s).trapMode.isNone &&
        decide (((groupArrive 0 0 15 (Says.begun i 0 0 s)).bar 0 15).phase = 5) && !(arrivePending (Says.reads 0 0 s) 15) && arriveReady (Says.begun i 0 0 s) 0 0 s.m.nextCmd) = true) ∧
    (∀ i ∈ [Instr.bara 15 g0, .baraw 15 g0], let s := tune (fun m => { m with nextCmd := 5 }) (withG (fun y => { y with outs := [aLoad] }) (barred ⟨true, 2, 0, 5, 0⟩ 0 (labOf i)));
      (ready i s && free i s && !(arrivePending (Says.reads 0 0 s) 15) && !(arriveReady (Says.begun i 0 0 s) 0 0 s.m.nextCmd)) = true) ∧
    (∀ i ∈ [Instr.barw 15 g0, .baraw 15 g0], let s := barred ⟨true, 1, 0, 5, 0⟩ 5 (labOf i);
      (ready i s && free i s && ((Says.begun i 0 0 s).bar 0 15).armed && decide (Store.get 0 (Says.reads 0 0 s).arrived 15 - 1 < 5) &&
        decide (((groupArrive 0 0 15 (Says.begun i 0 0 s)).bar 0 15).phase = 6)) = true) ∧
    (∀ i ∈ [Instr.bara 15 g0, .barw 15 g0, .baraw 15 g0], (ready i (labOf i) && decide (Says.eff i 0 0 (labOf i) ≠ 0) && !((Says.begun i 0 0 (labOf i)).bar 0 15).armed) = true) ∧
    (∀ i ∈ [Instr.bara 15 g0, .baraw 15 g0], let s := barred ⟨true, 2, 1, 5, 0⟩ 6 (labOf i);
      (ready i s && decide (Says.eff i 0 0 s ≠ 0) && decide (Store.get 0 (Says.reads 0 0 s).arrived 15 = ((Says.begun i 0 0 s).bar 0 15).phase + 1)) = true) := by decide +kernel

/-- A node that is armed, and its handle in v2. -/
def node (s : State) : State := seed [(2, 0x1000)] (tune (fun m => m.modP 0 fun q => { q with nodes := [(0, ⟨true, 1, 0, 0x10080, []⟩)] }) s)

theorem witness_TriedCommands : (∀ i ∈ [Instr.phregNew 4 .s g0, .phreg 4 2 .sw g0, .phdrop 2 g0, .phsig 2 g0, .phwait 4 2 g0, .phsw 4 2 g0, .capld 4 63 g0], (ready i (labOf i) && free i (labOf i) &&
      decide (((Says.begun i 0 0 (labOf i)).block 0).capTable ≠ 0)) = true) ∧
    (let i := Instr.gnodeArm 4 2 g0;
      ready i (labOf i) && free i (labOf i) && decide (((Says.begun i 0 0 (labOf i)).wg 0).nodeSlots ≠ 0) && decide (((Says.reads 0 0 (labOf i)).pair 2 0).toNat % 128 = 0)) = true ∧
    (let i := Instr.gnodeSig 4 2 255 g0;
      ready i (node (labOf i)) && free i (node (labOf i)) && (liveNode (Says.begun i 0 0 (node (labOf i))) 0 0 ((Says.reads 0 0 (node (labOf i))).reg 2 0)).isSome) = true := by decide +kernel

def shadowed (up : Bool) (s : State) : State := tune (fun m => m.modW 0 fun x => { x with shadows := [(3, ⟨false, 0x3000, 0x800, up⟩)] }) s

theorem witness_NodesAndShadows : (∀ i ∈ [Instr.gnodeTile 2 1 g0, .gnodeFree 2 g0], (ready i (node (labOf i)) && free i (node (labOf i)) &&
      (liveNode (Says.begun i 0 0 (node (labOf i))) 0 0 ((Says.reads 0 0 (node (labOf i))).reg 2 0)).isSome && ((Says.begun i 0 0 (node (labOf i))).tile 0 1).bound.isNone &&
      decide (1 < ((Says.begun i 0 0 (node (labOf i))).block 0).tiles)) = true) ∧
    (let i := Instr.publishDecl true 0 2 4 g0;
      let s := tune (fun m => { m with wgs := m.wgs ++ [(1, { (default : Wg) with status := .running, shadows := [(0, ⟨true, 0x3000, 0x800, false⟩)] })] }) (seed [(2, 0x3000), (4, 0x800)] (labOf i));
      let b : Shadow := ⟨true, 0x3000, 0x800, false⟩;
      ready i s && free i s && !(declBroken (Says.begun i 0 0 s) 0 0 b) && vaultTaken (Says.begun i 0 0 s) 0 b) = true ∧
    (∀ i ∈ [Instr.publishDecl false 3 2 4 g0, .publishDecl true 0 2 4 g0], let s := seed [(2, 0x3000), (4, 0x800)] (labOf i);
      let b : Shadow := ⟨match i with | .publishDecl v _ _ _ _ => v | _ => false, 0x3000, 0x800, false⟩;
      (ready i s && free i s && !(declBroken (Says.begun i 0 0 s) 0 3 b) && !(vaultTaken (Says.begun i 0 0 s) 0 b)) = true) ∧
    (∀ i ∈ [Instr.publish 3 g0, .publishDrop 3 g0], let s := shadowed false (labOf i);
      (ready i s && free i s && decide (shadowSlot (Says.begun i 0 0 s) 0 3 = some ⟨false, 0x3000, 0x800, false⟩) && ready i (labOf i) && free i (labOf i) &&
        (shadowSlot (Says.begun i 0 0 (labOf i)) 0 3).isNone) = true) := by decide +kernel

/-- A global source to the last scratchpad bytes of the block, and a multicast to the issuer's own core. -/
theorem witness_CopiesJoin : (∀ e ∈ ([(.cpy 10 12 0 15 .glob .scr false 0 false .none true g0, ⟨512, .glob, .scr, none, false, .none, true, false⟩),
      (.cpym 10 12 16 15 .glob false 0 false true g0, ⟨512, .glob, .scr, none, false, .none, true, true⟩)] : List (Instr × CopySpec)),
      let s := seed [(10, 0x3E00), (12, 0x10100), (16, 1)] (labOf e.1);
      let m := Says.begun e.1 0 0 s;
      (ready e.1 s && free e.1 s && (copyTrap m (Says.iss e.1 0 0 s) e.2 0x10100 0x3E00 (if e.2.multi then 1 else 0)).isNone && decide (rookHeld m 0 < 256) && !(turnFull m 0 1) && !(engineLate m 0 false 0x3E00 512) && !(copyShared m 0 e.2 0x3E00) &&
        decide ((Says.reads 0 0 s).pair 12 0 = 0x10100) && decide ((Says.reads 0 0 s).reg 10 0 = 0x3E00)) = true) ∧
    (∀ i ∈ [Instr.cpy 10 12 0 0 .scr .scr false 0 false .none false ⟨7, 1, 0⟩, .cpym 10 12 16 4095 .glob false 0 false true ⟨7, 1, 0⟩], (ready i (labOf i) && decide (Says.eff i 0 0 (labOf i) = 0)) = true) := by
  decide +kernel

theorem witness_MessagesHandedOn : ∀ i ∈ [Instr.qsend 2 255 3 true 63 g0, .qrecv 4 2 0 0 false 0 g0],
    (let s := labOf i;
      let m := Says.begun i 0 0 s;
      let bad := seed [(2, 8)] (labOf i);
      let far := seed [(2, 0x4000)] (labOf i);
      let noTable := tune (fun m => m.modL 0 fun l => { l with block := { labBlock with capTable := 0 } }) (labOf i);
      ready i s && free i s && decide ((Says.reads 0 0 s).reg 2 0 = 0) && decide (4096 ≤ (m.block 0).scratch) && (scratchKeys m 0 0 4096).isSome && decide ((m.block 0).capTable ≠ 0) &&
        ready i bad && decide (((Says.reads 0 0 bad).reg 2 0).toNat % 16 ≠ 0) && ready i far && decide (((Says.begun i 0 0 far).block 0).scratch < ((Says.reads 0 0 far).reg 2 0).toNat + 16) &&
        ready i noTable && decide (((Says.begun i 0 0 noTable).block 0).capTable = 0) && (scratchKeys (Says.begun i 0 0 noTable) 0 0 4096).isSome) = true ∧
    (let j := Instr.qsend 2 255 3 true 63 g0;
      let s := labOf j;
      let fenced := tune (fun m => { m with nextCmd := 5 }) (withG (fun y => { y with outs := [{ (default : Out) with cls := 1, kind := .fence .acq .group 0xFFFFFFFF false, irec := { (default : IssueRec) with lanes := 0xFFFFFFFF } }] }) s);
      [(s, true), (fenced, false)].all fun t => ready j t.1 && free j t.1 &&
        decide (scratchNow (Says.iss j 0 0 t.1) (.qsend 63 0 4096 none true 3 (Says.eff j 0 0 t.1) false) (Says.begun j 0 0 t.1) = t.2)) = true := by decide +kernel

/-! ### Engines -/

def claimed (s : State) : State := tune (fun m => m.modSlot 0 3 fun x => { x with claimed := true }) s

theorem witness_OperandSlots : (let i := Instr.oclaim 3 g0;
      ready i (labOf i) && free i (labOf i) && decide (3 < ((Says.begun i 0 0 (labOf i)).block 0).slots)) = true ∧
    (let i := Instr.orelease 3 g0;
      ready i (claimed (labOf i)) && free i (claimed (labOf i)) && ((Says.begun i 0 0 (claimed (labOf i))).oslot 0 3).claimed) = true ∧
    (let i := Instr.oload 3 2 4 .glob g0;
      let s := seed [(2, 0x10000), (4, 128)] (claimed (labOf i));
      ready i s && free i s && ((Says.begun i 0 0 s).oslot 0 3).claimed && decide (((Says.reads 0 0 s).pair 2 0).toNat % 32 = 0) && (rowsTrap (Says.begun i 0 0 s) 0 .glob 0x10000 128 128).isNone) = true ∧
    (∀ e ∈ [(Instr.mconv 3 2 4 false false false false 1 0 g0, 512, 0, (⟨1, false, false⟩ : Form8)), (.mconv 2 2 4 true false false false 0 4 g0, 256, 4, ⟨0, false, false⟩)], let s := claimed (labOf e.1);
      (ready e.1 s && free e.1 s && !(badOperand e.2.2.1 e.2.2.2) && ((Says.begun e.1 0 0 s).oslot 0 3).claimed && (rowsTrap (Says.begun e.1 0 0 s) 0 .scr 0 0 e.2.1).isNone) = true) ∧
    (∀ i ∈ [Instr.mstat 4 1 g0, .mstat 4 16 g0, .mstat 4 35 g0], (ready i (labOf i) && free i (labOf i) && decide (1 < ((Says.begun i 0 0 (labOf i)).block 0).tiles) &&
      decide (35 - 32 < ((Says.begun i 0 0 (labOf i)).block 0).slots)) = true) := by decide +kernel

/-- A clearing word: slots 0 and 1, tile 0, signed by the groups given; both operands unsigned bytes; every lane holds them. -/
def signing (signers : Word) (s : State) : State := withG (fun y => (List.range 32).foldl (fun y l => (y.setReg 2 l 0x11).setReg 4 l (0x20 + signers <<< 16)) y) s

def signOk (i : Instr) (word : Word) (s : State) : Bool := let m := Says.begun i 0 0 s
  ready i s && free i s && decide (bits word 14 2 = 0) && (signSet m (Says.iss i 0 0 s) word none).isNone && (lanesOf (Says.act i 0 0 s)).all (fun l => decide ((Says.reads 0 0 s).reg 2 l = 0x11)) &&
    !(formatInvalid 0x11) && (mapTrap m (Says.iss i 0 0 s) word 0x11 true).isNone && (Says.reads 0 0 s).trapMode.isNone && (convOf m 0 7).isNone && decide ((Says.reads 0 0 s).reg 4 0 = word)

/-- A second group, alive, that has not signed; the table full. -/
def second (s : State) : State := tune (fun m => m.modW 0 fun x => { x with ngroups := 2, groups := x.groups ++ [(1, { (default : Group) with slot := 2, live := 1 })] }) s
def tableFull (s : State) : State := tune (fun m => m.modCluster 0 fun k => { k with table := List.replicate 32 default }) s

theorem witness_Signatures : let i := Instr.msign 7 2 4 0;
    (signOk i 0x10020 (signing 1 (labOf i)) && decide (signersOf 0x10020 = [0]) && tableRoom (Says.begun i 0 0 (signing 1 (labOf i))) 0 &&
      signOk i 0x10020 (tableFull (signing 1 (labOf i))) && !(tableRoom (Says.begun i 0 0 (tableFull (signing 1 (labOf i)))) 0) &&
      signOk i 0x30020 (second (signing 3 (labOf i))) && decide (signersOf 0x30020 = [0, 1])) = true := by decide +kernel

def atEngine (s : State) : State := tune (fun m => m.modTile 0 1 fun t => { t with atEngine := true }) s

theorem witness_Tiles : (∀ i ∈ [Instr.tacq 4 1 g0, .trel 1 g0, .tzero 1 g0, .tld 4 2 1 g0, .tst 4 2 1 g0], (ready i (labOf i) && free i (labOf i) && decide (1 < ((Says.begun i 0 0 (labOf i)).block 0).tiles) &&
      !((Says.begun i 0 0 (labOf i)).tile 0 1).atEngine && ready i (atEngine (labOf i)) && decide (Says.eff i 0 0 (atEngine (labOf i)) ≠ 0) && ((Says.begun i 0 0 (atEngine (labOf i))).tile 0 1).atEngine) = true) ∧
    (∀ i ∈ [Instr.tacq 4 2 g0, .trel 15 g0, .tzero 2 g0, .tld 4 2 2 g0, .tst 4 2 15 g0], (ready i (labOf i) && free i (labOf i) && decide (((Says.begun i 0 0 (labOf i)).block 0).tiles ≤ 2)) = true) := by decide +kernel

/-- Rows that end at the last scratchpad byte of the block; global rows; a tile beyond the count, a stride too small. -/
theorem witness_Drains : (∀ e ∈ [(Instr.tdrain 1 2 4 true true .scr g0, Space.scr, 0, 256), (.tdrain 1 2 4 false false .glob g0, .glob, 0x10000, 512)],
      let s := seed [(2, BitVec.ofNat 32 e.2.2.1), (4, BitVec.ofNat 32 e.2.2.2)] (labOf e.1);
      let m := Says.begun e.1 0 0 s;
      (ready e.1 s && free e.1 s && decide (1 < (m.block 0).tiles) && (rowsTrap m 0 e.2.1 e.2.2.1 e.2.2.2 256).isNone && decide ((m.wg 0).shadows = []) && !(drainShared m 0 e.2.1 e.2.2.1 e.2.2.2) &&
        (drainRefusal m 0 e.2.1 e.2.2.1 e.2.2.2).isNone) = true) ∧
    (∀ i ∈ [Instr.tdrain 16 2 4 false false .scr g0, .tdrain 1 2 4 false false .scr g0], (ready i (labOf i) && free i (labOf i) && decide ((Says.reads 0 0 (labOf i)).reg 4 0 = 0)) = true) := by decide +kernel

def colls : List (Instr × CollOp × (Group → Nat → DWord × BitVec 128 × BitVec 128)) :=
  let e := fun (y : Group) (l : Nat) => (y.pair 2 l, y.quad 4 l, (0 : BitVec 128))
  let h := fun (y : Group) (l : Nat) => (y.pair 2 l, (0 : BitVec 128), (0 : BitVec 128))
  let v := fun (y : Group) (l : Nat) => ((y.reg 2 l).setWidth 64, (0 : BitVec 128), (0 : BitVec 128))
  [(.cins 8 4 2 g0, .ins, e), (.crem 8 4 2 g0, .rem, e), (.cmove 8 4 2 g0, .move, fun y l => (y.pair 2 l, y.quad 4 l, y.quad 8 l)), (.copen 8 4 2 g0, .open_, e), (.cnext 8 2 g0, .next, v), (.cclose 2 g0, .close, v),
    (.ccount 8 2 2 g0, .count 2, h), (.cfreeze 8 2 g0, .freeze, h), (.cthaw 8 2 g0, .thaw, h), (.cnbr 8 2 27 g0, .nbr 27, h), (.cmrg 8 2 4 true true g0, .mrg true true, fun y l => (y.pair 2 l, 0, (y.pair 4 l).setWidth 128)),
    (.cinit 8 2 15 g0, .init 15, h), (.cinitRel 8 2 g0, .release, h)]

theorem witness_CollectionCommands : ∀ e ∈ colls, (let s := withG (fun y => { y with live := 1 }) (seed [(2, 0x10100)] (labOf e.1));
    let m := Says.begun e.1 0 0 s;
    let r := e.2.2 (Says.reads 0 0 s) 0;
    let as : List CollLane := [⟨0, r.1, r.2.1, r.2.2, (routeNow m 0 0 s.m.nextCmd e.2.1 r.1).getD unrouted, none, false⟩];
    ready e.1 s && free e.1 s && decide (lanesOf (Says.eff e.1 0 0 s) = [0]) && (collTraps e.2.1 as (Says.iss e.1 0 0 s) m).isNone && lanesRoom m (collNeeds as) && !(isDet m 0)) = true := by decide +kernel

theorem witness_KnightCommands : (∀ i ∈ [Instr.ktrav 8 2 true g0, .ktravResume 8 2 false g0], let s := seed [(2, 0x10080)] (labOf i);
      let m := Says.begun i 0 0 s;
      (ready i s && free i s && decide (((Says.reads 0 0 s).pair 2 0).toNat = 0x10080) && decide ((m.block 0).recordQueue ≠ 0) && !(isDet m 0) && decide (kWaiting m 0 < 16) && (kSpans m 0 0x10080 (m.block 0).recordQueue).all (fun r => !(engineLate m 0 false r.1 r.2)) &&
        ready i (bench i) && decide (Says.eff i 0 0 (bench i) ≠ 0) && decide (((Says.begun i 0 0 (bench i)).block 0).recordQueue = 0)) = true) ∧
    (ready (.kstat 4 1 g0) (labOf (.kstat 4 1 g0)) && free (.kstat 4 1 g0) (labOf (.kstat 4 1 g0))) = true := by decide +kernel

/-! ### Issues and steps -/

theorem witness_IssueFrame : ((labOf (.ldi 1 5 g0)).m.grp 0 0).run.isSome = true ∧ ((((labOf (.ldi 1 5 g0)).m.grp 0 0).run.getD default).rest.drop 1 ≠ []) := by decide +kernel

/-- An odd pair; the extended block without holding it; a result not due yet; one outstanding; a full class. -/
theorem witness_IssueChecks : (let i := Instr.add64 3 4 6 g0;
      (instrOpnds i).any fun o => decide (o.n ≠ 0 ∧ o.r % o.al ≠ 0)) = true ∧
    (let i := Instr.iadd 1 32 3 g0;
      (instrOpnds i).any (fun o => decide (o.n ≠ 0 ∧ 32 ≤ o.r + (o.n - 1))) && !((settle 0 0 (labOf i).m).grp 0 0).extHeld) = true ∧
    (let i := Instr.iadd 1 2 3 g0;
      let c := tune fun m => m.modW 0 fun x => { x with checking := true };
      let early := c (withG (fun y => { y with pend := [⟨0x10000, 99, false, [.reg 2 0 5]⟩] }) (labOf i));
      let out := c (withG (fun y => { y with outs := [{ aLoad with dregs := [3] }] }) (labOf i));
      (stallProducer i ((settle 0 0 early.m).grp 0 0)).isSome && ((settle 0 0 early.m).wg 0).checking && (stallProducer i ((settle 0 0 out.m).grp 0 0)).isNone &&
        (waitProducer i ((settle 0 0 out.m).grp 0 0)).isSome) = true ∧
    (let i := Instr.xrel g0;
      let s := withG (fun y => { y with extHeld := true, outs := [{ aLoad with dregs := [40] }] }) (labOf i);
      !((settle 0 0 s.m).wg 0).checking && (alwaysProducer i ((settle 0 0 s.m).grp 0 0)).isSome && !(misalignedPair i)) = true ∧
    (let i := Instr.reorder 0 6 12 0;
      let s := seed [(13, 1)] (labOf i);
      (movedRegs i ((settle 0 0 s.m).grp 0 0)).any (fun r => decide (32 ≤ r)) && !(misalignedPair i)) = true ∧
    (let i := Instr.ld32 4 2 0 g0;
      let s := withG (fun y => { y with outs := List.replicate 63 aLoad }) (labOf i);
      decide (instrWaitClass i = some 0) && decide (63 ≤ (((settle 0 0 s.m).grp 0 0).outs.filter fun o => decide (o.cls = 0)).length)) = true ∧
    (∀ i ∈ [Instr.add64 3 4 6 g0, .iadd 1 32 3 g0, .iadd 1 2 3 g0, .ld32 4 2 0 g0], (!(instrIsEvent i) && (labOf i).hw.running && decide ((labOf i).m.cur = some (0, 0))) = true) := by decide +kernel

/-- Guard pt inverted: no lane takes effect. -/
theorem witness_PredicatedOff : ∀ i ∈ [Instr.ld32 4 2 0 ⟨7, 1, 0⟩, .st128 4 2 63 ⟨7, 1, 0⟩, .sto 4 2 .rel .device .b8 ⟨7, 1, 0⟩, .bara 15 ⟨7, 1, 0⟩, .phsw 4 2 ⟨7, 1, 0⟩, .tst 4 2 15 ⟨7, 1, 0⟩, .sets 2 .cycle ⟨7, 1, 0⟩,
    .ownmarkPriv 4 2 true ⟨7, 1, 0⟩], (ready i (labOf i) && decide (Says.eff i 0 0 (labOf i) = 0)) = true := by decide +kernel

theorem witness_EncodeDecode : (Instr.iseti .lt 1 0 4 0).wf = true ∧ encode (.iseti .lt 1 0 4 0) = some [0x2A440010] ∧ decodeBytes [0x10, 0x00, 0x44, 0x2A] = .ok (.iseti .lt 1 0 4 0, []) := by decide +kernel

/-- The schedule names the issue; the default order comes to it; a reserved word; a step of the table. -/
theorem witness_StepRunsDecoded : (let s := labOf (.iadd 1 2 3 g0);
      s.m.cores.all (fun e => decide (agedLines s.m.cycle e.2 = [])) && canIssue s.aged.m 0 0 && decide (s.schedule = [.issue 0 0]) && decide (decodeBytes ((((s.m.grp 0 0).run.getD default).rest).flatMap fun v => leBytes 4 v.toNat) = .ok (.iadd 1 2 3 g0, []))) = true ∧
    (let s := State.reset.withFetchWord 32 0x3E000038;
      canIssue s.m 0 0 && s.hw.running && (match nextInstr ((s.m.grp 0 0).run.getD default) with | .error _ => true | .ok _ => false)) = true ∧
    ((List.range 4).any fun k => match nextTurn k (labOf (.iadd 1 2 3 g0)).m with | .issue 0 0 => true | _ => false) = true ∧ instrIsEvent (.queueEntry 0) = true := by decide +kernel

theorem witness_RecoveryExecutesNothing : State.reset.hw.running = false := by decide

theorem witness_BootInvariantStep : (State.reset.hw.running = true → Config.shake256 State.reset.hw.key = State.reset.hw.fuse ∧ Config.verifies State.reset.hw.key State.reset.hw.firmware State.reset.hw.sig = true) ∧
    (∃ t, step State.reset = .next t) := by
  refine ⟨fun h => absurd h (by decide), ?_⟩
  have : (match step State.reset with | .next _ => true | _ => false) = true := by decide +kernel
  revert this
  cases step State.reset with
  | next t => exact fun _ => ⟨t, rfl⟩
  | fault _ => intro h; cases h
  | refused _ => intro h; cases h
/-! ### The steps of accesses and cores -/

def labM : Mach := (labOf (.nop g0)).m

/-- A command of the group, number 0, and the machine that holds it. -/
def cmd (k : OutKind) (cls : Nat) : Out := { (default : Out) with id := 0, cls := cls, irec := { (default : IssueRec) with lanes := 1 }, kind := k }
def holding (o : Out) (m : Mach) : Mach := m.modG 0 0 fun y => { y with outs := y.outs ++ [o] }

def lane1 (a v : Nat) : LaneAcc := ⟨0, a, BitVec.ofNat 128 v, 0, none, false⟩
def aStore : Out := cmd (.store .global 4 .rlx .group [lane1 0x10040 7]) 1
def aVStore : Out := cmd (.store .vault 16 .rlx .group [lane1 0x3FFFF0 7]) 1
def aLd : Out := cmd (.load .global 8 false 9 .acq .device [lane1 0x10040 0]) 0
def aRmw (d : Option Reg) : Out := cmd (.rmw (.op .add) 4 d .ar .device false [lane1 0x10040 7]) (if d.isSome then 0 else 1)
def aCas : Out := cmd (.rmw .cas 8 (some 9) .rlx .group false [lane1 0x10040 7]) 0
def aScr : Out := cmd (.loadScratch 4 9 (some [.reg 9 0 5]) [lane1 0 0]) 2
def aScr0 : Out := cmd (.loadScratch 4 9 none [lane1 0 0]) 2

def performs (o : Out) (m : Mach) : Bool := decide ((m.wg 0).status ≠ .saved) && decide (findOut m 0 0 0 = some o) && !o.shared && (accFault m 0 o).isNone && mayPerform m ⟨0, 0, o⟩ &&
  (kindLanes o).all fun a => match accPlace m 0 o.kind a with | .ok p => decide (paTarget p.key ≠ 2) || p.vault | .error _ => false

/-- Each kind of access can be performed; a store to a page of each type; an access to an address that is not mapped is found faulting. -/
theorem witness_AccessesPerformed : (∀ o ∈ [aStore, aVStore, aLd, aRmw none, aRmw (some 9), aCas], performs o (holding o labM) = true) ∧
    (let m := holding aStore (pages [⟨0, 0, 1, 16, 0x10000, true, true, true, 1⟩] labM);
      performs aStore m && (match accPlace m 0 aStore.kind (lane1 0x10040 7) with | .ok p => decide (p.typ = 1) | _ => false) && decide ((Store.get [] (m.core 0).combine (0x10040 / 128)).length + 4 < 128)) = true ∧
    (∀ o ∈ [cmd (.store .global 4 .rlx .group [lane1 0x20000 7]) 1, cmd (.load .global 4 false 9 .rlx .group [lane1 0x20000 0]) 0, cmd (.rmw (.op .add) 4 none .rlx .group false [lane1 0x20000 7]) 1],
      (decide (findOut (holding o labM) 0 0 0 = some o) && !o.shared && (accFault (holding o labM) 0 o).isSome) = true) ∧
    (decide (findOut (holding aScr labM) 0 0 0 = some aScr) && decide (findOut (holding aScr0 labM) 0 0 0 = some aScr0) && scratchMay (holding aScr0 labM) 0 0 aScr0 && decide (scratchFaulty (holding aScr0 labM) 0 aScr0.kind = []) &&
      decide (scratchFaulty { (holding aScr0 labM) with failing := [.scratch 0 0], badRows := [rowOf (scratchKey 0 0)] } 0 aScr0.kind ≠ [])) = true ∧
    (Memory.wf labM.hbm && Memory.wf labM.vault && Memory.wf labM.scratch) = true := by decide +kernel

/-- The group's run stands before a clause that is not fetched yet. -/
def unfetched (h : Word) (ws : List Word) (m : Mach) : Mach :=
  ({ m with hbm := Memory.writeN m.hbm 0x10000 (leBytes 4 h.toNat ++ ws.flatMap fun w : Word => leBytes 4 w.toNat) } : Mach).modG 0 0 fun y => { y with run := y.run.map fun r => { r with fetched := false, rest := [], count := 0 } }

def fetching (m : Mach) : Bool := (m.grp 0 0).run.isSome && !(clauseWaits m 0 ((m.grp 0 0).run.getD default)) && wgActive (m.wg 0) && !((m.grp 0 0).run.getD default).fetched && (slotOf m 0 0).isSome

/-- A clause of one NOP; waiting on LD; a header without its mark; an opcode that is not assigned; nothing mapped. -/
theorem witness_CoreSteps_fetch : (∀ e ∈ [(0x1800000A, 0x00000038, 0), (0x1800010A, 0x00000038, 1), (0x18000001, 0x00000038, 2), (0x1800000A, 0x3E000038, 3)],
      let m := unfetched (BitVec.ofNat 32 e.1) [BitVec.ofNat 32 e.2.1] labM;
      (fetching m && match fetchWord m (wgSite m 0) 0 0 0x10000, fetchWords m (wgSite m 0) 0 0 0x10004 1 with
        | .ok h, .ok ws => (decide (e.2.2 = 2) && decide ((bits h 0 4).toNat ≠ 0xA)) || (decide ((bits h 0 4).toNat = 0xA) && decide ((bits h 24 3).toNat < 6) && decide (bits h 4 3 = 0) &&
            decide ((wordsCheck h ws).isSome = decide (e.2.2 = 3)) && decide (bits h 8 8 = 0 ↔ e.2.2 = 0 ∨ e.2.2 = 3))
        | _, _ => false) = true) ∧
    (let m := pages [] (unfetched 0x1800000A [0x38] labM);
      fetching m && match fetchWord m (wgSite m 0) 0 0 0x10000 with | .error _ => true | _ => false) = true := by decide +kernel

/-- A group without a slot: in a run, and at an entry of its frontier. -/
def unseated (inRun : Bool) (m : Mach) : Mach :=
  (m.modK 0 fun c => { c with slots := [] }).modG 0 0 fun y => { y with run := if inRun then y.run else none, frontier := if inRun then [] else [⟨0x10000, 0, 0xFFFFFFFF⟩] }

theorem witness_CoreSteps_slot : (∀ b ∈ [true, false], let m := unseated b labM;
      (decide ((Store.get none (m.core 0).slots 1 : Option (Nat × Nat)) = none) && decide (bestGroup m 1 (readyGroups m 0) = some (0, 0)) && decide ((m.grp 0 0).run.isSome = b)) = true) ∧
    (let m := unseated false labM;
      match bestEntry (issuable m 0 0) with | some e => !(breakMatches m 0 (m.grp 0 0) e) | none => false) = true := by decide +kernel

/-- The group stands at its wait point, with a fault that is due, and with nothing outstanding. -/
def waits (m : Mach) : Mach := m.modG 0 0 fun y => { y with run := y.run.map fun r => { r with hdr := 0x1800FF0A, waiting := true } }

theorem witness_CoreSteps_wait : (let m := settleCmds (waits (holding { aStore with fail := some ⟨.pageNotPresent, 1, 0x20000, 0⟩ } labM));
      wgActive (m.wg 0) && (m.grp 0 0).held.isNone && (m.grp 0 0).exiting.isNone && ((m.grp 0 0).run.getD default).waiting && (dueFault (m.grp 0 0) (waitMask m 0 0 ((m.grp 0 0).run.getD default))).isSome) = true ∧
    (let m := settleCmds (waits labM);
      let r := (m.grp 0 0).run.getD default;
      wgActive (m.wg 0) && (m.grp 0 0).held.isNone && (m.grp 0 0).exiting.isNone && r.waiting && (dueFault (m.grp 0 0) (waitMask m 0 0 r)).isNone && mayPass (m.wg 0) (m.grp 0 0) && decide ((m.grp 0 0).outs = []) &&
        decide (abortedOf m 0 0 r.lanes = []) && decide (r.lanes &&& (m.grp 0 0).live ≠ 0)) = true := by decide +kernel

/-- Special functions with and without a trap, fences that are done and that wait, a word that has changed, a commit of a region that is aborted, a remote access. -/
theorem witness_CoreSteps_commands : (∀ o ∈ [cmd (.sfu [.reg 9 0 5] 0 0) 3, cmd (.sfu [.reg 9 0 5] 1 2) 3, cmd (.fence .ar .device 1 false) 1, cmd (.waitw 4 9 .device [lane1 0x10000 0]) 0], decide (findOut (holding o labM) 0 0 0 = some o) = true) ∧
    (let o := cmd (.waitw 4 9 .device [lane1 0x10000 0]) 0;
      performs o (holding o labM) && (waitwLane (holding o labM) ⟨0, 0, o⟩ 4 (lane1 0x10000 0)).region.isSome && (placeOf (holding o labM) ⟨0, 0, o⟩ (lane1 0x10000 0)).isSome) = true ∧
    (let f := { (cmd (.fence .ar .device 1 false) 1) with id := 5 };
      let m := holding f (holding aStore labM);
      decide (findOut m 0 0 5 = some f) && (m.grp 0 0).outs.any fun e => fenceWaits m 0 0 f .ar .device e) = true ∧
    (let m := holding aStore (pages [⟨0, 0, 1, 16, 2 ^ 50, true, true, true, 0⟩] labM);
      decide ((m.wg 0).status ≠ .saved) && decide (findOut m 0 0 0 = some aStore) && isRemote m ⟨0, 0, aStore⟩ && mayPerform m ⟨0, 0, aStore⟩) = true := by decide +kernel

/-- A region with one store that lane 0 asks to commit; nothing it read has changed, or what it read has, with no tag left or with a constraint that no longer holds. -/
def committing (f : Region → Region) : Mach := holding (cmd (.gcommit 1) 0) { labM with regions := [f { region0 with asked := true, stores := [⟨0x10040, 4, 7, none⟩] }] }

/-- A constraint on a word of memory that reads 0. -/
def failed0 : Constr := ⟨0x10040, 4, 0, .eq, 5, true, true⟩

def mayCommit (m : Mach) (q : Region) : Bool :=
  decide (anyRegion m 0 0 0 = some q) && ((m.grp 0 0).outs.find? fun o => o.fail.isNone && match o.kind with | .gcommit ls => ls.getLsbD 0 | _ => false).isSome && commitPending m q && !(olderCommit m q) &&
    !(commitWaits m q) && q.aborted.isNone && decide ((regionLines m q).flatMap (lockers m q) = []) && (commitFault m q).isNone

theorem witness_CoreSteps_commit : (∀ q ∈ [{ region0 with asked := true, stores := [⟨0x10040, 4, 7, none⟩] }], (mayCommit (committing id) q && !q.changed) = true) ∧
    (∀ q ∈ [{ region0 with asked := true, stores := [⟨0x10040, 4, 7, none⟩], changed := true, plain := true }], mayCommit (committing fun q => { q with changed := true, plain := true }) q = true) ∧
    (∀ q ∈ [{ region0 with asked := true, stores := [⟨0x10040, 4, 7, none⟩], changed := true, constrs := [failed0] }],
      (mayCommit (committing fun q => { q with changed := true, constrs := [failed0] }) q && !(constrKept (committing id) 0 failed0)) = true) ∧
    (let m := committing fun q => { q with aborted := some (1, 0) };
      (anyRegion m 0 0 0).any (fun q => q.aborted.isSome) && ((m.grp 0 0).outs.find? fun o => o.fail.isNone && match o.kind with | .gcommit ls => ls.getLsbD 0 | _ => false).isSome) = true := by decide +kernel

/-- Page tables at 0x40000 to 0x43000 that map the page at 0x10000 to itself. -/
def tabled (m : Mach) : Mach := ({ (pages [] m) with
  hbm := [(0x40000, 0x41001), (0x41000, 0x42001), (0x42000, 0x43001), (0x43008, 0x10033)].foldl (fun h e => Memory.writeN h e.1 (leBytes 8 e.2)) m.hbm } : Mach).modC 0 0 fun c =>
    { c with desc := { c.desc with root := 0x40000 } }

def walking (x : Walk) (m : Mach) : Bool := decide (m.walks[0]? = some x) && !(walkFailing m x.va 3 (m.ctx x.part x.ctx).desc.root.toNat)

/-- A page that no TLB holds: its walk starts, completes on a table that maps it, for a core and for a die, and fails on one that does not; an entry goes where there is room, or takes another's place. -/
theorem witness_CoreSteps_walk : (let m := holding (cmd (.load .global 4 false 9 .rlx .group [lane1 0x10000 0]) 0) (tabled labM);
      (m.part 0).made && decide (pageAskers m 0 0 0x10000 = [0]) && decide (pageDies m 0 [0] = [0]) && decide (walksOn m 0 = [])) = true ∧
    (∀ cs ∈ [[0], []], let m := { tabled labM with walks := [⟨0, cs, 0, 0, 0x10000⟩] };
      (walking ⟨0, cs, 0, 0, 0x10000⟩ m && match walk m 0 0 0x10000 with | .ok t => decide (t.pa = 0x10000) | .error _ => false) = true) ∧
    (let m := { (pages [] labM) with walks := [⟨0, [0], 0, 0, 0x10000⟩] };
      walking ⟨0, [0], 0, 0, 0x10000⟩ m && match walk m 0 0 0x10000 with | .error _ => true | .ok _ => false) = true ∧
    ((tlbPut 1 0 0 0 0x10000 ⟨0x10000, 0, true, true, true, 16⟩ [⟨0, 0, 2, 16, 0x20000, true, true, true, 0⟩]).length = 1 ∧
      [(⟨0, 0, 2, 16, 0x20000, true, true, true, 0⟩ : TlbEntry)].any (TlbEntry.covers 0 0 0x10000) = false) := by decide +kernel

/-- An error that a read meets, passing and lasting, in each kind of memory. -/
theorem witness_CoreSteps_errors : ∀ loc ∈ [Loc.hbm 0x10000, .vault 0 0x3FFFFF, .scratch 0 0x3FFF], (let m := { labM with failing := [loc] };
    m.failing.contains loc && match loc with | .scratch c a => !(m.badRows.contains (rowOf (scratchKey c a))) | _ => true) = true := by decide +kernel

def anXacq : Out := cmd .xacq 7
/-- A request of the group; the one block held by a group that waits at barrier 3; both at their reorder. -/
def asks (m : Mach) : Mach := (holding anXacq m).modW 0 fun x => { x with xacqQ := [0] }
def stuck (m : Mach) : Mach := (((waits (asks m)).modBar 0 3 fun _ => ⟨true, 2, 1, 0, 0⟩).modL 0 fun l => { l with block := { l.block with xmax := 1 } }).modW 0 fun x =>
  { x with ngroups := 2, groups := x.groups ++ [(1, { (default : Group) with slot := 2, live := 1, extHeld := true, held := some (.barrier 3 0), arrived := [(3, 1)] })] }
def sorts (m : Mach) : Mach := m.modG 0 0 fun y => { y with held := some .reorder, reorder := some ⟨false, 0, 0x10004, []⟩ }

theorem witness_CoreSteps_holds : (decide (((asks labM).wg 0).status = .running) && decide (((asks labM).wg 0).xacqQ = [0]) && decide (((asks labM).wg 0).xcount < ((asks labM).block 0).xmax)) = true ∧
    ((waitsForExt ((stuck labM).grp 0 0)).isSome && (standsAtQu ((stuck labM).grp 0 0)).isSome && (deadlockAt (stuck labM) 0 0).isSome && wgActive ((stuck labM).wg 0) && ((stuck labM).grp 0 0).trapMode.isNone) = true ∧
    (let m := sorts labM;
      decide (((m.wg 0).groupIds.filter fun j => decide ((m.grp 0 j).live ≠ 0)) = [0]) && wgActive (m.wg 0) && (reorderOf (m.grp 0 0)).isSome && !(accessesLeft m 0 0)) = true ∧
    (let m := (second { labOf (.nop g0) with m := sorts labM }).m.modG 0 1 fun y => { y with run := (labM.grp 0 0).run, held := some .reorder, reorder := some ⟨true, 0, 0x10004, []⟩ };
      decide (((m.wg 0).groupIds.filter fun j => decide ((m.grp 0 j).live ≠ 0)) = [0, 1]) && [0, 1].all (fun j => (reorderOf (m.grp 0 j)).isSome) &&
        decide ((reorderOf (m.grp 0 0)).map (fun e => (e.wide, e.mask)) ≠ (reorderOf (m.grp 0 1)).map (fun e => (e.wide, e.mask)))) = true := by decide +kernel

/-! ### The steps of engines -/

/-- A slice of two sectors of a copy from global memory to the scratchpad, with its command. -/
def aSlice (src dst : Nat) (st : SliceStatus) : Slice := { (default : Slice) with src := src, dst := dst, len := 64, status := st }
def aCopy (sp : Space) : Copy := { (default : Copy) with srcSp := .glob, dstSp := sp, slices := [0], members := [0] }
def copying (src dst : Nat) (sp : Space) (st : SliceStatus) : Mach := holding (cmd (.copy 0 0) 7) { labM with slices := [(0, aSlice src dst st)], copies := [(0, aCopy sp)] }

/-- The slice that moves a sector next. -/
def moves1 (m : Mach) : Bool :=
  let s := m.slice 0
  sectorMoves m 0 s && !((rookSlices m (m.copy s.copy).cluster).any fun e => rookBefore e.2 s && sectorMoves m e.1 e.2) && (findOut m s.wg s.grp s.id).isSome

/-- A slice arrives, starts; a sector moves; its source and its destination are not mapped; a copy completes. -/
theorem witness_EngineSteps_copies : (let m := copying 0x10000 0x100 .scr .lodged;
      sliceArrives m (m.slice 0) && m.slices.all (fun e => decide ((m.slice 0).id ≤ e.2.id))) = true ∧
    (let m := copying 0x10000 0x100 .scr .queued;
      let s := m.slice 0;
      decide (s.status = .queued) && sliceInOrder m s && !(groupBusy m s.wg s.grp s.id) && (rookSlices m 0).all (fun e => decide (s.order ≤ e.2.order)) &&
        decide (((rookSlices m 0).filter fun e => decide (e.2.status ≠ .queued)).length < 64)) = true ∧
    (let m := copying 0x10000 0x100 .scr .running;
      moves1 m && match sectorPlan m (m.slice 0) with | .ok (_, ps) => decide (ps.length = 1) | .error _ => false) = true ∧
    (let m := copying 0x20000 0x100 .scr .running;
      moves1 m && match sectorPlan m (m.slice 0) with | .error (.pageNotPresent, 0, 0, _) => true | _ => false) = true ∧
    (let m := copying 0x10000 0x20000 .glob .faulted;
      moves1 m && match sectorPlan m (m.slice 0) with | .error (.pageNotPresent, 1, 0, 0x20000) => true | _ => false) = true ∧
    (let m := copying 0x10000 0x100 .scr .landed;
      let c := m.copy 0;
      !(copyFaulted m c) && c.slices.all (fun j => decide ((m.slice j).status = .landed)) && c.refused.isNone && allJoined m c && !(copyStalled m c) && !m.copies.isEmpty) = true := by decide +kernel

def unsaved (m : Mach) (o : Out) : Bool := decide (findOut m 0 0 0 = some o) && decide ((m.wg 0).status ≠ .saved)

/-- PUBLISH of a slot, of either kind; rows for an operand slot that are mapped, or not; a conversion. -/
theorem witness_EngineSteps_fills : (∀ drop ∈ [true, false], let o := cmd (.publish 1 drop) 7;
      let m := (holding o labM).modW 0 fun z => { z with shadows := [(1, ⟨false, 0x100, 64, !drop⟩)] };
      (unsaved m o && (shadowSlot m 0 1).any (fun s => !(shadowCopiesLeft m 0 s 0) && (!drop || !s.upper)) && !(earlierPublish m 0 1 0) && !(groupBusy m 0 0 0)) = true) ∧
    (∀ e ∈ [(0x10000, true), (0x20000, false)], let o := cmd (.oload 2 .glob e.1 128 0) 4;
      (decide (findOut (holding o labM) 0 0 0 = some o) && mayFill (holding o labM) 0 0 o 2 0 && match readRows (holding o labM) 0 .glob e.1 128 4 64 with
        | .ok _ => e.2
        | .error (some (.pageNotPresent, 0x20000)) => !e.2
        | _ => false) = true) ∧
    (let o := cmd (.mconv 2 true false false false 0 3 0 256 0) 4;
      decide (findOut (holding o labM) 0 0 0 = some o) && mayFill (holding o labM) 0 0 o 3 0 && match convRows (holding o labM) 0 0 256 (convRow 3) 64 with | .ok r => decide (r.length = 64) | _ => false) = true := by decide +kernel

/-- A pass that waits in the table of cluster 0, and one in the engine. -/
def aPass : Pass := { (default : Pass) with tile := 1, a := 2, b := 3, id := 4 }
def passing (table inEngine : List Pass) : Mach := labM.modCluster 0 fun k => { k with table := table, inEngine := inEngine }

/-- The last signature of a pass; a pass that starts, one that retires; tokens, elements, status words. -/
theorem witness_EngineSteps_passes : (let m := (labM.modG 0 0 fun y => { y with held := some (.msign 3) }).modW 0 fun z => { z with convs := [(3, default)] };
      ((m.wg 0).groupIds.find? fun g => decide ((m.grp 0 g).held = some (.msign 3))).isSome && wgActive (m.wg 0) && tableRoom m 0 && (convOf m 0 3).isSome) = true ∧
    (let m := passing [{ aPass with id := 5, base := 1 }, aPass] [];
      decide (((sortBy (passBefore m.cycle) ((m.cluster 0).table.filter (passReady m 0))).map (·.id)) = [5]) || decide (((sortBy (passBefore m.cycle) ((m.cluster 0).table.filter (passReady m 0))).map (·.id)) = [4])) = true ∧
    (let m := passing [] [aPass];
      decide ((m.cluster 0).inEngine = [aPass]) && decide ((m.wg 0).status ≠ .absent) && decide ((m.wg 0).status ≠ .ended)) = true ∧
    (let o := cmd (.tacq 9 1 1) 4;
      unsaved (holding o labM) o && decide (passesOn (holding o labM) 0 1 = []) && (wgOuts (holding o labM) 0).all fun e => decide (0 ≤ e.2.id)) = true ∧
    (∀ o ∈ [cmd (.tld [.reg 9 0 5]) 4, cmd (.mstat 9 33 1) 4], unsaved (holding o labM) o = true) := by decide +kernel

/-- A tile drained, by storing and by adding; a row that is not mapped. -/
theorem witness_EngineSteps_drain : (∀ e ∈ [(Space.scr, 0, true, false), (Space.scr, 0, true, true), (Space.glob, 0x20000, false, false)],
      let o := cmd (.tdrain 1 false e.2.2.2 e.1 e.2.1 256 (some ([(0, 1), (4095, 2)], true)) 0) 4;
      let m := holding o labM;
      (decide (findOut m 0 0 0 = some o) && !(drainWaits m 0 o 1 e.1) && (drainSectors e.2.1 256).all (fun f => !(engineWaits m 0 e.1 f.2)) && match drainPlaces m 0 e.1 e.2.2.2 ((drainSectors e.2.1 256).filter fun f => decide (0 ≤ f.1)) with
        | .ok ps => e.2.2.1 && ps.all (fun p => p.2.all fun pl => !(placeErrors m e.1 pl 32).1) && (drainAll e.2.2.2 true [(0, 1), (4095, 2)] e.1 ps m).2.isNone
        | .error (c, a) => !e.2.2.1 && decide (c = .pageNotPresent) && decide (a = 0x20000)) = true) := by decide +kernel

/-- Words placed in memory. -/
def poke (es : List (Nat × Nat)) (m : Mach) : Mach := { m with hbm := es.foldl (fun h e => Memory.writeN h e.1 (leBytes 4 e.2)) m.hbm }

/-- An initialised collection with no element, plain or of places, that engine 0 serves, and a queue of engine lane 0. -/
def collected (layout state : Nat) (queue : List CollCmd) (busy : Option CollCmd) : Mach :=
  let m := poke [(0x10200, 1), (0x10204, layout), (0x10218, 16), (0x1021C, 16), (0x10258, 2), (0x1025C, 2), (0x10264, 0xFFFFFFFF), (0x10268, state),
    (0x10400, 0x10200), (0x10408, 0x10200), (0x10410, 0x10440), (0x10418, 0x10480), (0x10420, 4)] labM
  let o := cmd (.coll .freeze 8 12 [] [0] []) 5
  holding o { m.modP 0 fun q => { q with lanes := [(0, 0)] } with sealed_ := [⟨0x10200, 0, [(0x10200, 256)]⟩], elanes := [(0, { (default : ELane) with queue := queue, busy := busy })] }

def onHdr (op : CollOp) (hdr : DWord) : CollCmd := { (default : CollCmd) with op := op, arg := { (default : CollLane) with hdr := hdr } }
def sealedHdr (m : Mach) (c : CollCmd) (frozen : Bool) : Bool := (collDenied m c).isNone && match collAt m c c.arg.hdr.toNat with | .ok (_, x) => decide (x.h.frozen = frozen) | .error _ => false

/-- A command tried, one that succeeds and one that faults; a build and a thaw that are done; inserts into a frozen collection and one that is not; a removal. -/
theorem witness_EngineSteps_collections : (∀ c ∈ [onHdr (.count 0) 0x10200, onHdr .close 0], let m := collected 0 1 [c] none;
      ((((collAdmit 0 m).elane 0).queue.findSome? (collTry 0 (collAdmit 0 m))).isSome && ((collAdmit 0 m).elane 0).busy.isNone && collReady m c && decide (c.op ≠ .thaw) && (match c.op with | .nbr _ => false | _ => true) &&
        match collPerform (m.modLane 0 (ELane.take c)) c with | .ok _ => decide (c.op ≠ .close) | .error (.fault e _ _) => decide (e = .cursorInvalid) && decide (c.op = .close) | .error .wait => false) = true) ∧
    (let c := onHdr (.nbr 0) 0x10400;
      let m := collAdmit 0 (collected 0 3 [] (some c));
      decide ((m.elane 0).busy = some c) && match collPerform m c with | .ok _ => true | .error _ => false) = true ∧
    (let c := onHdr .thaw 0x10200;
      let m := collected 0 3 [] (some c);
      !(thawWaits m c) && match collPerform (m.modLane 0 fun e => { e with busy := none }) c with | .ok _ => true | .error _ => false) = true ∧
    (∀ op ∈ [CollOp.ins, .rem, .move], sealedHdr (collected 1 3 [] none) (onHdr op 0x10200) true = true) ∧
    (∀ op ∈ [CollOp.ins, .rem], sealedHdr (collected 1 1 [] none) (onHdr op 0x10200) false = true) ∧
    (match collAt (collected 1 1 [] none) (onHdr .ins 0x10200) 0x10200 with | .ok (_, x) => (newElem x.h 0).isSome | .error _ => false) = true := by decide +kernel

/-- A traversal of two trees whose roots are internal nodes or leaves at the same place, with a stack and the slot that is being filled. -/
def traversing (word : Nat) (stack : List (Nat × Nat)) (slot : Option (Nat × Nat)) (ends : Option KEnd) : Mach :=
  let m := poke [(0x10080, 0x10800), (0x10088, 0x10800), (0x10090, word), (0x10094, word), (0x100D0, 0x10C00), (0x10100, 0x10900), (0x10108, 4), (0x1010C, 1), (0x10110, 0x10A00)] labM
  let c : KCmd := { (default : KCmd) with desc := 0x10080, queue := 0x10100 }
  (holding (cmd (.ktrav 8 1 0x10080 0x10100 false false 0 []) 6) m).modCluster 0 fun k =>
    if ends = some .again then { k with waiting := [c] } else { k with krun := some ⟨c, 0x10900, 4, 1, 0x10A00, stack, slot, 0, 0, ends⟩ }

def pairOf (m : Mach) : Option (Nat × Except Unit (Nat × Nat) × Nat) :=
  match (m.cluster 0).krun with
  | some r => match r.stack, kDesc m r.cmd with
    | (a, b) :: rest, .ok d => match kPair m r.cmd d a b with
      | .ok (.push ps) => some (ps.length + rest.length, .error (), 0)
      | .ok (.emit x y) => some (0, .ok (x, y), match kEmit m r (fieldAt d 0x18 4) x y with | .ok .full => 1 | .ok (.done _ _) => 2 | _ => 3)
      | _ => none
    | _, _ => none
  | none => none

/-- A traversal starts; its stack is empty; a pair of internal nodes pushes two pairs, or too many; a pair of leaves is emitted, or finds no slot; the three ends. -/
theorem witness_EngineSteps_knight : (let m := traversing 5 [] none (some .again);
      (m.cluster 0).krun.isNone && ((m.cluster 0).waiting.find? (kInOrder m)).any fun c => (kTry 0 m c).isSome) = true ∧
    (let m := traversing 5 [] none none;
      match (m.cluster 0).krun with | some r => decide (r.stack = []) && r.ends.isNone | none => false) = true ∧
    (match pairOf (traversing 5 [(rootCode, rootCode)] none none) with | some (2, .error (), _) => true | _ => false) = true ∧
    (match pairOf (traversing 5 (List.replicate 64 (rootCode, rootCode)) none none) with | some (n, .error (), _) => decide (64 < n) | _ => false) = true ∧
    (match pairOf (traversing 0x80000007 [(rootCode, rootCode)] (some (0, 0)) none) with | some (_, .ok (7, 7), 2) => true | _ => false) = true ∧
    (match pairOf (traversing 0x80000007 [(rootCode, rootCode)] none none) with | some (_, .ok (7, 7), 1) => true | _ => false) = true ∧
    (∀ e ∈ [KEnd.done, .full, .fault default], let m := traversing 5 [] none (some e);
      (match (m.cluster 0).krun with | some r => decide (r.ends = some e) && (kWrites e r m).2.isNone | none => false) = true) := by decide +kernel

/-- A machine whose capability table names a channel (entry 1), a host (entry 2), and holds an entry that is not valid (entry 3). -/
def talking (o : Out) (msgs : List Msg) : Mach :=
  let m := poke [(0x10610, 5), (0x10614, 0x20000000), (0x10618, 100), (0x1061C, 3), (0x10620, 4), (0x10624, 0x10000000), (0x10628, 0xFFFFFFFF), (0x1062C, 1)] labM
  (holding o (m.modL 0 fun l => { l with block := { l.block with capTable := 0x10600 } })).modP 0 fun q => { q with channels := [(5, ⟨1, msgs⟩)], fabric := [(4, { (default : Fabric) with valid := true })] }

def sends (k : Nat) (sent : Bool) : Out := cmd (.qsend k 0 16 (some [1, 2, 3, 4, 5, 6, 7, 8, 9, 10, 11, 12, 13, 14, 15, 16]) true 1 1 sent) 7
def takes (k : Nat) : Out := cmd (.qrecv k 0 32 true 1 9 1) 7
def aMsg : Msg := ⟨0, 0, List.replicate 16 1⟩

/-- The machine after the capability entry of a command is read. -/
def seenCap (k : Nat) (m : Mach) : Mach := (readCap 0 k m).2
def pages1 (w : Bool) (m : Mach) : Mach := pages [⟨0, 0, 1, 16, 0x10000, true, w, true, 0⟩] m

/-- Messages to a channel and a host, no room, no right, an allowance that cannot be written; a host that acknowledges; a message received, none, no right; a record that waits. -/
theorem witness_EngineSteps_messages : (∀ e ∈ [(1, ([] : List Msg)), (1, [aMsg]), (2, [])], let m := talking (sends e.1 false) e.2;
      let n := seenCap e.1 m;
      (decide (findOut m 0 0 0 = some (sends e.1 false)) && !(groupBusy m 0 0 0) && match useCap 0 e.1 (fun f => f.send && decide (16 ≤ f.allow)) n with
        | .ok f => !(earlierMessage n 0 0 0 f.tgt) && decide (targetRoom n 0 f.tgt = e.2.isEmpty) && (match (spendAllowance 0 e.1 16 f.allow (flushAll (n.wg 0).core n.useFree)).1 with | .ok _ => true | _ => false)
        | .error _ => false) = true) ∧
    (let n := seenCap 1 (pages1 false (talking (sends 1 false) []));
      match useCap 0 1 (fun f => f.send && decide (16 ≤ f.allow)) n with
        | .ok f => targetRoom n 0 f.tgt && (match (spendAllowance 0 1 16 f.allow (flushAll (n.wg 0).core n.useFree)).1 with | .error _ => true | _ => false)
        | .error _ => false) = true ∧
    (let m := talking (sends 3 false) [];
      !(groupBusy m 0 0 0) && match useCap 0 3 (fun f => f.send && decide (16 ≤ f.allow)) (seenCap 3 m) with | .error (c, _) => decide (c = .capabilityInvalid) | _ => false) = true ∧
    decide (findOut (talking (sends 2 true) []) 0 0 0 = some (sends 2 true)) = true ∧
    (∀ xs ∈ [[aMsg], []], let m := talking (takes 1) xs;
      let n := seenCap 1 m;
      (!(frozen (m.wg 0)) && !(earlierReceive m 0 0 0 1) && (scratchKeys n 0 0 16).isSome && decide ((channelOf n 0 5).msgs = xs) && match useCap 0 1 mayReceive n with
        | .ok f => decide (f.tgt = .channel 5) | .error _ => false) = true) ∧
    (let m := talking (takes 2) [];
      match useCap 0 2 mayReceive (seenCap 2 m) with | .error (c, _) => decide (c = .capabilityPermission) | _ => false) = true ∧
    (let m := labM.modP 0 fun q => { q with backlog := [[1]], channels := [(0, ⟨1, []⟩)] };
      decide ((m.part 0).backlog = [[1]]) && decide ((channelOf m 0 0).msgs.length < (channelOf m 0 0).cap)) = true := by decide +kernel

/-! ### The steps of hosts and of the life of launches -/

/-- A partition with context 0 resident, a queue for its priority 0, and a launch block of one workgroup at 0x10200. -/
def hosted (m : Mach) : Mach :=
  (poke [(0x10200, 0x10000), (0x10210, 1), (0x10214, 0x901), (0x10218, 256), (0x10220, 0x7FFFFFFF), (0x10224, 0x7FFFFFFF)] m).modP 0 fun z =>
    { z with pool := 1, queueWords := [(0, 1)], ctxs := [(0, { (default : Ctx) with state := 1 })] }

def hostM : Mach := hosted labM
def readied (m : Mach) : Mach := m.modP 0 fun z => { z with ready := [⟨0, 0, 0x10200, none, none⟩] }
def noQueue (m : Mach) : Mach := m.modP 0 fun z => { z with queueWords := [] }
def reading (m : Mach) (root : Bool) : BlockRead := readBlock (m.modP 0 fun z => { z with ready := [] }) 0 0 0x10200 root

/-- Blocks that may enter a queue, that have none, that are not valid, that cannot be read. -/
theorem witness_HostSteps_entries : decide ((readied hostM).part 0 |>.ready |>.length |> (· = 1)) = true ∧
    (match reading hostM false with | .ok b => decide (queueFor hostM 0 0 b.priority = some 0) && decide (queueFor (noQueue hostM) 0 0 b.priority = none) | _ => false) = true ∧
    (match reading (poke [(0x10258, 1)] hostM) false with | .bad .launchBlockInvalid b => decide (queueFor hostM 0 0 b.priority = some 0) | _ => false) = true ∧
    (match reading (pages [] hostM) false with | .fault .pageNotPresent => true | _ => false) = true ∧
    (match reading { hostM with failing := [.hbm 0x10220] } false with | .wait => true | _ => false) = true ∧
    (match reading hostM true with | .ok b => decide ((hostM.ctx 0 0).state = 1) && decide (queueFor hostM 0 0 b.priority = some 0) && decide ((hostM.part 0).pool ≠ 0) | _ => false) = true ∧
    (match reading (poke [(0x10230, 1)] hostM) true with | .bad _ _ => true | _ => false) = true ∧ (hostM.ctx 0 1).state ≠ 1 := by decide +kernel

/-- The launch stands in its queue; a workgroup stands on its restore list. -/
def queued : Mach := match reading hostM true with | .ok b => enterQueue ⟨0, 0, 0x10200, none, none⟩ 0 b true hostM | _ => hostM
def wantSave (m : Mach) : Mach := m.modW 0 fun x => { x with preempt := some .full }
def parkedAt (f : Run → Run) (m : Mach) : Mach := m.modG 0 0 fun y => { y with run := y.run.map f }
/-- The group stands between two clauses, with nothing in a slot. -/
def between (m : Mach) : Mach := (m.modK 0 fun c => { c with slots := [] }).modG 0 0 fun y => { y with run := none, frontier := [⟨0x10000, 0, 0xFFFFFFFF⟩] }
def savedM : Mach := match preemptionSave 0 (wantSave (between hostM)) with | m => m

/-- A second workgroup of the launch, which is resident and stands at no wait point, beside the first where its unit is saved together. -/
def sibling (two : Bool) (m : Mach) : Mach :=
  if two then (m.modL 0 fun l => { l with block := { l.block with progress := 0 } }) |> fun m => { m with wgs := Store.upd default m.wgs 1 fun _ => { labM.wg 0 with wgid := 1 } } else m
/-- The header of its next clause, at 0x10008, has the yield bit. -/
def yielding (two : Bool) : Mach := ((sibling two (between hostM)).modW 0 fun x => { x with yieldPending := true, cont := 0x10008 }).modG 0 0 fun y => { y with frontier := [⟨0x10008, 0, 0xFFFFFFFF⟩] }
def preempted (two : Bool) : Mach := wantSave (sibling two (between hostM))

theorem witness_HostSteps_admission : (let n := admissionStop 0 (countLack 0 queued);
      decide (restoreCands n 0 0 = []) && decide (queueCands n 0 0 ≠ []) && (List.range 8).all fun j => decide (j = 0) || (decide (restoreCands n 0 j = []) && decide (queueCands n 0 j = []))) = true ∧
    (let n := admissionStop 0 (countLack 0 savedM);
      decide ((savedM.wg 0).status = .saved) && decide (restoreCands n 0 0 ≠ []) && (List.range 8).all fun j => decide (j = 0) || (decide (restoreCands n 0 j = []) && decide (queueCands n 0 j = []))) = true ∧
    ((match queueHead queued 0 0 with | some l => (launchPlan queued l).isSome && decide ((queued.launch l).block.det = false) | none => false)) = true ∧
    (let m := { (queued.modL 1 fun l => { l with lackSince := some 0 }) with cycle := 130000 };
      let m := match queueHead m 0 0 with | some k => m.modL k fun l => { l with lackSince := some 0 } | none => m;
      headStarved m 0 0 && decide ((m.part 0).stopped = none) && (List.range 64).all fun j => !(headStarved m 0 j) || decide (j = 0)) = true := by decide +kernel

/-- A workgroup that starts, two that retire, one that yields (its header at 0x10008 has the yield bit), one that stands still, two that are saved or aborted. -/
theorem witness_HostSteps_workgroups : ((({ hostM with wgs := Store.upd default hostM.wgs 0 fun x => { x with status := .admitted } } : Mach).wg 0).status = .admitted) ∧
    startsLater { hostM with wgs := Store.upd default hostM.wgs 0 fun x => { x with status := .admitted } } 0 = false ∧
    (let m := (hostM.modW 0 fun x => { x with status := .retiring }).modL 0 fun l => { l with block := { l.block with det := true } };
      decide ((m.wg 0).status = .retiring) && isDet m 0 && !(turnEnded m 0) && holdsTurn m 0 && !(isDet hostM 0)) = true ∧
    (let m := ((between hostM).modW 0 fun x => { x with yieldPending := true, cont := 0x10008 }).modG 0 0 fun y => { y with frontier := [⟨0x10008, 0, 0xFFFFFFFF⟩] };
      yieldReady m 0) = true ∧
    (let m := (waits hostM).modW 0 fun x => { x with yieldPending := true };
      let m := { m with cycle := 5000 };
      wgActive (m.wg 0) && (m.wg 0).yieldPending && (m.wg 0).preempt.isNone && (m.wg 0).groupIds.any (fun g => !(groupParked m 0 g)) && (m.wg 0).groupIds.all (fun g => groupParked m 0 g || standsStill m 0 g) &&
        decide (stallFrom m 0 + (if (m.wg 0).stallSkip.1 = stallFrom m 0 then (m.wg 0).stallSkip.2 else 0) + 1300 ≤ m.cycle)) = true ∧
    ((savedWith (yielding false) 0).all (leavesNow (yielding false)) && yieldReady (yielding false) 0 && yieldReady (yielding true) 0 && !((savedWith (yielding true) 0).all (leavesNow (yielding true)))) = true ∧
    ((savedWith (preempted false) 0).all (leavesNow (preempted false)) && saveReady (preempted false) 0 && saveReady (preempted true) 0 && !((savedWith (preempted true) 0).all (leavesNow (preempted true)))) = true ∧
    (decide ((savedM.wg 0).status = .saved) && savedM.clusters.any (fun e => e.2.bank.contains 0)) = true ∧
    (∀ killed ∈ [true, false], let m := (wantSave (between hostM)).modL 0 fun l => { l with killed := killed };
      (decide ((m.wg 0).preempt = some .full) && decide ((m.wg 0).status = .running) && decide ((m.launch (m.wg 0).launch).killed = killed) && saveReady m 0 && allStopped m 0) = true) := by decide +kernel

/-- A context's state, and a descriptor within the limits. -/
def inState (k : Nat) (q : Bool) (m : Mach) : Mach := m.modC 0 0 fun x => { x with state := k, quantum := q }
def aDesc : CtxDesc := { (default : CtxDesc) with saveSize := 3211264, traceBase := 0x10C00, traceSize := 12 }

/-- A quantum starts and expires; swaps; pre-emption; a move that is allowed and one that is not; reserves; descriptors; the end of a context. -/
theorem witness_HostSteps_contexts : (let m := inState 2 false savedM;
      waitsOut m 0 0 && m.wgIds.all (fun v => decide ((m.wg v).ctx = 0) || !(runnable m v)) && (List.range 16).all fun d => !((m.ctx 0 d).quantum) && (decide (d = 0) || !(waitsOut m 0 d))) = true ∧
    (let m := { inState 2 true hostM with cycle := 130000 };
      decide ((m.ctx 0 0).state = 2) && (m.ctx 0 0).quantum && decide ((m.ctx 0 0).outSince + 130000 ≤ m.cycle)) = true ∧
    (((hostM.part 0).made = true) ∧ (hostM.ctx 0 0).state = 1 ∧ ((inState 2 false hostM).ctx 0 0).quantum = false ∧ descOk aDesc 1 = true ∧ ((inState 2 false hostM).ctx 0 0).state ≠ 1) ∧
    (targetGone hostM 0 .part = false ∧ (targetWgs hostM 0 .part).any (fun v => onCore (hostM.wg v)) = true ∧ (targetWgs savedM 0 .part).all (fun v => !(onCore (savedM.wg v))) = true) ∧
    (let m := (noQueue (inState 2 false savedM)).modC 0 0 fun x => { x with desc := aDesc };
      let m := (m.modW 0 fun x => { x with spilled := true }).modP 1 fun q => { q with made := true, clusters := [1], pool := 8, nodesFree := 8 };
      moveOk m 0 0 1 0 && moveSettled m 0 0 && !(moveOk m 0 0 2 0)) = true ∧
    (holdsWork hostM 0 0 = true ∧ holdsWork hostM 0 1 = false ∧ descOk default 1 = false) ∧
    (let freed := fun (m : Mach) => (((m.part 0).nodes.filter fun e => e.2.armed && decide (e.2.ctx = 1)).map (·.1)).foldl (fun acc k => freeSlots 0 1 (freeNode 0 k false acc)) m;
      !(holdsWork (freed hostM) 0 1)) = true := by decide +kernel

def haltedM (step : Option Nat) : Mach := (waits hostM).modW 0 fun x => { x with halted := true, stepLeft := step }

/-- A launch that can be killed; halts, steps, replays; what a debugger reads and writes; counters and trace records. -/
theorem witness_HostSteps_debug : (((hostM.launches.find? fun e => e.2.live && decide (e.2.part = 0) && decide (e.2.ctx = 0) && decide (e.2.addr = 0)).isSome) = true ∧
      (hostM.launches.all fun e => decide (e.2.addr ≠ 4)) = true ∧ targetGone hostM 0 (.wg 0) = false) ∧
    (let m := (waits hostM).modW 0 fun x => { x with haltReq := true };
      haltReady m 0 && (m.wg 0).haltReq && (m.wg 0).stepEvent.isNone) = true ∧
    (let m := (waits hostM).modW 0 fun x => { x with stepEvent := some 1 };
      haltReady m 0 && decide ((m.wg 0).stepEvent = some 1)) = true ∧
    (((haltedM none).wg 0).halted = true ∧ (hostM.wg 0).halted = false ∧ targetWgs hostM 0 .part = [0] ∧ (hostM.wg 0).wgid = 0) ∧
    (let m := haltedM none;
      (dbgLaneRead m 0 (.reg 0 0 9)).isSome && (dbgLaneRead m 0 (.reg 3 0 9)).isNone && (match dbgLaneWrite m 0 (.reg 0 0 9) 5 with | some (.ok _) => true | _ => false) &&
        (match dbgLaneWrite m 0 (.reg 3 0 9) 5 with | some (.error e) => decide (e = .invalid) | _ => false) && !(dbgPending (m.grp 0 0) 0 9 false)) = true ∧
    (∀ it ∈ [DbgItem.scratch 0, .mem 0x10100], let m := haltedM none;
      ((dbgLaneRead m 0 it).isNone && (dbgLaneWrite m 0 it 1).isNone && decide ((m.wg 0).status ≠ .saved) && [Right.read, .write].all fun r => match (dbgByte 0 it r m).1 with | some (.ok _) => true | _ => false) = true) ∧
    ([Right.read, .write].all fun r => (match (dbgByte 0 (.mem 0x20000) r (haltedM none)).1 with | some (.error e) => decide (e = .pageNotPresent) | _ => false) && (dbgByte 0 (.scratch 0x4000) r (haltedM none)).1.isNone) = true ∧
    (let m := savedM.modW 0 fun x => { x with halted := true };
      decide ((m.wg 0).status = .saved) && decide (0 < (m.block 0).scratch)) = true ∧
    partOfCore hostM 0 = some 0 ∧
    (∀ unread ∈ [0, 128], let m := hostM.modC 0 0 fun x => { x with desc := aDesc, records := [List.replicate 32 1], traceUnread := unread };
      let x := m.ctx 0 0;
      (!x.records.isEmpty && if unread = 0 then decide (x.traceUnread < 2 ^ x.desc.traceSize.toNat / 32) && [true, false].all fun wr =>
            match (hwWrite (partSite (pages1 wr m) 0) 0 0 (x.desc.traceBase.toNat + 32 * x.traceIndex.toNat) false (pages1 wr m)).1 with | .ok _ => wr | .error _ => !wr
        else decide (2 ^ x.desc.traceSize.toNat / 32 ≤ x.traceUnread)) = true) := by decide +kernel

def bytes16 : List Byte := List.replicate 16 1

/-- Queue words and control words that are taken, ignored and refused; messages with and without room; writes of hosts and other devices. -/
theorem witness_HostSteps_ports : (queueWordBad hostM 0 0 0x200 = true ∧ queueWordBad hostM 0 1 0x13 = false ∧ qValid (queueWord hostM 0 1) = false ∧ queueWordBad hostM 0 0 0x101 = false ∧
      qValid (queueWord hostM 0 0) = true ∧ queueWordBad hostM 0 0 0 = false ∧ qValid 0 = false) ∧
    (csReservedOk (.fabric 0 0 0 0 4 0) = false ∧ csReservedOk (.channelSize 1 4) = true ∧ csOk hostM 0 (.channelSize 1 4) = true ∧ csOk hostM 0 (.channelSize 1 0) = false) ∧
    (let room := hostM.modP 0 fun q => { q with channels := [(0, ⟨1, []⟩)] };
      let full := hostM.modP 0 fun q => { q with channels := [(0, ⟨1, [aMsg]⟩)] };
      decide ((channelOf room 0 0).msgs.length < (channelOf room 0 0).cap) && !(decide ((channelOf full 0 0).msgs.length < (channelOf full 0 0).cap)) && decide (bytes16.length % 16 = 0)) = true ∧
    (let m := hostM;
      (match rmaPlaces m 0 0 0x10100 16 with | some qs => (rmaPlaces (retryAll qs m) 0 0 0x10100 16).isSome | none => false) && (rmaPlaces hostM 0 0 0x20000 16).isNone) = true ∧
    (arrivalFault hostM 0 0x10100 16 true = none ∧ arrivalFault hostM 0 0x10100 4 false = none ∧ arrivalFault hostM 5 0x10100 4 true = some .accessTableDeny ∧ planeClosed hostM 0x10100 = false ∧
      planeClosed { hostM with planesDown := [1] } 0x10100 = true ∧ linkUp hostM = true ∧ (hostM.part 0).made = true ∧ leNat (readPa hostM 0x10100 4) ≠ 5 % 2 ^ 32) ∧
    (cfgOk hostM 2 ⟨0, [3], [(0, 1)], [⟨2, 0x20000, 0x1000, true, true, .hbm⟩], []⟩ = true ∧ Memory.wf hostM.hbm = true ∧ hostM.failing.contains (Loc.hbm 0) = false ∧ hostM.planesDown.contains 3 = false) := by decide +kernel

/-- Firmware: whatever key and signature verify, an image is accepted in recovery from a device whose fuse holds the key's hash, and no other is. -/
theorem witness_HostSteps_firmware (bs key sig : List Byte) : let s : State := { State.reset with hw := { State.reset.hw with fuse := Config.shake256 key } };
    s.hw.running = false ∧ Config.shake256 key = s.hw.fuse ∧ (Config.verifies key bs sig = true ∨ Config.verifies key bs sig = false) := ⟨rfl, rfl, by cases Config.verifies key bs sig <;> simp⟩

/-! ## The worked examples of the spec, word by word -/

/-- The group after one step from a word and its literal, with registers of lane 0, its results landed. -/
def after (w0 lit : Nat) (rs : List (Nat × Word)) : Option Group :=
  match step (seed rs (State.reset.withFetchWord 64 (w0 + 2 ^ 32 * lit))) with
  | .next t => some ((allLanded 0 0 t.m).grp 0 0)
  | _ => none

/-- Registers of lane 0 hold these values, and its %fpflags this one. -/
def shows (y : Option Group) (rs : List (Nat × Word)) (flags : Word) : Bool := y.any fun y => rs.all (fun e => decide (y.reg e.1 0 = e.2)) && decide (Store.get 0 y.fpflags 0 = flags)

/-- Spec 07, R127: BITIL3 of (0x100005, 3, 6); BITDI3 takes z and x back. -/
theorem test_bitil3 : shows (after 0x1B284038 0 [(4, 0x100005), (5, 3), (6, 6)]) [(10, 0x173), (11, 0x10000000)] 0 = true := by decide +kernel

theorem test_bitdi3 : (unmorton3 0x1000000000000173 2 = 6 ∧ unmorton3 0x1000000000000173 0 = 0x100005) := by decide +kernel

/-- Spec 07, R130: the tree sum of 16777216, 1, 1 and -16777216 is 1, inexact. -/
theorem test_gred_fadd : shows (match step (tune (fun m => m.modG 0 0 fun y => ((((y.setReg 3 0 0x4B800000).setReg 3 1 0x3F800000).setReg 3 2 0x3F800000).setReg 3 3 0xCB800000))
    (State.reset.withFetchWord 64 0x38143238)) with | .next t => some ((allLanded 0 0 t.m).grp 0 0) | _ => none) [(5, 0x3F800000)] 0x10 = true := by decide +kernel

/-- Spec 07, RNGX: the draw worked in full. -/
theorem test_rngx : shows (after 0x3D208338 0 [(8, 5)]) [(8, 0xB7FCB5DB), (9, 0x38AEB427), (10, 0x48842D54), (11, 0x4FCFA278), (12, 0)] 0 = true := by decide +kernel

/-- Spec 09, R161: the square rounded by FMUL, and once only by FFMA. -/
theorem test_fmul : shows (after 0x42141078 0 [(1, 0x3F800800)]) [(5, 0x3F801000)] 0x10 = true := by decide +kernel

theorem test_ffma : shows (after 0x43101078 0x200 [(1, 0x3F800800), (2, 0xBF801000)]) [(4, 0x33800000)] 0 = true := by decide +kernel

/-- Spec 09, R172: the block narrowed to S4, and widened again. -/
theorem test_narrow8 : shows (after 0x64508038 0x518 [(8, 0x3E980000), (9, 0x3E980000), (10, 0x3E980000), (11, 0x3E9C0000)]) [(20, 0x31323132), (24, 0x3C000000)] 0x10 = true := by decide +kernel

theorem test_widen8 : shows (after 0x65314038 0x500 [(20, 0x31323132)]) [(12, 0x3EA00000), (13, 0x3E900000), (14, 0x3EA00000), (15, 0x3E900000)] 0 = true := by decide +kernel

/-- Spec 09, R173: 3.5 scaled by 0x7F and 0x82 is 28; FCLASS of the smallest subnormal number. -/
theorem test_scalex : shows (after 0x661C51B8 4 [(5, 0x40600000), (6, 0x827F)]) [(7, 0x41E00000)] 0 = true := by decide +kernel

theorem test_fclass : shows (after 0x67244038 0 [(4, 1)]) [(9, 0x20)] 0 = true := by decide +kernel

/-- Spec 07, R118: a shift by 32 and more; SHLI by 2. -/
theorem test_sar_far : (match exec (.sar 4 2 3 g0) (seed [(2, 0x80000000), (3, 0x120)] (bench (.sar 4 2 3 g0))) with
    | .next t => shows (some ((allLanded 0 0 t.m).grp 0 0)) [(4, 0xFFFFFFFF)] 0 | _ => false) = true := by decide +kernel

theorem test_shli : shows (after 0x27100008 0 [(0, 0xC0000001)]) [(4, 4)] 0 = true := by decide +kernel

end Sys2Proof.Tests
end

section
/-! The family '01_tutorial.md': instructions whose guard is false in every lane. -/

namespace Sys2Proof.Proofs

open Sys2Proof.Machine Sys2Proof.Laws

/-- Settles O54: the own part of each of these instructions is a guarded one, which asks whether some lane takes effect before any of its traps, its holds
and its effect (R10), so `off_guarded` holds of each. -/
theorem predicatedOff : Obligations.PredicatedOff := by
  intro d a b ofs n4 n5 n6 k2 pd k8 b1 w1 ord sc sz op cm nb mode sr gd off
  simp only [List.forall_mem_cons, List.not_mem_nil, IsEmpty.forall_iff, implies_true, and_true]
  and_intros <;> exact off_guarded _ fun _ => rfl

end Sys2Proof.Proofs
end

section
/-! The family '02_describing_work.md': the life of launches, workgroups and contexts, and the commands of hosts. First one equation of each step's function per case
of the statement, theme by theme. -/

namespace Sys2Proof.Proofs

open Sys2Proof.Machine Sys2Proof.Laws

/-! ### Launches enter their queues (R28 to R35, R418) -/

section Launches

variable {m : Mach} {p c q : Nat} {a : DWord} {b : Block} {r : Readied} {e : Cause} {v : Word}

theorem queueEntry_head {rs : List Readied} (h : (m.part p).ready = r :: rs) : queueEntry p m = tryEnter r (m.modP p fun z => { z with ready := rs }) := by
  unfold queueEntry; rw [h]

theorem tryEnter_enters (hr : readBlock m r.part r.ctx r.addr false = .ok b) (hq : queueFor m r.part r.ctx b.priority = some q) :
    tryEnter r m = enterQueue r q b false (touchTlb (partSite m r.part) r.part r.ctx r.addr.toNat m) := by
  unfold tryEnter; rw [hr]; dsimp only; rw [hq]

theorem tryEnter_waits (hr : readBlock m r.part r.ctx r.addr false = .wait) : tryEnter r m = m.modP r.part fun z => { z with ready := r :: z.ready } := by
  unfold tryEnter; rw [hr]

theorem tryEnter_noQueue (hr : readBlock m r.part r.ctx r.addr false = .ok b) (hq : queueFor m r.part r.ctx b.priority = none) :
    tryEnter r m = freeOthers r.part r.ctx r.addr (refuseLaunch r.part r.ctx r.addr .launchBlockInvalid 3 0 m) := by
  unfold tryEnter; rw [hr]; dsimp only; rw [hq]

theorem tryEnter_bad (hr : readBlock m r.part r.ctx r.addr false = .bad e b) (hq : queueFor m r.part r.ctx b.priority = some q) :
    tryEnter r m = freeOthers r.part r.ctx r.addr (refuseLaunch r.part r.ctx r.addr e 0 0 m) := by
  unfold tryEnter; rw [hr]; exact if_pos (by simp [hq])

theorem tryEnter_fault (hr : readBlock m r.part r.ctx r.addr false = .fault e) :
    tryEnter r m = freeOthers r.part r.ctx r.addr (refuseLaunch r.part r.ctx r.addr .launchBlockInvalid 0 (causeCode e) m) := by
  unfold tryEnter; rw [hr]

theorem rootLaunch_enters (h1 : (m.part p).made = true) (h2 : (m.ctx p c).state = 1) (hr : readBlock m p c a true = .ok b) (hq : queueFor m p c b.priority = some q)
    (hp : (m.part p).pool ≠ 0) : rootLaunch p c a m = toHost p .ack (enterQueue ⟨p, c, a, none, none⟩ q b true (m.modP p fun z => { z with pool := z.pool - 1 })) := by
  rw [rootLaunch_now h1 h2 hr]; dsimp only; rw [hq]; exact if_neg hp

theorem rootLaunch_busy (h1 : (m.part p).made = true) (h2 : (m.ctx p c).state = 1) (hr : readBlock m p c a true = .ok b)
    (hb : queueFor m p c b.priority = none ∨ (m.part p).pool = 0) : rootLaunch p c a m = toHost p .busy m := by
  rw [rootLaunch_now h1 h2 hr]; dsimp only
  cases hq : queueFor m p c b.priority with
  | none => rfl
  | some q => exact if_pos (hb.resolve_left (by simp [hq]))

theorem rootLaunch_invalid (h1 : (m.part p).made = true) (h2 : (m.ctx p c).state = 1) (hr : readBlock m p c a true = .fault e ∨ readBlock m p c a true = .bad e b) :
    rootLaunch p c a m = toHost p .invalid m := by
  rcases hr with hr | hr <;> rw [rootLaunch_now h1 h2 hr]

theorem queueTableWrite_bad (h1 : (m.part p).made = true) (h2 : q < 64) (hb : queueWordBad m p q v = true) : queueTableWrite p q v m = toHost p .ack m := by
  unfold queueTableWrite
  rw [if_neg (by simp [h1, h2]), if_pos hb]

/-- The write of a word that may be written: the launches of the queue leave it where the word was valid and its context, its priority or its validity changes. -/
theorem queueTableWrite_good (h1 : (m.part p).made = true) (h2 : q < 64) (hb : queueWordBad m p q v = false) :
    queueTableWrite p q v m = toHost p .ack (if qValid (queueWord m p q) = true ∧ (qValid v = false ∨ qCtx v ≠ qCtx (queueWord m p q) ∨ qPrio v ≠ qPrio (queueWord m p q)) then
      (Store.get [] (m.part p).queues q).foldl (fun acc k => unqueue k acc) (m.modP p fun z => { z with queueWords := Store.put z.queueWords q v })
      else m.modP p fun z => { z with queueWords := Store.put z.queueWords q v }) := by
  unfold queueTableWrite
  rw [if_neg (by simp [h1, h2]), if_neg (by simp [hb])]
  simp only [Bool.and_eq_true, Bool.or_eq_true, Bool.not_eq_true', decide_eq_true_eq, or_assoc]

theorem queueTableWrite_stays (h1 : (m.part p).made = true) (h2 : q < 64) (hb : queueWordBad m p q v = false)
    (hv : qValid (queueWord m p q) = false ∨ (qValid v = true ∧ qCtx v = qCtx (queueWord m p q) ∧ qPrio v = qPrio (queueWord m p q))) :
    queueTableWrite p q v m = toHost p .ack (m.modP p fun z => { z with queueWords := Store.put z.queueWords q v }) := by
  rw [queueTableWrite_good h1 h2 hb, if_neg]
  rcases hv with hv | ⟨hv, hc, hp⟩
  · simp [hv]
  · simp [hv, hc, hp]

theorem queueTableWrite_moves (h1 : (m.part p).made = true) (h2 : q < 64) (hb : queueWordBad m p q v = false) (hv : qValid (queueWord m p q) = true)
    (hd : qValid v = false ∨ qCtx v ≠ qCtx (queueWord m p q) ∨ qPrio v ≠ qPrio (queueWord m p q)) :
    queueTableWrite p q v m = toHost p .ack ((Store.get [] (m.part p).queues q).foldl (fun acc k => unqueue k acc)
      (m.modP p fun z => { z with queueWords := Store.put z.queueWords q v })) := by
  rw [queueTableWrite_good h1 h2 hb, if_pos ⟨hv, hd⟩]

end Launches

/-! ### Admission, starts and ends of workgroups (R22, R37 to R40, R43, R51, R54, R405) -/

section Workgroups

variable {m : Mach} {p k w : Nat}

/-- Of the priorities, the highest at which something is eligible is served. -/
theorem find_servedPriority (hk : k < 8) (hs : restoreCands m p k ≠ [] ∨ queueCands m p k ≠ []) (hu : ∀ j, k < j → j < 8 → restoreCands m p j = [] ∧ queueCands m p j = []) :
    (List.range 8).reverse.find? (fun k => !((restoreCands m p k).isEmpty) || !((queueCands m p k).isEmpty)) = some k :=
  find_down 8 _ k hk (by simpa using hs) fun j a b => by simp [hu j a b]

theorem admissionDecision_restores (hk : k < 8) (hu : ∀ j, k < j → j < 8 → restoreCands (admissionStop p (countLack p m)) p j = [] ∧ queueCands (admissionStop p (countLack p m)) p j = [])
    (hs : restoreCands (admissionStop p (countLack p m)) p k ≠ []) :
    admissionDecision p m = decideRestore p k (restoreCands (admissionStop p (countLack p m)) p k) (admissionStop p (countLack p m)) := by
  unfold admissionDecision
  dsimp only
  rw [find_servedPriority hk (.inl hs) hu]
  exact if_neg (by simpa using hs)

theorem admissionDecision_admits (hk : k < 8) (hu : ∀ j, k < j → j < 8 → restoreCands (admissionStop p (countLack p m)) p j = [] ∧ queueCands (admissionStop p (countLack p m)) p j = [])
    (hr : restoreCands (admissionStop p (countLack p m)) p k = []) (hs : queueCands (admissionStop p (countLack p m)) p k ≠ []) :
    admissionDecision p m = decideQueue p k (queueCands (admissionStop p (countLack p m)) p k) (admissionStop p (countLack p m)) := by
  unfold admissionDecision
  dsimp only
  rw [find_servedPriority hk (.inr hs) hu]
  exact if_pos (by simp [hr])

theorem decideQueue_rotates {qs : List Nat} {l : Nat} {r : Room} {ps : List Placed}
    (hd : ∀ x ∈ qs, ∀ j, queueHead m p x = some j → (m.launch j).block.det = false)
    (hq : queueHead m p (rotate (Store.get 63 (m.part p).qptr k) qs) = some l) (hl : launchPlan m l = some (r, ps)) :
    decideQueue p k qs m = admitUnit l r ps (m.modP p fun z => { z with qptr := Store.put z.qptr k (rotate (Store.get 63 (m.part p).qptr k) qs) }) := by
  have hdet : (qs.any fun q => ((queueHead m p q).map fun k => (m.launch k).block.det).getD false) = false := by
    rw [List.any_eq_false]
    intro x hx
    cases hj : queueHead m p x with
    | none => simp
    | some j => simp [hd x hx j hj]
  unfold decideQueue
  simp only [hdet, Bool.false_eq_true, if_false, hq, hl]

theorem workgroupRetire_now (h1 : (m.wg w).status = .retiring) (h2 : isDet m w = false ∨ turnEnded m w = true) : workgroupRetire w m = retireNow w m := by
  unfold workgroupRetire
  rw [if_neg (by simp [h1]), if_neg (by rcases h2 with h2 | h2 <;> simp [h2])]

theorem workgroupRetire_turn (h1 : (m.wg w).status = .retiring) (h2 : isDet m w = true) (h3 : turnEnded m w = false) (h4 : holdsTurn m w = true) :
    workgroupRetire w m = retireNow w (endTurn w m) := by
  unfold workgroupRetire
  rw [if_neg (by simp [h1]), if_pos (by simp [h2, h3]), if_pos h4]

end Workgroups

/-! ### Workgroups leave their cores (R376 to R384) -/

section Saves

variable {m : Mach} {w : Nat} {k : SaveKind}

theorem yieldTaken_together (h : yieldReady m w = true) (hl : ∀ v ∈ savedWith m w, leavesNow m v = true) :
    yieldTaken w m = (savedWith m w).foldl (fun acc v => if yieldReady m v then yieldSave v acc else fullSave v acc) m := by
  unfold yieldTaken; rw [if_pos h, saveUnit_all hl]

theorem yieldTaken_asks (h : yieldReady m w = true) (hl : ¬ ∀ v ∈ savedWith m w, leavesNow m v = true) : yieldTaken w m = saveSiblings w m := by
  unfold yieldTaken; rw [if_pos h, saveUnit_not hl]

theorem preemptionSave_saves (h1 : (m.wg w).preempt = some k) (h2 : (m.wg w).status = .running) (h3 : (m.launch (m.wg w).launch).killed = false) (h4 : saveReady m w = true) :
    preemptionSave w m = saveUnit w m := by
  rw [preemptionSave_now h1 h2, if_neg (by simp [h3]), if_pos h4]

theorem preemptionSave_ends (h1 : (m.wg w).preempt = some k) (h2 : (m.wg w).status = .running) (h3 : (m.launch (m.wg w).launch).killed = true) (h4 : allStopped m w = true) :
    preemptionSave w m = endAborted w m := by
  rw [preemptionSave_now h1 h2, if_pos h3, if_pos h4]

theorem savedWith_alone (h : (m.block w).progress ≠ 0) : savedWith m w = [w] := if_neg h

theorem saveSpill_now (h1 : (m.wg w).status = .saved) (h2 : ∃ e ∈ m.clusters, w ∈ e.2.bank) :
    saveSpill w m =
      let n := ((spillImage (m.ctx (m.wg w).part (m.wg w).ctx).desc m.freeCtr).foldl (fun acc e => writePa acc none none e.1 [e.2]) m.useFree).modW w fun x => { x with spilled := true }
      { n with clusters := n.clusters.map fun e => (e.1, { e.2 with bank := e.2.bank.filter fun v => decide (v ≠ w) }) } :=
  if_pos (by simpa [h1] using h2)

end Saves

/-! ### Contexts (R374, R380, R381, R385, R417, R461, R462) -/

section Contexts

variable {m : Mach} {p c : Nat} {t : HostTarget}

theorem quantumExpiry_now (h1 : (m.ctx p c).state = 2) (h2 : (m.ctx p c).quantum = true) (h3 : (m.ctx p c).outSince + 130000 ≤ m.cycle) : quantumExpiry p c m = putOut p c false m :=
  if_pos (by simp [h1, h2, h3])

theorem swapOut_leaves (h1 : (m.part p).made = true) (h2 : c < 16) (h3 : (m.ctx p c).state ≠ 0) (h4 : (m.ctx p c).state ≠ 2 ∨ (m.ctx p c).quantum = true) :
    swapOut p c m = putOut p c true m := by
  unfold swapOut
  rw [if_neg (by simp [h1, h2, h3]), if_neg (by rcases h4 with h4 | h4 <;> simp [h4])]

theorem swapOut_out (h1 : (m.part p).made = true) (h2 : c < 16) (h3 : (m.ctx p c).state = 2) (h4 : (m.ctx p c).quantum = false) : swapOut p c m = toHost p .ack m := by
  unfold swapOut
  rw [if_neg (by simp [h1, h2, h3]), if_pos ⟨h3, h4⟩]

theorem swapIn_enters (h1 : (m.part p).made = true) (h2 : c < 16) (h3 : (m.ctx p c).state ≠ 0 ∨ descOk (m.ctx p c).desc (m.part p).clusters.length = true)
    (h4 : (m.ctx p c).state ≠ 1) : swapIn p c m = toHost p .ack (m.modC p c fun x => { x with state := 1, quantum := false, inherits := [] }) := by
  unfold swapIn
  rw [if_neg (by simp [h1, h2]), if_neg (by rcases h3 with h3 | h3 <;> simp [h3]), if_neg h4]

theorem preemptCommand_idle (h1 : targetGone m p t = false) (h2 : ∀ v ∈ targetWgs m p t, onCore (m.wg v) = false) : preemptCommand p t m = toHost p .ack m := by
  have hl : (targetWgs m p t).filter (fun v => onCore (m.wg v)) = [] := List.filter_eq_nil_iff.2 fun v hv => by simp [h2 v hv]
  unfold preemptCommand saveAll
  simp [h1, hl]

theorem preemptCommand_saves (h1 : targetGone m p t = false) (h2 : ∃ v ∈ targetWgs m p t, onCore (m.wg v) = true) :
    preemptCommand p t m = (((targetWgs m p t).filter fun v => onCore (m.wg v)).foldl (fun acc v => requestSave .full v acc) m).modP p
      fun q => { q with waitAcks := q.waitAcks ++ [(targetWgs m p t).filter fun v => onCore (m.wg v)] } := by
  have hl : ((targetWgs m p t).filter fun v => onCore (m.wg v)).isEmpty = false := by simpa [List.isEmpty_eq_false_iff] using h2
  unfold preemptCommand saveAll
  simp [h1, hl]

theorem moveContext_done {q d : Nat} (h1 : moveOk m p c q d = true) (h2 : moveSettled m p c = true) : moveContext p c q d m = doMove p c q d m := by
  unfold moveContext; rw [if_neg (by simp [h1]), if_pos h2]

theorem moveContext_invalid {q d : Nat} (h : moveOk m p c q d = false) : moveContext p c q d m = toHost p .invalid m := if_pos (by simp [h])

theorem refillReserves_now {i k : DWord} (h1 : (m.part p).made = true) (h2 : c < 16) : refillReserves p c i k m =
    toHost p .ack (m.modC p c fun x => { x with ireserve := satAdd x.ireserve i, mreserve := satAdd x.mreserve k }) := if_neg (by simp [h1, h2])

theorem descriptorWrite_taken {d : CtxDesc} (h1 : (m.part p).made = true) (h2 : c < 16) (h3 : holdsWork m p c = false) (h4 : descOk d (m.part p).clusters.length = true) :
    descriptorWrite p c d m = toHost p .ack (m.modC p c fun x => { x with desc := d, ireserve := d.ireserve, mreserve := d.mreserve }) := by
  unfold descriptorWrite; rw [if_neg (by simp [h1, h2]), if_neg (by simp [h3, h4])]

theorem descriptorWrite_refused {d : CtxDesc} (h1 : (m.part p).made = true) (h2 : c < 16) (h3 : holdsWork m p c = true ∨ descOk d (m.part p).clusters.length = false) :
    descriptorWrite p c d m = toHost p .refused m := by
  unfold descriptorWrite; rw [if_neg (by simp [h1, h2]), if_pos (by simpa using h3)]

theorem killCommand_found {a : DWord} {k : Nat} {l : Launch}
    (h : (m.launches.find? fun e => e.2.live && decide (e.2.part = p) && decide (e.2.ctx = c) && decide (e.2.addr = a)) = some (k, l)) : killCommand p c a m = killLaunch k m := by
  unfold killCommand; rw [h]

theorem killCommand_none {a : DWord} (h : ∀ e ∈ m.launches, e.2.live = true → e.2.part = p → e.2.ctx = c → e.2.addr ≠ a) : killCommand p c a m = toHost p .invalid m := by
  have hf : (m.launches.find? fun e => e.2.live && decide (e.2.part = p) && decide (e.2.ctx = c) && decide (e.2.addr = a)) = none := by
    rw [List.find?_eq_none]
    intro e he
    simpa using h e he
  unfold killCommand; rw [hf]

end Contexts

/-! ### The debug unit (R388 to R404) -/

section Debugging

variable {m n : Mach} {p w : Nat} {it : DbgItem} {v : DWord}

theorem haltRequest_now {t : HostTarget} (h1 : targetGone m p t = false) (h2 : t ≠ .part) : haltRequest p t m =
    toHost p .ack ((targetWgs m p t).foldl (fun acc v => acc.modW v fun x => { x with haltReq := x.haltReq || !(x.halted || decide (x.status = .retiring)) }) m) :=
  if_neg (by simp [h1, h2])

theorem haltReport_now (hp : (m.wg w).part = p) (h1 : haltReady m w = true) (h2 : (m.wg w).haltReq = true) (h3 : (m.wg w).stepEvent = none) :
    haltReport w m = toHost p (.halted w (lanesAt m w)) (wgRecord w 2 0 (m.modW w (haltWg m.cycle))) := by
  subst hp; exact if_pos (by simp [h1, h2, h3])

theorem stepEnd_now {e : Nat} (h1 : (m.wg w).stepEvent = some e) (h2 : haltReady m w = true) : stepEnd w m = stepRecord w e (m.modW w (haltWg m.cycle)) := by
  unfold stepEnd; rw [h1]; exact if_pos h2

theorem resumeCommand_goes (hp : (m.wg w).part = p) (h : (m.wg w).halted = true) : resumeCommand w m = toHost p .ack (goOn none w m) := by
  subst hp; exact if_pos h

theorem resumeCommand_invalid (hp : (m.wg w).part = p) (h : (m.wg w).halted = false) : resumeCommand w m = toHost p .invalid m := by
  subst hp; exact if_neg (by simp [h])

theorem stepCommand_goes {k : Nat} (hp : (m.wg w).part = p) (h1 : (m.wg w).halted = true) (h2 : 1 ≤ k) (h3 : k ≤ 2 ^ 20) : stepCommand w k m = toHost p .ack (goOn (some k) w m) := by
  subst hp; exact if_pos (by rw [h1, decide_eq_true h2, decide_eq_true h3]; rfl)

theorem stepCommand_invalid {k : Nat} (hp : (m.wg w).part = p) (h : (m.wg w).halted = false ∨ k = 0 ∨ 2 ^ 20 < k) : stepCommand w k m = toHost p .invalid m := by
  subst hp
  refine if_neg ?_
  simp only [Bool.and_eq_true, decide_eq_true_eq]
  rintro ⟨⟨h1, h2⟩, h3⟩
  rcases h with h | h | h
  · rw [h1] at h; cases h
  all_goals omega

theorem goOn_wg (left : Option Nat) : ((goOn left w m).wg w).halted = false ∧ ((goOn left w m).wg w).haltReq = false ∧ ((goOn left w m).wg w).stepLeft = left := by
  unfold goOn; rw [wg_modW]; exact ⟨rfl, rfl, rfl⟩

theorem debugRead_lane {u : DWord × LaneAt} (hp : (m.wg w).part = p) (h : (m.wg w).halted = true) (hr : dbgLaneRead m w it = some u) : debugRead w it m = toHost p (.value u.1 (some u.2)) m := by
  subst hp; rw [debugRead_still h, hr]

theorem debugRead_saved {o : Nat} (hp : (m.wg w).part = p) (h : (m.wg w).halted = true) (hs : (m.wg w).status = .saved) (ho : o < (m.block w).scratch) :
    debugRead w (.scratch o) m = toHost p (.value (BitVec.ofNat 64 (Memory.read (m.wg w).savedScratch o).toNat) none) m := by
  subst hp; rw [debugRead_still h, decide_eq_true hs]; exact if_pos ho

theorem debugWrite_lane (hp : (m.wg w).part = p) (h : (m.wg w).halted = true) (hr : dbgLaneWrite m w it v = some (.ok n)) : debugWrite w it v m = toHost p .ack n := by
  subst hp; rw [debugWrite_still h, hr]

theorem debugWrite_denied {e : HostMsg} (hp : (m.wg w).part = p) (h : (m.wg w).halted = true) (hr : dbgLaneWrite m w it v = some (.error e)) : debugWrite w it v m = toHost p e m := by
  subst hp; rw [debugWrite_still h, hr]

theorem debugWrite_saved {o : Nat} (hp : (m.wg w).part = p) (h : (m.wg w).halted = true) (hs : (m.wg w).status = .saved) (ho : o < (m.block w).scratch) :
    debugWrite w (.scratch o) v m = toHost p .ack (m.modW w fun x => { x with savedScratch := Memory.write x.savedScratch o (v.setWidth 8) }) := by
  subst hp; rw [debugWrite_still h, decide_eq_true hs]; exact if_pos ho

theorem debugRead_done {sp : Space} {k : Nat} (hp : (m.wg w).part = p) (h : (m.wg w).halted = true) (hl : dbgLaneRead m w it = none) (hs : ∀ o, it = .scratch o → (m.wg w).status ≠ .saved)
    (hb : dbgByte w it .read m = (some (.ok (sp, k)), n)) :
    debugRead w it m = toHost p (.value (BitVec.ofNat 64 (leNat (readPlace n sp ⟨decide (sp = .vault), k, 0⟩ 1))) none) n.useFree := by
  subst hp; rw [debugRead_byte h hl hs, hb]

theorem debugRead_fault {e : Cause} (hp : (m.wg w).part = p) (h : (m.wg w).halted = true) (hl : dbgLaneRead m w it = none) (hs : ∀ o, it = .scratch o → (m.wg w).status ≠ .saved)
    (hb : dbgByte w it .read m = (some (.error e), n)) : debugRead w it m = toHost p .accessError n := by
  subst hp; rw [debugRead_byte h hl hs, hb]

theorem debugRead_none (hp : (m.wg w).part = p) (h : (m.wg w).halted = true) (hl : dbgLaneRead m w it = none) (hs : ∀ o, it = .scratch o → (m.wg w).status ≠ .saved)
    (hb : dbgByte w it .read m = (none, n)) : debugRead w it m = toHost p .invalid n := by
  subst hp; rw [debugRead_byte h hl hs, hb]

theorem debugWrite_done {sp : Space} {k : Nat} (hp : (m.wg w).part = p) (h : (m.wg w).halted = true) (hl : dbgLaneWrite m w it v = none) (hs : ∀ o, it = .scratch o → (m.wg w).status ≠ .saved)
    (hb : dbgByte w it .write m = (some (.ok (sp, k)), n)) :
    debugWrite w it v m = toHost p .ack (writePlace none sp ⟨decide (sp = .vault), k, 0⟩ [v.setWidth 8] n) := by
  subst hp; rw [debugWrite_byte h hl hs, hb]

theorem debugWrite_fault {e : Cause} (hp : (m.wg w).part = p) (h : (m.wg w).halted = true) (hl : dbgLaneWrite m w it v = none) (hs : ∀ o, it = .scratch o → (m.wg w).status ≠ .saved)
    (hb : dbgByte w it .write m = (some (.error e), n)) : debugWrite w it v m = toHost p .accessError n := by
  subst hp; rw [debugWrite_byte h hl hs, hb]

theorem debugRead_running (hp : (m.wg w).part = p) (h : (m.wg w).halted = false) : debugRead w it m = toHost p .invalid m := by
  subst hp; exact if_pos h

theorem debugWrite_running (hp : (m.wg w).part = p) (h : (m.wg w).halted = false) : debugWrite w it v m = toHost p .invalid m := by
  subst hp; exact if_pos h

theorem dbgReg_exists {g l : Nat} {r : Reg} (h1 : (m.wg w).halted = true) (h2 : (m.grp w g).slot ≠ 0) (h3 : l < 32) (h4 : r.toNat < 32 ∨ (m.grp w g).extHeld = true) :
    (dbgLane m w g l && dbgHeld m w g r) = true := by
  simp [dbgLane, dbgHeld, h1, h2, h3, h4]

theorem dbgLaneRead_reg {g l : Nat} {r : Reg} (h : (dbgLane m w g l && dbgHeld m w g r) = true) :
    dbgLaneRead m w (.reg g l r) = some (((m.grp w g).reg r.toNat l).zeroExtend 64, laneAt m w g l) := if_pos h

theorem dbgLaneWrite_reg {g l : Nat} {r : Reg} (h : (dbgLane m w g l && dbgHeld m w g r) = true) (hp : dbgPending (m.grp w g) l r.toNat false = false) :
    dbgLaneWrite m w (.reg g l r) v = some (.ok (m.modG w g fun y => y.setReg r.toNat l (v.setWidth 32))) := by
  unfold dbgLaneWrite; dsimp only; rw [if_neg (by simp [h]), if_neg (by simp [hp])]

theorem readCounters_now {core k : Nat} (h : partOfCore m core = some p) (hk : k ≤ 16) : readCounters core k m =
    let n := countIdle core m
    let b : Bin := if k = 16 then (n.core core).totals else Store.get default (n.core core).bins k
    toHost p (.counters ((List.range 5).map fun i => b.counts.getD i 0) b.overflow) n := by
  unfold readCounters; rw [h]; exact if_neg (by omega)

theorem clearCounters_now {core : Nat} (h : partOfCore m core = some p) : clearCounters core m =
    toHost p .ack ((countIdle core m).modK core fun x => { x with bins := x.bins.map fun e => (e.1, clearBin e.2), totals := clearBin x.totals }) := by
  unfold clearCounters; rw [h]

end Debugging

/-! ### The trace buffer (R400, R402) -/

section Trace

variable {m u : Mach} {p c : Nat} {r : List Byte} {rs : List (List Byte)}

theorem traceWrite_written {t : Xlat} (h1 : (m.ctx p c).records = r :: rs) (h2 : (m.ctx p c).traceUnread < traceRoom (m.ctx p c).desc)
    (h3 : hwWrite (partSite m p) p c ((m.ctx p c).desc.traceBase.toNat + 32 * (m.ctx p c).traceIndex.toNat) false (m.modC p c fun x => { x with records := rs }) = (.ok t, u)) :
    traceWrite p c m = (writePa u none none t.pa r).modC p c fun x =>
      { x with traceIndex := BitVec.ofNat 32 ((x.traceIndex.toNat + 1) % traceRoom x.desc), traceUnread := x.traceUnread + 1 } := by
  unfold traceWrite; dsimp only; rw [h1]; dsimp only; rw [if_neg (by omega), h3]

theorem traceWrite_faults {e : Cause} (h1 : (m.ctx p c).records = r :: rs) (h2 : (m.ctx p c).traceUnread < traceRoom (m.ctx p c).desc)
    (h3 : hwWrite (partSite m p) p c ((m.ctx p c).desc.traceBase.toNat + 32 * (m.ctx p c).traceIndex.toNat) false (m.modC p c fun x => { x with records := rs }) = (.error e, u)) :
    traceWrite p c m = dropRecord p c u := by
  unfold traceWrite; dsimp only; rw [h1]; dsimp only; rw [if_neg (by omega), h3]

theorem traceWrite_full (h1 : (m.ctx p c).records = r :: rs) (h2 : traceRoom (m.ctx p c).desc ≤ (m.ctx p c).traceUnread) :
    traceWrite p c m = dropRecord p c (m.modC p c fun x => { x with records := rs }) := by
  unfold traceWrite; dsimp only; rw [h1]; exact if_pos h2

end Trace

/-! ### Control space, messages and writes of hosts and of other devices (R318 to R323, R414 to R425) -/

section Ports

variable {m : Mach} {p c : Nat} {bs : List Byte}

theorem controlWrite_ignored {v : CsWord} (h1 : (m.part p).made = true) (h2 : csReservedOk v = false) : controlWrite p v m = toHost p .ack m := by
  unfold controlWrite; rw [if_neg (by simp [h1]), if_pos (by simp [h2])]

theorem controlWrite_taken {v : CsWord} (h1 : (m.part p).made = true) (h2 : csReservedOk v = true) (h3 : csOk m p v = true) : controlWrite p v m = toHost p .ack (csPut p v m) := by
  unfold controlWrite; rw [if_neg (by simp [h1]), if_neg (by simp [h2]), if_pos h3]

theorem controlWrite_refused {v : CsWord} (h1 : (m.part p).made = true) (h2 : csReservedOk v = true) (h3 : csOk m p v = false) : controlWrite p v m = toHost p .refused m := by
  unfold controlWrite; rw [if_neg (by simp [h1]), if_neg (by simp [h2]), if_neg (by simp [h3])]

theorem inboxSend_sends (h1 : (m.part p).made = true) (h2 : sendOk bs.length = true) :
    inboxSend p bs m = if channelRoom m p 0 then toHost p .ack (channelPut p 0 ⟨0, 0, bs⟩ m) else toHost p .busy m := if_neg (by simp [h1, h2])

theorem inboxSend_invalid (h : (m.part p).made = false ∨ sendOk bs.length = false) : inboxSend p bs m = toHost p .invalid m := if_pos (by simpa using h)

theorem remoteMessage_enters {dev ch : Nat} (h1 : linkUp m = true) (h2 : (m.part p).made = true) (h3 : sendOk bs.length = true) (h4 : channelRoom m p ch = true) :
    remoteMessage dev p ch bs m = channelPut p ch ⟨2, dev, bs⟩ m := if_pos (by simp [h1, h2, h3, h4])

theorem rmaWrite_allowed (h1 : (m.part p).made = true) (h2 : 1 ≤ bs.length) (h3 : bs.length ≤ 2 ^ 30) :
    ¬ (decide ((m.part p).made = false) || decide (bs.length = 0) || decide (2 ^ 30 < bs.length)) = true := by
  simp only [h1, Bool.or_eq_true, decide_eq_true_eq]
  rintro ((h | h) | h)
  · cases h
  all_goals omega

theorem rmaWrite_unplaced {va : Nat} (h1 : (m.part p).made = true) (h2 : 1 ≤ bs.length) (h3 : bs.length ≤ 2 ^ 30) (h4 : rmaPlaces m p c va bs.length = none) :
    rmaWrite p c va bs m = toHost p .accessError m := by
  unfold rmaWrite; rw [if_neg (rmaWrite_allowed h1 h2 h3), h4]

theorem rmaWrite_lost {va : Nat} {qs : List Nat} (h1 : (m.part p).made = true) (h2 : 1 ≤ bs.length) (h3 : bs.length ≤ 2 ^ 30) (h4 : rmaPlaces m p c va bs.length = some qs)
    (h5 : rmaPlaces (retryAll qs m) p c va bs.length = none) : rmaWrite p c va bs m = toHost p .accessError (retryAll qs m) := by
  unfold rmaWrite; rw [if_neg (rmaWrite_allowed h1 h2 h3), h4]; dsimp only; rw [h5]

theorem rmaWrite_done {va : Nat} {qs ps : List Nat} (h1 : (m.part p).made = true) (h2 : 1 ≤ bs.length) (h3 : bs.length ≤ 2 ^ 30) (h4 : rmaPlaces m p c va bs.length = some qs)
    (h5 : rmaPlaces (retryAll qs m) p c va bs.length = some ps) : rmaWrite p c va bs m = toHost p .ack (pokeAll (ps.zip bs) (retryAll qs m)) := by
  unfold rmaWrite; rw [if_neg (rmaWrite_allowed h1 h2 h3), h4]; dsimp only; rw [h5]

/-- The machine in which a request of another device is performed: the granules of its range have been read (R190, R191). -/
def granulesRead (pa n : Nat) (m : Mach) : Mach := if paLocal pa then retryRange pa n m else m

/-- A request for a range at its home: answered with the fault that refuses it, or performed (R322). -/
def answeredAtHome (dev p pa n : Nat) (write : Bool) (act : Mach → Mach) (m : Mach) : Mach :=
  match arrivalFault m p pa n write with
  | some e => toHost 0 (.replyFault dev e) m
  | none => act m

theorem answeredAtHome_sound {dev pa n : Nat} {write : Bool} {act : Mach → Mach} (h : arrivalFault m p pa n write = none) : answeredAtHome dev p pa n write act m = act m := by
  unfold answeredAtHome; rw [h]

theorem answeredAtHome_refused {dev pa n : Nat} {write : Bool} {act : Mach → Mach} {e : Cause} (h : arrivalFault m p pa n write = some e) :
    answeredAtHome dev p pa n write act m = toHost 0 (.replyFault dev e) m := by
  unfold answeredAtHome; rw [h]

theorem planeClosed_up {pa : Nat} (h : m.planesDown.contains (pa / 256 % 16) = false) : ¬ planeClosed m pa = true := by
  rw [planeClosed, h]; decide

theorem remoteArrival_down {dev pa n : Nat} (h : ¬ m.planesDown.contains (pa / 256 % 16) = false) : remoteArrival dev p (.load pa n) m = m :=
  if_pos (by simpa [planeClosed] using h)

theorem remoteArrival_load {dev pa n : Nat} (h : m.planesDown.contains (pa / 256 % 16) = false) : remoteArrival dev p (.load pa n) m =
    answeredAtHome dev p pa n false (fun k => toHost 0 (.reply dev (readPa k pa n)) k) (granulesRead pa n m) := if_neg (planeClosed_up h)

theorem remoteArrival_store {dev pa : Nat} (h : m.planesDown.contains (pa / 256 % 16) = false) : remoteArrival dev p (.store pa bs) m =
    answeredAtHome dev p pa bs.length true (fun k => toHost 0 (.reply dev []) (pokeAll (bs.zipIdx.map fun e => (pa + e.2, e.1)) k)) (granulesRead pa bs.length m) :=
  if_neg (planeClosed_up h)

theorem remoteArrival_atomic {dev pa : Nat} {o : AtomOp} {sz : MSize} {v : BitVec 128} (h : m.planesDown.contains (pa / 256 % 16) = false) :
    remoteArrival dev p (.atomic o sz pa v) m = answeredAtHome dev p pa (sizeBytes sz) true
      (arrivalRmw dev pa (sizeBytes sz) fun old => some (atomValue o (sizeBytes sz) old (v.toNat % 2 ^ (8 * sizeBytes sz)))) (granulesRead pa (sizeBytes sz) m) :=
  if_neg (planeClosed_up h)

theorem remoteArrival_cas {dev pa : Nat} {sz : MSize} {v x : BitVec 128} (h : m.planesDown.contains (pa / 256 % 16) = false) :
    remoteArrival dev p (.cas sz pa v x) m = answeredAtHome dev p pa (sizeBytes sz) true
      (arrivalRmw dev pa (sizeBytes sz) fun old => if old = v.toNat % 2 ^ (8 * sizeBytes sz) then some (x.toNat % 2 ^ (8 * sizeBytes sz)) else none)
      (granulesRead pa (sizeBytes sz) m) :=
  if_neg (planeClosed_up h)

theorem arrivalRmw_writes {dev pa n v : Nat} {f : Nat → Option Nat} (h : f (leNat (readPa m pa n)) = some v) :
    arrivalRmw dev pa n f m = toHost 0 (.reply dev (leBytes n (leNat (readPa m pa n)))) (pokeAll ((leBytes n v).zipIdx.map fun e => (pa + e.2, e.1)) m) := by
  unfold arrivalRmw; dsimp only; rw [h]

theorem arrivalRmw_keeps {dev pa n : Nat} {f : Nat → Option Nat} (h : f (leNat (readPa m pa n)) = none) :
    arrivalRmw dev pa n f m = toHost 0 (.reply dev (leBytes n (leNat (readPa m pa n)))) m := by
  unfold arrivalRmw; dsimp only; rw [h]

theorem arrivalFault_denied {pa k : Nat} (h1 : paLocal pa = true) (h2 : paLocal (pa + k - 1) = true) (h3 : granted m p pa .write = false) :
    arrivalFault m p pa k true = some .accessTableDeny := by
  unfold arrivalFault
  rw [if_neg (by simp [h1, h2])]
  exact if_pos (by simp [h3])

end Ports

/-! ### Partitions, links, firmware, reset (R425 to R428) -/

section Firmware

variable {m : Mach} {p : Nat}

/-- A byte of HBM in one of the ranges that are zeroed reads zero. -/
theorem zeroOwned_hbm {own ls : List (Nat × Nat)} {cl : List Nat} {r : Nat × Nat} {pa : Nat} (hw : Memory.wf m.hbm = true) (hr : r ∈ own) (h1 : r.1 ≤ pa) (h2 : pa < r.1 + r.2) :
    Memory.read (zeroOwned cl ls own m).hbm pa = 0 :=
  read_drops own pa m.hbm hw (.inr ⟨r, hr, h1, h2⟩)

theorem teardown_part (h : (m.part p).made = true) : ((partitionTeardown p m).part p).made = false := by
  unfold partitionTeardown
  rw [if_neg (by simp [h])]
  exact congrArg Part.made (get_del _ _ _)

theorem teardown_wgs (h : (m.part p).made = true) : ∀ e ∈ (partitionTeardown p m).wgs, e.2.part ≠ p := by
  unfold partitionTeardown
  rw [if_neg (by simp [h])]
  exact fun e he => of_decide_eq_true (List.mem_filter.1 he).2

theorem teardown_cores (h : (m.part p).made = true) : ∀ e ∈ (partitionTeardown p m).cores, ∀ x ∈ e.2.tlb, x.part ≠ p := by
  unfold partitionTeardown
  rw [if_neg (by simp [h])]
  exact fun e he => tlbDrop_gone p m.cores Core.tlb (fun a ts => { a with tlb := ts }) (fun _ _ => rfl) e (List.mem_filter.1 he).1

theorem teardown_clusters (h : (m.part p).made = true) : ∀ e ∈ (partitionTeardown p m).clusters, ∀ x ∈ e.2.tlb, x.part ≠ p := by
  unfold partitionTeardown
  rw [if_neg (by simp [h])]
  exact fun e he => tlbDrop_gone p m.clusters Cluster.tlb (fun a ts => { a with tlb := ts }) (fun _ _ => rfl) e (List.mem_filter.1 he).1

theorem teardown_dieTlbs (h : (m.part p).made = true) : ∀ e ∈ (partitionTeardown p m).dieTlbs, ∀ x ∈ e.2, x.part ≠ p := by
  unfold partitionTeardown
  rw [if_neg (by simp [h])]
  exact tlbDrop_gone p m.dieTlbs id (fun _ ts => ts) (fun _ _ => rfl)

theorem teardown_grants (h : (m.part p).made = true) : ∀ g ∈ (partitionTeardown p m).grants, g.part ≠ p := by
  unfold partitionTeardown
  rw [if_neg (by simp [h])]
  exact fun g hg => of_decide_eq_true (List.mem_filter.1 hg).2

theorem bootOk_iff {fuse : Nat} {image key sig : List Byte} : bootOk fuse image key sig = true ↔ Config.shake256 key = fuse ∧ Config.verifies key image sig = true := by
  rw [bootOk, Bool.and_eq_true, decide_eq_true_eq]

end Firmware

/-! ### The statement, section by section -/

/-- Settles O51: each step of the table acts by its function of the machine (`acts`), and what that function comes to in each case of the statement is one of
the equations above, a law of `Laws`, or a branch of its definition. -/
theorem hostSteps : Obligations.HostSteps := by
  intro p c w tell made
  refine ⟨?entries, ?roots, ?admission, ?stops, ?workgroups, ?saves, ?contexts, ?kills, ?debug, ?counters, ?queueWords, ?controlWords, ?messages, ?remote, ?grants, ?create, ?teardown,
    ?errors, ?firmware⟩
  case entries =>
    intro r rs q b n reads no
    exact ⟨acts (fun _ => rfl) fun m ⟨⟨h, hr⟩, hq⟩ => (queueEntry_head h).trans (tryEnter_enters hr hq),
      acts (fun _ => rfl) fun m ⟨h, hr⟩ => (queueEntry_head h).trans (tryEnter_waits hr),
      acts (fun _ => rfl) fun m ⟨⟨h, hr⟩, hq⟩ => (queueEntry_head h).trans (tryEnter_noQueue hr hq),
      fun _ => acts (fun _ => rfl) fun m ⟨⟨h, hr⟩, hq⟩ => (queueEntry_head h).trans (tryEnter_bad hr hq),
      fun _ => acts (fun _ => rfl) fun m ⟨h, hr⟩ => (queueEntry_head h).trans (tryEnter_fault hr)⟩
  case roots =>
    intro a b q stands
    exact ⟨acts (fun _ => rfl) fun m ⟨⟨h1, h2⟩, hr, hq, hp⟩ => rootLaunch_enters h1 h2 hr hq hp,
      acts (fun _ => rfl) fun m ⟨⟨h1, h2⟩, hr, hb⟩ => rootLaunch_busy h1 h2 hr hb,
      fun _ => acts (fun _ => rfl) fun m ⟨⟨h1, h2⟩, hr⟩ => rootLaunch_invalid h1 h2 hr,
      acts (fun _ => rfl) fun m ⟨⟨h1, h2⟩, hr⟩ => rootLaunch_now h1 h2 hr,
      acts (fun _ => rfl) fun m h => if_pos h⟩
  case admission =>
    intro k n served
    exact ⟨acts (fun _ => rfl) fun m ⟨⟨hk, hu⟩, hs⟩ => admissionDecision_restores hk hu hs,
      acts (fun _ => rfl) fun m ⟨⟨hk, hu⟩, hr, hs⟩ => admissionDecision_admits hk hu hr hs,
      fun m qs l r ps hd hq hl => decideQueue_rotates hd hq hl,
      fun m q => queueCands_iff m p k q⟩
  case stops => exact fun q => acts (fun _ => rfl) fun m ⟨h1, h2, h3, h4⟩ => admissionStop_now h1 h2 h3 h4
  case workgroups =>
    exact ⟨acts (fun _ => rfl) fun m h => if_pos h,
      acts (fun _ => rfl) fun m ⟨h1, h2⟩ => workgroupRetire_now h1 h2,
      acts (fun _ => rfl) fun m ⟨h1, h2, h3, h4⟩ => workgroupRetire_turn h1 h2 h3 h4,
      fun _ => rfl⟩
  case saves =>
    refine ⟨?together, acts (fun _ => rfl) fun m ⟨h1, h2, h3, h4, h5, h6⟩ => stallTimeout_now h1 h2 h3 h4 h5 h6, acts (fun _ => rfl) fun m ⟨h1, h2⟩ => saveSpill_now h1 h2⟩
    exact ⟨acts (fun _ => rfl) fun m ⟨h, hl⟩ => yieldTaken_together h hl,
      acts (fun _ => rfl) fun m ⟨h, hl⟩ => yieldTaken_asks h hl,
      fun k => ⟨acts (fun _ => rfl) fun m ⟨⟨h1, h2⟩, h3, h4, hl⟩ => (preemptionSave_saves h1 h2 h3 h4).trans (saveUnit_all hl),
        acts (fun _ => rfl) fun m ⟨⟨h1, h2⟩, h3, h4, hl⟩ => (preemptionSave_saves h1 h2 h3 h4).trans (saveUnit_not hl),
        acts (fun _ => rfl) fun m ⟨⟨h1, h2⟩, h3, h4⟩ => preemptionSave_ends h1 h2 h3 h4⟩,
      fun m => ⟨savedWith_alone, rfl, rfl⟩⟩
  case contexts =>
    exact ⟨acts (fun _ => rfl) fun m ⟨h1, h2, h3, h4⟩ => quantumStart_now h1 h2 h3 h4,
      acts (fun _ => rfl) fun m ⟨h1, h2, h3⟩ => quantumExpiry_now h1 h2 h3,
      acts (fun _ => rfl) fun m ⟨h1, h2, h3, h4⟩ => swapOut_leaves h1 h2 h3 h4,
      acts (fun _ => rfl) fun m ⟨h1, h2, h3, h4⟩ => swapOut_out h1 h2 h3 h4,
      acts (fun _ => rfl) fun m ⟨h1, h2, h3, h4⟩ => swapIn_enters h1 h2 h3 h4,
      fun t => acts (fun _ => rfl) fun m ⟨h1, h2⟩ => preemptCommand_idle h1 h2,
      fun t => acts (fun _ => rfl) fun m ⟨h1, h2⟩ => preemptCommand_saves h1 h2,
      fun q d => acts (fun _ => rfl) fun m ⟨h1, h2⟩ => moveContext_done h1 h2,
      fun q d => acts (fun _ => rfl) fun m h => moveContext_invalid h,
      fun i k => acts (fun _ => rfl) fun m ⟨h1, h2⟩ => refillReserves_now h1 h2,
      fun d => acts (fun _ => rfl) fun m ⟨h1, h2, h3, h4⟩ => descriptorWrite_taken h1 h2 h3 h4,
      fun d => acts (fun _ => rfl) fun m ⟨h1, h2, h3⟩ => descriptorWrite_refused h1 h2 h3,
      acts (fun _ => rfl) fun m h => if_pos h,
      acts (fun _ => rfl) fun m h => if_neg (by rw [Bool.not_eq_true]; exact h)⟩
  case kills =>
    exact fun k e a => ⟨acts (fun _ => rfl) fun m h => killCommand_found h, acts (fun _ => rfl) fun m h => killCommand_none h, fun va n => acts (fun _ => rfl) fun m _ => rfl⟩
  case debug =>
    refine ⟨fun t => acts (fun _ => rfl) fun m ⟨h1, h2⟩ => haltRequest_now h1 h2,
      acts (fun _ => rfl) fun m ⟨hp, h1, h2, h3⟩ => haltReport_now hp h1 h2 h3,
      fun e => acts (fun _ => rfl) fun m ⟨h1, h2⟩ => stepEnd_now h1 h2,
      acts (fun _ => rfl) fun m ⟨hp, h⟩ => resumeCommand_goes hp h,
      acts (fun _ => rfl) fun m ⟨hp, h⟩ => resumeCommand_invalid hp h,
      fun n => acts (fun _ => rfl) fun m ⟨hp, h1, h2, h3⟩ => stepCommand_goes hp h1 h2 h3,
      fun n => acts (fun _ => rfl) fun m ⟨hp, h⟩ => stepCommand_invalid hp h,
      fun m left => goOn_wg left,
      fun i st n => acts (fun _ => rfl) fun m ⟨h1, h2, h3, h4, h5⟩ => replayCommand_one h1 h2 h3 h4 h5, ?state,
      fun m g l r h1 h2 h3 h4 => ⟨dbgLaneRead_reg (dbgReg_exists h1 h2 h3 h4), fun v hp => dbgLaneWrite_reg (dbgReg_exists h1 h2 h3 h4) hp⟩⟩
    exact ⟨fun it v a => acts (fun _ => rfl) fun m ⟨⟨hp, h⟩, hr⟩ => debugRead_lane hp h hr,
      fun o => acts (fun _ => rfl) fun m ⟨⟨hp, h⟩, hs, ho⟩ => debugRead_saved hp h hs ho,
      fun it sp k n => acts (fun _ => rfl) fun m ⟨⟨⟨hp, h⟩, hl, hs⟩, hb⟩ => debugRead_done hp h hl hs hb,
      fun it e n => acts (fun _ => rfl) fun m ⟨⟨⟨hp, h⟩, hl, hs⟩, hb⟩ => debugRead_fault hp h hl hs hb,
      fun it n => acts (fun _ => rfl) fun m ⟨⟨⟨hp, h⟩, hl, hs⟩, hb⟩ => debugRead_none hp h hl hs hb,
      fun it => acts (fun _ => rfl) fun m ⟨hp, h⟩ => debugRead_running hp h,
      fun it v n => acts (fun _ => rfl) fun m ⟨⟨hp, h⟩, hr⟩ => debugWrite_lane hp h hr,
      fun it v e => acts (fun _ => rfl) fun m ⟨⟨hp, h⟩, hr⟩ => debugWrite_denied hp h hr,
      fun o v => acts (fun _ => rfl) fun m ⟨⟨hp, h⟩, hs, ho⟩ => debugWrite_saved hp h hs ho,
      fun it v sp k n => acts (fun _ => rfl) fun m ⟨⟨⟨hp, h⟩, _, hs⟩, hl, hb⟩ => debugWrite_done hp h hl hs hb,
      fun it v e n => acts (fun _ => rfl) fun m ⟨⟨⟨hp, h⟩, _, hs⟩, hl, hb⟩ => debugWrite_fault hp h hl hs hb,
      fun it v => acts (fun _ => rfl) fun m ⟨hp, h⟩ => debugWrite_running hp h⟩
  case counters =>
    exact fun core k => ⟨acts (fun _ => rfl) fun m ⟨h, hk⟩ => readCounters_now h hk,
      acts (fun _ => rfl) fun m h => clearCounters_now h,
      fun slot => acts (fun _ => rfl) fun m _ => rfl,
      fun r rs => ⟨fun t u => acts (fun _ => rfl) fun m ⟨h1, h2, h3⟩ => traceWrite_written h1 h2 h3,
        fun e u => acts (fun _ => rfl) fun m ⟨h1, h2, h3⟩ => traceWrite_faults h1 h2 h3,
        acts (fun _ => rfl) fun m ⟨h1, h2⟩ => traceWrite_full h1 h2⟩,
      fun n => acts (fun _ => rfl) fun m _ => rfl⟩
  case queueWords =>
    exact fun q v => ⟨acts (fun _ => rfl) fun m ⟨h1, h2, hb⟩ => queueTableWrite_bad h1 h2 hb,
      acts (fun _ => rfl) fun m ⟨h1, h2, hb, hv⟩ => queueTableWrite_stays h1 h2 hb hv,
      acts (fun _ => rfl) fun m ⟨h1, h2, hb, hv, hd⟩ => queueTableWrite_moves h1 h2 hb hv hd⟩
  case controlWords =>
    exact fun v => ⟨acts (fun _ => rfl) fun m ⟨h1, h2⟩ => controlWrite_ignored h1 h2,
      acts (fun _ => rfl) fun m ⟨h1, h2, h3⟩ => controlWrite_taken h1 h2 h3,
      acts (fun _ => rfl) fun m ⟨h1, h2, h3⟩ => controlWrite_refused h1 h2 h3⟩
  case messages =>
    intro bs fits room
    exact ⟨acts (fun _ => rfl) fun m ⟨h1, h2, h3⟩ => (inboxSend_sends h1 (send_ok h2)).trans (if_pos (decide_eq_true h3)),
      acts (fun _ => rfl) fun m ⟨h1, h2, h3⟩ => (inboxSend_sends h1 (send_ok h2)).trans (if_neg (by rw [channelRoom, decide_eq_true_eq]; exact h3)),
      acts (fun _ => rfl) fun m h => inboxSend_invalid (h.imp_right send_bad),
      fun dev ch => acts (fun _ => rfl) fun m ⟨h1, h2, h3, h4⟩ => remoteMessage_enters h1 h2 (send_ok h3) (decide_eq_true h4),
      fun va ps qs => ⟨acts (fun _ => rfl) fun m ⟨⟨h1, h2, h3⟩, h4, h5⟩ => rmaWrite_done h1 h2 h3 h4 h5,
        acts (fun _ => rfl) fun m ⟨⟨h1, h2, h3⟩, h4, h5⟩ => rmaWrite_lost h1 h2 h3 h4 h5,
        acts (fun _ => rfl) fun m ⟨⟨h1, h2, h3⟩, h4⟩ => rmaWrite_unplaced h1 h2 h3 h4⟩⟩
  case remote =>
    intro dev pa n answer again up sound put
    exact ⟨acts (fun _ => rfl) fun m ⟨hu, ha⟩ => (remoteArrival_load hu).trans (answeredAtHome_sound ha),
      fun bs => acts (fun _ => rfl) fun m ⟨hu, ha⟩ => (remoteArrival_store hu).trans (answeredAtHome_sound ha),
      fun e => acts (fun _ => rfl) fun m ⟨hu, ha⟩ => (remoteArrival_load hu).trans (answeredAtHome_refused ha),
      fun e bs => acts (fun _ => rfl) fun m ⟨hu, ha⟩ => (remoteArrival_store hu).trans (answeredAtHome_refused ha),
      acts (fun _ => rfl) fun m hu => remoteArrival_down hu,
      fun m k h1 h2 h3 => arrivalFault_denied h1 h2 h3,
      fun sz v => ⟨fun o => acts (fun _ => rfl) fun m ⟨hu, ha⟩ => ((remoteArrival_atomic hu).trans (answeredAtHome_sound ha)).trans (arrivalRmw_writes rfl),
        fun x => ⟨acts (fun _ => rfl) fun m ⟨⟨hu, ha⟩, hv⟩ => ((remoteArrival_cas hu).trans (answeredAtHome_sound ha)).trans (arrivalRmw_writes (if_pos hv)),
          acts (fun _ => rfl) fun m ⟨⟨hu, ha⟩, hv⟩ => ((remoteArrival_cas hu).trans (answeredAtHome_sound ha)).trans (arrivalRmw_keeps (if_neg hv))⟩⟩⟩
  case grants => exact fun g => acts (fun _ => rfl) fun m _ => rfl
  case create =>
    exact fun cfg => ⟨acts (fun _ => rfl) fun m h => if_pos h,
      fun m hw g hg ht pa h1 h2 => zeroOwned_hbm hw (List.mem_map_of_mem (List.mem_filter.2 ⟨hg, decide_eq_true ht⟩)) h1 h2⟩
  case teardown =>
    exact ⟨acts (fun _ => rfl) fun m _ => rfl, fun m h => ⟨teardown_part h, teardown_wgs h, teardown_cores h, teardown_clusters h, teardown_dieTlbs h, teardown_grants h⟩⟩
  case errors =>
    exact fun loc => ⟨acts (fun _ => rfl) fun m h => if_neg (by rw [h]; decide), fun pa => acts (fun _ => rfl) fun m _ => rfl, fun k o => acts (fun _ => rfl) fun m _ => rfl⟩
  case firmware =>
    exact fun s bs => ⟨fun d h => if_pos h,
      fun k h1 h2 => if_pos ⟨h1, h2⟩,
      fun key sig h1 h2 h3 => if_pos ⟨h1, bootOk_iff.2 ⟨h2, h3⟩⟩,
      fun key sig h => if_neg fun ⟨_, hb⟩ => h.elim (fun hk => hk (bootOk_iff.1 hb).1) fun hv => by simp [(bootOk_iff.1 hb).2] at hv,
      fun p hl hr => if_pos ⟨hl, hr⟩,
      _, rfl, rfl, rfl, rfl, rfl, rfl, rfl, rfl, rfl, rfl⟩

end Sys2Proof.Proofs
end

section
/-! The family '03_launch_queues_graph.md': what EXIT leaves and when the workgroup retires; graph nodes and shadow buffers. -/

namespace Sys2Proof.Proofs

open Sys2Proof.Machine Sys2Proof.Laws

/-! ### The end of lanes (R43, R16) -/

section Lanes

/-- The first part of `endLanes`: the lanes are no longer live, and a group without a live lane has left its phasers (R43, R339); the workgroup's status is as before. -/
def lanesGone (w g : Nat) (k : Mask) (m : Mach) : Mach :=
  let m0 := m.modG w g fun y => { y with live := y.live &&& ~~~k, exiting := none }
  if (m0.grp w g).live = 0 then dropPhasers w g m0 else m0

variable {w g : Nat} {k : Mask} {pc : DWord} {m : Mach}

/-- Leaving phasers changes no workgroup. -/
theorem lanesGone_wg : (lanesGone w g k m).wg w = (m.modG w g fun y => { y with live := y.live &&& ~~~k, exiting := none }).wg w := by
  unfold lanesGone
  dsimp only
  split <;> rfl

theorem lanesGone_grp (h : Nat) : (lanesGone w g k m).grp w h = (m.modG w g fun y => { y with live := y.live &&& ~~~k, exiting := none }).grp w h :=
  congrArg (fun x : Wg => Store.get default x.groups h) lanesGone_wg

theorem lanesGone_groupIds : ((lanesGone w g k m).wg w).groupIds = (m.wg w).groupIds := by
  rw [lanesGone_wg, wg_modG_same]; rfl

theorem lanesGone_status : ((lanesGone w g k m).wg w).status = (m.wg w).status := by
  rw [lanesGone_wg, wg_modG_same]

theorem lanesGone_live_same : ((lanesGone w g k m).grp w g).live = (m.grp w g).live &&& ~~~k := by
  rw [lanesGone_grp, grp_modG_same]

theorem lanesGone_live_other {h : Nat} (hg : h ≠ g) : ((lanesGone w g k m).grp w h).live = (m.grp w h).live := by
  rw [lanesGone_grp, grp_modG_other _ _ _ _ _ hg]

theorem lanesGone_left (h : (m.grp w g).live &&& ~~~k ≠ 0) :
    lanesGone w g k m = m.modG w g fun y => { y with live := y.live &&& ~~~k, exiting := none } :=
  if_neg (by rwa [grp_modG_same])

/-- No group of the workgroup has a live lane: the workgroup retires. -/
theorem endLanes_retires (h : ∀ j ∈ (m.wg w).groupIds, ((lanesGone w g k m).grp w j).live = 0) :
    endLanes w g k pc m = (lanesGone w g k m).modW w fun z => { z with status := .retiring, exitPc := pc } :=
  if_pos (List.all_eq_true.2 fun j hj => decide_eq_true (h j (lanesGone_groupIds ▸ hj)))

/-- A group of the workgroup has a live lane: nothing more happens. -/
theorem endLanes_stays {j : Nat} (hj : j ∈ (m.wg w).groupIds) (hl : ((lanesGone w g k m).grp w j).live ≠ 0) : endLanes w g k pc m = lanesGone w g k m :=
  if_neg fun ha => hl (of_decide_eq_true (List.all_eq_true.1 ha j (lanesGone_groupIds.symm ▸ hj)))

/-- Whether the workgroup retires or not, its groups are as the end of the lanes left them. -/
theorem endLanes_grp (j : Nat) : (endLanes w g k pc m).grp w j = (lanesGone w g k m).grp w j := by
  by_cases h : ∀ j ∈ (m.wg w).groupIds, ((lanesGone w g k m).grp w j).live = 0
  · rw [endLanes_retires h, Mach.grp, wg_modW_same]; rfl
  · push Not at h
    obtain ⟨i, hi, hl⟩ := h
    rw [endLanes_stays hi hl]

/-- Where the group keeps a live lane, the end of lanes is that alone. -/
theorem endLanes_left (hg : g ∈ (m.wg w).groupIds) (hl : (m.grp w g).live &&& ~~~k ≠ 0) :
    endLanes w g k pc m = m.modG w g fun y => { y with live := y.live &&& ~~~k, exiting := none } :=
  (endLanes_stays hg (by rwa [lanesGone_live_same])).trans (lanesGone_left hl)

end Lanes

/-- Settles O28: after the lanes have ended, the workgroup retires exactly where no group of it has a live lane. -/
theorem lastExitRetires : Obligations.LastExitRetires := by
  intro w g k pc m
  dsimp only
  simp only [endLanes_grp]
  refine ⟨lanesGone_live_same, fun h hg => lanesGone_live_other hg, fun hall => ?_, fun ⟨h, hm, hl⟩ => ?_⟩
  · rw [endLanes_retires hall, wg_modW_same]
    exact ⟨rfl, rfl⟩
  · rw [endLanes_stays hm hl, lanesGone_status]

/-! ### EXIT (R43, R44, R99, R405) -/

section Exit

/-- EXIT fixes the successor list that it names; an EXIT without names fixes none (R43). -/
def fixList (w : Nat) (names : List DWord) (m : Mach) : Mach := if names = [] then m else m.modW w fun z => { z with succ := some names }

theorem fixList_grp (w g : Nat) (names : List DWord) (m : Mach) : (fixList w names m).grp w g = m.grp w g := by
  unfold fixList
  split
  · rfl
  · rw [Mach.grp, wg_modW_same]; rfl

theorem fixList_groupIds (w : Nat) (names : List DWord) (m : Mach) : ((fixList w names m).wg w).groupIds = (m.wg w).groupIds := by
  unfold fixList
  split
  · rfl
  · rw [wg_modW_same]; rfl

/-- The end of some of the group's lanes keeps what the list has fixed, and is that alone. -/
theorem endLanes_fixList_left {w g : Nat} {k : Mask} {pc : DWord} {names : List DWord} {m : Mach} (hg : g ∈ (m.wg w).groupIds) (hl : (m.grp w g).live &&& ~~~k ≠ 0) :
    endLanes w g k pc (fixList w names m) = (fixList w names m).modG w g fun y => { y with live := y.live &&& ~~~k, exiting := none } :=
  endLanes_left (by rwa [fixList_groupIds]) (by rwa [fixList_grp])

/-- Past its traps EXIT fixes its list. The group's last lanes stand at the EXIT while a command is outstanding or something that a wait point honours is pending;
any others end. -/
theorem exitOwn_untrapped {a : Reg} {n : Nat} {x : Iss} {m : Mach} {y : Group} (hy : m.grp x.w x.g = y)
    (ht : exitListTrap (m.block x.w).succReserve (m.wg x.w).succ (exitNames y a n (lowLaneD x.eff)) = none)
    (hr : inRegion x x.eff m = false) (hs : inSerial x m = false) (hb : exitBlocked m x = none) : exitOwn a n x m =
    if x.eff = y.live ∧ (y.outs ≠ [] ∨ mayPass (m.wg x.w) y = false) then
      .placed (dropSlot x.w x.g (modRun x (fun r => { r with waiting := true }) ((fixList x.w (exitNames y a n (lowLaneD x.eff)) m).modG x.w x.g fun y =>
        { y with exiting := some (x.eff, x.pc), gaveUp := m.cycle })))
    else .done 0 (endLanes x.w x.g x.eff x.pc (fixList x.w (exitNames y a n (lowLaneD x.eff)) m)) := by
  subst hy
  unfold exitOwn
  dsimp only
  rw [ht]
  dsimp only
  rw [if_neg (by simp [hr]), if_neg (by simp [hs]), hb]
  rfl

/-- The lanes that take effect are not all the live ones. -/
theorem eff_ne_live {k live : Mask} (h : live &&& ~~~k ≠ 0) : k ≠ live := by
  rintro rfl
  exact h (BitVec.and_not_self k)

/-- The groups of the workgroup are those it had before the issue. -/
theorem begun_groupIds (i : Instr) (w g : Nat) (s : State) : ((Says.begun i w g s).wg w).groupIds = (s.m.wg w).groupIds :=
  congrArg List.range (show (Says.restW ((Says.begun i w g s).wg w)).ngroups = (Says.restW (s.m.wg w)).ngroups from congrArg Wg.ngroups (begun_kept i w g s).wg)

end Exit

/-- Settles O27: past the traps of R44 an EXIT ends its lanes unless they are the group's last and something holds them (`exitOwn_untrapped`); where the group
keeps live lanes, no more than that follows (`endLanes_fixList_left`). -/
theorem exitEndsLanes : Obligations.ExitEndsLanes := by
  intro a cnt gd i names listed ok
  have own_eq := fun w g s (h : ok w g s) =>
    have ⟨_, hr, hs, ht, hb⟩ := h
    exitOwn_untrapped (begun_reads i w g s) ht (inRegion_none hr) (inSerial_none hs) hb
  refine ⟨?some, ?last, ?waits⟩
  case some =>
    refine ends_guarded (exitOwn a cnt.toNat) (fun _ => rfl) (fun w g s h => h.1.1) fun w g s ⟨hok, hg, hl⟩ => ?_
    refine ((own_eq w g s hok).trans (if_neg fun h => eff_ne_live hl h.1)).trans (congrArg (Own.done 0) (endLanes_fixList_left ?_ ?_))
    · rwa [mkIss_w, begun_groupIds]
    · rwa [mkIss_w, mkIss_g, begun_reads]
  case last =>
    refine ends_guarded (exitOwn a cnt.toNat) (fun _ => rfl) (fun w g s h => h.1.1) fun w g s ⟨hok, ho, hp⟩ => (own_eq w g s hok).trans (if_neg ?_)
    rintro ⟨_, hn | hn⟩
    · exact hn ho
    · exact Bool.noConfusion (hp.symm.trans hn)
  case waits =>
    intro w g s hready hok hall hh
    exact execute_placed hready ((guarded_eff (exitOwn a cnt.toNat) hok.1).trans ((own_eq w g s hok).trans (if_pos ⟨hall, hh⟩)))

/-! ### Graph nodes and shadow buffers (R45, R215 to R217) -/

section Nodes

variable {i : Instr}

/-- An instruction whose own part is done outside regions ends so where some lane takes effect and none stands in a region. -/
theorem ends_free {ok : Nat → Nat → State → Prop} {k : Nat → Nat → State → Nat} {f : Nat → Nat → State → Mach → Mach} (own : Iss → Mach → Own)
    (he : ∀ s, exec i s = execute i (guarded (noRegion own)) s)
    (ho : ∀ w g s, ok w g s → own (mkIss i w g (settle w g s.m)) (Says.begun i w g s) = .done (k w g s) (f w g s (Says.begun i w g s))) :
    Says.Ends i (fun w g s => Says.Free i w g s ∧ ok w g s) k f :=
  ends _ he fun w g s ⟨⟨h0, hn⟩, h⟩ => (guarded_noRegion own h0 hn).trans (ho w g s h)

/-- An instruction whose own part is to hand on a command outside regions hands it on where some lane takes effect and none stands in a region. -/
theorem hands_free {cls : Nat} {ok : Nat → Nat → State → Prop} {kind : Nat → Nat → State → OutKind} {sh : Nat → Nat → State → Bool} (own : Iss → Mach → Own)
    (he : ∀ s, exec i s = execute i (guarded (noRegion own)) s)
    (ho : ∀ w g s, ok w g s → own (mkIss i w g (settle w g s.m)) (Says.begun i w g s) =
      .done 0 (handOn i (mkIss i w g (settle w g s.m)) cls (kind w g s) (sh w g s) (Says.begun i w g s))) :
    Says.Hands i cls (fun w g s => Says.Free i w g s ∧ ok w g s) kind sh :=
  hands _ he fun w g s ⟨⟨h0, hn⟩, h⟩ => ⟨0, (guarded_noRegion own h0 hn).trans (ho w g s h)⟩

/-- The buffer that a PUBLISH.decl names: base and size from the lowest lane that takes effect, the lower half in front (R216). -/
def namedShadow (v : Bool) (a b : Reg) (x : Iss) (y : Group) : Shadow :=
  ⟨v, (y.reg a.toNat (lowLaneD x.eff)).toNat, (y.reg b.toNat (lowLaneD x.eff)).toNat, false⟩

/-- PUBLISH.decl of a declaration that breaks no rule and of a range that no other workgroup has declared. -/
theorem declOwn_declares {v : Bool} {k : Nat} {a b : Reg} {x : Iss} {m : Mach} {y : Group} (hy : m.grp x.w x.g = y)
    (hd : declBroken m x.w k (namedShadow v a b x y) = false)
    (ht : vaultTaken m x.w (namedShadow v a b x y) = false) :
    declOwn i v k a b x m = .done 0 (landLater i x none []
      (declare x.w k (namedShadow v a b x y) m)) := by
  subst hy
  unfold declOwn
  dsimp only
  exact (if_neg (Bool.eq_false_iff.1 hd)).trans (if_neg (Bool.eq_false_iff.1 ht))

/-- PUBLISH.decl of a range that another workgroup has declared. -/
theorem declOwn_taken {v : Bool} {k : Nat} {a b : Reg} {x : Iss} {m : Mach} {y : Group} (hy : m.grp x.w x.g = y)
    (hd : declBroken m x.w k (namedShadow v a b x y) = false)
    (ht : vaultTaken m x.w (namedShadow v a b x y) = true) :
    declOwn i v k a b x m = .done 0 (failOut x.w x.g m.nextCmd ⟨.publishState, x.eff, 0, freeInfo m⟩ (handOn i x (waitClass i)
      (.cmd (.decl k (namedShadow v a b x y)) none x.eff) false m)) := by
  subst hy
  unfold declOwn
  dsimp only
  exact (if_neg (Bool.eq_false_iff.1 hd)).trans (if_pos ht)

theorem publishOwn_undeclared {k : Nat} {drop : Bool} {x : Iss} {m : Mach} (h : shadowSlot m x.w k = none) :
    publishOwn i k drop x m = trapEff x .publishState m := by
  unfold publishOwn
  rw [h]

/-- PUBLISH of a declared slot, and PUBLISH.drop of one whose lower half is in front. -/
theorem publishOwn_hands {k : Nat} {drop : Bool} {x : Iss} {m : Mach} {b : Shadow} (h : shadowSlot m x.w k = some b) (hu : drop = true → b.upper = false) :
    publishOwn i k drop x m = .done 0 (handOn i x (waitClass i) (.publish k drop) false m) := by
  unfold publishOwn
  rw [h]
  exact if_neg fun hd => by
    obtain ⟨h1, h2⟩ := (Bool.and_eq_true _ _).mp hd
    exact Bool.noConfusion ((hu h1).symm.trans h2)

end Nodes

/-- Settles O39: outside regions the own part runs (`ends_free`, `hands_free`), and past its traps it changes the tile, the node or the slot and hands on its command
(`declOwn_declares`, `declOwn_taken`, `publishOwn_hands`); a slot that is not declared traps (`publishOwn_undeclared`). -/
theorem nodesAndShadows : Obligations.NodesAndShadows := by
  intro a b t k vault gd i f d p q handle live lands buf
  refine ⟨?tile, ?free, ?decl, ?taken, ?publish, ?drop, ?undeclared⟩
  case tile =>
    refine ends_free _ (fun _ => rfl) fun w g s ⟨hl, hb, ht⟩ => ?_
    dsimp only [mkIss_w, mkIss_g]
    rw [begun_reads]
    have hlive : ¬ ((live i w g s).isNone || ((Says.begun i w g s).tile w t.toNat).bound.isSome) = true := by
      rw [hb]
      simpa using hl
    exact (if_neg hlive).trans (if_neg (Nat.not_le.2 ht))
  case free =>
    refine ends_free _ (fun _ => rfl) fun w g s hl => ?_
    obtain ⟨n, hk⟩ := Option.ne_none_iff_exists'.1 hl
    have own_live : liveNode (Says.begun f w g s) ((Says.begun f w g s).wg w).part ((Says.begun f w g s).wg w).ctx
        ((Says.reads w g s).reg a.toNat (lowLaneD (mkIss f w g (settle w g s.m)).eff)) = some n := hk
    dsimp only [mkIss_w, mkIss_g]
    rw [begun_reads, own_live, hk]
    rfl
  case decl =>
    exact ends_free (declOwn d vault k.toNat a b) (fun _ => rfl) fun w g s ⟨hd, ht⟩ => declOwn_declares (begun_reads d w g s) hd ht
  case taken =>
    refine ends_free (declOwn d vault k.toNat a b) (fun _ => rfl) fun w g s ⟨hd, ht⟩ => ?_
    rw [← begun_nextCmd d w g s]
    exact declOwn_taken (begun_reads d w g s) hd ht
  case publish =>
    refine hands_free (publishOwn p k.toNat false) (fun _ => rfl) fun w g s h => ?_
    obtain ⟨x, hx⟩ := Option.ne_none_iff_exists'.1 h
    exact publishOwn_hands hx nofun
  case drop =>
    exact hands_free (publishOwn q k.toNat true) (fun _ => rfl) fun w g s ⟨x, hx, hu⟩ => publishOwn_hands hx fun _ => hu
  case undeclared =>
    simp only [List.forall_mem_cons, List.not_mem_nil, IsEmpty.forall_iff, implies_true, and_true]
    exact ⟨fun w g s hr ⟨h0, hn⟩ h => traps _ (fun _ => rfl) hr ((guarded_noRegion (publishOwn p k.toNat false) h0 hn).trans (publishOwn_undeclared h)),
      fun w g s hr ⟨h0, hn⟩ h => traps _ (fun _ => rfl) hr ((guarded_noRegion (publishOwn q k.toNat true) h0 hn).trans (publishOwn_undeclared h))⟩

end Sys2Proof.Proofs
end

section
/-! The family '05_clauses_encodings_opcode_map.md', first part: decoder and encoder. A word is its fields (`ofNat_eq_iff`); so a word that the encoder writes, and
each literal, is known by exactly the facts about its fields that the decoder asks for, and these equivalences are read in both directions. -/

namespace Sys2Proof.Proofs

open Sys2Proof Sys2Proof.Machine Sys2Proof.Laws

/-! ### A word is its fields -/

theorem bits_toNat (w : Word) (lo n : Nat) : (bits w lo n).toNat = w.toNat / 2 ^ lo % 2 ^ n := by
  rw [bits, BitVec.extractLsb'_toNat, Nat.shiftRight_eq_div_pow]

/-- The number whose fields, from bit 0 up, have the widths and values of the list. -/
def packed : List (Nat × Nat) → Nat
  | [] => 0
  | (n, x) :: fs => x + 2 ^ n * packed fs

/-- From bit `lo` up, the fields of a word have the widths and values of the list. -/
def hasFields (w : Word) : Nat → List (Nat × Nat) → Prop
  | _, [] => True
  | lo, (n, x) :: fs => (bits w lo n).toNat = x ∧ hasFields w (lo + n) fs

/-- The values of the list fit their widths, which come to `k` bits. -/
def fits : Nat → List (Nat × Nat) → Prop
  | k, [] => k = 0
  | k, (n, x) :: fs => x < 2 ^ n ∧ n ≤ k ∧ fits (k - n) fs

theorem packed_lt (fs : List (Nat × Nat)) : ∀ k, fits k fs → packed fs < 2 ^ k := by
  induction fs with
  | nil => rintro _ rfl; decide
  | cons f fs ih =>
    intro k ⟨hx, hn, hf⟩
    calc f.2 + 2 ^ f.1 * packed fs < 2 ^ f.1 * (packed fs + 1) := by rw [Nat.mul_add, Nat.mul_one, Nat.add_comm]; exact Nat.add_lt_add_left hx _
      _ ≤ 2 ^ f.1 * 2 ^ (k - f.1) := Nat.mul_le_mul_left _ (ih _ hf)
      _ = 2 ^ k := by rw [← Nat.pow_add, Nat.add_sub_cancel' hn]

theorem packed_eq_iff (w : Word) (fs : List (Nat × Nat)) : ∀ lo, lo ≤ 32 → fits (32 - lo) fs → (packed fs = w.toNat / 2 ^ lo ↔ hasFields w lo fs) := by
  induction fs with
  | nil =>
    intro lo hlo hf
    obtain rfl : lo = 32 := by have : 32 - lo = 0 := hf; omega
    simp [packed, hasFields, Nat.div_eq_of_lt w.isLt]
  | cons f fs ih =>
    intro lo hlo ⟨hx, hn, hf⟩
    rw [hasFields, packed, ← ih (lo + f.1) (by omega) (by rwa [Nat.sub_sub] at hf), bits_toNat, Nat.pow_add, ← Nat.div_div_eq_div_mul]
    generalize w.toNat / 2 ^ lo = v
    constructor
    · rintro rfl
      exact ⟨by rw [Nat.add_mul_mod_self_left, Nat.mod_eq_of_lt hx], by rw [Nat.add_mul_div_left _ _ (Nat.two_pow_pos _), Nat.div_eq_of_lt hx, Nat.zero_add]⟩
    · rintro ⟨h, k⟩
      rw [← h, k, Nat.mod_add_div]

/-- A word is a packed number exactly where each of its fields has the value that was packed. -/
theorem ofNat_eq_iff {x : Nat} {w : Word} (fs : List (Nat × Nat)) (hx : x = packed fs) (hf : fits 32 fs) : BitVec.ofNat 32 x = w ↔ hasFields w 0 fs := by
  rw [← packed_eq_iff w fs 0 (Nat.zero_le _) hf, Nat.pow_zero, Nat.div_one, ← BitVec.toNat_inj, BitVec.toNat_ofNat, hx, Nat.mod_eq_of_lt (packed_lt fs 32 hf)]

/-- A flag bit, as the decoder reads it. -/
theorem flag_iff : ∀ {b : BitVec 1} {c : Bool}, decide (b = 1) = c ↔ b.toNat = c.toNat := by decide

theorem toNat_eq_zero_iff {n : Nat} {v : BitVec n} : v.toNat = 0 ↔ v = 0 := BitVec.toNat_inj (y := 0)

theorem toNat_eq_one_iff {n : Nat} {v : BitVec (n + 1)} : v.toNat = 1 ↔ v = 1 := by
  rw [← BitVec.toNat_inj]
  simp

theorem bits_zero_split {w : Word} {lo n m : Nat} : bits w lo (n + m) = 0 ↔ bits w lo n = 0 ∧ bits w (lo + n) m = 0 := by
  simp only [← toNat_eq_zero_iff, bits_toNat, Nat.pow_add, ← Nat.div_div_eq_div_mul]
  rw [Nat.mod_mul, Nat.add_eq_zero_iff, Nat.mul_eq_zero]
  simp

theorem fG_eq_iff {w : Word} {g : Guard} : fG w = g ↔ bits w 3 3 = g.p ∧ bits w 2 1 = g.n ∧ bits w 0 2 = g.s := by
  cases g
  simp [fG]

theorem fGB_eq_iff {w : Word} {g : Guard} : fGB w = g ↔ bits w 21 3 = g.p ∧ bits w 20 1 = g.n ∧ bits w 0 2 = g.s := by
  cases g
  simp [fGB]

theorem wordT_eq_iff {op : Nat} {d a b : BitVec 6} {g : Guard} {w : Word} (h : op < 256) :
    wordT op d a b g = w ↔ fOp w = op ∧ fD w = d ∧ fA w = a ∧ fB w = b ∧ fG w = g := by
  rw [wordT, ofNat_eq_iff [(2, g.s.toNat), (1, g.n.toNat), (3, g.p.toNat), (6, b.toNat), (6, a.toNat), (6, d.toNat), (8, op)] (by simp only [packed]; omega) (by simp [fits]; omega)]
  simp only [hasFields, fG_eq_iff, fOp, fD, fA, fB, ← BitVec.toNat_inj]
  tauto

theorem wordI_eq_iff {op : Nat} {d a : BitVec 6} {imm : BitVec 10} {s : BitVec 2} {w : Word} (h : op < 256) :
    wordI op d a imm s = w ↔ fOp w = op ∧ fD w = d ∧ fA w = a ∧ bits w 2 10 = imm ∧ bits w 0 2 = s := by
  rw [wordI, ofNat_eq_iff [(2, s.toNat), (10, imm.toNat), (6, a.toNat), (6, d.toNat), (8, op)] (by simp only [packed]; omega) (by simp [fits]; omega)]
  simp only [hasFields, fOp, fD, fA, ← BitVec.toNat_inj]
  tauto

theorem wordB_eq_iff {op : Nat} {off : BitVec 18} {g : Guard} {w : Word} (h : op < 256) :
    wordB op off g = w ↔ fOp w = op ∧ bits w 2 18 = off ∧ fGB w = g := by
  rw [wordB, ofNat_eq_iff [(2, g.s.toNat), (18, off.toNat), (1, g.n.toNat), (3, g.p.toNat), (8, op)] (by simp only [packed]; omega) (by simp [fits]; omega)]
  simp only [hasFields, fGB_eq_iff, fOp, ← BitVec.toNat_inj]
  tauto

/-! The same where the opcode is known. -/

theorem wordT_is {op : Nat} {w : Word} (hop : fOp w = op) {d a b : BitVec 6} {g : Guard} : wordT op d a b g = w ↔ fD w = d ∧ fA w = a ∧ fB w = b ∧ fG w = g := by
  rw [wordT_eq_iff (by rw [← hop]; exact (bits w 24 8).isLt), and_iff_right hop]

theorem wordI_is {op : Nat} {w : Word} (hop : fOp w = op) {d a : BitVec 6} {imm : BitVec 10} {s : BitVec 2} :
    wordI op d a imm s = w ↔ fD w = d ∧ fA w = a ∧ bits w 2 10 = imm ∧ bits w 0 2 = s := by
  rw [wordI_eq_iff (by rw [← hop]; exact (bits w 24 8).isLt), and_iff_right hop]

theorem wordB_is {op : Nat} {w : Word} (hop : fOp w = op) {off : BitVec 18} {g : Guard} : wordB op off g = w ↔ bits w 2 18 = off ∧ fGB w = g := by
  rw [wordB_eq_iff (by rw [← hop]; exact (bits w 24 8).isLt), and_iff_right hop]

/-! ### The values of a field are its codes -/

/-- A code and the function that reads it back: they are inverse, and the code fits a field of `k` bits. -/
structure Coded {α : Type} (k : Nat) (code : α → Nat) (ofCode : Nat → Option α) : Prop where
  ofCode_iff : ∀ {n x}, ofCode n = some x ↔ n = code x
  lt : ∀ x, code x < 2 ^ k

theorem iCond_coded : Coded 3 ICond.code ICond.ofCode where
  ofCode_iff {n x} := ⟨fun h => by unfold ICond.ofCode at h; split at h <;> cases h <;> rfl, by rintro rfl; cases x <;> rfl⟩
  lt x := by cases x <;> decide

theorem fCond_coded : Coded 3 FCond.code FCond.ofCode where
  ofCode_iff {n x} := ⟨fun h => by unfold FCond.ofCode at h; split at h <;> cases h <;> rfl, by rintro rfl; cases x <;> rfl⟩
  lt x := by cases x <;> decide

theorem plopOp_coded : Coded 3 PlopOp.code PlopOp.ofCode where
  ofCode_iff {n x} := ⟨fun h => by unfold PlopOp.ofCode at h; split at h <;> cases h <;> rfl, by rintro rfl; cases x <;> rfl⟩
  lt x := by cases x <;> decide

theorem voteMode_coded : Coded 3 VoteMode.code VoteMode.ofCode where
  ofCode_iff {n x} := ⟨fun h => by unfold VoteMode.ofCode at h; split at h <;> cases h <;> rfl, by rintro rfl; cases x <;> rfl⟩
  lt x := by cases x <;> decide

theorem redOp_coded : Coded 4 RedOp.code RedOp.ofCode where
  ofCode_iff {n x} := ⟨fun h => by unfold RedOp.ofCode at h; split at h <;> cases h <;> rfl, by rintro rfl; cases x <;> rfl⟩
  lt x := by cases x <;> decide

theorem rnd_coded : Coded 3 Rnd.code Rnd.ofCode where
  ofCode_iff {n x} := ⟨fun h => by unfold Rnd.ofCode at h; split at h <;> cases h <;> rfl, by rintro rfl; cases x <;> rfl⟩
  lt x := by cases x <;> decide

theorem fClassSel_coded : Coded 3 FClassSel.code FClassSel.ofCode where
  ofCode_iff {n x} := ⟨fun h => by unfold FClassSel.ofCode at h; split at h <;> cases h <;> rfl, by rintro rfl; cases x <;> rfl⟩
  lt x := by cases x <;> decide

theorem order_coded : Coded 4 Order.code Order.ofCode where
  ofCode_iff {n x} := ⟨fun h => by unfold Order.ofCode at h; split at h <;> cases h <;> rfl, by rintro rfl; cases x <;> rfl⟩
  lt x := by cases x <;> decide

theorem scope_coded : Coded 3 Scope.code Scope.ofCode where
  ofCode_iff {n x} := ⟨fun h => by unfold Scope.ofCode at h; split at h <;> cases h <;> rfl, by rintro rfl; cases x <;> rfl⟩
  lt x := by cases x <;> decide

theorem mSize_coded : Coded 4 MSize.code MSize.ofCode where
  ofCode_iff {n x} := ⟨fun h => by unfold MSize.ofCode at h; split at h <;> cases h <;> rfl, by rintro rfl; cases x <;> rfl⟩
  lt x := by cases x <;> decide

theorem atomOp_coded : Coded 4 AtomOp.code AtomOp.ofCode where
  ofCode_iff {n x} := ⟨fun h => by unfold AtomOp.ofCode at h; split at h <;> cases h <;> rfl, by rintro rfl; cases x <;> rfl⟩
  lt x := by cases x <;> decide

theorem bindKind_coded : Coded 2 BindKind.code BindKind.ofCode where
  ofCode_iff {n x} := ⟨fun h => by unfold BindKind.ofCode at h; split at h <;> cases h <;> rfl, by rintro rfl; cases x <;> rfl⟩
  lt x := by cases x <;> decide

theorem space_coded : Coded 2 Space.code Space.ofCode where
  ofCode_iff {n x} := ⟨fun h => by unfold Space.ofCode at h; split at h <;> cases h <;> rfl, by rintro rfl; cases x <;> rfl⟩
  lt x := by cases x <;> decide

theorem phMode_coded : Coded 2 PhMode.code PhMode.ofCode where
  ofCode_iff {n x} := ⟨fun h => by unfold PhMode.ofCode at h; split at h <;> cases h <;> rfl, by rintro rfl; cases x <;> rfl⟩
  lt x := by cases x <;> decide

theorem nodeUse_coded : Coded 2 NodeUse.code NodeUse.ofCode where
  ofCode_iff {n x} := ⟨fun h => by unfold NodeUse.ofCode at h; split at h <;> cases h <;> rfl, by rintro rfl; cases x <;> rfl⟩
  lt x := by cases x <;> decide

theorem sReg_coded : Coded 6 SReg.code SReg.ofCode where
  ofCode_iff {n x} := ⟨fun h => by unfold SReg.ofCode at h; split at h <;> cases h <;> rfl, by rintro rfl; cases x <;> rfl⟩
  lt x := by cases x <;> decide

theorem regionClass_coded : Coded 3 RegionClass.code RegionClass.ofCode where
  ofCode_iff {n x} := ⟨fun h => by unfold RegionClass.ofCode at h; split at h <;> cases h <;> rfl, by rintro rfl; cases x <;> rfl⟩
  lt x := by cases x <;> decide

/-! ### The six-bit fields of a word -/

section Fields

variable {α : Type} {k : Nat} {code : α → Nat} {ofCode : Nat → Option α} {f : BitVec 6}

theorem cat3_iff (hc : Coded 3 code ofCode) {x : α} {p : BitVec 3} : f = cat3 (BitVec.ofNat 3 (code x)) p ↔ ofCode (hi3 f).toNat = some x ∧ lo3 f = p := by
  have halves : ∀ f : BitVec 6, ∀ h p : BitVec 3, f = cat3 h p ↔ hi3 f = h ∧ lo3 f = p := by decide
  rw [halves, hc.ofCode_iff, ← BitVec.toNat_inj, BitVec.toNat_ofNat, Nat.mod_eq_of_lt (hc.lt x)]

theorem code_iff (hc : Coded k code ofCode) (hk : k ≤ 6) {x : α} : f = BitVec.ofNat 6 (code x) ↔ ofCode f.toNat = some x := by
  rw [hc.ofCode_iff, ← BitVec.toNat_inj, BitVec.toNat_ofNat, Nat.mod_eq_of_lt (Nat.lt_of_lt_of_le (hc.lt x) (Nat.pow_le_pow_right (by decide) hk))]

theorem setWidth_iff {n : Nat} (hn : n ≤ 6) {v : BitVec n} : f = v.setWidth 6 ↔ f.toNat < 2 ^ n ∧ f.setWidth n = v := by
  have hv := v.isLt
  have h6 : v.toNat < 2 ^ 6 := Nat.lt_of_lt_of_le hv (Nat.pow_le_pow_right (by decide) hn)
  rw [← BitVec.toNat_inj, ← BitVec.toNat_inj, BitVec.toNat_setWidth, BitVec.toNat_setWidth, Nat.mod_eq_of_lt h6]
  constructor
  · intro h
    rw [h]
    exact ⟨hv, Nat.mod_eq_of_lt hv⟩
  · rintro ⟨h, h'⟩
    rwa [Nat.mod_eq_of_lt h] at h'

theorem gscan_iff {ex : Bool} {op : RedOp} : f = BitVec.ofNat 6 (16 * ex.toNat + op.code) ↔ RedOp.ofCode (f.toNat % 16) = some op ∧ f.toNat < 32 ∧ decide (16 ≤ f.toNat) = ex := by
  have hop : op.code < 16 := redOp_coded.lt op
  have hf := f.isLt
  rw [redOp_coded.ofCode_iff, ← BitVec.toNat_inj, BitVec.toNat_ofNat]
  cases ex <;> simp <;> omega

theorem publishDecl_iff : ∀ {f : BitVec 6} {v : Bool} {k : BitVec 2}, f = BitVec.ofNat 6 (4 * v.toNat + k.toNat) ↔ f.toNat < 8 ∧ decide (4 ≤ f.toNat) = v ∧ f.setWidth 2 = k := by
  decide

theorem publish_iff : ∀ {f : BitVec 6} {k : BitVec 2}, f = BitVec.ofNat 6 (8 + k.toNat) ↔ (8 ≤ f.toNat ∧ f.toNat < 12) ∧ f.setWidth 2 = k := by
  decide

theorem publishDrop_iff : ∀ {f : BitVec 6} {k : BitVec 2}, f = BitVec.ofNat 6 (16 + k.toNat) ↔ (16 ≤ f.toNat ∧ f.toNat < 20) ∧ f.setWidth 2 = k := by
  decide

theorem ptGuard_iff {w : Word} {st : BitVec 2} : fG w = ptGuard st ↔ fPt w = true ∧ bits w 0 2 = st := by
  simp [fG_eq_iff, ptGuard, fPt, and_assoc]

end Fields

/-! ### The literals -/

section Literals

variable {l : Word} {b c d e : Bool}

/-- A field of a packed number that holds a code. -/
theorem Coded.field_iff {α : Type} {k n : Nat} {code : α → Nat} {ofCode : Nat → Option α} (hc : Coded k code ofCode) {v : BitVec n} {x : α} :
    v.toNat = code x ↔ ofCode v.toNat = some x := hc.ofCode_iff.symm

/-- A literal that holds one number, from bit 0 up. -/
theorem lit_low {k : Nat} {v : BitVec k} (hk : k ≤ 32) : BitVec.ofNat 32 v.toNat = l ↔ bits l 0 k = v ∧ bits l k (32 - k) = 0 := by
  rw [ofNat_eq_iff [(k, v.toNat), (32 - k, 0)] (by simp [packed]) (by simp [fits, v.isLt, hk])]
  simp [hasFields, BitVec.toNat_inj, toNat_eq_zero_iff]

theorem lit_rnd {r : Rnd} : BitVec.ofNat 32 (r.code) = l ↔
    Rnd.ofCode (bits l 0 3).toNat = some r ∧ bits l 3 29 = 0 := by
  have hr : r.code < 8 := rnd_coded.lt r
  rw [ofNat_eq_iff [(3, r.code), (29, 0)] (by simp only [packed]; omega) (by simp [fits, hr])]
  simp [hasFields, toNat_eq_zero_iff, rnd_coded.field_iff]

theorem lit_third {v : BitVec 6} {r : Rnd} : BitVec.ofNat 32 (v.toNat * 2 ^ 8 + r.code) = l ↔
    Rnd.ofCode (bits l 0 3).toNat = some r ∧ bits l 3 5 = 0 ∧ bits l 8 6 = v ∧ bits l 14 18 = 0 := by
  have hr : r.code < 8 := rnd_coded.lt r
  rw [ofNat_eq_iff [(3, r.code), (5, 0), (6, v.toNat), (18, 0)] (by simp only [packed]; omega) (by simp [fits, hr]; omega)]
  simp [hasFields, BitVec.toNat_inj, toNat_eq_zero_iff, rnd_coded.field_iff]

theorem lit_cvt {r : Rnd} : BitVec.ofNat 32 (b.toNat * 2 ^ 15 + c.toNat * 2 ^ 14 + r.code) = l ↔
    Rnd.ofCode (bits l 0 3).toNat = some r ∧ bits l 3 11 = 0 ∧ decide (bits l 14 1 = 1) = c ∧ decide (bits l 15 1 = 1) = b ∧ bits l 16 16 = 0 := by
  have hr : r.code < 8 := rnd_coded.lt r
  rw [ofNat_eq_iff [(3, r.code), (11, 0), (1, c.toNat), (1, b.toNat), (16, 0)] (by simp only [packed]; omega) (by simp [fits, hr, Bool.toNat_le])]
  simp [hasFields, ← flag_iff, toNat_eq_zero_iff, rnd_coded.field_iff]

theorem lit_narrow8 {p : BitVec 3} {v : BitVec 6} : BitVec.ofNat 32 (b.toNat * 2 ^ 11 + c.toNat * 2 ^ 10 + d.toNat * 2 ^ 9 + p.toNat * 2 ^ 6 + v.toNat) = l ↔
    bits l 0 6 = v ∧ bits l 6 3 = p ∧ decide (bits l 9 1 = 1) = d ∧ decide (bits l 10 1 = 1) = c ∧ decide (bits l 11 1 = 1) = b ∧ bits l 12 20 = 0 := by
  rw [ofNat_eq_iff [(6, v.toNat), (3, p.toNat), (1, d.toNat), (1, c.toNat), (1, b.toNat), (20, 0)] (by simp only [packed]; omega) (by simp [fits, Bool.toNat_le]; omega)]
  simp [hasFields, ← flag_iff, BitVec.toNat_inj, toNat_eq_zero_iff]

theorem lit_widen8 {p : BitVec 3} : BitVec.ofNat 32 (b.toNat * 2 ^ 10 + c.toNat * 2 ^ 9 + p.toNat * 2 ^ 6) = l ↔
    bits l 0 6 = 0 ∧ bits l 6 3 = p ∧ decide (bits l 9 1 = 1) = c ∧ decide (bits l 10 1 = 1) = b ∧ bits l 11 21 = 0 := by
  rw [ofNat_eq_iff [(6, 0), (3, p.toNat), (1, c.toNat), (1, b.toNat), (21, 0)] (by simp only [packed]; omega) (by simp [fits, Bool.toNat_le]; omega)]
  simp [hasFields, ← flag_iff, BitVec.toNat_inj, toNat_eq_zero_iff]

theorem lit_access {o : Order} {s : Scope} {z : MSize} : BitVec.ofNat 32 (o.code * 2 ^ 28 + s.code * 2 ^ 25 + z.code * 2 ^ 20) = l ↔
    bits l 0 20 = 0 ∧ MSize.ofCode (bits l 20 4).toNat = some z ∧ bits l 24 1 = 0 ∧ Scope.ofCode (bits l 25 3).toNat = some s ∧ Order.ofCode (bits l 28 4).toNat = some o := by
  have hz : z.code < 16 := mSize_coded.lt z
  have hs : s.code < 8 := scope_coded.lt s
  have ho : o.code < 16 := order_coded.lt o
  rw [ofNat_eq_iff [(20, 0), (4, z.code), (1, 0), (3, s.code), (4, o.code)] (by simp only [packed]; omega) (by simp [fits, hz, hs, ho])]
  simp [hasFields, toNat_eq_zero_iff, mSize_coded.field_iff, scope_coded.field_iff, order_coded.field_iff]

theorem lit_atomic {o : Order} {s : Scope} {z : MSize} {a : AtomOp} : BitVec.ofNat 32 (o.code * 2 ^ 28 + s.code * 2 ^ 25 + b.toNat * 2 ^ 24 + z.code * 2 ^ 20 + a.code * 2 ^ 16) = l ↔
    bits l 0 16 = 0 ∧ AtomOp.ofCode (bits l 16 4).toNat = some a ∧ MSize.ofCode (bits l 20 4).toNat = some z ∧ decide (bits l 24 1 = 1) = b ∧ Scope.ofCode (bits l 25 3).toNat = some s ∧ Order.ofCode (bits l 28 4).toNat = some o := by
  have ha : a.code < 16 := atomOp_coded.lt a
  have hz : z.code < 16 := mSize_coded.lt z
  have hs : s.code < 8 := scope_coded.lt s
  have ho : o.code < 16 := order_coded.lt o
  rw [ofNat_eq_iff [(16, 0), (4, a.code), (4, z.code), (1, b.toNat), (3, s.code), (4, o.code)] (by simp only [packed]; omega) (by simp [fits, ha, hz, hs, ho, Bool.toNat_le])]
  simp [hasFields, ← flag_iff, toNat_eq_zero_iff, atomOp_coded.field_iff, mSize_coded.field_iff, scope_coded.field_iff, order_coded.field_iff]

theorem lit_fence {o : Order} {s : Scope} : BitVec.ofNat 32 (o.code * 2 ^ 28 + s.code * 2 ^ 25) = l ↔
    bits l 0 25 = 0 ∧ Scope.ofCode (bits l 25 3).toNat = some s ∧ Order.ofCode (bits l 28 4).toNat = some o := by
  have hs : s.code < 8 := scope_coded.lt s
  have ho : o.code < 16 := order_coded.lt o
  rw [ofNat_eq_iff [(25, 0), (3, s.code), (4, o.code)] (by simp only [packed]; omega) (by simp [fits, hs, ho])]
  simp [hasFields, toNat_eq_zero_iff, scope_coded.field_iff, order_coded.field_iff]

theorem lit_bind {v : BitVec 4} {k : BindKind} : BitVec.ofNat 32 (v.toNat * 2 ^ 4 + b.toNat * 2 ^ 3 + c.toNat * 2 ^ 2 + k.code) = l ↔
    BindKind.ofCode (bits l 0 2).toNat = some k ∧ decide (bits l 2 1 = 1) = c ∧ decide (bits l 3 1 = 1) = b ∧ bits l 4 4 = v ∧ bits l 8 24 = 0 := by
  have hk : k.code < 4 := bindKind_coded.lt k
  rw [ofNat_eq_iff [(2, k.code), (1, c.toNat), (1, b.toNat), (4, v.toNat), (24, 0)] (by simp only [packed]; omega) (by simp [fits, hk, Bool.toNat_le]; omega)]
  simp [hasFields, ← flag_iff, BitVec.toNat_inj, toNat_eq_zero_iff, bindKind_coded.field_iff]

theorem lit_unbind {v : BitVec 4} : BitVec.ofNat 32 (v.toNat * 2 ^ 4) = l ↔
    bits l 0 4 = 0 ∧ bits l 4 4 = v ∧ bits l 8 24 = 0 := by
  rw [ofNat_eq_iff [(4, 0), (4, v.toNat), (24, 0)] (by simp only [packed]; omega) (by simp [fits]; omega)]
  simp [hasFields, BitVec.toNat_inj, toNat_eq_zero_iff]

theorem lit_scope {s : Scope} : BitVec.ofNat 32 (s.code * 2 ^ 25) = l ↔
    bits l 0 25 = 0 ∧ Scope.ofCode (bits l 25 3).toNat = some s ∧ bits l 28 4 = 0 := by
  have hs : s.code < 8 := scope_coded.lt s
  rw [ofNat_eq_iff [(25, 0), (3, s.code), (4, 0)] (by simp only [packed]; omega) (by simp [fits, hs])]
  simp [hasFields, toNat_eq_zero_iff, scope_coded.field_iff]

theorem lit_gbegin {v : BitVec 19} : BitVec.ofNat 32 (v.toNat * 2 ^ 13) = l ↔
    bits l 0 13 = 0 ∧ bits l 13 19 = v := by
  rw [ofNat_eq_iff [(13, 0), (19, v.toNat)] (by simp only [packed]; omega) (by simp [fits]; omega)]
  simp [hasFields, BitVec.toNat_inj, toNat_eq_zero_iff]

theorem lit_waitw {s : Scope} {z : MSize} : BitVec.ofNat 32 (s.code * 2 ^ 25 + z.code * 2 ^ 20) = l ↔
    bits l 0 20 = 0 ∧ MSize.ofCode (bits l 20 4).toNat = some z ∧ bits l 24 1 = 0 ∧ Scope.ofCode (bits l 25 3).toNat = some s ∧ bits l 28 4 = 0 := by
  have hz : z.code < 16 := mSize_coded.lt z
  have hs : s.code < 8 := scope_coded.lt s
  rw [ofNat_eq_iff [(20, 0), (4, z.code), (1, 0), (3, s.code), (4, 0)] (by simp only [packed]; omega) (by simp [fits, hz, hs])]
  simp [hasFields, toNat_eq_zero_iff, mSize_coded.field_iff, scope_coded.field_iff]

theorem lit_space {s : Space} : BitVec.ofNat 32 (s.code) = l ↔
    Space.ofCode (bits l 0 2).toNat = some s ∧ bits l 2 30 = 0 := by
  have hs : s.code < 4 := space_coded.lt s
  rw [ofNat_eq_iff [(2, s.code), (30, 0)] (by simp only [packed]; omega) (by simp [fits, hs])]
  simp [hasFields, toNat_eq_zero_iff, space_coded.field_iff]

theorem lit_mconv {p : BitVec 3} {v : BitVec 4} : BitVec.ofNat 32 (b.toNat * 2 ^ 10 + c.toNat * 2 ^ 9 + d.toNat * 2 ^ 8 + e.toNat * 2 ^ 7 + p.toNat * 2 ^ 4 + v.toNat) = l ↔
    bits l 0 4 = v ∧ bits l 4 3 = p ∧ decide (bits l 7 1 = 1) = e ∧ decide (bits l 8 1 = 1) = d ∧ decide (bits l 9 1 = 1) = c ∧ decide (bits l 10 1 = 1) = b ∧ bits l 11 21 = 0 := by
  rw [ofNat_eq_iff [(4, v.toNat), (3, p.toNat), (1, e.toNat), (1, d.toNat), (1, c.toNat), (1, b.toNat), (21, 0)] (by simp only [packed]; omega) (by simp [fits, Bool.toNat_le]; omega)]
  simp [hasFields, ← flag_iff, BitVec.toNat_inj, toNat_eq_zero_iff]

theorem lit_tdrain {s : Space} : BitVec.ofNat 32 (b.toNat * 2 ^ 3 + c.toNat * 2 ^ 2 + s.code) = l ↔
    Space.ofCode (bits l 0 2).toNat = some s ∧ decide (bits l 2 1 = 1) = c ∧ decide (bits l 3 1 = 1) = b ∧ bits l 4 28 = 0 := by
  have hs : s.code < 4 := space_coded.lt s
  rw [ofNat_eq_iff [(2, s.code), (1, c.toNat), (1, b.toNat), (28, 0)] (by simp only [packed]; omega) (by simp [fits, hs, Bool.toNat_le])]
  simp [hasFields, ← flag_iff, toNat_eq_zero_iff, space_coded.field_iff]

theorem lit_cmrg : BitVec.ofNat 32 (b.toNat * 2 ^ 1 + c.toNat) = l ↔
    decide (bits l 0 1 = 1) = c ∧ decide (bits l 1 1 = 1) = b ∧ bits l 2 30 = 0 := by
  rw [ofNat_eq_iff [(1, c.toNat), (1, b.toNat), (30, 0)] (by simp only [packed]; omega) (by simp [fits, Bool.toNat_le])]
  simp [hasFields, ← flag_iff, toNat_eq_zero_iff]

theorem lit_cinitRel : BitVec.ofNat 32 (1 * 2 ^ 4) = l ↔
    bits l 0 4 = 0 ∧ bits l 4 1 = 1 ∧ bits l 5 27 = 0 := by
  rw [ofNat_eq_iff [(4, 0), (1, 1), (27, 0)] (by simp only [packed]; omega) (by simp [fits])]
  simp [hasFields, toNat_eq_zero_iff, toNat_eq_one_iff]

theorem lit_ktravResume : BitVec.ofNat 32 (1 * 2 ^ 1 + b.toNat) = l ↔
    decide (bits l 0 1 = 1) = b ∧ bits l 1 1 = 1 ∧ bits l 2 30 = 0 := by
  rw [ofNat_eq_iff [(1, b.toNat), (1, 1), (30, 0)] (by simp only [packed]; omega) (by simp [fits, Bool.toNat_le])]
  simp [hasFields, ← flag_iff, toNat_eq_zero_iff, toNat_eq_one_iff]

theorem lit_phreg {p : PhMode} : BitVec.ofNat 32 (p.code) = l ↔
    PhMode.ofCode (bits l 0 2).toNat = some p ∧ bits l 2 1 = 0 ∧ bits l 3 29 = 0 := by
  have hp : p.code < 4 := phMode_coded.lt p
  rw [ofNat_eq_iff [(2, p.code), (1, 0), (29, 0)] (by simp only [packed]; omega) (by simp [fits, hp])]
  simp [hasFields, toNat_eq_zero_iff, phMode_coded.field_iff]

theorem lit_phregNew {p : PhMode} : BitVec.ofNat 32 (1 * 2 ^ 2 + p.code) = l ↔
    PhMode.ofCode (bits l 0 2).toNat = some p ∧ bits l 2 1 = 1 ∧ bits l 3 29 = 0 := by
  have hp : p.code < 4 := phMode_coded.lt p
  rw [ofNat_eq_iff [(2, p.code), (1, 1), (29, 0)] (by simp only [packed]; omega) (by simp [fits, hp])]
  simp [hasFields, toNat_eq_zero_iff, toNat_eq_one_iff, phMode_coded.field_iff]

theorem lit_cpy {v : BitVec 12} {k : BitVec 4} {s t : Space} {u : NodeUse} : BitVec.ofNat 32 (v.toNat * 2 ^ 20 + s.code * 2 ^ 18 + t.code * 2 ^ 16 + b.toNat * 2 ^ 15 + k.toNat * 2 ^ 11 + c.toNat * 2 ^ 10 + u.code * 2 ^ 8 + d.toNat * 2 ^ 7) = l ↔
    bits l 0 7 = 0 ∧ decide (bits l 7 1 = 1) = d ∧ NodeUse.ofCode (bits l 8 2).toNat = some u ∧ decide (bits l 10 1 = 1) = c ∧ bits l 11 4 = k ∧ decide (bits l 15 1 = 1) = b ∧ Space.ofCode (bits l 16 2).toNat = some t ∧ Space.ofCode (bits l 18 2).toNat = some s ∧ bits l 20 12 = v := by
  have hu : u.code < 4 := nodeUse_coded.lt u
  have ht : t.code < 4 := space_coded.lt t
  have hs : s.code < 4 := space_coded.lt s
  rw [ofNat_eq_iff [(7, 0), (1, d.toNat), (2, u.code), (1, c.toNat), (4, k.toNat), (1, b.toNat), (2, t.code), (2, s.code), (12, v.toNat)] (by simp only [packed]; omega) (by simp [fits, hu, ht, hs, Bool.toNat_le]; omega)]
  simp [hasFields, ← flag_iff, BitVec.toNat_inj, toNat_eq_zero_iff, nodeUse_coded.field_iff, space_coded.field_iff]

theorem lit_cpym {v : BitVec 12} {k : BitVec 4} {s : Space} : BitVec.ofNat 32 (v.toNat * 2 ^ 20 + s.code * 2 ^ 18 + 1 * 2 ^ 16 + b.toNat * 2 ^ 15 + k.toNat * 2 ^ 11 + c.toNat * 2 ^ 10 + d.toNat * 2 ^ 7) = l ↔
    bits l 0 7 = 0 ∧ decide (bits l 7 1 = 1) = d ∧ bits l 8 2 = 0 ∧ decide (bits l 10 1 = 1) = c ∧ bits l 11 4 = k ∧ decide (bits l 15 1 = 1) = b ∧ bits l 16 2 = 1 ∧ Space.ofCode (bits l 18 2).toNat = some s ∧ bits l 20 12 = v := by
  have hs : s.code < 4 := space_coded.lt s
  rw [ofNat_eq_iff [(7, 0), (1, d.toNat), (2, 0), (1, c.toNat), (4, k.toNat), (1, b.toNat), (2, 1), (2, s.code), (12, v.toNat)] (by simp only [packed]; omega) (by simp [fits, hs, Bool.toNat_le]; omega)]
  simp [hasFields, ← flag_iff, BitVec.toNat_inj, toNat_eq_zero_iff, toNat_eq_one_iff, space_coded.field_iff]

theorem lit_message {k : BitVec 6} {p : BitVec 3} {v : BitVec 8} : BitVec.ofNat 32 (v.toNat * 2 ^ 12 + p.toNat * 2 ^ 8 + b.toNat * 2 ^ 7 + k.toNat) = l ↔
    bits l 0 6 = k ∧ bits l 6 1 = 0 ∧ decide (bits l 7 1 = 1) = b ∧ bits l 8 3 = p ∧ bits l 11 1 = 0 ∧ bits l 12 8 = v ∧ bits l 20 12 = 0 := by
  rw [ofNat_eq_iff [(6, k.toNat), (1, 0), (1, b.toNat), (3, p.toNat), (1, 0), (8, v.toNat), (12, 0)] (by simp only [packed]; omega) (by simp [fits, Bool.toNat_le]; omega)]
  simp [hasFields, ← flag_iff, BitVec.toNat_inj, toNat_eq_zero_iff]

theorem lit_setcont {v : BitVec 19} {k j : BitVec 6} : BitVec.ofNat 32 (v.toNat * 2 ^ 13 + b.toNat * 2 ^ 12 + k.toNat * 2 ^ 6 + j.toNat) = l ↔
    bits l 0 6 = j ∧ bits l 6 6 = k ∧ decide (bits l 12 1 = 1) = b ∧ bits l 13 19 = v := by
  rw [ofNat_eq_iff [(6, j.toNat), (6, k.toNat), (1, b.toNat), (19, v.toNat)] (by simp only [packed]; omega) (by simp [fits, Bool.toNat_le]; omega)]
  simp [hasFields, ← flag_iff, BitVec.toNat_inj]

theorem lit_flag : BitVec.ofNat 32 (b.toNat) = l ↔
    decide (bits l 0 1 = 1) = b ∧ bits l 1 31 = 0 := by
  rw [ofNat_eq_iff [(1, b.toNat), (31, 0)] (by simp only [packed]; omega) (by simp [fits, Bool.toNat_le])]
  simp [hasFields, ← flag_iff, toNat_eq_zero_iff]

theorem lit_region {v : BitVec 6} {r : RegionClass} : BitVec.ofNat 32 (v.toNat * 2 ^ 4 + r.code * 2 ^ 1 + b.toNat) = l ↔
    decide (bits l 0 1 = 1) = b ∧ RegionClass.ofCode (bits l 1 3).toNat = some r ∧ bits l 4 6 = v ∧ bits l 10 22 = 0 := by
  have hr : r.code < 8 := regionClass_coded.lt r
  rw [ofNat_eq_iff [(1, b.toNat), (3, r.code), (6, v.toNat), (22, 0)] (by simp only [packed]; omega) (by simp [fits, hr, Bool.toNat_le]; omega)]
  simp [hasFields, ← flag_iff, BitVec.toNat_inj, toNat_eq_zero_iff, regionClass_coded.field_iff]

theorem lit_none : BitVec.ofNat 32 0 = l ↔ bits l 0 32 = 0 := by
  refine (ofNat_eq_iff [(32, 0)] rfl (by simp [fits])).trans ?_
  simp [hasFields, toNat_eq_zero_iff]

end Literals

/-! ### What the decoder accepts encodes to the words read -/

theorem accept_ok_iff {z : Bool} {i j : Instr} : accept z i = .ok j ↔ z = true ∧ i.wf = true ∧ i = j := by
  unfold accept
  split <;> simp_all

theorem accept_wf {z : Bool} {i : Instr} (hw : i.wf = true) (hz : z = true) : accept z i = .ok i := accept_ok_iff.2 ⟨hz, hw, rfl⟩

/-- Whatever is read from a word and a literal is a well-formed instruction whose words these are. -/
def Sound (w l : Word) (r : Except DecodeErr Instr) : Prop :=
  ∀ i, r = .ok i → i.wf = true ∧ encode i = some (if opLiteral (fOp w) then [w, l] else [w])

theorem Sound.error {w l : Word} {e : DecodeErr} : Sound w l (.error e) := fun _ h => nomatch h

theorem Sound.pick {α : Type} {w l : Word} {o : Option α} {f : α → Except DecodeErr Instr} (h : ∀ x, o = some x → Sound w l (f x)) : Sound w l (pick o f) := by
  cases o with
  | none => exact Sound.error
  | some x => exact h x rfl

theorem Sound.one {w l v : Word} {z : Bool} {i : Instr} {op : Nat} (hop : fOp w = op) (ho : opLiteral op = false) (he : encode i = some [v])
    (h : z = true → v = w) : Sound w l (accept z i) := by
  intro j hj
  obtain ⟨hz, hw, rfl⟩ := accept_ok_iff.1 hj
  rw [hop, ho, he, h hz]
  exact ⟨hw, rfl⟩

theorem Sound.two {w l v u : Word} {z : Bool} {i : Instr} {op : Nat} (hop : fOp w = op) (ho : opLiteral op = true) (he : encode i = some [v, u])
    (h : z = true → v = w ∧ u = l) : Sound w l (accept z i) := by
  intro j hj
  obtain ⟨hz, hw, rfl⟩ := accept_ok_iff.1 hj
  rw [hop, ho, he, (h hz).1, (h hz).2]
  exact ⟨hw, rfl⟩

/-- Every arm of the decoder accepts only where its instruction encodes to the words read: the fields that it reads are those that the encoder writes, and the
fields that it does not read are what the encoder writes there. -/
theorem decodeInt_sound (w l : Word) : Sound w l (decodeInt w l) := by
  unfold decodeInt
  repeat' split
  all_goals try exact Sound.error
  all_goals repeat with_reducible refine Sound.pick fun _ hc => ?_
  any_goals refine Sound.one ‹fOp w = _› rfl rfl fun hz => ?_
  any_goals refine Sound.two ‹fOp w = _› rfl rfl fun hz => ?_
  all_goals simp (disch := omega) only [wordT_is, wordI_is, lit_low, Bool.and_eq_true, decide_eq_true_eq, cat3_iff iCond_coded, cat3_iff plopOp_coded,
    cat3_iff voteMode_coded, code_iff redOp_coded, gscan_iff, setWidth_iff, ptGuard_iff] at hz ⊢
  all_goals simp_all only [and_self, Nat.reduceSub, Nat.reducePow]

theorem decodeFp_sound (w l : Word) : Sound w l (decodeFp w l) := by
  unfold decodeFp
  repeat' split
  all_goals try exact Sound.error
  all_goals repeat with_reducible refine Sound.pick fun _ hc => ?_
  any_goals refine Sound.one ‹fOp w = _› rfl rfl fun hz => ?_
  any_goals refine Sound.two ‹fOp w = _› rfl rfl fun hz => ?_
  all_goals simp (disch := omega) only [wordT_is, lit_rnd, lit_third, lit_cvt, lit_narrow8, lit_widen8, Bool.and_eq_true, decide_eq_true_eq, cat3_iff fCond_coded,
    code_iff fClassSel_coded, setWidth_iff] at hz ⊢
  all_goals simp_all only [and_self, Nat.reducePow]

theorem decodeMem_sound (w l : Word) : Sound w l (decodeMem w l) := by
  unfold decodeMem
  repeat' split
  all_goals try exact Sound.error
  all_goals repeat with_reducible refine Sound.pick fun _ hc => ?_
  any_goals refine Sound.one ‹fOp w = _› rfl rfl fun hz => ?_
  any_goals refine Sound.two ‹fOp w = _› rfl rfl fun hz => ?_
  all_goals simp (disch := omega) only [wordT_is, lit_access, lit_atomic, lit_fence, lit_bind, lit_unbind, lit_scope, lit_gbegin, lit_waitw, Bool.and_eq_true, decide_eq_true_eq,
    setWidth_iff] at hz ⊢
  all_goals simp_all only [and_self, Nat.reducePow]

theorem decodeMx_sound (w l : Word) : Sound w l (decodeMx w l) := by
  unfold decodeMx
  repeat' split
  all_goals try exact Sound.error
  all_goals repeat with_reducible refine Sound.pick fun _ hc => ?_
  any_goals refine Sound.one ‹fOp w = _› rfl rfl fun hz => ?_
  any_goals refine Sound.two ‹fOp w = _› rfl rfl fun hz => ?_
  all_goals simp (disch := omega) only [wordT_is, lit_low, lit_space, lit_mconv, lit_tdrain, lit_cmrg, lit_flag, lit_cinitRel, lit_ktravResume, Bool.and_eq_true, decide_eq_true_eq,
    setWidth_iff, ptGuard_iff, bits_zero_split (n := 1) (m := 27), bits_zero_split (n := 1) (m := 30)] at hz ⊢
  all_goals simp_all only [and_self, Nat.reducePow]

theorem decodeSy_sound (w l : Word) : Sound w l (decodeSy w l) := by
  unfold decodeSy
  repeat' split
  all_goals try exact Sound.error
  all_goals repeat with_reducible refine Sound.pick fun _ hc => ?_
  any_goals refine Sound.one ‹fOp w = _› rfl rfl fun hz => ?_
  any_goals refine Sound.two ‹fOp w = _› rfl rfl fun hz => ?_
  all_goals simp (disch := omega) only [wordT_is, wordI_is, wordB_is, lit_low, lit_none, lit_phreg, lit_phregNew, lit_cpy, lit_cpym, lit_message, lit_setcont, lit_flag, lit_region,
    Bool.and_eq_true, decide_eq_true_eq, setWidth_iff, publishDecl_iff, publish_iff, publishDrop_iff, ptGuard_iff, code_iff sReg_coded] at hz ⊢
  all_goals simp_all only [and_self, Nat.reducePow]

/-! ### What the encoder writes is read back -/

/-- The words are those of one instruction, a literal where its opcode takes one, and the decoder reads them so. -/
def Reads (i : Instr) : List Word → Prop
  | [w] => opLiteral (fOp w) = false ∧ decodeWord w 0 = .ok i
  | [w, l] => opLiteral (fOp w) = true ∧ decodeWord w l = .ok i
  | _ => False

theorem Reads.ofT {i : Instr} {op : Nat} {d a b : BitVec 6} {g : Guard} (ho : op < 256) (hl : opLiteral op = false)
    (h : ∀ w, fOp w = op → fD w = d ∧ fA w = a ∧ fB w = b ∧ fG w = g → decodeWord w 0 = .ok i) : Reads i [wordT op d a b g] := by
  obtain ⟨hop, hf⟩ := (wordT_eq_iff ho).1 (rfl : wordT op d a b g = _)
  exact ⟨by rw [hop, hl], h _ hop hf⟩

theorem Reads.ofI {i : Instr} {op : Nat} {d a : BitVec 6} {imm : BitVec 10} {s : BitVec 2} (ho : op < 256) (hl : opLiteral op = false)
    (h : ∀ w, fOp w = op → fD w = d ∧ fA w = a ∧ bits w 2 10 = imm ∧ bits w 0 2 = s → decodeWord w 0 = .ok i) : Reads i [wordI op d a imm s] := by
  obtain ⟨hop, hf⟩ := (wordI_eq_iff ho).1 (rfl : wordI op d a imm s = _)
  exact ⟨by rw [hop, hl], h _ hop hf⟩

theorem Reads.ofB {i : Instr} {op : Nat} {off : BitVec 18} {g : Guard} (ho : op < 256) (hl : opLiteral op = false)
    (h : ∀ w, fOp w = op → bits w 2 18 = off ∧ fGB w = g → decodeWord w 0 = .ok i) : Reads i [wordB op off g] := by
  obtain ⟨hop, hf⟩ := (wordB_eq_iff ho).1 (rfl : wordB op off g = _)
  exact ⟨by rw [hop, hl], h _ hop hf⟩

theorem Reads.ofLiteral {i : Instr} {op : Nat} {d a b : BitVec 6} {g : Guard} {x : Word} (ho : op < 256) (hl : opLiteral op = true)
    (h : ∀ w l, fOp w = op → fD w = d ∧ fA w = a ∧ fB w = b ∧ fG w = g ∧ x = l → decodeWord w l = .ok i) : Reads i [wordT op d a b g, x] := by
  obtain ⟨hop, hd, ha, hb, hg⟩ := (wordT_eq_iff ho).1 (rfl : wordT op d a b g = _)
  exact ⟨by rw [hop, hl], h _ _ hop ⟨hd, ha, hb, hg, rfl⟩⟩

theorem decodeWord_int {w l : Word} (h : fOp w < 0x40) : decodeWord w l = decodeInt w l := if_pos h

theorem decodeWord_fp {w l : Word} (h : 0x40 ≤ fOp w ∧ fOp w < 0x80) : decodeWord w l = decodeFp w l :=
  (if_neg (by omega)).trans (if_pos h.2)

theorem decodeWord_mem {w l : Word} (h : 0x80 ≤ fOp w ∧ fOp w < 0xB0) : decodeWord w l = decodeMem w l :=
  (if_neg (by omega)).trans ((if_neg (by omega)).trans (if_pos h.2))

theorem decodeWord_mx {w l : Word} (h : 0xB0 ≤ fOp w ∧ fOp w < 0xD0) : decodeWord w l = decodeMx w l :=
  (if_neg (by omega)).trans ((if_neg (by omega)).trans ((if_neg (by omega)).trans (if_pos h.2)))

theorem decodeWord_sy {w l : Word} (h : 0xD0 ≤ fOp w) : decodeWord w l = decodeSy w l :=
  (if_neg (by omega)).trans ((if_neg (by omega)).trans ((if_neg (by omega)).trans (if_neg (by omega))))

theorem encode_reads {i : Instr} {ws : List Word} (hw : i.wf = true) (he : encode i = some ws) : Reads i ws := by
  cases i <;> cases he
  any_goals with_reducible refine Reads.ofT (by decide) (by decide) fun w hop hf => ?_
  any_goals with_reducible refine Reads.ofI (by decide) (by decide) fun w hop hf => ?_
  any_goals with_reducible refine Reads.ofB (by decide) (by decide) fun w hop hf => ?_
  any_goals with_reducible refine Reads.ofLiteral (by decide) (by decide) fun w l hop hf => ?_
  all_goals simp (disch := omega) only [decodeWord_int, decodeWord_fp, decodeWord_mem, decodeWord_mx, decodeWord_sy]
  any_goals simp (disch := decide) only [cat3_iff iCond_coded, cat3_iff fCond_coded, cat3_iff plopOp_coded, cat3_iff voteMode_coded, code_iff redOp_coded, code_iff fClassSel_coded,
    code_iff sReg_coded, gscan_iff, setWidth_iff, publishDecl_iff, publish_iff, publishDrop_iff, ptGuard_iff,
    lit_low, lit_none, lit_rnd, lit_third, lit_cvt, lit_narrow8, lit_widen8, lit_access, lit_atomic, lit_fence, lit_bind, lit_unbind, lit_scope, lit_gbegin, lit_waitw, lit_space, lit_mconv,
    lit_tdrain, lit_cmrg, lit_flag, lit_cinitRel, lit_ktravResume, lit_phreg, lit_phregNew, lit_cpy, lit_cpym, lit_message, lit_setcont, lit_region, Nat.reduceSub] at hf
  any_goals simp only [Nat.reducePow] at hf
  case' cinit => rw [bits_zero_split (n := 1) (m := 27)] at hf
  case' ktrav => rw [bits_zero_split (n := 1) (m := 30)] at hf
  case' publishDecl => replace hf := And.intro (show (fD w).toNat / 8 = 0 by omega) hf
  case' publish => replace hf := And.intro (show (fD w).toNat / 8 = 1 by omega) hf
  case' publishDrop => replace hf := And.intro (show (fD w).toNat / 8 = 2 by omega) hf
  any_goals rw [decodeInt, hop]
  any_goals rw [decodeFp, hop]
  any_goals rw [decodeMem, hop]
  any_goals rw [decodeMx, hop]
  any_goals rw [decodeSy, hop]
  any_goals change accept _ _ = _
  any_goals change pick _ _ = _
  all_goals simp only [hf, pick]
  all_goals exact accept_wf hw rfl

/-! ### Bytes -/

theorem leBytes_word (b0 b1 b2 b3 : Byte) : leBytes 4 (b3 ++ b2 ++ b1 ++ b0 : Word).toNat = [b0, b1, b2, b3] := by
  have h0 := b0.isLt
  have h1 := b1.isLt
  have h2 := b2.isLt
  have h3 := b3.isLt
  simp only [leBytes, BitVec.toNat_append, List.cons.injEq, and_true, ← BitVec.toNat_inj, BitVec.toNat_ofNat]
  rw [← Nat.shiftLeft_add_eq_or_of_lt h2, ← Nat.shiftLeft_add_eq_or_of_lt h1, ← Nat.shiftLeft_add_eq_or_of_lt h0]
  simp only [Nat.shiftLeft_eq]
  omega

theorem takeWord_some {bs rest : List Byte} {w : Word} (h : takeWord bs = some (w, rest)) : bs = leBytes 4 w.toNat ++ rest := by
  unfold takeWord at h
  split at h
  · obtain ⟨rfl, rfl⟩ := Prod.mk.inj (Option.some.inj h)
    rw [leBytes_word]
    rfl
  · cases h

theorem decodeWord_sound (w l : Word) : Sound w l (decodeWord w l) := by
  unfold decodeWord
  split
  · exact decodeInt_sound w l
  · split
    · exact decodeFp_sound w l
    · split
      · exact decodeMem_sound w l
      · split
        · exact decodeMx_sound w l
        · exact decodeSy_sound w l

/-- The bytes of words, as the machine stores them. -/
def wordBytes (ws : List Word) : List Byte := ws.flatMap fun w => leBytes 4 w.toNat

theorem decodeBytes_of_reads {i : Instr} {rest : List Byte} : ∀ {ws : List Word}, Reads i ws → decodeBytes (wordBytes ws ++ rest) = .ok (i, rest)
  | [w], ⟨hl, hd⟩ => by
    simp only [wordBytes, List.flatMap_cons, List.flatMap_nil, List.append_nil, decodeBytes, takeWord_le, hl, hd]
    rfl
  | [w, l], ⟨hl, hd⟩ => by
    simp only [wordBytes, List.flatMap_cons, List.flatMap_nil, List.append_nil, List.append_assoc, decodeBytes, takeWord_le, hl, hd, if_true]
    rfl

theorem map_ok_iff {r : Except DecodeErr Instr} {i : Instr} {bs rest : List Byte} : r.map (fun j => (j, bs)) = .ok (i, rest) ↔ r = .ok i ∧ bs = rest := by
  cases r <;> simp [Except.map]

theorem decodeBytes_sound {bs rest : List Byte} {i : Instr} (h : decodeBytes bs = .ok (i, rest)) :
    i.wf = true ∧ ∃ ws, encode i = some ws ∧ bs = wordBytes ws ++ rest := by
  unfold decodeBytes at h
  split at h
  · cases h
  · rename_i w tail htake
    rw [takeWord_some htake]
    split at h
    · rename_i hl
      split at h
      · cases h
      · rename_i l tail' htake'
        obtain ⟨hd, rfl⟩ := map_ok_iff.1 h
        obtain ⟨hw, he⟩ := decodeWord_sound w l i hd
        rw [if_pos hl] at he
        exact ⟨hw, _, he, by simp [wordBytes, takeWord_some htake']⟩
    · rename_i hl
      obtain ⟨hd, rfl⟩ := map_ok_iff.1 h
      obtain ⟨hw, he⟩ := decodeWord_sound w 0 i hd
      rw [if_neg hl] at he
      exact ⟨hw, _, he, by simp [wordBytes]⟩

/-- Settles O56: `encode_reads` with `decodeBytes_of_reads` one way, `decodeWord_sound` with `decodeBytes_sound` the other. -/
theorem encodeDecode : Obligations.EncodeDecode :=
  ⟨fun _ _ _ hw he => decodeBytes_of_reads (encode_reads hw he), fun _ _ _ h => decodeBytes_sound h⟩

/-- Settles O55: the words are closed numbers, and the decoder computes. -/
theorem decodeWords : Obligations.DecodeWords := by
  refine ⟨?_, ?_, ?_, ?_, ?_, ?_⟩ <;> decide

end Sys2Proof.Proofs
end

section
/-! The family '05_clauses_encodings_opcode_map.md', second part: the step that runs a decoded instruction, control transfers, what every issue keeps and checks. -/

namespace Sys2Proof.Proofs

open Sys2Proof Sys2Proof.Machine Sys2Proof.Laws

/-! ## The step runs what the decoder reads -/

/-- The instruction at the head of a run is the one the decoder reads off the run's words as the machine stores them. -/
theorem nextInstr_of_decodeBytes {r : Run} {i : Instr} {tail : List Byte} (h : decodeBytes (wordBytes r.rest) = .ok (i, tail)) : nextInstr r = .ok i := by
  unfold nextInstr
  cases hrest : r.rest with
  | nil => rw [hrest] at h; cases h
  | cons v vs =>
    rw [hrest] at h
    simp only [wordBytes, List.flatMap_cons, decodeBytes, takeWord_le] at h
    simp only [List.headD_cons, List.getD_cons_succ]
    cases hlit : opLiteral (fOp v) with
    | false =>
      rw [hlit, if_neg Bool.false_ne_true] at h
      exact (map_ok_iff.1 h).1
    | true =>
      rw [hlit, if_pos rfl] at h
      cases vs with
      | nil => cases h
      | cons l ls =>
        rw [List.flatMap_cons, takeWord_le] at h
        exact (map_ok_iff.1 h).1

theorem issueWord_ok {w g : Nat} {i : Instr} {s : State} (hc : canIssue s.m w g = true) (hi : nextInstr ((s.m.grp w g).run.getD default) = .ok i) :
    issueWord w g s = exec i (s.issuing w g) := by
  unfold issueWord
  rw [if_pos hc, hi]

theorem issueWord_error {w g : Nat} {e : DecodeErr} {s : State} (hc : canIssue s.m w g = true) (hr : s.hw.running = true)
    (hi : nextInstr ((s.m.grp w g).run.getD default) = .error e) : issueWord w g s = .next { s.issuing w g with m := issueReserved w g (s.issuing w g).m } := by
  unfold issueWord
  rw [if_pos hc, hi]
  exact if_pos hr

theorem step_scheduled {c : Choice} {cs : List Choice} {s : State} (h : s.schedule = c :: cs) : step s = takeChoice c { s.aged with schedule := cs } := by
  unfold step
  rw [h]

theorem step_default {w g : Nat} {s : State} (h : s.schedule = []) (ht : nextTurn s.turn s.aged.m = .issue w g) :
    step s = issueWord w g { s.aged with turn := s.turn + 1 } := by
  unfold step
  rw [h]
  change defaultStep s.aged = _
  unfold defaultStep
  change (match nextTurn s.turn s.aged.m with | .issue w g => _ | .act m => _) = _
  rw [ht]
  rfl

/-- Settles O57: the run's words decode alike as words and as stored bytes, and a step, scheduled or by default, issues the word of the group named. -/
theorem stepRunsDecoded : Obligations.StepRunsDecoded := by
  intro w g i cs s a r bytes on
  refine ⟨aged_none, ?_, ?_, ?_⟩
  · intro hc tail hd
    have hi : nextInstr r = .ok i := nextInstr_of_decodeBytes hd
    exact ⟨fun hs => (step_scheduled hs).trans (issueWord_ok (s := { s.aged with schedule := cs }) hc hi),
      fun hs ht => (step_default hs ht).trans (issueWord_ok (s := { s.aged with turn := s.turn + 1 }) hc hi)⟩
  · rintro hc hr hs ⟨e, he⟩
    exact (step_scheduled hs).trans (issueWord_error (s := { s.aged with schedule := cs }) hc hr he)
  · intro hs hev
    exact (step_scheduled hs).trans (if_pos hev)

/-! ## Control transfers -/

/-- Settles O24: each of the four is a transfer whose lanes all have headers at their targets; CALL writes its link first. -/
theorem controlTransfers : Obligations.ControlTransfers := by
  intro off a gd goes
  exact ⟨ends _ (fun _ => rfl) fun w g s h => transfer_done h, ends _ (fun _ => rfl) fun w g s h => transfer_done h,
    ends _ (fun _ => rfl) fun w g s h => transfer_done h, ends _ (fun _ => rfl) fun w g s h => transfer_done h⟩

/-- A lane that no move names is among the lanes that did not move. -/
theorem moved_unnamed {r : Run} {l : Nat} (h : ∀ x ∈ r.moves, x.2.getLsbD l = false) : r.moved.getLsbD l = false :=
  moved_false r.moves l h 0 (by simp)

theorem endRun_run (w g : Nat) (m : Mach) (r : Run) (hr : (m.grp w g).run = some r) : ((endRun w g m).grp w g).run = none := by
  unfold endRun
  rw [hr]
  simp only [grp_dropSlot, grp_modG_same]

/-- Each frontier entry of the group stands on in the second machine, with at least its lanes. -/
def EntriesKept (w g : Nat) (m n : Mach) : Prop :=
  ∀ e ∈ (m.grp w g).frontier, ∃ f ∈ (n.grp w g).frontier, f.addr = e.addr ∧ ∀ l, e.lanes.getLsbD l = true → f.lanes.getLsbD l = true

theorem EntriesKept.trans {w g : Nat} {a b c : Mach} (h : EntriesKept w g a b) (k : EntriesKept w g b c) : EntriesKept w g a c := by
  intro e he
  obtain ⟨f, hf, hfa, hfl⟩ := h e he
  obtain ⟨f', hf', hfa', hfl'⟩ := k f hf
  exact ⟨f', hf', hfa'.trans hfa, fun l hl => hfl' l (hfl l hl)⟩

theorem standAt_entriesKept (w g : Nat) (a : DWord) (k : Mask) (m : Mach) : EntriesKept w g m (standAt w g a k m) := by
  intro e he
  obtain ⟨p, hp⟩ := standAt_frontier w g a k m
  rw [hp]
  exact joinEntry_keeps (m.grp w g).frontier a p k e he

theorem standFold_entriesKept (w g : Nat) (live : Mask) (ms : List (DWord × Mask)) (m : Mach) :
    EntriesKept w g m (ms.foldl (fun acc x => standAt w g x.1 (x.2 &&& live) acc) m) := by
  induction ms generalizing m with
  | nil => exact fun e he => ⟨e, he, rfl, fun _ h => h⟩
  | cons x xs ih => exact (standAt_entriesKept w g _ _ m).trans (ih _)

theorem endRun_frontier (w g : Nat) (m : Mach) (r : Run) (hr : (m.grp w g).run = some r) :
    ((endRun w g m).grp w g).frontier = ((r.moves.foldl (fun acc x => standAt w g x.1 (x.2 &&& (m.grp w g).live) acc)
      (standAt w g r.pc (r.lanes &&& (m.grp w g).live &&& ~~~r.moved) m)).grp w g).frontier := by
  unfold endRun
  rw [hr]
  simp only [grp_dropSlot, grp_modG_same]

/-- Settles O25: the frontier at the end of a run is built by joining lanes to entries, which loses no lane that stands in one. -/
theorem movedLanesStand : Obligations.MovedLanesStand := by
  intro w g m r hr n
  refine ⟨endRun_run w g m r hr, ?_, ?_, ?_⟩
  · intro t k l hm hk hl
    exact endRun_hasAt w g m r hr t l (standFold_has _ _ _ _ _ _ _ _ hm hk hl)
  · intro l ha hl hno
    refine endRun_hasAt w g m r hr r.pc l (standFold_keeps _ _ _ _ _ _ _ (stand_has _ _ _ _ _ _ ?_))
    rw [BitVec.getLsbD_and, BitVec.getLsbD_and, BitVec.getLsbD_not, ha, hl, moved_unnamed hno, decide_eq_true (BitVec.lt_of_getLsbD hl)]
    rfl
  · intro e he
    rw [endRun_frontier w g m r hr]
    exact (standAt_entriesKept w g _ _ m).trans (standFold_entriesKept w g _ _ _) e he

/-! ## What every issue keeps -/

/-- A word that is not the last of its run: the run goes on at the next word after the stall, and nothing else of the group changes. -/
theorem finishWord_next {w g n st : Nat} {m : Mach} {r : Run} (hr : (m.grp w g).run = some r) (hn : r.rest.drop n ≠ []) :
    (finishWord w g n st m).grp w g = { m.grp w g with
      run := some { r with pc := r.pc + BitVec.ofNat 64 (4 * n), rest := r.rest.drop n, started := r.started + n, noMatch := false, goes := false }
      ready := m.cycle + st + 1 } := by
  obtain ⟨v, vs, hv⟩ := List.exists_cons_of_ne_nil hn
  unfold finishWord
  rw [hr]
  simp only [hv, grp_modG_same]

/-- Settles O52: `begun_kept` up to the instruction's own part; after it the followed tags, the memory charge and the end of the word. -/
theorem issueFrame : Obligations.IssueFrame := by
  intro i w g k m s b t u v n
  have hv := issued_vals i w g k m s
  refine ⟨begun_kept i w g s, begun_reads i w g s, begun_nextCmd i w g s, begun_regions i w g s, settle_outs w g s.m,
    (followTags_kept i w g _ _ m).trans (finishIssue_kept i (mkIss i w g (settle w g s.m)) k _), rfl, rfl, rfl, issued_nextCmd i w g k m s,
    vals_regs hv, vals_preds hv, vals_flags hv, vals_pend hv, vals_outs hv, ?_⟩
  intro r hr hn
  have hu : u = _ := finishWord_next (st := (instrGuard i).s.toNat) (m := charge w g 0 k (followTags i w g (mkIss i w g (settle w g s.m)).eff (Says.reads w g s) m))
    (by rw [charge_grp]; exact hr) hn
  rw [charge_grp, charge_cycle] at hu
  rw [hu]
  exact ⟨rfl, rfl, rfl⟩

/-! ## The checks of issue -/

/-- An instruction of the opcode map means its own part, issued; the other constructors, the steps of the table, have no encoding. -/
theorem exec_execute (i : Instr) (h : instrIsEvent i = false) : ∃ own, ∀ s, exec i s = execute i own s := by
  cases i
  all_goals first | exact ⟨_, fun _ => rfl⟩ | exact nomatch h

theorem execute_issue {i : Instr} {own : Iss → Mach → Own} {w g : Nat} {s : State} (hr : s.hw.running = true) (hc : s.m.cur = some (w, g)) :
    execute i own s = .next { s with m := issue i own w g s.m } := by
  unfold execute
  rw [if_pos hr, hc]

/-- A check of issue that finds something traps in place of the instruction. -/
theorem issue_check {i : Instr} {own : Iss → Mach → Own} {w g : Nat} {m0 : Mach} {c : Cause} {info : DWord} (h : issueCheck i w g (settle w g m0) = some (c, info)) :
    issue i own w g m0 = trapAtIssue (mkIss i w g (settle w g m0)) c info (mkIss i w g (settle w g m0)).eff 0
      (charge w g (instrTempi i) 0 (countIssue (mkIss i w g (settle w g m0)) (settle w g m0))) := by
  unfold issue
  dsimp only
  rw [h]

/-- A full class holds an instruction whose checks find nothing. -/
theorem issue_full {i : Instr} {own : Iss → Mach → Own} {w g c : Nat} {m0 : Mach} (h : issueCheck i w g (settle w g m0) = none) (hc : instrWaitClass i = some c)
    (hf : classFull i ((settle w g m0).grp w g) = true) : issue i own w g m0 = resourceHold (atResource (m0.grp w g)) (.cls c) w g (settle w g m0) := by
  unfold issue
  dsimp only
  rw [h]
  dsimp only
  rw [hf, hc, if_pos rfl]
  rfl

theorem misalignedPair_iff {i : Instr} : misalignedPair i = true ↔ ∃ o ∈ instrOpnds i, o.n ≠ 0 ∧ o.r % o.al ≠ 0 := by
  simp only [misalignedPair, List.any_eq_true, decide_eq_true_eq]

/-- The instruction uses v32 to v63, among its operands or among the registers that it moves. -/
theorem usesExtended_iff {i : Instr} {y : Group} : (usesExtended i || (movedRegs i y).any fun r => decide (32 ≤ r)) = true ↔
    (∃ o ∈ instrOpnds i, o.n ≠ 0 ∧ 32 ≤ o.r + (o.n - 1)) ∨ ∃ r ∈ movedRegs i y, 32 ≤ r := by
  simp only [usesExtended, Bool.or_eq_true, List.any_eq_true, decide_eq_true_eq]

theorem issueCheck_misaligned {i : Instr} {w g : Nat} {n : Mach} (h : ∃ o ∈ instrOpnds i, o.n ≠ 0 ∧ o.r % o.al ≠ 0) :
    issueCheck i w g n = some (.misalignedPair, freeInfo n) := by
  unfold issueCheck
  rw [if_pos (misalignedPair_iff.2 h)]

theorem issueCheck_extended {i : Instr} {w g : Nat} {n : Mach} (h : ¬ ∃ o ∈ instrOpnds i, o.n ≠ 0 ∧ o.r % o.al ≠ 0)
    (he : (∃ o ∈ instrOpnds i, o.n ≠ 0 ∧ 32 ≤ o.r + (o.n - 1)) ∨ ∃ r ∈ movedRegs i (n.grp w g), 32 ≤ r) (hh : (n.grp w g).extHeld = false) :
    issueCheck i w g n = some (.extNotHeld, freeInfo n) := by
  unfold issueCheck
  rw [if_neg (mt misalignedPair_iff.1 h), usesExtended_iff.2 he, hh]
  rfl

/-- Operands aligned and the extended block held where it is used, the checks that are left are of the scoreboard. -/
theorem issueCheck_scoreboard {i : Instr} {w g : Nat} {n : Mach} (h : ¬ ∃ o ∈ instrOpnds i, o.n ≠ 0 ∧ o.r % o.al ≠ 0)
    (he : ((∃ o ∈ instrOpnds i, o.n ≠ 0 ∧ 32 ≤ o.r + (o.n - 1)) ∨ ∃ r ∈ movedRegs i (n.grp w g), 32 ≤ r) → (n.grp w g).extHeld = true)
    {early late : Option DWord} (hearly : (if (n.wg w).checking = true then stallProducer i (n.grp w g) else none) = early)
    (hlate : (if (n.wg w).checking = true then (waitProducer i (n.grp w g)) <|> (alwaysProducer i (n.grp w g)) else alwaysProducer i (n.grp w g)) = late) :
    issueCheck i w g n = ((early.map fun pc => (Cause.stallUndersized, pc)) <|> (late.map fun pc => (Cause.waitMissing, pc))) := by
  have hext : ((usesExtended i || (movedRegs i (n.grp w g)).any fun r => decide (32 ≤ r)) && !(n.grp w g).extHeld) = false := by
    by_cases hu : (usesExtended i || (movedRegs i (n.grp w g)).any fun r => decide (32 ≤ r)) = true
    · rw [he (usesExtended_iff.1 hu), Bool.not_true, Bool.and_false]
    · rw [Bool.eq_false_iff.2 hu, Bool.false_and]
  unfold issueCheck
  rw [if_neg (mt misalignedPair_iff.1 h), hext, hearly, hlate, if_neg Bool.false_ne_true]
  cases early <;> cases late <;> rfl

/-- Settles O53: the branches of `issueCheck` in their order, and the class count after them. -/
theorem issueChecks : Obligations.IssueChecks := by
  intro i w g s n y x traps off ext early late hev hrun hcur
  obtain ⟨own, hown⟩ := exec_execute i hev
  have hexec : exec i s = .next { s with m := issue i own w g s.m } := (hown s).trans (execute_issue hrun hcur)
  have trapped : ∀ c info, issueCheck i w g n = some (c, info) → traps c info := by
    intro c info h
    exact hexec.trans (by rw [issue_check h])
  refine ⟨fun ho => trapped _ _ (issueCheck_misaligned ho), fun ho he hh => trapped _ _ (issueCheck_extended ho he hh), ?_, ?_, ?_⟩
  · intro ho he pc hearly
    exact trapped _ _ (issueCheck_scoreboard ho he hearly rfl)
  · intro ho he hearly pc hlate
    exact trapped _ _ (issueCheck_scoreboard ho he hearly hlate)
  · intro ho he hearly hlate c hc hfull
    have hclass : classFull i y = true := by
      unfold classFull
      rw [hc]
      exact decide_eq_true hfull
    exact hexec.trans (by rw [issue_full (issueCheck_scoreboard ho he hearly hlate) hc hclass])

end Sys2Proof.Proofs
end

section
/-! The family '05_clauses_encodings_opcode_map.md', third part: returning from a trap. -/

namespace Sys2Proof.Proofs

open Sys2Proof Sys2Proof.Machine Sys2Proof.Laws

/-- The trap's frame as TRAPRET finds it, and the machine once its granules have been read. -/
def returnFrame (w g : Nat) (t : TrapMode) (m0 : Mach) : Except Cause Xlat × Mach := frameAt w t.frame .read (allLanded w g m0)

/-- The machine in which TRAPRET looks at %trappc: results have landed, the frame and the word at %trappc have been read. -/
def returnMach (w g : Nat) (t : TrapMode) (m0 : Mach) : Mach :=
  let l := allLanded w g m0
  let m := (returnFrame w g t m0).2
  retryCode (wgSite m w) (l.wg w).part (l.wg w).ctx (l.grp w g).trapPc.toNat m

/-- The lanes of the trap set that still live. -/
def returnLanes (w g : Nat) (t : TrapMode) (m0 : Mach) : Mask := t.lanes &&& ((allLanded w g m0).grp w g).live

/-- The group out of trap mode: its links restored from the frame at `pa`, its next issue at `due`. -/
def returnedGroup (w g due pa : Nat) (t : TrapMode) (m0 : Mach) (z : Group) : Group :=
  { leaveTrap t (restoreLinks ((allLanded w g m0).wg w).core pa (returnLanes w g t m0) (returnMach w g t m0) z) with gaveUp := (returnMach w g t m0).cycle, ready := due }

/-- The machine with the group out of trap mode, before its lanes go on. -/
def returnedMach (w g st pa : Nat) (t : TrapMode) (m0 : Mach) : Mach :=
  (dropSlot w g (returnMach w g t m0)).modG w g (returnedGroup w g (m0.cycle + st + 1) pa t m0)

/-- The header at %trappc, or why there is none. -/
def returnHeader (w g : Nat) (t : TrapMode) (m0 : Mach) : Except Cause Word :=
  let m := returnMach w g t m0
  headerAt m (wgSite m w) ((allLanded w g m0).wg w).part ((allLanded w g m0).wg w).ctx ((allLanded w g m0).grp w g).trapPc

/-- How the lanes go on from machine `m1`, in which the group is out of trap mode. -/
def returnOn (w g : Nat) (t : TrapMode) (m0 m1 : Mach) : Mach :=
  let y := (allLanded w g m0).grp w g
  let stands := standAt w g y.trapPc (returnLanes w g t m0) m1
  if y.trapPc = t.pc then
    match t.resume, t.run with
    | .stand, _ => stands
    | _, some q => m1.modG w g fun z => { z with run := some { q with lanes := q.lanes &&& y.live } }
    | _, none => stands
  else
    match returnHeader w g t m0 with
    | .ok _ => stands
    | .error c => doubleFault w g c y.trapPc y.trapInfo (returnMach w g t m0)

section
variable {w g st : Nat} {t : TrapMode} {r : Run} {fr : Xlat} {m0 : Mach}

theorem returnMach_data : sameData (allLanded w g m0) (returnMach w g t m0) := by
  obtain ⟨hw, hh, hv, hs⟩ := frameAt_data w t.frame .read (allLanded w g m0)
  obtain ⟨kw, kh, kv, ks⟩ := retryCode_data (wgSite (returnFrame w g t m0).2 w) ((allLanded w g m0).wg w).part ((allLanded w g m0).wg w).ctx
    ((allLanded w g m0).grp w g).trapPc.toNat (returnFrame w g t m0).2
  exact ⟨kw.trans hw, kh.trans hh, kv.trans hv, ks.trans hs⟩

/-! ### The branches of the return -/

variable (ht : ((allLanded w g m0).grp w g).trapMode = some t) (hr : ((allLanded w g m0).grp w g).run = some r)
include ht hr

theorem returnTrap_twice (h : returnLanes w g t m0 &&& ~~~r.lanes ≠ 0 ∨ ∃ e, (returnFrame w g t m0).1 = .error e) :
    returnTrap w g st m0 = doubleFault w g (causeOfCode ((allLanded w g m0).grp w g).trapCause) ((allLanded w g m0).grp w g).trapPc
      ((allLanded w g m0).grp w g).trapInfo (returnMach w g t m0) := by
  unfold returnTrap
  simp only [ht, hr]
  rcases h with h | ⟨e, h⟩
  · rw [show decide (t.lanes &&& ((allLanded w g m0).grp w g).live &&& ~~~r.lanes = 0) = false from decide_eq_false h]
    rfl
  · rw [show (frameAt w t.frame .read (allLanded w g m0)).1 = .error e from h]
    split
    · contradiction
    · rfl

/-- The one look into a return whose lanes are active and whose frame can be read. -/
theorem returnTrap_on (hl : returnLanes w g t m0 &&& ~~~r.lanes = 0) (hf : (returnFrame w g t m0).1 = .ok fr) :
    ∃ m1, (t.replay = none → m1 = returnedMach w g st fr.pa t m0) ∧ returnTrap w g st m0 = returnOn w g t m0 m1 := by
  unfold returnTrap
  simp only [ht, hr]
  rw [show decide (t.lanes &&& ((allLanded w g m0).grp w g).live &&& ~~~r.lanes = 0) = true from decide_eq_true hl,
    show (frameAt w t.frame .read (allLanded w g m0)).1 = .ok fr from hf]
  refine ⟨_, fun hrep => ?_, rfl⟩
  rw [hrep]
  rfl

end

/-! ### How the lanes go on -/

section
variable {w g : Nat} {t : TrapMode} {m0 m1 : Mach}

theorem returnOn_bad {c : Cause} (hne : ((allLanded w g m0).grp w g).trapPc ≠ t.pc) (hh : returnHeader w g t m0 = .error c) :
    returnOn w g t m0 m1 = doubleFault w g c ((allLanded w g m0).grp w g).trapPc ((allLanded w g m0).grp w g).trapInfo (returnMach w g t m0) := by
  unfold returnOn
  rw [if_neg hne, hh]

theorem returnOn_runs {q : Run} (hsame : ((allLanded w g m0).grp w g).trapPc = t.pc) (hres : t.resume ≠ .stand) (hq : t.run = some q) :
    returnOn w g t m0 m1 = m1.modG w g fun z => { z with run := some { q with lanes := q.lanes &&& ((allLanded w g m0).grp w g).live } } := by
  unfold returnOn
  rw [if_pos hsame, hq]
  split
  · exact absurd ‹_› hres
  · rename_i heq _
    cases heq
    rfl
  · contradiction

theorem returnOn_stands (h : ((allLanded w g m0).grp w g).trapPc = t.pc ∧ (t.resume = .stand ∨ t.run = none) ∨
      ((allLanded w g m0).grp w g).trapPc ≠ t.pc ∧ (returnHeader w g t m0).isOk = true) :
    returnOn w g t m0 m1 = standAt w g ((allLanded w g m0).grp w g).trapPc (returnLanes w g t m0) m1 := by
  unfold returnOn
  rcases h with ⟨hsame, hstay⟩ | ⟨hne, hok⟩
  · rw [if_pos hsame]
    split
    · rfl
    · rename_i _ hq hres
      rcases hstay with h | h
      · exact absurd h hres
      · rw [h] at hq; contradiction
    · rfl
  · rw [if_neg hne]
    split
    · rfl
    · rename_i heq
      rw [heq] at hok
      contradiction

end

/-! ### The group that has returned -/

/-- Lane `l`'s link in the trap's frame at `pa`. -/
def linkAt (core pa : Nat) (m : Mach) (l : Nat) : DWord := BitVec.ofNat 64 (leNat (readOwn m core (pa + 0x100 + 8 * l) 8))

theorem restoreLinks_eq (core pa : Nat) (ls : Mask) (m : Mach) (y : Group) :
    restoreLinks core pa ls m y = (lanesOf ls).foldl (fun a l => a.setRegs 30 2 l (linkAt core pa m l).toNat) y := by
  have hlink : ∀ l, (linkAt core pa m l).toNat = leNat (readOwn m core (pa + 0x100 + 8 * l) 8) := fun l => by
    rw [linkAt, BitVec.toNat_ofNat, Nat.mod_eq_of_lt (readOwn_lt _ _ _)]
  simp only [hlink, restoreLinks]

section
variable {core pa : Nat} {ls : Mask} {m : Mach} {y : Group}

/-- Restored links change registers only. -/
theorem restoreLinks_regs_only : restoreLinks core pa ls m y = { y with regs := (restoreLinks core pa ls m y).regs } := by
  rw [restoreLinks_eq]
  exact (foldl_setRegs_other (linkAt core pa m) (lanesOf ls) y).2.2.2

theorem restoreLinks_kept : let z := restoreLinks core pa ls m y
    z.trapCause = y.trapCause ∧ z.trapPc = y.trapPc ∧ z.trapInfo = y.trapInfo ∧ z.preds = y.preds ∧ z.fpflags = y.fpflags := by
  rw [restoreLinks_regs_only]
  exact ⟨rfl, rfl, rfl, rfl, rfl⟩

theorem restoreLinks_pair {l : Nat} (h : l ∈ lanesOf ls) : (restoreLinks core pa ls m y).pair 30 l = linkAt core pa m l := by
  have hreg := fun q => links_reg (linkAt core pa m) (lanesOf ls) (fun _ => lanesOf_lt) y q l (lanesOf_lt h)
  rw [restoreLinks_eq]
  unfold Group.pair
  rw [hreg, hreg, if_pos ⟨h, rfl⟩, if_neg (by simp), if_pos ⟨h, rfl⟩]
  exact pair_split _

theorem restoreLinks_other {q l : Nat} (hl : l < 32) (h30 : q ≠ 30) (h31 : q ≠ 31) : (restoreLinks core pa ls m y).reg q l = y.reg q l := by
  rw [restoreLinks_eq, links_reg (linkAt core pa m) (lanesOf ls) (fun _ => lanesOf_lt) y q l hl, if_neg fun h => h31 h.2, if_neg fun h => h30 h.2]

end

/-- WHAT THE RETURN MAKES OF A GROUP: group `z` is group `y` out of trap mode, links restored, wherever its lanes go on. -/
structure Returned (links : Nat → DWord) (ls : Mask) (due : Nat) (y z : Group) : Prop where
  mode : z.trapMode = none
  cause : z.trapCause = y.trapCause
  pc : z.trapPc = y.trapPc
  info : z.trapInfo = y.trapInfo
  preds : z.preds = y.preds
  fpflags : z.fpflags = y.fpflags
  ready : z.ready = due
  pair : ∀ l ∈ lanesOf ls, z.pair 30 l = links l
  reg : ∀ q l, l < 32 → q ≠ 30 → q ≠ 31 → z.reg q l = y.reg q l

theorem Returned.placed {links : Nat → DWord} {ls : Mask} {due : Nat} {y z : Group} (h : Returned links ls due y z) (f : List Entry) (q : Option Run) :
    Returned links ls due y { z with frontier := f, run := q } :=
  ⟨h.mode, h.cause, h.pc, h.info, h.preds, h.fpflags, h.ready, h.pair, h.reg⟩

theorem returnedGroup_returned (w g due pa : Nat) (t : TrapMode) (m0 : Mach) (y : Group) :
    Returned (linkAt ((allLanded w g m0).wg w).core pa (returnMach w g t m0)) (returnLanes w g t m0) due y (returnedGroup w g due pa t m0 y) := by
  obtain ⟨hcause, hpc, hinfo, hpreds, hflags⟩ :=
    restoreLinks_kept (core := ((allLanded w g m0).wg w).core) (pa := pa) (ls := returnLanes w g t m0) (m := returnMach w g t m0) (y := y)
  exact ⟨rfl, hcause, hpc, hinfo, hpreds, hflags, rfl, fun _ h => restoreLinks_pair h, fun _ _ hl h30 h31 => restoreLinks_other hl h30 h31⟩

theorem returnedMach_grp (w g st pa : Nat) (t : TrapMode) (m0 : Mach) :
    (returnedMach w g st pa t m0).grp w g = returnedGroup w g (m0.cycle + st + 1) pa t m0 ((allLanded w g m0).grp w g) := by
  have hgrp : (returnMach w g t m0).grp w g = (allLanded w g m0).grp w g := by
    unfold Mach.grp Mach.wg
    rw [returnMach_data.1]
  rw [returnedMach, grp_modG_same, grp_dropSlot, hgrp]

/-- Lanes made to stand change nothing else of a group that has returned, and stand at the address. -/
theorem standAt_returned {w g : Nat} {a : DWord} {k ls : Mask} {m : Mach} {links : Nat → DWord} {due : Nat} {y : Group} (h : Returned links ls due y (m.grp w g)) :
    Returned links ls due y ((standAt w g a k m).grp w g) := by
  rw [standAt_regs]
  exact h.placed _ (m.grp w g).run

/-- Settles O36: the branches of `returnTrap`, and what the return makes of the group, whichever way its lanes go on. -/
theorem trapReturn : Obligations.TrapReturn := by
  intro w g st t r m0 l x y place m head ls n z same twice ht hr
  obtain ⟨hwgs, hhbm, hvault, hscratch⟩ : sameData l m := returnMach_data (t := t)
  refine ⟨hwgs, hhbm, hvault, hscratch, returnTrap_twice ht hr, ?_⟩
  intro fr hls hfr
  obtain ⟨m1, hm1, hon⟩ := returnTrap_on (st := st) ht hr hls hfr
  refine ⟨fun e hs hh => hon.trans (returnOn_bad (of_decide_eq_false hs) hh), ?_⟩
  intro hgo hrep
  obtain rfl := hm1 hrep
  have hret : Returned (linkAt x.core fr.pa m) ls (m0.cycle + st + 1) y ((returnedMach w g st fr.pa t m0).grp w g) := by
    rw [returnedMach_grp]
    exact returnedGroup_returned ..
  by_cases hrun : same = true ∧ t.resume ≠ .stand ∧ t.run ≠ none
  · obtain ⟨hs, hres, hne⟩ := hrun
    obtain ⟨q, hq⟩ := Option.ne_none_iff_exists'.1 hne
    have hz : z = { (returnedMach w g st fr.pa t m0).grp w g with run := some { q with lanes := q.lanes &&& y.live } } :=
      (congrArg (fun k => Mach.grp k w g) (hon.trans (returnOn_runs (of_decide_eq_true hs) hres hq))).trans (grp_modG_same ..)
    rw [hz]
    obtain ⟨hmode, hcause, hpc, hinfo, hpreds, hflags, hready, hpair, hreg⟩ := hret.placed _ (some { q with lanes := q.lanes &&& y.live })
    refine ⟨hmode, hcause, hpc, hinfo, hpreds, hflags, hready, hpair, hreg, fun _ _ q' hq' => ?_, fun h => ?_⟩
    · cases hq.symm.trans hq'
      rfl
    · rcases h with h | h | h
      · rw [hs] at h; contradiction
      · exact absurd h hres
      · exact absurd h hne
  · have hstay : y.trapPc = t.pc ∧ (t.resume = .stand ∨ t.run = none) ∨ y.trapPc ≠ t.pc ∧ head.isOk = true := by
      by_cases hs : y.trapPc = t.pc
      · refine .inl ⟨hs, ?_⟩
        by_contra hno
        rw [not_or] at hno
        exact hrun ⟨decide_eq_true hs, hno.1, hno.2⟩
      · exact .inr ⟨hs, hgo.resolve_left fun h => hs (of_decide_eq_true h)⟩
    have hz : z = (standAt w g y.trapPc ls (returnedMach w g st fr.pa t m0)).grp w g :=
      congrArg (fun k => Mach.grp k w g) (hon.trans (returnOn_stands hstay))
    obtain ⟨hmode, hcause, hpc, hinfo, hpreds, hflags, hready, hpair, hreg⟩ := standAt_returned (a := y.trapPc) (k := ls) hret
    rw [hz]
    refine ⟨hmode, hcause, hpc, hinfo, hpreds, hflags, hready, hpair, hreg, fun hs hres q hq => ?_, fun _ => ⟨?_, fun j hj => ?_⟩⟩
    · exact absurd ⟨hs, hres, by rw [hq]; exact Option.some_ne_none q⟩ hrun
    · rw [standAt_regs, returnedMach_grp]
      rfl
    · exact stand_has _ _ _ _ _ _ ((mem_lanesOf (lanesOf_lt hj)).1 hj)

end Sys2Proof.Proofs
end

section
/-! The family '05_clauses_encodings_opcode_map.md', fourth part: the steps of a core. -/

namespace Sys2Proof.Proofs

open Sys2Proof Sys2Proof.Machine Sys2Proof.Laws

/-! ## A clause is fetched -/

/-- The header of a run's next clause as it is read. -/
def clauseHeader (m : Mach) (w : Nat) (r : Run) : Except Cause Word := fetchWord m (wgSite m w) (m.wg w).part (m.wg w).ctx r.hdrAddr.toNat

/-- The words after a header. -/
def clauseWords (m : Mach) (w : Nat) (r : Run) (h : Word) : Except (Cause × Nat) (List Word) :=
  fetchWords m (wgSite m w) (m.wg w).part (m.wg w).ctx (r.hdrAddr.toNat + 4) (bits h 28 4).toNat

/-- A run at the first word of the clause that has been fetched. -/
def clauseRun (r : Run) (h : Word) (ws : List Word) : Run :=
  { r with hdr := h, pc := r.hdrAddr + 4, rest := ws, count := r.count + (bits h 28 4).toNat, fetched := true, waiting := false }

section
variable {w g : Nat} {r : Run} {m : Mach} {h : Word} {ws : List Word}

theorem fetchClause_noHeader {e : Cause} (hh : clauseHeader m w r = .error e) :
    fetchClause w g r m = fetchTrap w g e r.hdrAddr 0 0 r.hdrAddr (fetchInfo (r.lanes &&& (m.grp w g).live) r.hdrAddr) m := by
  unfold clauseHeader at hh
  simp only [fetchClause, hh]

theorem fetchClause_badHeader {c : Cause} (hh : clauseHeader m w r = .ok h) (hc : headerCheck h r.count = some c) :
    fetchClause w g r m = fetchTrap w g c r.hdrAddr h 0 0 (infoLow m h) m := by
  unfold clauseHeader at hh
  simp only [fetchClause, hh, hc]

variable (hh : clauseHeader m w r = .ok h) (hc : headerCheck h r.count = none)
include hh hc

theorem fetchClause_noWord {e : Cause} {va : Nat} (hw : clauseWords m w r h = .error (e, va)) :
    fetchClause w g r m = fetchTrap w g e r.hdrAddr 0 0 (BitVec.ofNat 64 va) (fetchInfo (r.lanes &&& (m.grp w g).live) (BitVec.ofNat 64 va)) m := by
  unfold clauseHeader at hh
  unfold clauseWords at hw
  simp only [fetchClause, hh, hc, hw]

variable (hw : clauseWords m w r h = .ok ws)
include hw

theorem fetchClause_badWord {j : Nat} {v : Word} {c : Cause} (hk : wordsCheck h ws = some (j, v, c)) :
    fetchClause w g r m = fetchTrap w g c (r.hdrAddr + BitVec.ofNat 64 (4 + 4 * j)) v (if opLiteral (fOp v) then ws.getD (j + 1) 0 else 0) 0 (infoLow m v) m := by
  unfold clauseHeader at hh
  unfold clauseWords at hw
  simp only [fetchClause, hh, hc, hw, hk]

theorem fetchClause_passes (hk : wordsCheck h ws = none) : fetchClause w g r m = clauseReady w g r h ws m := by
  unfold clauseHeader at hh
  unfold clauseWords at hw
  simp only [fetchClause, hh, hc, hw, hk]

end

section
variable {w g : Nat} {r : Run} {m : Mach} {h : Word} {ws : List Word}

theorem clauseReady_issues (hk : waitMask m w g (clauseRun r h ws) = 0) : clauseReady w g r h ws m = m.modG w g fun y => { y with run := some (clauseRun r h ws) } :=
  if_pos hk

theorem clauseReady_waits (hk : waitMask m w g (clauseRun r h ws) ≠ 0) (hz : countsZero m w g (waitMask m w g (clauseRun r h ws)) = true) :
    clauseReady w g r h ws m = m.modG w g fun y => { y with run := some { clauseRun r h ws with waiting := true }, stood := m.cycle } := by
  refine (if_neg hk).trans (if_pos ?_)
  exact hz

theorem clauseReady_leaves (hk : waitMask m w g (clauseRun r h ws) ≠ 0) (hz : countsZero m w g (waitMask m w g (clauseRun r h ws)) = false) :
    clauseReady w g r h ws m =
      dropSlot w g ((m.modG w g fun y => { y with run := some { clauseRun r h ws with waiting := true }, stood := m.cycle }).modG w g fun y => { y with gaveUp := m.cycle }) := by
  refine (if_neg hk).trans (if_neg ?_)
  exact Bool.eq_false_iff.1 hz

end

/-- The run of a group in a slot may fetch its next clause. -/
def FetchesClause (w g : Nat) (r : Run) (m : Mach) : Prop :=
  (m.grp w g).run = some r ∧ wgActive (m.wg w) = true ∧ r.fetched = false ∧ (slotOf m w g).isSome = true ∧ clauseWaits m w r = false

/-- The header of the clause is read and passes its checks. -/
def HeaderPasses (w g : Nat) (r : Run) (h : Word) (m : Mach) : Prop :=
  FetchesClause w g r m ∧ clauseHeader (clauseTouch w r m) w r = .ok h ∧ (bits h 0 4).toNat = 0xA ∧ (bits h 28 4).toNat ≠ 0 ∧ (bits h 24 3).toNat < 6 ∧ bits h 4 3 = 0 ∧
    r.count + (bits h 28 4).toNat ≤ 24

/-- The words of the clause pass their checks too. -/
def ClausePasses (w g : Nat) (r : Run) (h : Word) (ws : List Word) (m : Mach) : Prop :=
  HeaderPasses w g r h m ∧ clauseWords (clauseTouch w r m) w r h = .ok ws ∧ wordsCheck h ws = none

theorem HeaderPasses.fetches {w g : Nat} {r : Run} {h : Word} {m : Mach} (hp : HeaderPasses w g r h m) : FetchesClause w g r m := hp.1

theorem HeaderPasses.header {w g : Nat} {r : Run} {h : Word} {m : Mach} (hp : HeaderPasses w g r h m) : clauseHeader (clauseTouch w r m) w r = .ok h := hp.2.1

theorem HeaderPasses.check {w g : Nat} {r : Run} {h : Word} {m : Mach} (hp : HeaderPasses w g r h m) : headerCheck h r.count = none := by
  obtain ⟨_, _, hmark, hcount, hclass, hzero, hlen⟩ := hp
  exact header_ok hmark hcount hclass hzero hlen

/-- The step of a group whose run may fetch its next clause is the fetch. -/
theorem acts_clauseFetch {w g : Nat} {r : Run} {ok : Mach → Prop} {f : Mach → Mach} (hok : ∀ m, ok m → FetchesClause w g r m)
    (hf : ∀ m, ok m → fetchClause w g r (clauseTouch w r m) = f m) : Says.Acts (.clauseFetch w g) ok f := by
  refine acts (fun _ => rfl) fun m hm => ?_
  obtain ⟨hrun, hactive, hfetched, hslot, hwaits⟩ := hok m hm
  rw [clauseFetch_now hrun hactive hfetched hslot hwaits, hf m hm]

section
variable {w g : Nat} {r : Run} {h : Word} {ws : List Word}

theorem clauseFetch_noHeader (e : Cause) : Says.Acts (.clauseFetch w g) (fun m => FetchesClause w g r m ∧ clauseHeader (clauseTouch w r m) w r = .error e)
    (fun m => let n := clauseTouch w r m
      fetchTrap w g e r.hdrAddr 0 0 r.hdrAddr (fetchInfo (r.lanes &&& (n.grp w g).live) r.hdrAddr) n) :=
  acts_clauseFetch (fun _ hm => hm.1) fun _ hm => fetchClause_noHeader hm.2

theorem clauseFetch_badHeader (hb : (bits h 0 4).toNat ≠ 0xA ∨ bits h 28 4 = 0 ∨ 6 ≤ (bits h 24 3).toNat) :
    Says.Acts (.clauseFetch w g) (fun m => FetchesClause w g r m ∧ clauseHeader (clauseTouch w r m) w r = .ok h)
      (fun m => fetchTrap w g .illegalHeader r.hdrAddr h 0 0 (infoLow (clauseTouch w r m) h) (clauseTouch w r m)) :=
  acts_clauseFetch (fun _ hm => hm.1) fun _ hm => fetchClause_badHeader hm.2 (header_bad hb)

theorem clauseFetch_noWord (e : Cause) (va : Nat) : Says.Acts (.clauseFetch w g) (fun m => HeaderPasses w g r h m ∧ clauseWords (clauseTouch w r m) w r h = .error (e, va))
    (fun m => let n := clauseTouch w r m
      fetchTrap w g e r.hdrAddr 0 0 (BitVec.ofNat 64 va) (fetchInfo (r.lanes &&& (n.grp w g).live) (BitVec.ofNat 64 va)) n) :=
  acts_clauseFetch (fun _ hm => hm.1.fetches) fun _ hm => fetchClause_noWord hm.1.header hm.1.check hm.2

theorem clauseFetch_badWord (j : Nat) (v : Word) (c : Cause) :
    Says.Acts (.clauseFetch w g) (fun m => HeaderPasses w g r h m ∧ clauseWords (clauseTouch w r m) w r h = .ok ws ∧ wordsCheck h ws = some (j, v, c))
      (fun m => let n := clauseTouch w r m
        fetchTrap w g c (r.hdrAddr + BitVec.ofNat 64 (4 + 4 * j)) v (if opLiteral (fOp v) then ws.getD (j + 1) 0 else 0) 0 (infoLow n v) n) :=
  acts_clauseFetch (fun _ hm => hm.1.fetches) fun _ ⟨hp, hwords, hcheck⟩ => fetchClause_badWord hp.header hp.check hwords hcheck

theorem ClausePasses.fetch {m : Mach} (hp : ClausePasses w g r h ws m) : fetchClause w g r (clauseTouch w r m) = clauseReady w g r h ws (clauseTouch w r m) := by
  obtain ⟨hheader, hwords, hcheck⟩ := hp
  exact fetchClause_passes hheader.header hheader.check hwords hcheck

theorem ClausePasses.fetches {m : Mach} (hp : ClausePasses w g r h ws m) : FetchesClause w g r m := hp.1.fetches

theorem clauseFetch_issues : Says.Acts (.clauseFetch w g) (fun m => ClausePasses w g r h ws m ∧ waitMask (clauseTouch w r m) w g (clauseRun r h ws) = 0)
    (fun m => (clauseTouch w r m).modG w g fun y => { y with run := some (clauseRun r h ws) }) :=
  acts_clauseFetch (fun _ hm => hm.1.fetches) fun _ hm => hm.1.fetch.trans (clauseReady_issues hm.2)

theorem clauseFetch_waits : Says.Acts (.clauseFetch w g)
    (fun m => let n := clauseTouch w r m
      let k := waitMask n w g (clauseRun r h ws)
      ClausePasses w g r h ws m ∧ k ≠ 0 ∧ ∀ o ∈ (n.grp w g).outs, k.getLsbD o.cls = false)
    (fun m => let n := clauseTouch w r m
      n.modG w g fun y => { y with run := some { clauseRun r h ws with waiting := true }, stood := n.cycle }) :=
  acts_clauseFetch (fun _ hm => hm.1.fetches) fun _ ⟨hp, hk, hz⟩ => hp.fetch.trans (clauseReady_waits hk (clear_counts hz))

theorem clauseFetch_leaves : Says.Acts (.clauseFetch w g)
    (fun m => let n := clauseTouch w r m
      let k := waitMask n w g (clauseRun r h ws)
      ClausePasses w g r h ws m ∧ k ≠ 0 ∧ countsZero n w g k = false)
    (fun m => let n := clauseTouch w r m
      dropSlot w g ((n.modG w g fun y => { y with run := some { clauseRun r h ws with waiting := true }, stood := n.cycle }).modG w g fun y => { y with gaveUp := n.cycle })) :=
  acts_clauseFetch (fun _ hm => hm.1.fetches) fun _ ⟨hp, hk, hz⟩ => hp.fetch.trans (clauseReady_leaves hk hz)

end

/-! ## A slot takes a group -/

/-- A group seated in a slot: the next to issue. -/
def seatAt (core slot w g : Nat) (m : Mach) : Mach :=
  { (m.modK core fun c => { idleUntil m slot c with slots := Store.put c.slots slot (some (w, g)) }) with cur := some (w, g) }

section
variable {core slot w g : Nat} {m : Mach}

theorem slotGrant_takes (hs : slot < 2) (hf : (Store.get none (m.core core).slots slot : Option (Nat × Nat)) = none)
    (hb : bestGroup m slot (readyGroups m core) = some (w, g)) : slotGrant core slot m = clearYields core slot (takeSlot core slot w g m) := by
  unfold slotGrant
  rw [decide_eq_true hs, hf, hb]
  rfl

theorem takeSlot_resumes (hr : (m.grp w g).run ≠ none) : takeSlot core slot w g m = seatAt core slot w g m := by
  obtain ⟨r, hr⟩ := Option.ne_none_iff_exists'.1 hr
  unfold takeSlot
  rw [hr]
  rfl

theorem takeSlot_starts {e : Entry} (hr : (m.grp w g).run = none) (he : bestEntry (issuable m w g) = some e) (hb : breakMatches m w (m.grp w g) e = false) :
    takeSlot core slot w g m = seatAt core slot w g (startRun w g e m) := by
  unfold takeSlot
  simp only [hr, he, hb, Bool.false_eq_true, if_false]
  rfl

theorem takeSlot_halts {e : Entry} (hr : (m.grp w g).run = none) (he : bestEntry (issuable m w g) = some e) (hb : breakMatches m w (m.grp w g) e = true) :
    takeSlot core slot w g m = haltAtBreak w (startRun w g e m) := by
  unfold takeSlot
  simp only [hr, he, hb, if_true]

end

/-- A free slot of the core, on which the group is ranked first. -/
def TakesSlot (core slot w g : Nat) (m : Mach) : Prop :=
  (Store.get none (m.core core).slots slot : Option (Nat × Nat)) = none ∧ bestGroup m slot (readyGroups m core) = some (w, g)

section
variable {core slot w g : Nat} (hs : slot < 2)
include hs

theorem issueSlotGrant_resumes : Says.Acts (.issueSlotGrant core slot) (fun m => TakesSlot core slot w g m ∧ (m.grp w g).run ≠ none)
    (fun m => clearYields core slot (seatAt core slot w g m)) := by
  refine acts (fun _ => rfl) fun m ⟨⟨hfree, hbest⟩, hrun⟩ => ?_
  rw [slotGrant_takes hs hfree hbest, takeSlot_resumes hrun]

theorem issueSlotGrant_starts (e : Entry) : Says.Acts (.issueSlotGrant core slot)
    (fun m => (TakesSlot core slot w g m ∧ (m.grp w g).run = none ∧ bestEntry (issuable m w g) = some e) ∧ breakMatches m w (m.grp w g) e = false)
    (fun m => clearYields core slot (seatAt core slot w g (startRun w g e m))) := by
  refine acts (fun _ => rfl) fun m ⟨⟨⟨hfree, hbest⟩, hrun, he⟩, hbreak⟩ => ?_
  rw [slotGrant_takes hs hfree hbest, takeSlot_starts hrun he hbreak]

theorem issueSlotGrant_halts (e : Entry) : Says.Acts (.issueSlotGrant core slot)
    (fun m => (TakesSlot core slot w g m ∧ (m.grp w g).run = none ∧ bestEntry (issuable m w g) = some e) ∧ breakMatches m w (m.grp w g) e = true)
    (fun m => clearYields core slot (haltAtBreak w (startRun w g e m))) := by
  refine acts (fun _ => rfl) fun m ⟨⟨⟨hfree, hbest⟩, hrun, he⟩, hbreak⟩ => ?_
  rw [slotGrant_takes hs hfree hbest, takeSlot_halts hrun he hbreak]

end

/-! ## A group at its wait point -/

section
variable {w g : Nat} {r : Run} {m : Mach}

theorem waitInRun_takes {d : Out × Fail} (hd : dueFault (m.grp w g) (waitMask m w g r) = some d) :
    waitInRun w g r m = takeFault w g d r.hdrAddr (r.lanes &&& (m.grp w g).live) .wait m := by
  simp only [waitInRun, hd]

theorem and_not_zero (k : Mask) : k &&& ~~~(0 : Mask) = k := BitVec.and_allOnes

/-- No lane leaves a run. -/
theorem leaveRun_none (hr : (m.grp w g).run = some r) : leaveRun w g 0 m = m.modG w g fun y => { y with run := some r } := by
  refine modG_congr _ _ _ _ _ ?_
  rw [hr, Option.map_some, and_not_zero]

theorem waitInRun_goesOn (hr : (m.grp w g).run = some r) (hd : dueFault (m.grp w g) (waitMask m w g r) = none) (hp : mayPass (m.wg w) (m.grp w g) = true)
    (hk : ∀ o ∈ (m.grp w g).outs, (waitMask m w g r).getLsbD o.cls = false) (ha : abortedOf m w g r.lanes = []) (hl : r.lanes &&& (m.grp w g).live ≠ 0) :
    waitInRun w g r m = m.modG w g fun y => { y with run := some { r with waiting := false } } := by
  have hqs : (if (waitMask m w g r).getLsbD 0 = true then abortedOf m w g r.lanes else []) = [] := by rw [ha, ite_self]
  have hlanes : ¬ r.lanes &&& (m.grp w g).live &&& ~~~(0 : Mask) = 0 := by rwa [and_not_zero]
  unfold waitInRun
  dsimp only
  rw [hd, hp, clear_counts hk, hqs]
  change (if r.lanes &&& (m.grp w g).live &&& ~~~(0 : Mask) = 0 then _ else (leaveRun w g 0 m).modG w g _) = _
  rw [if_neg hlanes, leaveRun_none hr, modG_modG]
  rfl

end

/-- The run of a group stands at its wait point. -/
def AtWait (w g : Nat) (r : Run) (m : Mach) : Prop :=
  wgActive (m.wg w) = true ∧ (m.grp w g).held = none ∧ (m.grp w g).exiting = none ∧ (m.grp w g).run = some r ∧ r.waiting = true

section
variable {w g : Nat} {r : Run}

theorem AtWait.step {m : Mach} (h : AtWait w g r m) : waitPoint w g m = waitInRun w g r m := by
  obtain ⟨hactive, hheld, hexit, hrun, hwait⟩ := h
  exact waitPoint_now hactive hheld hexit hrun hwait

theorem AtWait.run {m : Mach} (h : AtWait w g r m) : (m.grp w g).run = some r := by
  obtain ⟨_, _, _, hrun, _⟩ := h
  exact hrun

theorem exec_waitPointRelease (w g : Nat) (s : State) : exec (.waitPointRelease w g) s = eventStep (fun m => waitPoint w g (settleCmds m)) s := rfl

theorem waitPointRelease_takes (d : Out × Fail) : Says.Acts (.waitPointRelease w g)
    (fun m => AtWait w g r (settleCmds m) ∧ dueFault ((settleCmds m).grp w g) (waitMask (settleCmds m) w g r) = some d)
    (fun m => takeFault w g d r.hdrAddr (r.lanes &&& ((settleCmds m).grp w g).live) .wait (settleCmds m)) :=
  acts (exec_waitPointRelease w g) fun _ hm => hm.1.step.trans (waitInRun_takes hm.2)

theorem waitPointRelease_goesOn : Says.Acts (.waitPointRelease w g)
    (fun m => AtWait w g r (settleCmds m) ∧ dueFault ((settleCmds m).grp w g) (waitMask (settleCmds m) w g r) = none ∧
      mayPass ((settleCmds m).wg w) ((settleCmds m).grp w g) = true ∧ (∀ o ∈ ((settleCmds m).grp w g).outs, (waitMask (settleCmds m) w g r).getLsbD o.cls = false) ∧
      abortedOf (settleCmds m) w g r.lanes = [] ∧ r.lanes &&& ((settleCmds m).grp w g).live ≠ 0)
    (fun m => (settleCmds m).modG w g fun y => { y with run := some { r with waiting := false } }) :=
  acts (exec_waitPointRelease w g) fun _ ⟨hat, hdue, hpass, hcounts, habort, hlanes⟩ => hat.step.trans (waitInRun_goesOn hat.run hdue hpass hcounts habort hlanes)

end

/-! ## Commands that end by a step -/

section
variable {w g id : Nat} {o : Out} {m : Mach}

theorem sfuLanding_lands {ws : List LaneWrite} {conds : Nat} (hf : findOut m w g id = some o) (hk : o.kind = .sfu ws 0 conds) :
    sfuLanding w g id m = landOut w g id ws m := by
  unfold sfuLanding
  simp only [hf, hk, if_true]

theorem sfuLanding_fails {ws : List LaneWrite} {exc : Mask} {conds : Nat} (hf : findOut m w g id = some o) (hk : o.kind = .sfu ws exc conds) (hx : exc ≠ 0) :
    sfuLanding w g id m = failOut w g id ⟨.fpException, exc, 0, BitVec.ofNat 64 (exc.toNat + 2 ^ 32 * conds)⟩ m := by
  unfold sfuLanding
  simp only [hf, hk, if_neg hx]

/-- A fence once its acquire part is done, where that may be done now. -/
def fenceAcquired (w g id : Nat) (o : Out) (ord : Order) (sc : Scope) (ls : Mask) (acqd : Bool) (m : Mach) : Mach :=
  if hasAcq ord = true ∧ acqd = false ∧ (m.grp w g).outs.any (fenceWaits m w g o .acq sc) = false then acquireAt (m.wg w).core sc (setOut w g id (.fence ord sc ls true) m) else m

theorem fenceComplete_ends {ord : Order} {sc : Scope} {ls : Mask} {acqd : Bool} (hf : findOut m w g id = some o) (hk : o.kind = .fence ord sc ls acqd)
    (hw : (m.grp w g).outs.any (fenceWaits m w g o ord sc) = false) :
    fenceComplete w g id m = landOut w g id [] (flushAll (m.wg w).core (fenceAcquired w g id o ord sc ls acqd m)) := by
  simp only [fenceComplete, hf, hk, hw, Bool.false_eq_true, if_false, fenceAcquired, Bool.and_eq_true, Bool.not_eq_true', and_assoc]

theorem fenceComplete_waits {ord : Order} {sc : Scope} {ls : Mask} {acqd : Bool} (hf : findOut m w g id = some o) (hk : o.kind = .fence ord sc ls acqd)
    (hw : (m.grp w g).outs.any (fenceWaits m w g o ord sc) = true) : fenceComplete w g id m = fenceAcquired w g id o ord sc ls acqd m := by
  simp only [fenceComplete, hf, hk, hw, if_true, fenceAcquired, Bool.and_eq_true, Bool.not_eq_true', and_assoc]

/-- What may end an access now: no wait for a turn, no fault, nothing that must come before it. -/
def EndsNow (w g id : Nat) (o : Out) (m : Mach) : Prop :=
  findOut m w g id = some o ∧ (m.wg w).status ≠ .saved ∧ (o.shared = true → holdsTurn m w = true) ∧ accFault m w o = none ∧ mayPerform m ⟨w, g, o⟩ = true

theorem EndsNow.performed {k : OutKind → Bool} {act : Out → Mach → Mach} (hn : EndsNow w g id o m) (hk : k o.kind = true) : whenPerformed k w g id act m = act o m := by
  obtain ⟨hfound, hstatus, hturn, hfault, hmay⟩ := hn
  exact performed_now hstatus hfound hturn hk hfault hmay

/-- The lanes of a WAITW with what they read, and the machine once they have read it. -/
def waitwSeen (w g : Nat) (o : Out) (lanes : List LaneAcc) (m : Mach) : Mach :=
  lanes.foldl (fun acc a => match placeOf acc ⟨w, g, o⟩ a with | some pl => refreshCache (acc.wg w).core pl acc | none => acc) (touchLanes w o m)

section
variable {n : Nat} {dst : Reg} {sc : Scope} {lanes : List LaneAcc} (hn : EndsNow w g id o m) (hk : o.kind = .waitw n dst sc lanes)
include hn hk

theorem waitwReturn_returns (ha : ∀ a ∈ lanes.map (waitwLane m ⟨w, g, o⟩ n), a.region.isSome = true) :
    waitwReturn w g id m = landOut w g id ((lanes.map (waitwLane m ⟨w, g, o⟩ n)).flatMap fun a =>
      loadWrites n false dst a.lane (match a.region with | some (_, es) => es.map (·.2) | none => [])) (waitwSeen w g o lanes m) := by
  unfold waitwReturn
  rw [hn.performed (by rw [hk])]
  dsimp only
  rw [hk]
  exact if_pos (List.all_eq_true.2 ha)

theorem waitwReturn_waits (ha : ∃ a ∈ lanes.map (waitwLane m ⟨w, g, o⟩ n), a.region = none) :
    waitwReturn w g id m = setOut w g id (.waitw n dst sc (lanes.map (waitwLane m ⟨w, g, o⟩ n))) (waitwSeen w g o lanes m) := by
  obtain ⟨a, ha, hr⟩ := ha
  unfold waitwReturn
  rw [hn.performed (by rw [hk])]
  dsimp only
  rw [hk]
  refine if_neg fun h => ?_
  have := List.all_eq_true.1 h a ha
  rw [hr] at this
  contradiction

end

/-- The lanes of a command whose accesses go to another device, with the fault that a missing response is for them. -/
def remoteFaults (w g : Nat) (o : Out) (m : Mach) : List (Nat × Nat × Cause) :=
  (kindLanes o).filterMap fun a =>
    match placeOf m ⟨w, g, o⟩ a with
    | some p => if paTarget p.key = 1 ∧ p.vault = false then some (a.lane, a.addr, Cause.uncorrectable) else none
    | none => none

/-- The access of a command to another device: the place of a lane of it is there. -/
theorem remoteTimeout_fails (hs : (m.wg w).status ≠ .saved) (hf : findOut m w g id = some o) (hr : isRemote m ⟨w, g, o⟩ = true) (hp : mayPerform m ⟨w, g, o⟩ = true) :
    ∃ f : Fail, f.cause = .uncorrectable ∧ remoteTimeout w g id m = failOut w g id f m := by
  obtain ⟨a, ha, hplace⟩ := List.any_eq_true.1 hr
  have step : remoteTimeout w g id m = failOut w g id ((laneFault (remoteFaults w g o m)).getD default) m := by
    unfold remoteTimeout
    rw [if_neg hs, hf]
    dsimp only
    rw [hr, hp]
    rfl
  have hall : ∀ e ∈ remoteFaults w g o m, e.2.2 = .uncorrectable := by
    intro e he
    obtain ⟨b, _, hb⟩ := List.mem_filterMap.1 he
    split at hb
    · split at hb
      · cases hb
        rfl
      · contradiction
    · contradiction
  have hsome : remoteFaults w g o m ≠ [] := by
    split at hplace
    · rename_i p hp
      rw [Bool.and_eq_true, Bool.not_eq_true', decide_eq_true_eq] at hplace
      refine List.ne_nil_of_mem (a := (a.lane, a.addr, .uncorrectable)) (List.mem_filterMap.2 ⟨a, ha, ?_⟩)
      rw [hp]
      exact if_pos ⟨hplace.2, hplace.1⟩
    · contradiction
  obtain ⟨f, hlane, hcause⟩ := lane_fault _ _ hall hsome
  exact ⟨f, hcause, by rw [step, hlane]; rfl⟩

end

section
variable {w g id : Nat} {o : Out}

theorem sfuResultLanding_lands {ws : List LaneWrite} {conds : Nat} (hk : o.kind = .sfu ws 0 conds) :
    Says.Acts (.sfuResultLanding w g id) (fun m => findOut m w g id = some o) (landOut w g id ws) :=
  acts (fun _ => rfl) fun _ hf => sfuLanding_lands hf hk

theorem sfuResultLanding_fails {ws : List LaneWrite} {exc : Mask} {conds : Nat} (hk : o.kind = .sfu ws exc conds) (hx : exc ≠ 0) :
    Says.Acts (.sfuResultLanding w g id) (fun m => findOut m w g id = some o)
      (failOut w g id ⟨.fpException, exc, 0, BitVec.ofNat 64 (exc.toNat + 2 ^ 32 * conds)⟩) :=
  acts (fun _ => rfl) fun _ hf => sfuLanding_fails hf hk hx

theorem exec_fenceComplete (w g id : Nat) (s : State) : exec (.fenceComplete w g id) s = eventStep (fun m => settleCmds (fenceComplete w g id m)) s := rfl

theorem fenceComplete_acts_end {ord : Order} {sc : Scope} {ls : Mask} {acqd : Bool} (hk : o.kind = .fence ord sc ls acqd) : Says.Acts (.fenceComplete w g id)
    (fun m => findOut m w g id = some o ∧ (m.grp w g).outs.any (fenceWaits m w g o ord sc) = false)
    (fun m => settleCmds (landOut w g id [] (flushAll (m.wg w).core (fenceAcquired w g id o ord sc ls acqd m)))) :=
  acts (exec_fenceComplete w g id) fun _ hm => congrArg settleCmds (fenceComplete_ends hm.1 hk hm.2)

theorem fenceComplete_acts_wait {ord : Order} {sc : Scope} {ls : Mask} {acqd : Bool} (hk : o.kind = .fence ord sc ls acqd) : Says.Acts (.fenceComplete w g id)
    (fun m => findOut m w g id = some o ∧ (m.grp w g).outs.any (fenceWaits m w g o ord sc) = true)
    (fun m => settleCmds (fenceAcquired w g id o ord sc ls acqd m)) :=
  acts (exec_fenceComplete w g id) fun _ hm => congrArg settleCmds (fenceComplete_waits hm.1 hk hm.2)

theorem exec_waitwReturn (w g id : Nat) (s : State) : exec (.waitwReturn w g id) s = eventStep (fun m => settleCmds (waitwReturn w g id m)) s := rfl

theorem waitwReturn_acts_return {n : Nat} {dst : Reg} {sc : Scope} {lanes : List LaneAcc} (hk : o.kind = .waitw n dst sc lanes) : Says.Acts (.waitwReturn w g id)
    (fun m => EndsNow w g id o m ∧ ∀ a ∈ lanes.map (waitwLane m ⟨w, g, o⟩ n), a.region.isSome = true)
    (fun m => settleCmds (landOut w g id ((lanes.map (waitwLane m ⟨w, g, o⟩ n)).flatMap fun a =>
      loadWrites n false dst a.lane (match a.region with | some (_, es) => es.map (·.2) | none => [])) (waitwSeen w g o lanes m))) :=
  acts (exec_waitwReturn w g id) fun _ hm => congrArg settleCmds (waitwReturn_returns hm.1 hk hm.2)

theorem waitwReturn_acts_wait {n : Nat} {dst : Reg} {sc : Scope} {lanes : List LaneAcc} (hk : o.kind = .waitw n dst sc lanes) : Says.Acts (.waitwReturn w g id)
    (fun m => EndsNow w g id o m ∧ ∃ a ∈ lanes.map (waitwLane m ⟨w, g, o⟩ n), a.region = none)
    (fun m => settleCmds (setOut w g id (.waitw n dst sc (lanes.map (waitwLane m ⟨w, g, o⟩ n))) (waitwSeen w g o lanes m))) :=
  acts (exec_waitwReturn w g id) fun _ hm => congrArg settleCmds (waitwReturn_waits hm.1 hk hm.2)

theorem remoteAccessTimeout_fails {s : State} (hr : s.hw.running = true) (hs : (s.m.wg w).status ≠ .saved) (hf : findOut s.m w g id = some o)
    (hrem : isRemote s.m ⟨w, g, o⟩ = true) (hp : mayPerform s.m ⟨w, g, o⟩ = true) :
    ∃ f : Fail, f.cause = .uncorrectable ∧ exec (.remoteAccessTimeout w g id) s = .next { s with m := failOut w g id f s.m } := by
  obtain ⟨f, hcause, hstep⟩ := remoteTimeout_fails hs hf hrem hp
  refine ⟨f, hcause, ?_⟩
  change eventStep (remoteTimeout w g id) s = _
  rw [eventStep, if_pos hr, hstep]

/-- What a lane of a WAITW sees at its place: the home's bytes under those of the core's write-combining lines. -/
def bytesSeen (m : Mach) (w n : Nat) (pl : Place) : List Byte :=
  (List.range n).map fun k => (combined m (m.wg w).core (pl.key + k)).getD ((readPa m pl.key n).getD k 0)

theorem waitwLane_reads {m : Mach} {n : Nat} {a : LaneAcc} {pl : Place} (ha : a.region = none) (hp : placeOf m ⟨w, g, o⟩ a = some pl) : waitwLane m ⟨w, g, o⟩ n a =
    if leNat (bytesSeen m w n pl) = a.cmp.toNat then a else { a with region := some (.plain, (List.range n).map fun k => (k, (bytesSeen m w n pl).getD k 0)) } := by
  unfold waitwLane
  rw [ha, hp]
  rfl

end

/-! ## A commit is decided -/

theorem anyRegion_is {m : Mach} {w g l : Nat} {q : Region} (h : anyRegion m w g l = some q) : q.wg = w ∧ q.grp = g ∧ q.lane = l := by
  have := List.find?_some h
  simpa only [Region.isOf, Bool.and_eq_true, decide_eq_true_eq, and_assoc] using this

/-- The machine once the locks of a region's lines have been settled for it. -/
def linesWon (q : Region) (m : Mach) : Mach :=
  (regionLines m q).foldl (fun acc k => (lockers acc q k).foldl (fun acc r => abortYounger q r acc) acc) m

section
variable {w g l : Nat} {q p : Region} {o : Out} {m : Mach}

/-- The command asks for lane `l`'s commit. -/
def asksCommit (l : Nat) (o : Out) : Bool :=
  o.fail.isNone && match o.kind with
    | .gcommit ls => ls.getLsbD l
    | _ => false

/-- A lane asks for its commit: its region, and the command that asks. -/
def CommitAsked (w g l : Nat) (q : Region) (o : Out) (m : Mach) : Prop :=
  anyRegion m w g l = some q ∧ (m.grp w g).outs.find? (asksCommit l) = some o

theorem gcommitGrant_aborted (ha : CommitAsked w g l q o m) (hq : q.aborted.isSome = true) : gcommitGrant w g l m = settleCommit w g l m := by
  unfold gcommitGrant
  generalize hx : List.find? _ (m.grp w g).outs = x
  obtain rfl : x = some o := hx.symm.trans ha.2
  rw [ha.1]
  exact if_pos hq

theorem gcommitGrant_decides (ha : CommitAsked w g l q o m) (hq : q.aborted = none) (hp : commitPending m q = true) (ho : olderCommit m q = false)
    (hw : commitWaits m q = false) : gcommitGrant w g l m = decideCommit q o m := by
  unfold gcommitGrant
  generalize hx : List.find? _ (m.grp w g).outs = x
  obtain rfl : x = some o := hx.symm.trans ha.2
  rw [ha.1]
  dsimp only
  rw [hq, hp, ho, hw]
  rfl

/-- A commit that nothing holds back is decided on the region as the settled locks leave it. -/
def CommitDecides (w g l : Nat) (q p : Region) (o : Out) (m : Mach) : Prop :=
  (CommitAsked w g l q o m ∧ q.aborted = none ∧ commitPending m q = true ∧ olderCommit m q = false ∧ commitWaits m q = false) ∧
    anyRegion (linesWon q m) w g l = some p ∧ p.aborted = none

variable (hd : CommitDecides w g l q p o m)
include hd

theorem CommitDecides.step : gcommitGrant w g l m = decideCommit q o m := by
  obtain ⟨⟨hasked, hopen, hpending, holder, hwaits⟩, _⟩ := hd
  exact gcommitGrant_decides hasked hopen hpending holder hwaits

theorem CommitDecides.lane : q.wg = w ∧ q.grp = g ∧ q.lane = l := by
  obtain ⟨⟨hasked, _⟩, _⟩ := hd
  exact anyRegion_is hasked.1

theorem decideCommit_plain (hc : p.changed = true) (hp : p.plain = true) :
    decideCommit q o m = settleCommit w g l (markAbort w g l 1 0 (linesWon q m)) := by
  obtain ⟨rfl, rfl, rfl⟩ := hd.lane
  obtain ⟨_, hwon, hkept⟩ := hd
  unfold linesWon at *
  simp only [decideCommit, hwon, hkept, hc, hp, Option.isSome_none, Bool.false_eq_true, if_false, Bool.and_self, if_true]

theorem decideCommit_broken (hc : p.changed = true) (hp : p.plain = false) (hf : commitFault (linesWon q m) p = none)
    (hk : ∃ c ∈ p.constrs, constrKept (linesWon q m) w c = false) : decideCommit q o m = settleCommit w g l (markAbort w g l 2 0 (linesWon q m)) := by
  obtain ⟨rfl, rfl, rfl⟩ := hd.lane
  obtain ⟨_, hwon, hkept⟩ := hd
  have hany : (p.constrs.any fun c => !(constrKept (linesWon q m) q.wg c)) = true := by simpa using hk
  unfold linesWon at *
  simp only [decideCommit, hwon, hkept, hc, hp, hf, hany, Option.isSome_none, Bool.false_eq_true, if_false, Bool.and_false, Bool.and_self, if_true]

/-- The value that a store of a commit writes: the input read afresh where the region's lines have changed. -/
def commitValue (w : Nat) (p : Region) (n : Mach) (e : RStore) : DWord :=
  match e.sym with
  | some (a, s, k) => if p.changed then freshInput n w a s k else e.val
  | none => e.val

/-- A region's stores performed at one point. -/
def commitStored (w g l : Nat) (p : Region) (n : Mach) : Mach :=
  p.stores.foldl (fun acc e =>
    match regionPlace acc w e.addr .write with
    | .ok pa => writePa acc (some (n.wg w).core) (laneAgent w g l) pa (leBytes e.size (commitValue w p n e).toNat)
    | .error _ => acc) (flushAll (n.wg w).core n)

/-- A commit performed: the stores, the retry record cleared, the region gone. -/
def committed (w g l : Nat) (p : Region) (n : Mach) : Mach :=
  let t := commitStored w g l p n
  orderDone (n.wg w).core (.ar, .device) (settleCommit w g l (({ t with regions := t.regions.filter fun r => !(r.isOf w g l) } : Mach).modG w g fun y =>
    { y with retries := Store.del y.retries l }))

omit hd in
theorem performCommit_eq (p : Region) (n : Mach) : performCommit p n = committed p.wg p.grp p.lane p n := by
  unfold performCommit
  simp only [List.foldl_map]
  rfl

theorem decideCommit_performs (hk : p.changed = true → p.plain = false ∧ ∀ c ∈ p.constrs, constrKept (linesWon q m) w c = true)
    (hf : commitFault (linesWon q m) p = none) : decideCommit q o m = committed w g l p (linesWon q m) := by
  obtain ⟨rfl, rfl, rfl⟩ := hd.lane
  obtain ⟨_, hwon, hkept⟩ := hd
  obtain ⟨hwg, hgrp, hlane⟩ := anyRegion_is hwon
  have hplain : (p.changed && p.plain) = false := by
    cases hc : p.changed with
    | false => rfl
    | true => rw [(hk hc).1]; rfl
  have hany : (p.changed && p.constrs.any fun c => !(constrKept (linesWon q m) q.wg c)) = false := by
    cases hc : p.changed with
    | false => rfl
    | true =>
      rw [Bool.true_and, List.any_eq_false]
      intro c hm
      rw [(hk hc).2 c hm]
      decide
  rw [← hwg, ← hgrp, ← hlane, ← performCommit_eq]
  unfold linesWon at *
  simp only [decideCommit, hwon, hkept, hplain, hf, hany, Option.isSome_none, Bool.false_eq_true, if_false]

end

section
variable {w g l : Nat} {q p : Region} {o : Out}

theorem exec_gcommitGrant (w g l : Nat) (s : State) : exec (.gcommitGrant w g l) s = eventStep (fun m => settleCmds (gcommitGrant w g l m)) s := rfl

theorem gcommitGrant_acts_aborted : Says.Acts (.gcommitGrant w g l) (fun m => CommitAsked w g l q o m ∧ q.aborted.isSome = true)
    (fun m => settleCmds (settleCommit w g l m)) :=
  acts (exec_gcommitGrant w g l) fun _ hm => congrArg settleCmds (gcommitGrant_aborted hm.1 hm.2)

theorem gcommitGrant_acts_performs : Says.Acts (.gcommitGrant w g l)
    (fun m => CommitDecides w g l q p o m ∧ (p.changed = true → p.plain = false ∧ ∀ c ∈ p.constrs, constrKept (linesWon q m) w c = true) ∧ commitFault (linesWon q m) p = none)
    (fun m => settleCmds (committed w g l p (linesWon q m))) :=
  acts (exec_gcommitGrant w g l) fun _ ⟨hd, hk, hf⟩ => congrArg settleCmds (hd.step.trans (decideCommit_performs hd hk hf))

theorem gcommitGrant_acts_plain : Says.Acts (.gcommitGrant w g l) (fun m => CommitDecides w g l q p o m ∧ p.changed = true ∧ p.plain = true)
    (fun m => settleCmds (settleCommit w g l (markAbort w g l 1 0 (linesWon q m)))) :=
  acts (exec_gcommitGrant w g l) fun _ ⟨hd, hc, hp⟩ => congrArg settleCmds (hd.step.trans (decideCommit_plain hd hc hp))

theorem gcommitGrant_acts_broken : Says.Acts (.gcommitGrant w g l)
    (fun m => CommitDecides w g l q p o m ∧ p.changed = true ∧ p.plain = false ∧ commitFault (linesWon q m) p = none ∧ ∃ c ∈ p.constrs, constrKept (linesWon q m) w c = false)
    (fun m => settleCmds (settleCommit w g l (markAbort w g l 2 0 (linesWon q m)))) :=
  acts (exec_gcommitGrant w g l) fun _ ⟨hd, hc, hp, hf, hk⟩ => congrArg settleCmds (hd.step.trans (decideCommit_broken hd hc hp hf hk))

end

/-! ## Walks and second reads -/

theorem pageWalkStart_asks {p c va : Nat} {m : Mach} (hv : va < 2 ^ 52) (hp : (m.part p).made = true) : pageWalkStart p c va m =
    ((pageDies m p (pageAskers m p c va)).filter fun d => !((pageAskers m p c va).isEmpty && (tlbFind m (.die d) p c va).isSome)).foldl
      (fun acc d => askWalk p c va (pageAskers m p c va) d acc) m := by
  unfold pageWalkStart
  rw [hp, decide_eq_false (Nat.not_le.2 hv)]
  rfl

/-- A walk that has a walker of its die and meets no entry whose check has failed. -/
def WalkServed (k : Nat) (x : Walk) (m : Mach) : Prop :=
  m.walks[k]? = some x ∧ ((m.walks.take k).filter fun y => decide (y.die = x.die)).length < 96 ∧ walkFailing m x.va 3 (m.ctx x.part x.ctx).desc.root.toNat = false

section
variable {k : Nat} {x : Walk} {m : Mach} (hs : WalkServed k x m)
include hs

theorem walkServed_free : ¬ (96 ≤ ((m.walks.take k).filter fun y => decide (y.die = x.die)).length ∨ walkFailing m x.va 3 (m.ctx x.part x.ctx).desc.root.toNat = true) := by
  obtain ⟨_, hwalker, hreads⟩ := hs
  rw [hreads, not_or]
  exact ⟨Nat.not_le.2 hwalker, Bool.false_ne_true⟩

theorem pageWalkComplete_fills {t : Xlat} (ht : walk m x.part x.ctx x.va = .ok t) : pageWalkComplete k m =
    if x.cores = [] then tlbFill (.die x.die) x.part x.ctx x.va t { m with walks := m.walks.eraseIdx k }
    else x.cores.foldl (fun acc c => tlbFill (.core c) x.part x.ctx x.va t acc) { m with walks := m.walks.eraseIdx k } := by
  simp only [pageWalkComplete, hs.1, if_neg (walkServed_free hs), ht]

theorem pageWalkComplete_faults {e : Cause} (ht : walk m x.part x.ctx x.va = .error e) : pageWalkComplete k m = { m with walks := m.walks.eraseIdx k } := by
  simp only [pageWalkComplete, hs.1, if_neg (walkServed_free hs), ht]

end

theorem pageWalkStart_acts (p c va : Nat) : Says.Acts (.pageWalkStart p c va) (fun m => va < 2 ^ 52 ∧ (m.part p).made = true) (fun m =>
    ((pageDies m p (pageAskers m p c va)).filter fun d => !((pageAskers m p c va).isEmpty && (tlbFind m (.die d) p c va).isSome)).foldl
      (fun acc d => askWalk p c va (pageAskers m p c va) d acc) m) :=
  acts (fun _ => rfl) fun _ hm => pageWalkStart_asks hm.1 hm.2

/-- A request for a page that no walk of the die is for waits behind the others. -/
theorem askWalk_new {p c va d : Nat} {m : Mach} {cs : List Nat} (h : ((walksOn m d).any fun k => k.isFor p c va) = false) :
    (askWalk p c va cs d m).walks = m.walks ++ [⟨d, cs.filter fun k => decide (dieOfCore k = d), p, c, va⟩] := by
  unfold askWalk
  rw [h]
  rfl

section
variable {k : Nat} {x : Walk} {t : Xlat}

theorem pageWalkComplete_acts_cores : Says.Acts (.pageWalkComplete k) (fun m => WalkServed k x m ∧ walk m x.part x.ctx x.va = .ok t ∧ x.cores ≠ [])
    (fun m => x.cores.foldl (fun acc c => tlbFill (.core c) x.part x.ctx x.va t acc) { m with walks := m.walks.eraseIdx k }) :=
  acts (fun _ => rfl) fun _ ⟨hs, ht, hc⟩ => (pageWalkComplete_fills hs ht).trans (if_neg hc)

theorem pageWalkComplete_acts_die : Says.Acts (.pageWalkComplete k) (fun m => WalkServed k x m ∧ walk m x.part x.ctx x.va = .ok t ∧ x.cores = [])
    (fun m => tlbFill (.die x.die) x.part x.ctx x.va t { m with walks := m.walks.eraseIdx k }) :=
  acts (fun _ => rfl) fun _ ⟨hs, ht, hc⟩ => (pageWalkComplete_fills hs ht).trans (if_pos hc)

theorem pageWalkComplete_acts_fault (e : Cause) : Says.Acts (.pageWalkComplete k) (fun m => WalkServed k x m ∧ walk m x.part x.ctx x.va = .error e)
    (fun m => { m with walks := m.walks.eraseIdx k }) :=
  acts (fun _ => rfl) fun _ hm => pageWalkComplete_faults hm.1 hm.2

end

/-- A location whose check has failed may be read again: a row of a scratchpad only while it is not retired. -/
def ReadsAgain (loc : Loc) (m : Mach) : Prop :=
  m.failing.contains loc = true ∧
    match loc with
    | .scratch c a => m.badRows.contains (rowOf (scratchKey c a)) = false
    | _ => True

theorem memoryReadRetry_reads {loc : Loc} {pass : Bool} {m : Mach} (h : ReadsAgain loc m) : memoryReadRetry loc pass m =
    if pass then { m with failing := m.failing.filter fun f => decide (f ≠ loc), transients := Store.upd 0 m.transients (dieOf loc) (· + 1) } else retireLoc loc m := by
  obtain ⟨hf, hrow⟩ := h
  unfold memoryReadRetry
  rw [hf]
  cases loc with
  | scratch c a =>
    refine if_neg ?_
    dsimp only at hrow ⊢
    rw [hrow]
    decide
  | hbm pa => rfl
  | vault c off => rfl

theorem exec_memoryReadRetry (loc : Loc) (pass : Bool) (s : State) : exec (.memoryReadRetry loc pass) s = eventStep (fun m => settleCmds (memoryReadRetry loc pass m)) s := rfl

theorem memoryReadRetry_acts_pass (loc : Loc) : Says.Acts (.memoryReadRetry loc true) (ReadsAgain loc) (fun m => settleCmds { m with
    failing := m.failing.filter fun f => decide (f ≠ loc), transients := Store.upd 0 m.transients (dieOf loc) (· + 1) }) :=
  acts (exec_memoryReadRetry loc true) fun _ hm => congrArg settleCmds (memoryReadRetry_reads hm)

theorem memoryReadRetry_acts_fail (loc : Loc) : Says.Acts (.memoryReadRetry loc false) (ReadsAgain loc) (fun m => settleCmds (retireLoc loc m)) :=
  acts (exec_memoryReadRetry loc false) fun _ hm => congrArg settleCmds (memoryReadRetry_reads hm)

theorem toHost_foldl (x : HostMsg) (ps : List Nat) : ∀ m : Mach, ∃ out, ps.foldl (fun acc p => toHost p x acc) m = { m with hostOut := out } := by
  induction ps with
  | nil => exact fun m => ⟨m.hostOut, rfl⟩
  | cons p ps ih =>
    intro m
    obtain ⟨out, h⟩ := ih (toHost p x m)
    exact ⟨out, h⟩

theorem contains_append_self {α : Type} [DecidableEq α] (xs : List α) (x : α) : (xs ++ [x]).contains x = true := by simp

theorem retireLoc_hbm (pa : Nat) (m : Mach) : (retireLoc (.hbm pa) m).hbm = m.hbm ∧ frameBad (retireLoc (.hbm pa) m) pa = true := by
  unfold retireLoc
  dsimp only
  obtain ⟨out, h⟩ := toHost_foldl (.retired (.hbm pa)) (partsOf m (.hbm pa))
    { m with badFrames := m.badFrames ++ [pa / 65536], failing := m.failing.filter fun f => decide (f ≠ .hbm pa) }
  rw [h]
  exact ⟨rfl, contains_append_self _ _⟩

theorem retireLoc_vault (c off : Nat) (m : Mach) : (retireLoc (.vault c off) m).vault = m.vault ∧ blockBad (retireLoc (.vault c off) m) (vaultKey c off) = true := by
  unfold retireLoc
  dsimp only
  obtain ⟨out, h⟩ := toHost_foldl (.retired (.vault c off)) (partsOf m (.vault c off))
    { m with badBlocks := m.badBlocks ++ [vaultKey c off / 4096], failing := m.failing.filter fun f => decide (f ≠ .vault c off) }
  rw [h]
  exact ⟨rfl, contains_append_self _ _⟩

/-! ## Extended blocks -/

theorem exec_xacqGrant (w : Nat) (s : State) : exec (.xacqGrant w) s = eventStep (fun m => if (m.wg w).status = .running then grantExt w m else m) s := rfl

theorem xacqGrant_acts (w g : Nat) (rest : List Nat) : Says.Acts (.xacqGrant w)
    (fun m => (m.wg w).status = .running ∧ (m.wg w).xacqQ = g :: rest ∧ (m.wg w).xcount < (m.block w).xmax)
    (fun m => (m.modG w g fun y => { y.dropExt with extHeld := true, extPending := false, outs := y.outs.filter fun o => !(isXacq o) }).modW w fun z => { z with xacqQ := rest }) := by
  refine acts (exec_xacqGrant w) fun m ⟨hrunning, hqueue, hroom⟩ => ?_
  simp only [hrunning, if_true, grantExt, hqueue, hroom]

theorem xregDeadlockDetect_acts (w g n : Nat) (o : Out) (r : Run) : Says.Acts (.xregDeadlockDetect w g)
    (fun m => waitsForExt (m.grp w g) = some o ∧ standsAtQu (m.grp w g) = some r ∧ deadlockAt m w g = some n ∧ wgActive (m.wg w) = true)
    (fun m => enterTrap w g ⟨o.irec, ⟨.xregDeadlock, o.irec.lanes, 0, BitVec.ofNat 64 (n % 16 + 2 ^ 16 * ((extHolders m w).foldl (fun a j => a + 2 ^ j) 0))⟩, 0xFF,
      r.hdrAddr, r.lanes &&& (m.grp w g).live, .wait, none⟩ m) := by
  refine acts (fun _ => rfl) fun m ⟨hwaits, hstands, hdead, hactive⟩ => ?_
  simp only [deadlockDetect, hwaits, hstands, hdead, hactive, if_true]

/-! ## REORDER -/

/-- Every group with a live thread has arrived at a REORDER, the first of them at `q`. -/
def ReorderArrived (w g0 : Nat) (gs : List Nat) (q : ReorderReq) (m : Mach) : Prop :=
  ((m.wg w).groupIds.filter fun j => decide ((m.grp w j).live ≠ 0)) = g0 :: gs ∧ wgActive (m.wg w) = true ∧
    (∀ j ∈ g0 :: gs, (reorderOf (m.grp w j)).isSome = true ∧ accessesLeft m w j = false) ∧ reorderOf (m.grp w g0) = some q

/-- All groups name one size of keys and one mask. -/
def ReorderAgrees (w g0 : Nat) (gs : List Nat) (q : ReorderReq) (m : Mach) : Prop :=
  ∀ j ∈ g0 :: gs, (reorderOf (m.grp w j)).map (fun e => (e.wide, e.mask)) = some (q.wide, q.mask)

section
variable {w g0 : Nat} {gs : List Nat} {q : ReorderReq} {m : Mach} (ha : ReorderArrived w g0 gs q m)
include ha

theorem reorderArrived_all : ((g0 :: gs).all fun j => (reorderOf (m.grp w j)).isSome && !(accessesLeft m w j)) = true := by
  obtain ⟨_, _, harrived, _⟩ := ha
  rw [List.all_eq_true]
  intro j hj
  rw [(harrived j hj).1, (harrived j hj).2]
  rfl

omit ha in
theorem reorderAgrees_iff : ((g0 :: gs).any fun j => decide ((reorderOf (m.grp w j)).map (fun e => (e.wide, e.mask)) ≠ some (q.wide, q.mask))) = false ↔
    ReorderAgrees w g0 gs q m := by
  simp only [List.any_eq_false, decide_eq_true_eq, not_not, ReorderAgrees]

theorem reorderComplete_moves (hs : ReorderAgrees w g0 gs q m) : reorderComplete w m =
    let ms := sortBy (fun a b => decide (a.key ≤ b.key)) (movers m w (g0 :: gs))
    (m.wg w).groupIds.foldl (fun acc j => standAt w j (pastReorder m w j (pastReorder m w g0 0)) (reordered m w q.mask ms j).live (acc.modG w j fun _ => reordered m w q.mask ms j)) m := by
  have hall := reorderArrived_all ha
  obtain ⟨hgroups, hactive, _, hfirst⟩ := ha
  simp only [reorderComplete, hgroups, hall, hactive, hfirst, Option.map_some, Option.getD_some, reorderAgrees_iff.2 hs, Bool.false_eq_true, if_false]

theorem reorderComplete_traps (hs : ¬ ReorderAgrees w g0 gs q m) : reorderComplete w m = (g0 :: gs).foldl (fun acc j => reorderTrap w j acc) m := by
  have hany := Bool.eq_true_of_not_eq_false (mt reorderAgrees_iff.1 hs)
  have hall := reorderArrived_all ha
  obtain ⟨hgroups, hactive, _, hfirst⟩ := ha
  simp only [reorderComplete, hgroups, hall, hactive, hfirst, Option.map_some, hany, if_true]

end

section
variable {w g0 : Nat} {gs : List Nat} {q : ReorderReq}

theorem reorderComplete_acts_move : Says.Acts (.reorderComplete w) (fun m => ReorderArrived w g0 gs q m ∧ ReorderAgrees w g0 gs q m) (fun m =>
    let ms := sortBy (fun a b => decide (a.key ≤ b.key)) (movers m w (g0 :: gs))
    (m.wg w).groupIds.foldl (fun acc j => standAt w j (pastReorder m w j (pastReorder m w g0 0)) (reordered m w q.mask ms j).live (acc.modG w j fun _ => reordered m w q.mask ms j)) m) :=
  acts (fun _ => rfl) fun _ hm => reorderComplete_moves hm.1 hm.2

theorem reorderComplete_acts_trap : Says.Acts (.reorderComplete w) (fun m => ReorderArrived w g0 gs q m ∧ ¬ ReorderAgrees w g0 gs q m)
    (fun m => (g0 :: gs).foldl (fun acc j => reorderTrap w j acc) m) :=
  acts (fun _ => rfl) fun _ hm => reorderComplete_traps hm.1 hm.2

end

/-! ## The statement -/

/-- Settles O49: each step by the lemma about it above, in the order of the statement. -/
theorem coreSteps : Obligations.CoreSteps := by
  intro w g
  refine ⟨?fetch, ?grant, ?wait, ?land, ?command, ?flush, ?walk, ?retry, ?ext, ?deadlock, ?reorder⟩
  case fetch =>
    exact fun r ws => ⟨clauseFetch_noHeader, fun _ => clauseFetch_badHeader, fun _ => clauseFetch_noWord, fun _ => clauseFetch_badWord, fun _ => clauseFetch_issues,
      fun _ => clauseFetch_waits, fun _ => clauseFetch_leaves⟩
  case grant =>
    exact fun core slot hs => ⟨fun m e es => best_min m slot es e, issueSlotGrant_resumes hs, fun e => ⟨issueSlotGrant_starts hs e, issueSlotGrant_halts hs e⟩⟩
  case wait => exact fun r => ⟨waitPointRelease_takes, waitPointRelease_goesOn⟩
  case land => exact ⟨acts (fun _ => rfl) fun _ _ => rfl, landDue_laws⟩
  case command =>
    intro id o found now
    refine ⟨?sfu, ?fpException, ?fence, ?waitw, ?waitwLane, ?commit, ?remote⟩
    case sfu => exact fun ws conds hk => sfuResultLanding_lands hk
    case fpException => exact fun ws exc conds hk hx => sfuResultLanding_fails hk hx
    case fence => exact fun ord sc ls acqd hk => ⟨fenceComplete_acts_end hk, fenceComplete_acts_wait hk⟩
    case waitw => exact fun n dst sc lanes hk => ⟨waitwReturn_acts_return hk, waitwReturn_acts_wait hk⟩
    case waitwLane => exact fun m a pl ha hp => waitwLane_reads ha hp
    case commit =>
      exact fun l q => ⟨gcommitGrant_acts_aborted, fun p => ⟨gcommitGrant_acts_performs, gcommitGrant_acts_plain, gcommitGrant_acts_broken⟩⟩
    case remote => exact fun s hr hs hf hrem hp => remoteAccessTimeout_fails hr hs hf hrem hp
  case flush => exact fun core line => acts (fun _ => rfl) fun _ _ => rfl
  case walk =>
    exact fun p c va k x => ⟨pageWalkStart_acts p c va, fun _ _ _ => askWalk_new,
      fun t => ⟨pageWalkComplete_acts_cores, pageWalkComplete_acts_die, pageWalkComplete_acts_fault⟩, fun t cap pick es => tlbPut_law p c va t cap pick es⟩
  case retry => exact fun loc => ⟨memoryReadRetry_acts_pass loc, memoryReadRetry_acts_fail loc, retireLoc_hbm, retireLoc_vault⟩
  case ext => exact xacqGrant_acts w g
  case deadlock => exact fun o r n => xregDeadlockDetect_acts w g n o r
  case reorder => exact fun g0 gs q => ⟨fun ms => ⟨sort_perm _ ms, sort_sorted ms⟩, reorderComplete_acts_move, reorderComplete_acts_trap⟩

end Sys2Proof.Proofs
end

section
/-! The family '06_issue_control.md': control transfers to targets that are no headers, YIELD and the software traps, system registers and TRACEMARK, what reset
leaves. -/

namespace Sys2Proof.Proofs

open Sys2Proof Sys2Proof.Machine Sys2Proof.Laws

/-! ## What reset leaves (R111, R427, R428) -/

/-- Settles O60: every table of a device right after reset is empty, its memories among them, and no firmware runs. -/
theorem resetState : Obligations.ResetState :=
  ⟨rfl, rfl, rfl, rfl, rfl, rfl, fun _ => ⟨rfl, rfl, rfl⟩, rfl, rfl, rfl, fun running => Bool.noConfusion running⟩

/-! ## Targets that are no headers (R72, R104, R106) -/

theorem targetAt_unaligned {m : Mach} {w : Nat} {ret : Bool} {t : DWord} (h : t.toNat % 4 ≠ 0) : targetAt m w ret t = .error .branchTarget := by
  unfold targetAt headerAt
  rw [if_pos h]
  exact ite_self _

theorem targetAt_ret_high {m : Mach} {w : Nat} {t : DWord} (h : 2 ^ 52 ≤ t.toNat) : targetAt m w true t = .error .branchTarget :=
  if_pos (decide_eq_true h)

/-- Settles O26: each of the four is a transfer, which traps for its first bad target (`transfer_trap`); CALL would write its link only with the move. -/
theorem badTargetTraps : Obligations.BadTargetTraps := by
  intro off a gd traps
  refine ⟨?bra, ?call, ?brx, ?ret, ?target⟩
  case bra => exact transfer_trap (i := .bra off gd) (tgt := fun pc _ _ => pc + (off.signExtend 64 <<< 2)) (also := fun _ => id) fun _ => rfl
  case call =>
    exact transfer_trap (i := .call off gd) (tgt := fun pc _ _ => pc + (off.signExtend 64 <<< 2)) (also := fun x => writeNow x ((lanesOf x.eff).flatMap fun l =>
      [.reg 30 l ((x.pc + 4).extractLsb' 0 32), .reg 31 l ((x.pc + 4).extractLsb' 32 32)])) fun _ => rfl
  case brx => exact transfer_trap (i := .brx a gd) (tgt := fun pc y l => pc + (y.reg a.toNat l).signExtend 64) (also := fun _ => id) fun _ => rfl
  case ret => exact transfer_trap (i := .ret a gd) (tgt := fun _ y l => y.pair a.toNat l) (also := fun _ => id) fun _ => rfl
  case target => exact fun m w t => ⟨fun h _ => targetAt_unaligned h, targetAt_ret_high⟩

/-! ## YIELD, TRAP, BKPT and TRAPRET (R107, R108, R375, R395) -/

section Yields

variable {i : Instr} {w g : Nat} {s : State}

/-- Outside regions the own part of an instruction that R344 forbids in them is performed, whether or not some lane takes effect. -/
theorem noRegion_clear (own : Iss → Mach → Own) (hn : Says.NoRegion i w g s) :
    noRegion own (mkIss i w g (settle w g s.m)) (Says.begun i w g s) = own (mkIss i w g (settle w g s.m)) (Says.begun i w g s) :=
  if_neg (Bool.eq_false_iff.1 (inRegion_none hn))

/-- Outside regions and serial sections the own part of a YIELD, TRAP or BKPT that takes effect is performed. -/
theorem guarded_noRegionNoSerial (own : Iss → Mach → Own) (h : Says.eff i w g s ≠ 0 ∧ Says.NoRegion i w g s ∧ (Says.reads w g s).lser = none) :
    guarded (noRegionNoSerial own) (mkIss i w g (settle w g s.m)) (Says.begun i w g s) = own (mkIss i w g (settle w g s.m)) (Says.begun i w g s) := by
  obtain ⟨heff, hregion, hserial⟩ := h
  rw [guarded_eff _ heff]
  exact (if_neg (Bool.eq_false_iff.1 (inRegion_none hregion))).trans (if_neg (Bool.eq_false_iff.1 (inSerial_none hserial)))

theorem begun_trapMode_some (h : (Says.reads w g s).trapMode ≠ none) : ((Says.begun i w g s).grp w g).trapMode.isSome = true := by
  rw [begun_reads]
  exact Option.isSome_iff_ne_none.2 h

theorem begun_trapMode_none (h : (Says.reads w g s).trapMode = none) : ¬ ((Says.begun i w g s).grp w g).trapMode.isSome = true := by
  rw [begun_reads, h]
  exact Bool.false_ne_true

end Yields

/-- Settles O29: outside regions and serial sections each own part is performed (`guarded_noRegionNoSerial`, `noRegion_clear`), and it branches on trap mode or on
halt-on-breakpoint. -/
theorem yieldsAndTraps : Obligations.YieldsAndTraps := by
  intro code st gd ok slot soft
  refine ⟨?yield_, ?yieldTrapped, ?yieldWg, ?trap, ?bkptTraps, ?bkptHalts, ?returns, ?privilege⟩
  case yield_ => exact ends _ (fun _ => rfl) fun w g s h => guarded_noRegionNoSerial slotYieldOwn h
  case yieldTrapped =>
    exact ends _ (fun _ => rfl) fun w g s ⟨h, hmode⟩ => (guarded_noRegionNoSerial _ h).trans (if_pos (begun_trapMode_some hmode))
  case yieldWg =>
    exact ends _ (fun _ => rfl) fun w g s ⟨h, hmode⟩ => (guarded_noRegionNoSerial _ h).trans (if_neg (begun_trapMode_none hmode))
  case trap => exact fun w g s hready h => execute_placed hready (guarded_noRegionNoSerial (softTrap (.trap code gd) .software code.toNat) h)
  case bkptTraps =>
    exact fun w g s hready h harmed => execute_placed hready ((guarded_noRegionNoSerial _ h).trans (if_neg (Bool.eq_false_iff.1 harmed)))
  case bkptHalts => exact ends _ (fun _ => rfl) fun w g s ⟨h, harmed⟩ => (guarded_noRegionNoSerial _ h).trans (if_pos harmed)
  case returns => exact fun w g s hready hn hmode => execute_placed hready ((noRegion_clear _ hn).trans (if_pos (begun_trapMode_some hmode)))
  case privilege =>
    exact fun w g s hready hn hmode => traps _ (fun _ => rfl) hready ((noRegion_clear _ hn).trans (if_neg (begun_trapMode_none hmode)))

/-! ## GETS (R111 to R113) -/

section Gets

variable {d l v r : Nat}

theorem laneOf_regWritesOf {n : Nat} {u : LaneWrite} (h : u ∈ regWritesOf d n l v) : laneOf u = l := by
  obtain ⟨_, _, rfl⟩ := List.mem_map.1 h
  rfl

theorem predAfter_regWritesOf (k n : Nat) (x : Bool) : predAfter k (regWritesOf d n l v) x = x :=
  predAfter_none _ _ _ fun _ _ _ h => by simp [regWritesOf] at h

theorem flagsAfter_regWritesOf (k n : Nat) (x : Word) : flagsAfter k (regWritesOf d n l v) x = x :=
  flagsAfter_none _ _ _ fun _ _ h => by simp [regWritesOf] at h

/-- One register or, of a register of more than 32 bits, a pair with the low word in the first (R113). -/
theorem regAfter_regWritesOf (two : Bool) (x : Word) : regAfter (32 * r + l) (regWritesOf d (if two then 2 else 1) l v) x =
    if two = true ∧ r = d + 1 then BitVec.ofNat 32 (v / 2 ^ 32) else if r = d then BitVec.ofNat 32 v else x := by
  cases two
  · simp [regWritesOf, regAfter_reg]
  · simp [regWritesOf, List.range_succ, regAfter_reg]

end Gets

/-- The registers of R111 that have more than 32 bits. -/
def wideSreg : SReg → Bool
  | .cont | .trappc | .trapinfo | .cycle => true
  | _ => false

theorem sregRegs_eq (sr : SReg) : sregRegs sr = if wideSreg sr then 2 else 1 := by
  cases sr <;> rfl

/-- GETS lands its register's value, as the lane sees it at issue, in every lane that takes effect. -/
theorem gets_lands (d : Reg) (sr : SReg) (gd : Guard) {w g : Nat} {s : State} (hready : Says.Ready (.gets d sr gd) w g s) :
    ∃ t, exec (.gets d sr gd) s = .next t ∧ Says.Kept w g s t ∧ (∀ p l, l < 32 → Says.pred w g t p l = Says.pred w g s p l) ∧
      (∀ l, l < 32 → Says.flags w g t l = Says.flags w g s l) ∧ ∀ r l, l < 32 → Says.reg w g t r l =
        if (Says.eff (.gets d sr gd) w g s).getLsbD l = false then Says.reg w g s r l
        else if wideSreg sr = true ∧ r = d.toNat + 1 then BitVec.ofNat 32 (sregVal (Says.begun (.gets d sr gd) w g s) w g l sr / 2 ^ 32)
        else if r = d.toNat then BitVec.ofNat 32 (sregVal (Says.begun (.gets d sr gd) w g s) w g l sr) else Says.reg w g s r l := by
  obtain ⟨t, hexec, hkept, hlands⟩ := later_gives (n := 2) (fl := false)
    (own := fun x m => .done 0 (later 2 x ((lanesOf x.eff).flatMap fun l => regWritesOf d.toNat (sregRegs sr) l (sregVal m x.w x.g l sr)) m))
    (ws := fun l => regWritesOf d.toNat (sregRegs sr) l (sregVal (Says.begun (.gets d sr gd) w g s) w g l sr)) hready (fun _ _ => laneOf_regWritesOf) rfl
  refine ⟨t, hexec, hkept, fun p l hl => ?pred, fun l hl => ?flags, fun r l hl => ?reg⟩
  case pred => rw [(hlands l hl).2.1, predAfter_regWritesOf, ite_self]
  case flags => rw [(hlands l hl).2.2, flagsAfter_regWritesOf, ite_self]
  case reg =>
    rw [(hlands l hl).1, sregRegs_eq, regAfter_regWritesOf]
    cases (Says.eff (.gets d sr gd) w g s).getLsbD l <;> rfl

/-- Settles O31: GETS lands what `sregVal` gives (`gets_lands`), which is R111's table, of the group as the instruction reads it. -/
theorem systemRegisterReads : Obligations.SystemRegisterReads := by
  intro d sr gd w g s i m x y b val wide hready
  have hval : ∀ l, sregVal m w g l sr = val l := by
    intro l
    have hy : m.grp w g = y := begun_reads i w g s
    clear_value y
    subst hy
    cases sr <;> rfl
  have hwide : wideSreg sr = wide := by cases sr <;> rfl
  obtain ⟨t, hexec, hkept, hpreds, hflags, hregs⟩ := gets_lands d sr gd hready
  refine ⟨t, hexec, hkept, hpreds, hflags, fun r l hl => ?_⟩
  simp only [← hval, ← hwide]
  exact hregs r l hl

/-! ## SETS, SETCONT, CCTL and TRACEMARK (R110, R113, R114, R403, R404) -/

section Writes

variable {a : Reg} {sr : SReg} {x : Iss} {m : Mach} {y : Group}

/-- Some lane writes a reserved bit of the register (R113). -/
theorem reservedBits_iff {ls : List Nat} : (ls.any fun l => decide (y.reg a.toNat l &&& sregReserved sr ≠ 0)) = true ↔
    ¬ ∀ l ∈ ls, y.reg a.toNat l &&& sregReserved sr = 0 := by
  simp

variable (hy : m.grp x.w x.g = y)
include hy

theorem setsOwn_privilege (h : setsAllowed y sr = false) : setsOwn a sr x m = trapEff x .privilege m := by
  subst hy
  exact if_pos h

theorem setsOwn_reserved (h : setsAllowed y sr = true) (hb : ¬ ∀ l ∈ lanesOf x.eff, y.reg a.toNat l &&& sregReserved sr = 0) :
    setsOwn a sr x m = trapEff x .reservedField m := by
  subst hy
  exact (if_neg (ne_false_of_eq_true h)).trans (if_pos (reservedBits_iff.2 hb))

/-- SETS past its traps writes %trappc from the lowest lane, or the register of each lane. -/
theorem setsOwn_writes (h : setsAllowed y sr = true) (hb : ∀ l ∈ lanesOf x.eff, y.reg a.toNat l &&& sregReserved sr = 0) : setsOwn a sr x m =
    if sr = .trappc then .done 0 (m.modG x.w x.g fun z => { z with trapPc := z.pair a.toNat (lowLaneD x.eff) })
    else .done 0 (m.modG x.w x.g fun z => (lanesOf x.eff).foldl (fun acc l => acc.setSreg sr l (acc.reg a.toNat l)) z) := by
  subst hy
  exact (if_neg (ne_false_of_eq_true h)).trans (if_neg fun hr => reservedBits_iff.1 hr hb)

end Writes

/-- The registers that SETS may write in any mode are three per-thread ones; %trappc it may write in trap mode (R111). -/
theorem setsAllowed_false {y : Group} {sr : SReg} (hm : sr ≠ .trapmask) (hf : sr ≠ .fpflags) (hp : sr ≠ .fpmode) (ht : sr = .trappc → y.trapMode = none) :
    setsAllowed y sr = false := by
  cases sr
  case trapmask => exact absurd rfl hm
  case fpflags => exact absurd rfl hf
  case fpmode => exact absurd rfl hp
  case trappc => exact congrArg Option.isSome (ht rfl)
  all_goals rfl

theorem setsAllowed_trappc {y : Group} (h : y.trapMode ≠ none) : setsAllowed y .trappc = true := Option.isSome_iff_ne_none.2 h

/-- SETCONT to a header with YP = 1. -/
theorem setcontOwn_sets {off : BitVec 19} {live : BitVec 13} {x : Iss} {m : Mach} {h : Word} (hyp : h.getLsbD 7 = true)
    (hw : targetWaits m x.w (x.pc + (off.signExtend 64 <<< 2)) = false) (ht : targetAt m x.w false (x.pc + (off.signExtend 64 <<< 2)) = .ok h) :
    setcontOwn off live x m = .done 0 (m.modW x.w fun z => { z with cont := x.pc + (off.signExtend 64 <<< 2), contlive := live }) := by
  have hbit : bits h 7 1 = 1 := by
    apply BitVec.eq_of_getLsbD_eq
    intro j hj
    obtain rfl : j = 0 := by omega
    simp [bits, hyp]
  unfold setcontOwn
  simp only [hw, ht, hbit, Bool.false_eq_true, if_false, if_true]

/-- A SETS of register `sr` that breaks no rule of R113 and is not of %trappc writes the register of each lane that takes effect. -/
theorem sets_eachLane {a : Reg} {sr : SReg} {gd : Guard} (ha : ∀ y, setsAllowed y sr = true) (hn : sr ≠ .trappc) :
    Says.Ends (.sets a sr gd) (fun w g s => Says.Free (.sets a sr gd) w g s ∧
        ∀ l ∈ lanesOf (Says.eff (.sets a sr gd) w g s), (Says.reads w g s).reg a.toNat l &&& sregReserved sr = 0) (fun _ _ _ => 0)
      fun w g s m => m.modG w g fun y => (lanesOf (Says.eff (.sets a sr gd) w g s)).foldl (fun y l => y.setSreg sr l (y.reg a.toNat l)) y :=
  ends_free (setsOwn a sr) (fun _ => rfl) fun w g s hb => (setsOwn_writes (begun_reads _ w g s) (ha _) hb).trans (if_neg hn)

/-- A SETS that writes a reserved bit of a per-thread register. -/
theorem sets_reserved {a : Reg} {sr : SReg} {gd : Guard} {w g : Nat} {s : State} (ha : ∀ y, setsAllowed y sr = true) (hready : Says.Ready (.sets a sr gd) w g s)
    (h : Says.Free (.sets a sr gd) w g s)
    (hb : ¬ ∀ l ∈ lanesOf (Says.eff (.sets a sr gd) w g s), (Says.reads w g s).reg a.toNat l &&& sregReserved sr = 0) :
    Says.Traps (.sets a sr gd) w g s .reservedField (freeInfo (Says.begun (.sets a sr gd) w g s)) (Says.eff (.sets a sr gd) w g s) 0 :=
  traps _ (fun _ => rfl) hready ((guarded_noRegion' (setsOwn a sr) h).trans (setsOwn_reserved (begun_reads _ w g s) (ha _) hb))

/-- Settles O32: SETS by the register it names (`setsOwn_privilege`, `sets_reserved`, `sets_eachLane`), SETCONT at a header with YP = 1 (`setcontOwn_sets`), CCTL and
TRACEMARK outside regions (`noRegion_clear`). -/
theorem systemRegisterWrites : Obligations.SystemRegisterWrites := by
  intro a sr off en last first mark st gd i c t ok bits dest each
  refine ⟨?trapmask, ?fpflags, ?fpmode, ?trappc, ?privilege, ?reserved, ?setcont, ?cctlOff, ?cctlOn, ?unmarked, ?marked, ?halted⟩
  case trapmask => rintro rfl; exact sets_eachLane (fun _ => rfl) nofun
  case fpflags => rintro rfl; exact sets_eachLane (fun _ => rfl) nofun
  case fpmode => rintro rfl; exact sets_eachLane (fun _ => rfl) nofun
  case trappc =>
    rintro rfl
    exact ends_free (setsOwn a .trappc) (fun _ => rfl) fun w g s hmode =>
      (setsOwn_writes (begun_reads i w g s) (setsAllowed_trappc hmode) fun _ _ => BitVec.and_zero).trans (if_pos rfl)
  case privilege =>
    exact fun hm hf hp w g s hready h ht => traps _ (fun _ => rfl) hready
      ((guarded_noRegion' (setsOwn a sr) h).trans (setsOwn_privilege (begun_reads i w g s) (setsAllowed_false hm hf hp ht)))
  case reserved =>
    rintro w g s hready h (⟨rfl, hb⟩ | ⟨rfl, hb⟩ | ⟨rfl, hb⟩)
    all_goals exact sets_reserved (fun _ => rfl) hready h hb
  case setcont => exact fun h hyp => ends_free _ (fun _ => rfl) fun w g s ⟨hw, ht⟩ => setcontOwn_sets hyp hw ht
  case cctlOff => exact ends _ (fun _ => rfl) fun w g s hn => noRegion_clear _ hn
  case cctlOn => exact ends _ (fun _ => rfl) fun w g s hn => noRegion_clear _ hn
  case unmarked => exact ends _ (fun _ => rfl) fun w g s ⟨hn, hoff⟩ => (noRegion_clear _ hn).trans (if_neg (Bool.eq_false_iff.1 hoff))
  case marked =>
    refine ends _ (fun _ => rfl) fun w g s ⟨hn, hon, hgo⟩ => (noRegion_clear _ hn).trans ((if_pos hon).trans ((if_neg (Bool.eq_false_iff.1 hgo)).trans ?_))
    rw [← begun_reads t w g s]
    rfl
  case halted =>
    refine places _ (fun _ => rfl) fun w g s ⟨hn, hon, hhalt⟩ => (noRegion_clear _ hn).trans ((if_pos hon).trans ((if_pos hhalt).trans ?_))
    rw [modW_modW, ← begun_reads t w g s]
    rfl

end Sys2Proof.Proofs
end

section
/-! The family '07_integer_lane.md': arithmetic, logic and shifts, bits, predicates, pairs, exchange between lanes, reductions, lane-serialise and REORDER. Each own
part is one of a few forms of lane writes (R115), and what a form gives is said once. -/

namespace Sys2Proof.Proofs

open Sys2Proof Sys2Proof.Machine Sys2Proof.Laws

/-! ### The forms of fixed-latency results (R115) -/

section Forms

variable {i : Instr} {d : Reg} {pd : PReg}

theorem gives_intTo {f : Group → Nat → Word} (he : ∀ s, exec i s = execute i (intTo d f) s) : Says.Reg1 i d f :=
  gives_reg1 _ 2 false he fun _ _ => rfl

theorem extractHigh_eq_div (v : DWord) : v.extractLsb' 32 32 = BitVec.ofNat 32 (v.toNat / 2 ^ 32) := by
  rw [BitVec.extractLsb', Nat.shiftRight_eq_div_pow]

theorem gives_intTo64 {f : Group → Nat → DWord} (he : ∀ s, exec i s = execute i (intTo64 d f) s) : Says.Reg2 i d f :=
  gives_reg2 _ 2 false he fun x m => by
    simp only [← extractHigh_eq_div]
    rfl

theorem gives_predTo {f : Group → Nat → Bool} (he : ∀ s, exec i s = execute i (predTo 2 pd f) s) : Says.Pred1 i pd f :=
  gives_pred1 _ 2 false he fun _ _ => rfl

theorem regAfter_one (r d l : Nat) (x v : Word) : regAfter (32 * r + l) [.reg d l x] v = (if r = d then some x else none).getD v := by
  rw [regAfter_reg, regAfter_nil, apply_ite (Option.getD · v)]
  rfl

theorem predAfter_one (p d l : Nat) (x v : Bool) (h7 : p ≠ 7) : predAfter (32 * p + l) [.pred d l x] v = (if p = d then some x else none).getD v := by
  rw [predAfter_pred _ _ _ _ _ _ h7, predAfter_nil, apply_ite (Option.getD · v)]
  rfl

/-- One register, the same in every lane that takes effect, computed from all of these lanes (R129). -/
theorem gives_regFromLanes {f : Mask → Group → Word} (he : ∀ s, exec i s = execute i (fun x m => intTo d (fun _ _ => f x.eff (m.grp x.w x.g)) x m) s) :
    Says.Gives i (fun _ _ => True) (fun e y _ r => if r = d.toNat then some (f e y) else none) (fun _ _ _ _ => none) (fun _ _ _ => 0) :=
  gives _ 2 false (fun e y l => [.reg d.toNat l (f e y)]) he (fun _ _ _ => rfl) (by simp [laneOf]) (fun _ _ _ _ _ => regAfter_one ..) (by simp) (by simp)

/-- One predicate, the same in every lane that takes effect, computed from all of these lanes (R129). -/
theorem gives_predFromLanes {f : Mask → Group → Bool} (he : ∀ s, exec i s = execute i (fun x m => predTo 2 pd (fun _ _ => f x.eff (m.grp x.w x.g)) x m) s) :
    Says.Gives i (fun _ _ => True) (fun _ _ _ _ => none) (fun e y _ p => if p = pd.toNat then some (f e y) else none) (fun _ _ _ => 0) :=
  gives _ 2 false (fun e y l => [.pred pd.toNat l (f e y)]) he (fun _ _ _ => rfl) (by simp [laneOf]) (by simp) (fun _ _ _ _ _ => predAfter_one _ _ _ _ _) (by simp)

/-- One register with its conditions, computed from all the lanes that take effect (R131, R132). -/
theorem gives_fpFromLanes {b : Bool} {f : Mask → Group → Nat → FRes} (he : ∀ s, exec i s = execute i (fun x m => fpDeliver 2 b x ((lanesOf x.eff).map fun l =>
      ⟨l, (to32 d l (f x.eff (m.grp x.w x.g) l)).1, (to32 d l (f x.eff (m.grp x.w x.g) l)).2⟩) m) s) :
    Says.Gives i (fun e y => Says.Quiet e y (f e)) (fun e y l r => if r = d.toNat then some (BitVec.ofNat 32 (f e y l).val) else none) (fun _ _ _ _ => none)
      (fun e y l => BitVec.ofNat 32 (f e y l).flags) :=
  gives_fp 2 b _ (fun e y l => to32 d l (f e y l)) he (fun _ _ h => h) (by simp [to32, laneOf]) (by simp [to32]) (fun _ _ _ _ _ => regAfter_one ..) (by simp [to32])

end Forms

/-! ### Arithmetic (R116, R117, R119) -/

/-- Settles O1: NOP's own part does nothing, and every other writes one register of each lane that takes effect. -/
theorem integerArithmetic : Obligations.IntegerArithmetic := by
  intro d a b lit imm st g
  refine ⟨gives_none _ (fun _ => rfl) fun _ _ => rfl, ?_⟩
  and_intros <;> exact gives_intTo fun _ => rfl

/-! ### Logic and shifts (R117 to R119, R123) -/

theorem shlW_fiveBits (v : Word) (n : BitVec 5) : shlW v n.toNat = v <<< n.toNat := if_pos n.isLt

theorem shrW_fiveBits (v : Word) (n : BitVec 5) : shrW v n.toNat = v >>> n.toNat := if_pos n.isLt

theorem sarW_fiveBits (v : Word) (n : BitVec 5) : sarW v n.toNat = v.sshiftRight n.toNat := if_pos n.isLt

/-- Settles O2: every own part writes one register of each lane that takes effect; the count of LDI's shifts has five bits, so it never reaches the word's end
(`shlW_fiveBits` and its like). -/
theorem integerLogicShift : Obligations.IntegerLogicShift := by
  intro d a b lit n imm st g sl sr sa c
  refine ⟨?and_, ?or_, ?xor_, ?andn, ?not_, ?andi, ?ori, ?xori, ?ldiAnd, ?ldiOr, ?ldiXor, ?shl, ?shr, ?sar, ?rol, ?shli, ?shri, ?sari, ?ldiShl, ?ldiShr, ?ldiSar,
    ?sel⟩
  case ldiShl => simpa only [shlW_fiveBits] using gives_intTo (i := .ldiShl d a n g) fun _ => rfl
  case ldiShr => simpa only [shrW_fiveBits] using gives_intTo (i := .ldiShr d a n g) fun _ => rfl
  case ldiSar => simpa only [sarW_fiveBits] using gives_intTo (i := .ldiSar d a n g) fun _ => rfl
  all_goals exact gives_intTo fun _ => rfl

/-! ### Bits (R117, R126, R127) -/

/-- Settles O3: BITIL3's own part writes a pair of each lane that takes effect, every other one register. -/
theorem bitResults : Obligations.BitResults := by
  intro d a b k g
  refine ⟨?clz, ?popc, ?brev, ?bfx, ?bfi, ?bitil2, ?bitdi3, ?bitil3⟩
  case bitil3 => exact gives_intTo64 fun _ => rfl
  all_goals exact gives_intTo fun _ => rfl

theorem ofBits_cons (b : Bool) (bs : List Bool) : ofBits (b :: bs) = Nat.bit b (ofBits bs) := by
  rw [Nat.bit_val, Nat.add_comm]
  rfl

theorem testBit_ofBits (bs : List Bool) (i : Nat) : (ofBits bs).testBit i = bs[i]?.getD false := by
  induction bs generalizing i with
  | nil => exact Nat.zero_testBit i
  | cons b bs ih =>
    rw [ofBits_cons]
    cases i with
    | zero => exact Nat.testBit_bit_zero b _
    | succ i => rw [Nat.testBit_bit_succ, ih, List.getElem?_cons_succ]

theorem getLsbD_ofBits {n i : Nat} (bs : List Bool) (h : i < n) : (BitVec.ofNat n (ofBits bs)).getLsbD i = bs[i]?.getD false := by
  rw [BitVec.getLsbD_ofNat, testBit_ofBits, decide_eq_true h, Bool.true_and]

/-- Of parts of `c` elements each, put in a row: element `j` of part `i`. -/
theorem getElem?_flatMap_parts {α β : Type} {f : α → List β} {c j : Nat} (hc : ∀ a, (f a).length = c) (hj : j < c) (as : List α) (i : Nat) :
    (as.flatMap f)[c * i + j]? = as[i]?.bind fun a => (f a)[j]? := by
  induction as generalizing i with
  | nil => rfl
  | cons a as ih =>
    rw [List.flatMap_cons]
    cases i with
    | zero => rw [Nat.mul_zero, Nat.zero_add, List.getElem?_append_left (by rwa [hc]), List.getElem?_cons_zero, Option.bind_some]
    | succ i =>
      have past : c * (i + 1) + j - (f a).length = c * i + j := by rw [hc, Nat.mul_succ]; omega
      rw [List.getElem?_append_right (by rw [hc, Nat.mul_succ]; omega), past, ih, List.getElem?_cons_succ]

/-- Of `c` bits for each number below `n`, put in a row, bit `c * i + j` is the `j`-th of those for `i` (R127). -/
theorem getLsbD_interleaved {f : Nat → List Bool} {c n i j m : Nat} (hc : ∀ a, (f a).length = c) (hj : j < c) (hi : i < n) (hm : c * n ≤ m) :
    (BitVec.ofNat m (ofBits ((List.range n).flatMap f))).getLsbD (c * i + j) = (f i)[j]?.getD false := by
  have inside : c * i + j < m :=
    calc c * i + j < c * (i + 1) := by rw [Nat.mul_succ]; omega
      _ ≤ c * n := Nat.mul_le_mul_left c hi
      _ ≤ m := hm
  rw [getLsbD_ofBits _ inside, getElem?_flatMap_parts hc hj, List.getElem?_range hi, Option.bind_some]

theorem brevW_bit (a : Word) {i : Nat} (h : i < 32) : (brevW a).getLsbD i = a.getLsbD (31 - i) := by
  rw [brevW, getLsbD_ofBits _ h, List.getElem?_map, List.getElem?_range h]
  rfl

theorem morton2_bit (a b : Word) {i j : Nat} (hi : i < 16) (hj : j < 2) : (morton2 a b).getLsbD (2 * i + j) = [a.getLsbD i, b.getLsbD i][j]?.getD false :=
  getLsbD_interleaved (fun _ => rfl) hj hi (by decide)

theorem morton3_bit (x y z : Word) {i j : Nat} (hi : i < 21) (hj : j < 3) :
    (morton3 x y z).getLsbD (3 * i + j) = [x.getLsbD i, y.getLsbD i, z.getLsbD i][j]?.getD false :=
  getLsbD_interleaved (fun _ => rfl) hj hi (by decide)

theorem morton3_top (x y z : Word) : (morton3 x y z).getLsbD 63 = false := by
  rw [morton3, getLsbD_ofBits _ (by decide), List.getElem?_eq_none (by simp)]
  rfl

theorem unmorton3_bit (key : DWord) (k i : Nat) : (unmorton3 key k).getLsbD i = (decide (i < 21) && key.getLsbD (3 * i + k)) := by
  rw [unmorton3]
  by_cases h : i < 21
  · rw [getLsbD_ofBits _ (by omega), List.getElem?_map, List.getElem?_range h, decide_eq_true h]
    rfl
  · rw [BitVec.getLsbD_ofNat, testBit_ofBits, List.getElem?_eq_none (by simpa using h), decide_eq_false h, Option.getD_none, Bool.and_false, Bool.false_and]

/-- Settles O4: the words are numbers from lists of bits, and their bits the lists' elements (`testBit_ofBits`, `getLsbD_interleaved`). -/
theorem bitPermutations : Obligations.BitPermutations := by
  refine ⟨?brev, ?bitil3, ?top, ?bitdi3, ?bitil2⟩
  case brev => exact fun a i h => brevW_bit a h
  case bitil3 => exact fun x y z i h => ⟨morton3_bit x y z h (j := 0) (by decide), morton3_bit x y z h (j := 1) (by decide), morton3_bit x y z h (j := 2) (by decide)⟩
  case top => exact morton3_top
  case bitdi3 => exact fun key k i _ => unmorton3_bit key k i
  case bitil2 => exact fun a b i h => ⟨morton2_bit a b h (j := 0) (by decide), morton2_bit a b h (j := 1) (by decide)⟩

/-! ### Predicates (R120 to R122, R124, R129) -/

/-- The sum of IADDC, of 33 bits (R124). -/
def carrySum (a b : Reg) (y : Group) (l : Nat) : Nat := (y.reg a.toNat l).toNat + (y.reg b.toNat l).toNat + (y.pred 6 l).toNat

theorem ofNat_carrySum (a b : Reg) (y : Group) (l : Nat) :
    BitVec.ofNat 32 (carrySum a b y l) = y.reg a.toNat l + y.reg b.toNat l + BitVec.ofNat 32 (y.pred 6 l).toNat := by
  rw [carrySum, BitVec.ofNat_add, BitVec.ofNat_add, BitVec.ofNat_toNat, BitVec.ofNat_toNat, BitVec.setWidth_eq, BitVec.setWidth_eq]

/-- The writes of IADDC: the sum's word, and its top bit in p6 (R124). -/
def carryWrites (d a b : Reg) (y : Group) (l : Nat) : List LaneWrite :=
  [.reg d.toNat l (BitVec.ofNat 32 (carrySum a b y l)), .pred 6 l (decide (2 ^ 32 ≤ carrySum a b y l))]

/-- Settles O5: comparisons and PLOP write one predicate of each lane that takes effect, VOTE the same one in all of them, for which the three modes are read one by
one; IADDC writes `carryWrites`. -/
theorem predicateResults : Obligations.PredicateResults := by
  intro cc pd pa pb d a b lit imm st op md g cond logic
  have hcond : ∀ {n : Nat} (u v : BitVec n), icond cc u v = cond u v := fun u v => by cases cc <;> rfl
  have hlogic : ∀ u v, plopVal op u v = logic u v := fun u v => by cases op <;> rfl
  refine ⟨?iset, ?iseti, ?ldiIset, ?iset64, ?plop, ?vote, ?iaddc⟩
  case iset => simpa only [hcond] using gives_predTo (i := .iset cc pd a b g) fun _ => rfl
  case iseti => simpa only [hcond, immWord] using gives_predTo (i := .iseti cc pd a imm st) fun _ => rfl
  case ldiIset => simpa only [hcond] using gives_predTo (i := .ldiIset cc pd a lit g) fun _ => rfl
  case iset64 => simpa only [hcond] using gives_predTo (i := .iset64 cc pd a b g) fun _ => rfl
  case plop => simpa only [hlogic] using gives_predTo (i := .plop op pd pa pb g) fun _ => rfl
  case vote =>
    have fromVotes := fun (f : List Bool → Bool) => gives_predFromLanes (i := .vote md pd pa g) (pd := pd) (f := fun e y => f ((lanesOf e).map (y.pred pa.toNat)))
    cases md
    case any => simpa only [List.any_map, Function.id_comp] using fromVotes (·.any id) fun _ => rfl
    case all => simpa only [List.all_map, Function.id_comp] using fromVotes (·.all id) fun _ => rfl
    case uni => simpa only [List.all_map, Function.comp_def, id] using fromVotes (fun vs => vs.all id || vs.all (! ·)) fun _ => rfl
  case iaddc =>
    refine gives _ 2 false (fun _ => carryWrites d a b) (fun _ => rfl) (fun _ _ _ => rfl) (by simp [carryWrites, laneOf]) (fun e y l r v => ?_)
      (fun e y l p v h7 => predAfter_one _ _ _ _ _ h7) (by simp [carryWrites])
    rw [← ofNat_carrySum]
    exact regAfter_one ..

/-! ### Pairs and RNGX (R125, R137) -/

/-- The writes of RNGX: four registers from `d` up. -/
def fourRegs (d l : Nat) (v : Word × Word × Word × Word) : List LaneWrite := [.reg d l v.1, .reg (d + 1) l v.2.1, .reg (d + 2) l v.2.2.1, .reg (d + 3) l v.2.2.2]

/-- Each of the four registers keeps its own word, for no later write is to the same register. -/
theorem regAfter_fourRegs (r d l : Nat) (v : Word × Word × Word × Word) (x : Word) : regAfter (32 * r + l) (fourRegs d l v) x =
    (if r = d then some v.1 else if r = d + 1 then some v.2.1 else if r = d + 2 then some v.2.2.1 else if r = d + 3 then some v.2.2.2 else none).getD x := by
  simp only [fourRegs, regAfter_reg, regAfter_nil]
  by_cases h0 : r = d
  · simp [h0]
  by_cases h1 : r = d + 1
  · simp [h1]
  by_cases h2 : r = d + 2
  · simp [h2]
  by_cases h3 : r = d + 3
  · simp [h3]
  · simp [h0, h1, h2, h3]

/-- The draw of RNGX from the counter at `a` and the key at `b` (R137). -/
def drawOf (a b : Reg) (y : Group) (l : Nat) : Word × Word × Word × Word :=
  rngx (y.reg a.toNat l) (y.reg (a.toNat + 1) l) (y.reg (a.toNat + 2) l) (y.reg (a.toNat + 3) l) (y.reg b.toNat l) (y.reg (b.toNat + 1) l)

/-- Settles O6: RNGX writes four registers of each lane that takes effect (`regAfter_fourRegs`), every other own part a pair. -/
theorem pairResults : Obligations.PairResults := by
  intro d a b g
  refine ⟨?add64, ?sub64, ?addw64, ?shl64, ?shrl64, ?rngx⟩
  case rngx =>
    exact gives _ 2 false (fun _ y l => fourRegs d.toNat l (drawOf a b y l)) (fun _ => rfl) (fun _ _ _ => rfl) (by simp [fourRegs, laneOf])
      (fun _ _ _ _ _ => regAfter_fourRegs ..) (by simp [fourRegs]) (by simp [fourRegs])
  all_goals exact gives_intTo64 fun _ => rfl

/-! ### Exchange between lanes (R128 to R132) -/

/-- Settles O7: shuffles write one register of each lane that takes effect; BALLOT, GRED and GSCAN compute it from all of these lanes, the last two with conditions
(`gives_fpFromLanes`). -/
theorem laneExchange : Obligations.LaneExchange := by
  intro d a b k pa ex op g xs quiet scan
  refine ⟨?shfl, ?shflx, ?shflup, ?shfldn, ?ballot, ?gred, ?gscan⟩
  case ballot => exact gives_regFromLanes fun _ => rfl
  case gred => exact gives_fpFromLanes (b := redFp op) (f := fun e y _ => redList op 6 (xs e y)) fun _ => rfl
  case gscan => exact gives_fpFromLanes (b := redFp op) (f := scan) fun _ => rfl
  all_goals exact gives_intTo fun _ => rfl

/-! ### The canonical order (R131) -/

/-- Two or more values are split at the largest power of two strictly below their number. -/
theorem redList_split (op : RedOp) (n : Nat) {vs : List Nat} (h : 2 ≤ vs.length) : (redList op (n + 1) vs).val =
    (redOp op (redList op n (vs.take (2 ^ Nat.log2 (vs.length - 1)))).val (redList op n (vs.drop (2 ^ Nat.log2 (vs.length - 1)))).val).val := by
  match vs, h with
  | _ :: _ :: _, _ => rfl

/-- Above a block of 2^k values and a rest that is no longer, that power is the block's size. -/
theorem log2_block_add_pred {k n : Nat} (h0 : 0 < n) (h : n ≤ 2 ^ k) : Nat.log2 (2 ^ k + n - 1) = k := by
  have hk : 0 < 2 ^ k := Nat.two_pow_pos k
  rw [Nat.log2_eq_iff (by omega), Nat.pow_succ]
  omega

/-- Settles O8: the values are split (`redList_split`) at the end of the block (`log2_block_add_pred`). -/
theorem canonicalOrder : Obligations.CanonicalOrder := by
  intro op n k us vs hu hv hn
  have h0 : 0 < vs.length := List.length_pos_of_ne_nil hv
  have hk : 0 < 2 ^ k := Nat.two_pow_pos k
  have hlen : (us ++ vs).length = 2 ^ k + vs.length := by rw [List.length_append, hu]
  refine ⟨?none, ?one, ?split⟩
  case none => cases n <;> rfl
  case one => intro v; cases n <;> rfl
  case split => rw [redList_split op n (by omega), hlen, log2_block_add_pred h0 hn, List.take_left' hu, List.drop_left' hu]

/-! ### Lane-serialise and REORDER (R133 to R136) -/

theorem lowLaneD_of_cons {k : Mask} {l : Nat} {ls : List Nat} (h : lanesOf k = l :: ls) : lowLaneD k = l := by
  rw [lowLaneD, lowLane, h]
  rfl

theorem reorderKeys_eq (two : BitVec 1) (a : Reg) (k : Mask) (y : Group) :
    reorderKeys (decide (two = 1)) a k y = (lanesOf k).map fun l => (l, y.regsVal a.toNat (if two = 1 then 2 else 1) l) := by
  simp only [reorderKeys, decide_eq_true_eq]

/-- Settles O30: past their traps LSER takes the lowest of the active lanes, LSEND the next lane that is to do or none, and REORDER is held with the keys as read at
issue (`reorder_own`, `reorderKeys_eq`). -/
theorem laneSerialiseAndReorder : Obligations.LaneSerialiseAndReorder := by
  intro st a b two i e r quiet run
  refine ⟨?lser, fun z => ?last, fun z l ls => ?next, ?reorder⟩
  case lser =>
    refine ends _ (fun _ => rfl) fun w g s ⟨hout, hquiet, hact⟩ =>
      (if_neg (Bool.eq_false_iff.1 (inSerial_none hout))).trans ((if_neg (Bool.eq_false_iff.1 (inRegion_act hquiet))).trans ?_)
    obtain ⟨l, ls, hlanes⟩ := List.exists_cons_of_ne_nil (lanesOf_ne hact)
    have hissue : lanesOf (mkIss i w g (settle w g s.m)).act = l :: ls := hlanes
    rw [hissue, hlanes, lowLaneD_of_cons hlanes]
    rfl
  case last | next =>
    refine ends _ (fun _ => rfl) fun w g s ⟨hz, htodo, hquiet⟩ => ?_
    dsimp only [mkIss_w, mkIss_g]
    rw [begun_reads, hz, inRegion_act hquiet]
    dsimp only
    rw [htodo]
    rfl
  case reorder =>
    intro w g s hready hquiet y keys hout hmode hlive
    have hy : (Says.begun r w g s).grp w g = y := begun_reads r w g s
    have hkeys : reorderKeys (decide (two = 1)) a (Says.act r w g s) ((Says.begun r w g s).grp w g) = keys := by rw [hy, reorderKeys_eq]
    have hown := reorder_own (wide := decide (two = 1)) (a := a) (b := b) (inRegion_act hquiet) (inSerial_none hout) (hy.symm ▸ hmode) (hy.symm ▸ hlive)
    rw [← hkeys]
    exact (execute_placed hready hown).trans (congrArg (fun m => Host.Outcome.next { s with m := dropSlot w g m }) (modG_congr _ _ _ _ _ rfl))

end Sys2Proof.Proofs
end

section
/-! The family '09_float_conversion.md': results with conditions on FP32 and FP64, packed forms and conversions, the precise trap, special functions, NaN operands. A
lane's writes and conditions take one of a few forms (R115, R156), and what a form gives is said once. -/

namespace Sys2Proof.Proofs

open Sys2Proof Sys2Proof.Machine Sys2Proof.Laws

/-! ### The forms of results with conditions (R156 to R159) -/

theorem regAfter_two (r d e l : Nat) (x z v : Word) :
    regAfter (32 * r + l) [.reg d l x, .reg e l z] v = (if r = e then some z else if r = d then some x else none).getD v := by
  rw [regAfter_reg, regAfter_one]
  split
  · rfl
  · split <;> rfl

/-- Of writes to `n` registers in a row, each register keeps its own. -/
theorem regAfter_consecutive (r d l n : Nat) (v : Nat → Word) (x : Word) :
    regAfter (32 * r + l) ((List.range n).map fun k => .reg (d + k) l (v k)) x = (if d ≤ r ∧ r < d + n then some (v (r - d)) else none).getD x := by
  induction n with
  | zero => rw [if_neg (by omega)]; rfl
  | succ n ih =>
    rw [List.range_succ, List.map_append, regAfter_append, ih, List.map_singleton, regAfter_one]
    by_cases last : r = d + n
    · have inside : d ≤ d + n ∧ d + n < d + (n + 1) := by omega
      rw [last, if_pos rfl, if_pos inside, Nat.add_sub_cancel_left]
      rfl
    · have before : (d ≤ r ∧ r < d + (n + 1)) ↔ (d ≤ r ∧ r < d + n) := by omega
      simp only [if_neg last, before, Option.getD_none]

section Forms

variable {i : Instr} {d : Reg} {pd : PReg}

theorem gives_fpTo32 {f : Group → Nat → FRes} (he : ∀ s, exec i s = execute i (fpLanes fun y l => to32 d l (f y l)) s) : Says.Fp1 i d f :=
  gives_fp 4 true _ (fun _ y l => to32 d l (f y l)) he (fun _ _ quiet => quiet) (by simp [to32, laneOf]) (by simp [to32]) (fun _ _ _ _ _ => regAfter_one ..)
    (by simp [to32])

theorem gives_fpTo64 {f : Group → Nat → FRes} (he : ∀ s, exec i s = execute i (fpLanes fun y l => to64 d l (f y l)) s) : Says.Fp2 i d f :=
  gives_fp 4 true _ (fun _ y l => to64 d l (f y l)) he (fun _ _ quiet => quiet) (by simp [to64, laneOf]) (by simp [to64]) (fun _ _ _ _ _ => regAfter_two ..)
    (by simp [to64])

/-- One predicate with its conditions (R163). -/
theorem gives_fpPred {f : Group → Nat → Bool × Nat} (he : ∀ s, exec i s = execute i (fpLanes fun y l => ([.pred pd.toNat l (f y l).1], (f y l).2)) s) :
    Says.Gives i (fun e y => ∀ l ∈ lanesOf e, (f y l).2 &&& fld (y.mode l) 4 5 = 0) (fun _ _ _ _ => none)
      (fun _ y l p => if p = pd.toNat then some (f y l).1 else none) (fun _ y l => BitVec.ofNat 32 (f y l).2) :=
  gives_fp 4 true _ (fun _ y l => ([.pred pd.toNat l (f y l).1], (f y l).2)) he (fun _ _ quiet => quiet) (by simp [laneOf]) (by simp) (by simp)
    (fun _ _ _ _ _ => predAfter_one _ _ _ _ _)

/-- One register without conditions (R162, R174). -/
theorem gives_plainReg {f : Group → Nat → Word} (he : ∀ s, exec i s = execute i (fpPlain fun y l => [.reg d.toNat l (f y l)]) s) : Says.Reg1 i d f :=
  gives_reg1 _ 4 false he fun _ _ => rfl

/-- Some lane raises an enabled condition: FP_EXCEPTION at issue (R158). -/
theorem traps_fpLanes {f : Group → Nat → List LaneWrite × Nat} {w g : Nat} {s : State} {ls : List Nat} (he : ∀ s, exec i s = execute i (fpLanes f) s)
    (hr : Says.Ready i w g s) (hn : ls ≠ [])
    (hls : (lanesOf (Says.eff i w g s)).filter (fun l => decide (enabledConds (Says.reads w g s) l (f (Says.reads w g s) l).2 ≠ 0)) = ls) :
    Says.Traps i w g s .fpException
      (fpInfo (maskOf ls) (ls.foldl (fun acc l => acc ||| enabledConds (Says.reads w g s) l (f (Says.reads w g s) l).2) 0)) (maskOf ls) 0 := by
  refine traps _ he hr ?_
  have trap := fpDeliver_trap 4 true (mkIss i w g (settle w g s.m)) (f (Says.reads w g s)) (Says.begun i w g s) ls
  rw [mkIss_w, mkIss_g, begun_reads] at trap
  rw [fpLanes, mkIss_w, mkIss_g, begun_reads]
  exact trap hls hn

end Forms

/-! ### FP32 and FP64 (R160, R161, R163, R164) -/

/-- Settles O9: FSET and DSET write a predicate of each lane that takes effect, the operations on FP32 a register, those on FP64 a pair. -/
theorem floatResults : Obligations.FloatResults := by
  intro d a b c rm cc pd g set
  refine ⟨?fadd, ?fsub, ?fmul, ?ffma, ?fmin, ?fmax, ?frnd, ?dadd, ?dsub, ?dmul, ?dfma, ?dmin, ?dmax, ?fset, ?dset⟩
  case fset | dset => exact gives_fpPred fun _ => rfl
  case dadd | dsub | dmul | dfma | dmin | dmax => exact gives_fpTo64 fun _ => rfl
  all_goals exact gives_fpTo32 fun _ => rfl

/-! ### Packed forms and conversions (R160, R162, R168 to R174) -/

/-- WIDEN8's code `k` as an FP32 word (R171). -/
def widenedCode (form : Form8) (a : Reg) (y : Group) (l k : Nat) : Word := BitVec.ofNat 32 (fp32Of (form.decode (fld (y.f32 a l) (8 * k) 8)))

/-- Settles O10: a packed form writes one register, like the conversions to 32 bits, the conversions to 64 bits a pair; FABS, FNEG and FCLASS raise nothing; WIDEN8
writes four registers in a row (`regAfter_consecutive`), NARROW8 its codes and then its residual (`regAfter_two`). -/
theorem packedAndConversions : Obligations.PackedAndConversions := by
  intro d a b c rm wide uns sat inf e prec which g two h
  refine ⟨?hadd2, ?hmul2, ?hfma2, ?cvtfi32, ?cvtfi64, ?cvtif, ?cvtfd, ?cvtdf, ?cvtfh, ?cvthf, ?scalex, ?fabs, ?fneg, ?fclass, ?widen8, ?narrow8⟩
  case cvtfi64 | cvtfd => exact gives_fpTo64 fun _ => rfl
  case fabs | fneg => exact gives_plainReg fun _ => rfl
  case fclass => cases which <;> exact gives_plainReg fun _ => rfl
  case widen8 =>
    exact gives _ 4 false (fun _ y l => (List.range 4).map fun k => .reg (d.toNat + k) l (widenedCode ⟨prec.toNat, uns, inf⟩ a y l k)) (fun _ => rfl)
      (fun _ _ _ => rfl) (by simp [laneOf]) (fun _ _ _ _ _ => regAfter_consecutive ..) (fun _ _ _ _ _ _ => predAfter_none _ _ _ (by simp))
      (fun _ _ _ _ => (flagsAfter_none _ _ _ (by simp)).trans BitVec.or_zero.symm)
  case narrow8 =>
    intro n8
    exact gives_fp 4 true _ (fun _ y l => ([.reg d.toNat l (BitVec.ofNat 32 (n8 y l).1.val), .reg c.toNat l (BitVec.ofNat 32 (n8 y l).2)], (n8 y l).1.flags))
      (fun _ => rfl) (fun _ _ quiet => quiet) (by simp [laneOf]) (by simp) (fun _ _ _ _ _ => regAfter_two ..) (by simp)
  all_goals exact gives_fpTo32 fun _ => rfl

/-! ### The precise trap (R158) -/

/-- Settles O11: FADD's own part delivers lane by lane, so it traps where some lane raises an enabled condition (`traps_fpLanes`). -/
theorem floatTrapPrecise : Obligations.FloatTrapPrecise := by
  intro d a b rm gd w g s i y cond ls hready hsome info
  exact traps_fpLanes (f := fun y l => to32 d l (fp32.add (laneRm y l rm) (y.f32 a l) (y.f32 b l))) (fun _ => rfl) hready hsome rfl

/-! ### The SFU class (R158, R159, R165, R166) -/

/-- What the lanes of `e` hand on: their writes and flags, and the lanes and conditions of a trap at the landing. -/
def sfuKind (e : Mask) (y : Group) (f : Group → Nat → List LaneWrite × Nat) : OutKind :=
  let rs := (lanesOf e).map fun l => (⟨l, (f y l).1, (f y l).2⟩ : LaneFp)
  .sfu (rs.flatMap LaneFp.all) (maskOf ((trapping y rs).map (·.lane))) (trappingConds y (trapping y rs))

theorem sfuLanes_eq (i : Instr) (f : Group → Nat → List LaneWrite × Nat) (x : Iss) (m : Mach) :
    sfuLanes i f x m = .done 0 (handOn i x 3 (sfuKind x.eff (m.grp x.w x.g) f) false m) := rfl

theorem hands_sfu {i : Instr} {f : Group → Nat → List LaneWrite × Nat} (he : ∀ s, exec i s = execute i (sfuLanes i f) s) :
    Says.Hands i 3 (fun _ _ _ => True) (fun w g s => sfuKind (Says.eff i w g s) (Says.reads w g s) f) fun _ _ _ => false :=
  hands _ he fun w g s _ => ⟨0, by rw [sfuLanes_eq, mkIss_w, mkIss_g, begun_reads]; rfl⟩

/-- Settles O12: the own part of each hands on `sfuKind` of its lanes and does nothing else. -/
theorem specialFunctionsHandedOn : Obligations.SpecialFunctionsHandedOn := by
  intro d a b rm gd hands
  have handed : ∀ {i f}, (∀ s, exec i s = execute i (sfuLanes i f) s) → hands i f := hands_sfu
  clear_value hands
  and_intros <;> exact handed fun _ => rfl

/-! ### NaN operands (R157, R161) -/

section NaNs

variable {f : Fmt} {a b : Nat}

/-- The conditions that two operands raise as NaNs: invalid where one of them signals. -/
def nanFlags (f : Fmt) (a b : Nat) : Nat := if f.isSig a || f.isSig b then flInvalid else 0

theorem minMax_nan_left (mx : Bool) (ha : f.isNan a = true) (hb : f.isNan b = false) : f.minMax mx a b = ⟨b, nanFlags f a b⟩ := by
  rw [Fmt.minMax, ha, hb]
  rfl

theorem minMax_nan_right (mx : Bool) (ha : f.isNan a = false) (hb : f.isNan b = true) : f.minMax mx a b = ⟨a, nanFlags f a b⟩ := by
  rw [Fmt.minMax, ha, hb]
  rfl

theorem minMax_nan_both (mx : Bool) (ha : f.isNan a = true) (hb : f.isNan b = true) : f.minMax mx a b = ⟨f.qnan, nanFlags f a b⟩ := by
  rw [Fmt.minMax, ha, hb]
  rfl

theorem nanOf_left (ha : f.isNan a = true) : f.nanOf [a, b] = some ⟨f.quiet a, nanFlags f a b⟩ := by
  rw [Fmt.nanOf, List.find?_cons_of_pos ha, nanFlags, List.any_cons, List.any_cons, List.any_nil, Bool.or_false]

theorem nanOf_right (ha : f.isNan a = false) (hb : f.isNan b = true) : f.nanOf [a, b] = some ⟨f.quiet b, nanFlags f a b⟩ := by
  rw [Fmt.nanOf, List.find?_cons_of_neg (Bool.eq_false_iff.1 ha), List.find?_cons_of_pos hb, nanFlags, List.any_cons, List.any_cons, List.any_nil, Bool.or_false]

theorem add_nan {r : FRes} (rm : RM) (h : f.nanOf [a, b] = some r) : f.add rm a b = r := by
  rw [Fmt.add, h]

end NaNs

theorem fp32_isNan (v : Nat) : (decide (v / 2 ^ 23 % 2 ^ 8 = 255) && decide (v % 2 ^ 23 ≠ 0)) = fp32.isNan v := by
  have fraction : fld v 0 23 = v % 2 ^ 23 := by rw [fld, Nat.pow_zero, Nat.div_one]
  rw [← fraction, ← Bool.decide_and]
  rfl

theorem fp32_isSig (v : Nat) : (fp32.isNan v && decide (v / 2 ^ 22 % 2 = 0)) = fp32.isSig v := rfl

/-- A NaN is made quiet by setting the top bit of its fraction, which a signalling one lacks. -/
theorem fp32_quiet {v : Nat} (h : fp32.isNan v = true) : fp32.quiet v = if fp32.isSig v then v + 2 ^ 22 else v := by
  rw [← fp32_isSig, h, Bool.true_and]
  show (if v / 2 ^ 22 % 2 = 1 then v else v + 2 ^ 22) = _
  rcases Nat.mod_two_eq_zero_or_one (v / 2 ^ 22) with signals | quiet
  · rw [signals]
    rfl
  · rw [quiet]
    rfl

/-- Settles O13: the branches of `minMax`, and `add` of a NaN, which takes the first one made quiet (`nanOf_left`, `nanOf_right`); the statement's tests are those of
the format (`fp32_isNan`, `fp32_isSig`, `fp32_quiet`). -/
theorem nanResults : Obligations.NaNResults := by
  intro x y big rm _ _
  simp only [fp32_isNan, fp32_isSig]
  exact ⟨minMax_nan_left big, minMax_nan_right big, minMax_nan_both big,
    fun hx => fp32_quiet hx ▸ add_nan rm (nanOf_left hx), fun hx hy => fp32_quiet hy ▸ add_nan rm (nanOf_right hx hy)⟩

end Sys2Proof.Proofs
end

section
/-! The family '10_memory_translation.md': loads and stores as they are handed on, misaligned accesses, the scratchpad, prefetches, and how the accesses handed on are
performed. Every own part but a prefetch's is one of two forms, `accessOwn` and `scratchOwn`, and what a form does at issue is said once. -/

namespace Sys2Proof.Proofs

open Sys2Proof Sys2Proof.Machine Sys2Proof.Laws

/-! ### Loads and stores of global memory and of a vault (R175, R195, R196, R198) -/

section Forms

variable {i : Instr} {d : Reg} {sp : MemSpace} {n : Nat} {sext region : Bool} {ea : Group → Nat → Nat} {dreg : Nat} {areg : List Nat}

theorem hands_loadForm (hcls : waitClass i = 0)
    (he : ∀ s, exec i s = execute i (guarded (accessOwn i ⟨sp, n, true, false, region⟩ ea (fun _ _ e => e) (.load sp n sext d .rlx .group) dreg areg)) s) :
    Says.Hands i 0 (fun w g s => Says.Clear i ⟨sp, n, true, false, region⟩ ea w g s ∧ Says.NoRegion i w g s)
      (fun w g s => .load sp n sext d .rlx .group ((Says.accesses i ea w g s).map fun e => ⟨e.1, e.2, 0, 0, none, false⟩)) (fun _ _ _ => false) :=
  load_hands hcls rfl he fun _ _ _ _ _ => rfl

theorem hands_storeForm (hcls : waitClass i = 1)
    (he : ∀ s, exec i s = execute i (guarded (accessOwn i ⟨sp, n, false, true, region⟩ ea (storeData d n) (.store sp n .rlx .group) dreg areg)) s) :
    Says.Hands i 1 (fun w g s => Says.Clear i ⟨sp, n, false, true, region⟩ ea w g s ∧ Says.NoRegion i w g s)
      (fun w g s => .store sp n .rlx .group ((Says.accesses i ea w g s).map fun e => storeData d n (Says.reads w g s) e.1
        ⟨e.1, e.2, 0, 0, none, Says.shared i ⟨sp, n, false, true, region⟩ w g s e.2⟩))
      (fun w g s => Says.turns i ⟨sp, n, false, true, region⟩ ea w g s) :=
  access_hands hcls he fun _ _ _ _ _ => rfl

end Forms

/-- Settles O14: the own part of each is the load's form, with its space, size and addresses. -/
theorem loadsHandedOn : Obligations.LoadsHandedOn := by
  intro d a ofs g load far near
  and_intros <;> exact hands_loadForm rfl fun _ => rfl

/-- Settles O15: the own part of each is the store's form, with its space, size and addresses. -/
theorem storesHandedOn : Obligations.StoresHandedOn := by
  intro d a ofs g store far near
  and_intros <;> exact hands_storeForm rfl fun _ => rfl

/-! ### Misaligned accesses (R176, R179, R192) -/

/-- The instruction traps with MISALIGNED_ACCESS where an address that `ea` gives a lane is no multiple of `n`. -/
def TrapsMisaligned (i : Instr) (n : Nat) (ea : Group → Nat → Nat) : Prop :=
  ∀ w g s, Says.Ready i w g s → ∀ e es, (Says.accesses i ea w g s).filter (fun e => decide (e.2 % n ≠ 0)) = e :: es →
    let ls := maskOf ((e :: es).map (·.1))
    Says.Traps i w g s .misalignedAccess (BitVec.ofNat 64 (ls.toNat + 2 ^ 32 * (e.2 % 2 ^ 32))) ls (BitVec.ofNat 64 e.2)

theorem accessForm_misaligned {i : Instr} {sp : MemSpace} {n : Nat} {rd wr region : Bool} {ea : Group → Nat → Nat} {mk kind dreg areg}
    (he : ∀ s, exec i s = execute i (guarded (accessOwn i ⟨sp, n, rd, wr, region⟩ ea mk kind dreg areg)) s) : TrapsMisaligned i n ea :=
  mis_access he

theorem scratchForm_misaligned {i : Instr} {n : Nat} {a : Reg} {ofs : BitVec 6} {act : List (Nat × Nat) → Iss → Mach → Own}
    (he : ∀ s, exec i s = execute i (scratchOwn n a ofs act) s) : TrapsMisaligned i n fun y l => eaWord y a (ofs.toNat * n) l :=
  mis_scratch he

/-- Settles O16: in both forms of an own part the test of the alignment comes first. -/
theorem misalignedAccessTraps : Obligations.MisalignedAccessTraps := by
  intro d a ofs g traps far near
  refine ⟨?ld16s, ?ld16z, ?ld32, ?ld64, ?ld128, ?st16, ?st32, ?st64, ?st128, ?lds32, ?lds64, ?lds128, ?sts32, ?sts64, ?sts128, ?ldv32, ?ldv128, ?stv32, ?stv128⟩
  case lds32 | lds64 | lds128 | sts32 | sts64 | sts128 => exact scratchForm_misaligned fun _ => rfl
  all_goals exact accessForm_misaligned fun _ => rfl

/-! ### The scratchpad (R177, R178, R197, R305, R308) -/

section Scratchpad

variable {i : Instr} {n : Nat} {d a : Reg} {ofs : BitVec 6} {w g : Nat} {s : State}

/-- The lanes of a scratchpad access at issue, with their addresses. -/
def scratchAccesses (i : Instr) (n : Nat) (a : Reg) (ofs : BitVec 6) (w g : Nat) (s : State) : List (Nat × Nat) :=
  Says.accesses i (fun y l => eaWord y a (ofs.toNat * n) l) w g s

/-- Some lane takes effect, no trap of the scratchpad applies, no strongly ordered access of the group is outstanding. -/
def ScratchClear (i : Instr) (n : Nat) (a : Reg) (ofs : BitVec 6) (w g : Nat) (s : State) : Prop :=
  Says.eff i w g s ≠ 0 ∧ scratchTrap (Says.iss i w g s) (Says.begun i w g s) n (scratchAccesses i n a ofs w g s) = none ∧
    strongPending (Says.begun i w g s) w g = false

/-- The command of a scratchpad load, with the words it has read where it has. -/
def scratchLoad (i : Instr) (n : Nat) (d a : Reg) (ofs : BitVec 6) (v : Option (List LaneWrite)) (w g : Nat) (s : State) : OutKind :=
  .loadScratch n d v ((scratchAccesses i n a ofs w g s).map fun e => ⟨e.1, e.2, 0, 0, none, false⟩)

/-- The command of a scratchpad store, with the data of its lanes. -/
def scratchStore (i : Instr) (n : Nat) (d a : Reg) (ofs : BitVec 6) (w g : Nat) (s : State) : OutKind :=
  .storeScratch n ((scratchAccesses i n a ofs w g s).map fun e => ⟨e.1, e.2, BitVec.ofNat 128 ((Says.reads w g s).regsVal d.toNat (n / 4) e.1), 0, none, false⟩)

theorem ldsOwn_clear (hcls : waitClass i = 2) (h : ScratchClear i n a ofs w g s) : ldsOwn i n d a ofs (Says.iss i w g s) (Says.begun i w g s) =
    if scratchNow (Says.iss i w g s) (scratchLoad i n d a ofs none w g s) (Says.begun i w g s) then
      .done 0 (Says.handed i w g 2 (scratchLoad i n d a ofs (some (scratchVals (Says.begun i w g s) w n d (scratchAccesses i n a ofs w g s))) w g s) false s
        (Says.begun i w g s))
    else .done 0 (scratchPass w g s.m.nextCmd (Says.handed i w g 2 (scratchLoad i n d a ofs none w g s) false s (Says.begun i w g s))) := by
  obtain ⟨hsome, htrap, hstrong⟩ := h
  refine (scratch_own hsome htrap hstrong).trans ?_
  rw [hcls, begun_nextCmd]
  rfl

theorem stsOwn_clear (h : ScratchClear i n a ofs w g s) (hlater : scratchNow (Says.iss i w g s) (scratchStore i n d a ofs w g s) (Says.begun i w g s) = false) :
    stsOwn i n d a ofs (Says.iss i w g s) (Says.begun i w g s) =
      .done 0 (scratchPass w g s.m.nextCmd (Says.handed i w g 8 (scratchStore i n d a ofs w g s) false s (Says.begun i w g s))) := by
  obtain ⟨hsome, htrap, hstrong⟩ := h
  refine (scratch_own hsome htrap hstrong).trans ?_
  rw [begun_nextCmd, mkIss_w, mkIss_g, begun_reads]
  exact if_neg (Bool.eq_false_iff.1 hlater)

theorem hands_scratchLoad (hcls : waitClass i = 2) (he : ∀ s, exec i s = execute i (ldsOwn i n d a ofs) s) :
    Says.Hands i 2 (fun w g s => ScratchClear i n a ofs w g s ∧ scratchNow (Says.iss i w g s) (scratchLoad i n d a ofs none w g s) (Says.begun i w g s) = true)
      (fun w g s => scratchLoad i n d a ofs (some (scratchVals (Says.begun i w g s) w n d (scratchAccesses i n a ofs w g s))) w g s) fun _ _ _ => false :=
  hands _ he fun _ _ _ ⟨hclear, hnow⟩ => ⟨0, (ldsOwn_clear hcls hclear).trans (if_pos hnow)⟩

theorem ends_scratchLoad (hcls : waitClass i = 2) (he : ∀ s, exec i s = execute i (ldsOwn i n d a ofs) s) :
    Says.Ends i (fun w g s => ScratchClear i n a ofs w g s ∧ scratchNow (Says.iss i w g s) (scratchLoad i n d a ofs none w g s) (Says.begun i w g s) = false)
      (fun _ _ _ => 0) (fun w g s m => scratchPass w g s.m.nextCmd (Says.handed i w g 2 (scratchLoad i n d a ofs none w g s) false s m)) :=
  scratch_later he fun _ _ _ ⟨hclear, hlater⟩ => (ldsOwn_clear hcls hclear).trans (if_neg (Bool.eq_false_iff.1 hlater))

theorem ends_scratchStore (he : ∀ s, exec i s = execute i (stsOwn i n d a ofs) s) :
    Says.Ends i (fun w g s => ScratchClear i n a ofs w g s ∧ scratchNow (Says.iss i w g s) (scratchStore i n d a ofs w g s) (Says.begun i w g s) = false)
      (fun _ _ _ => 0) (fun w g s m => scratchPass w g s.m.nextCmd (Says.handed i w g 8 (scratchStore i n d a ofs w g s) false s m)) :=
  scratch_later he fun _ _ _ ⟨hclear, hlater⟩ => stsOwn_clear hclear hlater

end Scratchpad

/-- Settles O17: a load is handed on with its words or without them (`ldsOwn_clear`), a store is performed at issue (`store_issue`) or handed on (`stsOwn_clear`). -/
theorem scratchpadAccesses : Obligations.ScratchpadAccesses := by
  intro d a ofs g near ok lanes stored now load store
  refine ⟨?lds32, ?lds64, ?lds128, ?sts32, ?sts64, ?sts128⟩
  case lds32 | lds64 | lds128 => exact ⟨hands_scratchLoad rfl fun _ => rfl, ends_scratchLoad rfl fun _ => rfl⟩
  all_goals exact ⟨store_issue fun _ => rfl, ends_scratchStore fun _ => rfl⟩

/-! ### Prefetches (R200, R353) -/

/-- Settles O18: what a prefetch's own part does keeps workgroups and memories (`pref_next`). -/
theorem prefetchChangesNoData : Obligations.PrefetchChangesNoData := by
  intro a ofs gd tlb w g s
  cases tlb
  case false => exact fun hr hd hn hs => pref_next (i := .pref a ofs gd) (fun _ => rfl) w g s hr hd hn hs
  case true => exact fun hr hd hn hs => pref_next (i := .prefTlb a ofs gd) (fun _ => rfl) w g s hr hd hn hs

/-! ### How accesses are performed (R190, R193, R195, R196, R300, R307, R331) -/

section Performed

variable {w g id n : Nat} {o : Out} {m : Mach} {sp : MemSpace} {sext cm : Bool} {ord : Order} {sc : Scope} {lanes : List LaneAcc}

/-- The machine in which a command's lanes are performed: their translations have been touched, and where it releases, the core's lines are flushed. -/
def readied (w g : Nat) (o : Out) (m : Mach) : Mach :=
  if hasRel (actsOrder (touchLanes w o m) ⟨w, g, o⟩).1 then flushAll ((touchLanes w o m).wg w).core (touchLanes w o m) else touchLanes w o m

/-- A command's results land and what it orders is done. -/
def landed (w g id : Nat) (o : Out) (r : List LaneWrite × Mach) (m : Mach) : Mach :=
  orderDone (m.wg w).core (actsOrder m ⟨w, g, o⟩) (landOut w g id r.1 r.2)

theorem performLanes_store (hk : o.kind = .store sp n ord sc lanes) :
    performLanes w g o m = ([], lanes.foldl (fun acc a => storeLane w g o n a acc) (readied w g o m)) := by
  rw [performLanes, hk]
  rfl

theorem performLanes_load {dst : Reg} (hk : o.kind = .load sp n sext dst ord sc lanes) :
    performLanes w g o m = lanes.foldl (fun r a => loadLane w g o n sext dst (decide (ord = .rlx)) a r) ([], readied w g o m) := by
  rw [performLanes, hk]
  rfl

theorem performLanes_rmw {op : RmwOp} {dst : Option Reg} (hk : o.kind = .rmw op n dst ord sc cm lanes) :
    performLanes w g o m = lanes.foldl (fun r a => rmwLane w g o op n dst a r) ([], readied w g o m) := by
  rw [performLanes, hk]
  rfl

/-- An access whose step comes: the command is found outstanding, and where it waits for its turn the workgroup holds it. -/
def Comes (w g id : Nat) (o : Out) (m : Mach) : Prop :=
  (m.wg w).status ≠ .saved ∧ findOut m w g id = some o ∧ (o.shared = true → holdsTurn m w = true)

/-- Instruction `i` is a step that performs the command `o`, the lanes as `f` says, or finds its fault and holds it with no effect. -/
def Performs (i : Instr) (w g id : Nat) (o : Out) (f : Mach → List LaneWrite × Mach) : Prop :=
  Says.Acts i (fun m => Comes w g id o m ∧ accFault m w o = none ∧ mayPerform m ⟨w, g, o⟩ = true) (fun m => settleCmds (landed w g id o (f m) m)) ∧
  ∀ e, Says.Acts i (fun m => Comes w g id o m ∧ accFault m w o = some e) (fun m => settleCmds (failOut w g id e m))

/-- A step that takes the command up and acts on it as on an access performs it. -/
theorem step_performs {i : Instr} {k : OutKind → Bool} {act : Out → Mach → Mach} {f : Mach → List LaneWrite × Mach}
    (he : ∀ s, exec i s = eventStep (fun m => settleCmds (whenPerformed k w g id act m)) s) (hk : k o.kind = true) (hact : ∀ m, act o m = accessAct w g o m)
    (hf : ∀ m, performLanes w g o m = f m) : Performs i w g id o f := by
  refine ⟨acts he fun m ⟨⟨hstatus, hfound, hturn⟩, hsound, hmay⟩ => congrArg settleCmds ?_,
    fun e => acts he fun m ⟨⟨hstatus, hfound, hturn⟩, hfault⟩ => congrArg settleCmds (performed_fault hstatus hfound hturn hk hfault)⟩
  rw [performed_now hstatus hfound hturn hk hsound hmay, hact, accessAct, hf, findOut_id hfound]
  rfl

theorem store_performs (hk : o.kind = .store sp n ord sc lanes) :
    Performs (.storeAccepted w g id) w g id o fun m => ([], lanes.foldl (fun acc a => storeLane w g o n a acc) (readied w g o m)) :=
  step_performs (fun _ => rfl) (by rw [hk]; rfl) (fun _ => by rw [hk]) fun _ => performLanes_store hk

theorem load_performs {dst : Reg} (hk : o.kind = .load sp n sext dst ord sc lanes) :
    Performs (.loadLanding w g id) w g id o fun m => lanes.foldl (fun r a => loadLane w g o n sext dst (decide (ord = .rlx)) a r) ([], readied w g o m) :=
  step_performs (fun _ => rfl) (by rw [hk]; rfl) (fun _ => by rw [hk]) fun _ => performLanes_load hk

/-- The step that performs a read-modify-write: LOAD_LANDING where it returns the old value, STORE_ACCEPTED where it does not. -/
def rmwStep (w g id : Nat) : Option Reg → Instr
  | some _ => .loadLanding w g id
  | none => .storeAccepted w g id

theorem rmw_performs {op : RmwOp} {dst : Option Reg} (hk : o.kind = .rmw op n dst ord sc cm lanes) :
    Performs (rmwStep w g id dst) w g id o fun m => lanes.foldl (fun r a => rmwLane w g o op n dst a r) ([], readied w g o m) := by
  cases dst
  case some => exact step_performs (i := .loadLanding w g id) (fun _ => rfl) (by rw [hk]; rfl) (fun _ => by rw [hk]) fun _ => performLanes_rmw hk
  case none => exact step_performs (i := .storeAccepted w g id) (fun _ => rfl) (by rw [hk]; rfl) (fun _ => by rw [hk]) fun _ => performLanes_rmw hk

/-! ### How a scratchpad load lands (R178, R190, R197) -/

variable {dst : Reg}

theorem scratchLoadLanding_lands {ws : List LaneWrite} (hk : o.kind = .loadScratch n dst (some ws) lanes) :
    Says.Acts (.scratchLoadLanding w g id) (fun m => findOut m w g id = some o) (landOut w g id ws) :=
  acts (fun _ => rfl) fun _ hfound => scratchLanding_read hfound hk

/-- The passes of a scratchpad access come now. -/
def Passes (w g id : Nat) (o : Out) (m : Mach) : Prop := (m.wg w).status ≠ .saved ∧ findOut m w g id = some o ∧ scratchMay m w g o = true

theorem scratchLoadLanding_reads (hk : o.kind = .loadScratch n dst none lanes) :
    Says.Acts (.scratchLoadLanding w g id) (fun m => Passes w g id o m ∧ scratchFaulty m w o.kind = []) (fun m =>
      let ws := scratchVals m w n dst (lanes.map fun a => (a.lane, a.addr))
      landOut w g id ws (setOut w g id (.loadScratch n dst (some ws) lanes) m)) :=
  acts (fun _ => rfl) fun _ ⟨⟨hstatus, hfound, hmay⟩, hsound⟩ => by rw [scratchLanding_reads hstatus hfound hmay hk, hsound]

theorem scratchLoadLanding_fails (hk : o.kind = .loadScratch n dst none lanes) (f : LaneAcc) (fs : List LaneAcc) :
    Says.Acts (.scratchLoadLanding w g id) (fun m => Passes w g id o m ∧ scratchFaulty m w o.kind = f :: fs) (fun m =>
      failOut w g id ⟨.uncorrectable, maskOf ((f :: fs).map (·.lane)), BitVec.ofNat 64 f.addr, freeInfo m⟩ m) :=
  acts (fun _ => rfl) fun _ ⟨⟨hstatus, hfound, hmay⟩, hfaulty⟩ => by rw [scratchLanding_reads hstatus hfound hmay hk, hfaulty]

end Performed

/-- Settles O48: each kind of command has its step (`Performs`) and the law of one lane's access at its place (`store_law`, `load_law`, `rmw_law`). -/
theorem accessesPerformed : Obligations.AccessesPerformed := by
  intro w g id o found now core place ready lands fails
  refine ⟨?store, ?load, ?rmw, ?scratchRead, ?scratchUnread, land_law w g id⟩
  case store =>
    intro sp n ord sc lanes hk
    obtain ⟨hnow, hfails⟩ := store_performs (w := w) (g := g) (id := id) hk
    exact ⟨hnow, hfails, store_law w g n o⟩
  case load =>
    intro sp n sext dst ord sc lanes hk
    obtain ⟨hnow, hfails⟩ := load_performs (w := w) (g := g) (id := id) hk
    exact ⟨hnow, hfails, load_law w g n o sext dst⟩
  case rmw =>
    intro op n dst ord sc cm lanes hk
    obtain ⟨hnow, hfails⟩ := rmw_performs (w := w) (g := g) (id := id) hk
    exact ⟨hnow, hfails, rmw_law w g n o op dst⟩
  case scratchRead => exact fun n dst ws lanes hk => scratchLoadLanding_lands hk
  case scratchUnread => exact fun n dst lanes hk => ⟨scratchLoadLanding_reads hk, scratchLoadLanding_fails hk⟩

end Sys2Proof.Proofs
end

section
/-! The family '11_copies_graph.md': named barriers and copies as they join. -/

namespace Sys2Proof.Proofs

open Sys2Proof Sys2Proof.Machine Sys2Proof.Laws

/-! ### Named barriers (R211 to R213) -/

section Barriers

variable {i : Instr} {w g n ph : Nat} {s : State} {arr wt : Bool} {own : Iss → Mach → Own}

/-- The own part of BARA, BARW and BARAW: in some lane that takes effect, past the traps of R214. -/
def barOwn (n : Nat) (arr wt : Bool) (own : Iss → Mach → Own) : Iss → Mach → Own :=
  guarded fun x m => match barTrap n arr wt x m with | some t => t | none => own x m

/-- The group may still arrive in the barrier's current phase: it has not arrived in it, and no arrival of it is pending. -/
def ArrivesOnce (i : Instr) (w g n : Nat) (s : State) : Prop :=
  Store.get 0 (Says.reads w g s).arrived n ≠ ((Says.begun i w g s).bar w n).phase + 1 ∧ arrivePending (Says.reads w g s) n = false

/-- An armed barrier, outside regions, and for a wait outside serial sections and handlers. -/
theorem barOwn_armed (hf : Says.Free i w g s) (ha : ((Says.begun i w g s).bar w n).armed = true) (ho : arr = true → ArrivesOnce i w g n s)
    (hc : wt = true → (Says.reads w g s).lser = none ∧ (Says.reads w g s).trapMode = none) :
    barOwn n arr wt own (Says.iss i w g s) (Says.begun i w g s) = own (Says.iss i w g s) (Says.begun i w g s) := by
  refine (guarded_eff _ hf.1).trans ?_
  rw [barTrap_none hf.2 ha ho hc]
  rfl

/-- A barrier that is not armed, and an arrival that is not the group's first of the phase. -/
theorem barOwn_traps (hr : Says.Ready i w g s) (h0 : Says.eff i w g s ≠ 0) (he : ∀ s, exec i s = execute i (barOwn n arr wt own) s)
    (h : ((Says.begun i w g s).bar w n).armed = false ∨ (arr = true ∧ ¬ ArrivesOnce i w g n s)) :
    Says.Traps i w g s .barrierCount (freeInfo (Says.begun i w g s)) (Says.eff i w g s) 0 := by
  refine traps _ he hr ((guarded_eff _ h0).trans ?_)
  rw [barTrap_some (h.imp_right fun ⟨h1, h2⟩ => ⟨h1, by simpa [ArrivesOnce, or_iff_not_imp_left] using h2⟩)]
  rfl

/-- An arrival as BARA and BARAW make it at issue: now, or as a pending command where the group's earlier accesses and fences are not performed. -/
theorem issueArrive_begun (i : Instr) (w g n : Nat) (s : State) : issueArrive i (Says.iss i w g s) n (Says.begun i w g s) =
    if arriveReady (Says.begun i w g s) w g s.m.nextCmd then groupArrive w g n (Says.begun i w g s)
    else Says.handed i w g 8 (.cmd (.arrive n) none (Says.eff i w g s)) false s (Says.begun i w g s) := by
  rw [← begun_nextCmd i w g s]
  rfl

/-- The phase is over and no arrival of the group is pending. -/
def PhaseOver (w g n ph : Nat) (m : Mach) : Prop := ph < (m.bar w n).phase ∧ arrivePending (m.grp w g) n = false

theorem phaseOver_iff {m : Mach} : (decide (ph < (m.bar w n).phase) && !(arrivePending (m.grp w g) n)) = true ↔ PhaseOver w g n ph m := by
  simp [PhaseOver]

theorem waitPhase_passes {x : Iss} {m : Mach} (h : PhaseOver x.w x.g n ph m) : waitPhase n ph x m = .done 0 (passAcquire x.w n ph m) :=
  if_pos (phaseOver_iff.2 h)

theorem waitPhase_stands {x : Iss} {m : Mach} (h : ¬ PhaseOver x.w x.g n ph m) :
    waitPhase n ph x m = .placed (dropSlot x.w x.g (m.modG x.w x.g fun y => { y with held := some (.barrier n ph), gaveUp := m.cycle })) :=
  if_neg (mt phaseOver_iff.1 h)

/-- The phase that a BARW waits for: that of the group's last arrival, or the current one (R211, R213). -/
def lastPhase (n : Nat) (x : Iss) (m : Mach) : Nat :=
  let a := Store.get 0 (m.grp x.w x.g).arrived n
  if a = 0 then (m.bar x.w n).phase else a - 1

theorem lastPhase_begun : lastPhase n (Says.iss i w g s) (Says.begun i w g s) =
    if Store.get 0 (Says.reads w g s).arrived n = 0 then ((Says.begun i w g s).bar w n).phase else Store.get 0 (Says.reads w g s).arrived n - 1 := by
  rw [← begun_reads i w g s]
  rfl

end Barriers

/-- Settles O37: past its traps (`barOwn_armed`) a BARA arrives (`issueArrive_begun`), a BARW waits for its phase (`waitPhase_passes`, `waitPhase_stands`) and a
BARAW does both; the traps are `barOwn_traps`, and what an arrival does to the barrier is `groupArrive_bar`. -/
theorem namedBarriers : Obligations.NamedBarriers := by
  intro n imm st gd i a b c bar once arrive armed calm mine past stands
  have bara : ∀ s, exec a s = execute a (barOwn n.toNat true false fun x m => .done 0 (issueArrive a x n.toNat m)) s := fun _ => rfl
  have barw : ∀ s, exec b s = execute b (barOwn n.toNat false true fun x m => waitPhase n.toNat (lastPhase n.toNat x m) x m) s := fun _ => rfl
  have baraw : ∀ s, exec c s = execute c (barOwn n.toNat true true fun x m => waitPhase n.toNat (m.bar x.w n.toNat).phase x (issueArrive c x n.toNat m)) s := fun _ => rfl
  have mine_eq (w g : Nat) (s : State) : lastPhase n.toNat (Says.iss b w g s) (Says.begun b w g s) = mine w g s := lastPhase_begun
  refine ⟨?arms, ?armsTrap, ?arrives, ?passes, ?stands, ?arrivesPasses, ?arrivesStands, ?unarmed, ?twice, fun w g m => groupArrive_bar w g n.toNat m⟩
  case arms => exact ends _ (fun _ => rfl) fun w g s ⟨hn, h0⟩ => (noRegion_clear _ hn).trans (if_neg (not_not.2 h0))
  case armsTrap => exact fun w g s hr hn h => traps _ (fun _ => rfl) hr ((noRegion_clear _ hn).trans (if_pos h))
  case arrives =>
    refine ends _ bara fun w g s ⟨⟨hf, ha⟩, ho⟩ => (barOwn_armed hf ha (fun _ => ho) (by nofun)).trans ?_
    rw [issueArrive_begun]
  case passes =>
    refine ends _ barw fun w g s ⟨⟨hf, ha⟩, hc, hp⟩ => (barOwn_armed hf ha (by nofun) fun _ => hc).trans ?_
    rw [mine_eq]
    exact waitPhase_passes hp
  case stands =>
    refine places _ barw fun w g s ⟨⟨hf, ha⟩, hc, hp⟩ => (barOwn_armed hf ha (by nofun) fun _ => hc).trans ?_
    rw [mine_eq]
    exact waitPhase_stands hp
  case arrivesPasses =>
    refine ends _ baraw fun w g s ⟨⟨hf, ha⟩, hc, ho, hp⟩ => (barOwn_armed hf ha (fun _ => ho) fun _ => hc).trans ?_
    rw [issueArrive_begun]
    exact waitPhase_passes hp
  case arrivesStands =>
    refine places _ baraw fun w g s ⟨⟨hf, ha⟩, hc, ho, hp⟩ => (barOwn_armed hf ha (fun _ => ho) fun _ => hc).trans ?_
    rw [issueArrive_begun]
    exact waitPhase_stands hp
  case unarmed =>
    simp only [List.forall_mem_cons, List.not_mem_nil, IsEmpty.forall_iff, implies_true, and_true]
    exact ⟨fun w g s hr h0 h => barOwn_traps hr h0 bara (.inl h), fun w g s hr h0 h => barOwn_traps hr h0 barw (.inl h), fun w g s hr h0 h => barOwn_traps hr h0 baraw (.inl h)⟩
  case twice =>
    simp only [List.forall_mem_cons, List.not_mem_nil, IsEmpty.forall_iff, implies_true, and_true]
    exact ⟨fun w g s hr h0 h => barOwn_traps hr h0 bara (.inr ⟨rfl, h⟩), fun w g s hr h0 h => barOwn_traps hr h0 baraw (.inr ⟨rfl, h⟩)⟩

/-! ### Copies join (R202 to R206, R219) -/

section Joins

variable {i : Instr} {d a b : Reg} {c : CopySpec} {x : Iss} {m : Mach} {src dst : Nat} {word : Word}

/-- The sectors that a copy moves in the tempo charge. -/
def copyCost (c : CopySpec) : Nat := if c.srcSp = .scr ∧ c.dstSp = .scr then 0 else c.len / 32

/-- Nothing traps the copy or holds it back: no trap of R205, no turn that has ended, room at the Rook and in the turn buffer. -/
structure CopyClear (c : CopySpec) (x : Iss) (m : Mach) (src dst : Nat) (word : Word) : Prop where
  trap : copyTrap m x c src dst word = none
  turn : c.dstSp = .scr ∨ engineLate m x.w (decide (c.dstSp = .vault)) dst c.len = false
  rook : c.use = .gate ∨ rookHeld m (clusterOfCore (m.wg x.w).core) < 256
  room : copyShared m x.w c dst = true → turnFull m x.w 1 = false

theorem copyOwn_joins {y : Group} (hy : m.grp x.w x.g = y) (h0 : x.eff ≠ 0) (hn : inRegion x x.eff m = false) (hsrc : copyAddr y a c.srcSp (lowLaneD x.eff) = src)
    (hdst : copyAddr y d c.dstSp (lowLaneD x.eff) = dst) (hword : (if c.multi || decide (c.use ≠ .none) then y.reg b.toNat (lowLaneD x.eff) else 0) = word)
    (hc : CopyClear c x m src dst word) : copyOwn i d a b c x m = .done (copyCost c) (joinCopy i x c (some (src, dst, word)) m) := by
  subst hy hsrc hdst hword
  refine (if_neg h0).trans ?_
  rw [hc.trap]
  refine (if_neg (ne_true_of_eq_false hn)).trans ((if_neg ?turn).trans ((if_neg ?room).trans (if_neg ?rook)))
  case turn =>
    rw [Bool.and_eq_true, decide_eq_true_eq]
    exact fun ⟨hsp, hlate⟩ => ne_true_of_eq_false (hc.turn.resolve_left hsp) hlate
  case room =>
    rw [Bool.and_eq_true]
    exact fun ⟨hsh, hfull⟩ => ne_true_of_eq_false (hc.room hsh) hfull
  case rook =>
    rw [Bool.and_eq_true, decide_eq_true_eq, decide_eq_true_eq]
    exact fun ⟨huse, hfull⟩ => Nat.not_le.2 (hc.rook.resolve_left huse) hfull

/-- The address operand of a copy: a pair in global space, else a register. -/
def copyOperand (i : Instr) (w g : Nat) (s : State) (r : Reg) (sp : Space) : Nat :=
  if sp = .glob then ((Says.reads w g s).pair r.toNat (lowLaneD (Says.eff i w g s))).toNat else ((Says.reads w g s).reg r.toNat (lowLaneD (Says.eff i w g s))).toNat

variable {k : Nat} {op : Nat → Nat → State → Word} (he : ∀ s, exec i s = execute i (copyOwn i d a b c) s) (hk : copyCost c = k)
include he hk

/-- A copy with a lane that takes effect, with the operands that it reads there. -/
theorem ends_copy (hop : ∀ w g s, (if c.multi || decide (c.use ≠ .none) then (Says.reads w g s).reg b.toNat (lowLaneD (Says.eff i w g s)) else 0) = op w g s) :
    Says.Ends i (fun w g s => Says.Free i w g s ∧
        CopyClear c (Says.iss i w g s) (Says.begun i w g s) (copyOperand i w g s a c.srcSp) (copyOperand i w g s d c.dstSp) (op w g s))
      (fun _ _ _ => k) (fun w g s => joinCopy i (Says.iss i w g s) c (some (copyOperand i w g s a c.srcSp, copyOperand i w g s d c.dstSp, op w g s))) := by
  subst hk
  exact ends _ he fun w g s ⟨⟨h0, hn⟩, hc⟩ => copyOwn_joins (begun_reads i w g s) h0 (inRegion_none hn) (copyAddr_eq _ _ _ _) (copyAddr_eq _ _ _ _) (hop w g s) hc

/-- A copy without a lane that takes effect: its slice is empty (R203). -/
theorem ends_emptyCopy : Says.Ends i (fun w g s => Says.eff i w g s = 0) (fun _ _ _ => k) (fun w g s => joinCopy i (Says.iss i w g s) c none) := by
  subst hk
  exact ends _ he fun w g s h0 => if_pos h0

end Joins

/-- Settles O40: past its traps and holds a copy joins with the operands of the lowest lane that takes effect (`ends_copy`), and without such a lane with an empty
slice (`ends_emptyCopy`); CPY reads a node handle where it names a node, CPYM always a receiver word. -/
theorem copiesJoin : Obligations.CopiesJoin := by
  intro d a b sect src dst bar bi shadow use solo gd i j len at_ adr joins
  have cost (c : CopySpec) (h : c.len = len) : copyCost c = if c.srcSp = .scr ∧ c.dstSp = .scr then 0 else sect.toNat + 1 := by
    rw [← copy_cost sect.toNat, copyCost, h]
  refine ⟨⟨?cpy, ends_emptyCopy (fun _ => rfl) (cost _ rfl)⟩, ⟨?cpym, ends_emptyCopy (fun _ => rfl) (cost _ rfl)⟩⟩
  case cpy =>
    intro w g s hr ⟨hf, htrap, hturn, hrook, hroom⟩
    refine ends_copy (op := fun w g s => if use = .none then 0 else (Says.reads w g s).reg b.toNat (lowLaneD (Says.eff i w g s))) (fun _ => rfl) (cost _ rfl)
      (fun w g s => ?_) w g s hr ⟨hf, htrap, hturn, hrook, hroom⟩
    cases use <;> rfl
  case cpym =>
    intro w g s hr ⟨hf, htrap, hturn, hrook, hroom⟩
    exact ends_copy (op := fun w g s => (Says.reads w g s).reg b.toNat (lowLaneD (Says.eff j w g s))) (fun _ => rfl) (cost _ rfl) (fun _ _ _ => if_pos rfl) w g s hr
      ⟨hf, htrap, hturn, hrook, hroom⟩

end Sys2Proof.Proofs
end

section
/-! The steps of the engines (O50): the Rook, PUBLISH, operand slots and passes, tiles and drains, collection engines, the Knight, messages. For each step one equation
per case of its function. -/

namespace Sys2Proof.Proofs

open Sys2Proof Sys2Proof.Machine Sys2Proof.Laws

/-! ### The Rook (R201, R209, R210) -/

section Rook

variable {m : Mach} {k : Nat} {s : Slice} {c : Copy}

/-- The slice stands at number `k`, and its copy is `c`. -/
def SliceAt (k : Nat) (s : Slice) (c : Copy) (m : Mach) : Prop := m.slice k = s ∧ m.copy s.copy = c

theorem copySliceStart_arrives (hat : SliceAt k s c m) (ha : sliceArrives m s = true)
    (hfirst : ∀ e ∈ m.slices, (m.copy e.2.copy).cluster = c.cluster → sliceArrives m e.2 = true → s.id ≤ e.2.id) : copySliceStart k m = queueSlice k m := by
  obtain ⟨rfl, rfl⟩ := hat
  refine (if_pos ha).trans (if_neg ?_)
  simp only [List.any_eq_true, Bool.and_eq_true, decide_eq_true_eq, not_exists, not_and, Nat.not_lt]
  exact fun e he ⟨hcl, harr⟩ => hfirst e he hcl harr

theorem copySliceStart_starts (hat : SliceAt k s c m) (hq : s.status = .queued) (ho : sliceInOrder m s = true) (hb : groupBusy m s.wg s.grp s.id = false)
    (hroom : ((rookSlices m c.cluster).filter fun e => decide (e.2.status ≠ .queued)).length < 64)
    (hfirst : ∀ e ∈ rookSlices m c.cluster, e.2.status = .queued → sliceInOrder m e.2 = true → s.order ≤ e.2.order) :
    copySliceStart k m = m.modSlice k fun s => { s with status := .running, round := rookTurn m c.cluster } := by
  obtain ⟨rfl, rfl⟩ := hat
  have not_lodged : ¬ sliceArrives m (m.slice k) = true := by simp [sliceArrives, hq]
  refine (if_neg not_lodged).trans (if_pos ⟨hq, ho, hb, hroom, List.all_eq_true.2 fun e he => ?_⟩)
  simp only [Bool.or_eq_true, decide_eq_true_eq, Bool.not_eq_true']
  by_cases hqe : e.2.status = .queued
  · by_cases hoe : sliceInOrder m e.2 = true
    · exact .inl (.inr (hfirst e he hqe hoe))
    · exact .inr (Bool.eq_false_iff.2 hoe)
  · exact .inl (.inl hqe)

/-- What a slice that may move its next sector needs: it is in progress, its fault has been answered, nothing of its copy is saved, and no earlier slice has still to
write there. -/
theorem sectorMoves_needs (hc : m.copy s.copy = c) (h : sectorMoves m k s = true) : (s.status = .running ∨ s.status = .faulted) ∧ sliceFails m s = false ∧
    copyStalled m c = false ∧ ∀ p, sectorPlan m s = .ok p → earlierSlice m k c s p.2 = false := by
  subst hc
  simp only [sectorMoves, Bool.and_eq_true, Bool.or_eq_true, decide_eq_true_eq, Bool.not_eq_true'] at h
  obtain ⟨⟨⟨⟨⟨⟨hstatus, hfails⟩, hstalled⟩, -⟩, -⟩, -⟩, hearlier⟩ := h
  refine ⟨hstatus, hfails, hstalled, fun p hp => ?_⟩
  rwa [hp] at hearlier

/-- The slice is the next of the Rook's rotation that may move a sector. -/
def SectorNext (k : Nat) (s : Slice) (c : Copy) (m : Mach) : Prop :=
  SliceAt k s c m ∧ sectorMoves m k s = true ∧ ((rookSlices m c.cluster).any fun e => rookBefore e.2 s && sectorMoves m e.1 e.2) = false

theorem SectorNext.notHeld (h : SectorNext k s c m) : ¬ (sectorMoves m k s = false ∨ ((rookSlices m c.cluster).any fun e => rookBefore e.2 s && sectorMoves m e.1 e.2) = true) := by
  obtain ⟨-, hmoves, hnone⟩ := h
  simp [hmoves, hnone]

/-- The TLBs hold the translations of the slice's next sector, of its source and of each destination (R185). -/
def sectorTouched (s : Slice) (c : Copy) (m : Mach) : Mach :=
  (sliceDsts c s).foldl (fun acc e => spaceTouch (.cluster c.cluster) c.part c.ctx c.dstSp (e.2.1 + 32 * s.pos) acc)
    (spaceTouch (.cluster c.cluster) c.part c.ctx c.srcSp (s.src + 32 * s.pos) m)

/-- The slice's next sector has been moved: read once, written to each place, the slice behind the others in the rotation. -/
def sectorMoved (k : Nat) (s : Slice) (c : Copy) (src : Place) (ps : List Place) (m : Mach) : Mach :=
  (ps.foldl (fun acc d => writePlace none c.dstSp d (readPlace m c.srcSp src 32) acc) (sectorTouched s c m)).modSlice k fun s =>
    { s with pos := s.pos + 1, round := rookTurn m c.cluster, status := if s.len ≤ 32 * (s.pos + 1) then .landed else .running }

theorem copySector_moves {src : Place} {ps : List Place} (h : SectorNext k s c m) (hp : sectorPlan m s = .ok (src, ps)) : copySector k m = sectorMoved k s c src ps m := by
  have hnot := h.notHeld
  obtain ⟨⟨rfl, rfl⟩, -, -⟩ := h
  refine (if_neg hnot).trans ?_
  rw [hp]
  rfl

theorem copySector_faults {e : Cause} {side i a : Nat} {f : Out} (h : SectorNext k s c m) (hp : sectorPlan m s = .error (e, side, i, a)) (hf : findOut m s.wg s.grp s.id = some f) :
    copySector k m = failSlice .asyncCopyFault (causeCode e + 64 * side + 256 * i + 2 ^ 32 * s.pos) a s (m.modSlice k fun s => { s with status := .faulted }) := by
  have hnot := h.notHeld
  obtain ⟨⟨rfl, rfl⟩, -, -⟩ := h
  refine (if_neg hnot).trans ?_
  rw [hp]
  dsimp only
  unfold sectorFault
  dsimp only
  rw [hf]

theorem copyComplete_completes (hc : m.copy k = c) (hex : ∃ e ∈ m.copies, e.1 = k) (hfault : copyFaulted m c = false) (hland : ∀ j ∈ c.slices, (m.slice j).status = .landed)
    (href : c.refused = none) (hall : allJoined m c = true) (hst : copyStalled m c = false) :
    copyComplete k m = dropCopy k (copyOuts c (copySignal c (copyArrivals c m))) := by
  subst hc
  have not_early : ¬ ((m.copies.any fun e => decide (e.1 = k)) = false ∨ copyFaulted m (m.copy k) = true ∨
      ((m.copy k).slices.any fun j => decide ((m.slice j).status ≠ .landed)) = true) := by
    obtain ⟨e, he, hk⟩ := hex
    rintro (h | h | h)
    · exact List.any_eq_false.1 h e he (decide_eq_true hk)
    · exact ne_true_of_eq_false hfault h
    · obtain ⟨j, hj, hs⟩ := List.any_eq_true.1 h
      exact of_decide_eq_true hs (hland j hj)
  exact (if_neg not_early).trans ((if_neg (by simp [href])).trans (if_pos (by simp [hall, hst])))

end Rook

/-! ### PUBLISH (R216) -/

theorem publishSwap_swaps {m : Mach} {w g id k : Nat} {drop : Bool} {o : Out} {s : Shadow} (hf : findOut m w g id = some o) (hk : o.kind = .publish k drop)
    (haw : (m.wg w).status ≠ .saved) (hs : shadowSlot m w k = some s) (hcopies : shadowCopiesLeft m w s id = false) (hearly : earlierPublish m w k id = false)
    (hbusy : groupBusy m w g id = false) (hupper : drop = true → s.upper = false) :
    publishSwap w g id m = landOut w g id [] (dropCache (m.wg w).core (flushAll (m.wg w).core (m.modW w fun z =>
      { z with shadows := if drop then Store.del z.shadows k else Store.put z.shadows k { s with upper := !s.upper } }))) := by
  unfold publishSwap
  rw [hf]
  dsimp only
  rw [hk]
  dsimp only
  rw [hs]
  refine (if_neg (by simp [hcopies, hearly, hbusy, haw])).trans (if_neg ?_)
  rw [Bool.and_eq_true]
  exact fun ⟨hd, hu⟩ => ne_true_of_eq_false (hupper hd) hu
/-! ### Operand slots and passes (R222, R225, R227, R231 to R237) -/

section Operands

variable {m : Mach} {w g id : Nat} {o : Out}

section Fills

variable {n src stride claim : Nat} {sp : Space}

theorem oloadLanding_may (hf : findOut m w g id = some o) (hk : o.kind = .oload n sp src stride claim) (hmay : mayFill m w g o n claim = true) :
    oloadLanding w g id m = fillLand w g o n (readRows m w sp src stride 4 64) (engineTouch w sp ((List.range 64).map fun r => src + r * stride) m) := by
  unfold oloadLanding
  rw [hf]
  dsimp only
  rw [hk]
  exact if_pos hmay

theorem oloadLanding_lands {rows : List (List Byte)} (hf : findOut m w g id = some o) (hk : o.kind = .oload n sp src stride claim)
    (hmay : mayFill m w g o n claim = true) (hr : readRows m w sp src stride 4 64 = .ok rows) : oloadLanding w g id m =
      landOut w g o.id [] (fillBytes w n o.id rows (engineTouch w sp ((List.range 64).map fun r => src + r * stride) m)) := by
  rw [oloadLanding_may hf hk hmay, hr]
  rfl

theorem oloadLanding_fails {c : Cause} {a : Nat} (hf : findOut m w g id = some o) (hk : o.kind = .oload n sp src stride claim)
    (hmay : mayFill m w g o n claim = true) (hr : readRows m w sp src stride 4 64 = .error (some (c, a))) : oloadLanding w g id m =
      rangeFail w g o c a (engineTouch w sp ((List.range 64).map fun r => src + r * stride) m) := by
  rw [oloadLanding_may hf hk hmay, hr]
  rfl

theorem mconvLanding_lands {half sat inf uns : Bool} {prec code : Nat} {rows : List (List Byte)} (hf : findOut m w g id = some o)
    (hk : o.kind = .mconv n half sat inf uns prec code src stride claim) (hmay : mayFill m w g o (n + half.toNat) claim = true)
    (hr : convRows m w src stride (convRow code) 64 = .ok rows) : mconvLanding w g id m =
      landOut w g o.id [] (fillBytes w (n + half.toNat) o.id (rows.map fun bs => (rowWordsOf bs).flatMap (convElem sat inf uns prec code)) m) := by
  unfold mconvLanding
  rw [hf]
  dsimp only
  rw [hk]
  refine (if_pos hmay).trans ?_
  rw [hr]
  rfl

end Fills

/-- The pass of an open register as it enters the reservation table (R231, R233). -/
def submittedPass (w g : Nat) (e : Conv) (m : Mach) : Pass :=
  let r := passOps m w (operandSlots (mapA e.word) (codeA e.fmt) ++ operandSlots (mapB e.word) (codeB e.fmt))
  { id := m.nextCmd, wg := w, tile := mapTile e.word, a := mapA e.word, b := mapB e.word, fmt := e.fmt, waits := e.waits, base := (m.block w).priority, at_ := m.cycle
    core := (m.wg w).core, slot := (m.grp w g).slot, ops := r.1, rels := r.2, opA := [], opB := [] }

/-- The tile's token is the engine's and the register is empty. -/
def registerGone (w c : Nat) (e : Conv) (m : Mach) : Mach :=
  (m.modTile w (mapTile e.word) fun q => { q with atEngine := true }).modW w fun z => { z with convs := Store.del z.convs c }

theorem submitPass_open {c : Nat} {e : Conv} (he : convOf m w c = some e) : submitPass w g c m =
    { (registerGone w c e m).modCluster (clusterOf m w) fun k => { k with table := k.table ++ [submittedPass w g e m] } with nextCmd := (registerGone w c e m).nextCmd + 1 } := by
  unfold submitPass
  rw [he]
  rfl

theorem msignSubmit_submits {c : Nat} {e : Conv} (hg : ((m.wg w).groupIds.find? fun g => decide ((m.grp w g).held = some (.msign c))) = some g)
    (ha : wgActive (m.wg w) = true) (hroom : tableRoom m w = true) (he : convOf m w c = some e) : msignSubmit w c m = finishHeld w g
      { (registerGone w c e m).modCluster (clusterOf m w) fun k => { k with table := k.table ++ [submittedPass w g e m] } with nextCmd := (registerGone w c e m).nextCmd + 1 } := by
  unfold msignSubmit
  rw [hg]
  refine (if_pos (by rw [ha, hroom]; rfl)).trans ?_
  rw [submitPass_open he]

theorem passStart_starts {c : Nat} {p : Pass} {ps : List Pass}
    (hs : sortBy (passBefore (admitPasses c m).cycle) (((admitPasses c m).cluster c).table.filter (passReady (admitPasses c m) c)) = p :: ps)
    (hroom : ((admitPasses c m).cluster c).inEngine.length < 2) : passStart c m = admitPasses c ((admitPasses c m).modCluster c fun k => { k with
      table := k.table.filter fun q => decide (q.id ≠ p.id)
      inEngine := k.inEngine ++ [{ p with opA := p.operand p.a (codeA p.fmt), opB := p.operand p.b (codeB p.fmt) }] }) := by
  unfold passStart
  dsimp only
  rw [hs, decide_eq_true hroom]

/-- The oldest pass has left the engine; the TACQs of its tile that were issued before it have landed (R236). -/
def passLeft (c : Nat) (p : Pass) (ps : List Pass) (m : Mach) : Mach := (landTacqs p m).modCluster c fun k => { k with inEngine := ps }

theorem passRetire_retires {c : Nat} {p : Pass} {ps : List Pass} (hp : (m.cluster c).inEngine = p :: ps) (habs : (m.wg p.wg).status ≠ .absent)
    (hend : (m.wg p.wg).status ≠ .ended) : passRetire c m = captureDrains p.wg p.tile
      (tileSignal p.wg ((passLeft c p ps m).tile p.wg p.tile).bound ((passLeft c p ps m).modTile p.wg p.tile (passTile p.fmt p.opA p.opB))) := by
  unfold passRetire
  rw [hp]
  exact if_neg (by simp [habs, hend])

end Operands

/-! ### Tiles and drains (R236, R238, R239, R243, R245) -/

section Tiles

variable {m : Mach} {w g id : Nat} {o : Out}

/-- The tile's token is the workgroup's again, unless a later pass has taken it (R236, R239). -/
def tokenBack (w t : Nat) (m : Mach) : Mach := if passesOn m w t = [] then m.modTile w t fun q => { q with atEngine := false } else m

theorem tacqLanding_lands {d : Reg} {t : Nat} {ls : Mask} (hf : findOut m w g id = some o) (hk : o.kind = .tacq d t ls) (haw : (m.wg w).status ≠ .saved)
    (hpass : ∀ p ∈ passesOn m w t, id ≤ p.id)
    (hdrain : ∀ e ∈ wgOuts m w, e.2.id < id → ∀ clr add sp dst stride el done, e.2.kind ≠ .tdrain t clr add sp dst stride el done) :
    tacqLanding w g id m = landOut w g id (laneResults (some d) ls (tileStatus (tokenBack w t m) w t true)) (tokenBack w t m) := by
  unfold tacqLanding
  rw [if_neg haw, hf]
  dsimp only
  rw [hk]
  refine (if_neg ?_).trans ?_
  · rw [Bool.or_eq_true]
    rintro (h | h)
    · obtain ⟨p, hp, hlt⟩ := List.any_eq_true.1 h
      exact Nat.not_lt.2 (hpass p hp) (of_decide_eq_true hlt)
    · obtain ⟨e, he, hd⟩ := List.any_eq_true.1 h
      rw [Bool.and_eq_true, decide_eq_true_eq] at hd
      obtain ⟨hlt, hkind⟩ := hd
      split at hkind
      · next clr add sp dst stride el done heq =>
        exact hdrain e he hlt _ _ _ _ _ _ _ (of_decide_eq_true hkind ▸ heq)
      · exact absurd hkind Bool.false_ne_true
  · simp only [tokenBack, List.isEmpty_iff]

theorem tldLanding_lands {ws : List LaneWrite} (hf : findOut m w g id = some o) (hk : o.kind = .tld ws) : tldLanding w g id m = landOut w g id ws m := by
  unfold tldLanding
  rw [hf]
  dsimp only
  rw [hk]

theorem mstatLanding_lands {d : Reg} {sel : Nat} {ls : Mask} (hf : findOut m w g id = some o) (hk : o.kind = .mstat d sel ls) (haw : (m.wg w).status ≠ .saved) :
    mstatLanding w g id m = landOut w g id (laneResults (some d) ls (mstatVal m w sel)) m := by
  unfold mstatLanding
  rw [hf]
  dsimp only
  rw [hk]
  exact if_neg haw

section Drains

variable {t dst stride done : Nat} {clr add int : Bool} {sp : Space} {elems : Store Word}

/-- The element from which a drain goes on: the first, where the tables had refused it. -/
def drainFrom (done : Nat) : Nat := if done = refusedDrain then 0 else done

/-- The sectors that a drain has still to write. -/
def drainLeft (dst stride done : Nat) : List (Nat × Nat) := (drainSectors dst stride).filter fun e => decide (drainFrom done ≤ e.1)

/-- The tables' second answer to a drain that they had refused. -/
def drainRefused (w : Nat) (sp : Space) (dst stride done : Nat) (m : Mach) : Option Cause := if done = refusedDrain then drainRefusal m w sp dst stride else none

theorem tdrainComplete_applies (hf : findOut m w g id = some o) (hk : o.kind = .tdrain t clr add sp dst stride (some (elems, int)) done)
    (hw : drainWaits m w o t sp = false) (hr : drainRefused w sp dst stride done m = none) :
    tdrainComplete w g id m = drainApply w g o t clr add sp dst stride (drainFrom done) (elems, int) m := by
  unfold tdrainComplete
  rw [hf]
  dsimp only
  rw [hk]
  refine (if_neg (ne_true_of_eq_false hw)).trans ?_
  unfold drainRefused at hr
  unfold drainFrom
  split at hr
  · next hd => rw [if_pos hd, if_pos hd, hr]
  · next hd => rw [if_neg hd, if_neg hd]

theorem tdrainComplete_refused {c : Cause} (hf : findOut m w g id = some o) (hk : o.kind = .tdrain t clr add sp dst stride (some (elems, int)) done)
    (hw : drainWaits m w o t sp = false) (hr : drainRefused w sp dst stride done m = some c) : tdrainComplete w g id m = cmdFail w g o c 0 m := by
  unfold tdrainComplete
  rw [hf]
  dsimp only
  rw [hk]
  refine (if_neg (ne_true_of_eq_false hw)).trans ?_
  unfold drainRefused at hr
  split at hr
  · next hd => rw [if_pos hd, hr]
  · cases hr

theorem drainApply_unplaced {data : Store Word × Bool} {c : Cause} {a : Nat} (hp : drainPlaces m w sp add (drainLeft dst stride done) = .error (c, a)) :
    drainApply w g o t clr add sp dst stride (drainFrom done) data m = rangeFail w g o c a m := by
  unfold drainLeft at hp
  unfold drainApply
  dsimp only
  rw [hp]

/-- What a drain comes to once its sectors have been applied: it lands, or the element at which a lasting error stopped it is kept for its replay (R244). -/
def drainEnded (w g : Nat) (o : Out) (t : Nat) (clr add : Bool) (sp : Space) (dst stride : Nat) (data : Store Word × Bool) (r : Mach × Option Nat) : Mach :=
  match r.2 with
  | none => landOut w g o.id [] (dropCache (r.1.wg w).core r.1)
  | some i => rangeFail w g o .uncorrectable (dst + i / 64 * stride + 4 * (i % 64))
      (dropCache (r.1.wg w).core (setOut w g o.id (.tdrain t clr add sp dst stride (some data) i) r.1))

/-- Nothing holds the sectors back: no translation is awaited and no read is to be repeated. -/
theorem drainApply_placed {data : Store Word × Bool} {ps : List (Nat × Option Place)} (hp : drainPlaces m w sp add (drainLeft dst stride done) = .ok ps)
    (hwait : ∀ e ∈ drainLeft dst stride done, engineWaits m w sp e.2 = false)
    (herr : add = true → ∀ e ∈ ps, ∀ pl, e.2 = some pl → (placeErrors m sp pl 32).1 = false) :
    drainApply w g o t clr add sp dst stride (drainFrom done) data m =
      drainEnded w g o t clr add sp dst stride data (drainAll add data.2 data.1 sp ps (engineTouch w sp ((drainLeft dst stride done).map (·.2)) m)) := by
  unfold drainLeft at *
  unfold drainApply
  dsimp only
  rw [hp]
  refine (if_neg ?held).trans ?ended
  case ended =>
    generalize drainAll add data.2 data.1 sp ps _ = r
    obtain ⟨n, _ | i⟩ := r <;> rfl
  rw [Bool.or_eq_true]
  rintro (h | h)
  · obtain ⟨e, he, hw⟩ := List.any_eq_true.1 h
    exact ne_true_of_eq_false (hwait e he) hw
  · rw [Bool.and_eq_true] at h
    obtain ⟨hadd, hany⟩ := h
    obtain ⟨e, he, hpl⟩ := List.any_eq_true.1 hany
    obtain ⟨pl, hsome, hbad⟩ := (Option.any_eq_true _ _).1 hpl
    exact ne_true_of_eq_false (herr hadd e he pl hsome) hbad

end Drains

end Tiles

/-! ### Collection engines (R265, R266, R269, R280) -/

section Collections

variable {m : Mach} {c : CollCmd} {d : CollDone} {e l k : Nat}

theorem collExecute_performs {n : Mach} (hidle : ((collAdmit (16 * e + l) m).elane (16 * e + l)).busy = none)
    (htry : ((collAdmit (16 * e + l) m).elane (16 * e + l)).queue.findSome? (collTry (16 * e + l) (collAdmit (16 * e + l) m)) = some n) : collExecute e l m = n := by
  unfold collExecute
  dsimp only
  rw [hidle]
  dsimp only
  rw [htry]
  rfl

theorem buildDone_completes {j : Nat} (hop : c.op = .nbr j) (hp : collPerform m c = .ok d) :
    buildDone k c m = collLand c d.dn d.dv d.av [] (d.m.modLane k fun e => { e with busy := none }) := by
  unfold buildDone
  rw [hop, hp]
  rfl

theorem collExecute_completes {j : Nat} (hbusy : ((collAdmit (16 * e + l) m).elane (16 * e + l)).busy = some c) (hop : c.op = .nbr j)
    (hp : collPerform (collAdmit (16 * e + l) m) c = .ok d) :
    collExecute e l m = collLand c d.dn d.dv d.av [] (d.m.modLane (16 * e + l) fun e => { e with busy := none }) := by
  unfold collExecute
  dsimp only
  rw [hbusy]
  exact buildDone_completes hop hp

theorem thawComplete_completes (hbusy : (m.elane (16 * e + l)).busy = some c) (hop : c.op = .thaw) (hw : thawWaits m c = false)
    (hp : collPerform (m.modLane (16 * e + l) fun e => { e with busy := none }) c = .ok d) : thawComplete e l m = collLand c d.dn d.dv d.av [] d.m := by
  unfold thawComplete
  dsimp only
  rw [hbusy]
  refine (if_pos (by simp [hop, hw])).trans ?_
  rw [hp]
  rfl

section Tried

variable (hr : collReady m c = true) (hnbr : ∀ j, c.op ≠ .nbr j) (hthaw : c.op ≠ .thaw)
include hr hnbr hthaw

theorem collTry_performs (hp : collPerform (m.modLane k (ELane.take c)) c = .ok d) : collTry k m c = some (collLand c d.dn d.dv d.av [] d.m) := by
  rw [collTry_now hr hnbr hthaw, hp]
  rfl

theorem collTry_faults {cause : Cause} {a info : Nat} (hp : collPerform (m.modLane k (ELane.take c)) c = .error (.fault cause a info)) : collTry k m c =
    some (collLand c 0 0 none [⟨c.arg.lane, cause, BitVec.ofNat 64 a, info⟩] (touchTlb c.site c.part c.ctx c.arg.hdr.toNat (m.modLane k (ELane.take c)))) := by
  rw [collTry_now hr hnbr hthaw, hp]
  rfl

end Tried

section Performed

variable {s : Sealed} {x : Coll} (hden : collDenied m c = none) (hat : collAt m c c.arg.hdr.toNat = .ok (s, x))
include hden hat

theorem collPerform_frozen (hop : c.op = .ins ∨ c.op = .rem ∨ c.op = .move) (hfr : x.h.frozen = true) : collPerform m c = .error (.fault .collectionFrozen 0 0) := by
  rw [collPerform_elem hden hat hop, show elemCmd c x = _ from if_pos hfr]
  rfl

theorem collPerform_ins {el : Elem} (hfr : x.h.frozen = false) (hop : c.op = .ins) (hel : newElem x.h c.arg.a = some el) :
    let r := x.insert (c.det || x.h.evicts) el
    collPerform m c = .ok ⟨writeColl s r.c m, 1, statusWord r.st r.num, if 0 < r.num then r.first.map evictForm else none⟩ := by
  intro r
  have elem : elemCmd c x = .ok (insResult r) := by
    unfold elemCmd
    rw [if_neg (ne_true_of_eq_false hfr), hop]
    dsimp only
    rw [hel]
    rfl
  rw [collPerform_elem hden hat (.inl hop), elem]
  rfl

theorem collPerform_rem (hfr : x.h.frozen = false) (hop : c.op = .rem) :
    let r := x.delete (quadElem c.arg.a)
    collPerform m c = .ok ⟨writeColl s r.1 m, 1, statusWord r.2 0, none⟩ := by
  intro r
  have elem : elemCmd c x = .ok (r.1, 1, statusWord r.2 0, none) := by
    unfold elemCmd
    rw [if_neg (ne_true_of_eq_false hfr), hop]
  rw [collPerform_elem hden hat (.inr (.inl hop)), elem]

end Performed

end Collections

/-! ### The Knight (R289, R290, R293, R295) -/

section Knight

variable {m m1 : Mach} {cl : Nat} {r r1 : KRun}

theorem kTraverse_starts {c : KCmd} {n : Mach} (hidle : (m.cluster cl).krun = none) (hfirst : (m.cluster cl).waiting.find? (kInOrder m) = some c) (htry : kTry cl m c = some n) :
    kTraverse cl m = n := by
  unfold kTraverse
  rw [hidle]
  dsimp only
  rw [hfirst, Option.bind_some, htry]
  rfl

/-- The Knight of the cluster runs the traversal, which has not come to an end. -/
def KnightRuns (cl : Nat) (r : KRun) (m : Mach) : Prop := (m.cluster cl).krun = some r ∧ r.ends = none

theorem kTraverse_runs (h : KnightRuns cl r m) : kTraverse cl m = kStep cl r m := by
  obtain ⟨hrun, hends⟩ := h
  unfold kTraverse
  rw [hrun]
  exact if_neg (by simp [hends])

/-- The traversal goes on as the run given. -/
def putRun (cl : Nat) (q : KRun) (m : Mach) : Mach := m.modCluster cl fun x => { x with krun := some q }

theorem kStep_empty (h : r.stack = []) : kStep cl r m = putRun cl { r with ends := some .done } m := by
  unfold kStep
  rw [h]
  rfl

section Pair

variable {a b : Nat} {rest ps : List (Nat × Nat)} {d : List Byte} {x y : Nat} (hs : r.stack = (a, b) :: rest) (hd : kDesc m r.cmd = .ok d)
include hs hd

theorem kStep_pushes (hp : kPair m r.cmd d a b = .ok (.push ps)) (hroom : rest.length + ps.length ≤ 64) : kStep cl r m = putRun cl { r with stack := ps.reverse ++ rest } m := by
  simp only [kStep, hs, hd, hp]
  exact if_neg (Nat.not_lt.2 hroom)

theorem kStep_overflows (hp : kPair m r.cmd d a b = .ok (.push ps)) (hfull : 64 < rest.length + ps.length) :
    kStep cl r m = putRun cl { r with ends := some (.fault (kFail m r.cmd .knightStack 0 a)) } m := by
  simp only [kStep, hs, hd, hp]
  exact if_pos hfull

theorem kStep_emits (hp : kPair m r.cmd d a b = .ok (.emit x y)) (he : kEmit m r (fieldAt d 0x18 4) x y = .ok (.done r1 m1)) : kStep cl r m = putRun cl r1 m1 := by
  simp only [kStep, hs, hd, hp, he]
  rfl

theorem kStep_full (hp : kPair m r.cmd d a b = .ok (.emit x y)) (he : kEmit m r (fieldAt d 0x18 4) x y = .ok .full) : kStep cl r m = putRun cl { r with ends := some .full } m := by
  simp only [kStep, hs, hd, hp, he]
  rfl

end Pair

section References

variable {c : KCmd} {d : List Byte} {a b : Nat} {ra rb : KRef} (ha : kRef m c d false a = .ok ra) (hb : kRef m c d (!c.self) b = .ok rb)
include ha hb

theorem kPair_apart (h : kOverlap ra rb = false) : kPair m c d a b = .ok (.push []) := by
  unfold kPair
  dsimp only
  rw [ha, hb]
  exact if_pos h

theorem kPair_leaves (h : kOverlap ra rb = true) (hla : ra.leaf = true) (hlb : rb.leaf = true) (hne : ¬ (c.self = true ∧ a = b)) :
    kPair m c d a b = .ok (.emit ra.idx rb.idx) := by
  unfold kPair
  dsimp only
  rw [ha, hb]
  exact (if_neg (by simp [h])).trans ((if_neg hne).trans (if_pos (by rw [hla, hlb]; rfl)))

end References

/-- The traversal has come to an end of the kind given, and every write of that end has been made. -/
def KnightEnds (cl : Nat) (r : KRun) (e : KEnd) (r1 : KRun) (m1 m : Mach) : Prop := (m.cluster cl).krun = some r ∧ r.ends = some e ∧ kWrites e r m = ((r1, m1), none)

/-- The Knight of the cluster is free. -/
def knightFree (cl : Nat) (m : Mach) : Mach := m.modCluster cl fun x => { x with krun := none }

/-- What follows the writes of a traversal's end (R293 to R296). -/
def knightAfter (cl : Nat) (r r1 : KRun) (m1 : Mach) : KEnd → Mach
  | .done => kReturn 0 r1 (knightFree cl m1)
  | .full => kReturn 1 r1 (knightFree cl m1)
  | .fault f => failOut r.cmd.wg r.cmd.grp r.cmd.id f (kHeld true r.emitted [] r.cmd (knightFree cl m1))
  | .again => putRun cl { r1 with ends := none } m1

theorem kDone_ends {e : KEnd} (h : KnightEnds cl r e r1 m1 m) : kDone cl m = knightAfter cl r r1 m1 e := by
  obtain ⟨hrun, hends, hwrites⟩ := h
  unfold kDone
  rw [hrun]
  dsimp only
  rw [hends]
  dsimp only
  rw [hwrites]
  cases e <;> rfl

end Knight

/-! ### Messages (R418, R419, R422, R424) -/

section Messages

variable {m : Mach} {w g id : Nat} {o : Out}

section Sending

variable {k off n pd : Nat} {bs : List Byte} {nb : Bool} {ls : Mask} {e : CapEnt} {f : Cause × Nat} {n1 : Mach}

/-- The machine in which the capability entry has been read. -/
def capSeen (w k : Nat) (m : Mach) : Mach := (readCap w k m).2

/-- The entry as a send of `n` bytes may use it. -/
def sendCap (w k n : Nat) (m : Mach) : Except (Cause × Nat) CapEnt := useCap w k (fun e => e.send && decide (n ≤ e.allow)) (capSeen w k m)

theorem qsendEnqueue_tries (hf : findOut m w g id = some o) (hk : o.kind = .qsend k off n (some bs) nb pd ls false) (hb : groupBusy m w g id = false) :
    qsendEnqueue w g id m = sendMessage w g o k off n bs nb pd ls m := by
  unfold qsendEnqueue
  rw [hf]
  dsimp only
  rw [hk]
  exact if_neg (ne_true_of_eq_false hb)

theorem sendMessage_denied (hu : sendCap w k n m = .error f) : sendMessage w g o k off n bs nb pd ls m = capFail w g o f (capSeen w k m) := by
  unfold sendCap capSeen at hu
  unfold sendMessage
  dsimp only
  rw [hu]
  rfl

theorem sendMessage_noRoom (hu : sendCap w k n m = .ok e) (he : earlierMessage (capSeen w k m) w g o.id e.tgt = false)
    (hroom : targetRoom (capSeen w k m) (m.wg w).part e.tgt = false) : sendMessage w g o k off n bs nb pd ls m =
      if nb then landOut w g o.id ((lanesOf ls).map fun l => .pred pd l false) (capSeen w k m).useFree else (capSeen w k m).useFree := by
  unfold sendCap capSeen at *
  unfold sendMessage
  dsimp only
  rw [hu]
  refine (if_neg (ne_true_of_eq_false he)).trans ((if_pos hroom).trans ?_)
  cases nb <;> rfl

/-- The allowance charged, the group's earlier writes released. -/
def sendSpent (w k n : Nat) (e : CapEnt) (m : Mach) : Except (Cause × Nat) Unit × Mach :=
  spendAllowance w k n e.allow (flushAll ((capSeen w k m).wg w).core (capSeen w k m).useFree)

/-- The message has gone to its target: a host acknowledges it later, a channel has it (R422). -/
def messageSent (w g : Nat) (o : Out) (k off n : Nat) (bs : List Byte) (nb : Bool) (pd : Nat) (ls : Mask) (p : Nat) (m : Mach) : Machine.Target → Mach
  | .host i => setOut w g o.id (.qsend k off n (some bs) nb pd ls true) (putMessage p (.host i) bs m)
  | .channel c => landOut w g o.id (nbWrites nb pd ls true) (putMessage p (.channel c) bs m)
  | .remote d q c => landOut w g o.id (nbWrites nb pd ls true) (putMessage p (.remote d q c) bs m)

theorem sendMessage_sends (hu : sendCap w k n m = .ok e) (he : earlierMessage (capSeen w k m) w g o.id e.tgt = false)
    (hroom : targetRoom (capSeen w k m) (m.wg w).part e.tgt = true) (hs : sendSpent w k n e m = (.ok (), n1)) : sendMessage w g o k off n bs nb pd ls m =
      messageSent w g o k off n bs nb pd ls (m.wg w).part n1 e.tgt := by
  unfold sendSpent sendCap capSeen at *
  unfold sendMessage
  dsimp only
  rw [hu]
  refine (if_neg (ne_true_of_eq_false he)).trans ((if_neg (by simp [hroom])).trans ?_)
  rw [hs]
  cases e.tgt <;> rfl

theorem sendMessage_unspent (hu : sendCap w k n m = .ok e) (he : earlierMessage (capSeen w k m) w g o.id e.tgt = false)
    (hroom : targetRoom (capSeen w k m) (m.wg w).part e.tgt = true) (hs : sendSpent w k n e m = (.error f, n1)) :
    sendMessage w g o k off n bs nb pd ls m = capFail w g o f n1 := by
  unfold sendSpent sendCap capSeen at *
  unfold sendMessage
  dsimp only
  rw [hu]
  refine (if_neg (ne_true_of_eq_false he)).trans ((if_neg (by simp [hroom])).trans ?_)
  rw [hs]

theorem qsendHostAck_lands {msg : Option (List Byte)} (hf : findOut m w g id = some o) (hk : o.kind = .qsend k off n msg nb pd ls true) :
    qsendHostAck w g id m = landOut w g id (nbWrites nb pd ls true) m := by
  unfold qsendHostAck
  rw [hf]
  dsimp only
  rw [hk]

end Sending

section Receiving

variable {k off cap pd c : Nat} {nb : Bool} {dst : Reg} {ls : Mask} {e : CapEnt} {f : Cause × Nat} {x : Msg} {xs : List Msg}

theorem qrecvReceive_denied (hf : findOut m w g id = some o) (hk : o.kind = .qrecv k off cap nb pd dst ls) (hfr : frozen (m.wg w) = false)
    (he : earlierReceive m w g id k = false) (hu : useCap w k mayReceive (capSeen w k m) = .error f) : qrecvReceive w g id m = capFail w g o f (capSeen w k m) := by
  unfold capSeen at *
  unfold qrecvReceive
  rw [hf]
  dsimp only
  rw [hk]
  refine (if_neg (by rw [hfr, he]; decide)).trans ?_
  rw [hu]

theorem qrecvReceive_takes (hf : findOut m w g id = some o) (hk : o.kind = .qrecv k off cap nb pd dst ls) (hfr : frozen (m.wg w) = false)
    (he : earlierReceive m w g id k = false) (hu : useCap w k mayReceive (capSeen w k m) = .ok e) (hc : e.tgt = .channel c) :
    qrecvReceive w g id m = takeMessage w g o c off cap nb pd dst ls (capSeen w k m) := by
  unfold capSeen at *
  unfold qrecvReceive
  rw [hf]
  dsimp only
  rw [hk]
  refine (if_neg (by rw [hfr, he]; decide)).trans ?_
  rw [hu]
  dsimp only
  rw [hc]

theorem takeMessage_takes (hq : (channelOf m (m.wg w).part c).msgs = x :: xs) (hlen : x.bytes.length ≤ cap) (hkeys : (scratchKeys m w off x.bytes.length).isSome = true) :
    takeMessage w g o c off cap nb pd dst ls m = landOut w g o.id ((lanesOf ls).map (fun l => .reg dst.toNat l (msgHeader x)) ++ nbWrites nb pd ls true)
      (dropCache (m.wg w).core (scratchWrite w off x.bytes (channelTake (m.wg w).part c m))) := by
  unfold takeMessage
  dsimp only
  rw [hq]
  refine (if_neg (Nat.not_lt.2 hlen)).trans (if_neg ?_)
  rw [Option.isNone_iff_eq_none]
  exact Option.isSome_iff_ne_none.1 hkeys

theorem takeMessage_none (hq : (channelOf m (m.wg w).part c).msgs = []) : takeMessage w g o c off cap nb pd dst ls m =
    if nb then landOut w g o.id (nbWrites nb pd ls false) m else m := by
  unfold takeMessage
  dsimp only
  rw [hq]

end Receiving

theorem backlogDrain_delivers {p : Nat} {r : List Byte} {rs : List (List Byte)} (hb : (m.part p).backlog = r :: rs)
    (hroom : (channelOf m p 0).msgs.length < (channelOf m p 0).cap) :
    backlogDrain p m = channelPut p 0 ⟨3, 0, r⟩ (m.modP p fun q => { q with backlog := rs }) := by
  unfold backlogDrain
  rw [hb]
  exact if_pos (decide_eq_true hroom)

end Messages

/-! ### The statement, engine by engine -/

/-- Settles O50: each step of the table acts by its function of the machine (`acts`), and what that function comes to in each case of the statement is one of the
equations above or a law of `Laws`. -/
theorem engineSteps : Obligations.EngineSteps := by
  intro w g id o found awake
  refine ⟨?rook, ?publish, ?oload, ?mconv, fun n rows m => fill_law w n id rows m, ?msign, ?passes,
    ?tacq, ?tld, ?mstat, ?tdrain, fun _ _ _ => rfl, ?collections, ?knight, ?qsend, ?hostAck, ?qrecv, ?backlog⟩
  case rook =>
    intro k s c at_ site others goes
    exact ⟨acts (fun _ => rfl) fun m ⟨h, ha, hfirst⟩ => copySliceStart_arrives h ha hfirst,
      acts (fun _ => rfl) fun m ⟨h, hq, ho, hb, hroom, hfirst⟩ => copySliceStart_starts h hq ho hb hroom hfirst,
      fun m h hm => sectorMoves_needs h.2 hm,
      fun src ps => acts (fun _ => rfl) fun m ⟨h, hp⟩ => copySector_moves h hp,
      fun e side i a f => acts (fun _ => rfl) fun m ⟨h, hp, hf⟩ => copySector_faults h hp hf,
      acts (fun _ => rfl) fun m ⟨hc, hex, hfault, hland, href, hall, hst⟩ => copyComplete_completes hc hex hfault hland href hall hst⟩
  case publish =>
    exact fun k drop s hk => acts (fun _ => rfl) fun m ⟨hf, haw, hs, hcopies, hearly, hbusy, hupper⟩ => publishSwap_swaps hf hk haw hs hcopies hearly hbusy hupper
  case oload =>
    exact fun n sp src stride claim hk => ⟨fun rows => acts (fun _ => rfl) fun m ⟨⟨hf, hmay⟩, hr⟩ => oloadLanding_lands hf hk hmay hr,
      fun c a => acts (fun _ => rfl) fun m ⟨⟨hf, hmay⟩, hr⟩ => oloadLanding_fails hf hk hmay hr⟩
  case mconv =>
    exact fun n half sat inf uns prec code src stride claim rows hk => acts (fun _ => rfl) fun m ⟨hf, hmay, hr⟩ => mconvLanding_lands hf hk hmay hr
  case msign => exact fun c e => acts (fun _ => rfl) fun m ⟨hg, ha, hroom, he⟩ => msignSubmit_submits hg ha hroom he
  case passes =>
    exact fun c p ps => ⟨acts (fun _ => rfl) fun m ⟨hs, hroom⟩ => passStart_starts hs hroom, fun now xs h => pass_first now xs p ps h,
      acts (fun _ => rfl) fun m ⟨hp, habs, hend⟩ => passRetire_retires hp habs hend, passTile_law⟩
  case tacq => exact fun d t ls hk => acts (fun _ => rfl) fun m ⟨hf, haw, hpass, hdrain⟩ => tacqLanding_lands hf hk haw hpass hdrain
  case tld => exact fun ws hk => acts (fun _ => rfl) fun m hf => tldLanding_lands hf hk
  case mstat => exact fun d sel ls hk => acts (fun _ => rfl) fun m ⟨hf, haw⟩ => mstatLanding_lands hf hk haw
  case tdrain =>
    intro t clr add sp dst stride elems int done hk from_ left refused may goes drained
    have applied (m : Mach) (ps : List (Nat × Option Place)) (r : Mach × Option Nat) (h : goes m ps) (hr : drained m ps = r) :
        tdrainComplete w g id m = drainEnded w g o t clr add sp dst stride (elems, int) r := by
      obtain ⟨⟨hf, hw⟩, href, hp, hwait, herr⟩ := h
      exact (tdrainComplete_applies hf hk hw href).trans ((drainApply_placed hp hwait herr).trans (congrArg _ hr))
    exact ⟨fun ps n => acts (fun _ => rfl) fun m ⟨h@⟨⟨hf, _⟩, _⟩, hr⟩ => (applied m ps _ h hr).trans (congrArg (landOut w g · [] _) (findOut_id hf)),
      fun ps n i => acts (fun _ => rfl) fun m ⟨h, hr⟩ => applied m ps _ h hr,
      fun c a => acts (fun _ => rfl) fun m ⟨⟨hf, hw⟩, href, hp⟩ => (tdrainComplete_applies hf hk hw href).trans (drainApply_unplaced hp),
      fun c => acts (fun _ => rfl) fun m ⟨⟨hf, hw⟩, href⟩ => tdrainComplete_refused hf hk hw href⟩
  case collections =>
    intro e l c n k
    exact ⟨acts (fun _ => rfl) fun m ⟨hidle, htry⟩ => collExecute_performs hidle htry,
      fun d => acts (fun _ => rfl) fun m ⟨hbusy, ⟨j, hop⟩, hp⟩ => collExecute_completes hbusy hop hp,
      fun d => acts (fun _ => rfl) fun m ⟨hbusy, hop, hw, hp⟩ => thawComplete_completes hbusy hop hw hp,
      fun m d hr hnbr hthaw hp => collTry_performs hr hnbr hthaw hp,
      fun m cause a info hr hnbr hthaw hp => collTry_faults hr hnbr hthaw hp,
      fun m s x hden hat hop hfr => collPerform_frozen hden hat hop hfr,
      fun m s x el hden hat hfr hop hel => collPerform_ins hden hat hfr hop hel,
      fun m s x hden hat hfr hop => collPerform_rem hden hat hfr hop⟩
  case knight =>
    intro cl r a b rest d runs takes put
    exact ⟨fun c n => acts (fun _ => rfl) fun m ⟨hidle, hfirst, htry⟩ => kTraverse_starts hidle hfirst htry,
      acts (fun _ => rfl) fun m ⟨hrun, hs⟩ => (kTraverse_runs hrun).trans (kStep_empty hs),
      fun ps => acts (fun _ => rfl) fun m ⟨⟨hrun, hs, hd⟩, hp, hroom⟩ => (kTraverse_runs hrun).trans (kStep_pushes hs hd hp hroom),
      fun ps => acts (fun _ => rfl) fun m ⟨⟨hrun, hs, hd⟩, hp, hfull⟩ => (kTraverse_runs hrun).trans (kStep_overflows hs hd hp hfull),
      fun x y r1 m1 => acts (fun _ => rfl) fun m ⟨⟨hrun, hs, hd⟩, hp, he⟩ => (kTraverse_runs hrun).trans (kStep_emits hs hd hp he),
      fun x y => acts (fun _ => rfl) fun m ⟨⟨hrun, hs, hd⟩, hp, he⟩ => (kTraverse_runs hrun).trans (kStep_full hs hd hp he),
      fun m c ra rb ha hb => ⟨kPair_apart ha hb, fun h hla hlb hne => kPair_leaves ha hb h hla hlb hne⟩,
      fun r1 m1 => ⟨acts (fun _ => rfl) fun m h => kDone_ends h, acts (fun _ => rfl) fun m h => kDone_ends h, acts (fun _ => rfl) fun m h => kDone_ends h,
        fun f => acts (fun _ => rfl) fun m h => kDone_ends h⟩⟩
  case qsend =>
    intro k off n bs nb pd ls hk may seen use part goes spent
    exact ⟨fun e n1 => acts (fun _ => rfl) fun m ⟨⟨⟨hf, hb⟩, hu, he⟩, hroom, hs⟩ =>
        ((qsendEnqueue_tries hf hk hb).trans (sendMessage_sends hu he hroom hs)).trans (by cases e.tgt <;> rfl),
      fun e f n1 => acts (fun _ => rfl) fun m ⟨⟨⟨hf, hb⟩, hu, he⟩, hroom, hs⟩ => (qsendEnqueue_tries hf hk hb).trans (sendMessage_unspent hu he hroom hs),
      fun e => acts (fun _ => rfl) fun m ⟨⟨hf, hb⟩, hu⟩ => (qsendEnqueue_tries hf hk hb).trans (sendMessage_denied hu),
      fun e => acts (fun _ => rfl) fun m ⟨⟨⟨hf, hb⟩, hu, he⟩, hroom⟩ => (qsendEnqueue_tries hf hk hb).trans (sendMessage_noRoom hu he hroom)⟩
  case hostAck => exact fun k off n bs nb pd ls hk => acts (fun _ => rfl) fun m hf => qsendHostAck_lands hf hk
  case qrecv =>
    intro k off cap nb pd dst ls hk may seen use queue
    exact ⟨fun e c x xs hc => acts (fun _ => rfl) fun m ⟨⟨hf, hfr, he⟩, hu, hq, hlen, hkeys⟩ => (qrecvReceive_takes hf hk hfr he hu hc).trans (takeMessage_takes hq hlen hkeys),
      fun e c hc => acts (fun _ => rfl) fun m ⟨⟨hf, hfr, he⟩, hu, hq⟩ => (qrecvReceive_takes hf hk hfr he hu hc).trans (takeMessage_none hq),
      fun e => acts (fun _ => rfl) fun m ⟨⟨hf, hfr, he⟩, hu⟩ => qrecvReceive_denied hf hk hfr he hu⟩
  case backlog => exact fun p r rs => acts (fun _ => rfl) fun m ⟨hb, hroom⟩ => backlogDrain_delivers hb hroom

end Sys2Proof.Proofs
end

section
/-! The family '12_matrix_engine.md': operand slots and fills, signatures, tiles, drains. Each own part is its traps, in their order, and then one effect. -/

namespace Sys2Proof.Proofs

open Sys2Proof Sys2Proof.Machine Sys2Proof.Laws

/-! ### Operand slots (R222 to R228, R245) -/

/-- The instruction's own part fills a slot: it is handed on where no trap of R228 meets it. -/
theorem hands_fill {i : Instr} {slot align len : Nat} {bad : Bool} {sp : Space} {a b : Reg} {kind : Nat → Nat → Nat → OutKind} (hc : waitClass i = 4)
    (he : ∀ s, exec i s = execute i (fillOwn i slot bad sp a b align len kind) s) :
    Says.Hands i 4
      (fun w g s => let stride := ((Says.reads w g s).reg b.toNat (lowLaneD (Says.eff i w g s))).toNat
        Says.Free i w g s ∧ bad = false ∧ slot < ((Says.begun i w g s).block w).slots ∧ ((Says.begun i w g s).oslot w slot).claimed = true ∧
          copyOperand i w g s a sp % align = 0 ∧ stride % align = 0 ∧ rowsTrap (Says.begun i w g s) w sp (copyOperand i w g s a sp) stride len = none)
      (fun w g s => kind (copyOperand i w g s a sp) ((Says.reads w g s).reg b.toNat (lowLaneD (Says.eff i w g s))).toNat ((Says.begun i w g s).oslot w slot).claimId)
      (fun _ _ _ => false) := by
  refine hands _ he fun w g s ⟨hf, hbad, hslot, hclaimed, hsrc, hstride, hrows⟩ => ?_
  have src_eq : copyOperand i w g s a sp = copyAddr (Says.reads w g s) a sp (lowLaneD (Says.eff i w g s)) := (copyAddr_eq _ _ _ _).symm
  rw [src_eq] at hsrc hrows ⊢
  exact fill_own hc hf hbad hslot hclaimed hsrc hstride hrows

theorem convRow_eq (code : Nat) : convRow code = if 3 ≤ code then 256 else 512 := by
  simp [convRow, wideCode]

theorem mstatTrap_none {m : Mach} {w sel : Nat} (ht : sel < 16 → sel < (m.block w).tiles) (hs : 32 ≤ sel → sel - 32 < (m.block w).slots) :
    mstatTrap m w sel = none :=
  (if_neg fun ⟨h, hout⟩ => Nat.not_le.2 (ht h) hout).trans (if_neg fun ⟨h, hout⟩ => Nat.not_le.2 (hs h) hout)

/-- Settles O42: past their traps OCLAIM and ORELEASE change their slot, the fills are handed on (`hands_fill`), and so is MSTAT (`mstatTrap_none`). -/
theorem operandSlots : Obligations.OperandSlots := by
  intro n f which d a b sp half sat inf uns prec code gd i r o c t slots base stride fills half_ claim
  refine ⟨?claims, ?releases, ?oload, ?mconv, ?mstat⟩
  case claims =>
    exact ends_guarded _ (fun _ => rfl) (fun w g s h => h.1.1) fun w g s ⟨⟨_, hn⟩, hslot⟩ =>
      (if_neg (Nat.not_le.2 hslot)).trans (if_neg (ne_true_of_eq_false (inRegion_none hn)))
  case releases =>
    exact ends_guarded _ (fun _ => rfl) (fun w g s h => h.1.1) fun w g s ⟨⟨_, hn⟩, hslot, hclaimed⟩ =>
      (if_neg (Nat.not_le.2 hslot)).trans ((if_neg (ne_false_of_eq_true hclaimed)).trans (if_neg (ne_true_of_eq_false (inRegion_none hn))))
  case oload => exact hands_fill rfl fun _ => rfl
  case mconv =>
    have h : Says.Hands c 4 _ _ _ := hands_fill rfl fun _ => rfl
    rw [convRow_eq] at h
    exact h
  case mstat =>
    refine hands_free _ (fun _ => rfl) fun w g s ⟨ht, hs⟩ => ?_
    rw [mkIss_w, mstatTrap_none ht hs]
    rfl

/-! ### Signatures (R231, R233) -/

theorem signerMissing_iff {gs signed : List Nat} : (gs.any fun g => !(signed.contains g)) = true ↔ ¬ ∀ h ∈ gs, h ∈ signed := by
  simp

/-- Settles O43: past its traps a signature counts (`msign_own`); a signer is missing, or the pass is submitted, or it waits for room. -/
theorem signatures : Obligations.Signatures := by
  intro k a b st i word conv fmt after ok last signs room
  have own_eq (w g : Nat) (s : State) (h : ok w g s) : msignOwn k.toNat a b (Says.iss i w g s) (Says.begun i w g s) =
      if (signersOf (word w g s)).any fun h => !((after w g s).signed.contains h) then .done 0 (signs w g s (Says.begun i w g s))
      else if room w g s then .done 0 (submitPass w g k.toNat (signs w g s (Says.begun i w g s)))
      else .placed (dropSlot w g ((signs w g s (Says.begun i w g s)).modG w g fun y => { y with held := some (.msign k.toNat), gaveUp := (Says.begun i w g s).cycle })) := by
    obtain ⟨hword, hset, hagree, hformat, hmap, hregion, hmode⟩ := h
    have reads_eq : (Says.begun i w g s).grp (Says.iss i w g s).w (Says.iss i w g s).g = Says.reads w g s := begun_reads i w g s
    refine msign_own k.toNat a b (Says.iss i w g s) (Says.begun i w g s) (word w g s) (fmt w g s) (after w g s) ?_ ?_ hword hset ?_ hformat hmap
      (inRegion_act hregion) ?_ rfl <;> rw [reads_eq]
    · rfl
    · rfl
    · exact hagree
    · exact hmode
  refine ⟨?counts, ?submits, ?stands⟩
  case counts =>
    exact ends _ (fun _ => rfl) fun w g s ⟨hok, hlast⟩ => (own_eq w g s hok).trans (if_pos (signerMissing_iff.2 hlast))
  case submits =>
    exact ends _ (fun _ => rfl) fun w g s ⟨hok, hlast, hroom⟩ =>
      (own_eq w g s hok).trans ((if_neg (signerMissing_iff.not_left.2 hlast)).trans (if_pos hroom))
  case stands =>
    exact places _ (fun _ => rfl) fun w g s ⟨hok, hlast, hroom⟩ =>
      (own_eq w g s hok).trans ((if_neg (signerMissing_iff.not_left.2 hlast)).trans (if_neg (ne_true_of_eq_false hroom)))

/-! ### Tiles (R236, R239, R240) -/

section Tiles

variable {i : Instr} {t : Nat} {token : Bool}

theorem traps_tileIndex {own : Iss → Mach → Own} (he : ∀ s, exec i s = execute i (tileOwn t token own) s) {w g : Nat} {s : State} (hr : Says.Ready i w g s)
    (h0 : Says.eff i w g s ≠ 0) (ht : ¬ t < ((Says.begun i w g s).block w).tiles) :
    Says.Traps i w g s .tileIndex (freeInfo (Says.begun i w g s)) (Says.eff i w g s) 0 :=
  traps _ he hr ((guarded_eff _ h0).trans (if_pos (Nat.not_lt.1 ht)))

theorem traps_tokenAbsent {own : Iss → Mach → Own} (he : ∀ s, exec i s = execute i (tileOwn t true own) s) {w g : Nat} {s : State} (hr : Says.Ready i w g s)
    (h0 : Says.eff i w g s ≠ 0) (ht : t < ((Says.begun i w g s).block w).tiles) (htoken : ((Says.begun i w g s).tile w t).atEngine = true) :
    Says.Traps i w g s .tokenAbsent (freeInfo (Says.begun i w g s)) (Says.eff i w g s) 0 :=
  traps _ he hr ((guarded_eff _ h0).trans ((if_neg (Nat.not_le.2 ht)).trans (if_pos htoken)))

/-- With the token of a tile within the declared count an instruction on it ends as its own part does. -/
theorem ends_tile {f : Nat → Nat → State → Mach → Mach} (own : Iss → Mach → Own) (he : ∀ s, exec i s = execute i (tileOwn t true own) s)
    (ho : ∀ w g s, own (Says.iss i w g s) (Says.begun i w g s) = .done 0 (f w g s (Says.begun i w g s))) :
    Says.Ends i (fun w g s => Says.Free i w g s ∧ t < ((Says.begun i w g s).block w).tiles ∧ ((Says.begun i w g s).tile w t).atEngine = false) (fun _ _ _ => 0) f :=
  ends _ he fun w g s ⟨hf, ht, htoken⟩ => (tile_own own hf ht fun _ => htoken).trans (ho w g s)

end Tiles

/-- Settles O44: with the token, or without need of it, the own part runs (`tile_own`, `ends_tile`); else the instruction traps (`traps_tokenAbsent`,
`traps_tileIndex`). -/
theorem tiles : Obligations.Tiles := by
  intro d a t gd q r z l p inside own elem
  refine ⟨?tacq, ?trel, ?tzero, ?tld, ?tst, ?absent, ?beyond⟩
  case tacq => exact hands _ (fun _ => rfl) fun w g s ⟨hf, ht⟩ => ⟨0, tile_own _ hf ht nofun⟩
  case trel => exact ends_tile _ (fun _ => rfl) fun w g s => rfl
  case tzero => exact ends_tile _ (fun _ => rfl) fun w g s => rfl
  case tld =>
    refine hands _ (fun _ => rfl) fun w g s ⟨hf, ht, htoken⟩ => ⟨0, (tile_own _ hf ht fun _ => htoken).trans ?_⟩
    dsimp only [mkIss_w, mkIss_g]
    rw [begun_reads]
    rfl
  case tst =>
    refine ends_tile _ (fun _ => rfl) fun w g s => ?_
    rw [show (Says.begun p w g s).grp (Says.iss p w g s).w (Says.iss p w g s).g = Says.reads w g s from begun_reads p w g s]
    rfl
  case absent =>
    simp only [List.forall_mem_cons, List.not_mem_nil, IsEmpty.forall_iff, implies_true, and_true]
    exact ⟨fun w g s => traps_tokenAbsent fun _ => rfl, fun w g s => traps_tokenAbsent fun _ => rfl, fun w g s => traps_tokenAbsent fun _ => rfl,
      fun w g s => traps_tokenAbsent fun _ => rfl⟩
  case beyond =>
    simp only [List.forall_mem_cons, List.not_mem_nil, IsEmpty.forall_iff, implies_true, and_true]
    exact ⟨fun w g s => traps_tileIndex fun _ => rfl, fun w g s => traps_tileIndex fun _ => rfl, fun w g s => traps_tileIndex fun _ => rfl,
      fun w g s => traps_tileIndex fun _ => rfl, fun w g s => traps_tileIndex fun _ => rfl⟩

/-! ### Drains (R242 to R244) -/

section Drains

variable {i : Instr} {a b : Reg} {clr add : Bool} {x : Iss} {m : Mach} {t dst stride : Nat} {sp : Space}

/-- The tile of a drain: one of the sixteen names, within the declared count. -/
def DrainTile (m : Mach) (w t : Nat) : Prop := t < 16 ∧ t < (m.block w).tiles

/-- The rows of a drain are aligned and do not overlap. -/
def RowsShaped (dst stride : Nat) : Prop := dst % 32 = 0 ∧ stride % 32 = 0 ∧ 256 ≤ stride

theorem drainTile_iff : DrainTile m x.w t ↔ ¬ (16 ≤ t ∨ (m.block x.w).tiles ≤ t) := by
  simp [DrainTile]

theorem rowsShaped_iff : RowsShaped dst stride ↔ ¬ (dst % 32 ≠ 0 ∨ stride % 32 ≠ 0 ∨ stride < 256) := by
  simp [RowsShaped]

theorem drainTrap_tileIndex (ht : ¬ DrainTile m x.w t) : drainTrap m x t sp dst stride = some .tileIndex :=
  if_pos (not_not.1 (mt drainTile_iff.2 ht))

theorem drainTrap_drainTarget (ht : DrainTile m x.w t) (hs : ¬ RowsShaped dst stride) : drainTrap m x t sp dst stride = some .drainTarget :=
  (if_neg (drainTile_iff.1 ht)).trans (if_pos (not_not.1 (mt rowsShaped_iff.2 hs)))

/-- Rows inside their space and, in scratchpad, in no hidden half of a shadow buffer. -/
theorem drainTrap_none (ht : DrainTile m x.w t) (hs : RowsShaped dst stride) (hrows : rowsTrap m x.w sp dst stride 256 = none)
    (hhidden : sp = .scr → ∀ k, k < 64 → meetsHidden (m.wg x.w).shadows false (dst + k * stride) 256 = false) : drainTrap m x t sp dst stride = none := by
  refine (if_neg (drainTile_iff.1 ht)).trans ((if_neg (rowsShaped_iff.1 hs)).trans ?_)
  rw [hrows]
  refine if_neg fun ⟨hsp, hany⟩ => ?_
  obtain ⟨k, hk, hmeets⟩ := List.any_eq_true.1 hany
  exact ne_true_of_eq_false (hhidden hsp k (List.mem_range.1 hk)) hmeets

variable {y : Group} (hy : m.grp x.w x.g = y) (h0 : x.eff ≠ 0) (hdst : copyAddr y a sp (lowLaneD x.eff) = dst) (hstride : (y.reg b.toNat (lowLaneD x.eff)).toNat = stride)
include hy h0 hdst hstride

theorem tdrainOwn_traps {c : Cause} (ht : drainTrap m x t sp dst stride = some c) : tdrainOwn i t a b clr add sp x m = trapEff x c m := by
  subst hy hdst hstride
  refine (if_neg h0).trans ?_
  rw [ht]

/-- A drain with no trap, whose turn has not ended, with room in the turn buffer and no refusal of the region table. -/
theorem tdrainOwn_drains {sh : Bool} (ht : drainTrap m x t sp dst stride = none) (hn : inRegion x x.eff m = false) (hsh : drainShared m x.w sp dst stride = sh)
    (hturn : sh = true → turnEnded m x.w = false ∧ turnFull m x.w 1 = false) (hno : drainRefusal m x.w sp dst stride = none) :
    tdrainOwn i t a b clr add sp x m = .done (if sp = .scr then 0 else 512)
      (captureDrains x.w t (handOn i x (waitClass i) (.tdrain t clr add sp dst stride none 0) sh m)) := by
  subst hy hdst hstride hsh
  refine (if_neg h0).trans ?_
  rw [ht]
  refine (if_neg (ne_true_of_eq_false hn)).trans ((if_neg ?ended).trans ((if_neg ?full).trans ?_))
  case ended =>
    rw [Bool.and_eq_true]
    exact fun ⟨hsh, hended⟩ => ne_true_of_eq_false (hturn hsh).1 hended
  case full =>
    rw [Bool.and_eq_true]
    exact fun ⟨hsh, hfull⟩ => ne_true_of_eq_false (hturn hsh).2 hfull
  rw [hno]
  rfl

end Drains

/-- Settles O45: past its traps (`drainTrap_none`) a drain is handed on and its tile is read where no pass is before it (`tdrainOwn_drains`); the traps of the tile
and of the rows are `drainTrap_tileIndex` and `drainTrap_drainTarget`. -/
theorem drains : Obligations.Drains := by
  intro t a b clr add sp gd i dst stride inside shaped sh raises
  have raised (w g : Nat) (s : State) (c : Cause) (hr : Says.Ready i w g s) (h0 : Says.eff i w g s ≠ 0)
      (ht : drainTrap (Says.begun i w g s) (Says.iss i w g s) t.toNat sp (dst w g s) (stride w g s) = some c) : raises w g s c :=
    traps _ (fun _ => rfl) hr (tdrainOwn_traps (begun_reads i w g s) h0 (copyAddr_eq _ _ _ _) rfl ht)
  refine ⟨?drains, fun w g s hr h0 => ⟨?index, ?target⟩⟩
  case drains =>
    exact ends _ (fun _ => rfl) fun w g s ⟨⟨h0, hn⟩, hin, hshaped, hrows, hhidden, hturn, hno⟩ =>
      tdrainOwn_drains (begun_reads i w g s) h0 (copyAddr_eq _ _ _ _) rfl (drainTrap_none hin hshaped hrows hhidden) (inRegion_none hn) rfl hturn hno
  case index => exact fun hin => raised w g s _ hr h0 (drainTrap_tileIndex hin)
  case target => exact fun hin hshaped => raised w g s _ hr h0 (drainTrap_drainTarget hin hshaped)

end Sys2Proof.Proofs
end

section
/-! The family '14_collection_instructions.md' (O46): the commands of a collection instruction enter the queues of their engine lanes, or wait outside them. -/

namespace Sys2Proof.Proofs

open Sys2Proof Sys2Proof.Machine Sys2Proof.Laws

/-- Settles O46: the thirteen instructions have one own part, which with a lane that takes effect, no trap and room in queues and turn buffer hands on its command
and queues the lanes whose engine lane is known (`coll_own`). They differ in operation, operands and charge. -/
theorem collectionCommands : Obligations.CollectionCommands := by
  intro d a b which cnt eng i32 keepz gd lane sh args hands elem head word
  have enters (i : Instr) (op : CollOp) (d a : Reg) (arg : Group → Nat → DWord × BitVec 128 × BitVec 128) (cost : List CollLane → Nat) (hc : waitClass i = 5)
      (he : ∀ s, exec i s = execute i (collOwn i op d a arg cost) s) : hands i op d a arg cost := by
    refine ends _ he fun w g s ⟨⟨h0, _⟩, htrap, hroom, hturn⟩ => ?_
    have reads_eq : (Says.begun i w g s).grp (Says.iss i w g s).w (Says.iss i w g s).g = Says.reads w g s := begun_reads i w g s
    have some_lane : args i op arg w g s ≠ [] := mt List.map_eq_nil_iff.1 (lanesOf_ne h0)
    have own_eq := coll_own i op d a arg cost (Says.iss i w g s) (Says.begun i w g s) (args i op arg w g s) (sh i op arg w g s) ?shared ?lanes some_lane htrap hroom
      hturn hc
    · rwa [reads_eq] at own_eq
    case shared =>
      rw [reads_eq]
      rfl
    case lanes =>
      rw [reads_eq, begun_nextCmd]
      simp only [Bool.and_eq_true, Bool.not_eq_true']
      rfl
  exact ⟨enters (.cins d a b gd) .ins d a elem (fun _ => 1) rfl fun _ => rfl,
    enters (.crem d a b gd) .rem d a elem (fun _ => 1) rfl fun _ => rfl,
    enters (.cmove d a b gd) .move d a (fun y l => (y.pair b.toNat l, y.quad a.toNat l, y.quad d.toNat l)) (fun _ => 2) rfl fun _ => rfl,
    enters (.copen d a b gd) .open_ d a elem (fun _ => 1) rfl fun _ => rfl,
    enters (.cnext d a gd) .next d a word (fun _ => 1) rfl fun _ => rfl,
    enters (.cclose a gd) .close a a word (fun _ => 0) rfl fun _ => rfl,
    enters (.ccount d which b gd) (.count which.toNat) d b (head b) (fun _ => 1) rfl fun _ => rfl,
    enters (.cfreeze d b gd) .freeze d b (head b) (fun _ => 8) rfl fun _ => rfl,
    enters (.cthaw d b gd) .thaw d b (head b) (fun _ => 8) rfl fun _ => rfl,
    enters (.cnbr d a cnt gd) (.nbr cnt.toNat) d a (head a) (fun _ => 16) rfl fun _ => rfl,
    enters (.cmrg d a b i32 keepz gd) (.mrg i32 keepz) d a (fun y l => (y.pair a.toNat l, 0, (y.pair b.toNat l).setWidth 128)) mergeCost rfl fun _ => rfl,
    enters (.cinit d a eng gd) (.init eng.toNat) d a (head a) (fun _ => 8) rfl fun _ => rfl,
    enters (.cinitRel d a gd) .release d a (head a) (fun _ => 8) rfl fun _ => rfl⟩

end Sys2Proof.Proofs
end

section
/-! The family '15_knight.md' (O47): traversals handed to the Knight, and KSTAT. -/

namespace Sys2Proof.Proofs

open Sys2Proof Sys2Proof.Machine Sys2Proof.Laws

/-- The operands of a traversal that raise no KNIGHT_NODE at issue: an aligned descriptor within 52 bits, and a record queue (R296). -/
def KnightOperands (desc queue : DWord) : Prop := desc.toNat % 128 = 0 ∧ desc.toNat < 2 ^ 52 ∧ queue ≠ 0

theorem knightOperands_iff {desc queue : DWord} : KnightOperands desc queue ↔ ¬ (desc.toNat % 128 ≠ 0 ∨ 2 ^ 52 ≤ desc.toNat ∨ queue = 0) := by
  simp [KnightOperands]

section Traversals

variable {i : Instr} {d a : Reg} {self resume : Bool} {x : Iss} {m : Mach} {desc queue : DWord} (h0 : x.eff ≠ 0)
  (hdesc : (m.grp x.w x.g).pair a.toNat (lowLaneD x.eff) = desc) (hqueue : (m.block x.w).recordQueue = queue)
include h0 hdesc hqueue

theorem ktravOwn_traps (h : ¬ KnightOperands desc queue) : ktravOwn i d a self resume x m = .trap .knightNode (infoLow m 0xFFFFFFFF) x.eff 0 := by
  subst hdesc hqueue
  exact (if_neg h0).trans (if_pos (not_not.1 (mt knightOperands_iff.2 h)))

/-- A traversal outside regions whose ranges are not late in the order of turns, with room in the turn buffer and, unless it waits there, at the Knight. -/
theorem ktravOwn_queues {sh : Bool} (h : KnightOperands desc queue) (hn : inRegion x x.eff m = false)
    (hlate : ∀ r ∈ kSpans m x.w desc queue, engineLate m x.w false r.1 r.2 = false)
    (hsh : (isDet m x.w && (kSpans m x.w desc queue).any fun r => !(ownedBySelf m x.w false r.1 r.2)) = sh)
    (hroom : (sh = true ∧ holdsTurn m x.w = false) ∨ kWaiting m (clusterOfCore (m.wg x.w).core) < 16) (hturn : sh = true → turnFull m x.w 1 = false) :
    ktravOwn i d a self resume x m = .done 16 (queueKnight
      ⟨x.w, x.g, m.nextCmd, (m.wg x.w).part, (m.wg x.w).ctx, desc, queue, self, resume, sh,
        if isDet m x.w then spansDenied m x.w (kSpans m x.w desc queue) else none, false, 0⟩ (m.wg x.w).core
      (handOn i x (waitClass i) (.ktrav d x.eff desc queue self resume 0 []) sh m)) := by
  subst hdesc hqueue hsh
  refine (if_neg h0).trans ((if_neg (knightOperands_iff.1 h)).trans ((if_neg (ne_true_of_eq_false hn)).trans ((if_neg ?late).trans ((if_neg ?full).trans (if_neg ?room)))))
  case late =>
    rw [List.any_eq_true]
    exact fun ⟨r, hr, hl⟩ => ne_true_of_eq_false (hlate r hr) hl
  case full =>
    rw [Bool.and_eq_true]
    exact fun ⟨hs, hf⟩ => ne_true_of_eq_false (hturn hs) hf
  case room =>
    rw [Bool.and_eq_true, Bool.not_eq_true', decide_eq_true_eq]
    rintro ⟨hl, hw⟩
    rcases hroom with ⟨hs, hh⟩ | hroom
    · rw [hs, hh] at hl
      exact nomatch hl
    · exact Nat.not_le.2 hroom hw

end Traversals

/-- Settles O47: past its traps a traversal is handed on and queued (`ktravOwn_queues`), KNIGHT_NODE comes first (`ktravOwn_traps`), and KSTAT hands on its
result. -/
theorem knightCommands : Obligations.KnightCommands := by
  intro d a self which gd desc queue good hands
  have queues (i : Instr) (resume : Bool) (hc : waitClass i = 6) (he : ∀ s, exec i s = execute i (ktravOwn i d a self resume) s) : hands i resume := by
    refine ends _ he fun w g s ⟨⟨h0, hn⟩, hgood, hlate, hroom, hturn⟩ => ?_
    have own_eq := ktravOwn_queues (i := i) (d := d) (self := self) (resume := resume) (x := Says.iss i w g s) h0
      (congrArg (Group.pair · a.toNat (lowLaneD (Says.eff i w g s))) (begun_reads i w g s)) rfl hgood (inRegion_none hn) hlate rfl hroom hturn
    rw [hc, begun_nextCmd] at own_eq
    rw [begun_nextCmd]
    exact own_eq
  have traps_ (i : Instr) (resume : Bool) (he : ∀ s, exec i s = execute i (ktravOwn i d a self resume) s) (w g : Nat) (s : State) (hr : Says.Ready i w g s)
      (h0 : Says.eff i w g s ≠ 0) (hbad : ¬ good i w g s) : Says.Traps i w g s .knightNode (infoLow (Says.begun i w g s) 0xFFFFFFFF) (Says.eff i w g s) 0 :=
    traps _ he hr (ktravOwn_traps h0 (congrArg (Group.pair · a.toNat (lowLaneD (Says.eff i w g s))) (begun_reads i w g s)) rfl hbad)
  refine ⟨queues _ false rfl fun _ => rfl, queues _ true rfl fun _ => rfl, ?traps, ?kstat⟩
  case traps =>
    simp only [List.forall_mem_cons, List.not_mem_nil, IsEmpty.forall_iff, implies_true, and_true]
    exact ⟨traps_ _ false fun _ => rfl, traps_ _ true fun _ => rfl⟩
  case kstat => exact Laws.hands _ (fun _ => rfl) fun w g s hf => ⟨0, guarded_noRegion' _ hf⟩

end Sys2Proof.Proofs
end

section
/-! The families '16_order_agent_core.md' and '18_order_engines_atomics_gambit.md' (O19, O20): ordered accesses, and what atomics leave. -/

namespace Sys2Proof.Proofs

open Sys2Proof Sys2Proof.Machine Sys2Proof.Laws

/-! ### Accesses in an order (R304, R328, R329, R335, R336) -/

theorem sizeRegs_eq (sz : MSize) : sizeRegs sz = (sizeBytes sz + 3) / 4 := by
  cases sz <;> rfl

/-- An atomic of a size that its operation supports does its access. -/
theorem execute_sizeChecked {i : Instr} {ok : Bool} {a : Reg} {own : Iss → Mach → Own} (h : ok = true) (s : State) :
    execute i (guarded (sizeChecked ok a own)) s = execute i (guarded own) s := by
  subst h
  rfl

/-- Settles O19: loads, stores and atomics are one form of access (`accessOrd_hands`, `loadOrd_hands`), an atomic after the check of its size; a lock word is one
access for the group (`lock_hands`), and a FENCE has no address. -/
theorem orderedAccessesHandedOn : Obligations.OrderedAccessesHandedOn := by
  intro d a b ord sc cm sz op try_ gd n at_ acc word low hands sized lock
  have checked (h : sized) : atomSizeOk op sz = true := by
    cases sz with
    | b32 | b64 => cases op <;> rfl
    | b8 | b16 => cases op <;> exact h.elim
    | b128 =>
      cases op with
      | xchg => rfl
      | _ => exact h.elim
  refine ⟨?ldo, ?sto, ?atom, ?red, ?cas, ?waitw, ?fence, ?acq, ?rel⟩
  case ldo => exact loadOrd_hands (mk := fun _ _ e => e) (kind := .load .global n false d ord sc) (dreg := d.toNat) (areg := []) rfl rfl (fun _ => rfl) fun _ _ _ _ _ => rfl
  case sto => exact accessOrd_hands (mk := storeData d n) (kind := .store .global n ord sc) (dreg := d.toNat) (areg := []) rfl (fun _ => rfl) fun _ _ _ _ _ => rfl
  case atom =>
    exact fun h => accessOrd_hands (mk := storeData b n) (kind := .rmw (.op op) n (some d) ord sc cm) rfl (fun s => execute_sizeChecked (checked h) s) fun _ _ _ _ _ => rfl
  case red => exact fun h => accessOrd_hands (mk := storeData d n) (kind := .rmw (.op op) n none ord sc cm) rfl (fun s => execute_sizeChecked (checked h) s) fun _ _ _ _ _ => rfl
  case cas =>
    have h := accessOrd_hands (i := .cas d a b ord sc sz gd) (mk := casData b sz) (kind := .rmw .cas n (some d) ord sc false) rfl (fun _ => rfl) fun _ _ _ _ _ => rfl
    unfold casData at h
    rw [sizeRegs_eq] at h
    exact h
  case waitw =>
    have waits := waitw_hands (i := .waitw d a b sc sz gd) (d := d) (b := b) (sc := sc) (sz := sz) rfl fun _ => rfl
    intro hsz
    have words_eq : sizeBytes sz / 4 = (sizeBytes sz + 3) / 4 := by rcases hsz with rfl | rfl <;> rfl
    rw [words_eq] at waits
    exact waits
  case fence => exact Laws.hands _ (fun _ => rfl) fun w g s hf => ⟨0, guarded_noRegion' _ hf⟩
  case acq => exact lock_hands (kind := fun eff ea => .acq d eff ea (decide (try_ = 1)) sc none) rfl fun _ => rfl
  case rel => exact lock_hands (kind := fun _ ea => .rel ea sc) rfl fun _ => rfl

/-! ### What an atomic leaves (R331) -/

/-- A word within its width is what its signed value says. -/
theorem eq_of_toInt_ofNat {k x y : Nat} (hx : x < 2 ^ k) (hy : y < 2 ^ k) (h : (BitVec.ofNat k x).toInt = (BitVec.ofNat k y).toInt) : x = y := by
  have := congrArg BitVec.toNat (BitVec.eq_of_toInt_eq h)
  rwa [BitVec.toNat_ofNat, BitVec.toNat_ofNat, Nat.mod_eq_of_lt hx, Nat.mod_eq_of_lt hy] at this

/-- Where one word's signed value is at most another's, the choice by signed values is the choice of the one or of the other: words of one signed value are the same. -/
theorem ite_toInt_lt {k x y : Nat} (hx : x < 2 ^ k) (hy : y < 2 ^ k) (h : (BitVec.ofNat k x).toInt ≤ (BitVec.ofNat k y).toInt) :
    (if (BitVec.ofNat k x).toInt < (BitVec.ofNat k y).toInt then x else y) = x ∧ (if (BitVec.ofNat k x).toInt < (BitVec.ofNat k y).toInt then y else x) = y := by
  rcases Int.le_iff_lt_or_eq.1 h with hlt | heq
  · exact ⟨if_pos hlt, if_pos hlt⟩
  · rw [eq_of_toInt_ofNat hx hy heq]
    exact ⟨ite_self _, ite_self _⟩

/-- Settles O20: each operation by its own case of `atomValue`; of the two signed minima and maxima, either choice is the same word where the values are equal
(`ite_toInt_lt`). -/
theorem atomicOperations : Obligations.AtomicOperations := by
  intro big old v a n k int f hold hv
  have float_eq : (if n = 8 then fp64 else fp32) = f := by cases big <;> rfl
  refine ⟨rfl, rfl, rfl, rfl, rfl, fun h => ⟨if_neg (Int.not_lt.2 h), (ite_toInt_lt hold hv h).2⟩,
    fun h => ⟨(ite_toInt_lt hv hold h).1, if_neg (Int.not_lt.2 h)⟩,
    fun h => ⟨Nat.min_eq_left h, Nat.max_eq_right h⟩, fun h => ⟨Nat.min_eq_right h, Nat.max_eq_left h⟩, ?fadd, ?fmin, ?fmax, rfl⟩
  all_goals rw [← float_eq]; rfl

end Sys2Proof.Proofs
end

section
/-! The families '17_order_cores_dies_devices.md' and '18_order_engines_atomics_gambit.md' (O21, O22, O23): bindings, and Gambit regions with their accesses. -/

namespace Sys2Proof.Proofs

open Sys2Proof Sys2Proof.Machine Sys2Proof.Laws

/-! ### Bindings (R316 to R318) -/

section Bindings

variable {i : Instr} {d a b : Reg} {e : Nat} {all vault : Bool} {kind : BindKind} {x : Iss} {m : Mach} {en : Bind}

/-- The command handed on last by a group is the one just handed on. -/
theorem lastOut_handOn (i : Instr) (x : Iss) (cls : Nat) (k : OutKind) (sh : Bool) (m : Mach) : lastOut (handOn i x cls k sh m) x.w x.g =
    some ⟨m.nextCmd, cls, x.rec_, k, none, regWrites i, predWrites i, sh, (m.grp x.w x.g).lastDue, serialInterval (m.grp x.w x.g)⟩ := by
  unfold lastOut
  rw [handOn_grp, List.reverse_append]
  rfl

variable (hen : bindEntry (m.grp x.w x.g) d a b all vault kind (lowLaneD x.eff) = en) (ht : bindTrap m x e en = none) (hn : inRegion x x.eff m = false)
include hen ht hn

theorem bindOwn_writes (hlive : kind = .ph → livePhaser m (m.wg x.w).part (m.wg x.w).ctx (en.obj.setWidth 32) ≠ none) :
    bindOwn i d a b e all vault kind x m = .done 0 (handOn i x (waitClass i) (.cmd (.land []) none x.eff) false (putBind x.w e en m)) := by
  subst hen
  unfold bindOwn
  simp only [ht]
  exact (if_neg (ne_true_of_eq_false hn)).trans (if_neg fun ⟨hk, hdead⟩ => hlive hk hdead)

theorem bindOwn_faults (hk : kind = .ph) (hdead : livePhaser m (m.wg x.w).part (m.wg x.w).ctx (en.obj.setWidth 32) = none) :
    bindOwn i d a b e all vault kind x m =
      .done 0 (failOut x.w x.g m.nextCmd ⟨.phaserHandle, x.rec_.lanes, 0, freeInfo m⟩ (handOn i x (waitClass i) (.cmd (.bindPh e en) none x.eff) false m)) := by
  subst hen
  unfold bindOwn
  simp only [ht]
  refine (if_neg (ne_true_of_eq_false hn)).trans ((if_pos ⟨hk, hdead⟩).trans ?_)
  rw [lastOut_handOn]
  rfl

end Bindings

/-- Settles O21: past its traps a BIND writes its entry and lands later (`bindOwn_writes`), or its phaser's handle is not live and its command is found faulting
(`bindOwn_faults`). -/
theorem bindings : Obligations.Bindings := by
  intro d a b e all vault kind g i u entry may live
  have entry_eq (w h : Nat) (s : State) : bindEntry ((Says.begun i w h s).grp w h) d a b all vault kind (lowLaneD (Says.eff i w h s)) = entry w h s := by
    rw [begun_reads]
    cases kind <;> rfl
  refine ⟨?writes, ?faults, ?unbinds⟩
  case writes =>
    exact ends _ (fun _ => rfl) fun w h s ⟨⟨h0, hn, ht⟩, hlive⟩ =>
      (guarded_eff _ h0).trans (bindOwn_writes (x := Says.iss i w h s) (entry_eq w h s) ht (inRegion_none hn) hlive)
  case faults =>
    refine ends _ (fun _ => rfl) fun w h s ⟨⟨h0, hn, ht⟩, hk, hdead⟩ =>
      (guarded_eff _ h0).trans ((bindOwn_faults (x := Says.iss i w h s) (entry_eq w h s) ht (inRegion_none hn) hk (not_not.1 hdead)).trans ?_)
    rw [begun_nextCmd]
    rfl
  case unbinds => exact ends _ (fun _ => rfl) fun w h s hf => guarded_noRegion' _ hf

/-! ### Gambit regions (R341 to R347) -/

/-- GBEGIN at a header, where no lane has a region, outside handlers and serial sections, with slots for the lanes. -/
theorem gbeginOwn_opens {d : Reg} {off : BitVec 19} {x : Iss} {m : Mach} {t : DWord} (htgt : x.pc + (off.signExtend 64 <<< 2) = t)
    (hw : targetWaits m x.w t = false) (ht : (targetAt m x.w false t).isOk = true) (hnone : ∀ l ∈ lanesOf x.eff, anyRegion m x.w x.g l = none)
    (hmode : (m.grp x.w x.g).trapMode = none) (hserial : inSerial x m = false) (hslots : regionSlots m (m.wg x.w).core + popMask x.eff ≤ 64) :
    gbeginOwn d off x m = .done 0 ((lanesOf x.eff).foldl (fun acc l => openRegion x.w x.g t d l acc) m) := by
  subst htgt
  obtain ⟨header, hok⟩ : ∃ header, targetAt m x.w false (x.pc + (off.signExtend 64 <<< 2)) = .ok header := by
    cases h : targetAt m x.w false (x.pc + (off.signExtend 64 <<< 2)) with
    | ok header => exact ⟨header, rfl⟩
    | error c => exact nomatch h ▸ ht
  unfold gbeginOwn
  simp only [hw, hok]
  refine (if_neg ?nested).trans ((if_neg ?handler).trans ((if_neg (ne_true_of_eq_false hserial)).trans (if_neg (Nat.not_lt.2 hslots))))
  case nested =>
    rw [List.any_eq_true]
    rintro ⟨l, hl, hsome⟩
    rw [hnone l hl] at hsome
    exact nomatch hsome
  case handler =>
    rw [hmode]
    exact Bool.false_ne_true

/-- Settles O22: GBEGIN past its traps opens the lanes' regions (`gbeginOwn_opens`), GABORT is its own equation, and GCOMMIT asks for the lanes' commits
(`gcommit_own`). -/
theorem gambitRegions : Obligations.GambitRegions := by
  intro d off code g b a c tgt open1
  refine ⟨?begins, ?aborts, ?commits⟩
  case begins =>
    refine ends_guarded _ (fun _ => rfl) (fun w h s hok => hok.1) fun w h s ⟨_, hw, ht, hnone, hmode, hserial, hslots⟩ => ?_
    exact gbeginOwn_opens (x := Says.iss b w h s) rfl hw ht hnone ((congrArg Group.trapMode (begun_reads b w h s)).trans hmode) (inSerial_none hserial) hslots
  case aborts => exact ends_guarded _ (fun _ => rfl) (fun _ _ _ h0 => h0) fun _ _ _ _ => rfl
  case commits =>
    intro w h s hr h0 m qs live turns asks cmd htrap hturn
    refine execute_done hr ((guarded_eff _ h0).trans ((gcommit_own c (Says.iss c w h s) m rfl rfl rfl htrap hturn).trans ?_))
    rw [show m.grp (Says.iss c w h s).w (Says.iss c w h s).g = Says.reads w h s from begun_reads c w h s]
    rfl

/-! ### Accesses of regions (R344, R345) -/

/-- The word that a store of whole registers takes from them. -/
theorem storeData_word {d : Reg} {n : Nat} (hn : n % 4 = 0) (y : Group) (l : Nat) (e : LaneAcc) :
    (storeData d n y l e).val.setWidth 64 = BitVec.ofNat 64 (y.regsVal d.toNat (n / 4) l) := by
  have regs_eq : (n + 3) / 4 = n / 4 := by omega
  have width_eq : 8 * n = 32 * (n / 4) := by omega
  unfold storeData
  rw [regs_eq, width_eq, Nat.mod_eq_of_lt (regsVal_lt y d.toNat (n / 4) l)]
  exact BitVec.setWidth_ofNat_of_le (by decide) _

/-- Settles O23: both widths are one form of access, whose lanes in regions store into their store list (`storeIn`) and load through it (`loadIn`). -/
theorem regionAccesses : Obligations.RegionAccesses := by
  intro d a ofs two gd n st ld far
  have stores (s : State) : exec st s = execute st (guarded (accessOwn st ⟨.global, n, false, true, true⟩ far (storeData d n) (.store .global n .rlx .group) d.toNat
      [a.toNat, a.toNat + 1])) s := by cases two <;> rfl
  have loads (s : State) : exec ld s = execute ld (guarded (accessOwn ld ⟨.global, n, true, false, true⟩ far (fun _ _ e => e) (.load .global n false d .rlx .group) d.toNat
      [a.toNat, a.toNat + 1])) s := by cases two <;> rfl
  have words : n % 4 = 0 := show (if two then 8 else 4) % 4 = 0 by cases two <;> rfl
  have class_eq : waitClass ld = 0 := by cases two <;> rfl
  refine ⟨fun w g s hr hc hin => ?_, fun m w g l addr v dr ar => regionStoreAt_data m w g l addr n v dr ar, fun w g s hr hc => loadIn class_eq loads w g s hr hc⟩
  have taken := storeIn stores w g s hr hc hin
  simp only [storeData_word words] at taken
  exact taken

end Sys2Proof.Proofs
end

section
/-! The families '18_order_engines_atomics_gambit.md' and '23_host_fabric_security.md' (O38, O41): commands tried at once, and messages. -/

namespace Sys2Proof.Proofs

open Sys2Proof Sys2Proof.Machine Sys2Proof.Laws

/-! ### Tried commands (R339, R45, R423) -/

/-- Settles O38: every command but CAPLD's is one form (`Laws.tries`), GNODE.arm and GNODE.sig past their own traps; CAPLD stands outside regions. -/
theorem triedCommands : Obligations.TriedCommands := by
  intro d a mode n k gd one block tries always
  have handle_eq (i : Instr) (w g : Nat) (s : State) : handleOf (mkIss i w g (settle w g s.m)) a (Says.begun i w g s) = one w g s i :=
    congrArg (Group.reg · a.toNat (lowLaneD (Says.eff i w g s))) (begun_reads i w g s)
  refine ⟨?phregNew, ?phreg, ?phdrop, ?phsig, ?phwait, ?phsw, ?gnodeArm, ?gnodeSig, ?capld⟩
  case phregNew => exact Laws.tries _ (fun _ => rfl) rfl fun w g s _ => rfl
  case phreg => exact Laws.tries _ (fun _ => rfl) rfl fun w g s _ => by rw [handle_eq]
  case phdrop => exact Laws.tries _ (fun _ => rfl) rfl fun w g s _ => by rw [handle_eq]
  case phsig => exact Laws.tries _ (fun _ => rfl) rfl fun w g s _ => by rw [handle_eq]
  case phwait => exact Laws.tries _ (fun _ => rfl) rfl fun w g s _ => by rw [handle_eq]
  case phsw => exact Laws.tries _ (fun _ => rfl) rfl fun w g s _ => by rw [handle_eq]
  case gnodeArm =>
    refine Laws.tries _ (fun _ => rfl) rfl fun w g s ⟨hslots, halign⟩ => ?_
    have block_eq : ((Says.begun (.gnodeArm d a gd) w g s).grp w g).pair a.toNat (lowLaneD (Says.eff (.gnodeArm d a gd) w g s)) = block w g s :=
      congrArg (Group.pair · a.toNat (lowLaneD (Says.eff (.gnodeArm d a gd) w g s))) (begun_reads _ w g s)
    rw [← block_eq] at halign ⊢
    exact if_neg (not_or.2 ⟨hslots, not_not.2 halign⟩)
  case gnodeSig =>
    refine Laws.tries _ (fun _ => rfl) rfl fun w g s hlive => ?_
    rw [← handle_eq] at hlive ⊢
    exact if_neg (mt Option.isNone_iff_eq_none.1 hlive)
  case capld =>
    exact ends _ (fun _ => rfl) fun w g s ⟨hf, hcap⟩ => (guarded_eff _ hf.1).trans ((if_neg hcap).trans (if_neg (ne_true_of_eq_false (inRegion_none hf.2))))

/-! ### Messages (R422, R424) -/

section Messages

variable {i : Instr} {off len : Nat} {x : Iss} {m : Mach}

/-- A message's range: aligned, in the scratchpad, in no hidden half of a shadow buffer, of a workgroup with a capability table. -/
theorem msgTrap_none (ha : off % 16 = 0) (hb : off + len ≤ (m.block x.w).scratch) (hk : scratchKeys m x.w off len ≠ none) (hc : (m.block x.w).capTable ≠ 0)
    (hn : inRegion x x.eff m = false) : msgTrap off len x m = none :=
  (if_neg (not_not.2 ha)).trans ((if_neg (Nat.not_lt.2 hb)).trans ((if_neg (mt Option.isNone_iff_eq_none.1 hk)).trans ((if_neg hc).trans
    (if_neg (ne_true_of_eq_false hn)))))

theorem msgTrap_misaligned (ha : off % 16 ≠ 0) : msgTrap off len x m = some (trapEff x .misalignedAccess m) := if_pos ha

theorem msgTrap_bounds (ha : off % 16 = 0) (hb : (m.block x.w).scratch < off + len) : msgTrap off len x m = some (trapEff x .scratchBounds m) :=
  (if_neg (not_not.2 ha)).trans (if_pos hb)

theorem msgTrap_capability (ha : off % 16 = 0) (hb : off + len ≤ (m.block x.w).scratch) (hk : scratchKeys m x.w off len ≠ none) (hc : (m.block x.w).capTable = 0) :
    msgTrap off len x m = some (trapEff x .capabilityInvalid m) :=
  (if_neg (not_not.2 ha)).trans ((if_neg (Nat.not_lt.2 hb)).trans ((if_neg (mt Option.isNone_iff_eq_none.1 hk)).trans (if_pos hc)))

variable {d a : Reg} {lenf : BitVec 8} {pd : BitVec 3} {nb : Bool} {k : BitVec 6} {own : Own} (ho : ((m.grp x.w x.g).reg a.toNat (lowLaneD x.eff)).toNat = off)
include ho

theorem qsendOwn_trap (h0 : x.eff ≠ 0) (ht : msgTrap off (msgBytes lenf) x m = some own) : qsendOwn i a lenf pd nb k x m = own := by
  subst ho
  refine (if_neg h0).trans ?_
  rw [ht]

theorem qrecvOwn_trap (ht : msgTrap off (msgBytes lenf) x m = some own) : qrecvOwn i d a lenf pd nb k x m = own := by
  subst ho
  unfold qrecvOwn
  simp only [ht]

theorem qrecvOwn_hands (ht : msgTrap off (msgBytes lenf) x m = none) : qrecvOwn i d a lenf pd nb k x m =
    .done 0 (handOn i x (waitClass i) (.qrecv k.toNat off (msgBytes lenf) nb pd.toNat d x.eff) false m) := by
  subst ho
  unfold qrecvOwn
  simp only [ht]

end Messages

/-- Settles O41: past the checks of the range (`msgTrap_none`) QSEND reads its message at once or later (`send_own`) and QRECV hands on its buffer; a failed check is the
trap of either (`qsendOwn_trap`, `qrecvOwn_trap`). -/
theorem messagesHandedOn : Obligations.MessagesHandedOn := by
  intro d a len pd nb k gd i j n off ok sends now read
  have off_eq (x : Instr) (w g : Nat) (s : State) : (((Says.begun x w g s).grp w g).reg a.toNat (lowLaneD (Says.eff x w g s))).toNat = off x w g s := by
    rw [begun_reads]
  have clear (x : Instr) (w g : Nat) (s : State) (h : ok x w g s) : msgTrap (off x w g s) n (Says.iss x w g s) (Says.begun x w g s) = none := by
    obtain ⟨⟨_, hn⟩, halign, hbounds, hkeys, hcap⟩ := h
    exact msgTrap_none halign hbounds hkeys hcap (inRegion_none hn)
  have send_eq (w g : Nat) (s : State) (h : ok i w g s) := send_own i a len pd nb k (Says.iss i w g s) (Says.begun i w g s) (off i w g s) h.1.1 (off_eq i w g s).symm
    (clear i w g s h)
  refine ⟨?sendsNow, ?sendsLater, ?receives, ?traps⟩
  case sendsNow =>
    refine Laws.hands _ (fun _ => rfl) fun w g s ⟨hok, hnow⟩ => ⟨n / 32 + n % 32 / 16, (send_eq w g s hok).trans ((if_pos hnow).trans ?_)⟩
    rw [begun_scratch]
    rfl
  case sendsLater =>
    refine ends _ (fun _ => rfl) fun w g s ⟨hok, hlater⟩ => (send_eq w g s hok).trans ((if_neg (ne_true_of_eq_false hlater)).trans ?_)
    rw [begun_nextCmd]
    rfl
  case receives =>
    exact Laws.hands _ (fun _ => rfl) fun w g s hok => ⟨0, (guarded_eff _ hok.1.1).trans (qrecvOwn_hands (x := Says.iss j w g s) (off_eq j w g s) (clear j w g s hok))⟩
  case traps =>
    have raised (x : Instr) (hx : x ∈ [i, j]) (w g : Nat) (s : State) (c : Cause) (hr : Says.Ready x w g s) (h0 : Says.eff x w g s ≠ 0)
        (ht : msgTrap (off x w g s) n (Says.iss x w g s) (Says.begun x w g s) = some (trapEff (Says.iss x w g s) c (Says.begun x w g s))) :
        Says.Traps x w g s c (freeInfo (Says.begun x w g s)) (Says.eff x w g s) 0 := by
      simp only [List.mem_cons, List.not_mem_nil, or_false] at hx
      rcases hx with rfl | rfl
      · exact traps _ (fun _ => rfl) hr (qsendOwn_trap (x := Says.iss i w g s) (off_eq i w g s) h0 ht)
      · exact traps _ (fun _ => rfl) hr ((guarded_eff _ h0).trans (qrecvOwn_trap (x := Says.iss j w g s) (off_eq j w g s) ht))
    intro x hx w g s hr h0
    exact ⟨fun ha => raised x hx w g s _ hr h0 (msgTrap_misaligned ha), fun ha hb => raised x hx w g s _ hr h0 (msgTrap_bounds ha hb),
      fun ha hb hk hc => raised x hx w g s _ hr h0 (msgTrap_capability ha hb hk hc)⟩

end Sys2Proof.Proofs
end

section
/-! The families '19_determinism.md' and '20_traps_preemption.md' (O34, O33, O35): turns and ownership, tempo and extended blocks, and the taking of an exception. -/

namespace Sys2Proof.Proofs

open Sys2Proof Sys2Proof.Machine Sys2Proof.Laws

/-! ### Turns and ownership (R350, R356, R361, R362) -/

section Turns

variable {i : Instr} {w g : Nat} {s : State} {k : Held} {again : Group → Bool} {also : Group → Group}

/-- No active lane of the group stands in a region, and the group is in no serial section and no handler. -/
def Calm (i : Instr) (w g : Nat) (s : State) : Prop :=
  (∀ l ∈ lanesOf (Says.act i w g s), regionOf s.m w g l = none) ∧ (Says.reads w g s).lser = none ∧ (Says.reads w g s).trapMode = none

/-- Past its traps SERIAL or SERIALEND holds its group in deterministic mode, and outside it does nothing. -/
theorem turnOwn_calm (h : Calm i w g s)
    (hopen : isDet (Says.begun i w g s) w = true → turnEnded (Says.begun i w g s) w = false ∧ again (Says.reads w g s) = false) :
    turnOwn k again also (Says.iss i w g s) (Says.begun i w g s) =
      if isDet (Says.begun i w g s) w then turnHold k (Says.iss i w g s) ((Says.begun i w g s).modG w g also) else .done 0 (Says.begun i w g s) := by
  obtain ⟨hregion, hserial, hmode⟩ := h
  have reads_eq : (Says.begun i w g s).grp (Says.iss i w g s).w (Says.iss i w g s).g = Says.reads w g s := begun_reads i w g s
  unfold turnOwn
  rw [reads_eq]
  refine (if_neg ?ended).trans ((if_neg (ne_true_of_eq_false (inRegion_act hregion))).trans ((if_neg (ne_true_of_eq_false (inSerial_none hserial))).trans (if_neg ?mode)))
  case ended =>
    rw [Bool.and_eq_true]
    rintro ⟨hdet, hlate⟩
    obtain ⟨hended, hagain⟩ := hopen hdet
    rw [show turnEnded (Says.begun i w g s) (Says.iss i w g s).w = false from hended, hagain] at hlate
    exact nomatch hlate
  case mode =>
    rw [hmode]
    exact Bool.false_ne_true

theorem turn_ends (he : ∀ s, exec i s = execute i (turnOwn k again also) s) :
    Says.Ends i (fun w g s => Calm i w g s ∧ isDet (Says.begun i w g s) w = false) (fun _ _ _ => 0) fun _ _ _ m => m :=
  ends _ he fun _ _ _ ⟨hcalm, hdet⟩ => (turnOwn_calm hcalm fun h => nomatch hdet.symm.trans h).trans (if_neg (ne_true_of_eq_false hdet))

theorem turn_holds (he : ∀ s, exec i s = execute i (turnOwn k again also) s) (hr : Says.Ready i w g s) (h : Calm i w g s)
    (hdet : isDet (Says.begun i w g s) w = true) (hended : turnEnded (Says.begun i w g s) w = false) (hagain : again (Says.reads w g s) = false) :
    exec i s = .next { s with m := dropSlot w g (((Says.begun i w g s).modG w g also).modG w g fun y =>
      { y with held := some k, gaveUp := (Says.begun i w g s).cycle }) } :=
  (he s).trans (execute_placed hr ((turnOwn_calm h fun _ => ⟨hended, hagain⟩).trans (if_pos hdet)))

end Turns

section Ownership

variable {i : Instr} {d a : Reg} {vault : Bool} {w g : Nat} {s : State} {act : Nat → Nat → Iss → Mach → Own} {own : Own}

/-- The range that an OWNMARK names, in the lowest lane. -/
def namedRange (i : Instr) (d a : Reg) (vault : Bool) (w g : Nat) (s : State) : Nat × Nat :=
  ownRange (Says.reads w g s) d a vault (lowLaneD (Says.eff i w g s))

/-- An OWNMARK in deterministic mode whose range breaks no rule of R362. -/
def GoodRange (i : Instr) (d a : Reg) (vault : Bool) (w g : Nat) (s : State) : Prop :=
  Says.Free i w g s ∧ isDet (Says.begun i w g s) w = true ∧
    ownRangeTrap (Says.begun i w g s) ((Says.begun i w g s).wg w).part vault (namedRange i d a vault w g s).1 (namedRange i d a vault w g s).2 = none

theorem ownmark_off (he : ∀ s, exec i s = execute i (ownmark d a vault act) s) :
    Says.Ends i (fun w g s => Says.Free i w g s ∧ isDet (Says.begun i w g s) w = false) (fun _ _ _ => 0) fun _ _ _ m => m :=
  ends_free _ he fun _ _ _ hdet => if_neg (ne_true_of_eq_false hdet)

/-- An OWNMARK of a good range does its own part. -/
theorem ownmark_good (h : GoodRange i d a vault w g s) : ownmark d a vault act (Says.iss i w g s) (Says.begun i w g s) =
    act (namedRange i d a vault w g s).1 (namedRange i d a vault w g s).2 (Says.iss i w g s) (Says.begun i w g s) := by
  obtain ⟨hfree, hdet, hrange⟩ := h
  have range_eq : ownRange ((Says.begun i w g s).grp (mkIss i w g (settle w g s.m)).w (mkIss i w g (settle w g s.m)).g) d a vault
      (lowLaneD (mkIss i w g (settle w g s.m)).eff) = namedRange i d a vault w g s := congrArg (ownRange · d a vault _) (begun_reads i w g s)
  refine (guarded_noRegion' _ hfree).trans ((if_pos hdet).trans ?_)
  dsimp only
  rw [range_eq, mkIss_w, hrange]
  rfl

/-- No entry of another workgroup in the table overlaps the range. -/
theorem unowned_iff {os : List OwnEnt} {w base len : Nat} : (os.any fun o => decide (o.wg ≠ w) && overlaps o.vault o.base o.size vault base len) = false ↔
    ∀ o ∈ os, o.wg ≠ w → overlaps o.vault o.base o.size vault base len = false := by
  simp [List.any_eq_false]

/-- No entry but `e` gives a part of the range to another class. -/
theorem sameClass_iff {rs : Store RegionEnt} {e base len : Nat} {cls : RegionClass} :
    (rs.any fun r => decide (r.1 ≠ e) && r.2.used && decide (r.2.cls ≠ cls) && overlaps r.2.vault r.2.base r.2.size vault base len) = false ↔
      ∀ r ∈ rs, r.1 ≠ e → r.2.used = true → r.2.cls ≠ cls → overlaps r.2.vault r.2.base r.2.size vault base len = false := by
  simp [List.any_eq_false]

end Ownership

/-- Settles O34: SERIAL and SERIALEND are one form (`turnOwn_calm`), and an OWNMARK of a good range does its own part (`ownmark_good`) where no entry of the table stands
against it (`unowned_iff`, `sameClass_iff`). -/
theorem turnsAndOwnership : Obligations.TurnsAndOwnership := by
  intro st d a e cls vault gd det calm ok held none_ range good p h r part
  refine ⟨turn_ends fun _ => rfl, turn_ends fun _ => rfl, ownmark_off fun _ => rfl, ownmark_off fun _ => rfl, ?regionOff, ?serial, ?serialend, ?priv, ?shared, ?clear, ?region⟩
  case regionOff =>
    by_cases hc : cls = .clear
    · exact ends_free _ (fun s => congrArg (execute r · s) (if_pos hc)) fun _ _ _ hdet => if_pos hdet
    · exact ownmark_off fun s => congrArg (execute r · s) (if_neg hc)
  case serial => exact fun w g s hr hcalm hdet hended _ => turn_holds (fun _ => rfl) hr hcalm hdet hended rfl
  case serialend => exact fun w g s hr hcalm hdet hended hagain => turn_holds (fun _ => rfl) hr hcalm hdet hended (hagain rfl)
  case priv =>
    refine ends _ (fun _ => rfl) fun w g s ⟨hgood, hroom, hfree⟩ => (ownmark_good hgood).trans ((if_neg ?_).trans (if_pos hroom))
    exact ne_true_of_eq_false (unowned_iff.2 hfree)
  case shared => exact ends _ (fun _ => rfl) fun w g s hgood => ownmark_good hgood
  case clear =>
    intro hc
    exact ends _ (fun s => congrArg (execute r · s) (if_pos hc)) fun w g s ⟨hfree, hdet, hturn⟩ =>
      (guarded_noRegion' _ hfree).trans ((if_neg (ne_false_of_eq_true hdet)).trans (if_neg (ne_false_of_eq_true hturn)))
  case region =>
    intro hc
    refine ends _ (fun s => congrArg (execute r · s) (if_neg hc)) fun w g s ⟨hgood, hturn, hclass⟩ =>
      (ownmark_good hgood).trans ((if_neg (ne_false_of_eq_true hturn)).trans (if_neg ?_))
    exact ne_true_of_eq_false (sameClass_iff.2 hclass)

/-! ### Tempo and extended blocks (R380, R56, R58, R59) -/

/-- What a change makes of a context is all that counts of it. -/
theorem modC_congr {m : Mach} {p c : Nat} {f h : Ctx → Ctx} (he : f (m.ctx p c) = h (m.ctx p c)) : m.modC p c f = m.modC p c h := by
  have ctxs_eq : Store.upd default (m.part p).ctxs c f = Store.upd default (m.part p).ctxs c h := congrArg (Store.put _ c) he
  have part_eq : ({ m.part p with ctxs := Store.upd default (m.part p).ctxs c f } : Part) = { m.part p with ctxs := Store.upd default (m.part p).ctxs c h } := by
    rw [ctxs_eq]
  exact congrArg (fun q => { m with parts := Store.put m.parts p q }) part_eq

/-- A budget is positive where it is not spent. -/
theorem not_spent (v : Word) : (!(spent v)) = decide (0 < v.toInt) := by
  unfold spent
  rw [← decide_not]
  exact decide_eq_decide.2 Int.not_le

/-- XREL of a group whose request waits takes the request back. -/
theorem xrelOwn_pending {x : Iss} {m : Mach} (h : (m.grp x.w x.g).extPending = true) : xrelOwn x m =
    .done 0 ((m.modG x.w x.g fun y => { y with extPending := false, outs := y.outs.filter fun o => !(isXacq o) }).modW x.w
      fun z => { z with xacqQ := z.xacqQ.filter fun g => decide (g ≠ x.g) }) :=
  if_pos h

/-- XREL of a group that asks for nothing gives its block up. -/
theorem xrelOwn_idle {x : Iss} {m : Mach} (h : (m.grp x.w x.g).extPending = false) : xrelOwn x m = .done 0 (m.modG x.w x.g Group.dropExt) :=
  if_neg (ne_true_of_eq_false h)

/-- What the group asks for before XREL is what it asks for as XREL begins. -/
theorem reads_extPending {i : Instr} {w g : Nat} {s : State} {b : Bool} (h : (Says.reads w g s).extPending = b) :
    ((Says.begun i w g s).grp (mkIss i w g (settle w g s.m)).w (mkIss i w g (settle w g s.m)).g).extPending = b :=
  (congrArg Group.extPending (begun_reads i w g s)).trans h

/-- A command is no request for an extended block, in the statement's words. -/
theorem not_isXacq (o : Out) : (!(isXacq o)) = (match o.kind with | .xacq => false | _ => true) := by
  unfold isXacq
  cases o.kind <;> rfl

/-- Settles O33: BTOPUP is `topUp_eq` on each budget, XACQ asks once, and XREL is one of `xrelOwn_pending` and `xrelOwn_idle`. -/
theorem tempoAndExtendedBlocks : Obligations.TempoAndExtendedBlocks := by
  intro a b gd t ok moved
  refine ⟨?tops, ?privilege, ?again, ?asks, ?withdraws, ?gives⟩
  case tops =>
    refine ends_free _ (fun _ => rfl) fun w g s htop => (if_neg (ne_false_of_eq_true htop)).trans ?_
    rw [show (Says.begun t w g s).grp (mkIss t w g (settle w g s.m)).w (mkIss t w g (settle w g s.m)).g = Says.reads w g s from begun_reads t w g s]
    dsimp only
    simp only [topUp_eq, not_spent]
    exact congrArg (Own.done 0 ·) (congrArg (Mach.modW · w _) (modC_congr rfl))
  case privilege =>
    exact fun w g s hr hok htop => traps _ (fun _ => rfl) hr ((guarded_noRegion' _ hok).trans (if_pos htop))
  case again =>
    refine ends_free _ (fun _ => rfl) fun w g s ⟨hmax, hgot⟩ => (if_neg hmax).trans (if_pos ?_)
    rw [mkIss_w, mkIss_g, begun_reads, Bool.or_eq_true]
    exact hgot
  case asks =>
    refine ends_free _ (fun _ => rfl) fun w g s ⟨hmax, hheld, hpending⟩ => (if_neg hmax).trans (if_neg ?_)
    rw [mkIss_w, mkIss_g, begun_reads, hheld, hpending]
    exact Bool.false_ne_true
  case withdraws =>
    refine ends_free _ (fun _ => rfl) fun w g s hpending => (xrelOwn_pending (reads_extPending hpending)).trans ?_
    simp only [not_isXacq]
    rfl
  case gives => exact ends_free _ (fun _ => rfl) fun w g s hidle => (xrelOwn_idle (reads_extPending hidle)).trans rfl

/-! ### Taking an exception (R368 to R370) -/

/-- Settles O35: a trap with no region open is entered at the place of its frame (`enterTrap_eq`), where it is a double fault (`enterAt_twice`) or leaves its record
(`enterAt_law`). -/
theorem trapEntry : Obligations.TrapEntry := by
  intro w g t m0 l x y h f place m head n z le r hregions
  have entered : n = enterAt w g t t h f place.1 m := enterTrap_eq w g t m0 hregions
  obtain ⟨hwgs, hhbm, hvault, hscratch⟩ : sameData l m := (retryCode_data ..).trans (frameAt_data ..)
  have wg_eq : m.wg w = x := by
    unfold Mach.wg
    rw [hwgs]
    rfl
  have grp_eq : m.grp w g = y := congrArg (fun z : Wg => Store.get default z.groups g) wg_eq
  have head_eq : headerAt m (wgSite m w) (m.wg w).part (m.wg w).ctx h = head := by rw [wg_eq]
  refine ⟨hwgs, hhbm, hvault, hscratch, ?twice, ?enters⟩
  case twice =>
    intro hbad
    rw [← grp_eq, ← head_eq] at hbad
    exact entered.trans (enterAt_twice hbad)
  case enters =>
    intro hd fr hmode hh hhead hplace
    rw [← head_eq] at hhead
    rw [hplace] at entered
    have law := enterAt_law (t := t) (t0 := t) (f := f) (fr := fr) (grp_eq ▸ hmode) hh hhead
    rw [← entered, grp_eq] at law
    exact law

end Sys2Proof.Proofs
end

section
/-! The family '23_host_fabric_security.md' (O59, O58): the boot invariant, and a device in recovery. -/

namespace Sys2Proof.Proofs

open Sys2Proof Sys2Proof.Machine Sys2Proof.Laws

/-! ### What boots stays what verified (R428) -/

theorem touches_iff {i : Instr} : touches i = true ↔
    (∃ image key sig, i = .firmwareBoot image key sig) ∨ (∃ nonce, i = .attestationRequest nonce) ∨ i = .deviceReset ∨ ∃ dom, i = .linkTraining dom := by
  constructor
  case mp =>
    intro h
    unfold touches at h
    split at h
    · exact .inl ⟨_, _, _, rfl⟩
    · exact .inr (.inl ⟨_, rfl⟩)
    · exact .inr (.inr (.inl rfl))
    · exact .inr (.inr (.inr ⟨_, rfl⟩))
    · cases h
  case mpr => rintro (⟨_, _, _, rfl⟩ | ⟨_, rfl⟩ | rfl | ⟨_, rfl⟩) <;> rfl

section Boot

variable {s t : State}

/-- The boot ROM starts an image only where it verifies. -/
theorem firmwareBoot_inv {image key sig : List Byte} (hs : inv s) (h : execFirmwareBoot image key sig s = .next t) : inv t := by
  unfold execFirmwareBoot at h
  split at h
  case isTrue hboot =>
    cases h
    exact fun _ => bootOk_iff.1 hboot.2
  case isFalse =>
    cases h
    exact hs

/-- A report is added to the device's reports, and nothing that boots changes. -/
theorem attestationRequest_inv {nonce : Challenge} (hs : inv s) (h : execAttestationRequest nonce s = .next t) : inv t := by
  unfold execAttestationRequest at h
  split at h <;> cases h <;> exact hs

/-- A reset leaves the device in recovery. -/
theorem deviceReset_inv (h : execDeviceReset s = .next t) : inv t := by
  cases h
  exact fun running => Bool.noConfusion running

theorem linkTraining_inv {dom : Nat} (hs : inv s) (h : execLinkTraining dom s = .next t) : inv t := by
  unfold execLinkTraining at h
  split at h <;> cases h <;> exact hs

/-- Every instruction and every step of the table keeps the boot invariant: four touch the management hardware, and the others leave it alone (`exec_hw`). -/
theorem exec_inv {i : Instr} (hs : inv s) (h : exec i s = .next t) : inv t := by
  cases hi : touches i
  case false => exact inv_same (exec_hw i hi s t h) hs
  case true =>
    rcases touches_iff.1 hi with ⟨image, key, sig, rfl⟩ | ⟨nonce, rfl⟩ | rfl | ⟨dom, rfl⟩
    · exact firmwareBoot_inv hs h
    · exact attestationRequest_inv hs h
    · exact deviceReset_inv h
    · exact linkTraining_inv hs h

theorem issueWord_inv {w g : Nat} (hs : inv s) (h : issueWord w g s = .next t) : inv t := by
  unfold issueWord at h
  split at h
  · split at h
    · exact exec_inv (s := s.issuing w g) hs h
    · split at h
      · cases h
        exact inv_same (s := s) rfl hs
      · cases h
        exact hs
  · cases h
    exact hs

theorem takeChoice_inv {c : Choice} (hs : inv s) (h : takeChoice c s = .next t) : inv t := by
  cases c with
  | issue w g => exact issueWord_inv hs h
  | event i =>
    change (if instrIsEvent i then exec i s else .next s) = .next t at h
    split at h
    · exact exec_inv hs h
    · cases h
      exact hs

theorem defaultStep_inv (hs : inv s) (h : defaultStep s = .next t) : inv t := by
  unfold defaultStep at h
  split at h
  · exact issueWord_inv (s := { s with turn := s.turn + 1 }) hs h
  · exact inv_same (eventStep_hw h) hs

end Boot

/-- Settles O59: a step, scheduled or by default, issues a word, is a step of the table or changes nothing, and each instruction keeps the invariant (`exec_inv`). -/
theorem bootInvariantStep : Obligations.BootInvariantStep := by
  intro s t hs h
  unfold step at h
  split at h
  · exact takeChoice_inv (s := { s.aged with schedule := _ }) hs h
  · exact defaultStep_inv (s := s.aged) hs h

/-! ### A device in recovery executes nothing (R428) -/

/-- Settles O58: every instruction and every step of the table but the five that the statement names asks first whether the device runs. -/
theorem recoveryExecutesNothing : Obligations.RecoveryExecutesNothing := by
  intro i s hrun hi
  cases i with
  | firmwareBoot | attestationRequest | deviceReset | linkTraining | planeLinkDown => cases hi
  | _ => exact if_neg (Bool.eq_false_iff.1 hrun)

end Sys2Proof.Proofs
end
